-- ==== Sys2Proof/Word.lean ====
section
/-! DEFINITION. Word types and the sparse tables that hold the machine's collections. -/

set_option Elab.async false

namespace Sys2Proof

/-- A register, pad word or barrier word (R4). -/
abbrev Word := BitVec 32
/-- An instruction word, an address or a register pair (R4). -/
abbrev DWord := BitVec 64
/-- One byte of memory. -/
abbrev Byte := BitVec 8

/-- A finite table: keys strictly rising. What an absent key reads as is given to `get`. -/
abbrev Tab (α : Type) := List (Nat × α)

namespace Tab

/-- The entry at a key, if the table lists one. -/
def find? {α : Type} : Tab α → Nat → Option α
  | [], _ => none
  | (k, v) :: t, n => if k = n then some v else find? t n

/-- The entry at a key, or `d` where the table lists none. -/
def get {α : Type} (d : α) (t : Tab α) (n : Nat) : α := (find? t n).getD d

/-- Remove a key. -/
def del {α : Type} : Tab α → Nat → Tab α
  | [], _ => []
  | (k, v) :: t, n => if k = n then del t n else (k, v) :: del t n

/-- Insert or replace, keeping the keys rising. -/
def put {α : Type} : Tab α → Nat → α → Tab α
  | [], n, v => [(n, v)]
  | (k, w) :: t, n, v =>
    if n < k then (n, v) :: (k, w) :: t
    else if n = k then (n, v) :: t
    else (k, w) :: put t n v

/-- Write a key of a table whose absent keys read as `d`: writing `d` removes the entry. -/
def set {α : Type} [DecidableEq α] (d : α) (t : Tab α) (n : Nat) (v : α) : Tab α :=
  if v = d then del t n else put t n v

/-- The canonical form: keys strictly rising and above `lo`, and no entry equal to the absent value. -/
def wfFrom {α : Type} [DecidableEq α] (d : α) : Nat → Tab α → Bool
  | _, [] => true
  | lo, (k, v) :: t => lo ≤ k && v ≠ d && wfFrom d (k + 1) t

/-- The canonical form from key 0. -/
def wf {α : Type} [DecidableEq α] (d : α) (t : Tab α) : Bool := wfFrom d 0 t

/-- The keys that are listed. -/
def keys {α : Type} (t : Tab α) : List Nat := t.map (·.1)

end Tab

end Sys2Proof
end

