-- ==== Sys2Proof/Syntax.lean ====
section
/-! DEFINITION. The instructions: every row of the opcode table, with decoded operands. -/

set_option Elab.async false

namespace Sys2Proof

/-- An operand of R71, as an 8-bit operand field names it. -/
inductive Opnd where
  /-- v0 to v191, per thread. -/
  | vec (n : Fin 192)
  /-- s0 to s47, per squad. -/
  | sca (n : Fin 48)
  /-- Reads zero; a write is discarded. -/
  | zero
  /-- Lane index in the squad. -/
  | laneid
  /-- Lane index in the quad. -/
  | quadid
  /-- Squad index in the block. -/
  | squadid
  /-- Block index. -/
  | blockid
  /-- Thread index in the block. -/
  | tid
  /-- Argument pointer, bits 31:0. -/
  | argl
  /-- Argument pointer, bits 63:32. -/
  | argh
  /-- 0xF8 to 0xFF, reserved. -/
  | rsv (n : Fin 8)
deriving DecidableEq, Repr

/-- A source predicate specifier (R117). -/
structure PSpec where
  neg : Bool
  pn : BitVec 3
deriving DecidableEq, Repr

/-- A destination predicate p0 to p7 (R117). -/
abbrev Pred := BitVec 3

/-- The marker and the guard of a full-form word (R63, R64). -/
structure Hdr where
  /-- S, the switch marker. -/
  s : Bool
  /-- The guard's complement bit. -/
  neg : Bool
  /-- The guard's predicate. -/
  pn : BitVec 3
deriving DecidableEq, Repr

/-- The type of an integer instruction (R122). -/
inductive ITy where
  | i32 | n32 | i64 | n64
deriving DecidableEq, Repr

/-- The last source of an instruction that admits Form I: a register operand or IMM20 (R67). -/
inductive RI where
  | reg (o : Opnd)
  | imm (v : BitVec 20)
deriving DecidableEq, Repr

/-- The EXT bits of Form R (R66). -/
structure Ext where
  na : Bool
  aa : Bool
  nb : Bool
  ab : Bool
  nc : Bool
  ac : Bool
  sat : Bool
  sre : Bool
  rmo : Bool
  rm : BitVec 2
deriving DecidableEq, Repr

/-- A condition of cmp (R128). -/
inductive ICond where
  | eq | ne | lt | le | gt | ge
deriving DecidableEq, Repr

/-- A condition of fcmp (R135). -/
inductive FCond where
  | eq | ne | lt | le | gt | ge | un | ord
deriving DecidableEq, Repr

/-- The format of a floating-point instruction (R132). -/
inductive FTy where
  | f32 | f64
deriving DecidableEq, Repr

/-- The variants of pset with their sources (R130). -/
inductive PsetOp where
  | nz (ty : ITy) (a : Opnd)
  | mask (a : Opnd)
  | and (a b : PSpec)
  | or (a b : PSpec)
  | xor (a b : PSpec)
  | andn (a b : PSpec)
deriving DecidableEq, Repr

/-- The sixteen type codes (R140). -/
inductive TyCode where
  | i8 | i16 | i32 | i64 | n8 | n16 | n32 | n64
  | f16 | bf16 | f32 | f64 | e5m2 | e4m3 | d8 | mx8
deriving DecidableEq, Repr

/-- The wide side of pack and unpack (R143, R144). -/
inductive PSrc where
  | f32 | i32 | n32
deriving DecidableEq, Repr

/-- The variants of shfl (R149). -/
inductive ShflVar where
  | idx | up | down | xor
deriving DecidableEq, Repr

/-- The operations of redux and scan (R150). -/
inductive RedOp where
  | add | min | max | and | or
deriving DecidableEq, Repr

/-- The types of the cross-lane group (R148). -/
inductive CTy where
  | i32 | n32 | f32
deriving DecidableEq, Repr

/-- The variants of vote (R152). -/
inductive VoteVar where
  | all | any | uni
deriving DecidableEq, Repr

/-- The variants of qx (R153). -/
inductive QxVar where
  | h | v | diag
deriving DecidableEq, Repr

/-- The index of qbc: a register, or an immediate from 0 to 3 (R153). -/
inductive QSel where
  | reg (o : Opnd)
  | imm (k : Fin 4)
deriving DecidableEq, Repr

/-- A live-register count, 0 to 48 (R70). -/
abbrev Live := Fin 49

/-- The count of loop: an immediate, or a scalar register (R174). -/
inductive LoopCount where
  | imm (n : BitVec 10)
  | reg (a : Opnd)
deriving DecidableEq, Repr

/-- One order of a memory access (R68). -/
inductive Ord where
  | plain | acq | rel | ar
deriving DecidableEq, Repr

/-- The X field of Form M (R68); `obs` holds H, E, D, M, X, C from bit 5 down. -/
structure MemX where
  off : BitVec 12
  obs : BitVec 6
  ord : Ord
deriving DecidableEq, Repr

/-- Sizes of ld (R267). -/
inductive LdSz where
  | b8 | i8 | b16 | i16 | b32 | b64 | b128
deriving DecidableEq, Repr

/-- Sizes of st (R267). -/
inductive StSz where
  | b8 | b16 | b32 | b64 | b128
deriving DecidableEq, Repr

/-- Hints of ld and st (R267). -/
inductive Hint where
  | none | ef | na
deriving DecidableEq, Repr

/-- Integer atomic operations (R285). -/
inductive AOp where
  | add | min | max | and | or | xor | xchg | cas
deriving DecidableEq, Repr

/-- The operations of atom and red (R285). -/
inductive AtomOp where
  | int (op : AOp) (ty : ITy)
  | faddF32 | faddF64 | fminF32 | fmaxF32 | fminF64 | fmaxF64 | faddBf16
deriving DecidableEq, Repr

/-- The variants of cpf (R269). -/
inductive CpfVar where
  | l1 | dc | ms | dcw
deriving DecidableEq, Repr

/-- Sizes of pld (R190). -/
inductive PldSz where
  | b8 | i8 | b16 | i16 | b32 | b64
deriving DecidableEq, Repr

/-- Sizes of pst (R190). -/
inductive PstSz where
  | b8 | b16 | b32 | b64
deriving DecidableEq, Repr

/-- The operations of patom with their types (R191). -/
inductive PatOp where
  | i32 (op : AOp)
  | n32 (op : AOp)
  /-- add, and, or, xor, xchg or cas on eight bytes; min and max are not admitted. -/
  | b64 (op : AOp)
  | minF | maxF | faddF
deriving DecidableEq, Repr

/-- A tag mask: an even scalar pair, or one tag (R204). -/
inductive TMask where
  | reg (a : Opnd)
  | tag (n : BitVec 6)
deriving DecidableEq, Repr

/-- The kinds of watch (R205). -/
inductive WatchKind where
  | global | pad | off
deriving DecidableEq, Repr

/-- The kinds of fence (R306). -/
inductive FenceKind where
  | acq | rel | ar
deriving DecidableEq, Repr

/-- A restricted operation of a pair slot (R74), in the order of ROP. -/
inductive Rop where
  | nop | mov | movi8 | add | addi8 | sub | subi8 | and | andi8 | or | ori8 | xor | xori8 | not | neg
  | shl | shli8 | shr | shri8 | sar | sari8 | min | max | fadd | fsub | fmul | fmin | fmax | fabs | fneg
  | cvtF | cvtI
deriving DecidableEq, Repr

/-- One slot of a pair word (R73). `b` is the raw B field: an operand, or imm8. -/
structure Slot where
  rop : Rop
  pr2 : BitVec 2
  ty : Bool
  sat : Bool
  d : BitVec 8
  b : BitVec 8
deriving DecidableEq, Repr

/-- A squad slot of a resident block: stall, physical core, block position, squad slot. -/
structure Sel where
  stall : Nat
  core : Nat
  pos : Nat
  slot : Nat
deriving DecidableEq, Repr

/-- A block position: stall, physical core, position. -/
structure BSel where
  stall : Nat
  core : Nat
  pos : Nat
deriving DecidableEq, Repr

/-- Where an uncorrectable error strikes: a line of device memory (R265), or a granule of 8 bytes of a block's pad or
accumulator memory (R189). -/
inductive ErrAt where
  | mem (pa : Nat)
  | pad (b : BSel) (granule : Nat)
  | am (b : BSel) (granule : Nat)
deriving DecidableEq, Repr

/-- One constructor per row of the opcode table. Word instructions first, then the events of the machine. -/
inductive Instr where
  /-- R123: Integer add per active lane, wrapping or saturating. -/
  | add (h : Hdr) (ty : ITy) (sat : Bool) (d a : Opnd) (b : RI)
  /-- R123: Integer subtract per active lane. -/
  | sub (h : Hdr) (ty : ITy) (sat : Bool) (d a : Opnd) (b : RI)
  /-- R123: Integer multiply, low half. -/
  | mul (h : Hdr) (ty : ITy) (sat : Bool) (d a : Opnd) (b : RI)
  /-- R123: Integer multiply, high half of the product. -/
  | mulhi (h : Hdr) (ty : ITy) (d a : Opnd) (b : RI)
  /-- R123: Integer multiply-add a*b+c. -/
  | mad (h : Hdr) (ty : ITy) (sat : Bool) (d a b : Opnd) (c : RI)
  /-- R124: Truncating integer divide; a zero divisor raises 0x10. -/
  | div (h : Hdr) (ty : ITy) (sat : Bool) (d a : Opnd) (b : RI)
  /-- R124: Integer remainder with the sign of the dividend. -/
  | rem (h : Hdr) (ty : ITy) (d a : Opnd) (b : RI)
  /-- R123: Integer minimum, signed or natural by type. -/
  | min (h : Hdr) (ty : ITy) (d a : Opnd) (b : RI)
  /-- R123: Integer maximum, signed or natural by type. -/
  | max (h : Hdr) (ty : ITy) (d a : Opnd) (b : RI)
  /-- R123: Integer absolute value. -/
  | abs (h : Hdr) (ty : ITy) (sat : Bool) (d a : Opnd)
  /-- R123: Integer negation. -/
  | neg (h : Hdr) (ty : ITy) (sat : Bool) (d a : Opnd)
  /-- R125: Bitwise AND. -/
  | and (h : Hdr) (ty : ITy) (d a : Opnd) (b : RI)
  /-- R125: Bitwise OR. -/
  | or (h : Hdr) (ty : ITy) (d a : Opnd) (b : RI)
  /-- R125: Bitwise XOR. -/
  | xor (h : Hdr) (ty : ITy) (d a : Opnd) (b : RI)
  /-- R125: Bitwise complement. -/
  | not (h : Hdr) (ty : ITy) (d a : Opnd)
  /-- R125: a AND NOT b. -/
  | andn (h : Hdr) (ty : ITy) (d a : Opnd) (b : RI)
  /-- R125: Logical shift left. -/
  | shl (h : Hdr) (ty : ITy) (d a : Opnd) (b : RI)
  /-- R125: Logical shift right. -/
  | shr (h : Hdr) (ty : ITy) (d a : Opnd) (b : RI)
  /-- R125: Arithmetic shift right. -/
  | sar (h : Hdr) (ty : ITy) (d a : Opnd) (b : RI)
  /-- R125: Rotate left. -/
  | rot (h : Hdr) (ty : ITy) (d a : Opnd) (b : RI)
  /-- R126: Count leading zero bits. -/
  | clz (h : Hdr) (ty : ITy) (d a : Opnd)
  /-- R126: Count set bits. -/
  | popc (h : Hdr) (ty : ITy) (d a : Opnd)
  /-- R126: Reverse the bits of a. -/
  | brev (h : Hdr) (ty : ITy) (d a : Opnd)
  /-- R127: Extract a bit field, sign- or zero-extended. -/
  | bfx (h : Hdr) (ty : ITy) (d a : Opnd) (spec : RI)
  /-- R127: Insert a bit field into b. -/
  | bfi (h : Hdr) (ty : ITy) (d a b : Opnd) (spec : RI)
  /-- R129: Select a or b by a predicate. -/
  | sel (h : Hdr) (ty : ITy) (d a b : Opnd) (p : PSpec)
  /-- R128: Integer compare into a predicate. -/
  | cmp (h : Hdr) (cond : ICond) (ty : ITy) (pd : Pred) (a : Opnd) (b : RI)
  /-- R131: 64-bit address add with scaled index. -/
  | lea (h : Hdr) (sh : BitVec 3) (nat : Bool) (d a : Opnd) (b : RI)
  /-- R131: Register move of 32 or 64 bits. -/
  | mov (h : Hdr) (ty : ITy) (d a : Opnd)
  /-- R131: Move an extended 20-bit immediate. -/
  | movi (h : Hdr) (ty : ITy) (d : Opnd) (imm : BitVec 20)
  /-- R131: Write the upper 20 bits of a register, keeping its low 12. -/
  | movh (h : Hdr) (nat : Bool) (d : Opnd) (imm : BitVec 20)
  /-- R130: Set a predicate from a register, mask or predicate logic. -/
  | pset (h : Hdr) (op : PsetOp) (pd : Pred)
  /-- R133: Floating-point add with one rounding. -/
  | fadd (h : Hdr) (ft : FTy) (e : Ext) (d a b : Opnd)
  /-- R133: Floating-point subtract. -/
  | fsub (h : Hdr) (ft : FTy) (e : Ext) (d a b : Opnd)
  /-- R133: Floating-point multiply. -/
  | fmul (h : Hdr) (ft : FTy) (e : Ext) (d a b : Opnd)
  /-- R133: Fused multiply-add with one rounding. -/
  | ffma (h : Hdr) (ft : FTy) (e : Ext) (d a b c : Opnd)
  /-- R134: Floating-point minimum, -0 below +0. -/
  | fmin (h : Hdr) (ft : FTy) (e : Ext) (d a b : Opnd)
  /-- R134: Floating-point maximum. -/
  | fmax (h : Hdr) (ft : FTy) (e : Ext) (d a b : Opnd)
  /-- R135: Floating-point compare into a predicate. -/
  | fcmp (h : Hdr) (cond : FCond) (ft : FTy) (e : Ext) (pd : Pred) (a b : Opnd)
  /-- R136: Select a or b by the sign of c. -/
  | fsel (h : Hdr) (ft : FTy) (e : Ext) (d a b c : Opnd)
  /-- R136: Round to an integral value in the same format. -/
  | frnd (h : Hdr) (ft : FTy) (nx : Bool) (e : Ext) (d a : Opnd)
  /-- R133: Floating-point divide. -/
  | fdiv (h : Hdr) (ft : FTy) (e : Ext) (d a b : Opnd)
  /-- R133: Floating-point square root. -/
  | fsqrt (h : Hdr) (ft : FTy) (e : Ext) (d a : Opnd)
  /-- R137: Two-element f16/bf16 dot product added to f32. -/
  | fdot2 (h : Hdr) (bf : Bool) (e : Ext) (d a b c : Opnd)
  /-- R141: Convert between type codes, including MX blocks. -/
  | cvt (h : Hdr) (e : Ext) (dst src : TyCode) (d a c : Opnd)
  /-- R143: Convert and pack several values into one register. -/
  | pack (h : Hdr) (e : Ext) (dst : TyCode) (src : PSrc) (d a b : Opnd)
  /-- R144: Unpack packed elements into several registers. -/
  | unpack (h : Hdr) (src : TyCode) (dst : PSrc) (d a : Opnd)
  /-- R138: Reciprocal, truncated. -/
  | frcp (h : Hdr) (d a : Opnd)
  /-- R138: Reciprocal square root. -/
  | frsq (h : Hdr) (d a : Opnd)
  /-- R138: Base-2 exponential. -/
  | fexp2 (h : Hdr) (d a : Opnd)
  /-- R138: Base-2 logarithm. -/
  | flog2 (h : Hdr) (d a : Opnd)
  /-- R138: sin(pi x). -/
  | fsinp (h : Hdr) (d a : Opnd)
  /-- R138: cos(pi x). -/
  | fcosp (h : Hdr) (d a : Opnd)
  /-- R146: Welford update of a (n, mean, M2) triple. -/
  | wfu (h : Hdr) (d a : Opnd)
  /-- R147: Welford merge of two triples. -/
  | wfm (h : Hdr) (d a : Opnd)
  /-- R145: Return and replace the lane's random state. -/
  | rseed (h : Hdr) (d a : Opnd)
  /-- R149: Cross-lane shuffle within the squad. -/
  | shfl (h : Hdr) (var : ShflVar) (nat : Bool) (d a : Opnd) (b : RI)
  /-- R150: Reduce over active lanes. -/
  | redux (h : Hdr) (op : RedOp) (ty : CTy) (e : Ext) (d a : Opnd)
  /-- R151: Inclusive or exclusive prefix scan over active lanes. -/
  | scan (h : Hdr) (excl : Bool) (op : RedOp) (ty : CTy) (e : Ext) (d a : Opnd)
  /-- R152: Collect a predicate of every active lane into a mask. -/
  | ballot (h : Hdr) (d : Opnd) (p : PSpec)
  /-- R152: all/any/uni vote into a predicate. -/
  | vote (h : Hdr) (var : VoteVar) (pd : Pred) (p : PSpec)
  /-- R153: Exchange with a partner lane of the quad. -/
  | qx (h : Hdr) (var : QxVar) (nat : Bool) (d a : Opnd)
  /-- R153: Broadcast from a chosen lane of the quad. -/
  | qbc (h : Hdr) (nat : Bool) (d a : Opnd) (b : QSel)
  /-- R76: Two restricted operations issued together in one paired word. -/
  | pairWord (s : Bool) (sa sb : Slot)
  /-- R178: Direct branch; divergent groups are filed or held. -/
  | bra (h : Hdr) (off : BitVec 24) (live : Live)
  /-- R179: Indirect branch to a tagged land word. -/
  | jmp (h : Hdr) (a : Opnd) (tag : BitVec 12) (live : Live)
  /-- R178: Direct call writing a link to a land target. -/
  | call (h : Hdr) (link : Opnd) (off : BitVec 24) (live : Live)
  /-- R179: Indirect call to a tagged land word. -/
  | calli (h : Hdr) (d a : Opnd) (tag : BitVec 12) (live : Live)
  /-- R179: Return through a target register. -/
  | ret (h : Hdr) (a : Opnd) (live : Live)
  /-- R180: Landing pad; no effect. -/
  | land (h : Hdr) (tag : BitVec 12)
  /-- R181: File the squad's threads at a reconvergence point. -/
  | reform (s : Bool) (live : Live)
  /-- R174: Start a hardware loop on a loop counter. -/
  | loop (s : Bool) (ctr : Fin 3) (count : LoopCount) (len : BitVec 10)
  /-- R175: When all entered lanes wait at the body end, the counter is decremented and the body repeats or the loop ends. -/
  | loopEndTest (q : Sel)
  /-- R461: Halt the block with 0x71 breakpoint. -/
  | brk (h : Hdr) (code : BitVec 12)
  /-- R182: End the threads of the active lanes. -/
  | exit (h : Hdr)
  /-- R183: Requeue the squad in the issue ranking. -/
  | yield (h : Hdr)
  /-- R183: No effect. -/
  | nop (h : Hdr)
  /-- R268: Load from virtual memory with ordering and observers. -/
  | ld (h : Hdr) (sz : LdSz) (hint : Hint) (m : MemX) (d a : Opnd)
  /-- R268: Store to virtual memory through the store queue. -/
  | st (h : Hdr) (sz : StSz) (hint : Hint) (m : MemX) (a b : Opnd)
  /-- R286: Atomic read-modify-write returning the old value. -/
  | atom (h : Hdr) (op : AtomOp) (m : MemX) (d a b : Opnd)
  /-- R287: Atomic reduction at the home, returning nothing. -/
  | red (h : Hdr) (op : AtomOp) (m : MemX) (a b : Opnd)
  /-- R289: Load and set the thread's reservation. -/
  | lrs (h : Hdr) (wide : Bool) (m : MemX) (d a : Opnd)
  /-- R290: Conditional store under a valid reservation. -/
  | scs (h : Hdr) (wide : Bool) (m : MemX) (d a b : Opnd)
  /-- R269: Prefetch a line into L1, die cache or memory-side cache. -/
  | cpf (h : Hdr) (var : CpfVar) (off : BitVec 12) (a : Opnd)
  /-- R269: Write a dirty die-cache line back home. -/
  | cwb (h : Hdr) (off : BitVec 12) (a : Opnd)
  /-- R269: Invalidate a line from L1 or the die cache. -/
  | cinv (h : Hdr) (dc : Bool) (off : BitVec 12) (a : Opnd)
  /-- R190: Load from pad. -/
  | pld (h : Hdr) (sz : PldSz) (off : BitVec 12) (d a : Opnd)
  /-- R190: Store to pad. -/
  | pst (h : Hdr) (sz : PstSz) (off : BitVec 12) (a b : Opnd)
  /-- R192: Indivisible atomic on a pad word. -/
  | patom (h : Hdr) (op : PatOp) (off : BitVec 12) (d a b : Opnd)
  /-- R190: Load from accumulator memory. -/
  | ald (h : Hdr) (wide : Bool) (off : BitVec 12) (d a : Opnd)
  /-- R190: Store to accumulator memory. -/
  | ast (h : Hdr) (wide : Bool) (off : BitVec 12) (a b : Opnd)
  /-- R201: Check a copy descriptor, make its tag busy and queue the copy. -/
  | cpy (h : Hdr) (a : Opnd)
  /-- R204: Park until any masked tag is done; return its index. -/
  | twany (h : Hdr) (d : Opnd) (m : TMask)
  /-- R204: Park until all masked tags are done. -/
  | twall (h : Hdr) (m : TMask)
  /-- R204: Return the lowest done masked tag without parking. -/
  | tfirst (h : Hdr) (d : Opnd) (m : TMask)
  /-- R204: Clear done bits of masked tags. -/
  | tclr (h : Hdr) (m : TMask)
  /-- R205: Arm or disarm a watch slot on a line. -/
  | watch (h : Hdr) (kind : WatchKind) (slot : Bool) (a : Opnd)
  /-- R207: Park until a watch hit, timeout or stop-and-resume. -/
  | wait (h : Hdr) (d : Opnd) (a : RI)
  /-- R207: A parked wait returns on a watch hit or a resumption. -/
  | waitReturn (q : Sel)
  /-- R207: A parked wait's timeout on cyc expires. -/
  | waitTimeout (q : Sel)
  /-- R208: Arrive and park at a hardware barrier. -/
  | bar (s : Bool) (n : BitVec 4)
  /-- R210: Arrive at a phase-bit barrier in pad. -/
  | parr (h : Hdr) (d a : Opnd) (b : RI)
  /-- R211: Park until a phase-bit barrier's phase differs. -/
  | pwait (h : Hdr) (d a : Opnd) (b : RI)
  /-- R247: Check a matrix command and place it at the queue tail. -/
  | menq (h : Hdr) (d a : Opnd)
  /-- R248: Read matrix engine status. -/
  | mstat (h : Hdr) (d : Opnd) (sel : Fin 3)
  /-- R330: Send a pad payload to a mailbox of another core. -/
  | send (h : Hdr) (d a b : Opnd)
  /-- R332: Advance a mailbox HEAD by up to a count. -/
  | mbadv (h : Hdr) (mb : BitVec 4) (d : Opnd) (b : RI)
  /-- R339: Check a collective card and start the collective. -/
  | coll (h : Hdr) (a : Opnd)
  /-- R365: Create a range task in the cluster pool. -/
  | tspawn (h : Hdr) (a : Opnd)
  /-- R360: Hand the squad its next chunk of the task range, splitting if needed. -/
  | tnext (h : Hdr) (d : Opnd)
  /-- R366: Add to the task's done count; complete the task when it is reached. -/
  | tdone (h : Hdr) (d : Opnd) (b : RI)
  /-- R367: Offer an item to a pipeline stage queue. -/
  | qput (h : Hdr) (d a : Opnd) (stage : BitVec 3)
  /-- R367: Take the oldest item of the current stage, waiting if needed. -/
  | qget (h : Hdr) (d : Opnd)
  /-- R368: Arm or disarm an arm-table entry. -/
  | arm (h : Hdr) (a : Opnd)
  /-- R370: Queue a device launch from a card. -/
  | launch (h : Hdr) (a : Opnd)
  /-- R402: Filtered texture sample with quad derivatives. -/
  | tex (h : Hdr) (arr : Bool) (d a b : Opnd)
  /-- R402: Fetch one texel of a level. -/
  | texf (h : Hdr) (arr : Bool) (d a b c : Opnd)
  /-- R402: Gather one channel of four texels. -/
  | texg (h : Hdr) (arr : Bool) (ch : Fin 4) (d a b c : Opnd)
  /-- R402: Texture sample at an explicit level of detail. -/
  | texl (h : Hdr) (arr : Bool) (d a b c : Opnd)
  /-- R381: Append triangles to the mesh block's primitive list. -/
  | mout (h : Hdr) (a : Opnd)
  /-- R382: Finish a mesh block and pass its primitives to the front end. -/
  | mfinMesh (h : Hdr) (d a : Opnd)
  /-- R382: Declare a task block's child count. -/
  | mfinTask (h : Hdr) (d a : Opnd)
  /-- R392: Record a colour or depth output of the pixel thread. -/
  | pxo (h : Hdr) (n : Fin 5) (a : Opnd)
  /-- R393: End pixel threads, discarding their outputs. -/
  | pkill (h : Hdr)
  /-- R425: Test a ray against the four boxes of a node. -/
  | rbox (h : Hdr) (d a b : Opnd)
  /-- R426: Test a ray against one triangle record. -/
  | rtri (h : Hdr) (d a b : Opnd)
  /-- R421: Test a ray against a triangle and merge the hit into a result slot. -/
  | rtriW (h : Hdr) (d a b c : Opnd)
  /-- R427: Class a node's boxes against a beam. -/
  | bmbox (h : Hdr) (d a b : Opnd)
  /-- R428: Class a triangle against a beam. -/
  | bmtri (h : Hdr) (d a b : Opnd)
  /-- R429: Split a beam into children that are spawned or pushed. -/
  | bmsplit (h : Hdr) (d a b : Opnd)
  /-- R430: Push an entry on the ray stack, spilling to pad. -/
  | kpush (h : Hdr) (a : Opnd)
  /-- R431: Pop the newest ray stack entry, refilling from pad. -/
  | kpop (h : Hdr) (d : Opnd)
  /-- R307: Acquire, release or acquire-release fence with observers. -/
  | fence (h : Hdr) (kind : FenceKind) (obs : BitVec 6)
  /-- R452: Park the squad and write a system-call record. -/
  | trap (h : Hdr) (imm : BitVec 16)
  /-- R447: End supervisor handling with resume, skip, save, abort, forward or evict. -/
  | sret (h : Hdr) (act : Fin 6)
  /-- R154: Read a control register. -/
  | mfc (h : Hdr) (d : Opnd) (idx : BitVec 12)
  /-- R154: Write a control register without behaviour of its own. -/
  | mtc (h : Hdr) (idx : BitVec 12) (a : Opnd)
  /-- R112: mtc to FPC sets mode and enables and clears W1C flags for later words. -/
  | fpcWrite (h : Hdr) (a : Opnd)
  /-- R216: mtc to MQB waits until the queue is idle, then resets head and tail. -/
  | mqbWrite (h : Hdr) (a : Opnd)
  /-- R463: Read the core's cycle counter. -/
  | cyc (h : Hdr) (d : Opnd)
  /-- R462: Halt a named resident block with 0x71. -/
  | halt (h : Hdr) (a : Opnd)
  /-- R464: Invalidate instruction caches of this core or the stall. -/
  | iflush (h : Hdr) (scope : Bool)
  /-- R77: A variable-latency result returns; a squad parked at a marker becomes ready. -/
  | resultReturn (q : Sel) (i : Nat)
  /-- R167: Each clock, an aged or full bin is drawn into an empty squad slot. -/
  | binDraw (st core : Nat)
  /-- R169: All records of a draw are reloaded and the squad becomes ready. -/
  | drawReloadComplete (q : Sel)
  /-- R58: An aged bin with no free slot files the longest-resident squad at its next point. -/
  | forcedFiling (st core : Nat)
  /-- R172: A group held for BAGE clocks forces a switch of the issuing group. -/
  | heldGroupAge (q : Sel)
  /-- R164: When crate room frees, spilled records move back oldest first. -/
  | crateSpillReturn (st core : Nat)
  /-- R226: Load the shadow plane from a ring slot. -/
  | mwload (b : BSel)
  /-- R227: Exchange the active and shadow planes. -/
  | mswap (b : BSel)
  /-- R232: Stream A rows past the active plane into AM. -/
  | mstream (b : BSel)
  /-- R236: Apply MX scales to eight partial planes. -/
  | mscale (b : BSel)
  /-- R237: Write +0 to a range of AM rows. -/
  | mzero (b : BSel)
  /-- R238: Mark a tag done after all earlier commands complete. -/
  | mtag (b : BSel)
  /-- R239: Join or leave the gang at a rendezvous. -/
  | mgang (b : BSel)
  /-- R242: A dispatched matrix command completes and releases its ring slot. -/
  | matrixCommandComplete (b : BSel) (i : Nat)
  /-- R224: The oldest command waits 2,097,152 clocks and raises 0x41. -/
  | ringUnderrunTimeout (b : BSel)
  /-- R202: A copy has written every element; its tag becomes done. -/
  | copyComplete (st core i : Nat)
  /-- R203: A copy meets a fault on an element and stops. -/
  | copyFault (st core i : Nat)
  /-- R337: Members matched by CSEQ are compared; a mismatch aborts all. -/
  | collectiveRendezvous (grp : Nat)
  /-- R338: The root's rounded result arrives; REC is written and the tag becomes done. -/
  | collectiveComplete (st i : Nat)
  /-- R295: A queued write leaves the store queue into the stall write buffer. -/
  | storeDrain (q : Sel)
  /-- R295: A buffered write is performed by a holder with all tokens. -/
  | bufferedWritePerform (st i : Nat)
  /-- R274: A local read at the die cache is served or starts a transient read miss. -/
  | dcLocalRead (st line : Nat)
  /-- R274: A local write at the die cache is performed or starts a transient write miss. -/
  | dcLocalWrite (st line : Nat)
  /-- R274: A die cache evicts a line and writes its tokens back home. -/
  | dcEviction (st line : Nat)
  /-- R274: A transient request arrives at a die cache. -/
  | transientRequestAtCache (i : Nat)
  /-- R275: A transient request arrives at the home. -/
  | transientRequestAtHome (i : Nat)
  /-- R274: A token message arrives at a die cache. -/
  | tokenMessageAtCache (i : Nat)
  /-- R275: A token message or write-back arrives at the home. -/
  | tokenMessageAtHome (i : Nat)
  /-- R276: A miss unsatisfied after 512 clocks escalates to a persistent request. -/
  | missTimerExpire (st line : Nat)
  /-- R278: An activate arrives and sets a persistent-request table entry. -/
  | activate (i : Nat)
  /-- R278: A deactivate arrives and clears the entry. -/
  | deactivate (i : Nat)
  /-- R278: An acknowledgement of an activate or deactivate arrives at the requester. -/
  | acknowledge (i : Nat)
  /-- R283: A far atomic or red is performed by the home's atomic unit. -/
  | farAtomic (st i : Nat)
  /-- R291: The 64-clock protection of a constrained sequence ends. -/
  | protectedDeferralEnd (st line : Nat)
  /-- R322: A message reaches the destination NI and is appended, held or returned. -/
  | messageArrival (i : Nat)
  /-- R326: An acknowledgement returns to the sender and frees a return credit. -/
  | messageAck (i : Nat)
  /-- R322: A returned message is appended to the sender's mailbox 15. -/
  | returnedMessage (i : Nat)
  /-- R472: A message for a retired core is forwarded into the migration buffer. -/
  | migrationForward (i : Nat)
  /-- R369: A FIRE message launches the pre-armed card on the receiving core. -/
  | fire (st i : Nat)
  /-- R345: Each clock the scheduler fetches one entry from the best eligible queue. -/
  | queueFetch (st : Nat)
  /-- R351: A LAUNCH entry's card is checked and its launch placed. -/
  | launchEntry (st i : Nat)
  /-- R353: A market launch is sent to every member with rank and count. -/
  | mlaunch (st i : Nat)
  /-- R354: After earlier entries complete, write VALUE as a release. -/
  | signal (st i : Nat)
  /-- R354: Acquire-read ADDR until the word reaches VALUE. -/
  | waitmem (st i : Nat)
  /-- R354: A WAITMEM rereads every 1,024 clocks or on a write to its line. -/
  | waitmemReread (st i : Nat)
  /-- R345: A COPY entry runs as a copy job. -/
  | copyEntry (st i : Nat)
  /-- R451: A host answer to a system-call record is taken. -/
  | reply (st i : Nat)
  /-- R344: An entry that completes on fetch. -/
  | nopEntry (st i : Nat)
  /-- R374: Open a raster pass and send its descriptor to every member. -/
  | pass (st i : Nat)
  /-- R377: Run a draw's task blocks and deal its groups. -/
  | draw (st i : Nat)
  /-- R371: Close a pass when every member has finished its back end. -/
  | passend (st i : Nat)
  /-- R352: Every block, job card and access of a launch has completed. -/
  | launchComplete (st i : Nat)
  /-- R348: A held completion or system-call record is written once ring room exists. -/
  | recordRelease (st : Nat)
  /-- R346: A producer's DOORBELL write makes new entries eligible. -/
  | doorbellWrite (st q : Nat) (v : DWord)
  /-- R342: A descriptor write; setting EN resumes from FETCHED + 1. -/
  | queueDescriptorWrite (st q off : Nat) (v : DWord)
  /-- R349: Writing CTL.ABORT stops the queue's blocks and completes its entries. -/
  | queueAbort (st q : Nat)
  /-- R348: The host's CONS write frees ring room for held records. -/
  | completionConsWrite (st : Nat) (v : DWord)
  /-- R356: The scheduler places the next block on a core with room. -/
  | blockPlace (st core : Nat)
  /-- R358: Lower-priority blocks are chosen and saved to make room. -/
  | eviction (st : Nat)
  /-- R362: Every 4,096 clocks one block moves to the most pressured stage. -/
  | pipelineReassign (st i : Nat)
  /-- R363: A pipeline launch becomes drained; waiting qgets return CLOSED. -/
  | pipelineDrain (st i : Nat)
  /-- R379: The dealer deals a group to the least-loaded member. -/
  | groupDeal (st : Nat)
  /-- R377: DRAW-START marker with the group count reaches an owner. -/
  | drawStart (i : Nat)
  /-- R386: A primitive packet reaches its owner's reorder stage. -/
  | primitivePacket (i : Nat)
  /-- R384: A DONE marker with a packet count reaches an owner. -/
  | done (i : Nat)
  /-- R384: PASS-END marker with the draw count reaches a member. -/
  | passEnd (i : Nat)
  /-- R379: Every member reports a group rasterised; the dealer's window advances. -/
  | groupRetire (i : Nat)
  /-- R385: The sequence frontier passes a group and its packets go to rasterisation. -/
  | frontierRelease (st : Nat)
  /-- R394: Exited pixel threads' results are tested, blended and written in key order. -/
  | backEndApply (st : Nat)
  /-- R387: A down member or access failure aborts the pass everywhere. -/
  | passAbort (st : Nat)
  /-- R435: All words, filings, results and accesses of a halting block have finished. -/
  | haltComplete (b : BSel)
  /-- R436: 0x2C, 0x78 or 0x79 is delivered to a block at a word boundary. -/
  | asyncCauseDelivery (b : BSel)
  /-- R437: A failed copy, matrix command or collective access halts its block. -/
  | jobFault (b : BSel)
  /-- R453: A halted block drains and its image is written to its slot. -/
  | blockSave (b : BSel)
  /-- R453: Jobs still running 42,000 clocks into a save are stopped and the save is abandoned. -/
  | saveTimeout (b : BSel)
  /-- R457: A saved block is rewritten onto a core and its squads resume. -/
  | blockRestore (st slot core : Nat)
  /-- R459: With STEP set, each issued word is followed by a halt with 0x72. -/
  | singleStep (q : Sel)
  /-- R23: A supervisor 64-bit cas on a CRT entry is accepted or refused. -/
  | crtCas (st i : Nat) (old new : DWord)
  /-- R251: A TROOT write starts a whole-space shootdown and takes effect after it. -/
  | trootWrite (st : Nat) (v : DWord)
  /-- R258: A write to TSHOOT starts a shootdown of a range. -/
  | tshootWrite (st off : Nat) (v : DWord)
  /-- R258: Every access under a removed translation has completed; BUSY clears. -/
  | shootdownComplete (st : Nat)
  /-- R33: An export entry write revokes a handle and sends invalidations. -/
  | exportRevoke (st i off : Nat) (v : DWord)
  /-- R33: All sharers have acknowledged and old accesses completed. -/
  | revocationComplete (st : Nat)
  /-- R35: An EXPT write revokes every export entry and takes effect after. -/
  | exptWrite (st : Nat) (v : DWord)
  /-- R260: A STOCK write grows or shrinks the carve-out, holding the squad until done. -/
  | stockWrite (st : Nat) (v : DWord)
  /-- R93: A CODEA write evicts every code-area entry, or is ignored if one is held. -/
  | codeaWrite (st : Nat) (v : DWord)
  /-- R164: A CSPILL write, ignored while any block is resident. -/
  | cspillWrite (st : Nat) (v : DWord)
  /-- R325: An MSPILL write, taking effect only while the reorder store is empty. -/
  | mspillWrite (st : Nat) (v : DWord)
  /-- R376: An RSPILL write, ignored while a pass is open. -/
  | rspillWrite (st : Nat) (v : DWord)
  /-- R443: A SAVEA write, ignored while any block is resident or saved. -/
  | saveaWrite (st : Nat) (v : DWord)
  /-- R29: Host write of a market entry, refused on BUSY or a fifth market. -/
  | marketTableWrite (i : Nat) (mask : DWord) (ctl : Word)
  /-- R333: A group table write; clearing V aborts collectives in flight. -/
  | collGroupWrite (st i off : Nat) (v : DWord)
  /-- R7: A write to a register or table with no row of its own. -/
  | registerWrite (st off : Nat) (v : DWord)
  /-- R91: The DMC checks a Puden image and stores its native form. -/
  | finaliserRun (st i : Nat)
  /-- R471: With no resident block, the DMC swaps the retiring core's CRT entry. -/
  | dmcRetireSwap (st : Nat)
  /-- R473: MIG clears and held messages are delivered in SEQ order. -/
  | migClear (st core : Nat)
  /-- R466: The active slot switches at its switch point. -/
  | firmwareSwitch (site kind : Nat)
  /-- R263: The L1 data cache evicts a line of its own accord. -/
  | l1Eviction (st core line : Nat)
  /-- R295: A posted write to uncached host or external memory completes at that memory and is performed. -/
  | postedWriteComplete (st i : Nat)
  /-- R266: A host read of device memory, with lost lines answered without data. -/
  | hostRead (io : Bool) (pa n : Nat)
  /-- R293: A host write to device memory, performed at the line's home. -/
  | hostWrite (pa : Nat) (bs : List Byte)
  /-- R265: An uncorrectable error makes a line lost. -/
  | uncorrectableError (e : ErrAt)
  /-- R469: A correctable error is counted; thresholds raise 0x2C or 0x79. -/
  | correctableError (st core : Nat) (pad : Bool) (user : Option Nat)
  /-- R469: The 3,600 s window ends and COUNT clears. -/
  | ceWindowEnd (st : Nat)
  /-- R474: A logical stall is moved to a spare site. -/
  | stallMove (st site : Nat)
  /-- R468: Every 10 ms a UCIe lane is recalibrated or repaired. -/
  | laneRecalibration (edge : Nat) (bad : List Nat)
  /-- R468: A mesh edge fails; its edge-map bit clears and routes are rewritten. -/
  | edgeFailure (edge : Nat)
  /-- R466: An image is written to the inactive slot and verified. -/
  | firmwareUpdate (site kind : Nat) (img : List Byte)
  /-- R466: An explicit command raises the rollback floor. -/
  | rollbackFloorRaise (site : Nat) (v : Word)
  /-- R467: An SPDM request is answered over DOE. -/
  | spdmRequest (fn : Nat) (req : List Byte)
  /-- R477: Function 64 sets the package power cap. -/
  | powerCapSet (w : Nat)
  /-- R477: A die moves to another voltage and frequency step. -/
  | powerStepChange (st step : Nat)
  /-- R16: Boot tests sites and edges and builds the site table, maps and routes. -/
  | boot (bad : List Nat) (badEdges : List Nat)
  /-- R17: A stall is lost without migration and its site table entry reads 0b11 (down). -/
  | stallLost (st : Nat)
  /-- R25: A host port's link fails and every function is reached through the other port. -/
  | hostPortLinkFailure (p : Nat)
  /-- R264: A host port link that was down returns, and device accesses again use the nearer port. -/
  | hostPortLinkRestore (p : Nat)
  /-- R340: A scale port goes down, and domain accesses and collective chunks move to the next working plane. -/
  | scalePortFailure (p : Nat)
  /-- R319: A scale port that was down returns to service, and traffic for its plane uses it again. -/
  | scalePortRestore (p : Nat)
  /-- R318: Switch-plane set-up assigns the package number and sets VAL at offset 0x430. -/
  | switchPlaneSetup (pkg : Nat)
  /-- R293: An access by an external peer device or another package reaches this package's device memory over the scale ports. -/
  | externalPeerAccess (pa : Nat) (wr : List Byte) (n : Nat)
  /-- R260: A stall is reset and its stock contents are lost. -/
  | stallReset (st : Nat)
deriving DecidableEq, Repr

end Sys2Proof
end

