-- ==== Sys2Proof/WellFormed.lean ====
section
/-! DEFINITION. Which instructions an encoding can hold: the admitted EXT bits, orders, counts and immediates. -/

set_option Elab.async false

namespace Sys2Proof

/-- Which EXT bits an entry admits (R66): modifiers of the sources A, B, C, then SAT, SRE, and RMO with RM. -/
structure ExtAdm where
  a : Bool
  b : Bool
  c : Bool
  sat : Bool
  sre : Bool
  rm : Bool
deriving DecidableEq, Repr

/-- All EXT bits zero. -/
def Ext.zero : Ext := ⟨false, false, false, false, false, false, false, false, false, 0⟩

/-- The checks of R66 on the EXT bits: only admitted bits, RM zero unless RMO, SRE and RMO not both. -/
def Ext.ok (adm : ExtAdm) (e : Ext) : Bool :=
  (adm.a || (!e.na && !e.aa)) && (adm.b || (!e.nb && !e.ab)) && (adm.c || (!e.nc && !e.ac))
    && (adm.sat || !e.sat) && (adm.sre || !e.sre) && (adm.rm || !e.rmo)
    && (e.rmo || e.rm == 0) && !(e.sre && e.rmo)

/-- fadd, fsub, fmul (R132). -/
def ExtAdm.arith2 : ExtAdm := ⟨true, true, false, true, true, true⟩
/-- ffma, fdot2 (R132). -/
def ExtAdm.arith3 : ExtAdm := ⟨true, true, true, true, true, true⟩
/-- fdiv (R132). -/
def ExtAdm.divide : ExtAdm := ⟨true, true, false, true, false, true⟩
/-- fsqrt (R132). -/
def ExtAdm.root : ExtAdm := ⟨true, false, false, true, false, true⟩
/-- frnd (R132). -/
def ExtAdm.round : ExtAdm := ⟨true, false, false, false, false, true⟩
/-- fmin, fmax, fcmp (R132). -/
def ExtAdm.pick2 : ExtAdm := ⟨true, true, false, false, false, false⟩
/-- fsel (R132). -/
def ExtAdm.pick3 : ExtAdm := ⟨true, true, true, false, false, false⟩
/-- cvt and pack (R141, R143). -/
def ExtAdm.convert : ExtAdm := ⟨false, false, false, true, true, true⟩

/-- redux and scan (R150): SAT for an integer add, RMO with RM for an f32 add. -/
def ExtAdm.reduce (op : RedOp) (ty : CTy) : ExtAdm :=
  match op, ty with
  | .add, .f32 => ⟨false, false, false, false, false, true⟩
  | .add, _ => ⟨false, false, false, true, false, false⟩
  | _, _ => ⟨false, false, false, false, false, false⟩

/-- The operations of redux that admit a type: and, or take no f32 (R150). -/
def RedOp.admits (op : RedOp) (ty : CTy) : Bool :=
  match op, ty with
  | .and, .f32 => false
  | .or, .f32 => false
  | _, _ => true

/-- A 64-bit integer type. -/
def ITy.wide : ITy → Bool
  | .i64 => true
  | .n64 => true
  | _ => false

/-- A signed integer type. -/
def ITy.signed : ITy → Bool
  | .i32 => true
  | .i64 => true
  | _ => false

/-- The packed types of pack and unpack (R143). -/
def TyCode.packed : TyCode → Bool
  | .i8 => true
  | .i16 => true
  | .n8 => true
  | .n16 => true
  | .f16 => true
  | .bf16 => true
  | .e5m2 => true
  | .e4m3 => true
  | .d8 => true
  | _ => false

/-- An 8-bit type code. -/
def TyCode.byteWide : TyCode → Bool
  | .i8 => true
  | .n8 => true
  | .e5m2 => true
  | .e4m3 => true
  | .d8 => true
  | .mx8 => true
  | _ => false

/-- An integer type code. -/
def TyCode.isInt : TyCode → Bool
  | .i8 => true
  | .i16 => true
  | .i32 => true
  | .i64 => true
  | .n8 => true
  | .n16 => true
  | .n32 => true
  | .n64 => true
  | _ => false

/-- The pairings cvt admits: mx8 only with f32 (R141). -/
def cvtPairOk (dst src : TyCode) : Bool :=
  (dst ≠ .mx8 || src = .f32) && (src ≠ .mx8 || dst = .f32)

/-- A plain access names no observer and a strong one names some (R68). -/
def MemX.ok (m : MemX) (acq rel : Bool) : Bool :=
  match m.ord with
  | .plain => m.obs == 0
  | .acq => m.obs != 0 && acq
  | .rel => m.obs != 0 && rel
  | .ar => m.obs != 0 && acq && rel

/-- Negated p7 is a reserved guard (R64). -/
def Hdr.ok (h : Hdr) : Bool := !(h.neg && h.pn == 7)

/-- red takes neither xchg nor cas (R287). -/
def AtomOp.redOk : AtomOp → Bool
  | .int .xchg _ => false
  | .int .cas _ => false
  | _ => true

/-- min and max take no b64 (R191). -/
def PatOp.ok : PatOp → Bool
  | .b64 .min => false
  | .b64 .max => false
  | _ => true

/-- Whether a restricted operation admits TY = 1 (R74). -/
def Rop.tyOk : Rop → Bool
  | .movi8 | .add | .addi8 | .sub | .subi8 | .andi8 | .ori8 | .xori8 | .min | .max | .cvtF | .cvtI => true
  | _ => false

/-- Whether a restricted operation admits SAT (R74). -/
def Rop.satOk : Rop → Bool
  | .add | .addi8 | .sub | .subi8 => true
  | _ => false

/-- The immediate shifts of a pair. -/
def Rop.immShift : Rop → Bool
  | .shli8 | .shri8 | .sari8 => true
  | _ => false

/-- The reserved fields of a slot (R75). -/
def Slot.ok (s : Slot) : Bool :=
  (s.rop.tyOk || !s.ty) && (s.rop.satOk || !s.sat) && (!s.rop.immShift || s.b.toNat ≤ 31)
    && (s.rop ≠ .nop || (s.pr2 == 0 && s.d == 0 && s.b == 0))

/-- An immediate below a bound; a register form has none. -/
def RI.immBelow (n : Nat) : RI → Bool
  | .reg _ => true
  | .imm v => v.toNat < n

/-- Form I has no EXT bits, so SAT needs a register as the last source (R66, R67). -/
def RI.satOk (sat : Bool) : RI → Bool
  | .reg _ => true
  | .imm _ => !sat

/-- The instructions an encoding can hold: what decode answers, and what encode and decode carry whole. -/
def Instr.wf : Instr → Bool
  | .add h _ sat _ _ b | .sub h _ sat _ _ b | .mul h _ sat _ _ b | .div h _ sat _ _ b => h.ok && b.satOk sat
  | .mad h _ sat _ _ _ c => h.ok && c.satOk sat
  | .mulhi h _ _ _ _ | .rem h _ _ _ _ | .min h _ _ _ _ | .max h _ _ _ _ => h.ok
  | .and h _ _ _ _ | .or h _ _ _ _ | .xor h _ _ _ _ | .andn h _ _ _ _ => h.ok
  | .shl h _ _ _ _ | .shr h _ _ _ _ | .sar h _ _ _ _ | .rot h _ _ _ _ => h.ok
  | .abs h ty _ _ _ | .neg h ty _ _ _ => h.ok && ty.signed
  | .not h _ _ _ | .clz h _ _ _ | .popc h _ _ _ | .brev h _ _ _ | .mov h _ _ _ => h.ok
  | .bfx h _ _ _ sp | .bfi h _ _ _ _ sp => h.ok && sp.immBelow 65536
  | .sel h _ _ _ _ _ | .cmp h _ _ _ _ _ | .lea h _ _ _ _ _ | .movi h _ _ _ | .movh h _ _ _ => h.ok
  | .pset h _ _ => h.ok
  | .fadd h _ e _ _ _ | .fsub h _ e _ _ _ | .fmul h _ e _ _ _ => h.ok && e.ok .arith2
  | .ffma h _ e _ _ _ _ | .fdot2 h _ e _ _ _ _ => h.ok && e.ok .arith3
  | .fmin h _ e _ _ _ | .fmax h _ e _ _ _ | .fcmp h _ _ e _ _ _ => h.ok && e.ok .pick2
  | .fsel h _ e _ _ _ _ => h.ok && e.ok .pick3
  | .frnd h _ _ e _ _ => h.ok && e.ok .round
  | .fdiv h _ e _ _ _ => h.ok && e.ok .divide
  | .fsqrt h _ e _ _ => h.ok && e.ok .root
  | .cvt h e dst src _ _ c =>
    h.ok && e.ok .convert && cvtPairOk dst src && (src = .mx8 || c = .vec 0)
  | .pack h e dst _ _ _ b => h.ok && e.ok .convert && dst.packed && (!dst.byteWide || b = .vec 0)
  | .unpack h src dst _ _ => h.ok && src.packed && (src.isInt || dst = .f32)
  | .frcp h _ _ | .frsq h _ _ | .fexp2 h _ _ | .flog2 h _ _ | .fsinp h _ _ | .fcosp h _ _ => h.ok
  | .wfu h _ _ | .wfm h _ _ | .rseed h _ _ => h.ok
  | .shfl h _ _ _ _ _ => h.ok
  | .redux h op ty e _ _ | .scan h _ op ty e _ _ => h.ok && op.admits ty && e.ok (.reduce op ty)
  | .ballot h _ _ | .vote h _ _ _ | .qx h _ _ _ _ | .qbc h _ _ _ _ => h.ok
  | .pairWord _ sa sb => sa.ok && sb.ok
  | .bra h _ _ | .jmp h _ _ _ | .call h _ _ _ | .calli h _ _ _ _ | .ret h _ _ | .land h _ => h.ok
  | .reform _ _ => true
  | .loop _ _ _ len => len != 0
  | .brk h _ | .exit h | .yield h | .nop h => h.ok
  | .ld h _ _ m _ _ => h.ok && m.ok true false
  | .st h _ _ m _ _ => h.ok && m.ok false true
  | .atom h _ m _ _ _ => h.ok && m.ok true true
  | .red h op m _ _ => h.ok && op.redOk && m.ok false true
  | .lrs h _ m _ _ => h.ok && m.ok true false
  | .scs h _ m _ _ _ => h.ok && m.ok false true
  | .cpf h _ _ _ | .cwb h _ _ | .cinv h _ _ _ => h.ok
  | .pld h _ _ _ _ | .pst h _ _ _ _ | .ald h _ _ _ _ | .ast h _ _ _ _ => h.ok
  | .patom h op _ _ _ _ => h.ok && op.ok
  | .cpy h _ | .twany h _ _ | .twall h _ | .tfirst h _ _ | .tclr h _ => h.ok
  | .watch h kind _ a => h.ok && (kind ≠ .off || a = .vec 0)
  | .wait h _ _ => h.ok
  | .bar _ _ => true
  | .parr h _ _ b => h.ok && b.immBelow 65536
  | .pwait h _ _ b => h.ok && b.immBelow 2
  | .menq h _ _ | .mstat h _ _ | .send h _ _ _ => h.ok
  | .mbadv h _ _ b => h.ok && b.immBelow 257
  | .coll h _ | .tspawn h _ | .tnext h _ => h.ok
  | .tdone h _ b => h.ok && (match b with | .imm v => v != 0 | .reg _ => true)
  | .qput h _ _ _ | .qget h _ | .arm h _ | .launch h _ => h.ok
  | .tex h _ _ _ _ | .texf h _ _ _ _ _ | .texg h _ _ _ _ _ _ | .texl h _ _ _ _ _ => h.ok
  | .mout h _ | .mfinMesh h _ _ | .mfinTask h _ _ | .pxo h _ _ | .pkill h => h.ok
  | .rbox h _ _ _ | .rtri h _ _ _ | .rtriW h _ _ _ _ | .bmbox h _ _ _ | .bmtri h _ _ _ => h.ok
  | .bmsplit h _ _ _ | .kpush h _ | .kpop h _ => h.ok
  | .fence h _ obs => h.ok && obs != 0
  | .trap h _ | .sret h _ | .mfc h _ _ | .cyc h _ | .halt h _ | .iflush h _ => h.ok
  | .mtc h idx _ => h.ok && idx != 0x001 && idx != 0x010
  | .fpcWrite h _ | .mqbWrite h _ => h.ok
  | _ => false

end Sys2Proof
end

