-- ==== Sys2Proof/Decode.lean ====
section
/-! DEFINITION. Instruction words: decode, total on 64 bits, answering the lowest static decode cause, and encode. -/

set_option Elab.async false

namespace Sys2Proof

/-- The fields of a full-form word (R63). -/
structure FW where
  s : Bool
  opc : BitVec 8
  prd : BitVec 4
  mod : BitVec 6
  d : BitVec 8
  a : BitVec 8
  b : BitVec 8
  x : BitVec 20
deriving DecidableEq, Repr

/-- Read the fields of a full-form word. -/
def FW.ofWord (w : DWord) : FW where
  s := w.getLsbD 63
  opc := w.extractLsb' 54 8
  prd := w.extractLsb' 50 4
  mod := w.extractLsb' 44 6
  d := w.extractLsb' 36 8
  a := w.extractLsb' 28 8
  b := w.extractLsb' 20 8
  x := w.extractLsb' 0 20

/-- Lay the fields of a full-form word out; bit 62 is 0. -/
def FW.toWord (f : FW) : DWord :=
  (BitVec.ofBool f.s ++ (0#1 ++ (f.opc ++ (f.prd ++ (f.mod ++ (f.d ++ (f.a ++ (f.b ++ f.x)))))))).cast rfl

/-- An operand from its 8-bit field (R71). -/
def Opnd.ofByte (b : BitVec 8) : Opnd :=
  if h : b.toNat < 192 then .vec ⟨b.toNat, h⟩
  else if h : b.toNat < 240 then .sca ⟨b.toNat - 192, by omega⟩
  else match b.toNat - 240 with
    | 0 => .zero
    | 1 => .laneid
    | 2 => .quadid
    | 3 => .squadid
    | 4 => .blockid
    | 5 => .tid
    | 6 => .argl
    | 7 => .argh
    | n => .rsv ⟨(n - 8) % 8, by omega⟩

/-- The 8-bit field of an operand (R71). -/
def Opnd.toByte : Opnd → BitVec 8
  | .vec n => BitVec.ofNat 8 n.val
  | .sca n => BitVec.ofNat 8 (192 + n.val)
  | .zero => 0xF0#8
  | .laneid => 0xF1#8
  | .quadid => 0xF2#8
  | .squadid => 0xF3#8
  | .blockid => 0xF4#8
  | .tid => 0xF5#8
  | .argl => 0xF6#8
  | .argh => 0xF7#8
  | .rsv n => BitVec.ofNat 8 (248 + n.val)

/-- The guard and marker of a word (R63). -/
def FW.hdr (f : FW) : Hdr := ⟨f.s, f.prd.getLsbD 3, f.prd.extractLsb' 0 3⟩

/-- The guard field of a header. -/
def Hdr.prd (h : Hdr) : BitVec 4 := BitVec.ofBool h.neg ++ h.pn

/-- The EXT bits of Form R (R66). -/
def Ext.ofX (x : BitVec 20) : Ext :=
  ⟨x.getLsbD 11, x.getLsbD 10, x.getLsbD 9, x.getLsbD 8, x.getLsbD 7, x.getLsbD 6, x.getLsbD 5, x.getLsbD 4,
    x.getLsbD 3, x.extractLsb' 1 2⟩

/-- X of Form R from C and the EXT bits (R66). -/
def xR (c : BitVec 8) (e : Ext) : BitVec 20 :=
  c ++ (BitVec.ofBool e.na ++ (BitVec.ofBool e.aa ++ (BitVec.ofBool e.nb ++ (BitVec.ofBool e.ab ++
    (BitVec.ofBool e.nc ++ (BitVec.ofBool e.ac ++ (BitVec.ofBool e.sat ++ (BitVec.ofBool e.sre ++
      (BitVec.ofBool e.rmo ++ (e.rm ++ 0#1))))))))))

/-- C of Form R. -/
def FW.c (f : FW) : BitVec 8 := f.x.extractLsb' 12 8

/-- X of Form M (R68). -/
def MemX.ofX (x : BitVec 20) : MemX :=
  ⟨x.extractLsb' 8 12, x.extractLsb' 2 6,
    match (x.extractLsb' 0 2).toNat with
    | 0 => .plain
    | 1 => .acq
    | 2 => .rel
    | _ => .ar⟩

/-- The field of an order (R68). -/
def Ord.bits : Ord → BitVec 2
  | .plain => 0
  | .acq => 1
  | .rel => 2
  | .ar => 3

/-- X of Form M from its parts. -/
def MemX.toX (m : MemX) : BitVec 20 := m.off ++ (m.obs ++ m.ord.bits)

/-- The type field of the integer group (R122). -/
def ITy.ofBits (b : BitVec 2) : ITy :=
  match b.toNat with
  | 0 => .i32
  | 1 => .n32
  | 2 => .i64
  | _ => .n64

/-- The field of an integer type. -/
def ITy.bits : ITy → BitVec 2
  | .i32 => 0
  | .n32 => 1
  | .i64 => 2
  | .n64 => 3

/-- A type code (R140). -/
def TyCode.ofBits (b : BitVec 4) : TyCode :=
  match b.toNat with
  | 0 => .i8
  | 1 => .i16
  | 2 => .i32
  | 3 => .i64
  | 4 => .n8
  | 5 => .n16
  | 6 => .n32
  | 7 => .n64
  | 8 => .f16
  | 9 => .bf16
  | 10 => .f32
  | 11 => .f64
  | 12 => .e5m2
  | 13 => .e4m3
  | 14 => .d8
  | _ => .mx8

/-- The code of a type (R140). -/
def TyCode.bits : TyCode → BitVec 4
  | .i8 => 0
  | .i16 => 1
  | .i32 => 2
  | .i64 => 3
  | .n8 => 4
  | .n16 => 5
  | .n32 => 6
  | .n64 => 7
  | .f16 => 8
  | .bf16 => 9
  | .f32 => 10
  | .f64 => 11
  | .e5m2 => 12
  | .e4m3 => 13
  | .d8 => 14
  | .mx8 => 15

/-- A predicate specifier field as a source (R117): bits 7:4 zero. -/
def PSpec.ofByte (b : BitVec 8) : Option PSpec :=
  if b.extractLsb' 4 4 = 0 then some ⟨b.getLsbD 3, b.extractLsb' 0 3⟩ else none

/-- The field of a source predicate specifier. -/
def PSpec.toByte (p : PSpec) : BitVec 8 := 0#4 ++ (BitVec.ofBool p.neg ++ p.pn)

/-- A predicate specifier field as a destination (R117): bits 7:3 zero. -/
def predOfByte (b : BitVec 8) : Option Pred :=
  if b.extractLsb' 3 5 = 0 then some (b.extractLsb' 0 3) else none

/-- The field of a destination predicate. -/
def predToByte (p : Pred) : BitVec 8 := 0#5 ++ p

/-- Answer `v` when the word's fields are as its entry lays down, else cause 0x02. -/
def okIf (c : Bool) (v : Instr) : Except Nat Instr := if c then .ok v else .error 2

/-- As `okIf` over a field that may be ill-formed. -/
def okWith {α : Type} (c : Bool) (o : Option α) (k : α → Instr) : Except Nat Instr :=
  match o with
  | none => .error 2
  | some v => okIf c (k v)

/-- Form R with C and EXT zero: X = 0. -/
def FW.xZero (f : FW) : Bool := f.x == 0

/-- X of Form R whose only EXT bit is SAT and whose C is zero. -/
def FW.satOnly (f : FW) : Bool := f.c == 0 && Ext.ofX f.x == { Ext.zero with sat := f.x.getLsbD 5 } && !f.x.getLsbD 0

/-- An integer word of two sources whose last admits Form I; SAT where admitted (R65, R67, R122). -/
def decBin (f : FW) (sat : Bool) (k : Bool → RI → Instr) : Except Nat Instr :=
  if f.mod.getLsbD 0 then okIf (f.b == 0) (k false (.imm f.x))
  else okIf (f.satOnly && (sat || !f.x.getLsbD 5)) (k (f.x.getLsbD 5) (.reg (.ofByte f.b)))

/-- An integer word of one source, Form R only. -/
def decUn (f : FW) (sat : Bool) (k : Bool → Instr) : Except Nat Instr :=
  okIf (!f.mod.getLsbD 0 && f.b == 0 && f.satOnly && (sat || !f.x.getLsbD 5)) (k (f.x.getLsbD 5))

/-- The conditions of cmp (R128). -/
def ICond.ofBits (b : BitVec 3) : Option ICond :=
  match b.toNat with
  | 0 => some .eq
  | 1 => some .ne
  | 2 => some .lt
  | 3 => some .le
  | 4 => some .gt
  | 5 => some .ge
  | _ => none

/-- The field of a condition of cmp. -/
def ICond.bits : ICond → BitVec 3
  | .eq => 0
  | .ne => 1
  | .lt => 2
  | .le => 3
  | .gt => 4
  | .ge => 5

/-- pset (R130). -/
def decPset (f : FW) (ty : ITy) : Except Nat Instr :=
  let h := f.hdr
  let r := !f.mod.getLsbD 0 && f.xZero
  let two (k : PSpec → PSpec → PsetOp) : Except Nat Instr :=
    match predOfByte f.d, PSpec.ofByte f.a, PSpec.ofByte f.b with
    | some pd, some pa, some pb => okIf (r && ty == .i32) (.pset h (k pa pb) pd)
    | _, _, _ => .error 2
  match (f.mod.extractLsb' 3 3).toNat with
  | 0 => okWith (r && f.b == 0) (predOfByte f.d) (.pset h (.nz ty (.ofByte f.a)))
  | 1 => okWith (r && f.b == 0 && ty == .n64) (predOfByte f.d) (.pset h (.mask (.ofByte f.a)))
  | 2 => two .and
  | 3 => two .or
  | 4 => two .xor
  | 5 => two .andn
  | _ => .error 2

/-- The integer group, opcodes 0x00 to 0x0F (R123 to R125). -/
def decInt0 (f : FW) (lo : Nat) : Except Nat Instr :=
  let h := f.hdr
  let ty := ITy.ofBits (f.mod.extractLsb' 1 2)
  let d := Opnd.ofByte f.d
  let a := Opnd.ofByte f.a
  let b := Opnd.ofByte f.b
  if f.mod.extractLsb' 3 3 = 0 then
    match lo with
    | 0 => decBin f true fun s x => .add h ty s d a x
    | 1 => decBin f true fun s x => .sub h ty s d a x
    | 2 => decBin f true fun s x => .mul h ty s d a x
    | 3 => decBin f false fun _ x => .mulhi h ty d a x
    | 4 =>
      if f.mod.getLsbD 0 then .ok (.mad h ty false d a b (.imm f.x))
      else okIf (Ext.ofX f.x == { Ext.zero with sat := f.x.getLsbD 5 } && !f.x.getLsbD 0)
        (.mad h ty (f.x.getLsbD 5) d a b (.reg (.ofByte f.c)))
    | 5 => decBin f true fun s x => .div h ty s d a x
    | 6 => decBin f false fun _ x => .rem h ty d a x
    | 7 => decBin f false fun _ x => .min h ty d a x
    | 8 => decBin f false fun _ x => .max h ty d a x
    | 9 => if ty.signed then decUn f true fun s => .abs h ty s d a else .error 2
    | 10 => if ty.signed then decUn f true fun s => .neg h ty s d a else .error 2
    | 11 => decBin f false fun _ x => .and h ty d a x
    | 12 => decBin f false fun _ x => .or h ty d a x
    | 13 => decBin f false fun _ x => .xor h ty d a x
    | 14 => decUn f false fun _ => .not h ty d a
    | _ => decBin f false fun _ x => .andn h ty d a x
  else .error 2

/-- The integer group, opcodes 0x10 to 0x1F (R125 to R131). -/
def decInt1 (f : FW) (lo : Nat) : Except Nat Instr :=
  let h := f.hdr
  let ty := ITy.ofBits (f.mod.extractLsb' 1 2)
  let var := f.mod.extractLsb' 3 3
  let v0 := var == 0
  let fi := f.mod.getLsbD 0
  let d := Opnd.ofByte f.d
  let a := Opnd.ofByte f.a
  let b := Opnd.ofByte f.b
  match lo with
  | 0 => if v0 then decBin f false fun _ x => .shl h ty d a x else .error 2
  | 1 => if v0 then decBin f false fun _ x => .shr h ty d a x else .error 2
  | 2 => if v0 then decBin f false fun _ x => .sar h ty d a x else .error 2
  | 3 => if v0 then decBin f false fun _ x => .rot h ty d a x else .error 2
  | 4 => if v0 then decUn f false fun _ => .clz h ty d a else .error 2
  | 5 => if v0 then decUn f false fun _ => .popc h ty d a else .error 2
  | 6 => if v0 then decUn f false fun _ => .brev h ty d a else .error 2
  | 7 =>
    if v0 then
      if fi then okIf (f.b == 0 && f.x.toNat < 65536) (.bfx h ty d a (.imm f.x))
      else okIf f.xZero (.bfx h ty d a (.reg b))
    else .error 2
  | 8 =>
    if v0 then
      if fi then okIf (f.x.toNat < 65536) (.bfi h ty d a b (.imm f.x))
      else okIf (Ext.ofX f.x == Ext.zero && !f.x.getLsbD 0) (.bfi h ty d a b (.reg (.ofByte f.c)))
    else .error 2
  | 9 => okWith (v0 && !fi && Ext.ofX f.x == Ext.zero && !f.x.getLsbD 0) (PSpec.ofByte f.c) (.sel h ty d a b)
  | 10 =>
    match ICond.ofBits var, predOfByte f.d with
    | some c, some pd => decBin f false fun _ x => .cmp h c ty pd a x
    | _, _ => .error 2
  | 11 => if ty.wide then .error 2 else decBin f false fun _ x => .lea h var (!ty.signed) d a x
  | 12 => okIf (v0 && !fi && f.b == 0 && f.xZero) (.mov h ty d a)
  | 13 => okIf (v0 && fi && f.a == 0 && f.b == 0) (.movi h ty d f.x)
  | 14 => okIf (v0 && fi && f.a == 0 && f.b == 0 && !ty.wide) (.movh h (!ty.signed) d f.x)
  | _ => decPset f ty

/-- The conditions of fcmp (R135). -/
def FCond.ofBits (b : BitVec 4) : Option FCond :=
  match b.toNat with
  | 0 => some .eq
  | 1 => some .ne
  | 2 => some .lt
  | 3 => some .le
  | 4 => some .gt
  | 5 => some .ge
  | 6 => some .un
  | 7 => some .ord
  | _ => none

/-- The field of a condition of fcmp. -/
def FCond.bits : FCond → BitVec 4
  | .eq => 0
  | .ne => 1
  | .lt => 2
  | .le => 3
  | .gt => 4
  | .ge => 5
  | .un => 6
  | .ord => 7

/-- The floating-point group, opcodes 0x20 to 0x2B (R132 to R137). -/
def decFp (f : FW) (lo : Nat) : Except Nat Instr :=
  let h := f.hdr
  let e := Ext.ofX f.x
  let var := f.mod.extractLsb' 2 4
  let ftb := (f.mod.extractLsb' 0 2).toNat
  let ft : FTy := if ftb = 0 then .f32 else .f64
  let x0 := !f.x.getLsbD 0
  let c0 := f.c == 0
  let b0 := f.b == 0
  let v0 := var == 0
  let ok := x0 && ftb < 2
  let d := Opnd.ofByte f.d
  let a := Opnd.ofByte f.a
  let b := Opnd.ofByte f.b
  let c := Opnd.ofByte f.c
  match lo with
  | 0 => okIf (ok && v0 && c0 && e.ok .arith2) (.fadd h ft e d a b)
  | 1 => okIf (ok && v0 && c0 && e.ok .arith2) (.fsub h ft e d a b)
  | 2 => okIf (ok && v0 && c0 && e.ok .arith2) (.fmul h ft e d a b)
  | 3 => okIf (ok && v0 && e.ok .arith3) (.ffma h ft e d a b c)
  | 4 => okIf (ok && v0 && c0 && e.ok .pick2) (.fmin h ft e d a b)
  | 5 => okIf (ok && v0 && c0 && e.ok .pick2) (.fmax h ft e d a b)
  | 6 =>
    match FCond.ofBits var, predOfByte f.d with
    | some cd, some pd => okIf (ok && c0 && e.ok .pick2) (.fcmp h cd ft e pd a b)
    | _, _ => .error 2
  | 7 => okIf (ok && v0 && e.ok .pick3) (.fsel h ft e d a b c)
  | 8 => okIf (ok && var.toNat < 2 && b0 && c0 && e.ok .round) (.frnd h ft (var.getLsbD 0) e d a)
  | 9 => okIf (ok && v0 && c0 && e.ok .divide) (.fdiv h ft e d a b)
  | 10 => okIf (ok && v0 && b0 && c0 && e.ok .root) (.fsqrt h ft e d a)
  | 11 => okIf (x0 && v0 && ftb ≥ 2 && e.ok .arith3) (.fdot2 h (ftb == 3) e d a b c)
  | _ => .error 1

/-- The wide side of pack and unpack. -/
def PSrc.ofBits (b : BitVec 2) : Option PSrc :=
  match b.toNat with
  | 0 => some .f32
  | 1 => some .i32
  | 2 => some .n32
  | _ => none

/-- The field of the wide side. -/
def PSrc.bits : PSrc → BitVec 2
  | .f32 => 0
  | .i32 => 1
  | .n32 => 2

/-- Conversions, special functions, Welford: opcodes 0x40 to 0x4B (R138 to R147). -/
def decConv (f : FW) (lo : Nat) : Except Nat Instr :=
  let h := f.hdr
  let e := Ext.ofX f.x
  let x0 := !f.x.getLsbD 0
  let d := Opnd.ofByte f.d
  let a := Opnd.ofByte f.a
  let b := Opnd.ofByte f.b
  let c := Opnd.ofByte f.c
  let code := TyCode.ofBits (f.mod.extractLsb' 2 4)
  let un := f.mod == 0 && f.b == 0 && f.xZero
  match lo with
  | 0 =>
    let dst := TyCode.ofBits (f.b.extractLsb' 4 4)
    let src := TyCode.ofBits (f.b.extractLsb' 0 4)
    okIf (f.mod == 0 && x0 && e.ok .convert && cvtPairOk dst src && (src = .mx8 || c = .vec 0)) (.cvt h e dst src d a c)
  | 1 =>
    okWith (x0 && f.c == 0 && e.ok .convert && code.packed && (!code.byteWide || b = .vec 0))
      (PSrc.ofBits (f.mod.extractLsb' 0 2)) fun s => .pack h e code s d a b
  | 2 =>
    match PSrc.ofBits (f.mod.extractLsb' 0 2) with
    | some s => okIf (f.b == 0 && f.xZero && code.packed && (code.isInt || s = .f32)) (.unpack h code s d a)
    | none => .error 2
  | 3 => okIf un (.frcp h d a)
  | 4 => okIf un (.frsq h d a)
  | 5 => okIf un (.fexp2 h d a)
  | 6 => okIf un (.flog2 h d a)
  | 7 => okIf un (.fsinp h d a)
  | 8 => okIf un (.fcosp h d a)
  | 9 => okIf un (.wfu h d a)
  | 10 => okIf un (.wfm h d a)
  | 11 => okIf un (.rseed h d a)
  | _ => .error 1

/-- The variants of shfl. -/
def ShflVar.ofBits (b : BitVec 3) : Option ShflVar :=
  match b.toNat with
  | 0 => some .idx
  | 1 => some .up
  | 2 => some .down
  | 3 => some .xor
  | _ => none

/-- The field of a variant of shfl. -/
def ShflVar.bits : ShflVar → BitVec 3
  | .idx => 0
  | .up => 1
  | .down => 2
  | .xor => 3

/-- The operations of redux. -/
def RedOp.ofBits (b : BitVec 3) : Option RedOp :=
  match b.toNat with
  | 0 => some .add
  | 1 => some .min
  | 2 => some .max
  | 3 => some .and
  | 4 => some .or
  | _ => none

/-- The field of an operation of redux. -/
def RedOp.bits : RedOp → BitVec 3
  | .add => 0
  | .min => 1
  | .max => 2
  | .and => 3
  | .or => 4

/-- The types of the cross-lane group. -/
def CTy.ofBits (b : BitVec 2) : Option CTy :=
  match b.toNat with
  | 0 => some .i32
  | 1 => some .n32
  | 2 => some .f32
  | _ => none

/-- The field of a cross-lane type. -/
def CTy.bits : CTy → BitVec 2
  | .i32 => 0
  | .n32 => 1
  | .f32 => 2

/-- The votes. -/
def VoteVar.ofBits (b : BitVec 3) : Option VoteVar :=
  match b.toNat with
  | 0 => some .all
  | 1 => some .any
  | 2 => some .uni
  | _ => none

/-- The field of a vote. -/
def VoteVar.bits : VoteVar → BitVec 3
  | .all => 0
  | .any => 1
  | .uni => 2

/-- The variants of qx. -/
def QxVar.ofBits (b : BitVec 3) : Option QxVar :=
  match b.toNat with
  | 0 => some .h
  | 1 => some .v
  | 2 => some .diag
  | _ => none

/-- The field of a variant of qx. -/
def QxVar.bits : QxVar → BitVec 3
  | .h => 0
  | .v => 1
  | .diag => 2

/-- Cross-lane and quad: opcodes 0x50 to 0x56 (R148 to R153). -/
def decCross (f : FW) (lo : Nat) : Except Nat Instr :=
  let h := f.hdr
  let e := Ext.ofX f.x
  let var := f.mod.extractLsb' 3 3
  let tyb := f.mod.extractLsb' 1 2
  let nat := tyb.getLsbD 0
  let ty01 := !tyb.getLsbD 1
  let bit := f.mod.getLsbD 0
  let d := Opnd.ofByte f.d
  let a := Opnd.ofByte f.a
  let b := Opnd.ofByte f.b
  let x0 := !f.x.getLsbD 0 && f.c == 0
  match lo with
  | 0 =>
    match ShflVar.ofBits var with
    | none => .error 2
    | some v =>
      if bit then okIf (ty01 && f.b == 0) (.shfl h v nat d a (.imm f.x))
      else okIf (ty01 && f.xZero) (.shfl h v nat d a (.reg b))
  | 1 =>
    match RedOp.ofBits var, CTy.ofBits tyb with
    | some op, some ty =>
      okIf (!bit && x0 && f.b == 0 && op.admits ty && e.ok (.reduce op ty)) (.redux h op ty e d a)
    | _, _ => .error 2
  | 2 =>
    match RedOp.ofBits var, CTy.ofBits tyb with
    | some op, some ty => okIf (x0 && f.b == 0 && op.admits ty && e.ok (.reduce op ty)) (.scan h bit op ty e d a)
    | _, _ => .error 2
  | 3 => okWith (f.mod == 0 && f.b == 0 && f.xZero) (PSpec.ofByte f.a) (.ballot h d)
  | 4 =>
    match VoteVar.ofBits var, predOfByte f.d, PSpec.ofByte f.a with
    | some v, some pd, some p => okIf (tyb == 0 && !bit && f.b == 0 && f.xZero) (.vote h v pd p)
    | _, _, _ => .error 2
  | 5 => okWith (ty01 && !bit && f.b == 0 && f.xZero) (QxVar.ofBits var) fun k => .qx h k nat d a
  | 6 =>
    if bit then
      if hx : f.x.toNat < 4 then okIf (var == 0 && ty01 && f.b == 0) (.qbc h nat d a (.imm ⟨f.x.toNat, hx⟩))
      else .error 2
    else okIf (var == 0 && ty01 && f.xZero) (.qbc h nat d a (.reg b))
  | _ => .error 1

/-- The LIVE field: 0 to 48 (R70). -/
def FW.live (f : FW) : Option Live :=
  if h : (f.x.extractLsb' 14 6).toNat < 49 then some ⟨(f.x.extractLsb' 14 6).toNat, h⟩ else none

/-- OFF24 of Form J. -/
def FW.off24 (f : FW) : BitVec 24 := f.d ++ (f.a ++ f.b)

/-- The loop word (R174). -/
def decLoop (f : FW) : Except Nat Instr :=
  let c := (f.mod.extractLsb' 4 2).toNat
  let csrc := f.mod.getLsbD 3
  let len := f.x.extractLsb' 10 10
  let cnt := f.x.extractLsb' 0 10
  if hc : c < 3 then
    okIf (f.prd == 7 && f.mod.extractLsb' 0 3 == 1 && f.d == 0 && f.b == 0 && len != 0
        && (if csrc then cnt == 0 else f.a == 0))
      (.loop f.s ⟨c, hc⟩ (if csrc then .reg (.ofByte f.a) else .imm cnt) len)
  else .error 2

/-- Control flow: opcodes 0x60 to 0x6B (R177). -/
def decCtl (f : FW) (lo : Nat) : Except Nat Instr :=
  let h := f.hdr
  let d := Opnd.ofByte f.d
  let a := Opnd.ofByte f.a
  let m0 := f.mod == 0
  let r1 := f.x.extractLsb' 12 2 == 0
  let jok := m0 && r1 && f.x.extractLsb' 0 4 == 0
  let link := f.x.extractLsb' 4 8
  let tag := f.x.extractLsb' 0 12
  let kok := m0 && r1 && f.b == 0
  let i0 := f.mod == 1 && f.d == 0 && f.a == 0 && f.b == 0
  match lo with
  | 0 => okWith (jok && link == 0) f.live (.bra h f.off24)
  | 1 => okWith (kok && f.d == 0) f.live (.jmp h a tag)
  | 2 => okWith jok f.live (.call h (.ofByte link) f.off24)
  | 3 => okWith kok f.live (.calli h d a tag)
  | 4 => okWith (kok && f.d == 0 && tag == 0) f.live (.ret h a)
  | 5 => okIf (kok && f.d == 0 && f.a == 0 && f.x.extractLsb' 14 6 == 0) (.land h tag)
  | 6 => okWith (kok && f.prd == 7 && f.d == 0 && f.a == 0 && tag == 0) f.live (.reform f.s)
  | 7 => decLoop f
  | 8 => okIf (i0 && f.x.extractLsb' 12 8 == 0) (.brk h (f.x.extractLsb' 0 12))
  | 9 => okIf (i0 && f.xZero) (.exit h)
  | 10 => okIf (i0 && f.xZero) (.yield h)
  | 11 => okIf (i0 && f.xZero) (.nop h)
  | _ => .error 1

/-- The sizes of ld (R267). -/
def LdSz.ofBits (b : BitVec 3) : Option LdSz :=
  match b.toNat with
  | 0 => some .b8
  | 1 => some .i8
  | 2 => some .b16
  | 3 => some .i16
  | 4 => some .b32
  | 5 => some .b64
  | 6 => some .b128
  | _ => none

/-- The field of a size of ld. -/
def LdSz.bits : LdSz → BitVec 3
  | .b8 => 0
  | .i8 => 1
  | .b16 => 2
  | .i16 => 3
  | .b32 => 4
  | .b64 => 5
  | .b128 => 6

/-- The sizes of st (R267). -/
def StSz.ofBits (b : BitVec 3) : Option StSz :=
  match b.toNat with
  | 0 => some .b8
  | 2 => some .b16
  | 4 => some .b32
  | 5 => some .b64
  | 6 => some .b128
  | _ => none

/-- The field of a size of st. -/
def StSz.bits : StSz → BitVec 3
  | .b8 => 0
  | .b16 => 2
  | .b32 => 4
  | .b64 => 5
  | .b128 => 6

/-- The hints of ld and st. -/
def Hint.ofBits (b : BitVec 2) : Option Hint :=
  match b.toNat with
  | 0 => some .none
  | 1 => some .ef
  | 2 => some .na
  | _ => Option.none

/-- The field of a hint. -/
def Hint.bits : Hint → BitVec 2
  | .none => 0
  | .ef => 1
  | .na => 2

/-- An integer atomic operation from its code. -/
def AOp.ofCode : Nat → Option AOp
  | 0 => some .add
  | 1 => some .min
  | 2 => some .max
  | 3 => some .and
  | 4 => some .or
  | 5 => some .xor
  | 6 => some .xchg
  | 7 => some .cas
  | _ => none

/-- The code of an integer atomic operation. -/
def AOp.bits : AOp → BitVec 4
  | .add => 0
  | .min => 1
  | .max => 2
  | .and => 3
  | .or => 4
  | .xor => 5
  | .xchg => 6
  | .cas => 7

/-- OP and TY of atom and red (R284). -/
def AtomOp.ofMod (m : BitVec 6) : Option AtomOp :=
  let ty := m.extractLsb' 0 2
  let op := (m.extractLsb' 2 4).toNat
  match AOp.ofCode op with
  | some o => some (.int o (.ofBits ty))
  | none =>
    if ty = 0 then
      match op with
      | 8 => some .faddF32
      | 9 => some .faddF64
      | 10 => some .fminF32
      | 11 => some .fmaxF32
      | 12 => some .fminF64
      | 13 => some .fmaxF64
      | 14 => some .faddBf16
      | _ => none
    else none

/-- MOD of an atomic operation. -/
def AtomOp.toMod : AtomOp → BitVec 6
  | .int o ty => o.bits ++ ty.bits
  | .faddF32 => 0x8#4 ++ 0#2
  | .faddF64 => 0x9#4 ++ 0#2
  | .fminF32 => 0xA#4 ++ 0#2
  | .fmaxF32 => 0xB#4 ++ 0#2
  | .fminF64 => 0xC#4 ++ 0#2
  | .fmaxF64 => 0xD#4 ++ 0#2
  | .faddBf16 => 0xE#4 ++ 0#2

/-- Memory: opcodes 0x70 to 0x78 (R267, R269, R284 to R290). -/
def decMem (f : FW) (lo : Nat) : Except Nat Instr :=
  let h := f.hdr
  let d := Opnd.ofByte f.d
  let a := Opnd.ofByte f.a
  let b := Opnd.ofByte f.b
  let m := MemX.ofX f.x
  let szb := f.mod.extractLsb' 3 3
  let plain := m.obs == 0 && m.ord == .plain && f.d == 0 && f.b == 0 && f.mod.extractLsb' 0 3 == 0
  match lo with
  | 0 =>
    match LdSz.ofBits szb, Hint.ofBits (f.mod.extractLsb' 1 2) with
    | some z, some hi => okIf (!f.mod.getLsbD 0 && f.b == 0 && m.ok true false) (.ld h z hi m d a)
    | _, _ => .error 2
  | 1 =>
    match StSz.ofBits szb, Hint.ofBits (f.mod.extractLsb' 1 2) with
    | some z, some hi => okIf (!f.mod.getLsbD 0 && f.d == 0 && m.ok false true) (.st h z hi m a b)
    | _, _ => .error 2
  | 2 => okWith (m.ok true true) (AtomOp.ofMod f.mod) fun op => .atom h op m d a b
  | 3 =>
    match AtomOp.ofMod f.mod with
    | some op => okIf (op.redOk && f.d == 0 && m.ok false true) (.red h op m a b)
    | none => .error 2
  | 4 => okIf (szb.extractLsb' 1 2 == 2 && f.mod.extractLsb' 0 3 == 0 && f.b == 0 && m.ok true false)
      (.lrs h (szb.getLsbD 0) m d a)
  | 5 => okIf (szb.extractLsb' 1 2 == 2 && f.mod.extractLsb' 0 3 == 0 && m.ok false true) (.scs h (szb.getLsbD 0) m d a b)
  | 6 =>
    match szb.toNat with
    | 0 => okIf plain (.cpf h .l1 m.off a)
    | 1 => okIf plain (.cpf h .dc m.off a)
    | 2 => okIf plain (.cpf h .ms m.off a)
    | 3 => okIf plain (.cpf h .dcw m.off a)
    | _ => .error 2
  | 7 => okIf (plain && szb == 0) (.cwb h m.off a)
  | 8 => okIf (plain && szb.extractLsb' 1 2 == 0) (.cinv h (szb.getLsbD 0) m.off a)
  | _ => .error 1

/-- The sizes of pld (R190). -/
def PldSz.ofBits (b : BitVec 3) : Option PldSz :=
  match b.toNat with
  | 0 => some .b8
  | 1 => some .i8
  | 2 => some .b16
  | 3 => some .i16
  | 4 => some .b32
  | 5 => some .b64
  | _ => none

/-- The field of a size of pld. -/
def PldSz.bits : PldSz → BitVec 3
  | .b8 => 0
  | .i8 => 1
  | .b16 => 2
  | .i16 => 3
  | .b32 => 4
  | .b64 => 5

/-- The sizes of pst (R190). -/
def PstSz.ofBits (b : BitVec 3) : Option PstSz :=
  match b.toNat with
  | 0 => some .b8
  | 2 => some .b16
  | 4 => some .b32
  | 5 => some .b64
  | _ => none

/-- The field of a size of pst. -/
def PstSz.bits : PstSz → BitVec 3
  | .b8 => 0
  | .b16 => 2
  | .b32 => 4
  | .b64 => 5

/-- OP and TY of patom (R191). -/
def PatOp.ofMod (m : BitVec 6) : Option PatOp :=
  let op := (m.extractLsb' 2 4).toNat
  match (m.extractLsb' 0 2).toNat with
  | 0 => (AOp.ofCode op).map .i32
  | 1 => (AOp.ofCode op).map .n32
  | 2 =>
    match op with
    | 1 => some .minF
    | 2 => some .maxF
    | 8 => some .faddF
    | _ => none
  | _ =>
    match AOp.ofCode op with
    | some o => if (PatOp.b64 o).ok then some (.b64 o) else none
    | none => none

/-- MOD of a pad atomic. -/
def PatOp.toMod : PatOp → BitVec 6
  | .i32 o => o.bits ++ 0#2
  | .n32 o => o.bits ++ 1#2
  | .minF => 1#4 ++ 2#2
  | .maxF => 2#4 ++ 2#2
  | .faddF => 8#4 ++ 2#2
  | .b64 o => o.bits ++ 3#2

/-- A tag mask of Form R or Form I (R204). -/
def FW.tmask (f : FW) : Option TMask :=
  if f.mod = 0 then (if f.b == 0 && f.xZero then some (.reg (.ofByte f.a)) else none)
  else if f.mod = 1 then
    (if f.a == 0 && f.b == 0 && f.x.extractLsb' 6 14 == 0 then some (.tag (f.x.extractLsb' 0 6)) else none)
  else none

/-- A last source of Form R (MOD 0) or Form I (MOD 1) standing in B. -/
def FW.lastB (f : FW) : Option RI :=
  if f.mod = 0 then (if f.xZero then some (.reg (.ofByte f.b)) else none)
  else if f.mod = 1 then (if f.b == 0 then some (.imm f.x) else none)
  else none

/-- Pad, copies, tags, watches, barriers: opcodes 0x90 to 0x9E (R190 to R211). -/
def decPad (f : FW) (lo : Nat) : Except Nat Instr :=
  let h := f.hdr
  let d := Opnd.ofByte f.d
  let a := Opnd.ofByte f.a
  let b := Opnd.ofByte f.b
  let m := MemX.ofX f.x
  let szb := f.mod.extractLsb' 3 3
  let plain := m.obs == 0 && m.ord == .plain
  let z3 := f.mod.extractLsb' 0 3 == 0
  match lo with
  | 0 => okWith (z3 && plain && f.b == 0) (PldSz.ofBits szb) fun z => .pld h z m.off d a
  | 1 => okWith (z3 && plain && f.d == 0) (PstSz.ofBits szb) fun z => .pst h z m.off a b
  | 2 => okWith plain (PatOp.ofMod f.mod) fun op => .patom h op m.off d a b
  | 3 => okIf (z3 && plain && f.b == 0 && szb.extractLsb' 1 2 == 2) (.ald h (szb.getLsbD 0) m.off d a)
  | 4 => okIf (z3 && plain && f.d == 0 && szb.extractLsb' 1 2 == 2) (.ast h (szb.getLsbD 0) m.off a b)
  | 5 => okIf (f.mod == 0 && f.d == 0 && f.b == 0 && f.xZero) (.cpy h a)
  | 6 => okWith true f.tmask (.twany h d)
  | 7 => okWith (f.d == 0) f.tmask (.twall h)
  | 8 => okWith true f.tmask (.tfirst h d)
  | 9 => okWith (f.d == 0) f.tmask (.tclr h)
  | 10 =>
    let ok := f.mod.extractLsb' 0 3 == 0 && f.d == 0 && f.b == 0 && f.xZero
    let sl := f.mod.getLsbD 3
    match (f.mod.extractLsb' 4 2).toNat with
    | 0 => okIf ok (.watch h .global sl a)
    | 1 => okIf ok (.watch h .pad sl a)
    | 2 => okIf (ok && f.a == 0) (.watch h .off sl a)
    | _ => .error 2
  | 11 =>
    if f.mod = 0 then okIf (f.b == 0 && f.xZero) (.wait h d (.reg a))
    else okIf (f.mod == 1 && f.a == 0 && f.b == 0) (.wait h d (.imm f.x))
  | 12 =>
    okIf (f.mod == 1 && f.prd == 7 && f.d == 0 && f.a == 0 && f.b == 0 && f.x.extractLsb' 4 16 == 0)
      (.bar f.s (f.x.extractLsb' 0 4))
  | 13 => okWith ((f.lastB.map (·.immBelow 65536)) == some true) f.lastB (.parr h d a)
  | 14 => okWith ((f.lastB.map (·.immBelow 2)) == some true) f.lastB (.pwait h d a)
  | _ => .error 1

/-- The matrix queue: opcodes 0xA0, 0xA1 (R247, R248). -/
def decMatrix (f : FW) (lo : Nat) : Except Nat Instr :=
  match lo with
  | 0 => okIf (f.mod == 0 && f.b == 0 && f.xZero) (.menq f.hdr (.ofByte f.d) (.ofByte f.a))
  | 1 =>
    if hs : f.x.toNat < 3 then okIf (f.mod == 1 && f.a == 0 && f.b == 0) (.mstat f.hdr (.ofByte f.d) ⟨f.x.toNat, hs⟩)
    else .error 2
  | _ => .error 1

/-- Messages and collectives: opcodes 0xB0 to 0xB2 (R329, R332, R339). -/
def decMesh (f : FW) (lo : Nat) : Except Nat Instr :=
  let h := f.hdr
  let d := Opnd.ofByte f.d
  let b := Opnd.ofByte f.b
  match lo with
  | 0 => okIf (f.mod == 0 && f.xZero) (.send h d (.ofByte f.a) b)
  | 1 =>
    let mb := f.mod.extractLsb' 2 4
    if f.mod.getLsbD 0 then okIf (!f.mod.getLsbD 1 && f.a == 0 && f.b == 0 && f.x.toNat < 257) (.mbadv h mb d (.imm f.x))
    else okIf (!f.mod.getLsbD 1 && f.a == 0 && f.xZero) (.mbadv h mb d (.reg b))
  | 2 => okIf (f.mod == 0 && f.d == 0 && f.b == 0 && f.xZero) (.coll h (.ofByte f.a))
  | _ => .error 1

/-- Tasks and launches: opcodes 0xC0 to 0xC6 (R364). -/
def decTask (f : FW) (lo : Nat) : Except Nat Instr :=
  let h := f.hdr
  let d := Opnd.ofByte f.d
  let a := Opnd.ofByte f.a
  let r := f.mod == 0 && f.xZero
  match lo with
  | 0 => okIf (r && f.d == 0 && f.b == 0) (.tspawn h a)
  | 1 => okIf (r && f.a == 0 && f.b == 0) (.tnext h d)
  | 2 =>
    if f.mod = 0 then okIf (f.a == 0 && f.xZero) (.tdone h d (.reg (.ofByte f.b)))
    else okIf (f.mod == 1 && f.a == 0 && f.b == 0 && f.x != 0) (.tdone h d (.imm f.x))
  | 3 => okIf (f.mod == 1 && f.b == 0 && f.x.extractLsb' 3 17 == 0) (.qput h d a (f.x.extractLsb' 0 3))
  | 4 => okIf (r && f.a == 0 && f.b == 0) (.qget h d)
  | 5 => okIf (r && f.d == 0 && f.b == 0) (.arm h a)
  | 6 => okIf (r && f.d == 0 && f.b == 0) (.launch h a)
  | _ => .error 1

/-- Graphics: opcodes 0xD0 to 0xD7 (R402). -/
def decGfx (f : FW) (lo : Nat) : Except Nat Instr :=
  let h := f.hdr
  let d := Opnd.ofByte f.d
  let a := Opnd.ofByte f.a
  let b := Opnd.ofByte f.b
  let c := Opnd.ofByte f.c
  let dim := !f.mod.getLsbD 5 && f.mod.extractLsb' 0 2 == 0
  let arr := f.mod.getLsbD 4
  let ch := f.mod.extractLsb' 2 2
  let ext0 := f.x.extractLsb' 0 12 == 0
  match lo with
  | 0 => okIf (dim && ch == 0 && f.xZero) (.tex h arr d a b)
  | 1 => okIf (dim && ch == 0 && ext0) (.texf h arr d a b c)
  | 2 => okIf (dim && ext0) (.texg h arr ⟨ch.toNat, ch.isLt⟩ d a b c)
  | 3 => okIf (dim && ch == 0 && ext0) (.texl h arr d a b c)
  | 4 => okIf (f.mod == 0 && f.d == 0 && f.b == 0 && f.xZero) (.mout h a)
  | 5 =>
    if f.mod = 0 then okIf (f.b == 0 && f.xZero) (.mfinMesh h d a)
    else okIf (f.mod == 0x10 && f.b == 0 && f.xZero) (.mfinTask h d a)
  | 6 =>
    if hn : (f.mod.extractLsb' 3 3).toNat < 5 then
      okIf (f.mod.extractLsb' 0 3 == 0 && f.d == 0 && f.b == 0 && f.xZero) (.pxo h ⟨(f.mod.extractLsb' 3 3).toNat, hn⟩ a)
    else .error 2
  | 7 => okIf (f.mod == 0 && f.d == 0 && f.a == 0 && f.b == 0 && f.xZero) (.pkill h)
  | _ => .error 1

/-- Rays and the fence: opcodes 0xE0 to 0xE8 (R306, R424). -/
def decRay (f : FW) (lo : Nat) : Except Nat Instr :=
  let h := f.hdr
  let d := Opnd.ofByte f.d
  let a := Opnd.ofByte f.a
  let b := Opnd.ofByte f.b
  let r := f.mod == 0 && f.xZero
  match lo with
  | 0 => okIf r (.rbox h d a b)
  | 1 =>
    if f.mod = 1 then okIf (f.x.extractLsb' 0 12 == 0) (.rtriW h d a b (.ofByte f.c))
    else okIf r (.rtri h d a b)
  | 2 => okIf r (.bmbox h d a b)
  | 3 => okIf r (.bmtri h d a b)
  | 4 => okIf r (.bmsplit h d a b)
  | 5 => okIf (r && f.d == 0 && f.b == 0) (.kpush h a)
  | 6 => okIf (r && f.a == 0 && f.b == 0) (.kpop h d)
  | 8 =>
    let obs := f.x.extractLsb' 12 6
    let ok := f.mod.extractLsb' 0 4 == 0 && f.d == 0 && f.a == 0 && f.b == 0 && f.x.extractLsb' 18 2 == 0
      && f.x.extractLsb' 0 12 == 0 && obs != 0
    match (f.mod.extractLsb' 4 2).toNat with
    | 1 => okIf ok (.fence h .acq obs)
    | 2 => okIf ok (.fence h .rel obs)
    | 3 => okIf ok (.fence h .ar obs)
    | _ => .error 2
  | _ => .error 1

/-- System: opcodes 0xF0 to 0xF6 (R154, R460). mtc to FPC and to MQB are constructors of their own. -/
def decSys (f : FW) (lo : Nat) : Except Nat Instr :=
  let h := f.hdr
  let d := Opnd.ofByte f.d
  let a := Opnd.ofByte f.a
  let i := f.mod == 1 && f.b == 0
  let idx := f.x.extractLsb' 0 12
  let idx0 := f.x.extractLsb' 12 8 == 0
  match lo with
  | 0 => okIf (i && f.d == 0 && f.a == 0 && f.x.extractLsb' 16 4 == 0) (.trap h (f.x.extractLsb' 0 16))
  | 1 =>
    if hs : f.x.toNat < 6 then okIf (i && f.d == 0 && f.a == 0) (.sret h ⟨f.x.toNat, hs⟩) else .error 2
  | 2 => okIf (i && f.a == 0 && idx0) (.mfc h d idx)
  | 3 =>
    okIf (i && f.d == 0 && idx0)
      (if idx = 0x001 then .fpcWrite h a else if idx = 0x010 then .mqbWrite h a else .mtc h idx a)
  | 4 => okIf (i && f.a == 0 && f.xZero) (.cyc h d)
  | 5 => okIf (f.mod == 0 && f.d == 0 && f.b == 0 && f.xZero) (.halt h a)
  | 6 => okIf (i && f.d == 0 && f.a == 0 && f.x.extractLsb' 1 19 == 0) (.iflush h (f.x.getLsbD 0))
  | _ => .error 1

/-- A full-form word by the opcode map (R79), before the reserved guard. -/
def decodeBody (f : FW) : Except Nat Instr :=
  let lo := f.opc.toNat % 16
  match f.opc.toNat / 16 with
  | 0x0 => decInt0 f lo
  | 0x1 => decInt1 f lo
  | 0x2 => decFp f lo
  | 0x4 => decConv f lo
  | 0x5 => decCross f lo
  | 0x6 => decCtl f lo
  | 0x7 => decMem f lo
  | 0x9 => decPad f lo
  | 0xA => decMatrix f lo
  | 0xB => decMesh f lo
  | 0xC => decTask f lo
  | 0xD => decGfx f lo
  | 0xE => decRay f lo
  | 0xF => decSys f lo
  | _ => .error 1

/-- A full-form word: an unassigned opcode is cause 0x01, then the reserved guard is 0x02 (R64, R82). -/
def decodeFull (f : FW) : Except Nat Instr :=
  match decodeBody f with
  | .error 1 => .error 1
  | r => if f.prd = 0xF then .error 2 else r

/-- The fields of a pair slot (R73). -/
structure SW where
  rop : BitVec 6
  pr2 : BitVec 2
  ty : Bool
  d : BitVec 8
  b : BitVec 8
  modr : BitVec 6
deriving DecidableEq, Repr

/-- Read the fields of a slot. -/
def SW.ofBits (w : BitVec 31) : SW :=
  ⟨w.extractLsb' 25 6, w.extractLsb' 23 2, w.getLsbD 22, w.extractLsb' 14 8, w.extractLsb' 6 8, w.extractLsb' 0 6⟩

/-- Lay the fields of a slot out. -/
def SW.toBits (f : SW) : BitVec 31 :=
  (f.rop ++ (f.pr2 ++ (BitVec.ofBool f.ty ++ (f.d ++ (f.b ++ f.modr))))).cast rfl

/-- A restricted operation from ROP (R74). -/
def Rop.ofCode : Nat → Option Rop
  | 0x00 => some .nop
  | 0x01 => some .mov
  | 0x02 => some .movi8
  | 0x03 => some .add
  | 0x04 => some .addi8
  | 0x05 => some .sub
  | 0x06 => some .subi8
  | 0x07 => some .and
  | 0x08 => some .andi8
  | 0x09 => some .or
  | 0x0A => some .ori8
  | 0x0B => some .xor
  | 0x0C => some .xori8
  | 0x0D => some .not
  | 0x0E => some .neg
  | 0x0F => some .shl
  | 0x10 => some .shli8
  | 0x11 => some .shr
  | 0x12 => some .shri8
  | 0x13 => some .sar
  | 0x14 => some .sari8
  | 0x15 => some .min
  | 0x16 => some .max
  | 0x17 => some .fadd
  | 0x18 => some .fsub
  | 0x19 => some .fmul
  | 0x1A => some .fmin
  | 0x1B => some .fmax
  | 0x1C => some .fabs
  | 0x1D => some .fneg
  | 0x1E => some .cvtF
  | 0x1F => some .cvtI
  | _ => none

/-- ROP of a restricted operation. -/
def Rop.bits : Rop → BitVec 6
  | .nop => 0x00
  | .mov => 0x01
  | .movi8 => 0x02
  | .add => 0x03
  | .addi8 => 0x04
  | .sub => 0x05
  | .subi8 => 0x06
  | .and => 0x07
  | .andi8 => 0x08
  | .or => 0x09
  | .ori8 => 0x0A
  | .xor => 0x0B
  | .xori8 => 0x0C
  | .not => 0x0D
  | .neg => 0x0E
  | .shl => 0x0F
  | .shli8 => 0x10
  | .shr => 0x11
  | .shri8 => 0x12
  | .sar => 0x13
  | .sari8 => 0x14
  | .min => 0x15
  | .max => 0x16
  | .fadd => 0x17
  | .fsub => 0x18
  | .fmul => 0x19
  | .fmin => 0x1A
  | .fmax => 0x1B
  | .fabs => 0x1C
  | .fneg => 0x1D
  | .cvtF => 0x1E
  | .cvtI => 0x1F

/-- A slot with its causes 0x01 and 0x02 (R75). -/
def SW.slot (f : SW) : Except Nat Slot :=
  match Rop.ofCode f.rop.toNat with
  | none => .error 1
  | some r =>
    let s : Slot := ⟨r, f.pr2, f.ty, f.modr.getLsbD 0, f.d, f.b⟩
    if f.modr.extractLsb' 1 5 = 0 && s.ok then .ok s else .error 2

/-- A pair word (R73, R75, R82). -/
def decodePair (w : DWord) : Except Nat Instr :=
  match (SW.ofBits (w.extractLsb' 31 31)).slot, (SW.ofBits (w.extractLsb' 0 31)).slot with
  | .ok a, .ok b => .ok (.pairWord (w.getLsbD 63) a b)
  | .error a, .ok _ => .error a
  | .ok _, .error b => .error b
  | .error a, .error b => .error (if a < b then a else b)

/-- A word (R62): the instruction, or the lowest static decode cause, 0x01 or 0x02. -/
def decode (w : DWord) : Except Nat Instr :=
  if w.getLsbD 62 then decodePair w else decodeFull (FW.ofWord w)

/-! ## The encoder -/

/-- Form R of a word with its EXT bits. -/
def fR (h : Hdr) (opc : BitVec 8) (mod : BitVec 6) (d a b c : BitVec 8) (e : Ext) : FW :=
  ⟨h.s, opc, h.prd, mod, d, a, b, xR c e⟩

/-- A word with X given. -/
def fX (h : Hdr) (opc : BitVec 8) (mod : BitVec 6) (d a b : BitVec 8) (x : BitVec 20) : FW :=
  ⟨h.s, opc, h.prd, mod, d, a, b, x⟩

/-- MOD of the integer group (R122). -/
def modI (var : BitVec 3) (ty : ITy) (fi : Bool) : BitVec 6 := var ++ (ty.bits ++ BitVec.ofBool fi)

/-- An integer word of two sources. -/
def encBin (h : Hdr) (opc : BitVec 8) (var : BitVec 3) (ty : ITy) (sat : Bool) (d a : BitVec 8) (b : RI) : FW :=
  match b with
  | .reg o => fR h opc (modI var ty false) d a o.toByte 0 { Ext.zero with sat := sat }
  | .imm v => fX h opc (modI var ty true) d a 0 v

/-- An integer word of one source. -/
def encUn (h : Hdr) (opc : BitVec 8) (ty : ITy) (sat : Bool) (d a : BitVec 8) : FW :=
  fR h opc (modI 0 ty false) d a 0 0 { Ext.zero with sat := sat }

/-- X of the branch forms. -/
def xK (live : Live) (tag : BitVec 12) : BitVec 20 := BitVec.ofNat 6 live.val ++ (0#2 ++ tag)

/-- MOD of a floating-point word (R132). -/
def modF (var : BitVec 4) (ft : FTy) : BitVec 6 :=
  var ++ (match ft with | .f32 => 0#2 | .f64 => 1#2)

/-- MOD of a cross-lane word (R148). -/
def modC (var : BitVec 3) (ty : BitVec 2) (bit : Bool) : BitVec 6 := var ++ (ty ++ BitVec.ofBool bit)

/-- The field of a natural-or-integer choice. -/
def natBits (nat : Bool) : BitVec 2 := 0#1 ++ BitVec.ofBool nat

/-- X of Form M with a plain order. -/
def xM (off : BitVec 12) : BitVec 20 := off ++ 0#8

/-- A tag word in its form (R204). -/
def encT (h : Hdr) (opc : BitVec 8) (d : BitVec 8) (m : TMask) : FW :=
  match m with
  | .reg a => fX h opc 0 d a.toByte 0 0
  | .tag n => fX h opc 1 d 0 0 (0#14 ++ n)

/-- A word whose last source stands in B or in IMM20, MOD 0 or 1. -/
def encB (h : Hdr) (opc : BitVec 8) (d a : BitVec 8) (b : RI) : FW :=
  match b with
  | .reg o => fX h opc 0 d a o.toByte 0
  | .imm v => fX h opc 1 d a 0 v

/-- A guard-less header, p7. -/
def Hdr.always (s : Bool) : Hdr := ⟨s, false, 7⟩

/-- pset in its variants (R130). -/
def encPset (h : Hdr) (op : PsetOp) (d : BitVec 8) : FW :=
  match op with
  | .nz ty a => fX h 0x1F (modI 0 ty false) d a.toByte 0 0
  | .mask a => fX h 0x1F (modI 1 .n64 false) d a.toByte 0 0
  | .and a b => fX h 0x1F (modI 2 .i32 false) d a.toByte b.toByte 0
  | .or a b => fX h 0x1F (modI 3 .i32 false) d a.toByte b.toByte 0
  | .xor a b => fX h 0x1F (modI 4 .i32 false) d a.toByte b.toByte 0
  | .andn a b => fX h 0x1F (modI 5 .i32 false) d a.toByte b.toByte 0

/-- A slot laid out (R73). -/
def Slot.toBits (s : Slot) : BitVec 31 :=
  SW.toBits ⟨s.rop.bits, s.pr2, s.ty, s.d, s.b, 0#5 ++ BitVec.ofBool s.sat⟩

/-- The integer group laid out (R122 to R131). -/
def encInt : Instr → Option FW
  | .add h ty s d a b => some (encBin h 0x00 0 ty s d.toByte a.toByte b)
  | .sub h ty s d a b => some (encBin h 0x01 0 ty s d.toByte a.toByte b)
  | .mul h ty s d a b => some (encBin h 0x02 0 ty s d.toByte a.toByte b)
  | .mulhi h ty d a b => some (encBin h 0x03 0 ty false d.toByte a.toByte b)
  | .mad h ty s d a b (.reg c) => some (fR h 0x04 (modI 0 ty false) d.toByte a.toByte b.toByte c.toByte { Ext.zero with sat := s })
  | .mad h ty _ d a b (.imm v) => some (fX h 0x04 (modI 0 ty true) d.toByte a.toByte b.toByte v)
  | .div h ty s d a b => some (encBin h 0x05 0 ty s d.toByte a.toByte b)
  | .rem h ty d a b => some (encBin h 0x06 0 ty false d.toByte a.toByte b)
  | .min h ty d a b => some (encBin h 0x07 0 ty false d.toByte a.toByte b)
  | .max h ty d a b => some (encBin h 0x08 0 ty false d.toByte a.toByte b)
  | .abs h ty s d a => some (encUn h 0x09 ty s d.toByte a.toByte)
  | .neg h ty s d a => some (encUn h 0x0A ty s d.toByte a.toByte)
  | .and h ty d a b => some (encBin h 0x0B 0 ty false d.toByte a.toByte b)
  | .or h ty d a b => some (encBin h 0x0C 0 ty false d.toByte a.toByte b)
  | .xor h ty d a b => some (encBin h 0x0D 0 ty false d.toByte a.toByte b)
  | .not h ty d a => some (encUn h 0x0E ty false d.toByte a.toByte)
  | .andn h ty d a b => some (encBin h 0x0F 0 ty false d.toByte a.toByte b)
  | .shl h ty d a b => some (encBin h 0x10 0 ty false d.toByte a.toByte b)
  | .shr h ty d a b => some (encBin h 0x11 0 ty false d.toByte a.toByte b)
  | .sar h ty d a b => some (encBin h 0x12 0 ty false d.toByte a.toByte b)
  | .rot h ty d a b => some (encBin h 0x13 0 ty false d.toByte a.toByte b)
  | .clz h ty d a => some (encUn h 0x14 ty false d.toByte a.toByte)
  | .popc h ty d a => some (encUn h 0x15 ty false d.toByte a.toByte)
  | .brev h ty d a => some (encUn h 0x16 ty false d.toByte a.toByte)
  | .bfx h ty d a sp => some (encBin h 0x17 0 ty false d.toByte a.toByte sp)
  | .bfi h ty d a b (.reg c) => some (fR h 0x18 (modI 0 ty false) d.toByte a.toByte b.toByte c.toByte Ext.zero)
  | .bfi h ty d a b (.imm v) => some (fX h 0x18 (modI 0 ty true) d.toByte a.toByte b.toByte v)
  | .sel h ty d a b p => some (fR h 0x19 (modI 0 ty false) d.toByte a.toByte b.toByte p.toByte Ext.zero)
  | .cmp h c ty pd a b => some (encBin h 0x1A c.bits ty false (predToByte pd) a.toByte b)
  | .lea h sh nat d a b => some (encBin h 0x1B sh (if nat then .n32 else .i32) false d.toByte a.toByte b)
  | .mov h ty d a => some (encUn h 0x1C ty false d.toByte a.toByte)
  | .movi h ty d v => some (fX h 0x1D (modI 0 ty true) d.toByte 0 0 v)
  | .movh h nat d v => some (fX h 0x1E (modI 0 (if nat then .n32 else .i32) true) d.toByte 0 0 v)
  | .pset h op pd => some (encPset h op (predToByte pd))
  | _ => none

/-- Floating point, conversions and cross-lane words laid out (R132 to R153). -/
def encFp : Instr → Option FW
  | .fadd h ft e d a b => some (fR h 0x20 (modF 0 ft) d.toByte a.toByte b.toByte 0 e)
  | .fsub h ft e d a b => some (fR h 0x21 (modF 0 ft) d.toByte a.toByte b.toByte 0 e)
  | .fmul h ft e d a b => some (fR h 0x22 (modF 0 ft) d.toByte a.toByte b.toByte 0 e)
  | .ffma h ft e d a b c => some (fR h 0x23 (modF 0 ft) d.toByte a.toByte b.toByte c.toByte e)
  | .fmin h ft e d a b => some (fR h 0x24 (modF 0 ft) d.toByte a.toByte b.toByte 0 e)
  | .fmax h ft e d a b => some (fR h 0x25 (modF 0 ft) d.toByte a.toByte b.toByte 0 e)
  | .fcmp h c ft e pd a b => some (fR h 0x26 (modF c.bits ft) (predToByte pd) a.toByte b.toByte 0 e)
  | .fsel h ft e d a b c => some (fR h 0x27 (modF 0 ft) d.toByte a.toByte b.toByte c.toByte e)
  | .frnd h ft nx e d a => some (fR h 0x28 (modF (0#3 ++ BitVec.ofBool nx) ft) d.toByte a.toByte 0 0 e)
  | .fdiv h ft e d a b => some (fR h 0x29 (modF 0 ft) d.toByte a.toByte b.toByte 0 e)
  | .fsqrt h ft e d a => some (fR h 0x2A (modF 0 ft) d.toByte a.toByte 0 0 e)
  | .fdot2 h bf e d a b c => some (fR h 0x2B (0#4 ++ (1#1 ++ BitVec.ofBool bf)) d.toByte a.toByte b.toByte c.toByte e)
  | .cvt h e dst src d a c => some (fR h 0x40 0 d.toByte a.toByte (dst.bits ++ src.bits) c.toByte e)
  | .pack h e dst src d a b => some (fR h 0x41 (dst.bits ++ src.bits) d.toByte a.toByte b.toByte 0 e)
  | .unpack h src dst d a => some (fX h 0x42 (src.bits ++ dst.bits) d.toByte a.toByte 0 0)
  | .frcp h d a => some (fX h 0x43 0 d.toByte a.toByte 0 0)
  | .frsq h d a => some (fX h 0x44 0 d.toByte a.toByte 0 0)
  | .fexp2 h d a => some (fX h 0x45 0 d.toByte a.toByte 0 0)
  | .flog2 h d a => some (fX h 0x46 0 d.toByte a.toByte 0 0)
  | .fsinp h d a => some (fX h 0x47 0 d.toByte a.toByte 0 0)
  | .fcosp h d a => some (fX h 0x48 0 d.toByte a.toByte 0 0)
  | .wfu h d a => some (fX h 0x49 0 d.toByte a.toByte 0 0)
  | .wfm h d a => some (fX h 0x4A 0 d.toByte a.toByte 0 0)
  | .rseed h d a => some (fX h 0x4B 0 d.toByte a.toByte 0 0)
  | .shfl h v nat d a (.reg b) => some (fX h 0x50 (modC v.bits (natBits nat) false) d.toByte a.toByte b.toByte 0)
  | .shfl h v nat d a (.imm i) => some (fX h 0x50 (modC v.bits (natBits nat) true) d.toByte a.toByte 0 i)
  | .redux h op ty e d a => some (fR h 0x51 (modC op.bits ty.bits false) d.toByte a.toByte 0 0 e)
  | .scan h x op ty e d a => some (fR h 0x52 (modC op.bits ty.bits x) d.toByte a.toByte 0 0 e)
  | .ballot h d p => some (fX h 0x53 0 d.toByte p.toByte 0 0)
  | .vote h v pd p => some (fX h 0x54 (modC v.bits 0 false) (predToByte pd) p.toByte 0 0)
  | .qx h k nat d a => some (fX h 0x55 (modC k.bits (natBits nat) false) d.toByte a.toByte 0 0)
  | .qbc h nat d a (.reg b) => some (fX h 0x56 (modC 0 (natBits nat) false) d.toByte a.toByte b.toByte 0)
  | .qbc h nat d a (.imm k) => some (fX h 0x56 (modC 0 (natBits nat) true) d.toByte a.toByte 0 (BitVec.ofNat 20 k.val))
  | _ => none

/-- Control flow laid out (R69, R70, R174, R177). -/
def encCtl : Instr → Option FW
  | .bra h off l => some (fX h 0x60 0 (off.extractLsb' 16 8) (off.extractLsb' 8 8) (off.extractLsb' 0 8) (xK l 0))
  | .jmp h a tag l => some (fX h 0x61 0 0 a.toByte 0 (xK l tag))
  | .call h k off l =>
    some (fX h 0x62 0 (off.extractLsb' 16 8) (off.extractLsb' 8 8) (off.extractLsb' 0 8) (xK l (k.toByte ++ 0#4)))
  | .calli h d a tag l => some (fX h 0x63 0 d.toByte a.toByte 0 (xK l tag))
  | .ret h a l => some (fX h 0x64 0 0 a.toByte 0 (xK l 0))
  | .land h tag => some (fX h 0x65 0 0 0 0 (0#8 ++ tag))
  | .reform s l => some (fX (Hdr.always s) 0x66 0 0 0 0 (xK l 0))
  | .loop s c (.imm n) len => some (fX (Hdr.always s) 0x67 (BitVec.ofNat 2 c.val ++ 1#4) 0 0 0 (len ++ n))
  | .loop s c (.reg a) len => some (fX (Hdr.always s) 0x67 (BitVec.ofNat 2 c.val ++ 9#4) 0 a.toByte 0 (len ++ 0#10))
  | .brk h code => some (fX h 0x68 1 0 0 0 (0#8 ++ code))
  | .exit h => some (fX h 0x69 1 0 0 0 0)
  | .yield h => some (fX h 0x6A 1 0 0 0 0)
  | .nop h => some (fX h 0x6B 1 0 0 0 0)
  | _ => none

/-- Memory, pad, copies, tags, watches and barriers laid out (R190 to R211, R267 to R290). -/
def encMem : Instr → Option FW
  | .ld h z hi m d a => some (fX h 0x70 (z.bits ++ (hi.bits ++ 0#1)) d.toByte a.toByte 0 m.toX)
  | .st h z hi m a b => some (fX h 0x71 (z.bits ++ (hi.bits ++ 0#1)) 0 a.toByte b.toByte m.toX)
  | .atom h op m d a b => some (fX h 0x72 op.toMod d.toByte a.toByte b.toByte m.toX)
  | .red h op m a b => some (fX h 0x73 op.toMod 0 a.toByte b.toByte m.toX)
  | .lrs h w m d a => some (fX h 0x74 (2#2 ++ (BitVec.ofBool w ++ 0#3)) d.toByte a.toByte 0 m.toX)
  | .scs h w m d a b => some (fX h 0x75 (2#2 ++ (BitVec.ofBool w ++ 0#3)) d.toByte a.toByte b.toByte m.toX)
  | .cpf h .l1 off a => some (fX h 0x76 0 0 a.toByte 0 (xM off))
  | .cpf h .dc off a => some (fX h 0x76 (1#3 ++ 0#3) 0 a.toByte 0 (xM off))
  | .cpf h .ms off a => some (fX h 0x76 (2#3 ++ 0#3) 0 a.toByte 0 (xM off))
  | .cpf h .dcw off a => some (fX h 0x76 (3#3 ++ 0#3) 0 a.toByte 0 (xM off))
  | .cwb h off a => some (fX h 0x77 0 0 a.toByte 0 (xM off))
  | .cinv h dc off a => some (fX h 0x78 (0#2 ++ (BitVec.ofBool dc ++ 0#3)) 0 a.toByte 0 (xM off))
  | .pld h z off d a => some (fX h 0x90 (z.bits ++ 0#3) d.toByte a.toByte 0 (xM off))
  | .pst h z off a b => some (fX h 0x91 (z.bits ++ 0#3) 0 a.toByte b.toByte (xM off))
  | .patom h op off d a b => some (fX h 0x92 op.toMod d.toByte a.toByte b.toByte (xM off))
  | .ald h w off d a => some (fX h 0x93 (2#2 ++ (BitVec.ofBool w ++ 0#3)) d.toByte a.toByte 0 (xM off))
  | .ast h w off a b => some (fX h 0x94 (2#2 ++ (BitVec.ofBool w ++ 0#3)) 0 a.toByte b.toByte (xM off))
  | .cpy h a => some (fX h 0x95 0 0 a.toByte 0 0)
  | .twany h d m => some (encT h 0x96 d.toByte m)
  | .twall h m => some (encT h 0x97 0 m)
  | .tfirst h d m => some (encT h 0x98 d.toByte m)
  | .tclr h m => some (encT h 0x99 0 m)
  | .watch h .global sl a => some (fX h 0x9A (0#2 ++ (BitVec.ofBool sl ++ 0#3)) 0 a.toByte 0 0)
  | .watch h .pad sl a => some (fX h 0x9A (1#2 ++ (BitVec.ofBool sl ++ 0#3)) 0 a.toByte 0 0)
  | .watch h .off sl a => some (fX h 0x9A (2#2 ++ (BitVec.ofBool sl ++ 0#3)) 0 a.toByte 0 0)
  | .wait h d (.reg a) => some (fX h 0x9B 0 d.toByte a.toByte 0 0)
  | .wait h d (.imm v) => some (fX h 0x9B 1 d.toByte 0 0 v)
  | .bar s n => some (fX (Hdr.always s) 0x9C 1 0 0 0 (0#16 ++ n))
  | .parr h d a b => some (encB h 0x9D d.toByte a.toByte b)
  | .pwait h d a b => some (encB h 0x9E d.toByte a.toByte b)
  | _ => none

/-- The other units and the system words laid out (R247 to R460). -/
def encSys : Instr → Option FW
  | .menq h d a => some (fX h 0xA0 0 d.toByte a.toByte 0 0)
  | .mstat h d k => some (fX h 0xA1 1 d.toByte 0 0 (BitVec.ofNat 20 k.val))
  | .send h d a b => some (fX h 0xB0 0 d.toByte a.toByte b.toByte 0)
  | .mbadv h mb d (.reg b) => some (fX h 0xB1 (mb ++ 0#2) d.toByte 0 b.toByte 0)
  | .mbadv h mb d (.imm v) => some (fX h 0xB1 (mb ++ 1#2) d.toByte 0 0 v)
  | .coll h a => some (fX h 0xB2 0 0 a.toByte 0 0)
  | .tspawn h a => some (fX h 0xC0 0 0 a.toByte 0 0)
  | .tnext h d => some (fX h 0xC1 0 d.toByte 0 0 0)
  | .tdone h d b => some (encB h 0xC2 d.toByte 0 b)
  | .qput h d a st => some (fX h 0xC3 1 d.toByte a.toByte 0 (0#17 ++ st))
  | .qget h d => some (fX h 0xC4 0 d.toByte 0 0 0)
  | .arm h a => some (fX h 0xC5 0 0 a.toByte 0 0)
  | .launch h a => some (fX h 0xC6 0 0 a.toByte 0 0)
  | .tex h arr d a b => some (fX h 0xD0 (0#1 ++ (BitVec.ofBool arr ++ 0#4)) d.toByte a.toByte b.toByte 0)
  | .texf h arr d a b c => some (fX h 0xD1 (0#1 ++ (BitVec.ofBool arr ++ 0#4)) d.toByte a.toByte b.toByte (c.toByte ++ 0#12))
  | .texg h arr ch d a b c =>
    some (fX h 0xD2 (0#1 ++ (BitVec.ofBool arr ++ (BitVec.ofNat 2 ch.val ++ 0#2))) d.toByte a.toByte b.toByte (c.toByte ++ 0#12))
  | .texl h arr d a b c => some (fX h 0xD3 (0#1 ++ (BitVec.ofBool arr ++ 0#4)) d.toByte a.toByte b.toByte (c.toByte ++ 0#12))
  | .mout h a => some (fX h 0xD4 0 0 a.toByte 0 0)
  | .mfinMesh h d a => some (fX h 0xD5 0 d.toByte a.toByte 0 0)
  | .mfinTask h d a => some (fX h 0xD5 0x10 d.toByte a.toByte 0 0)
  | .pxo h n a => some (fX h 0xD6 (BitVec.ofNat 3 n.val ++ 0#3) 0 a.toByte 0 0)
  | .pkill h => some (fX h 0xD7 0 0 0 0 0)
  | .rbox h d a b => some (fX h 0xE0 0 d.toByte a.toByte b.toByte 0)
  | .rtri h d a b => some (fX h 0xE1 0 d.toByte a.toByte b.toByte 0)
  | .rtriW h d a b c => some (fX h 0xE1 1 d.toByte a.toByte b.toByte (c.toByte ++ 0#12))
  | .bmbox h d a b => some (fX h 0xE2 0 d.toByte a.toByte b.toByte 0)
  | .bmtri h d a b => some (fX h 0xE3 0 d.toByte a.toByte b.toByte 0)
  | .bmsplit h d a b => some (fX h 0xE4 0 d.toByte a.toByte b.toByte 0)
  | .kpush h a => some (fX h 0xE5 0 0 a.toByte 0 0)
  | .kpop h d => some (fX h 0xE6 0 d.toByte 0 0 0)
  | .fence h .acq obs => some (fX h 0xE8 (1#2 ++ 0#4) 0 0 0 (0#2 ++ (obs ++ 0#12)))
  | .fence h .rel obs => some (fX h 0xE8 (2#2 ++ 0#4) 0 0 0 (0#2 ++ (obs ++ 0#12)))
  | .fence h .ar obs => some (fX h 0xE8 (3#2 ++ 0#4) 0 0 0 (0#2 ++ (obs ++ 0#12)))
  | .trap h v => some (fX h 0xF0 1 0 0 0 (0#4 ++ v))
  | .sret h act => some (fX h 0xF1 1 0 0 0 (BitVec.ofNat 20 act.val))
  | .mfc h d idx => some (fX h 0xF2 1 d.toByte 0 0 (0#8 ++ idx))
  | .mtc h idx a => some (fX h 0xF3 1 0 a.toByte 0 (0#8 ++ idx))
  | .fpcWrite h a => some (fX h 0xF3 1 0 a.toByte 0 0x001)
  | .mqbWrite h a => some (fX h 0xF3 1 0 a.toByte 0 0x010)
  | .cyc h d => some (fX h 0xF4 1 d.toByte 0 0 0)
  | .halt h a => some (fX h 0xF5 0 0 a.toByte 0 0)
  | .iflush h sc => some (fX h 0xF6 1 0 0 0 (0#19 ++ BitVec.ofBool sc))
  | _ => none

/-- The fields of a full-form instruction; a pair and an event have none. -/
def encodeFields (i : Instr) : Option FW :=
  encInt i <|> encFp i <|> encCtl i <|> encMem i <|> encSys i

/-- The word of a well-formed instruction; an event has none. -/
def encode : Instr → Option DWord
  | .pairWord s sa sb => some ((BitVec.ofBool s ++ (1#1 ++ (sa.toBits ++ sb.toBits))).cast rfl)
  | i => (encodeFields i).map FW.toWord

/-- The instruction that the decoder reads from a word numbered as the opcode table numbers it: one little-endian
64-bit word, the bits above `nbits` zero. -/
def decodeTableWord (nbits w : Nat) : Option Instr :=
  match decode (BitVec.ofNat 64 (w % 2 ^ nbits)) with
  | .ok i => some i
  | .error _ => none

end Sys2Proof
end

