-- ==== Sys2Proof/Config.lean ====
section
/-! DEFINITION. The free values: constants without a body, for what the spec leaves open or takes from documents it does not
hold. Nothing can be proved of their values. -/

set_option Elab.async false

namespace Sys2Proof

/-- A fresh free value (log 6); the argument is the counter `State.free` at its use. -/
opaque Config.freeWord : Nat → DWord

/-- A fresh free choice between two outcomes that the spec allows (log 6). -/
opaque Config.freeBool : Nat → Bool

/-- Whether a package number belongs to the load-store domain of the package (R318, R319), log 47. -/
opaque Config.inDomain : Nat → Bool

/-- Whether an Ed448 signature over a digest verifies under the Tirser release key (R465), log 7: digest, signature. -/
opaque Config.ed448Valid : List Byte → List Byte → Bool

/-- The version in the header of a firmware image (R465), log 7. -/
opaque Config.imageVersion : List Byte → Word

/-- The certificate chain that an identity's public key stands in (R467), log 7. -/
opaque Config.certChain : List Byte → List Byte

/-- The Ed448 signature of a message under a private key (R467), log 7: key, message. -/
opaque Config.ed448Sign : List Byte → List Byte → List Byte

end Sys2Proof
end

