-- ==== Sys2Proof/Machine/Num.lean ====
section
/-! DEFINITION. The number formats and their exact rounding (chapter 04): every result is computed exactly as a fraction
and rounded once. -/

set_option Elab.async false

namespace Sys2Proof

/-- The five floating-point exceptions (R110, R111). -/
structure Fl where
  nv : Bool := false
  dz : Bool := false
  ovf : Bool := false
  uf : Bool := false
  nx : Bool := false
deriving DecidableEq, Repr

/-- No exception. -/
def Fl.none : Fl := {}

/-- The exceptions of two results together. -/
def Fl.or (a b : Fl) : Fl := ⟨a.nv || b.nv, a.dz || b.dz, a.ovf || b.ovf, a.uf || b.uf, a.nx || b.nx⟩

/-- Overflow sets OF and NX (R103). -/
def Fl.over : Fl := { ovf := true, nx := true }

/-- NV alone. -/
def Fl.inv (b : Bool) : Fl := { nv := b }

/-- Rounding modes (R102). -/
inductive RMode where
  | rne | rtz | rup | rdn | sr
deriving DecidableEq, Repr

/-- The mode of a two-bit field (R66, R110). -/
def RMode.ofBits (b : BitVec 2) : RMode :=
  match b.toNat with
  | 0 => .rne
  | 1 => .rtz
  | 2 => .rup
  | _ => .rdn

/-- The floating-point formats (R94). -/
inductive FF where
  | f64 | f32 | f16 | bf16 | e5m2 | e4m3 | d8
deriving DecidableEq, Repr

/-- Exponent width (R95). -/
def FF.ew : FF → Nat
  | .f64 => 11
  | .f32 => 8
  | .f16 => 5
  | .bf16 => 8
  | .e5m2 => 5
  | .e4m3 => 4
  | .d8 => 0

/-- Fraction width (R95). -/
def FF.fw : FF → Nat
  | .f64 => 52
  | .f32 => 23
  | .f16 => 10
  | .bf16 => 7
  | .e5m2 => 2
  | .e4m3 => 3
  | .d8 => 7

/-- Exponent bias (R95). -/
def FF.bias : FF → Nat
  | .f64 => 1023
  | .f32 => 127
  | .f16 => 15
  | .bf16 => 127
  | .e5m2 => 15
  | .e4m3 => 7
  | .d8 => 0

/-- The sign bit stands at `2 ^ (ew + fw)`; in D8 it is bit 7. -/
def FF.signPos (f : FF) : Nat := f.ew + f.fw

/-- Bits of an encoding. -/
def FF.bits (f : FF) : Nat := f.signPos + 1

/-- The canonical NaN (R95, R99). -/
def FF.nan : FF → Nat
  | .f64 => 0x7FF8000000000000
  | .f32 => 0x7FC00000
  | .f16 => 0x7E00
  | .bf16 => 0x7FC0
  | .e5m2 => 0x7E
  | .e4m3 => 0x7F
  | .d8 => 0x80

/-- Whether the format has infinities. -/
def FF.hasInf : FF → Bool
  | .e4m3 => false
  | .d8 => false
  | _ => true

/-- The magnitude code of the largest finite value M. -/
def FF.maxCode : FF → Nat
  | .e4m3 => 0x7E
  | .d8 => 0x7F
  | f => (2 ^ f.ew - 1) * 2 ^ f.fw - 1

/-- The magnitude code of infinity. -/
def FF.infCode (f : FF) : Nat := (2 ^ f.ew - 1) * 2 ^ f.fw

/-- The magnitude code of the smallest normal value N (R104): 2^-12 for D8. -/
def FF.minNormCode : FF → Nat
  | .d8 => 1
  | f => 2 ^ f.fw

/-- The length of the run of bits equal to `r` in `c` from bit `k - 1` down. -/
def runLen (r : Bool) (c : Nat) : Nat → Nat
  | 0 => 0
  | k + 1 => if c.testBit k = r then runLen r c k + 1 else 0

/-- The magnitude of a D8 code in units of 2^-16 (R99). -/
def d8Mag (c : Nat) : Nat :=
  if c = 0 then 0
  else
    let r := c.testBit 6
    let n := runLen r c 7
    let t := 6 - n
    let tail := c % 2 ^ t
    let e := if t = 0 then 0 else tail / 2 ^ (t - 1)
    let fb := t - 1
    let f := tail % 2 ^ fb
    let up := if r then 2 * (n - 1) + e + 16 else 16 + e - 2 * n
    (2 ^ fb + f) * 2 ^ up / 2 ^ fb

/-- The denominator of a format's magnitudes: all are multiples of its inverse. -/
def FF.unit : FF → Nat
  | .d8 => 2 ^ 16
  | f => 2 ^ (f.bias - 1 + f.fw)

/-- The magnitude of a code, in `f.unit`ths (R95, R99). -/
def FF.mag (f : FF) (c : Nat) : Nat :=
  match f with
  | .d8 => d8Mag c
  | _ =>
    let e := c / 2 ^ f.fw
    let m := c % 2 ^ f.fw
    if e = 0 then m else (2 ^ f.fw + m) * 2 ^ (e - 1)

/-- A value read from a format: NaN (signalling or not), an infinity, or a signed fraction. -/
inductive Num where
  | nan (snan : Bool)
  | inf (neg : Bool)
  | fin (neg : Bool) (n d : Nat)
deriving DecidableEq, Repr

/-- Positive zero. -/
def Num.zero : Num := .fin false 0 1

/-- Decode an encoding (R95, R99). -/
def FF.read (f : FF) (b : Nat) : Num :=
  let neg := b.testBit f.signPos
  let c := b % 2 ^ f.signPos
  match f with
  | .d8 => if c = 0 then (if neg then .nan false else .fin false 0 1) else .fin neg (d8Mag c) f.unit
  | .e4m3 => if c = 0x7F then .nan false else .fin neg (f.mag c) f.unit
  | .e5m2 =>
    if c / 4 = 31 then (if c % 4 = 0 then .inf neg else .nan false) else .fin neg (f.mag c) f.unit
  | _ =>
    if c / 2 ^ f.fw = 2 ^ f.ew - 1 then
      let m := c % 2 ^ f.fw
      if m = 0 then .inf neg else .nan (!m.testBit (f.fw - 1))
    else .fin neg (f.mag c) f.unit

/-- An encoding from its sign and magnitude code; D8 has no negative zero. -/
def FF.enc (f : FF) (neg : Bool) (c : Nat) : Nat :=
  if neg && !(f = .d8 && c = 0) then 2 ^ f.signPos + c else c

/-- The largest D8 code at most `c` whose magnitude is at most `n / d`. -/
def d8Locate (n d : Nat) : Nat → Nat
  | 0 => 0
  | c + 1 => if d8Mag (c + 1) * d ≤ n * 2 ^ 16 then c + 1 else d8Locate n d c

/-- The magnitude code a with a ≤ n/d < b for its successor b, and φ = (n/d - a) / (b - a) as a fraction (R102, R107). -/
def FF.locate (f : FF) (n d : Nat) : Nat × Nat × Nat :=
  match f with
  | .d8 =>
    let c := d8Locate n d 0x7F
    let a := d8Mag c
    (c, n * 2 ^ 16 - a * d, (d8Mag (c + 1) - a) * d)
  | _ =>
    let u := n * f.unit / d
    let sh := u.log2 - f.fw
    let q := u / 2 ^ sh
    (sh * 2 ^ f.fw + q, n * f.unit - q * 2 ^ sh * d, 2 ^ sh * d)

/-- Whether the mode chooses the greater magnitude of the two neighbours (R102, R107). -/
def roundsUp (mode : RMode) (rw : Nat) (neg : Bool) (c pn pd : Nat) : Bool :=
  match mode with
  | .rne => 0 < pn && (pd < 2 * pn || (pd = 2 * pn && c % 2 = 1))
  | .rtz => false
  | .rup => !neg && 0 < pn
  | .rdn => neg && 0 < pn
  | .sr => 0 < pn && 2 ^ 16 ≤ pn * 2 ^ 16 / pd + rw

/-- A finite value above M (R103). -/
def FF.overflow (f : FF) (mode : RMode) (sat neg : Bool) : Nat × Fl :=
  let toM := sat || !f.hasInf || (match mode with
    | .rtz => true
    | .rup => neg
    | .rdn => !neg
    | _ => false)
  (f.enc neg (if toM then f.maxCode else f.infCode), Fl.over)

/-- Round an exact signed fraction once (R102 to R104, R107). -/
def FF.rnd (f : FF) (mode : RMode) (sat : Bool) (rw : Nat) (neg : Bool) (n d : Nat) : Nat × Fl :=
  if n = 0 then (f.enc neg 0, Fl.none)
  else if f.mag f.maxCode * d < n * f.unit then f.overflow mode sat neg
  else
    let (c, pn, pd) := f.locate n d
    let up := roundsUp mode rw neg c pn pd
    let inexact := 0 < pn
    let tiny := n * f.unit < f.mag f.minNormCode * d
    (f.enc neg (if up then c + 1 else c), { uf := inexact && tiny, nx := inexact })

/-- Any value into a format: NaN canonical, infinities by SAT and by the format (R103, R105, R109). -/
def FF.ofNum (f : FF) (mode : RMode) (sat : Bool) (rw : Nat) : Num → Nat × Fl
  | .nan s => (f.nan, Fl.inv s)
  | .inf neg =>
    if sat || !f.hasInf then (f.enc neg f.maxCode, Fl.over) else (f.enc neg f.infCode, Fl.none)
  | .fin neg n d => f.rnd mode sat rw neg n d

/-! ## Exact operations -/

/-- Negation. -/
def Num.neg : Num → Num
  | .nan s => .nan s
  | .inf g => .inf (!g)
  | .fin g n d => .fin (!g) n d

/-- Absolute value. -/
def Num.abs : Num → Num
  | .nan s => .nan s
  | .inf _ => .inf false
  | .fin _ n d => .fin false n d

/-- The source modifiers of R66: with both set, the source reads -|x|. -/
def Num.modified (na aa : Bool) (x : Num) : Num :=
  let y := if aa then x.abs else x
  if na then y.neg else y

/-- A NaN. -/
def Num.isNan : Num → Bool
  | .nan _ => true
  | _ => false

/-- A signalling NaN. -/
def Num.isSnan : Num → Bool
  | .nan s => s
  | _ => false

/-- An infinity. -/
def Num.isInf : Num → Bool
  | .inf _ => true
  | _ => false

/-- Whether a value is finite. -/
def Num.finite : Num → Bool
  | .fin _ _ _ => true
  | _ => false

/-- A zero. -/
def Num.isZero : Num → Bool
  | .fin _ n _ => n = 0
  | _ => false

/-- The sign bit. -/
def Num.isNeg : Num → Bool
  | .nan _ => false
  | .inf g => g
  | .fin g _ _ => g

/-- The signed numerator. -/
def sgn (neg : Bool) (n : Nat) : Int := if neg then -(n : Int) else n

/-- A value with the signed numerator `i` over `d`; a zero is positive. -/
def Num.ofInt (i : Int) (d : Nat) : Num := .fin (i < 0) i.natAbs d

/-- The exact sum of two finite values as a signed numerator over a denominator. -/
def addFrac (g1 : Bool) (n1 d1 : Nat) (g2 : Bool) (n2 d2 : Nat) : Int × Nat :=
  if d1 = d2 then (sgn g1 n1 + sgn g2 n2, d1) else (sgn g1 n1 * d2 + sgn g2 n2 * d1, d1 * d2)

/-- a + b exactly, and whether it is invalid (R105, R133). An exact zero sum is +0, or -0 under rdn; -0 + -0 keeps its
sign. `same` keeps the sign of two zeros of one sign whatever it is, as a fused sum does. -/
def Num.add (rdn same : Bool) (a b : Num) : Num × Bool :=
  match a, b with
  | .nan s, y => (.nan false, s || y.isSnan)
  | _, .nan s => (.nan false, s)
  | .inf g, .inf g' => if g = g' then (.inf g, false) else (.nan false, true)
  | .inf g, _ => (.inf g, false)
  | _, .inf g => (.inf g, false)
  | .fin g1 n1 d1, .fin g2 n2 d2 =>
    let (i, d) := addFrac g1 n1 d1 g2 n2 d2
    if i = 0 then
      if n1 = 0 && n2 = 0 && g1 = g2 && (same || g1) then (.fin g1 0 1, false) else (.fin rdn 0 1, false)
    else (.ofInt i d, false)

/-- a × b exactly, and whether it is invalid. -/
def Num.mul (a b : Num) : Num × Bool :=
  match a, b with
  | .nan s, y => (.nan false, s || y.isSnan)
  | _, .nan s => (.nan false, s)
  | .inf g, y => if y.isZero then (.nan false, true) else (.inf (g != y.isNeg), false)
  | x, .inf g => if x.isZero then (.nan false, true) else (.inf (x.isNeg != g), false)
  | .fin g1 n1 d1, .fin g2 n2 d2 => (.fin (g1 != g2) (n1 * n2) (d1 * d2), false)

/-- a × b + c exactly, and whether it is invalid; 0 × ∞ is invalid whatever c is (R105). -/
def Num.fma (rdn : Bool) (a b c : Num) : Num × Bool :=
  let (p, i) := a.mul b
  let (v, j) := p.add rdn true c
  (v, i || j)

/-- a / b exactly, whether it is invalid, and whether it divides by zero (R133). -/
def Num.div (a b : Num) : Num × Bool × Bool :=
  match a, b with
  | .nan s, y => (.nan false, s || y.isSnan, false)
  | _, .nan s => (.nan false, s, false)
  | .inf _, .inf _ => (.nan false, true, false)
  | .inf g, y => (.inf (g != y.isNeg), false, false)
  | x, .inf g => (.fin (x.isNeg != g) 0 1, false, false)
  | .fin g1 n1 d1, .fin g2 n2 d2 =>
    if n2 = 0 then (if n1 = 0 then (.nan false, true, false) else (.inf (g1 != g2), false, true))
    else (.fin (g1 != g2) (n1 * d2) (d1 * n2), false, false)

/-- Newton steps towards the integer square root, from above. -/
def isqrtGo (n : Nat) : Nat → Nat → Nat
  | 0, x => x
  | k + 1, x =>
    let y := (x + n / x) / 2
    if y < x then isqrtGo n k y else x

/-- The integer square root: floor of the square root of n. -/
def isqrt (n : Nat) : Nat := if n = 0 then 0 else isqrtGo n (n.log2 + 2) (2 ^ (n.log2 / 2 + 1))

/-- The square root of n / d as a fraction that rounds as the root does: the root itself where it is a multiple of
1 / (d · 2^k), else the point halfway between the two multiples around it. Every boundary a rounding compares with is such
a multiple for k = 800. -/
def sqrtFrac (n d : Nat) : Nat × Nat :=
  let t := n * d * 4 ^ 800
  let r := isqrt t
  (2 * r + (if r * r = t then 0 else 1), 2 * d * 2 ^ 800)

/-- The square root, and whether it is invalid; the root of -0 is -0 (R133). -/
def Num.sqrt : Num → Num × Bool
  | .nan s => (.nan false, s)
  | .inf g => if g then (.nan false, true) else (.inf false, false)
  | .fin g n d =>
    if n = 0 then (.fin g 0 1, false)
    else if g then (.nan false, true)
    else
      let (r, q) := sqrtFrac n d
      (.fin false r q, false)

/-- Order on values that are not NaN; zeros of both signs are equal. -/
def Num.lt (a b : Num) : Bool :=
  match a, b with
  | .nan _, _ => false
  | _, .nan _ => false
  | .inf g, .inf g' => g && !g'
  | .inf g, _ => g
  | _, .inf g => !g
  | .fin g1 n1 d1, .fin g2 n2 d2 => sgn g1 n1 * d2 < sgn g2 n2 * d1

/-- Equality on values that are not NaN. -/
def Num.eq (a b : Num) : Bool := !a.isNan && !b.isNan && !a.lt b && !b.lt a

/-- The lesser, -0 below +0, of two values that are not NaN (R134). -/
def Num.lesser (a b : Num) : Num :=
  if a.lt b then a else if b.lt a then b else if a.isNeg then a else b

/-- The greater of two values that are not NaN. -/
def Num.greater (a b : Num) : Num :=
  if a.lt b then b else if b.lt a then a else if a.isNeg then b else a

/-- fmin or fmax with its NaN rules (R134). -/
def Num.pick (great : Bool) (a b : Num) : Num × Bool :=
  let nv := a.isSnan || b.isSnan
  match a, b with
  | .nan _, .nan _ => (.nan false, nv)
  | .nan _, y => (y, nv)
  | x, .nan _ => (x, nv)
  | x, y => (if great then x.greater y else x.lesser y, nv)

/-- A value rounded to an integral value by the mode (R102), its magnitude, and whether it changed. -/
def roundInt (mode : RMode) (rw : Nat) (neg : Bool) (n d : Nat) : Nat × Bool :=
  let a := n / d
  let p := n % d
  (if roundsUp mode rw neg a p d then a + 1 else a, 0 < p)

/-- A value into an integer range, with its flags (R108, R109). -/
def Num.toInt (mode : RMode) (rw : Nat) (lo hi : Int) : Num → Int × Fl
  | .nan _ => (0, Fl.inv true)
  | .inf g => (if g then lo else hi, Fl.inv true)
  | .fin g n d =>
    let (m, ch) := roundInt mode rw g n d
    let i := sgn g m
    if i < lo then (lo, Fl.inv true) else if hi < i then (hi, Fl.inv true) else (i, { nx := ch })

/-! ## Stochastic state -/

/-- One step of a random state; a zero state is replaced first (R106). -/
def srStep (s : BitVec 32) : BitVec 32 :=
  let x := if s = 0 then 0x9E3779B9#32 else s
  let x := x ^^^ (x <<< 13)
  let x := x ^^^ (x >>> 17)
  x ^^^ (x <<< 5)

/-- The bits that a rounding compares with (R106). -/
def srBits (s : BitVec 32) : Nat := s.toNat / 2 ^ 16

/-! ## The 56-bit window -/

/-- floor(log2(n / d)) for n > 0. -/
def floorLog2 (n d : Nat) : Int :=
  let k := (n.log2 : Int) - d.log2
  let ge := if 0 ≤ k then d * 2 ^ k.toNat ≤ n else d ≤ n * 2 ^ (-k).toNat
  if ge then k else k - 1

/-- floor((n / d) / 2^e). -/
def floorScale (n d : Nat) (e : Int) : Nat :=
  if 0 ≤ e then n / (d * 2 ^ e.toNat) else n * 2 ^ (-e).toNat / d

/-- i · 2^e as a value. -/
def Num.scaled (i : Int) (e : Int) : Num :=
  if 0 ≤ e then .ofInt (i * 2 ^ e.toNat) 1 else .ofInt i (2 ^ (-e).toNat)

/-- The greatest floor(log2) of the non-zero terms, if there are any. -/
def maxLog2 : List Num → Option Int
  | [] => none
  | .fin _ n d :: t =>
    if n = 0 then maxLog2 t
    else
      let k := floorLog2 n d
      match maxLog2 t with
      | none => some k
      | some m => some (if k < m then m else k)
  | _ :: t => maxLog2 t

/-- The signed sum of the terms' magnitudes in units of 2^e, each dropped toward zero. -/
def windowSum (e : Int) : List Num → Int
  | [] => 0
  | .fin g n d :: t => sgn g (floorScale n d e) + windowSum e t
  | _ :: t => windowSum e t

/-- window56 (R113): the sum and whether it saturated. -/
def window56 (ts : List Num) : Num × Bool :=
  if ts.any Num.isNan || (ts.any (fun t => t.isInf && t.isNeg) && ts.any (fun t => t.isInf && !t.isNeg)) then (.nan false, false)
  else if ts.any Num.isInf then (.inf (ts.any (fun t => t.isInf && t.isNeg)), false)
  else match maxLog2 ts with
    | none => (.zero, false)
    | some emax =>
      let q := emax - 48
      let s := windowSum q ts
      if 2 ^ 55 - 1 < s then (.scaled (2 ^ 55 - 1) q, true)
      else if s < -2 ^ 55 then (.scaled (-2 ^ 55) q, true)
      else (.scaled s q, false)

/-- The total of an accumulator and a window's value: a zero total takes the accumulator's sign when the value is zero,
and is +0 otherwise (R113). -/
def windowTotal (acc v : Num) : Num :=
  if v.isZero && acc.isZero then .fin acc.isNeg 0 1
  else (acc.add false false v).1

end Sys2Proof
end

