-- ==== Sys2Proof/Machine/State.lean ====
section
/-! DEFINITION. The machine's state as plain data, its faults and refusals, and the state after reset. -/

set_option Elab.async false

namespace Sys2Proof.Machine

open Sys2Proof

/-- Memory: addresses strictly rising, no entry equal to 0, which every unlisted address reads as (log 2). -/
abbrev Mem := List Host.Cell

/-! ## Threads and squads -/

/-- A reservation (R289): the line, the address and the size, whether it belongs to a constrained sequence and the clock
at which its protection began (R291). -/
structure Resv where
  line : Nat
  va : DWord
  z : Nat
  prot : Option Nat
deriving DecidableEq, Repr

/-- A held lane (R171): its next PC, the LIVE recorded, the clock and the order in which it was held, the barrier it has
arrived at, and the counters of the loops whose bodies it has left, for whose end it waits (R176). -/
structure Held where
  pc : DWord
  live : Nat
  since : Nat
  seq : Nat
  bar : Option Nat
  left : List Nat
deriving DecidableEq, Repr

/-- Where a present thread stands in its squad: in the issuing group, held, or waiting at the end of the body of the loop
of a counter (R175). -/
inductive LaneAt where
  | issue
  | held (h : Held)
  | atEnd (ctr : Nat)
deriving DecidableEq, Repr

/-- The output of a pixel thread to one target (R392). -/
structure Pxo where
  n : Nat
  vals : List Word
deriving DecidableEq, Repr

/-- A thread in its lane (R37). -/
structure Lane where
  tid : Nat
  v : Tab Word
  p : BitVec 7
  rnd : Word
  rstack : List DWord
  resv : Option Resv
  helper : Bool
  at' : LaneAt
  root : Option Nat
  pxo : List Pxo
deriving DecidableEq, Repr

/-- A hardware loop of a squad (R174). -/
structure Loop where
  first : DWord
  len : Nat
  ctr : Nat
  entered : List Nat
deriving DecidableEq, Repr

/-- What a watch slot is armed on: a line of pad, of device memory, of host memory or of another package's memory. -/
inductive WTgt where
  | pad (line : Nat)
  | dev (line : Nat)
  | host (line : Nat)
  | ext (line : Nat)
deriving DecidableEq, Repr

/-- A watch slot (R205). -/
structure Watch where
  armed : Bool
  hit : Bool
  tgt : WTgt
  /-- The virtual address, or the pad offset, it was armed with. -/
  va : DWord
deriving DecidableEq, Repr

/-- A translated place: device memory by package physical address, the own management page by offset, host memory, or domain
memory (R319); the latter two with HRO of their leaf. -/
inductive Place where
  | dev (pa : Nat)
  | mgmt (off : Nat)
  | host (a : Nat) (hro : Bool)
  | ext (a : Nat) (hro : Bool)
deriving DecidableEq, Repr

/-- How a loaded value fills its register. -/
inductive Fill where
  | zero
  | sign
deriving DecidableEq, Repr

/-- One read of a load: the lane it serves (64 for the scalar file) and the lane that acts, the first register, the place, the size,
how it fills its register, and for an lrs the reservation it makes: its address and whether its sequence is constrained. -/
structure RdReq where
  lane : Nat
  own : Nat
  reg : Nat
  place : Place
  size : Nat
  fill : Fill
  resv : Option (DWord × Bool)
deriving DecidableEq, Repr

/-- The floating-point control register of a block (R110 to R112): its value, the flags that words still to complete owe it, each
with the clock of its completion, and the writes of one clock, each with its clock and issue slot. -/
structure Fpc where
  val : Word
  due : List (Nat × Word)
  wr : List (Nat × Nat × Word)
deriving DecidableEq, Repr

/-- A variable-latency result in flight (R77): the PC of its word, the registers it occupies (true: scalar), the reads still to be performed, the
values known (lane, register, word), whether every value is fixed, whether an entry of the store queue supplies it, whether
it is an acquire, the observers it names, whether it fills no L1 line, the flags it sets at its return, and whether it has
returned. An acquire fence stands among the loads as one that reads nothing. -/
structure Flight where
  id : Nat
  pc : DWord
  dst : List (Bool × Nat)
  reads : List RdReq
  vals : List (Nat × Nat × Word)
  perf : Bool
  byQueue : Bool
  acq : Bool
  obs : BitVec 6
  noFill : Bool
  fl : Fl
  ret : Bool
deriving DecidableEq, Repr

/-- One lane's part of an atomic, red, scs or merge: the lane (64 for the scalar file) and the lane that acts, the result's register,
the place, the address, the operand, the compare, further words, and whether it runs at its line's home (R281). -/
structure AtLane where
  lane : Nat
  own : Nat
  reg : Nat
  place : Place
  va : DWord
  b : DWord
  cmp : DWord
  more : List Word
  far : Bool
deriving DecidableEq, Repr

/-- What an entry of the store queue does at the head (R282, R295). -/
inductive SqOp where
  | store (place : Place) (bytes : List Byte)
  | atomic (op : AtomOp) (lanes : List AtLane)
  | scs (wide : Bool) (lanes : List AtLane)
  | merge (lanes : List AtLane)
  | cwb (place : Place)
  | cinv (place : Place) (dc : Bool)
  | fence (ar : Bool)
deriving DecidableEq, Repr

/-- An entry of a squad's store queue: its order number, the PC of its word, its effect, its release mask if it releases, its acquire mask if
it acquires, the order number of the result in flight it supplies, for a release at the head the order number that its waits
cover, whether the far operation of its next line has been sent, and whether its lanes have begun to act, their lines checked. -/
structure SqEnt where
  id : Nat
  pc : DWord
  op : SqOp
  rel : Option (BitVec 6)
  acq : Option (BitVec 6)
  flight : Option Nat
  mark : Option Nat
  sent : Bool
  checked : Bool
deriving DecidableEq, Repr

/-- Why a squad does not issue (R157). -/
inductive Park where
  | none
  /-- At a switch marker (R77), or at bmsplit. -/
  | marker
  /-- In wait: the word's guard and destination, the clock of the timeout, and whether the block stopped and resumed
  meanwhile (R207). -/
  | wait (h : Hdr) (d : Opnd) (deadline : Option Nat) (stopped : Bool)
  /-- In pwait (R211). -/
  | pwait
  /-- In twany or twall (R204). -/
  | tags
  /-- Reloading after a draw (R169). -/
  | reload
  /-- In a system call, with the RSEQ of its record, or none while the record waits for ring room (R452). -/
  | call (rseq : Option Nat)
  /-- Its word names a register that a qget has not written yet (R364). -/
  | answer
  /-- It holds its issue slot on a word that has not taken effect (R157), which may hold a credit of the mesh already (R330). -/
  | slot (credit : Bool)
deriving DecidableEq, Repr

/-- A qget that waits for its item (R364, R367): its order, its first register and the stage. -/
structure Ask where
  order : Nat
  reg : Nat
  stage : Nat
deriving DecidableEq, Repr

/-- The squad registers of a halt (R438 to R441), whether the squad has stopped with its own cause, the failing virtual
address, what a squad in supervisor mode goes back to (its user PC, park, lanes and loops), the record that its supervisor
entry answers (R445, R451), whether it issues nothing in the skid (R435), and the PC of the word that raised its cause (R449). -/
structure HaltRegs where
  cause : Word
  epc : DWord
  flane : Word
  skid : Word
  lanes : Tab Nat
  stopped : Bool
  va : DWord
  upc : DWord
  park : Park
  ats : Tab LaneAt
  loops : List Loop
  reply : Option Nat
  mute : Bool
  wpc : DWord
deriving DecidableEq, Repr

/-- A resident squad in its slot. -/
structure Squad where
  role : Nat
  pc : DWord
  lanes : Tab Lane
  sca : Tab Word
  lc : Tab Word
  loops : List Loop
  w0 : Watch
  w1 : Watch
  flight : List Flight
  sq : List SqEnt
  park : Park
  agedDraw : Bool
  /-- The LIVE of the taken branch or reform that the squad has just executed, and whether it was a branch (R58, R172). -/
  point : Option (Nat × Bool)
  reload : List (Nat × Nat)
  asks : List Ask
  since : Nat
  /-- The clock in which it last became ready, or none if it was not ready when the clock last advanced (R357). -/
  ready : Option Nat
  issued : Nat
  hr : HaltRegs
  sup : Bool
  step : Bool
  /-- A word has been issued under STEP, and its halt is due (R459). -/
  stepped : Bool
  dbg : DWord
  wp0 : DWord
  wp1 : DWord
deriving DecidableEq, Repr

/-! ## Blocks and cores -/

/-- A role of a kernel: launched squads, register budget, slack (R44). -/
structure Role where
  squads : Nat
  budget : Nat
  slack : Nat
deriving DecidableEq, Repr

/-- A declared mailbox (R88, R320). -/
structure MboxDecl where
  num : Nat
  base : Nat
  ent : Nat
deriving DecidableEq, Repr

/-- What a kernel header gives its blocks (R88), and where its code lies: KADDR, and the local address of its image where
the stall's code area holds it. -/
structure Kern where
  width : Nat
  quad : Bool
  roles : List Role
  pad : Nat
  am : Nat
  bage : Nat
  routes : Nat
  mqBase : Nat
  mqEnt : Nat
  stages : Nat
  mbox : List MboxDecl
  words : Nat
  entry : Nat
  kaddr : DWord
  area : Option Nat
deriving DecidableEq, Repr

/-- A hardware barrier: arrivals and phase (R208). -/
structure Bar where
  count : Nat
  phase : Bool
deriving DecidableEq, Repr

/-- A record of the crate (R162), with the block position and role that key its bin; the squad slot and store-queue number
that its thread's earlier accesses have; the units of 16 bytes of the core's spill share that it lies in, if it lies there (R164); the
filing that it belongs to, one number for the lanes of a quad that are filed together (R51); whether the barrier that its thread has
arrived at has completed since (R208); and the outputs that a pixel thread has given so far (R392). -/
structure Rec where
  pos : Nat
  role : Nat
  pc : DWord
  tid : Nat
  lane : Nat
  live : Nat
  pred : BitVec 7
  helper : Bool
  bar : Option Nat
  passed : Bool
  spawn : Bool
  atWait : Bool
  rsk : Nat
  rnd : Word
  stamp : Nat
  regs : Tab Word
  root : Option Nat
  src : Nat
  srcId : Nat
  spill : List Nat
  unit : Nat
  pxo : List Pxo
deriving DecidableEq, Repr

/-- The phases of a block's residence with respect to halts (R435). -/
inductive HaltPhase where
  /-- Running. -/
  | run
  /-- A halt is broadcast and not yet complete. -/
  | halting
  /-- The halt is complete: stopped for its handler. -/
  | halted
  /-- The halt is complete, and the primary squad waits to enter supervisor mode (R445). -/
  | toSup
  /-- The halt is complete and a squad of the block runs in supervisor mode. -/
  | inSup
  /-- Being saved (R453). -/
  | saving
deriving DecidableEq, Repr

/-- A plane of the matrix engine (R225): its stored bytes, format code, density code, seed and valid bit, and its non-finite bits,
a byte for each group of positions with a bit for each group of columns. -/
structure Plane where
  valid : Bool
  fmt : Nat
  den : Nat
  seed : Nat
  data : Mem
  nf : Mem
deriving DecidableEq, Repr

/-- A dispatched and incomplete matrix command (R220): the record, its queue index, the clock of its dispatch, its unit
(0 load, 1 stream, 2 tracker), its footprint card, the ring slots it claimed (the header, the slot number and the slot's pad
offset), the rows a gang source has sent it (their number, and the bytes of the slot), whether it stopped on an error of a row,
whether its rows have been read, which frees the stream unit, and the squad slot and order number of the menq that queued it. -/
structure MCmd where
  rec' : BitVec 128
  qi : Nat
  clock : Nat
  unit : Nat
  card : Nat
  claims : List (Nat × Nat × Nat)
  sent : Option (Nat × List Byte)
  failed : Bool
  read : Bool
  src : Nat × Nat
deriving DecidableEq, Repr

/-- The matrix engine as its block holds it (R213): MQB, MQH, MQT, MXS, the planes, whether the active one is plane 1 (R454),
the gang state, the squad slots and order numbers of the menq words of the newest queued commands, the commands dispatched and incomplete in order, the clock from which the oldest queued command waits, the
clocks it had waited before a halt (R224), and the clock of the last dispatch (R220). -/
structure Engine where
  mqb : Word
  mqh : Word
  mqt : Word
  mxs : Word
  active : Plane
  shadow : Plane
  act1 : Bool
  joined : Bool
  gseq : Nat
  queued : List (Nat × Nat)
  run : List MCmd
  waitFrom : Option Nat
  waited : Nat
  dispatched : Option Nat
deriving DecidableEq, Repr

/-- A fault of a job (R437): cause, and the fields of the halt record (R444): JKIND, JTAG, JCMD, JQI, JIDX, JPC, and the
virtual address of the failing access. -/
structure JobFault where
  cause : Nat
  kind : Nat
  tag : Nat
  cmd : Nat
  qi : Nat
  idx : Nat
  jpc : DWord
  card : Nat
deriving DecidableEq, Repr

/-- The halt of a block (R435 to R445): phase, primary squad slot, primary cause and lane, NEST, the number of halts, the
job fault recorded, the causes still pending, how the entry was made (the RSEQ and kind of a REPLY's record), whether the
record is outstanding as saved, the RSEQ of its own KIND 1 record, the clock in which the halt or the save began, and the
footprint cards that failed jobs of a saved block keep (R311). -/
structure BlockHalt where
  phase : HaltPhase
  psq : Nat
  cause : Nat
  flane : Nat
  nest : Bool
  halts : Nat
  job : Option JobFault
  pendJob : List JobFault
  pendAsync : List Nat
  reply : Option (Nat × Nat)
  rseq : Option Nat
  saveFrom : Nat
  /-- The halt was made for a save, and whether the saved block stays stopped until a REPLY (R453, R492). -/
  toSave : Bool
  stay : Bool
  /-- Once saved and restored it is halted still, and waits for a REPLY; and the save owes a KIND 1 record (R447, R492). -/
  waits : Bool
  owe : Bool
  cards : List Nat
deriving DecidableEq, Repr

/-- A mesh block's or task block's geometry state (R381, R382): triangles appended, dropped count, whether mfin has run,
and the count it declared. -/
structure MeshOut where
  tris : List (Nat × Nat × Nat)
  dropped : Nat
  fin : Bool
  count : Nat
deriving DecidableEq, Repr

/-- Why a block runs: an ordinary launch, a task chunk, a pipeline stage, or a stage of a raster pass. -/
inductive BlockRole where
  | grid
  | task (pool : Nat)
  | stage (pipe n : Nat)
  | rtask (market draw : Nat)
  | rmesh (market token : Nat)
  | rpixel (market : Nat)
deriving DecidableEq, Repr

/-- A write of a control register of a block that takes effect with the next clock (R156): the issue slot of the word, the index, and
the value. -/
structure CrWrite where
  islot : Nat
  idx : Nat
  v : Word
deriving DecidableEq, Repr

/-- A resident block (R36). -/
structure Block where
  launch : Nat
  index : Nat
  arg : DWord
  threads : Nat
  kern : Kern
  gang : Nat
  lcore : Nat
  cslot : Option Nat
  pad : Mem
  am : Mem
  padBad : List Nat
  amBad : List Nat
  fpc : Fpc
  tagsDone : DWord
  tagsBusy : DWord
  ksp : Word
  /-- The writes of KSP, MXS and MQB made in this clock, in the order of their issue slots (R156). -/
  crw : List CrWrite
  bars : Tab Bar
  eng : Engine
  tails : Tab Word
  inflight : Nat
  squads : Tab Squad
  live : Nat
  halt : BlockHalt
  kind : BlockRole
  mesh : MeshOut
  stamp : Nat
deriving DecidableEq, Repr

/-- A copy job in flight (R193): the position of the block that issued it, or none for a COPY entry, the squad slot, its
descriptor, the PC of its word, its footprint card, the order number before which the squad's accesses precede it, the
queue entry it runs for, whether a supervisor word issued it, and how far it has come: the elements copied, its random state (R198), and
which of them were zero (R199). -/
structure CopyJob where
  pos : Option Nat
  slot : Nat
  desc : List Word
  pc : DWord
  card : Nat
  after : Nat
  entry : Option Nat
  sup : Bool
  made : Nat
  rnd : Word
  zeros : List Bool
deriving DecidableEq, Repr

/-- A line of an L1, of device memory or of a host page with HRO (R263). -/
abbrev L1Line := List Byte

/-- An entry of the query table (R417): the root thread's block position and the number of live threads. -/
structure Query where
  pos : Nat
  count : Nat
deriving DecidableEq, Repr

/-- A physical core. -/
structure Core where
  blocks : Tab Block
  /-- What ended blocks have left on the core, by a number that is their position modulo 16: their pad, their registers, and the jobs
  of theirs that still run (R170, R352). -/
  left : Tab Block
  recs : List Rec
  l1 : Tab L1Line
  l1h : Tab L1Line
  /-- Lines that a prefetch brings to L1 once the die cache holds a token (R269). -/
  pf : List Nat
  icache : Tab DWord
  copies : List CopyJob
  retst : Word
  supFile : Tab (Tab Word)
  supOwner : Tab (Nat × Nat)
  queries : Tab Query
  off : Bool
  ceTimes : List Nat
deriving DecidableEq, Repr

/-! ## The stall -/

/-- What a line of a die cache waits for (R272). -/
inductive Miss where
  | none
  | read
  | write
deriving DecidableEq, Repr

/-- A die cache's state of a line (R272); the data itself is held once, in memory (R271). `timer` is the clock at which
the miss began, `esc` whether the miss has escalated. -/
structure DcLine where
  t : Nat
  o : Bool
  v : Bool
  d : Bool
  miss : Miss
  timer : Nat
  esc : Bool
deriving DecidableEq, Repr

/-- A home's state of a line (R275): tokens, owner token, and the entry of the sharer hint, if the store holds one. -/
structure HomeLine where
  t : Nat
  o : Bool
  hint : Option DWord
deriving DecidableEq, Repr

/-- Kinds of persistent request (R277). -/
inductive PKind where
  | read
  | write
  | home
deriving DecidableEq, Repr

/-- An entry of a persistent-request table (R277). -/
structure PEnt where
  line : Nat
  kind : PKind
deriving DecidableEq, Repr

/-- A stall's own persistent request (R278): the line and kind, the acknowledgements still missing for the activation and
for the deactivation, whether the access is performed, whether the deactivation is sent. -/
structure PReq where
  line : Nat
  kind : PKind
  actAcks : Nat
  deactAcks : Nat
  performed : Bool
  deact : Bool
deriving DecidableEq, Repr

/-- A buffered write (R295): the number of its access, its number in the order of entry, the squad it came from, if one, the
address, the bytes. -/
structure BufW where
  id : Nat
  seq : Nat
  src : Option Sel
  pa : Nat
  bytes : List Byte
deriving DecidableEq, Repr

/-- A posted write to host or external memory (R295), and the squad it came from, if one. -/
structure Posted where
  id : Nat
  src : Option Sel
  place : Place
  bytes : List Byte
deriving DecidableEq, Repr

/-- A far operation at a home (R283): the squad and the queue entry it came from, the operation, or none for the merge of a
ray's hit (R421), the lanes, which name one line, and the order number when it left the store queue (R295). -/
structure FarOp where
  q : Sel
  sqid : Nat
  mark : Nat
  op : Option AtomOp
  lanes : List AtLane
deriving DecidableEq, Repr

/-- A region of a footprint card (R308): space (0 virtual, 1 pad, 2 AM), for pad and AM the block by its launch and index, base and
extent. -/
structure Region where
  space : Nat
  owner : Nat × Nat
  base : Nat
  len : Nat
deriving DecidableEq, Repr

/-- A card in the footprint table (R309), with the clock in which it entered and its place among the cards of that clock. -/
structure Card where
  id : Nat
  clock : Nat
  place : Nat
  reads : List Region
  writes : List Region
deriving DecidableEq, Repr

/-- A cached translation (R258): the virtual 64 KiB page it was cached for, its leaf and level, the replica mask (R255) or the
market's member mask (R256) cached with it, and for a peer leaf the handle and the export entry (R32, R33). -/
structure TlbEnt where
  page : Nat
  leaf : DWord
  level : Nat
  mask : DWord
  peer : List DWord
deriving DecidableEq, Repr

/-- A running shootdown (R258): its range, the accesses it waits for (those up to a number), and whether the old entries have
left the caches, before which accesses may still use them. -/
structure Shoot where
  all : Bool
  page : Nat
  npg : Nat
  upto : Nat
  purged : Bool
  troot : Option DWord
deriving DecidableEq, Repr

/-- A running revocation (R33): the export index, the accesses it waits for (those up to a number), the stalls whose caches have
given up the translations that used the entry, once they have, and the EXPT value it installs when it ends. -/
structure Revoke where
  index : Nat
  upto : Nat
  users : Option DWord
  expt : Option DWord
deriving DecidableEq, Repr


/-! ## The mesh -/

/-- A message between cores (R321): its header fields, its payload, the route it took, the physical core the receiving NI
translated it to, and the cumulative mark of a release send. -/
structure NiMsg where
  seq : Nat
  sstall : Nat
  score : Nat
  dstall : Nat
  dcore : Nat
  mb : Nat
  rt : Nat
  lenm1 : Nat
  ret : Bool
  fire : Bool
  reason : Nat
  armtag : Nat
  user : Word
  payload : List Byte
  /-- The physical core of the sending block, for its return credit. -/
  spcore : Nat
  spos : Nat
  slaunch : Nat
  sindex : Nat
deriving DecidableEq, Repr

/-- A fire passed to the scheduler (R328): the receiving core, the arm tag, the mailbox, the pad offset of the payload, the SEQ of
its message, and the bytes of the payload slot. -/
structure Fire where
  core : Nat
  tag : Nat
  mb : Nat
  off : Nat
  seq : Nat
  payload : List Byte
deriving DecidableEq, Repr

/-- Messages in flight on the mesh (R273, R316). `dst` is a logical stall; `home` says that it is meant for the home at
the line's site. -/
inductive Msg where
  /-- A transient request. -/
  | trans (line : Nat) (write : Bool) (req : Nat) (dst : Nat) (home : Bool)
  /-- A token message; the data a message carries is the line's one value (R271), so only its presence is kept. -/
  | token (line n : Nat) (own data d all : Bool) (src dst : Nat) (home : Bool)
  /-- Activate. -/
  | activate (req line : Nat) (kind : PKind) (dst : Nat)
  /-- Deactivate. -/
  | deactivate (req : Nat) (dst : Nat)
  /-- Acknowledge of an activation, or of a deactivation. -/
  | ack (req : Nat) (deact : Bool) (src : Nat)
  /-- A message of send on its way to its destination. -/
  | send (m : NiMsg)
  /-- Its acknowledgement on the reply channel. -/
  | sendAck (m : NiMsg)
  /-- A returned message on its way back. -/
  | ret (m : NiMsg)
deriving DecidableEq, Repr

/-- A primitive packet (R384): the key, the clipped piece's three vertices (screen x, y in 256ths, depth and 1/w source
w codes), their attributes, the front-facing bit and the draw. -/
structure Packet where
  key : Nat
  /-- The number of the piece in its triangle's fan (R383). -/
  piece : Nat
  owner : Nat
  xs : List Int
  ys : List Int
  zn : List Word
  w : List Word
  attrs : List Word
  front : Bool
deriving DecidableEq, Repr

/-- Raster messages on the primitive channel (R384). -/
inductive PrimMsg where
  | drawStart (market draw count dst : Nat)
  | packet (market : Nat) (p : Packet)
  | done (market token n dst src : Nat)
  | passEnd (market draws dst : Nat)
  /-- A member's report that it has rasterised every packet of a group (R379). -/
  | retired (market token src : Nat)
deriving DecidableEq, Repr

/-! ## The scheduler -/

/-- Where a launch comes from. -/
inductive LaunchSrc where
  /-- A LAUNCH entry. -/
  | queue (entry : Nat)
  /-- A member launch of an MLAUNCH: the issuing stall and its entry. -/
  | market (home entry : Nat)
  /-- A launch word, with its DONE address. -/
  | device (done : DWord)
  /-- A range task. -/
  | task (id : Nat)
  /-- A fire: the receiving physical core, the pad offset and the payload. -/
  | fire (core off : Nat) (payload : List Byte)
  /-- The task blocks of a draw, the block of a group, or a pixel block. -/
  | rtask (market draw : Nat)
  | rmesh (market token : Nat)
  | rpixel (market : Nat)
deriving DecidableEq, Repr

/-- A launch on a stall (R350, R352, R356). -/
structure Launch where
  id : Nat
  kern : Kern
  arg : DWord
  grid : Nat
  bshape : Nat
  gang : Nat
  cc : Nat
  prio : Nat
  graphics : Bool
  src : LaunchSrc
  queue : Nat
  ety : Nat
  eseq : Word
  mkt : Word
  /-- The lowest index not yet placed. -/
  next : Nat
  ended : Nat
  /-- Evicted blocks waiting to be restored, in eviction order. -/
  evicted : List Nat
  /-- Set when the launch was aborted or refused: the STATUS and AUX. -/
  status : Option (Nat × Nat)
  /-- What the DONE word or the record still owes. -/
  closed : Bool
  /-- The order number below which the accesses of its ended blocks lie. -/
  mark : Nat
  /-- It waits for the finaliser (R90). -/
  fin : Bool
deriving DecidableEq, Repr

/-- The state of a fetched entry (R345, R353 to R355). -/
inductive EntSt where
  /-- Fetched, not started. -/
  | fetched
  /-- Started: what it waits for is elsewhere. -/
  | running
  /-- A WAITMEM that reads again. -/
  | waiting
  /-- Finished with STATUS and AUX; its record is not written yet. -/
  | finished (status aux : Nat)
  /-- Complete. -/
  | complete
deriving DecidableEq, Repr

/-- A fetched entry (R344), with the market whose BUSY it set or to whose pass it belongs (R353, R374). -/
structure Entry where
  id : Nat
  q : Nat
  seq : Word
  ty : Nat
  notify : Bool
  bytes : List Byte
  prio : Nat
  cls : Nat
  st : EntSt
  /-- The write number a SIGNAL's release must see performed. -/
  upto : Nat
  market : Option Nat
deriving DecidableEq, Repr

/-- Writes of a launch or a pass that an abort ended (R349, R354): those of a stall with order numbers below one, and those of the launch
until it leaves. -/
structure Owed where
  stall : Nat
  launch : Option Nat
  upto : Nat
deriving DecidableEq, Repr

/-- Per queue: FETCHED and COMPLETED as the scheduler keeps them in the state block, and the clock of its last fetch or of EN (R343,
R345). -/
structure QueueSt where
  fetched : Word
  completed : Word
  /-- EN has been set, and the state block is still to be read (R342). -/
  starts : Bool
  lastFetch : Nat
  /-- The market of the pass that is open on the queue (R371). -/
  openPass : Option Nat
  /-- CTL.ABORT was written. -/
  abort : Bool
  /-- The writes of launches and passes that aborts of the queue ended (R349, R354). -/
  owed : List Owed
deriving DecidableEq, Repr

/-- A range that a squad slot of a block holds (R359). -/
structure Hold where
  index : Nat
  slot : Nat
  lo : Nat
  hi : Nat
deriving DecidableEq, Repr

/-- A range task of a cluster's pool (R359). -/
structure Task where
  id : Nat
  cluster : Nat
  lo : Nat
  hi : Nat
  grain : Nat
  done : DWord
  count : Nat
  unheld : List (Nat × Nat)
  held : List Hold
  launch : Nat
  finished : Bool
deriving DecidableEq, Repr

/-- A pipeline launch (R361). -/
structure Pipe where
  launch : Nat
  stages : Nat
  queues : List (List (List Word))
  drained : Bool
  /-- The current stage of each block, by block index. -/
  stageOf : Tab Nat
  /-- Moves that take effect at the block's next qget. -/
  moved : Tab Nat
  /-- The clock of the last reassignment (R362). -/
  since : Nat
deriving DecidableEq, Repr

/-- An outstanding system-call record (R492): its RSEQ, KIND, the block, the squad slot, and its bytes 4 to 63. -/
structure OutRec where
  rseq : Word
  kind : Nat
  launch : Nat
  index : Nat
  slot : Nat
  bytes : List Byte
deriving DecidableEq, Repr

/-- A completion record, system-call record or KIND 2 record that waits for ring room (R348): its bytes after
the RSEQ, the entry it holds up, and for a system-call record what becomes outstanding when it is written. -/
structure HeldRec where
  syscall : Bool
  bytes : List Byte
  entry : Option Nat
  out : Option OutRec
deriving DecidableEq, Repr

/-- A saved block (R443, R453): its launch, index and context slot, whether it had its core's mailboxes at a swap that
restricts its restore (R471), whether it stays stopped until a REPLY, and what the image of R454 does not hold: the cause
state of the block and of its squads, its matrix commands that stopped on an error (R219), the records of parked calls, waiting qgets, mesh output, outputs of pixel threads,
granules in error, the roles of its records, and the records left in a core's spill share. -/
structure Saved where
  launch : Nat
  index : Nat
  cslot : Nat
  gang : Nat
  /-- The logical core that it is restored onto, if R471 names one. -/
  lcore : Option Nat
  stopped : Bool
  halt : BlockHalt
  cmds : List MCmd
  regs : Tab HaltRegs
  calls : Tab (Option Nat)
  asks : Tab (List Ask)
  kind : BlockRole
  threads : Nat
  live : Nat
  mesh : MeshOut
  pxo : Tab (List Pxo)
  padBad : List Nat
  amBad : List Nat
  /-- The role and the filing of each record, and whether the barrier of its thread has completed. -/
  roles : List (Nat × Nat × Bool)
  spillCore : Nat
  spillRecs : List Rec
deriving DecidableEq, Repr

/-- The collectives (R333 to R338): one member's issued card. -/
structure CollJob where
  grp : Nat
  cseq : Nat
  core : Nat
  pos : Nat
  slot : Nat
  launch : Nat
  index : Nat
  card : List Byte
  off : Nat
  pc : DWord
  cardId : Nat
  after : Nat
  /-- The bytes of its source that have been read. -/
  got : List Byte
  /-- STATUS and FLAGS, from the rendezvous on. -/
  result : Option (Nat × Nat)
deriving DecidableEq, Repr

/-- An entry of the code area (R92): the digest, the finaliser version, the local address, the byte count, the count of launches when it
was last launched, and ENTRY and CODEWORDS of its native header. -/
structure CodeEnt where
  digest : List Byte
  version : Word
  addr : Nat
  size : Nat
  used : Nat
  entry : Nat
  words : Nat
deriving DecidableEq, Repr

/-- A saving in progress, or a wait for room: the block the scheduler evicts for (R358). -/
structure Evicting where
  launch : Nat
  index : Nat
  victims : List (Nat × Nat)
deriving DecidableEq, Repr

/-- A stall: one logical device (R27). -/
structure Stall where
  /-- The clocks of its die since reset, which CYC of each of its cores counts (R463). -/
  clock : Nat
  -- the management page (R34)
  crt : Tab DWord
  cspill : DWord
  troot : DWord
  stock : DWord
  mscq : DWord
  tshootVa : DWord
  tshootN : DWord
  cring : DWord
  crseq : Word
  ccons : Word
  rspill : DWord
  svec : DWord
  savea : DWord
  scring : DWord
  scrseq : Word
  sccons : Word
  ceCount : Word
  /-- The time on the oscillator of the DMC, in units of 1/126 ns (R469). -/
  osc : Nat
  ceRest : Word
  pwr : DWord
  expt : DWord
  mspill : DWord
  codea : DWord
  routes : Tab DWord
  defRoutes : Tab Nat
  coll : Mem
  qdesc : Mem
  armt : Mem
  impt : Tab Word
  repl : Tab DWord
  -- coherence (chapter 10) and the write buffer (chapter 11)
  dc : Tab DcLine
  ptab : Tab PEnt
  preq : Option PReq
  pwait : List (Nat × PKind)
  /-- The lines that the stall's units ask for, each with the clock in which one last asked (R274). -/
  want : Tab Nat
  marked : Tab (List Nat)
  wbuf : List BufW
  posted : List Posted
  hro : Tab (List Byte)
  far : List FarOp
  cards : List Card
  -- translation
  tlb : List TlbEnt
  shoots : List Shoot
  revokes : List Revoke
  sharers : Tab DWord
  -- network interface
  sendSeq : Tab Nat
  expected : Tab Nat
  early : List NiMsg
  migbuf : List NiMsg
  fires : List Fire
  colls : List CollJob
  /-- The collectives that a write has aborted at this stall (R333, R337): their group entries and CSEQ values. -/
  dead : List (Nat × Nat)
  -- scheduler
  queues : Tab QueueSt
  entries : List Entry
  launches : List Launch
  devq : Nat
  tasks : List Task
  pipes : List Pipe
  heldRecs : List HeldRec
  outRecs : List OutRec
  saved : List Saved
  evicting : List Evicting
  slots : List Nat
  pausePlace : Bool
  -- the code area and the finaliser
  code : List CodeEnt
  launched : Nat
  cores : Tab Core
deriving DecidableEq, Repr

/-- A draw of a pass (R377). -/
structure Draw where
  arg : DWord
  mcard : List Byte
  tcard : Option (List Byte)
  count : Nat
  entry : Nat
  /-- The child counts declared, and the number of task blocks that have ended. -/
  tasks : Tab Nat
  tasksOver : Nat
  dealt : Nat
  /-- The group count, once DRAW-START has been sent. -/
  total : Option Nat
deriving DecidableEq, Repr

/-- A group dealt and not retired (R379): its token, the member that runs it, whether it is culled, and the members that
have not reported. -/
structure Group where
  token : Nat
  stall : Nat
  launch : Nat
  culled : Bool
  waiting : List Nat
deriving DecidableEq, Repr

/-- A pixel thread's result that waits for the back end (R392, R394): the piece's key, the pixel, the covered samples with
their depths, the thread's block and number, whether it has ended, and its outputs, or none where they are discarded. -/
structure Shaded where
  key : Nat
  x : Nat
  y : Nat
  mask : Nat
  depths : List Word
  block : Nat × Nat
  tid : Nat
  ready : Bool
  outs : Option (List Pxo)
deriving DecidableEq, Repr

/-- A pixel block formed and not yet placed (R390): its number, the attribute blocks of its pieces, and for each thread
whether it is a helper and its first registers. -/
structure PixBlock where
  index : Nat
  attrs : List Byte
  threads : List (Bool × List Word)
deriving DecidableEq, Repr

/-- One member's side of a pass (R385, R386, R390): the packets held, the DONE counts and the group counts that have
arrived, the draw count of PASS-END, the frontier as draw and group, pixel blocks to place, the number formed, results for
the back end, and the tokens reported to the dealer. -/
structure Member where
  packets : List Packet
  dones : List (Nat × Nat)
  starts : Tab Nat
  ended : Option Nat
  fdraw : Nat
  fgroup : Nat
  blocks : List PixBlock
  formed : Nat
  shaded : List Shaded
  /-- The order number below which its back end's writes lie. -/
  mark : Nat
deriving DecidableEq, Repr

/-- An open pass (R371, R374): its dealer, queue, entry, descriptor, owner table, cards, draws, groups and members. -/
structure Pass where
  market : Nat
  dealer : Nat
  queue : Nat
  entry : Nat
  prio : Nat
  desc : List Byte
  owners : List Byte
  pcard : List Byte
  draws : List Draw
  groups : List Group
  /-- PASS-END has been sent. -/
  endSent : Bool
  /-- The cause of an abort, and whether an entry has reported it (R387). -/
  aborted : Option Nat
  told : Bool
  members : Tab Member
deriving DecidableEq, Repr

/-- A firmware image slot pair of a site (R465): the images of A and B and the active slot. -/
structure Firm where
  a : List Byte
  b : List Byte
  bActive : Bool
deriving DecidableEq, Repr

/-- The identity key pair of a die (R467). -/
structure KeyPair where
  secret : List Byte
  shown : List Byte
deriving DecidableEq, Repr

/-- The connection of a function that answers SPDM (R467, log 7): how many of the three opening requests it has answered, and the
messages that its next signature covers: the opening ones, those about certificates, and the measurements without a signature. -/
structure Spdm where
  stage : Nat
  opening : List Byte
  certs : List Byte
  meas : List Byte
deriving DecidableEq, Repr

/-- An edge's service state (R468). -/
structure EdgeSt where
  spares : Nat
  half : Bool
deriving DecidableEq, Repr

/-- An event that function 64 logs (R266, R468). -/
inductive LogEv where
  | lostRead (pa : Nat)
  | halfWidth (edge : Nat)
deriving DecidableEq, Repr

/-- What the last request from outside was answered with (log 1): nothing, bytes, bytes of which some come poisoned, or a
completion with Completer Abort status (R266, R467). -/
inductive Answer where
  | none
  | data (bs : List Byte)
  | poison (bs : List Byte)
  | abort
deriving DecidableEq, Repr

/-- What moves next (log 1): an issue slot starts a word, an event of the opcode table happens, or a die's clock advances. -/
inductive Turn where
  | slot (stall core islot : Nat)
  | event (i : Instr)
  | tick (stall n : Nat)
deriving DecidableEq, Repr

/-- The machine. -/
structure State where
  -- the model's own (log 1)
  agenda : List Turn
  cur : Sel
  free : Nat
  answer : Answer
  -- the package
  site : Tab Word
  fwd : DWord × DWord
  edge : DWord × DWord
  market : Tab (DWord × Word)
  pkg : DWord
  hostUp : List Bool
  scaleDown : List Nat
  firm : Tab Firm
  /-- The rollback floor of each site (R465). -/
  floors : Tab Word
  pendFirm : List (Nat × Nat)
  /-- The identity key pairs of the dies, by site; that of the package's function 64 stands under 72 (R467). -/
  keys : Tab KeyPair
  /-- The SPDM connections, by function (R467). -/
  spdm : Tab Spdm
  edges : Tab EdgeSt
  evlog : List LogEv
  powerCap : Nat
  /-- Retired physical cores, as stall × 64 + core (R473). -/
  retired : List Nat
  -- memory
  mem : Mem
  lost : Tab DWord
  hostMem : Mem
  extMem : Mem
  home : Tab HomeLine
  /-- Writes of the host and of external peers that wait for their home's tokens (R293): address and bytes, within a line. -/
  inbound : List (Nat × List Byte)
  /-- The lines of a moving stall that stand at its new site already (R474). -/
  moved : List Nat
  -- the mesh
  net : List Msg
  prims : List PrimMsg
  passes : List Pass
  -- order numbers for accesses, cards, launches and filings
  nextId : Nat
  stalls : Tab Stall
deriving DecidableEq, Repr

/-! ## Reasons to stop -/

/-- Why a step faults. -/
inductive Fault where
  /-- A word was to issue and `State.cur` names no resident squad. Raised by the shared issue operation; safe: hardware
  issues words only for resident squads (R157). -/
  | noSquad
deriving DecidableEq, Repr

/-- Why a step is refused. -/
inductive Refusal where
  /-- The instruction has no meaning yet. Raised by the dispatch; safe. -/
  | notModelled (mnemonic : String)
deriving DecidableEq, Repr

/-! ## Reset -/

/-- The CRT at reset (R21, R22). -/
def crtReset : Tab DWord := (List.range 48).map fun l => (l, BitVec.ofNat 64 (0x8000 + 9 * (l / 8) + l % 8))

/-- A home holds every token of a line at reset, and no hint entry is stored (R275). -/
def HomeLine.reset : HomeLine := ⟨64, true, none⟩

/-- An empty watch slot (R169). -/
def Watch.off : Watch := ⟨false, false, .pad 0, 0⟩

/-- Halt registers at reset (R438 to R441); EPC is a DESIGN CHOICE, log 3. -/
def HaltRegs.reset : HaltRegs := ⟨0, 0, 0x7F, 0, [], false, 0, 0, .none, [], [], none, false, 0⟩

/-- A core after reset. -/
def Core.reset : Core where
  blocks := []
  left := []
  recs := []
  l1 := []
  l1h := []
  pf := []
  icache := []
  copies := []
  retst := 0
  supFile := []
  supOwner := []
  queries := []
  off := false
  ceTimes := []

/-- A stall after reset (chapters 01, 06, 09, 12, 13, 16, 17). -/
def Stall.reset : Stall where
  clock := 0
  crt := crtReset
  cspill := 0
  troot := 0
  stock := 0
  mscq := 0xFFFFFFFFFFFFFFFF
  tshootVa := 0
  tshootN := 0
  cring := 0
  crseq := 0
  ccons := 0
  rspill := 0
  svec := 0
  savea := 0
  scring := 0
  scrseq := 0
  sccons := 0
  ceCount := 0
  osc := 0
  ceRest := 0
  pwr := 0
  expt := 0
  mspill := BitVec.ofNat 64 (208 * 2 ^ 56 + 0xBF300 * 2 ^ 16 + 1)
  codea := 0
  routes := [(0, 0x8000000000000000)]
  defRoutes := []
  coll := []
  qdesc := []
  armt := []
  impt := []
  repl := []
  dc := []
  ptab := []
  preq := none
  pwait := []
  want := []
  marked := []
  wbuf := []
  posted := []
  hro := []
  far := []
  cards := []
  tlb := []
  shoots := []
  revokes := []
  sharers := []
  sendSeq := []
  expected := []
  early := []
  migbuf := []
  fires := []
  colls := []
  dead := []
  queues := []
  entries := []
  launches := []
  devq := 0
  tasks := []
  pipes := []
  heldRecs := []
  outRecs := []
  saved := []
  evicting := []
  slots := []
  pausePlace := false
  code := []
  launched := 0
  cores := []

/-- A key pair before manufacture has written one: a DESIGN CHOICE, log 3. -/
def KeyPair.reset : KeyPair := ⟨List.replicate 57 0, List.replicate 57 0⟩
/-- No SPDM connection. -/
def Spdm.reset : Spdm := ⟨0, [], [], []⟩
/-- Firmware slots at reset: a DESIGN CHOICE, log 3. -/
def Firm.reset : Firm := ⟨[], [], false⟩

/-- The machine right after reset: no table written by boot, no work, every home holding its tokens. A stall or core that
the tables do not list is at reset. -/
def State.reset : State where
  agenda := []
  cur := ⟨0, 0, 0, 0⟩
  free := 0
  answer := .none
  site := []
  fwd := (0, 0)
  edge := (0, 0)
  market := []
  pkg := 0
  hostUp := [true, true]
  scaleDown := []
  firm := []
  floors := []
  pendFirm := []
  keys := []
  spdm := []
  edges := []
  evlog := []
  powerCap := 21800
  retired := []
  mem := []
  lost := []
  hostMem := []
  extMem := []
  home := []
  inbound := []
  moved := []
  net := []
  prims := []
  passes := []
  nextId := 1
  stalls := []

end Sys2Proof.Machine
end

