-- ==== Sys2Proof/Machine/Ops.lean ====
section
/-! DEFINITION. The named operations over the state: tables, memory bytes, the selectors of stalls, cores, blocks and squads,
and the taking of causes with the return from a halt (chapter 16). -/

set_option Elab.async false

namespace Sys2Proof

/-- The block of a squad. -/
def Sel.blk (q : Sel) : BSel := ⟨q.stall, q.core, q.pos⟩

/-- The issue slot of a squad slot (R43). -/
def Sel.islot (q : Sel) : Nat := q.slot % 4

namespace Machine

/-! ## Memory bytes -/

/-- One byte of a memory: 0 where nothing is listed (log 2). -/
def Mem.rd (m : Mem) (a : Nat) : Byte := Tab.get 0 m a

/-- Write one byte, keeping the canonical form. -/
def Mem.wr (m : Mem) (a : Nat) (b : Byte) : Mem := Tab.set 0 m a b

/-- The canonical form of a memory. -/
def Memory.wf (m : Mem) : Bool := Tab.wf (0 : Byte) m

/-- n bytes from an address. -/
def Mem.rds (m : Mem) (a : Nat) : Nat → List Byte
  | 0 => []
  | n + 1 => m.rd a :: Mem.rds m (a + 1) n

/-- Write bytes from an address up. -/
def Mem.wrs (m : Mem) (a : Nat) : List Byte → Mem
  | [] => m
  | b :: bs => Mem.wrs (m.wr a b) (a + 1) bs

/-- Little-endian value of bytes (R3). -/
def leNat : List Byte → Nat
  | [] => 0
  | b :: bs => b.toNat + 256 * leNat bs

/-- The n bytes of a value, least significant first (R3). -/
def leBytes : Nat → Nat → List Byte
  | 0, _ => []
  | n + 1, v => BitVec.ofNat 8 v :: leBytes n (v / 256)

/-- n bytes of a memory as a value. -/
def Mem.num (m : Mem) (a n : Nat) : Nat := leNat (m.rds a n)

/-- n bytes at an offset of a byte list, zero beyond its end. -/
def sliceBytes (bs : List Byte) (o n : Nat) : List Byte := (List.range n).map fun i => bs.getD (o + i) 0

/-- n bytes at an offset of a byte list as a value. -/
def sliceNum (bs : List Byte) (o n : Nat) : Nat := leNat (sliceBytes bs o n)

/-- Replace bytes at an offset of a byte list. -/
def patchBytes (bs : List Byte) (o : Nat) (new : List Byte) : List Byte :=
  (List.range bs.length).map fun i => if o ≤ i && i < o + new.length then new.getD (i - o) 0 else bs.getD i 0

/-- The low 32 bits. -/
def lo32 (d : DWord) : Word := d.extractLsb' 0 32
/-- The high 32 bits. -/
def hi32 (d : DWord) : Word := d.extractLsb' 32 32
/-- A pair of words. -/
def pair64 (l h : Word) : DWord := h ++ l
/-- Bits hi down to lo of a double word as a number. -/
def field (d : DWord) (hi lo : Nat) : Nat := d.toNat / 2 ^ lo % 2 ^ (hi + 1 - lo)
/-- The set bits of a 64-bit mask, ascending. -/
def bitsOf (m : DWord) : List Nat := (List.range 64).filter fun i => m.getLsbD i
/-- The number of set bits. -/
def popMask (m : DWord) : Nat := (bitsOf m).length
/-- Set or clear a bit of a mask. -/
def setBit (m : DWord) (i : Nat) (b : Bool) : DWord :=
  if b then m ||| BitVec.ofNat 64 (2 ^ i) else m &&& ~~~BitVec.ofNat 64 (2 ^ i)

/-- The first element with the least key. -/
def minBy {α : Type} (key : α → Nat) : List α → Option α
  | [] => none
  | a :: t => match minBy key t with
    | none => some a
    | some b => if key b < key a then some b else some a

/-- The distinct elements of a list, first occurrences kept. -/
def nub {α : Type} [DecidableEq α] : List α → List α
  | [] => []
  | a :: t => a :: (nub t).filter (· ≠ a)

/-- Insert a number into a rising list. -/
def insertNat (n : Nat) : List Nat → List Nat
  | [] => [n]
  | a :: t => if n ≤ a then n :: a :: t else a :: insertNat n t

/-- Sort numbers. -/
def sortNats : List Nat → List Nat
  | [] => []
  | a :: t => insertNat a (sortNats t)

/-- Insert by a key, behind equal keys. -/
def insertBy {α : Type} (key : α → Nat) (x : α) : List α → List α
  | [] => [x]
  | a :: t => if key x < key a then x :: a :: t else a :: insertBy key x t

/-- Stable sort by a key. -/
def sortBy {α : Type} (key : α → Nat) (l : List α) : List α := l.foldl (fun acc x => insertBy key x acc) []

/-- Update an element of a list at an index. -/
def updAt {α : Type} (l : List α) (i : Nat) (f : α → α) : List α :=
  match l, i with
  | [], _ => []
  | a :: t, 0 => f a :: t
  | a :: t, i + 1 => a :: updAt t i f

/-- The lines of 64 bytes in a byte range. -/
def linesOf (a n : Nat) : List Nat := if n = 0 then [] else (List.range ((a + n - 1) / 64 - a / 64 + 1)).map (a / 64 + ·)

/-! ## Stalls, cores, blocks, squads -/

/-- A stall; one the table does not list is at reset. -/
def State.stall (s : State) (n : Nat) : Stall := Tab.get Stall.reset s.stalls n

/-- Replace a stall. -/
def State.putStall (s : State) (n : Nat) (t : Stall) : State := { s with stalls := s.stalls.put n t }

/-- Update a stall. -/
def State.modStall (s : State) (n : Nat) (f : Stall → Stall) : State := s.putStall n (f (s.stall n))

/-- A core of a stall. -/
def Stall.core (t : Stall) (c : Nat) : Core := Tab.get Core.reset t.cores c

/-- Update a core of a stall. -/
def Stall.modCore (t : Stall) (c : Nat) (f : Core → Core) : Stall := { t with cores := t.cores.put c (f (t.core c)) }

/-- A core. -/
def State.core (s : State) (st c : Nat) : Core := (s.stall st).core c

/-- Update a core. -/
def State.modCore (s : State) (st c : Nat) (f : Core → Core) : State := s.modStall st fun t => t.modCore c f

/-- The block resident at a position; a number from 16 up names what an ended block has left (R43, R170). -/
def Core.block? (k : Core) (pos : Nat) : Option Block := if pos < 16 then Tab.find? k.blocks pos else Tab.find? k.left pos

/-- Put a block at its position. -/
def Core.putBlock (k : Core) (pos : Nat) (b : Block) : Core :=
  if pos < 16 then { k with blocks := k.blocks.put pos b } else { k with left := k.left.put pos b }

/-- The block of a selector. -/
def State.block? (s : State) (b : BSel) : Option Block := (s.core b.stall b.core).block? b.pos

/-- Update a block; no effect where there is none. -/
def State.modBlock (s : State) (b : BSel) (f : Block → Block) : State :=
  s.modCore b.stall b.core fun c =>
    match c.block? b.pos with
    | none => c
    | some k => c.putBlock b.pos (f k)

/-- The squad resident in a slot. -/
def State.squad? (s : State) (q : Sel) : Option Squad :=
  match s.block? q.blk with
  | none => none
  | some b => Tab.find? b.squads q.slot

/-- Update a squad of a block. -/
def Block.modSquad (b : Block) (n : Nat) (f : Squad → Squad) : Block :=
  match Tab.find? b.squads n with
  | none => b
  | some q => { b with squads := b.squads.put n (f q) }

/-- Update a resident squad. -/
def State.modSquad (s : State) (q : Sel) (f : Squad → Squad) : State := s.modBlock q.blk fun b => b.modSquad q.slot f

/-- Update a lane of a squad. -/
def Squad.modLane (q : Squad) (l : Nat) (f : Lane → Lane) : Squad :=
  match Tab.find? q.lanes l with
  | none => q
  | some ln => { q with lanes := q.lanes.put l (f ln) }

/-- Update every lane, given its number. -/
def Squad.mapLanes (q : Squad) (f : Nat → Lane → Lane) : Squad := { q with lanes := q.lanes.map fun (l, ln) => (l, f l ln) }

/-- Take a fresh order number. -/
def State.fresh (s : State) : Nat × State := (s.nextId, { s with nextId := s.nextId + 1 })

/-- Take a fresh free word (log 6). -/
def State.freeWord (s : State) : DWord × State := (Config.freeWord s.free, { s with free := s.free + 1 })

/-- Take a fresh free choice (log 6). -/
def State.freeBool (s : State) : Bool × State := (Config.freeBool s.free, { s with free := s.free + 1 })

/-- Every resident block of a stall with its selector, in core and position order. -/
def Stall.blocks (t : Stall) (st : Nat) : List (BSel × Block) :=
  t.cores.foldr (fun (c, k) acc => k.blocks.map (fun (p, b) => ((⟨st, c, p⟩ : BSel), b)) ++ acc) []

/-- What ended blocks have left on a stall. -/
def Stall.lefts (t : Stall) (st : Nat) : List (BSel × Block) :=
  t.cores.flatMap fun (c, k) => k.left.map fun (p, b) => ((⟨st, c, p⟩ : BSel), b)

/-- The squad slots of a kernel: launched and slack, role by role (R44). -/
def Kern.slots (k : Kern) : Nat := (k.roles.map fun r => r.squads + r.slack).foldl (· + ·) 0

/-- The role of a squad slot (R44). -/
def roleAt : List Role → Nat → Nat
  | [], _ => 0
  | r :: t, n => if n < r.squads + r.slack then 0 else roleAt t (n - (r.squads + r.slack)) + 1

/-- The register budget of a role (R42). -/
def Kern.budget (k : Kern) (role : Nat) : Nat := (k.roles.getD role ⟨0, 0, 0⟩).budget

/-- The first squad slot of a role and the one after its last. -/
def Kern.roleRange (k : Kern) (role : Nat) : Nat × Nat :=
  let before := ((k.roles.take role).map fun r => r.squads + r.slack).foldl (· + ·) 0
  let r := k.roles.getD role ⟨0, 0, 0⟩
  (before, before + r.squads + r.slack)

/-- The core's clock (R463): that of its die. -/
def State.cyc (s : State) (st _c : Nat) : Nat := (s.stall st).clock

/-! ## Watches and pad (R187, R206) -/

/-- A write to lines sets the hit bit of an armed slot. -/
def Watch.note (w : Watch) (ts : List WTgt) : Watch := if w.armed && ts.contains w.tgt then { w with hit := true } else w

/-- A write as a squad's watch slots see it. -/
def Squad.note (q : Squad) (ts : List WTgt) : Squad := { q with w0 := q.w0.note ts, w1 := q.w1.note ts }

/-- A write as the squads of a block see it. -/
def Block.note (b : Block) (ts : List WTgt) : Block := { b with squads := b.squads.map fun x => (x.1, x.2.note ts) }

/-- A write as the squads of a stall see it. -/
def Stall.note (t : Stall) (ts : List WTgt) : Stall :=
  { t with cores := t.cores.map fun c => (c.1, { c.2 with blocks := c.2.blocks.map fun x => (x.1, x.2.note ts) }) }

/-- A write as every stall sees it. -/
def State.note (s : State) (ts : List WTgt) : State := { s with stalls := s.stalls.map fun t => (t.1, t.2.note ts) }

/-- The granules of 8 bytes that stay in error after a range is written: those it does not cover whole (R189). -/
def leftBad (bad : List Nat) (a n : Nat) : List Nat := bad.filter fun g => !(a ≤ 8 * g && 8 * g + 8 ≤ a + n)

/-- Write pad bytes of a block: the bytes, the check bits and the watch slots. -/
def Block.writePad (b : Block) (a : Nat) (bs : List Byte) : Block :=
  { (b.note ((linesOf a bs.length).map .pad)) with pad := b.pad.wrs a bs, padBad := leftBad b.padBad a bs.length }

/-- Write accumulator-memory bytes of a block. -/
def Block.writeAm (b : Block) (a : Nat) (bs : List Byte) : Block :=
  { b with am := b.am.wrs a bs, amBad := leftBad b.amBad a bs.length }

/-- Whether a range meets a granule in error (R189). -/
def hitsBad (bad : List Nat) (a n : Nat) : Bool := bad.any fun g => 8 * g < a + n && a < 8 * g + 8

/-! ## Causes -/

/-- Classes of causes (R433). -/
inductive CClass where
  | sup | host | fatal | call
deriving DecidableEq, Repr

/-- The class of a cause (R433). -/
def causeClass (c : Nat) : CClass :=
  if c ∈ [0x21, 0x22, 0x23, 0x24, 0x2C, 0x51, 0x79] then .sup
  else if c = 0x70 then .call
  else if c ∈ [0x26, 0x27, 0x42, 0x43, 0x44, 0x78] || c < 0x10 then .fatal
  else .host

/-- Its code in CAUSE.CLASS (R438). -/
def CClass.code : CClass → Nat
  | .sup => 0
  | .host => 1
  | .fatal => 2
  | .call => 3

/-- The rank of a cause (R434); the codes that the table does not name come last (log 8). -/
def causeRank (c : Nat) : Nat :=
  if c ∈ [0x01, 0x02, 0x03, 0x04, 0x07, 0x08, 0x09] then 1
  else if c = 0x20 then 2
  else if c ∈ [0x21, 0x25, 0x26, 0x27] then 3
  else if c ∈ [0x22, 0x23, 0x24, 0x28] then 4
  else if c ∈ [0x2A, 0x2B] then 5
  else if c ∈ [0x71, 0x72, 0x73] then 7
  else if c ≤ 0x62 then 6
  else 8

/-- The order of primary causes: rank, then code (R434). -/
def causeKey (c : Nat) : Nat := causeRank c * 256 + c

/-- The primary cause of a word among its lanes and the lowest lane that holds it (R434); 0 where there is none. -/
def primaryOf (cs : List (Nat × Nat)) : Nat × Nat :=
  match minBy (fun lc => causeKey lc.2 * 64 + lc.1) cs with
  | none => (0, 0x7F)
  | some (l, c) => (c, l)

/-- The record of a squad whose word raised causes (R438 to R441, R444): EPC, the code, the lowest lane, every lane's
cause and the failing virtual address. -/
def HaltRegs.ofCauses (h : HaltRegs) (cs : List (Nat × Nat)) (epc va : DWord) (prim : Bool) : HaltRegs :=
  let (c, l) := primaryOf cs
  { h with
    cause := BitVec.ofNat 32 (c + (if prim then 2 ^ 15 else 0) + (causeClass c).code * 2 ^ 16)
    epc := epc
    flane := BitVec.ofNat 32 l
    lanes := cs.foldl (fun t lc => Tab.put t lc.1 lc.2) []
    stopped := true
    va := va
    wpc := if c = 0x71 then epc - 8 else epc }

/-- Whether two blocks are members of one gang (R48). -/
def sameGang (a b : Block) : Bool := a.launch = b.launch && a.gang > 1 && a.index / a.gang = b.index / b.gang && a.gang = b.gang

/-- Update a block and every other member of its gang (R48, R435). -/
def State.modGang (s : State) (b : BSel) (f : BSel → Block → Block) : State :=
  match s.block? b with
  | none => s
  | some me =>
    s.modStall b.stall fun t =>
      { t with cores := t.cores.map fun (c, k) => (c, { k with blocks := k.blocks.map fun (p, x) =>
          (p, if (c = b.core && p = b.pos) || sameGang me x then f ⟨b.stall, c, p⟩ x else x) }) }

/-- Whether a squad is parked, or holds its issue slot: at a hardware barrier it has no lane that issues (R208, R435). -/
def Squad.parked (q : Squad) : Bool :=
  q.park ≠ .none || (!q.lanes.any (fun l => l.2.at' = .issue) && q.lanes.any fun l => match l.2.at' with
    | .held h => h.bar.isSome
    | _ => false)

/-- The broadcast of a halt reaches a squad (R435): one that is parked, or that stands for the faulting squad of a halt that no word
made, issues nothing in the skid. -/
def Squad.broadcast (q : Squad) (faulting : Bool) : Squad := { q with hr := { q.hr with skid := 0, mute := q.parked || faulting } }

/-- A halt pauses the count of a waiting matrix command (R224). -/
def Engine.pause (e : Engine) (clock : Nat) : Engine :=
  match e.waitFrom with
  | none => e
  | some c => { e with waitFrom := none, waited := e.waited + (clock - c) }

/-- The halt of R435 reaches a block that runs: halting, with the primary cause given; reservations of its threads end
(R289). -/
def Block.beginHalt (b : Block) (psq cause flane : Nat) (nest : Bool) (clock : Nat) : Block :=
  { b with
    halt := { b.halt with phase := .halting, psq := psq, cause := cause, flane := flane, nest := nest,
                          saveFrom := clock }
    eng := b.eng.pause clock
    squads := b.squads.map fun (n, q) =>
      (n, (q.broadcast (n = psq && flane = 0x7F)).mapLanes fun _ ln => { ln with resv := none }) }

/-- A halt of one gang member, seen by another (R435): it halts with no cause of its own. -/
def Block.beginHaltAs (b : Block) (clock : Nat) : Block :=
  match b.halt.phase with
  | .run => b.beginHalt 0xFF 0 0x7F false clock
  | _ => b

/-- A cause of a word takes the place of what halted its block in the same clock (R434, R436): it ranks higher, or equal from a
lower squad slot; or the halt reached the block from another member of its gang; or no word caused the halt. -/
def BlockHalt.yields (h : BlockHalt) (clock slot c : Nat) : Bool :=
  h.saveFrom = clock && !h.toSave &&
    (h.psq = 0xFF || (h.cause ≠ 0 &&
      (h.flane = 0x7F || causeKey c < causeKey h.cause || (c = h.cause && slot < h.psq))))

/-- A cause with no word that loses its clock to a word's cause stays pending (R436, R437). -/
def BlockHalt.defer (h : BlockHalt) : BlockHalt :=
  if h.psq = 0xFF || h.cause = 0 || h.flane ≠ 0x7F then h
  else match h.job with
    | some j => { h with job := none, pendJob := j :: h.pendJob }
    | none => { h with pendAsync := h.cause :: h.pendAsync }

/-- TAKING A CAUSE (R434, R435): a squad met `cs` (lane, code). The squad stops with its record, in supervisor mode
as in user mode (R446); the block and its gang halt. When the block is halting already, the squad records its own cause, and the
primary cause changes only for one of the same clock that goes before it; a word of the skid that raises counts as issued (R441). -/
def State.takeCausesAt (s : State) (q : Sel) (cs : List (Nat × Nat)) (epc va : DWord) (word : Bool) : State :=
  match s.block? q.blk with
  | none => s
  | some blk =>
    let clock := s.cyc q.stall q.core
    let (c, l) := primaryOf cs
    let sup := match Tab.find? blk.squads q.slot with
      | some sq => sq.sup
      | none => false
    let record (prim : Bool) (s : State) : State := s.modSquad q fun sq => { sq with hr := sq.hr.ofCauses cs epc va prim }
    match blk.halt.phase with
    | .halting =>
      if blk.halt.yields clock q.slot c then
        (record true s).modBlock q.blk fun b => { b with halt := { b.halt.defer with psq := q.slot, cause := c, flane := l, nest := sup } }
      else (record false s).modSquad q fun sq =>
        { sq with hr := { sq.hr with skid := if word then sq.hr.skid + 1 else sq.hr.skid } }
    | _ =>
      let s := s.modGang q.blk fun p b =>
        if p = q.blk then b.beginHalt q.slot c l sup clock else b.beginHaltAs clock
      record true s

/-- TAKING A CAUSE that the squad's word raised (R434, R435). -/
def State.takeCauses (s : State) (q : Sel) (cs : List (Nat × Nat)) (epc va : DWord) : State := s.takeCausesAt q cs epc va true

/-- A halt with no faulting word (R436, R437, R453): the primary squad is the lowest slot that is not empty. -/
def State.haltBlock (s : State) (b : BSel) (cause : Nat) : State :=
  match s.block? b with
  | none => s
  | some blk =>
    let clock := s.cyc b.stall b.core
    let psq := match List.find? (fun (x : Nat × Squad) => !x.2.lanes.isEmpty) blk.squads with
      | none => 0
      | some (n, _) => n
    s.modGang b fun p x => if p = b then x.beginHalt psq cause 0x7F false clock else x.beginHaltAs clock

/-- RETURN FROM A HALT (R447, action 0 and 1; R492): every squad of the block leaves the halt at its EPC in user mode with
its own scalar file, the primary squad at EPC + 8 for skip. -/
def Block.resume (b : Block) (skip : Bool) : Block :=
  { b with
    halt := { b.halt with phase := .run, cause := 0, job := none, nest := false, reply := none, rseq := none }
    squads := b.squads.map fun (n, q) =>
      (n, { q with
            pc := q.hr.epc + (if skip && n = b.halt.psq then 8 else 0)
            sup := false
            hr := { q.hr with stopped := false } }) }

end Machine

end Sys2Proof
end

