-- ==== Sys2Proof/Machine/Holders.lean ====
section
/-! DEFINITION. Sites, and the holders of a line's tokens: die caches, homes, and the sending of tokens (chapter 10, R270 to R275). The data of a line is held once, as the performed value in memory, since all valid copies
are equal (R271). -/

set_option Elab.async false

namespace Sys2Proof.Machine

open Sys2Proof

/-! ## Sites and local addresses (R15, R249) -/

/-- The site of a stall (R15). -/
def State.siteOf (s : State) (st : Nat) : Nat := field ((Tab.get 0 s.site st).zeroExtend 64) 6 0

/-- The state of a stall's site table entry: 0 unmapped, 1 active, 2 migrating, 3 down (R15). -/
def State.siteState (s : State) (st : Nat) : Nat := field ((Tab.get 0 s.site st).zeroExtend 64) 15 14

/-- A local address of a stall as a package physical address (R249). -/
def State.localPa (s : State) (st a : Nat) : Nat := s.siteOf st * 2 ^ 41 + a % 2 ^ 41

/-- The stall at a site, if a mapped entry names it. -/
def State.stallAt (s : State) (site : Nat) : Option Nat :=
  (List.range 64).find? fun st => s.siteState st ≠ 0 && s.siteOf st = site

/-- The stall that acts for the home of a line: the one at its site, else stall 0 before boot. -/
def State.homeStall (s : State) (line : Nat) : Nat := (s.stallAt (line * 64 / 2 ^ 41)).getD 0

/-- Whether a local address lies in DRAM (R249). -/
def inDram (a : Nat) : Bool := a < 0xC00000000

/-- The first local address of the stock. -/
def stockBase : Nat := 0x10000000000
/-- The first local address of the management page. -/
def mgmtBase : Nat := 0x1F000000000

/-- The bytes of a stall's stock carve-out (R260). -/
def Stall.stockSize (t : Stall) : Nat := field t.stock 3 0 * 32 * 2 ^ 20

/-- One 64-bit word of a stall's own DRAM. -/
def State.localDw (s : State) (st a : Nat) : DWord := BitVec.ofNat 64 (s.mem.num (s.localPa st a) 8)

/-- Whether a byte of a lost line is unwritten since (R266). -/
def State.lostByte (s : State) (pa : Nat) : Bool :=
  match Tab.find? s.lost (pa / 64) with
  | none => false
  | some m => !m.getLsbD (pa % 64)

/-- Whether an access needs a byte of a lost line. -/
def State.lostAny (s : State) (pa n : Nat) : Bool := (List.range n).any fun i => s.lostByte (pa + i)

/-! ## Reservations -/

/-- A performed write ends reservations on its lines (R289). -/
def Squad.endResv (q : Squad) (lines : List Nat) : Squad :=
  q.mapLanes fun _ ln => match ln.resv with
    | some r => if lines.contains r.line then { ln with resv := none } else ln
    | none => ln

/-- Reservations of a stall on lines end. -/
def Stall.endResv (t : Stall) (lines : List Nat) : Stall :=
  { t with cores := t.cores.map fun c => (c.1, { c.2 with blocks := c.2.blocks.map fun x =>
      (x.1, { x.2 with squads := x.2.squads.map fun y => (y.1, y.2.endResv lines) }) }) }

/-- Whether a reservation protects its line now (R291). -/
def Resv.guards (r : Resv) (line clock : Nat) : Bool :=
  r.line = line && match r.prot with
    | some c => clock < c + 64
    | none => false

/-- Whether a die cache defers requests for a line (R291). -/
def State.lineProtected (s : State) (st line : Nat) : Bool :=
  (s.stall st).cores.any fun c => c.2.blocks.any fun b => b.2.squads.any fun q => q.2.lanes.any fun l =>
    match l.2.resv with
    | some r => r.guards line (s.stall st).clock
    | none => false

/-! ## Die caches and homes -/

/-- A line that a die cache has not allocated. -/
def DcLine.empty : DcLine := ⟨0, false, false, false, .none, 0, false⟩

/-- A die cache's state of a line. -/
def State.dcLine (s : State) (st line : Nat) : DcLine := Tab.get DcLine.empty (s.stall st).dc line

/-- Replace a die cache's state of a line; a line that holds no token ends the stall's reservations on it (R289). -/
def State.putDc (s : State) (st line : Nat) (d : DcLine) : State :=
  s.modStall st fun t =>
    let t := { t with dc := Tab.set DcLine.empty t.dc line d }
    if d.t = 0 then t.endResv [line] else t

/-- The home's state of a line. -/
def State.homeLine (s : State) (line : Nat) : HomeLine := Tab.get HomeLine.reset s.home line

/-- Replace the home's state of a line. -/
def State.putHome (s : State) (line : Nat) (h : HomeLine) : State := { s with home := Tab.set HomeLine.reset s.home line h }

/-- Whether two lines compete for the ways of one set of the sharer hint's store (R275): 131,072 sets for each base die, by the low
bits of the line (log 48). -/
def sameHintSet (a b : Nat) : Bool := a / 2 ^ 35 = b / 2 ^ 35 && a % 131072 = b % 131072

/-- Whether a line's entry of the sharer hint stands in the set of another line. -/
def inHintSet (line : Nat) (x : Nat × HomeLine) : Bool := x.1 ≠ line && sameHintSet x.1 line && x.2.hint.isSome

/-- Store a hint entry: where its set is full, the entry of the lowest line makes room (R275, log 48). -/
def State.putHint (s : State) (line : Nat) (v : DWord) : State :=
  let rivals := s.home.filter (inHintSet line)
  let s := match rivals with
    | (l, h) :: _ => if 8 ≤ rivals.length then s.putHome l { h with hint := none } else s
    | [] => s
  s.putHome line { s.homeLine line with hint := some v }

/-- The stalls that a home takes for sharers of a line: without an entry, all of them (R275). -/
def HomeLine.sharers (h : HomeLine) : DWord := h.hint.getD (BitVec.allOnes 64)

/-- A home notes a sharer: where it holds all tokens and has no entry, a new one names it alone; where there is none for want of
ways, every bit counts as set already (R275). -/
def State.noteSharer (s : State) (line e : Nat) (whole : Bool) : State :=
  match (s.homeLine line).hint with
  | some v => s.putHint line (setBit v e true)
  | none => if whole then s.putHint line (BitVec.ofNat 64 (2 ^ e)) else s

/-- Send a message. -/
def State.send (s : State) (m : Msg) : State := { s with net := s.net ++ [m] }

/-- Send n tokens of a line from a die cache to a die cache or a home. -/
def State.sendTokens (s : State) (line n : Nat) (own data d all : Bool) (src dst : Nat) (home : Bool) : State :=
  s.send (.token line n own data d all src dst home)

/-- Send every token of a die cache's line; the line keeps what it waits for. -/
def State.dcSendAll (s : State) (st line : Nat) (all : Bool) (dst : Nat) (home : Bool) : State :=
  let x := s.dcLine st line
  if x.t = 0 then s
  else (s.sendTokens line x.t x.o (if all then x.o else x.v) x.d all st dst home).putDc st line
    { x with t := 0, o := false, v := false, d := false }

/-- Send every token of the home of a line to a die cache or to another home. -/
def State.homeSendAll (s : State) (line dst : Nat) (home : Bool) : State :=
  let h := s.homeLine line
  if h.t = 0 then s
  else (s.sendTokens line h.t h.o h.o false false (s.homeStall line) dst home).putHome line { h with t := 0, o := false }

/-! ## The capacity of a die cache (R270) -/

/-- The lines that a die cache holds: 48 MiB. -/
def dieCacheLines : Nat := 786432

/-- Whether a line may be evicted (R274). -/
def State.mayLeave (s : State) (st : Nat) (x : Nat × DcLine) : Bool :=
  1 ≤ x.2.t && x.2.miss = .none && !s.lineProtected st x.1

/-- Room for one more line in a full die cache: an HRO copy goes, or the lowest line that may be evicted is written back
(R264, R274; the order of replacement is the die cache's own, log 48). -/
def State.makeRoom (s : State) (st : Nat) : State :=
  let t := s.stall st
  if t.dc.length + t.hro.length < dieCacheLines then s
  else match t.hro with
    | (l, _) :: _ => s.modStall st fun t => { t with hro := t.hro.del l }
    | [] => match List.find? (s.mayLeave st) t.dc with
      | some (l, _) => s.dcSendAll st l true (s.homeStall l) true
      | none => s

/-- A die cache allocates a line, if it has not done so. -/
def State.allocate (s : State) (st line : Nat) : State :=
  if (Tab.find? (s.stall st).dc line).isSome then s else s.makeRoom st

/-- A die cache holds a copy of a line of an HRO page (R264). -/
def State.putHro (s : State) (st line : Nat) (bs : List Byte) : State :=
  (if (Tab.find? (s.stall st).hro line).isSome then s else s.makeRoom st).modStall st fun t => { t with hro := t.hro.put line bs }

/-! ## Persistent requests -/

/-- The active requester for a line as a stall's table has it (R277). -/
def Stall.active (t : Stall) (line : Nat) : Option (Nat × PKind) :=
  (List.find? (fun (e : Nat × PEnt) => decide (e.2.line = line)) t.ptab).map fun e => (e.1, e.2.kind)

/-- Whether a holder owes the tokens of a line to an active request that is not of the die cache of a stall (R278). -/
def Stall.claimed (t : Stall) (line st : Nat) : Bool :=
  match t.active line with
  | some (e, k) => e ≠ st || k = .home
  | none => false

end Sys2Proof.Machine
end

