-- ==== Sys2Proof/Machine/Lines.lean ====
section
/-! DEFINITION. Lines and their tokens: misses, persistent requests, buffered writes, and the reads of a stall's units (chapter 10,
R271 to R280, R295). -/

set_option Elab.async false

namespace Sys2Proof.Machine

open Sys2Proof

/-- Start a miss (R274): the line waits, and a transient request goes to the home. -/
def State.startMiss (s : State) (st line : Nat) (write : Bool) : State :=
  let s := s.allocate st line
  let x := s.dcLine st line
  let x' := { x with miss := if write then Miss.write else .read, timer := (s.stall st).clock, esc := false }
  (s.putDc st line x').send (.trans line write st (s.homeStall line) true)

/-- A local access without the tokens it needs (R274): a line that waits for as much already sends nothing. -/
def State.wantLine (s : State) (st line : Nat) (write : Bool) : State :=
  let x := s.dcLine st line
  if x.miss = .write || (x.miss = .read && !write) then s else s.startMiss st line write

/-- Whether what a line waits for is satisfied (R271). -/
def DcLine.satisfied (d : DcLine) : Bool :=
  match d.miss with
  | .none => false
  | .read => 1 ≤ d.t && d.v
  | .write => d.t = 64

/-! ## Buffered writes (R295) -/

/-- Write bytes of device memory for an agent of a stall, of a job the squad that issued it: they enter the stall write buffer,
line by line (R295). -/
def State.bufferBytes (s : State) (st : Nat) (src : Option Sel) (pa : Nat) (bs : List Byte) : State :=
  (linesOf pa bs.length).foldl (fun s l =>
    let lo := max pa (l * 64)
    let hi := min (pa + bs.length) (l * 64 + 64)
    { (s.modStall st fun t =>
        { (t.note [.dev l]) with wbuf := t.wbuf ++ [⟨s.nextId, s.nextId, src, lo, sliceBytes bs (lo - pa) (hi - lo)⟩] }) with
      nextId := s.nextId + 1 }) s

/-- A byte of device memory as an agent of the stall sees it: the newest buffered write, else the performed value (R295). -/
def State.seenByte (s : State) (st pa : Nat) : Byte :=
  ((s.stall st).wbuf.foldl (fun (v : Byte) w => if w.pa ≤ pa && pa < w.pa + w.bytes.length then w.bytes.getD (pa - w.pa) 0 else v)
    (s.mem.rd pa))

/-- Whether a stall's write buffer holds a byte. -/
def Stall.buffersByte (t : Stall) (pa : Nat) : Bool := t.wbuf.any fun w => w.pa ≤ pa && pa < w.pa + w.bytes.length

/-- Whether an agent of the stall that reads bytes of device memory meets a lost one: a byte that a buffered write holds is not lost
to it (R266, R295). -/
def State.lostSeen (s : State) (st pa n : Nat) : Bool :=
  (List.range n).any fun i => s.lostByte (pa + i) && !(s.stall st).buffersByte (pa + i)

/-- n bytes of device memory as the stall sees them. -/
def State.seenBytes (s : State) (st pa n : Nat) : List Byte := (List.range n).map fun i => s.seenByte st (pa + i)

/-! ## Persistent requests (R277, R278) -/

/-- A stall's die cache, and its home where the line's home is there, send every token of a line to the active requester: to
its home for KIND home, else to its die cache. A holder that is the requester itself keeps them. -/
def State.forward (s : State) (st line : Nat) : State :=
  match (s.stall st).active line with
  | none => s
  | some (e, kind) =>
    let toHome := kind = .home
    let s := if (e = st && !toHome) || s.lineProtected st line then s else s.dcSendAll st line false e toHome
    if s.homeStall line = st && !(e = st && toHome) then s.homeSendAll line e toHome else s

/-- Send one message to each of the 64 stalls. -/
def State.toAll (s : State) (m : Nat → Msg) : State := { s with net := s.net ++ (List.range 64).map m }

/-- A stall's entry takes its oldest waiting request once the entry is free and the request's marked set is empty. -/
def State.escalate (s : State) (st : Nat) : State :=
  let t := s.stall st
  match t.preq, t.pwait with
  | none, (line, kind) :: rest =>
    if (Tab.get [] t.marked line).isEmpty then
      (s.modStall st fun t => { t with preq := some ⟨line, kind, 64, 64, false, false⟩, pwait := rest }).toAll
        fun x => .activate st line kind x
    else s
  | _, _ => s

/-- Put a request behind those that wait. -/
def State.askPersistent (s : State) (st line : Nat) (kind : PKind) : State :=
  let t := s.stall st
  if t.pwait.contains (line, kind) || (match t.preq with
      | some p => p.line = line && p.kind = kind && !p.performed
      | none => false) then s
  else (s.modStall st fun t => { t with pwait := t.pwait ++ [(line, kind)] }).escalate st

/-- A stall deactivates its request once the access is performed and every activation is acknowledged: it marks the stalls
whose entries for the line are valid. -/
def State.progress (s : State) (st : Nat) : State :=
  let t := s.stall st
  match t.preq with
  | none => s
  | some p =>
    if p.performed && p.actAcks = 0 && !p.deact then
      (s.modStall st fun t => { t with
        preq := some { p with deact := true }
        marked := t.marked.put p.line ((t.ptab.filter fun e => e.2.line = p.line).map (·.1)) }).toAll fun x => .deactivate st x
    else if p.deact && p.deactAcks = 0 then (s.modStall st fun t => { t with preq := none }).escalate st
    else s

/-- The access a stall's request was made for is performed, or no longer waited for. -/
def State.served (s : State) (st line : Nat) (home : Bool) : State :=
  let isIt (k : PKind) : Bool := (k = .home) == home
  (s.modStall st fun t => { t with
    pwait := t.pwait.filter fun w => !(w.1 = line && isIt w.2)
    preq := match t.preq with
      | some p => if p.line = line && isIt p.kind then some { p with performed := true } else some p
      | none => none }).progress st

/-! ## Reads by a stall's units (R258, R271, R274)

The walks, the fetch of words, the texture and ray units, copies, collectives and the scheduler read device memory under a token of
the die cache. A unit that misses asks for the line and tries again; its line stays in the die cache for it when it has come, until
the unit has read it, or has not asked for 512 clocks (log 25). -/

/-- Whether a unit that asked for a line is still to read it. -/
def Stall.wanted (t : Stall) (line : Nat) : Bool :=
  match Tab.find? t.want line with
  | some c => t.clock < c + 512
  | none => false

/-- A die cache's miss is over; for a unit that still has to read the line, a read of it goes on waiting. -/
def State.missDone (s : State) (st line : Nat) : State :=
  let x := s.dcLine st line
  let wanted := (s.stall st).wanted line
  if wanted && x.miss = .read then s
  else (s.putDc st line { x with miss := if wanted then .read else .none, timer := 0, esc := false }).served st line false

/-- A miss that is satisfied is over. -/
def State.settleMiss (s : State) (st line : Nat) : State := if (s.dcLine st line).satisfied then s.missDone st line else s

/-- Whether a stall's die cache holds a token of a line with its data. -/
def State.readable (s : State) (st line : Nat) : Bool := 1 ≤ (s.dcLine st line).t && (s.dcLine st line).v

/-- Whether every line of a range of device memory can be read. -/
def State.readableAt (s : State) (st pa n : Nat) : Bool := (linesOf pa n).all fun l => s.readable st l

/-- The code that stands for no cause: an access that waits, and with it the word or job that needs it. -/
def waitCode : Nat := 0x100

/-- The code of an access that waits for a token of a line. -/
def waitOn (line : Nat) : Nat := waitCode + 1 + line

/-- Whether a code stands for no cause. -/
def isWait (c : Nat) : Bool := waitCode ≤ c

/-- The code of a read of a range of device memory that waits. -/
def State.missCode (s : State) (st pa n : Nat) : Nat :=
  match (linesOf pa n).find? fun l => !s.readable st l with
  | some l => waitOn l
  | none => waitCode

/-- A unit asks for a line: a local read of the die cache, which misses (R274). -/
def State.askLine (s : State) (st line : Nat) : State :=
  if s.readable st line then s
  else (s.modStall st fun t => { t with want := t.want.put line t.clock }).wantLine st line false

/-- A unit asks for what a code waits for. -/
def State.askFor (s : State) (st code : Nat) : State := if waitCode < code then s.askLine st (code - (waitCode + 1)) else s

/-- A unit asks for the lines of a range of device memory that it cannot read yet. -/
def State.askAt (s : State) (st pa n : Nat) : State := (linesOf pa n).foldl (fun s l => s.askLine st l) s

/-- A unit has read a line. -/
def State.takeRead (s : State) (st line : Nat) : State :=
  if (Tab.find? (s.stall st).want line).isSome then
    (s.modStall st fun t => { t with want := t.want.del line }).settleMiss st line
  else s

/-- A unit has read several lines. -/
def State.takeReads (s : State) (st : Nat) (lines : List Nat) : State := lines.foldl (fun s l => s.takeRead st l) s

end Sys2Proof.Machine
end

