-- ==== Sys2Proof/Machine/Flags.lean ====
section
/-! DEFINITION. The floating-point control register: rounding mode, enables and sticky flags (R110 to R112). -/

set_option Elab.async false

namespace Sys2Proof.Machine

open Sys2Proof

/-- The mode of FPC.RM (R110). -/
def fpcMode (fpc : Word) : RMode := RMode.ofBits (fpc.extractLsb' 16 2)

/-- The exceptions in the order of their causes 0x11 to 0x15. -/
def flList (f : Fl) : List (Nat × Bool) := [(0, f.nv), (1, f.dz), (2, f.ovf), (3, f.uf), (4, f.nx)]

/-- The lowest cause of an exception met whose enable is set (R111): enables stand at bits 8 to 12. -/
def fpCause (fpc : Word) (f : Fl) : Option Nat :=
  ((flList f).find? fun e => e.2 && fpc.getLsbD (8 + e.1)).map fun e => 0x11 + e.1

/-- The flag bits of exceptions: NV 0, DZ 1, OF 2, UF 3, NX 4. -/
def flBits (f : Fl) : Word :=
  (flList f).foldl (fun w e => if e.2 then w ||| BitVec.ofNat 32 (2 ^ e.1) else w) 0

/-- A write of FPC (R110, R112): RM and the enables are replaced, a 1 in a flag bit clears it, the rest reads zero. -/
def fpcWritten (old v : Word) : Word := (v &&& 0x00031F00) ||| (old &&& 0x1F &&& ~~~v)

/-- The flags owed up to a clock are set. -/
def Fpc.land (f : Fpc) (now : Nat) : Fpc :=
  { f with val := (f.due.filter fun x => x.1 ≤ now).foldl (fun v x => v ||| x.2) f.val, due := f.due.filter fun x => now < x.1 }

/-- The writes made take effect, in the order of their issue slots (R156). -/
def Fpc.take (f : Fpc) : Fpc := { f with val := f.wr.foldl (fun v x => fpcWritten v x.2.2) f.val, wr := [] }

/-- FPC as a clock finds it: the writes of an earlier clock have taken effect, after the flags set by then (R112, R156). -/
def Fpc.settle (f : Fpc) (now : Nat) : Fpc :=
  match f.wr with
  | [] => f.land now
  | (c, _) :: _ => if c < now then ((f.land c).take).land now else f.land now

/-- FPC as a word of an issue slot reads it: words of other slots in the clock of a write see the value before it (R156). -/
def Fpc.view (f : Fpc) (now islot : Nat) : Word :=
  let g := f.settle now
  (g.wr.filter fun x => x.2.1 = islot).foldl (fun v x => fpcWritten v x.2.2) g.val

/-- A word of an issue slot writes FPC. -/
def Fpc.write (f : Fpc) (now islot : Nat) (v : Word) : Fpc :=
  let g := f.settle now
  { g with wr := insertBy (fun x => x.2.1) (now, islot, v) g.wr }

/-- Flags that are owed until a clock (R112). -/
def Fpc.owe (f : Fpc) (now at' : Nat) (bits : Word) : Fpc :=
  let g := f.settle now
  { g with due := g.due ++ [(at', bits)] }

/-- Flags that are set now (R112). A write of the same clock that has not taken effect yet does not clear them. -/
def Fpc.set (f : Fpc) (now : Nat) (bits : Word) : Fpc :=
  let g := f.settle now
  if g.wr = [] then { g with val := g.val ||| bits } else { g with due := g.due ++ [(now + 1, bits)] }

/-- Everything owed and written has taken effect. -/
def Fpc.rest (f : Fpc) : Word :=
  match f.wr with
  | [] => f.due.foldl (fun v x => v ||| x.2) f.val
  | (c, _) :: _ => let g := (f.land c).take
    g.due.foldl (fun v x => v ||| x.2) g.val

/-- FPC with a value and nothing owed. -/
def Fpc.of (v : Word) : Fpc := ⟨v, [], []⟩

/-- Set the flags of a result that returns in a block's FPC (R111, R112). -/
def State.setFlags (s : State) (b : BSel) (f : Fl) : State :=
  if f = Fl.none then s else s.modBlock b fun k => { k with fpc := k.fpc.set (s.cyc b.stall b.core) (flBits f) }

/-- The clocks after which a fixed-latency word has completed, at most: the greatest result timing of R121 behind the greatest
occupancy, with the clocks of R115. -/
def maxLatency : Nat := 128

/-- The clock in which a fixed-latency word that issues now completes: the model counts no occupancy, and leaves it free within
that bound (log 45). -/
def State.completion (s : State) (b : BSel) : Nat :=
  s.cyc b.stall b.core + (Config.freeWord s.free).toNat % (maxLatency + 1)

/-- The flags of a fixed-latency word are owed until it completes (R112). -/
def State.oweFlags (s : State) (b : BSel) (f : Fl) : State :=
  if f = Fl.none then s
  else s.modBlock b fun k => { k with fpc := k.fpc.owe (s.cyc b.stall b.core) (s.completion b) (flBits f) }

/-- The rounding a word applies in a lane (R66, R106): the override, stochastic from the stepped state, or FPC; and the
stepped state. -/
def rounding (fpc : Word) (e : Ext) (rnd : Word) : RMode × Nat × Option Word :=
  if e.sre then
    let r := srStep rnd
    (.sr, srBits r, some r)
  else if e.rmo then (RMode.ofBits e.rm, 0, none)
  else (fpcMode fpc, 0, none)

end Sys2Proof.Machine
end

