-- ==== Sys2Proof/Machine/IntAlu.lean ====
section
/-! DEFINITION. The integer group as functions of register values (chapter 05, R122 to R131). -/

set_option Elab.async false

namespace Sys2Proof

/-- N of a type. -/
def ITy.bits' (ty : ITy) : Nat := if ty.wide then 64 else 32

/-- The exact value of the low N bits (R101). -/
def ITy.val (ty : ITy) (w : DWord) : Int :=
  match ty with
  | .i32 => (w.extractLsb' 0 32).toInt
  | .n32 => (w.extractLsb' 0 32).toNat
  | .i64 => w.toInt
  | .n64 => w.toNat

/-- The lowest value of a type. -/
def ITy.lo : ITy → Int
  | .i32 => -2 ^ 31
  | .i64 => -2 ^ 63
  | _ => 0

/-- The highest value of a type. -/
def ITy.hi : ITy → Int
  | .i32 => 2 ^ 31 - 1
  | .n32 => 2 ^ 32 - 1
  | .i64 => 2 ^ 63 - 1
  | .n64 => 2 ^ 64 - 1

/-- Clamp to a range. -/
def clampInt (lo hi v : Int) : Int := if v < lo then lo else if hi < v then hi else v

/-- An exact value into a register image, saturated where asked (R123). -/
def ITy.put (ty : ITy) (sat : Bool) (v : Int) : DWord :=
  let v := if sat then clampInt ty.lo ty.hi v else v
  if ty.wide then BitVec.ofInt 64 v else (BitVec.ofInt 32 v).zeroExtend 64

/-- IMM20 extended by type (R122). -/
def ITy.imm (ty : ITy) (v : BitVec 20) : DWord :=
  match ty with
  | .i32 => (v.signExtend 32).zeroExtend 64
  | .i64 => v.signExtend 64
  | _ => v.zeroExtend 64

/-- The low N bits as a bit vector of 64, the rest zero. -/
def ITy.cut (ty : ITy) (w : DWord) : DWord := if ty.wide then w else (w.extractLsb' 0 32).zeroExtend 64

/-- floor(a × b / 2^N) (R123). -/
def ITy.mulHi (ty : ITy) (a b : Int) : Int := (a * b).fdiv (2 ^ ty.bits')

/-- The quotient, truncated; the divisor is not zero (R124). -/
def ITy.quot (ty : ITy) (sat : Bool) (a b : Int) : DWord := ty.put sat (a.tdiv b)

/-- Shift left (R125). -/
def ITy.shl (ty : ITy) (a : DWord) (c : Nat) : DWord := if ty.bits' ≤ c then 0 else ty.cut (a <<< c)

/-- Logical shift right (R125). -/
def ITy.shr (ty : ITy) (a : DWord) (c : Nat) : DWord := if ty.bits' ≤ c then 0 else ty.cut a >>> c

/-- Arithmetic shift right, the source read signed (R125). -/
def ITy.sar (ty : ITy) (a : DWord) (c : Nat) : DWord :=
  if ty.wide then a.sshiftRight (min c 63) else ((a.extractLsb' 0 32).sshiftRight (min c 31)).zeroExtend 64

/-- Rotate left (R125). -/
def ITy.rot (ty : ITy) (a : DWord) (c : Nat) : DWord :=
  if ty.wide then a.rotateLeft (c % 64) else ((a.extractLsb' 0 32).rotateLeft (c % 32)).zeroExtend 64

/-- The number of set bits among the low k bits. -/
def popGo (w : DWord) : Nat → Nat
  | 0 => 0
  | k + 1 => popGo w k + (if w.getLsbD k then 1 else 0)

/-- The number of leading zeros among the low k bits. -/
def clzGo (w : DWord) : Nat → Nat
  | 0 => 0
  | k + 1 => if w.getLsbD k then 0 else clzGo w k + 1

/-- The low k bits reversed. -/
def brevGo (w : DWord) : Nat → Nat
  | 0 => 0
  | k + 1 => 2 * brevGo w k + (if w.getLsbD k then 1 else 0)

/-- popc (R126). -/
def ITy.popc (ty : ITy) (a : DWord) : DWord := BitVec.ofNat 64 (popGo a ty.bits')
/-- clz (R126). -/
def ITy.clz (ty : ITy) (a : DWord) : DWord := BitVec.ofNat 64 (clzGo a ty.bits')
/-- brev (R126). -/
def ITy.brev (ty : ITy) (a : DWord) : DWord := BitVec.ofNat 64 (brevGo a ty.bits')

/-- The position and width of a field specifier, the width cut to the register (R127). -/
def fieldSpec (n spec : Nat) : Nat × Nat :=
  let pos := spec % 256
  let w := spec / 256 % 256
  if n ≤ pos || w = 0 then (pos, 0) else (pos, min w (n - pos))

/-- Bit field extract (R127). -/
def ITy.bfx (ty : ITy) (a : DWord) (spec : Nat) : DWord :=
  let (pos, w) := fieldSpec ty.bits' spec
  if w = 0 then 0
  else
    let f := a.toNat / 2 ^ pos % 2 ^ w
    ty.put false (if ty.signed && f.testBit (w - 1) then (f : Int) - 2 ^ w else f)

/-- Bit field insert (R127). -/
def ITy.bfi (ty : ITy) (a b : DWord) (spec : Nat) : DWord :=
  let (pos, w) := fieldSpec ty.bits' spec
  let m : DWord := BitVec.ofNat 64 ((2 ^ w - 1) * 2 ^ pos)
  ty.cut ((b &&& ~~~m) ||| ((a <<< pos) &&& m))

/-- A condition of cmp (R128). -/
def ICond.holds (c : ICond) (a b : Int) : Bool :=
  match c with
  | .eq => a = b
  | .ne => a ≠ b
  | .lt => a < b
  | .le => a ≤ b
  | .gt => b < a
  | .ge => b ≤ a

/-- Integer atomics (R285, R191): old, operand, compare (for cas, the operand is the new value). -/
def AOp.apply (op : AOp) (ty : ITy) (old b cmp : DWord) : DWord :=
  match op with
  | .add => ty.put false (ty.val old + ty.val b)
  | .min => if ty.val b < ty.val old then ty.cut b else ty.cut old
  | .max => if ty.val old < ty.val b then ty.cut b else ty.cut old
  | .and => ty.cut (old &&& b)
  | .or => ty.cut (old ||| b)
  | .xor => ty.cut (old ^^^ b)
  | .xchg => ty.cut b
  | .cas => if ty.cut old = ty.cut cmp then ty.cut b else ty.cut old

end Sys2Proof
end

