-- ==== Sys2Proof/Machine/Operands.lean ====
section
/-! DEFINITION. Operands: reading and writing registers, predicates and scalars, the checks of R72, R76 and R78, and active
lanes. -/

set_option Elab.async false

namespace Sys2Proof

/-- A vector register. -/
def Opnd.isVec : Opnd → Bool
  | .vec _ => true
  | _ => false

/-- A scalar register. -/
def Opnd.isSca : Opnd → Bool
  | .sca _ => true
  | _ => false

/-- A scalar register or zero. -/
def Opnd.scaOrZero : Opnd → Bool
  | .sca _ => true
  | .zero => true
  | _ => false

/-- An operand that is no vector register: scalar or special (R116). -/
def Opnd.uniform (o : Opnd) : Bool := !o.isVec

namespace Machine

/-- One operand as a word uses it: how many registers from it, their alignment, and whether it is written. -/
structure Use where
  o : Opnd
  n : Nat
  al : Nat
  w : Bool
deriving DecidableEq, Repr

/-- A 32-bit source. -/
def Use.r (o : Opnd) : Use := ⟨o, 1, 1, false⟩
/-- A 32-bit destination. -/
def Use.w1 (o : Opnd) : Use := ⟨o, 1, 1, true⟩
/-- A source pair. -/
def Use.r2 (o : Opnd) : Use := ⟨o, 2, 2, false⟩
/-- A destination pair. -/
def Use.w2 (o : Opnd) : Use := ⟨o, 2, 2, true⟩
/-- A source of 1 or 2 registers. -/
def Use.rw' (wide : Bool) (o : Opnd) : Use := if wide then .r2 o else .r o
/-- A destination of 1 or 2 registers. -/
def Use.ww (wide : Bool) (o : Opnd) : Use := if wide then .w2 o else .w1 o

/-- Whether a use raises 0x03 under R72 with budget b. -/
def Use.bad (b : Nat) (u : Use) : Bool :=
  match u.o with
  | .vec k => k % u.al ≠ 0 || b < k.val + u.n
  | .sca k => k % u.al ≠ 0 || 48 < k.val + u.n
  | .zero => false
  | .rsv _ => true
  | .argl => u.w || 2 < u.n
  | _ => u.w || 1 < u.n

/-- The registers a use names: true for scalar. -/
def Use.regs (u : Use) : List (Bool × Nat) :=
  match u.o with
  | .vec k => (List.range u.n).map fun i => (false, k.val + i)
  | .sca k => (List.range u.n).map fun i => (true, k.val + i)
  | _ => []

/-- What the shared issue operation checks of a word before its effect (R72, R76, R78, R81, R82): its operands, whether it
reduces lanes into a scalar, a further 0x03, 0x04 or 0x07 of its entry, whether it is privileged, and whether it counts as
reading every register. -/
structure WordUse where
  uses : List Use
  reduce : Bool := false
  bad : Bool := false
  pairing : Bool := false
  loop : Bool := false
  priv : Bool := false
  all : Bool := false
deriving DecidableEq, Repr

/-- The 0x03 of mixing a scalar destination with a vector source (R72). -/
def mixes (us : List Use) : Bool := us.any (fun u => u.w && u.o.isSca) && us.any (fun u => !u.w && u.o.isVec)

/-- The use of a last source of 1 or 2 registers. -/
def riUse (wide : Bool) : RI → List Use
  | .reg o => [.rw' wide o]
  | .imm _ => []

/-- What a word sees when it issues: the state, its squad, and the present and active lanes of the issuing group. -/
structure Ctx where
  s : State
  q : Sel
  blk : Block
  sq : Squad
  present : List (Nat × Lane)
  act : List (Nat × Lane)
deriving DecidableEq, Repr

/-- Whether a lane reads a source predicate as true (R117). -/
def Lane.pred (ln : Lane) (n : BitVec 3) : Bool := if n = 7 then true else ln.p.getLsbD n.toNat

/-- A guard or predicate specifier in a lane. -/
def Lane.spec (ln : Lane) (p : PSpec) : Bool := ln.pred p.pn != p.neg

/-- Write a predicate; p7 discards (R117). -/
def Lane.setPred (ln : Lane) (n : BitVec 3) (v : Bool) : Lane :=
  if n = 7 then ln
  else
    let m : BitVec 7 := BitVec.ofNat 7 (2 ^ n.toNat)
    { ln with p := if v then ln.p ||| m else ln.p &&& ~~~m }

/-- The lanes of the issuing group (R9, R171). -/
def Squad.issuing (q : Squad) : List (Nat × Lane) := q.lanes.filter fun l => l.2.at' = .issue

/-- What a word with a guard sees, or none where no squad is resident: a core has 16 positions for blocks (R43). -/
def Ctx.of (s : State) (h : Hdr) : Option Ctx :=
  if 16 ≤ s.cur.pos then none
  else match s.block? s.cur.blk with
    | none => none
    | some blk =>
      match Tab.find? blk.squads s.cur.slot with
      | none => none
      | some sq =>
        let pr := sq.issuing
        some ⟨s, s.cur, blk, sq, pr, pr.filter fun l => l.2.spec ⟨h.neg, h.pn⟩⟩

/-- FPC as the word reads it (R112, R156). -/
def Ctx.fpc (c : Ctx) : Word := c.blk.fpc.view (c.s.cyc c.q.stall c.q.core) c.q.islot

/-- The budget of the issuing squad (R42). -/
def Ctx.budget (c : Ctx) : Nat := c.blk.kern.budget c.sq.role

/-- A scalar register as the squad's mode reads it (R446). -/
def Ctx.sca (c : Ctx) (n : Nat) : Word :=
  if c.sq.sup then Tab.get 0 (Tab.get [] (c.s.core c.q.stall c.q.core).supFile c.q.islot) n
  else Tab.get 0 c.sq.sca n

/-- A 32-bit operand in a lane (R38, R71). -/
def Ctx.rd (c : Ctx) (l : Nat) (ln : Lane) : Opnd → Word
  | .vec n => Tab.get 0 ln.v n
  | .sca n => c.sca n
  | .zero => 0
  | .laneid => BitVec.ofNat 32 l
  | .quadid => BitVec.ofNat 32 (l % 4)
  | .squadid => BitVec.ofNat 32 c.q.slot
  | .blockid => BitVec.ofNat 32 c.blk.index
  | .tid => BitVec.ofNat 32 ln.tid
  | .argl => lo32 c.blk.arg
  | .argh => hi32 c.blk.arg
  | .rsv _ => 0

/-- Register k of the range from an operand; argl as a pair is the whole argument pointer (R72). -/
def Ctx.rdAt (c : Ctx) (ln : Lane) (o : Opnd) (k : Nat) : Word :=
  match o with
  | .vec n => Tab.get 0 ln.v (n + k)
  | .sca n => c.sca (n + k)
  | .argl => if k = 0 then lo32 c.blk.arg else if k = 1 then hi32 c.blk.arg else 0
  | _ => 0

/-- A 64-bit operand in a lane (R72). -/
def Ctx.rd64 (c : Ctx) (ln : Lane) : Opnd → DWord
  | .argl => c.blk.arg
  | o => pair64 (c.rdAt ln o 0) (c.rdAt ln o 1)

/-- An operand of 32 or 64 bits, zero-extended. -/
def Ctx.rdW (c : Ctx) (wide : Bool) (l : Nat) (ln : Lane) (o : Opnd) : DWord :=
  if wide then c.rd64 ln o else (c.rd l ln o).zeroExtend 64

/-- The last source of an integer instruction: a register, or IMM20 extended by type (R122). -/
def Ctx.rdRI (c : Ctx) (ty : ITy) (l : Nat) (ln : Lane) : RI → DWord
  | .reg o => c.rdW ty.wide l ln o
  | .imm v => ty.imm v

/-- A 32-bit last source whose immediate is zero-extended. -/
def Ctx.rdN (c : Ctx) (l : Nat) (ln : Lane) : RI → Word
  | .reg o => c.rd l ln o
  | .imm v => v.zeroExtend 32

/-- A value as its words. -/
def wordsOf (wide : Bool) (d : DWord) : List Word := if wide then [lo32 d, hi32 d] else [lo32 d]

/-- Write words to consecutive entries of a register file. -/
def putWords (t : Tab Word) (k : Nat) : List Word → Tab Word
  | [] => t
  | w :: ws => putWords (Tab.set 0 t k w) (k + 1) ws

/-- Write a vector destination in a lane; every other operand discards here (R71, R118). -/
def Lane.write (ln : Lane) (o : Opnd) (ws : List Word) : Lane :=
  match o with
  | .vec k => { ln with v := putWords ln.v k ws }
  | _ => ln

/-- Write a scalar destination in the file of the squad's mode (R446). -/
def State.writeSca (s : State) (q : Sel) (sup : Bool) (o : Opnd) (ws : List Word) : State :=
  match o with
  | .sca k =>
    if sup then s.modCore q.stall q.core fun c =>
      { c with supFile := c.supFile.put q.islot (putWords (Tab.get [] c.supFile q.islot) k ws) }
    else s.modSquad q fun sq => { sq with sca := putWords sq.sca k ws }
  | _ => s

/-- What one lane writes: words to the destination, predicates, its random state, and the exceptions it met. -/
structure LaneOut where
  ws : List Word := []
  ps : List (BitVec 3 × Bool) := []
  rnd : Option Word := none
  fl : Fl := Fl.none
deriving DecidableEq, Repr

/-- A lane's result applied to its registers. -/
def Lane.apply (ln : Lane) (d : Opnd) (o : LaneOut) : Lane :=
  let ln := ln.write d o.ws
  let ln := o.ps.foldl (fun ln p => ln.setPred p.1 p.2) ln
  match o.rnd with
  | none => ln
  | some r => { ln with rnd := r }

/-- The lane that acts where a word acts once (R491): the lowest active lane that is no helper, else the lowest. -/
def Ctx.acting (c : Ctx) : Option (Nat × Lane) :=
  match c.act.find? fun l => !l.2.helper with
  | some l => some l
  | none => c.act.head?

/-- The lowest active lane that is no helper. -/
def Ctx.real (c : Ctx) : Option (Nat × Lane) := c.act.find? fun l => !l.2.helper

/-- A result in flight that occupies a register (R77). A fence and a result whose destination is zero occupy none. -/
def Flight.named (f : Flight) : Bool := !f.dst.isEmpty

/-- Whether a result that a marked word waits for is still to return (R77). -/
def Squad.awaited (q : Squad) : Bool := q.flight.any fun f => f.named && !f.ret

/-- The word's lowest decode cause among 0x03, 0x04, 0x07, 0x08, 0x09 (R82). -/
def WordUse.cause (u : WordUse) (c : Ctx) (sbit : Bool) : Option Nat :=
  if u.bad || u.uses.any (Use.bad c.budget) || (!u.reduce && mixes u.uses) then some 0x03
  else if u.pairing then some 0x04
  else if u.loop then some 0x07
  else if u.priv && !c.sq.sup then some 0x08
  else if !sbit && c.sq.flight.any (fun f => (u.all && f.named) || f.dst.any fun r => u.uses.any fun x => x.regs.contains r) then some 0x09
  else none

end Machine

end Sys2Proof
end

