-- ==== Sys2Proof/Machine/Issue.lean ====
section
/-! DEFINITION. The issue of a word: what is common to every word instruction (chapters 03, 05, 06, 16). -/

set_option Elab.async false

namespace Sys2Proof.Machine

open Sys2Proof

/-- What a word's own effect answers: it took effect and the squad goes on at PC + 8; it took effect and set the PC itself, or
has done all that follows a word itself; it holds its issue slot and has not taken effect (with or without a credit of the mesh); it parks its squad and has not taken effect; or lanes raised causes (with
the virtual address of the primary lane's access). -/
inductive Res where
  | ok (s : State)
  | at' (s : State)
  | over (s : State)
  | hold
  | holdCredit
  | park (p : Park)
  | raise (cs : List (Nat × Nat)) (va : DWord)
deriving DecidableEq, Repr

/-! ## Groups and loops -/

/-- The PC behind the body of a loop (R174). -/
def Loop.endPc (l : Loop) : DWord := l.first + BitVec.ofNat 64 (8 * l.len)

/-- Whether a PC lies in the body of a loop. -/
def Loop.holds (l : Loop) (pc : DWord) : Bool := l.first ≤ pc && pc < l.endPc

/-- The innermost active loop that a lane has entered; each active loop has a counter of its own (R174). -/
def Squad.loopOf (q : Squad) (l : Nat) : Option Loop := q.loops.find? fun x => x.entered.contains l

/-- Whether the issuing group is inside a loop body: a lane of it has entered an active loop (R175, log 37). -/
def Squad.inBody (q : Squad) : Bool := q.lanes.any fun l => l.2.at' = .issue && (q.loopOf l.1).isSome

/-- The issuing lanes that have entered a loop wait at its body's end when the PC has reached it in straight-line order (R175). -/
def Squad.fallEnd (q : Squad) : Squad :=
  if q.loops.any fun x => x.endPc = q.pc then
    q.mapLanes fun l ln => match q.loopOf l with
      | some x => if ln.at' = .issue && x.endPc = q.pc then { ln with at' := .atEnd x.ctr } else ln
      | none => ln
  else q

/-- A held lane that may issue now: the loops whose bodies it has left have ended and it waits at no barrier (R172, R176). -/
def Lane.eligible (ln : Lane) : Option DWord :=
  match ln.at' with
  | .held h => if h.left = [] && h.bar = none then some h.pc else none
  | _ => none

/-- The lowest PC among the held groups that may issue. -/
def Squad.lowestHeld (q : Squad) : Option DWord :=
  (minBy BitVec.toNat (q.lanes.filterMap fun l => l.2.eligible))

/-- The held groups at the squad's PC join the issuing group (R172, step 2). -/
def Squad.join (q : Squad) : Squad :=
  q.mapLanes fun _ ln => if ln.eligible = some q.pc then { ln with at' := .issue } else ln

/-- Which group issues next (R172, steps 2 and 3). -/
def Squad.settle (q : Squad) : Squad :=
  if q.issuing.isEmpty then
    match q.lowestHeld with
    | none => q
    | some pc => { q with pc := pc }.join
  else q.join

/-- Advance past the word. -/
def Squad.advance (q : Squad) : Squad := { q with pc := q.pc + 8, point := none }.fallEnd

/-! ## After a word -/

/-- The bookkeeping after every word: the PC, the issuing group, the clock of issue (R357), the skid count (R435, R441), and
whether the halt of a single step is due (R459). -/
def State.wordDone (s : State) (q : Sel) (adv : Bool) : State :=
  let clock := s.cyc q.stall q.core
  let skid : Bool := match s.block? q.blk with
    | some b => b.halt.phase == .halting
    | none => false
  s.modSquad q fun sq =>
    let sq := if adv then sq.advance else sq
    let sq := sq.settle
    { sq with issued := clock, stepped := sq.step && !sq.sup && !sq.hr.stopped && !sq.lanes.isEmpty,
              hr := { sq.hr with skid := if skid && !sq.hr.stopped then sq.hr.skid + 1 else sq.hr.skid } }

/-- A decode or fetch cause: in every present lane of the issuing group (R82). -/
def Ctx.raiseAll (c : Ctx) (code : Nat) : State := c.s.takeCauses c.q (c.present.map fun l => (l.1, code)) c.sq.pc 0

/-- Park the squad. -/
def Ctx.park (c : Ctx) (p : Park) : State := c.s.modSquad c.q fun sq => { sq with park := p }

/-- Whether a lane's access waits (R271): no cause. -/
def anyWaits (cs : List (Nat × Nat)) : Bool := cs.any fun x => isWait x.2

/-- A word whose accesses wait asks for their lines (R274) and holds its issue slot (R157). -/
def Ctx.await (c : Ctx) (codes : List Nat) : State :=
  { c with s := codes.foldl (fun s e => s.askFor c.q.stall e) c.s }.park (.slot false)

/-- The causes of a word are taken, unless an access waits still. -/
def Ctx.raise (c : Ctx) (cs : List (Nat × Nat)) (va : DWord) : State :=
  if anyWaits cs then c.await (cs.map (·.2)) else c.s.takeCauses c.q cs c.sq.pc va

/-- A word that the accesses before it hold: behind a qget that waits, its squad waits for the answer and leaves its issue slot to others
(R364); else it holds the slot (R157). -/
def Ctx.holdBehind (c : Ctx) : Res := if c.sq.asks.isEmpty then .hold else .park .answer

/-- The end of a word, by what its effect answered. -/
def Ctx.finish (c : Ctx) : Res → State
  | .ok s => s.wordDone c.q true
  | .at' s => s.wordDone c.q false
  | .over s => s
  | .hold => c.park (.slot false)
  | .holdCredit => c.park (.slot true)
  | .park p => c.park p
  | .raise cs va => c.raise cs va

/-- A squad that issues has left its park. -/
def Ctx.unpark (c : Ctx) : Ctx :=
  if c.sq.park = .none then c else { c with s := c.park .none, sq := { c.sq with park := .none } }

/-- The results in flight that a marker ends: those of registers (R77). What reads nothing into a register stays until it is
performed. -/
def Squad.marked (q : Squad) : Squad := { q with flight := q.flight.filter fun f => !f.named && !f.ret }

/-- The results in flight have returned: a marked word may read them (R77). -/
def Ctx.clearFlight (c : Ctx) : Ctx := { c with s := c.s.modSquad c.q Squad.marked, sq := c.sq.marked }

/-- Whether a word names a register that a qget has not written yet (R364). -/
def Ctx.awaits (c : Ctx) (u : WordUse) : Bool :=
  !c.sq.sup && c.sq.asks.any fun x => (List.range 5).any fun i => u.uses.any fun y => y.regs.contains (true, x.reg + i)

/-- The issue of a word (R77, R78, R82, R64): at a switch marker it waits for the results in flight; then its decode causes;
then its effect. -/
def issue (h : Hdr) (u : Ctx → WordUse) (body : Ctx → Res) (s : State) : Host.Outcome State Fault Refusal :=
  match Ctx.of s h with
  | none => .fault .noSquad
  | some c =>
    if h.s && c.sq.awaited then .next (c.park .marker)
    else
      let c := (if h.s then c.clearFlight else c).unpark
      match (u c).cause c h.s with
      | some code => .next (c.raiseAll code)
      | none => if c.awaits (u c) then .next (c.park .answer) else .next (c.finish (body c))

/-- The unguarded header of the words that have no guard. -/
def Hdr.plain (sbit : Bool) : Hdr := ⟨sbit, false, 7⟩

/-! ## Helper lanes -/

/-- Remove the lanes of quads whose lanes are all helpers (R56). -/
def Squad.dropEmpty (q : Squad) : Squad :=
  { q with lanes := q.lanes.filter fun l => !l.2.helper || q.lanes.any fun m => m.1 / 4 = l.1 / 4 && !m.2.helper }

/-- Remove lanes of the squad, and with them every quad whose lanes are all helpers (R53, R56). -/
def Squad.dropLanes (q : Squad) (ls : List Nat) : Squad :=
  { q with lanes := q.lanes.filter fun l => !ls.contains l.1 }.dropEmpty

/-- A cause that the acting lane of a word meets (R491): raised, or, of a helper lane, not raised, and the lane leaves its quad
(R53). -/
def Ctx.actingRaise (c : Ctx) (l : Nat × Lane) (code : Nat) (va : DWord) : Res :=
  if l.2.helper && !isWait code then .ok (c.s.modSquad c.q fun q => q.dropLanes [l.1]) else .raise [(l.1, code)] va

/-! ## Per-lane effects -/

/-- The causes of lanes that are no helpers. -/
def realCauses (rs : List (Nat × Lane × Except Nat LaneOut)) : List (Nat × Nat) :=
  rs.filterMap fun r => match r with
    | (l, ln, .error c) => if ln.helper then none else some (l, c)
    | _ => none

/-- The causes of lanes that are no helpers, and the lanes, helpers too, whose access waits for a token. -/
def readCauses (rs : List (Nat × Lane × Except Nat LaneOut)) : List (Nat × Nat) :=
  realCauses rs ++ rs.filterMap fun r => match r with
    | (l, ln, .error c) => if ln.helper && isWait c then some (l, c) else none
    | _ => none

/-- The helper lanes that met a cause. -/
def helperCauses (rs : List (Nat × Lane × Except Nat LaneOut)) : List Nat :=
  rs.filterMap fun r => match r with
    | (l, ln, .error _) => if ln.helper then some l else none
    | _ => none

/-- The exceptions of lanes that are no helpers (R53, R111). -/
def realFlags (rs : List (Nat × Lane × Except Nat LaneOut)) : Fl :=
  rs.foldl (fun f r => match r with
    | (_, ln, .ok o) => if ln.helper then f else f.or o.fl
    | _ => f) Fl.none

/-- Trap the exceptions that are enabled (R111). -/
def trapped (fpc : Word) : Except Nat LaneOut → Except Nat LaneOut
  | .error c => .error c
  | .ok o => match fpCause fpc o.fl with
    | some c => .error c
    | none => .ok o

/-- Run a lane function over lanes. -/
def runLanes (fpc : Word) (ls : List (Nat × Lane)) (f : Nat → Lane → Except Nat LaneOut) :
    List (Nat × Lane × Except Nat LaneOut) :=
  ls.map fun l => (l.1, l.2, trapped fpc (f l.1 l.2))

/-- Write the results of lanes to a vector destination, predicates and random states. -/
def Squad.applyLanes (q : Squad) (d : Opnd) (rs : List (Nat × Lane × Except Nat LaneOut)) : Squad :=
  rs.foldl (fun q r => match r with
    | (l, _, .ok o) => q.modLane l fun ln => ln.apply d o
    | _ => q) q

/-- The words of the first result. -/
def firstWords (rs : List (Nat × Lane × Except Nat LaneOut)) : Option (List Word) :=
  match rs with
  | (_, _, .ok o) :: _ => some o.ws
  | _ => none

/-- The results of lanes written: each lane's own registers, a scalar destination once, the flags, and helper lanes that met
a cause removed (R53). -/
def Ctx.writeResults (c : Ctx) (d : Opnd) (rs : List (Nat × Lane × Except Nat LaneOut)) : State :=
  let s := c.s.modSquad c.q fun q => (q.applyLanes d rs).dropLanes (helperCauses rs)
  let s := match firstWords rs with
    | some ws => s.writeSca c.q c.sq.sup d ws
    | none => s
  s.oweFlags c.q.blk (realFlags rs)

/-- A fixed-latency effect per active lane, or once by the acting lane where the destination is scalar (R116, R491). A word that raises
steps no random state (log 49). -/
def Ctx.perLane (c : Ctx) (d : Opnd) (f : Nat → Lane → Except Nat LaneOut) : Res :=
  let ls := if d.isSca then c.acting.toList else c.act
  let rs := runLanes c.fpc ls f
  if realCauses rs ≠ [] then .raise (realCauses rs) 0
  else .ok (c.writeResults d rs)

/-- The values of a result in flight, lane by lane; lane 64 stands for the scalar file. -/
def flightVals (d : Opnd) (rs : List (Nat × Lane × Except Nat LaneOut)) : List (Nat × Nat × Word) :=
  rs.flatMap fun r => match r with
    | (l, _, .ok o) => match d with
      | .vec k => (List.range o.ws.length).map fun i => (l, k.val + i, o.ws.getD i 0)
      | .sca k => (List.range o.ws.length).map fun i => (64, k.val + i, o.ws.getD i 0)
      | _ => []
    | _ => []

/-- A result in flight whose values are known at issue (R77). -/
def Flight.known (id : Nat) (dst : List (Bool × Nat)) (vals : List (Nat × Nat × Word)) (fl : Fl) : Flight where
  id := id
  pc := 0
  dst := dst
  reads := []
  vals := vals
  perf := true
  byQueue := false
  acq := false
  obs := 0
  noFill := false
  fl := fl
  ret := false

/-- Put a result in flight; a destination of zero leaves nothing in flight unless flags are owed. -/
def State.launchFlight (s : State) (q : Sel) (f : Flight) : State :=
  { (s.modSquad q fun sq => { sq with flight := sq.flight ++ [{ f with id := s.nextId, pc := sq.pc }] }) with nextId := s.nextId + 1 }

/-- A variable-latency effect per active lane, computed at issue: the registers are written when the result returns, and so
are its flags (R77, R112). -/
def Ctx.perLaneVar (c : Ctx) (d : Opnd) (n : Nat) (f : Nat → Lane → Except Nat LaneOut) : Res :=
  let ls := if d.isSca then c.acting.toList else c.act
  let rs := runLanes c.fpc ls f
  if readCauses rs ≠ [] then .raise (readCauses rs) 0
  else
    let s := c.s.modSquad c.q fun q => q.dropLanes (helperCauses rs)
    .ok (s.launchFlight c.q (Flight.known 0 (Use.regs ⟨d, n, 1, true⟩) (flightVals d rs) (realFlags rs)))

/-- Write the words of each lane of a list to a destination (cross-lane words). -/
def Ctx.writeEach (c : Ctx) (d : Opnd) (outs : List (Nat × LaneOut)) : State :=
  c.s.modSquad c.q fun q => outs.foldl (fun q o => q.modLane o.1 fun ln => ln.apply d o.2) q

/-- Write one value to a destination: once to a scalar, else in every active lane. -/
def Ctx.writeAll (c : Ctx) (s : State) (d : Opnd) (ws : List Word) : State :=
  match d with
  | .sca _ => if c.act.isEmpty then s else s.writeSca c.q c.sq.sup d ws
  | _ => s.modSquad c.q fun q => c.act.foldl (fun q l => q.modLane l.1 fun ln => ln.write d ws) q

end Sys2Proof.Machine
end

