-- ==== Sys2Proof/Machine/Translate.lean ====
section
/-! DEFINITION. Addresses and translation (chapter 09, R249 to R259; chapter 01, R30 to R35; chapter 12, R318, R319). -/

set_option Elab.async false

namespace Sys2Proof.Machine

open Sys2Proof

/-- What an access does (R254). -/
inductive Acc where
  | read | write | fetch | atomic | lrs
deriving DecidableEq, Repr

/-- The leaf an entry holds, and the level it was found at; 0x21 where there is none, 0x2A at a lost table entry (R250,
R252, R266); it waits for a token of a table's line (R258). -/
def walk (s : State) (st : Nat) (va : DWord) : Nat → Nat → Except Nat (DWord × Nat)
  | table, 0 =>
    let a := table + 8 * field va 24 16
    if s.lostAny (s.localPa st a) 8 then .error 0x2A
    else if !s.readable st (s.localPa st a / 64) then .error (waitOn (s.localPa st a / 64))
    else
      let e := s.localDw st a
      if e.getLsbD 0 && e.getLsbD 1 then .ok (e, 0) else .error 0x21
  | table, n + 1 =>
    let a := table + 8 * (va.toNat / 2 ^ (16 + 9 * (n + 1)) % 512)
    if s.lostAny (s.localPa st a) 8 then .error 0x2A
    else if !s.readable st (s.localPa st a / 64) then .error (waitOn (s.localPa st a / 64))
    else
      let e := s.localDw st a
      if !e.getLsbD 0 then .error 0x21
      else if e.getLsbD 1 then (if n + 1 = 3 then .error 0x21 else .ok (e, n + 1))
      else walk s st va (field e 40 12 * 4096) n

/-- The lines of the table entries that a walk reads. -/
def walkLines (s : State) (st : Nat) (va : DWord) : Nat → Nat → List Nat
  | table, 0 => [s.localPa st (table + 8 * field va 24 16) / 64]
  | table, n + 1 =>
    let a := table + 8 * (va.toNat / 2 ^ (16 + 9 * (n + 1)) % 512)
    let e := s.localDw st a
    (s.localPa st a / 64) :: (if e.getLsbD 0 && !e.getLsbD 1 then walkLines s st va (field e 40 12 * 4096) n else [])

/-- Bytes of a page at a level: 64 KiB, 32 MiB, 16 GiB (R250). -/
def pageBytes (level : Nat) : Nat := 2 ^ (16 + 9 * level)

/-- The kind of a leaf (R252). -/
def leafKind (e : DWord) : Nat := field e 4 2

/-- Whether a leaf at a level is malformed (R252, R253). -/
def leafBad (e : DWord) (level : Nat) : Bool :=
  let k := leafKind e
  let pb := pageBytes level
  let base := field e 40 16 * 65536
  let mgmt := mgmtBase ≤ base && base < mgmtBase + 65536
  let payZero (hi lo : Nat) : Bool := field e hi lo = 0
  field e 63 60 ≠ 0 || field e 15 13 ≠ 0 || (e.getLsbD 12 && (e.getLsbD 6 || k ≠ 4)) ||
  (match k with
    | 0 => !payZero 59 41 || base % pb ≠ 0 || !(inDram base || mgmt) || (mgmt && e.getLsbD 8)
    | 1 => level = 0 || base % pb ≠ 0 || !payZero 47 41
    | 2 => base % pb ≠ 0 || e.getLsbD 6 || !payZero 47 47
    | 3 => level = 2 || !payZero 47 41 || base % pb ≠ 0
    | 4 => false
    | 5 => level = 2 || !payZero 59 29 || field e 28 16 * 65536 % pb ≠ 0
    | _ => true)

/-- The market rank map: the members of a mask in ascending stall number (R29). -/
def memberAt (mask : DWord) (rank : Nat) : Nat := (bitsOf mask).getD rank 0

/-- The member mask an interleaved leaf may use now, or 0x21 (R256). -/
def State.marketMask (s : State) (e : DWord) : Except Nat DWord :=
  let m := field e 51 48
  match Tab.find? s.market m with
  | none => .error 0x21
  | some (mask, ctl) =>
    if ctl.getLsbD 31 && field (ctl.zeroExtend 64) 23 16 = field e 59 52 then .ok mask else .error 0x21

/-- The address of the export table entry of a handle (R31, R35). -/
def State.exportPa (s : State) (handle : Word) : Nat :=
  let h : DWord := handle.zeroExtend 64
  s.localPa (field h 31 26) (field (s.stall (field h 31 26)).expt 40 16 * 65536 + 32 * field h 25 8)

/-- The export table entry of a handle as four double words, or 0x25 where its index is beyond the table (R31, R32, R35). A reader
waits for a token of its line, and while a write of EXPT waits for the accesses of the old table (R35). -/
def State.exportEntry (s : State) (reader : Nat) (handle : Word) : Except Nat (List DWord) :=
  let h : DWord := handle.zeroExtend 64
  let t := s.stall (field h 31 26)
  let pa := s.exportPa handle
  if t.revokes.any fun r => r.expt.isSome && r.users.isSome then .error waitCode
  else if 2048 * field t.expt 63 56 ≤ field h 25 8 then .error 0x25
  else if s.lostAny pa 32 then .error 0x2A
  else if !s.readable reader (pa / 64) then .error (waitOn (pa / 64))
  else .ok ((List.range 4).map fun k => BitVec.ofNat 64 (s.mem.num (pa + 8 * k) 8))

/-- A fresh walk of an address: what the translation cache would hold (R250 to R258). While a write of TROOT waits for the accesses
of the old tables, no walk starts (R251). -/
def State.walkEnt (s : State) (st : Nat) (va : DWord) : Except Nat TlbEnt :=
  let t := s.stall st
  if field va 63 52 ≠ 0 then .error 0x21
  else if t.shoots.any fun x => x.purged && x.troot.isSome then .error waitCode
  else if !t.troot.getLsbD 0 then .error 0x21
  else match walk s st va (field t.troot 40 12 * 4096) 3 with
    | .error c => .error c
    | .ok (e, level) =>
      if leafBad e level then .error 0x21
      else
        let page := va.toNat / 65536
        match leafKind e with
        | 1 => (s.marketMask e).map fun m => ⟨page, e, level, m, []⟩
        | 2 => .ok ⟨page, e, level, Tab.get 0 (s.stall (field e 46 41)).repl (field e 59 48), []⟩
        | 3 =>
          let h := Tab.get 0 t.impt (field e 59 48)
          match s.exportEntry st h with
          | .error c => .error c
          | .ok x => .ok ⟨page, e, level, 0, h.zeroExtend 64 :: x⟩
        | _ => .ok ⟨page, e, level, 0, []⟩

/-- Device memory at a local address of a stall; an address with no memory (R249) raises 0x21 (log 10). -/
def State.devPlace (s : State) (st a : Nat) : Except Nat Place :=
  if inDram a || (stockBase ≤ a && a < stockBase + (s.stall st).stockSize) then .ok (.dev (s.localPa st a)) else .error 0x21

/-- The checks of a peer access in their order, and its target (R32). -/
def State.peerPlace (s : State) (st : Nat) (t : TlbEnt) (o : Nat) (acc : Acc) : Except Nat Place :=
  let h := t.peer.getD 0 0
  let x (k : Nat) : DWord := t.peer.getD (k + 1) 0
  let ex := field h 31 26
  let flags := field (x 1) 39 32
  if s.siteState ex = 3 || !(x 2).getLsbD st || !flags.testBit 2 || field (x 1) 47 40 ≠ field h 7 0 then .error 0x25
  else
    let off := field t.leaf 40 16 * 65536 + o
    if field (x 1) 31 0 * 65536 ≤ off then .error 0x21
    else
      let rd := flags.testBit 0
      let wr := flags.testBit 1
      match acc with
      | .write => if wr then s.devPlace ex (field (x 0) 40 16 * 65536 + off) else .error 0x22
      | .atomic => if !rd then .error 0x23 else if wr then s.devPlace ex (field (x 0) 40 16 * 65536 + off) else .error 0x22
      | _ => if rd then s.devPlace ex (field (x 0) 40 16 * 65536 + off) else .error 0x23

/-- The package's own number (R318). -/
def State.ownPackage (s : State) : Nat := field s.pkg 8 0

/-- Whether a domain address names memory of this package (R319). -/
def State.ownsExt (s : State) (a : Nat) : Bool := s.pkg.getLsbD 9 && a / 2 ^ 50 % 512 = s.ownPackage

/-- Whether a package belongs to the domain of this one (R319, log 47). -/
def State.inDomain (s : State) (p : Nat) : Bool := p = s.ownPackage || Config.inDomain p

/-- The target of an offset in a translated page, peers aside (R253, R255, R256, R257, R319). No cache holds a line that a domain address
of the package itself names, as R264 allows (log 47). -/
def State.place (s : State) (st : Nat) (t : TlbEnt) (o : Nat) : Except Nat Place :=
  let e := t.leaf
  let base := field e 40 16 * 65536
  match leafKind e with
  | 0 => if mgmtBase ≤ base then (if base - mgmtBase + o < 65536 then .ok (.mgmt (base - mgmtBase + o)) else .error 0x21)
    else s.devPlace st (base + o)
  | 1 =>
    let n := popMask t.mask
    let j := o / 65536
    let m := memberAt t.mask (j % n)
    if n = 0 || s.siteState m = 3 then .error 0x21
    else s.devPlace m (base + j / n * 65536 + o % 65536)
  | 2 =>
    let home := if t.mask.getLsbD st then st else field e 46 41
    if home ≠ st && s.siteState home = 3 then .error 0x21 else s.devPlace home (base + o)
  | 4 =>
    let a := field e 59 16 * 65536 + o
    if a / 2 ^ 59 % 2 = 0 then .ok (.host a (e.getLsbD 12))
    else if !s.pkg.getLsbD 9 || a / 2 ^ 48 % 4 ≠ 0 || !s.inDomain (a / 2 ^ 50 % 512) then .error 0x21
    else .ok (.ext (a % 2 ^ 59) (e.getLsbD 12 && !s.ownsExt a))
  | _ => .ok (.dev (s.localPa st (stockBase + field e 28 16 * 65536 + o)))

/-- Permission (R254, step 4). -/
def permit (e : DWord) (acc : Acc) (sup : Bool) : Option Nat :=
  let u := sup || e.getLsbD 8
  let r := e.getLsbD 5
  let w := e.getLsbD 6
  match acc with
  | .read | .lrs => if r && u then none else some 0x23
  | .write => if w && u then none else some 0x22
  | .fetch => if e.getLsbD 7 && u then none else some 0x24
  | .atomic => if !(r && u) then some 0x23 else if w then none else some 0x22

/-- The kind table for atomics, red, lrs and scs (R254). -/
def kindCause (e : DWord) (acc : Acc) : Option Nat :=
  if acc = .atomic || acc = .lrs then
    (match leafKind e with
      | 2 => some 0x22
      | 4 => some 0x28
      | _ => none)
  else none

/-- A translated access: its place, whether the leaf's atomic class is far, its cache class, and the translation to keep. -/
structure Tr where
  place : Place
  far : Bool
  cc : Nat
  ent : TlbEnt
deriving DecidableEq, Repr

/-- The cached translation of an address, if there is one (R258). -/
def Stall.tlbFind (t : Stall) (va : DWord) : Option TlbEnt :=
  t.tlb.find? fun x => x.page / 2 ^ (9 * x.level) = va.toNat / pageBytes x.level

/-- The entry an access uses: a cached one is used, or walked afresh, as the machine pleases (R258, log 6); `k` numbers the
choice within the word. Where the walk finds the cached entry, or waits, there is nothing to choose. -/
def State.entryFor (s : State) (st : Nat) (va : DWord) (k : Nat) : Except Nat TlbEnt :=
  if field va 63 52 ≠ 0 then .error 0x21
  else match (s.stall st).tlbFind va, s.walkEnt st va with
    | none, w => w
    | some e, .ok w => if { e with page := w.page } = w then .ok e else if Config.freeBool (s.free + k) then .ok e else .ok w
    | some e, .error c => if isWait c || Config.freeBool (s.free + k) then .ok e else .error c

/-- The checks of an access in the order of R254. -/
def State.translate (s : State) (st : Nat) (sup : Bool) (va : DWord) (acc : Acc) (z k : Nat) : Except Nat Tr :=
  if va.toNat % z ≠ 0 then .error 0x20
  else match s.entryFor st va k with
    | .error c => .error c
    | .ok t =>
      let o := va.toNat % pageBytes t.level
      let pl := if leafKind t.leaf = 3 then s.peerPlace st t o acc else s.place st t o
      -- the peer checks precede permission; other targets are formed after it
      match (if leafKind t.leaf = 3 then (match pl with
          | .error c => some c
          | .ok _ => none) else none) with
      | some c => .error c
      | none =>
        match permit t.leaf acc sup with
        | some c => .error c
        | none =>
          match kindCause t.leaf acc with
          | some c => .error c
          | none =>
            match pl with
            | .error c => .error c
            | .ok p =>
              if leafKind t.leaf = 5 && (s.stall st).stockSize ≤ field t.leaf 28 16 * 65536 + o then .error 0x21
              else .ok ⟨p, t.leaf.getLsbD 11, field t.leaf 10 9, t⟩

/-- The lines that a fresh translation was read from: table entries, and the export entry of a peer leaf (R258, R259). -/
def State.entLines (s : State) (st : Nat) (e : TlbEnt) : List Nat :=
  walkLines s st (BitVec.ofNat 64 (e.page * 65536)) (field (s.stall st).troot 40 12 * 4096) 3
    ++ (match e.peer with
      | h :: _ => [s.exportPa (lo32 h) / 64]
      | [] => [])

/-- The translations that a stall keeps: 256 in each of its 54 cores, and 8,192 more (R258). -/
def tlbEntries : Nat := 8192 + 54 * 256

/-- Keep a translation, dropping the oldest where there is no room (R258). -/
def Stall.keepEnt (t : Stall) (e : TlbEnt) : Stall :=
  if t.tlb.any fun x => x.page / 2 ^ (9 * x.level) = e.page / 2 ^ (9 * x.level) then t
  else { t with tlb := (t.tlb ++ [e]).drop (t.tlb.length + 1 - tlbEntries) }

/-- Keep a translation that an access used (R258): the walk that found it has read its lines; the sharer bit of a peer's entry is set
(R259). -/
def State.keepOne (s : State) (st : Nat) (e : TlbEnt) : State :=
  let s := if (s.stall st).tlb.contains e then s else s.takeReads st (s.entLines st e)
  let s := s.modStall st fun t => t.keepEnt e
  match e.peer with
  | h :: _ => s.modStall (field h 31 26) fun t =>
      { t with sharers := t.sharers.put (field h 25 8) (setBit (Tab.get 0 t.sharers (field h 25 8)) st true) }
  | [] => s

/-- Keep the translations a word used. -/
def State.keepTlb (s : State) (st : Nat) (es : List TlbEnt) : State := es.foldl (fun s e => s.keepOne st e) s

/-- A byte of domain memory: of the package itself, or of another (R319). -/
def State.extByte (s : State) (a : Nat) : Byte :=
  if s.ownsExt a then s.mem.rd (a % 2 ^ 48) else s.extMem.rd a


end Sys2Proof.Machine
end

