-- ==== Sys2Proof/Machine/Manage.lean ====
section
/-! DEFINITION. Performed writes, and the management page: what each register and table reads as, what a write of it does,
shootdowns and revocations (R14, R15, R18 to R35, R93, R164, R251, R258 to R261, R318, R325, R333, R342, R347, R368, R376,
R442, R443, R448, R469, R476). -/

set_option Elab.async false

namespace Sys2Proof.Machine

open Sys2Proof

/-! ## Performed writes -/

/-- The bytes of a line that a range covers, as a mask. -/
def coverMask (line a n : Nat) : DWord :=
  (List.range 64).foldl (fun m i => if a ≤ line * 64 + i && line * 64 + i < a + n then setBit m i true else m) 0

/-- Lost lines after a write: the bytes written are recorded (R266). -/
def lostAfter (lost : Tab DWord) (a n : Nat) : Tab DWord :=
  (linesOf a n).foldl (fun t l => match Tab.find? t l with
    | none => t
    | some m => t.put l (m ||| coverMask l a n)) lost

/-- A line that reaches its home with every byte written is lost no more (R266). -/
def State.wholeAtHome (s : State) (line : Nat) : State :=
  { s with lost := if Tab.find? s.lost line = some (BitVec.allOnes 64) then s.lost.del line else s.lost }

/-- The export entries of a stall that a write at a package physical address touches. -/
def State.exportsAt (s : State) (pa n : Nat) : List (Nat × Nat) :=
  match s.stallAt (pa / 2 ^ 41) with
  | none => []
  | some st =>
    let ex := (s.stall st).expt
    let base := field ex 40 16 * 65536
    let top := base + 65536 * field ex 63 56
    let lo := max (pa % 2 ^ 41) base
    let hi := min (pa % 2 ^ 41 + n) top
    if hi ≤ lo then [] else (List.range ((hi - 1 - base) / 32 - (lo - base) / 32 + 1)).map fun i => (st, (lo - base) / 32 + i)

/-- The address of an export entry (R31). -/
def State.exportAddr (s : State) (st i : Nat) : Nat := s.localPa st (field (s.stall st).expt 40 16 * 65536 + 32 * i)

/-- FLAGS and GEN of an export entry. -/
def State.exportFlags (s : State) (st i : Nat) : Nat × Nat :=
  (s.mem.num (s.exportAddr st i + 12) 1, s.mem.num (s.exportAddr st i + 13) 1)

/-- An export entry after a write (R33). A change of its GEN that would pass 255 sets spent instead, and a spent entry stays so: it is
not valid, and its GEN stays 255. A change of GEN, or the clearing of the valid bit, starts a revocation. -/
def State.noteExport (s old : State) (st i : Nat) : State :=
  let (f, g) := old.exportFlags st i
  let (f', g') := s.exportFlags st i
  let spent : Bool := f.testBit 3 || (g = 255 && g' ≠ 255)
  let s := if spent then
      { s with mem := s.mem.wrs (s.exportAddr st i + 12) [(BitVec.ofNat 8 f' &&& 0xFB) ||| 8, 255] }
    else s
  if (if spent then f.testBit 2 else decide (g ≠ g') || (f.testBit 2 && !f'.testBit 2)) then
    { (s.modStall st fun t => { t with revokes := t.revokes ++ [⟨i, s.nextId, none, none⟩] }) with nextId := s.nextId + 1 }
  else s

/-- A write of device memory is performed (R295, R304): the bytes, lost lines, reservations and export entries, and the watch slots
of every stall but the one that has seen the write already, when it entered its buffer (R206). -/
def State.performWriteOf (s : State) (seen : Option Nat) (pa : Nat) (bs : List Byte) : State :=
  let lines := linesOf pa bs.length
  let ts := lines.map WTgt.dev
  let s' := { s with
    mem := s.mem.wrs pa bs
    lost := lostAfter s.lost pa bs.length
    stalls := s.stalls.map fun (x : Nat × Stall) => (x.1, (if seen = some x.1 then x.2 else x.2.note ts).endResv lines) }
  (s.exportsAt pa bs.length).foldl (fun s' x => s'.noteExport s x.1 x.2) s'

/-- A write of device memory that stood in no buffer is performed. -/
def State.performWrite (s : State) (pa : Nat) (bs : List Byte) : State := s.performWriteOf none pa bs

/-- A write of host memory is performed: only watches see it, and only writes of the package (R206). -/
def State.performHost (s : State) (a : Nat) (bs : List Byte) (fromPackage : Bool) : State :=
  let s := { s with hostMem := s.hostMem.wrs a bs }
  if fromPackage then s.note ((linesOf a bs.length).map WTgt.host) else s

/-- A write of another package's memory is performed. -/
def State.performExt (s : State) (a : Nat) (bs : List Byte) : State :=
  State.note { s with extMem := s.extMem.wrs a bs } ((linesOf a bs.length).map WTgt.ext)

/-! ## What the management page reads as (R34) -/

/-- A 64-bit word of 16 default-route entries (R20). -/
def routeWord (t : Tab Nat) (k : Nat) : DWord :=
  BitVec.ofNat 64 (((List.range 16).map fun i => Tab.get 0 t (16 * k + i) % 16 * 16 ^ i).foldl (· + ·) 0)

/-- Two 32-bit entries of a table as a 64-bit word. -/
def wordPair (t : Tab Word) (i : Nat) : DWord := pair64 (Tab.get 0 t i) (Tab.get 0 t (i + 1))

/-- A 64-bit word of the management page at an offset that is a multiple of 8. -/
def State.mgmtWord (s : State) (st off : Nat) : DWord :=
  let t := s.stall st
  if off < 0x180 then Tab.get 0 t.crt (off / 8)
  else if 0x800 ≤ off && off < 0x880 then Tab.get 0 t.routes ((off - 0x800) / 8)
  else if 0x880 ≤ off && off < 0x8A0 then routeWord t.defRoutes ((off - 0x880) / 8)
  else if 0x900 ≤ off && off < 0xA00 then wordPair s.site ((off - 0x900) / 4)
  else if 0x1000 ≤ off && off < 0x1800 then BitVec.ofNat 64 (t.coll.num (off - 0x1000) 8)
  else if 0x2000 ≤ off && off < 0x2800 then BitVec.ofNat 64 (t.qdesc.num (off - 0x2000) 8)
  else if 0x3000 ≤ off && off < 0x4000 then BitVec.ofNat 64 (t.armt.num (off - 0x3000) 8)
  else if 0x4000 ≤ off && off < 0x8000 then wordPair t.impt ((off - 0x4000) / 4)
  else if 0x8000 ≤ off && off < 0x10000 then Tab.get 0 t.repl ((off - 0x8000) / 8)
  else match off with
    | 0x400 => t.cspill
    | 0x408 => t.troot
    | 0x410 => t.stock
    | 0x418 => t.mscq
    | 0x420 => t.tshootVa
    | 0x428 => if t.shoots.isEmpty then t.tshootN else t.tshootN ||| 0x8000000000000000
    | 0x430 => s.pkg
    | 0x440 => t.cring
    | 0x448 => pair64 t.ccons t.crseq
    | 0x458 => t.rspill
    | 0x460 => t.svec
    | 0x468 => t.savea
    | 0x470 => t.scring
    | 0x478 => pair64 t.sccons t.scrseq
    | 0x480 => pair64 t.ceRest t.ceCount
    | 0x490 => t.pwr
    | 0x4A0 => t.expt
    | 0x4A8 => t.mspill
    | 0x4B0 => t.codea
    | 0x8A0 => s.fwd.1
    | 0x8A8 => s.fwd.2
    | 0x8B0 => s.edge.1
    | 0x8B8 => s.edge.2
    | _ => 0

/-- One byte of the management page. -/
def State.mgmtByte (s : State) (st off : Nat) : Byte :=
  BitVec.ofNat 8 ((s.mgmtWord st (off / 8 * 8)).toNat / 2 ^ (8 * (off % 8)))

/-- n bytes of the management page. -/
def State.mgmtBytes (s : State) (st off n : Nat) : List Byte := (List.range n).map fun i => s.mgmtByte st (off + i)

/-! ## Writes of the management page -/

/-- CSPILL (R164): ignored while any block is resident. -/
def State.writeCspill (s : State) (st : Nat) (v : DWord) : State :=
  if ((s.stall st).blocks st).isEmpty then s.modStall st fun t => { t with cspill := v } else s

/-- SAVEA (R443): ignored while any block is resident or saved. -/
def State.writeSavea (s : State) (st : Nat) (v : DWord) : State :=
  if ((s.stall st).blocks st).isEmpty && (s.stall st).saved.isEmpty then s.modStall st fun t => { t with savea := v } else s

/-- RSPILL (R376): ignored while a pass is open on the stall. -/
def State.writeRspill (s : State) (st : Nat) (v : DWord) : State :=
  if s.passes.any fun p => p.members.any fun m => m.1 = st then s else s.modStall st fun t => { t with rspill := v }

/-- MSPILL (R325): only while the reorder store is empty. -/
def State.writeMspill (s : State) (st : Nat) (v : DWord) : State :=
  if (s.stall st).early.isEmpty then s.modStall st fun t => { t with mspill := v } else s

/-- CODEA (R93): evicts every entry; ignored for NENT above 1,024, and while a launch holds an entry. -/
def State.writeCodea (s : State) (st : Nat) (v : DWord) : State :=
  if 1024 < field v 63 53 || (s.stall st).launches.any (fun l => l.kern.area.isSome && !l.closed) then s
  else s.modStall st fun t => { t with codea := v, code := [] }

/-- Set every byte of a range to zero. -/
def Mem.clear (m : Mem) (lo hi : Nat) : Mem := m.filter fun c => c.1 < lo || hi ≤ c.1

/-- STOCK (R260): the bytes that come or go are zero afterwards; 13 to 15 ways are ignored. -/
def State.writeStock (s : State) (st : Nat) (v : DWord) : State :=
  if 12 < field v 3 0 then s
  else
    let old := (s.stall st).stockSize
    let new := field v 3 0 * 32 * 2 ^ 20
    let base := s.localPa st stockBase
    { (s.modStall st fun t => { t with stock := v }) with
      mem := s.mem.clear (base + min old new) (base + max old new)
      lost := s.lost.filter fun l => l.1 * 64 < base + min old new || base + max old new ≤ l.1 * 64 }

/-- TROOT (R251): a shootdown of the whole space, at whose end the value takes effect. -/
def State.writeTroot (s : State) (st : Nat) (v : DWord) : State :=
  { (s.modStall st fun t => { t with shoots := t.shoots ++ [⟨true, 0, 0, s.nextId, false, some v⟩] }) with nextId := s.nextId + 1 }

/-- TSHOOT (R258): a write of the word at 0x428 starts a shootdown; both words ignore writes while one runs. -/
def State.writeTshoot (s : State) (st off : Nat) (v : DWord) : State :=
  if !(s.stall st).shoots.isEmpty then s
  else if off = 0x420 then s.modStall st fun t => { t with tshootVa := v }
  else
    let n := v &&& 0x3FFFFFFFFFFFFFFF
    { (s.modStall st fun t =>
        { t with tshootN := n, shoots := [⟨v.getLsbD 62, field t.tshootVa 51 16, field v 31 0, s.nextId, false, none⟩] }) with
      nextId := s.nextId + 1 }

/-- EXPT (R35): the revocation of every entry, at whose end the value takes effect; a size above 128 is ignored. -/
def State.writeExpt (s : State) (st : Nat) (v : DWord) : State :=
  if 128 < field v 63 56 then s
  else { (s.modStall st fun t => { t with revokes := t.revokes ++ [⟨0, s.nextId, none, some v⟩] }) with nextId := s.nextId + 1 }

/-- A job of some collectives of a group entry ends with STATUS 0x52 and ABORT. -/
def Stall.abortJobs (t : Stall) (g : Nat) (cseqs : List Nat) : Stall :=
  { t with colls := t.colls.map fun j => if j.grp = g && cseqs.contains j.cseq then { j with result := some (0x52, 32) } else j }

/-- Every collective of a group entry in flight at a stall aborts, one that has met its peers and is not complete yet among them: it ends
so at every member, and at one that issues its part later too (R333, R337). -/
def State.abortColls (s : State) (st g : Nat) : State :=
  let cseqs := ((s.stall st).colls.filter fun j => j.grp = g).map (·.cseq)
  let members := bitsOf (BitVec.ofNat 64 ((s.stall st).coll.num (32 * g) 8))
  let s := s.modStall st fun t => { t.abortJobs g cseqs with dead := t.dead ++ cseqs.map fun c => (g, c) }
  members.foldl (fun s m => s.modStall m fun t => t.abortJobs g cseqs) s

/-- The collective group table (R333): CSEQ is written by the NI only; clearing V aborts. -/
def State.writeColl (s : State) (st off : Nat) (v : DWord) : State :=
  let g := off / 32
  let t := s.stall st
  let old := t.coll.num (32 * g + 14) 1
  let v := if off % 32 = 16 then pair64 (BitVec.ofNat 32 (t.coll.num (32 * g + 16) 4)) (hi32 v) else v
  let s' := s.modStall st fun t => { t with coll := t.coll.wrs off (leBytes 8 v.toNat) }
  if old % 2 = 1 && (s'.stall st).coll.num (32 * g + 14) 1 % 2 = 0 then s'.abortColls st g else s'

/-- Whether a queue descriptor may be enabled (R342). -/
def qdescOk (d : List Byte) : Bool :=
  let addrOk (o : Nat) : Bool := let a : DWord := BitVec.ofNat 64 (sliceNum d o 8); field a 63 41 = 0 && field a 5 0 = 0
  let n := sliceNum d 16 4
  addrOk 0 && addrOk 8 && 2 ≤ n && n ≤ 65536 && n = 2 ^ n.log2 && sliceNum d 20 1 ≤ 2 && sliceNum d 21 1 ≤ 7
    && sliceNum d 22 1 < 4 && sliceNum d 23 1 = 0 && sliceNum d 28 4 = 0

/-- What the scheduler keeps of a queue that it has never fetched from. -/
def QueueSt.empty : QueueSt := ⟨0, 0, false, 0, none, false, []⟩

/-- A queue is enabled: its state block is still to be read (R342); an ABORT still to be obeyed stays (R349). -/
def Stall.enableQueue (t : Stall) (q : Nat) : Stall :=
  { t with queues := t.queues.put q { Tab.get QueueSt.empty t.queues q with starts := true, lastFetch := t.clock } }

/-- A write of a 64-bit word of a queue descriptor (R342): while EN is set, RING, STATE, QENT and CLASS keep their values; a
write that sets EN on a descriptor out of range is ignored; ABORT clears EN, is recorded and reads 0 (R349). -/
def State.writeQdesc (s : State) (st off : Nat) (v : DWord) : State :=
  let q := off / 32
  let old := (s.stall st).qdesc.rds (32 * q) 32
  let en := sliceNum old 22 1 % 2 = 1
  let new := patchBytes old (off % 32) (leBytes 8 v.toNat)
  let new := if en then patchBytes (patchBytes new 0 (sliceBytes old 0 16)) 16 (sliceBytes old 16 5) else new
  let ctl := sliceNum new 22 1
  let abort : Bool := ctl / 2 % 2 = 1
  let on : Bool := ctl % 2 = 1 && !abort
  if on && !qdescOk new then s
  else
    let stored := patchBytes new 22 [BitVec.ofNat 8 ((if on then 1 else 0) + ctl / 4 * 4)]
    let s := s.modStall st fun t => { t with qdesc := t.qdesc.wrs (32 * q) stored }
    let s := if !en && on then s.modStall st fun t => t.enableQueue q else s
    if abort then s.modStall st fun t =>
      { t with queues := t.queues.put q { Tab.get QueueSt.empty t.queues q with abort := true } }
    else s

/-- DOORBELL of a queue (R342, R346). -/
def State.writeDoorbell (s : State) (st q : Nat) (v : Word) : State :=
  s.modStall st fun t => { t with qdesc := t.qdesc.wrs (32 * q + 24) (leBytes 4 v.toNat) }

/-- A route-table entry (R18, R20): entry 0 is fixed, and an entry that the default-route array names ignores the
supervisor. -/
def State.writeRoute (s : State) (st n : Nat) (v : DWord) : State :=
  let t := s.stall st
  if n = 0 || (List.range 64).any (fun i => Tab.get 0 t.defRoutes i = n) then s
  else s.modStall st fun t => { t with routes := Tab.set 0 t.routes n v }

/-- A write of a 64-bit word of a stall's management page by its supervisor (R34). -/
def State.mgmtWrite (s : State) (st off : Nat) (v : DWord) : State :=
  if 0x800 ≤ off && off < 0x880 then s.writeRoute st ((off - 0x800) / 8) v
  else if 0x1000 ≤ off && off < 0x1800 then s.writeColl st (off - 0x1000) v
  else if 0x2000 ≤ off && off < 0x2800 then s.writeQdesc st (off - 0x2000) v
  else if 0x4000 ≤ off && off < 0x8000 then s.modStall st fun t =>
    { t with impt := Tab.set 0 (Tab.set 0 t.impt ((off - 0x4000) / 4) (lo32 v)) ((off - 0x4000) / 4 + 1) (hi32 v) }
  else if 0x8000 ≤ off && off < 0x10000 then s.modStall st fun t => { t with repl := Tab.set 0 t.repl ((off - 0x8000) / 8) v }
  else match off with
    | 0x400 => s.writeCspill st v
    | 0x408 => s.writeTroot st v
    | 0x410 => s.writeStock st v
    | 0x418 => s.modStall st fun t => { t with mscq := v }
    | 0x420 => s.writeTshoot st 0x420 v
    | 0x428 => s.writeTshoot st 0x428 v
    | 0x440 => s.modStall st fun t => { t with cring := v }
    | 0x448 => s.modStall st fun t => { t with ccons := lo32 v }
    | 0x458 => s.writeRspill st v
    | 0x460 => s.modStall st fun t => { t with svec := v }
    | 0x468 => s.writeSavea st v
    | 0x470 => s.modStall st fun t => { t with scring := v }
    | 0x478 => s.modStall st fun t => { t with sccons := lo32 v }
    | 0x480 => s.modStall st fun t => { t with ceRest := lo32 v }
    | 0x490 => s.modStall st fun t => { t with pwr := (v &&& ~~~0xF0) ||| (t.pwr &&& 0xF0) }
    | 0x4A0 => s.writeExpt st v
    | 0x4A8 => s.writeMspill st v
    | 0x4B0 => s.writeCodea st v
    | _ => s

/-- Watch slots on the lines of a write of the management page see it (R206). -/
def State.noteMgmt (s : State) (st off n : Nat) : State := s.note ((linesOf (s.localPa st (mgmtBase + off)) n).map WTgt.dev)

/-- A store of bytes to the management page: each 64-bit word that it meets is written whole, with the bytes that the store
leaves alone as they read. -/
def State.mgmtStore (s : State) (st off : Nat) (bs : List Byte) : State :=
  let first := off / 8
  let s := s.noteMgmt st off bs.length
  (List.range ((off + bs.length + 7) / 8 - first)).foldl (fun s k =>
    let w := 8 * (first + k)
    let cur := s.mgmtBytes st w 8
    let new := (List.range 8).map fun i =>
      if off ≤ w + i && w + i < off + bs.length then bs.getD (w + i - off) 0 else cur.getD i 0
    s.mgmtWrite st w (BitVec.ofNat 64 (leNat new))) s

/-! ## The core remap table (R23) -/

/-- Whether a swap of a CRT entry is accepted. -/
def State.crtOk (s : State) (st l : Nat) (old new : DWord) : Bool :=
  let t := s.stall st
  let cur := Tab.get 0 t.crt l
  let ph := field new 5 0
  old = cur && field new 63 48 = (field cur 63 48 + 1) % 65536 && ph < 54 && ph / 9 = l / 8
    && !(List.range 48).any (fun k => k ≠ l && (Tab.get 0 t.crt k).getLsbD 15 && field (Tab.get 0 t.crt k) 5 0 = ph)
    && !(new.getLsbD 15 && s.retired.contains (st * 64 + ph))

/-- The 64-bit cas on a CRT entry: the entry as it was, and the machine after. -/
def State.crtSwap (s : State) (st l : Nat) (old new : DWord) : DWord × State :=
  (Tab.get 0 (s.stall st).crt l,
   if s.crtOk st l old new then (s.noteMgmt st (8 * l) 8).modStall st fun t => { t with crt := t.crt.put l new } else s)

/-- CRT_CAS (R23). -/
def execCrtCas (st i : Nat) (old new : DWord) (s : State) : Host.Outcome State Fault Refusal :=
  .next (if i < 48 then (s.crtSwap st i old new).2 else s)

/-! ## The rows of register writes -/

/-- TROOT_WRITE (R251). -/
def execTrootWrite (st : Nat) (v : DWord) (s : State) : Host.Outcome State Fault Refusal := .next ((s.noteMgmt st 0x408 8).writeTroot st v)

/-- TSHOOT_WRITE (R258). -/
def execTshootWrite (st off : Nat) (v : DWord) (s : State) : Host.Outcome State Fault Refusal :=
  .next (if off = 0x420 || off = 0x428 then (s.noteMgmt st off 8).writeTshoot st off v else s)

/-- EXPT_WRITE (R35). -/
def execExptWrite (st : Nat) (v : DWord) (s : State) : Host.Outcome State Fault Refusal := .next ((s.noteMgmt st 0x4A0 8).writeExpt st v)

/-- STOCK_WRITE (R260). -/
def execStockWrite (st : Nat) (v : DWord) (s : State) : Host.Outcome State Fault Refusal := .next ((s.noteMgmt st 0x410 8).writeStock st v)

/-- CODEA_WRITE (R93). -/
def execCodeaWrite (st : Nat) (v : DWord) (s : State) : Host.Outcome State Fault Refusal := .next ((s.noteMgmt st 0x4B0 8).writeCodea st v)

/-- CSPILL_WRITE (R164). -/
def execCspillWrite (st : Nat) (v : DWord) (s : State) : Host.Outcome State Fault Refusal := .next ((s.noteMgmt st 0x400 8).writeCspill st v)

/-- MSPILL_WRITE (R325). -/
def execMspillWrite (st : Nat) (v : DWord) (s : State) : Host.Outcome State Fault Refusal := .next ((s.noteMgmt st 0x4A8 8).writeMspill st v)

/-- RSPILL_WRITE (R376). -/
def execRspillWrite (st : Nat) (v : DWord) (s : State) : Host.Outcome State Fault Refusal := .next ((s.noteMgmt st 0x458 8).writeRspill st v)

/-- SAVEA_WRITE (R443). -/
def execSaveaWrite (st : Nat) (v : DWord) (s : State) : Host.Outcome State Fault Refusal := .next ((s.noteMgmt st 0x468 8).writeSavea st v)

/-- COLL_GROUP_WRITE (R333): a 64-bit word of the group table. -/
def execCollGroupWrite (st i off : Nat) (v : DWord) (s : State) : Host.Outcome State Fault Refusal :=
  .next (if i < 64 && off < 32 && off % 8 = 0 then (s.noteMgmt st (0x1000 + 32 * i + off) 8).writeColl st (32 * i + off) v else s)

/-- REGISTER_WRITE (R7, R34): a 64-bit word of the management page; read-only places ignore it. -/
def execRegisterWrite (st off : Nat) (v : DWord) (s : State) : Host.Outcome State Fault Refusal :=
  .next (if off < 65536 && off % 8 = 0 then (s.noteMgmt st off 8).mgmtWrite st off v else s)

/-- QUEUE_DESCRIPTOR_WRITE (R342): a 64-bit word of a descriptor. -/
def execQueueDescriptorWrite (st q off : Nat) (v : DWord) (s : State) : Host.Outcome State Fault Refusal :=
  .next (if q < 64 && off < 32 && off % 8 = 0 then (s.noteMgmt st (0x2000 + 32 * q + off) 8).writeQdesc st (32 * q + off) v else s)

/-- DOORBELL_WRITE (R346). -/
def execDoorbellWrite (st q : Nat) (v : DWord) (s : State) : Host.Outcome State Fault Refusal :=
  .next (if q < 64 then (s.noteMgmt st (0x2000 + 32 * q + 24) 4).writeDoorbell st q (lo32 v) else s)

/-- COMPLETION_CONS_WRITE (R347, R348): the host's consumed word. -/
def execCompletionConsWrite (st : Nat) (v : DWord) (s : State) : Host.Outcome State Fault Refusal :=
  .next ((s.noteMgmt st 0x448 4).modStall st fun t => { t with ccons := lo32 v })

/-! ## The market table (R28, R29) -/

/-- Whether a stall of a mask would join a fifth market. -/
def State.fifthMarket (s : State) (i : Nat) (mask : DWord) : Bool :=
  (bitsOf mask).any fun st =>
    4 ≤ (s.market.filter fun m => m.1 ≠ i && m.2.2.getLsbD 31 && m.2.1.getLsbD st).length

/-- MARKET_TABLE_WRITE (R28, R29). -/
def execMarketTableWrite (i : Nat) (mask : DWord) (ctl : Word) (s : State) : Host.Outcome State Fault Refusal :=
  let old := Tab.get ((0 : DWord), (0 : Word)) s.market i
  let v := ctl.getLsbD 31
  if 16 ≤ i || old.2.getLsbD 30 || (v && (mask = 0 || s.fifthMarket i mask)) then .next s
  else
    let gen := (field (old.2.zeroExtend 64) 23 16 + 1) % 256
    let c : Word := BitVec.ofNat 32 ((if v then 2 ^ 31 else 0) + gen * 65536 + popMask mask)
    .next { s with market := Tab.put s.market i (mask, c) }

/-! ## Shootdowns and revocations -/

/-- Whether every access of a stall with an order number below a bound has completed: reads fixed, writes performed
(R258). -/
def Stall.drained (t : Stall) (upto : Nat) : Bool :=
  !(t.wbuf.any (fun w => w.id < upto)) && !(t.posted.any fun p => p.id < upto)
    && t.cores.all fun c => c.2.blocks.all fun b => b.2.squads.all fun q =>
      !(q.2.sq.any fun e => e.id < upto) && !(q.2.flight.any fun f => f.id < upto && !f.perf)

/-- Whether a cached translation overlaps a shootdown's range. -/
def Shoot.meets (x : Shoot) (e : TlbEnt) : Bool :=
  let lo := e.page / 2 ^ (9 * e.level) * 2 ^ (9 * e.level)
  x.all || (lo < x.page + x.npg && x.page < lo + 2 ^ (9 * e.level))

/-- SHOOTDOWN_COMPLETE (R251, R258): the translations of the range leave the caches; then the shootdown is complete once every
access made before that point is. -/
def execShootdownComplete (st : Nat) (s : State) : Host.Outcome State Fault Refusal :=
  let t := s.stall st
  match t.shoots with
  | [] => .next s
  | x :: rest =>
    if !x.purged then
      .next { (s.modStall st fun t => { t with
        shoots := { x with purged := true, upto := s.nextId } :: rest
        tlb := t.tlb.filter fun e => !x.meets e }) with nextId := s.nextId + 1 }
    else if t.drained x.upto then
      .next (s.modStall st fun t => { t with
        shoots := rest
        troot := match x.troot with
          | none => t.troot
          | some v => v })
    else .next s

/-- EXPORT_REVOKE (R31, R33): the exporter writes a 64-bit word of an entry, which counts when the write is performed (R295). -/
def execExportRevoke (st i off : Nat) (v : DWord) (s : State) : Host.Outcome State Fault Refusal :=
  if 2048 * field (s.stall st).expt 63 56 ≤ i || 32 ≤ off || off % 8 ≠ 0 then .next s
  else .next (s.bufferBytes st none (s.exportAddr st i + off) (leBytes 8 v.toNat))

/-- Whether a cached translation was made under a revoked entry. -/
def Revoke.meets (r : Revoke) (st : Nat) (e : TlbEnt) : Bool :=
  match e.peer with
  | [] => false
  | h :: _ => field h 31 26 = st && (r.expt.isSome || field h 25 8 = r.index)

/-- REVOCATION_COMPLETE (R33, R35): every stall that cached the entry gives its translations up and acknowledges; then the
revocation is complete once every access of those stalls made before that point is. -/
def execRevocationComplete (st : Nat) (s : State) : Host.Outcome State Fault Refusal :=
  let t := s.stall st
  match t.revokes with
  | [] => .next s
  | r :: rest =>
    match r.users with
    | none =>
      let mask := if r.expt.isSome then t.sharers.foldl (fun m x => m ||| x.2) 0 else Tab.get 0 t.sharers r.index
      let s := (bitsOf mask).foldl (fun s u => s.modStall u fun x => { x with tlb := x.tlb.filter fun e => !r.meets st e }) s
      .next { (s.modStall st fun t => { t with
        revokes := { r with users := some mask, upto := s.nextId } :: rest
        sharers := if r.expt.isSome then [] else t.sharers.del r.index }) with nextId := s.nextId + 1 }
    | some mask =>
      if (bitsOf mask).all fun u => (s.stall u).drained r.upto then
        .next (s.modStall st fun t => { t with
          revokes := rest
          expt := match r.expt with
            | none => t.expt
            | some v => v })
      else .next s

end Sys2Proof.Machine
end

