-- ==== Sys2Proof/Machine/Fetch.lean ====
section
/-! DEFINITION. Fetching words: in place and from the code area, the instruction cache, and the checks of branch targets (R62,
R82, R92, R178, R464). -/

set_option Elab.async false

namespace Sys2Proof.Machine

open Sys2Proof

/-- Where the word at a PC is stored, or the cause of a failed fetch (R82, R254). Native code in place is fetched at its virtual
address; finalised code stands in the code area and is addressed from KADDR + 256 as the image in place would be; supervisor code
is addressed by local address (log 11). `k` numbers the choice of the translation. -/
def State.codeAt (s : State) (st : Nat) (kern : Kern) (sup : Bool) (pc : DWord) (k : Nat) : Except Nat Place :=
  if sup then
    (if inDram pc.toNat then .ok (.dev (s.localPa st pc.toNat)) else .error 0x21)
  else
    let off := (pc - kern.kaddr).toNat
    match kern.area with
    | some a =>
      if 256 ≤ off && off < 256 + 8 * kern.words then .ok (.dev (s.localPa st (a + off))) else .error 0x24
    | none => (s.translate st false pc .fetch 8 k).map fun t => t.place

/-- The key of a place in an instruction cache. -/
def Place.codeKey : Place → Nat
  | .dev pa => pa
  | .mgmt off => 2 ^ 62 + off
  | .host a _ => 2 ^ 60 + a
  | .ext a _ => 2 ^ 61 + a

/-- A byte of a place as an agent of the stall reads it at this point (R295). -/
def State.placeByte (s : State) (st : Nat) (p : Place) (i : Nat) : Byte :=
  match p with
  | .dev pa => s.seenByte st (pa + i)
  | .mgmt off => s.mgmtByte st (off + i)
  | .host a _ => s.hostMem.rd (a + i)
  | .ext a _ => s.extByte (a + i)

/-- The word stored at a place of code, as the stall sees it (R464). -/
def State.codeWord (s : State) (st : Nat) (p : Place) : DWord :=
  BitVec.ofNat 64 (leNat ((List.range 8).map fun i => s.placeByte st p i))

/-- The word at a place of code as memory serves it: 0x2A where it is lost (R266); device memory is read under a token (R271). -/
def State.codeRead (s : State) (st : Nat) (p : Place) : Except Nat DWord :=
  match p with
  | .dev pa =>
    if s.lostSeen st pa 8 then .error 0x2A
    else if !s.readableAt st pa 8 then .error (s.missCode st pa 8)
    else .ok (s.codeWord st p)
  | _ => .ok (s.codeWord st p)

/-- Fetch a word for a core: an instruction cache that holds the word may serve it until iflush (R464, log 6). -/
def State.fetch (s : State) (q : Sel) (kern : Kern) (sup : Bool) (pc : DWord) (k : Nat) : Except Nat DWord :=
  match s.codeAt q.stall kern sup pc k with
  | .error c => .error c
  | .ok p =>
    match Tab.find? (s.core q.stall q.core).icache p.codeKey, s.codeRead q.stall p with
    | none, r => r
    | some w, .ok v => if w = v || Config.freeBool (s.free + k + 1) then .ok w else .ok v
    | some w, .error c => if isWait c || Config.freeBool (s.free + k + 1) then .ok w else .error c

/-- Keep what a fetch used: the word in the instruction cache, the token of its line, and the translation (R258, R271). -/
def State.keepCode (s : State) (q : Sel) (kern : Kern) (sup : Bool) (pc w : DWord) : State :=
  let s' := if sup || kern.area.isSome then s
    else match s.translate q.stall false pc .fetch 8 0 with
      | .error _ => s
      | .ok t => s.keepTlb q.stall [t.ent]
  match s.codeAt q.stall kern sup pc 0 with
  | .error _ => s'
  | .ok p =>
    let s' := match p, Tab.find? (s.core q.stall q.core).icache p.codeKey with
      | .dev pa, none => s'.takeReads q.stall (linesOf pa 8)
      | _, _ => s'
    s'.modCore q.stall q.core fun k => { k with icache := k.icache.put p.codeKey w }

/-- The check of a branch target as for a fetch (R178, R179), and the word there; `k` numbers it within the word. -/
def Ctx.target (c : Ctx) (pc : DWord) (k : Nat) : Except Nat DWord := c.s.fetch c.q c.blk.kern c.sq.sup pc (2 * k)

/-- A land word: full form with OPC 0x65 (R178). -/
def isLand (w : DWord) : Bool := !w.getLsbD 62 && field w 61 54 = 0x65

end Sys2Proof.Machine
end

