-- ==== Sys2Proof/Machine/Paths.lean ====
section
/-! DEFINITION. Divergent paths: ends of threads, filing, bins, draws, held groups and loops (chapter 06). -/

set_option Elab.async false

namespace Sys2Proof.Machine

open Sys2Proof

/-! ## Ray stacks in pad (R422, R423) -/

/-- The pad offset of a thread's stack area. -/
def stackArea (ksp : Word) (tid : Nat) : Nat :=
  let d : DWord := ksp.zeroExtend 64
  8 * field d 18 3 + 8 * field d 31 24 * tid

/-- Words of 8 bytes in a thread's area. -/
def stackWords (ksp : Word) : Nat := field (ksp.zeroExtend 64) 31 24

/-- Whether the header of an area lies in the allotment. -/
def stackHeaderOk (b : Block) (tid : Nat) : Bool := stackArea b.ksp tid + 8 ≤ b.kern.pad

/-- Whether entry n fits in a thread's area and in the allotment. -/
def stackFits (b : Block) (tid n : Nat) : Bool :=
  n + 2 ≤ stackWords b.ksp && stackArea b.ksp tid + 8 * (n + 2) ≤ b.kern.pad

/-- Spill one entry behind those of the area, or none where it does not fit. -/
def spillEntry (b : Block) (tid : Nat) (e : DWord) : Option Block :=
  let a := stackArea b.ksp tid
  let n := b.pad.num a 4
  if stackHeaderOk b tid && stackFits b tid n then
    some ((b.writePad a (leBytes 4 (n + 1))).writePad (a + 8 * (n + 1)) (leBytes 8 e.toNat))
  else none

/-- Spill held entries, oldest first (R423): the block and how many were written; LOST is set for what does not fit. -/
def spillAll (b : Block) (tid : Nat) : List DWord → Block × Nat
  | [] => (b, 0)
  | e :: es =>
    match spillEntry b tid e with
    | some b' =>
      let (b'', k) := spillAll b' tid es
      (b'', k + 1)
    | none =>
      if stackHeaderOk b tid then
        let a := stackArea b.ksp tid + 7
        (b.writePad a [b.pad.rd a ||| 0x80], 0)
      else (b, 0)

/-! ## Ends of threads -/

/-- A live spawned thread of a query ends (R417). -/
def Core.endRoot (k : Core) (pos : Nat) (root : Option Nat) : Core :=
  match root with
  | none => k
  | some r =>
    let key := pos * 1024 + r
    match Tab.find? k.queries key with
    | none => k
    | some e => if e.count ≤ 1 then { k with queries := k.queries.del key }
                else { k with queries := k.queries.put key { e with count := e.count - 1 } }

/-- A lane that waits at barrier n proceeds: it may issue at its PC, or it waits at the end of its loop's body. -/
def Squad.passBar (q : Squad) (n : Nat) : Squad :=
  q.mapLanes fun l ln => match ln.at' with
    | .held h => if h.bar = some n then
        (match (q.loopOf l).filter fun x => x.endPc = h.pc with
          | some x => { ln with at' := .atEnd x.ctr }
          | none => { ln with at' := .held { h with bar := none } })
      else ln
    | _ => ln

/-- A barrier that has every thread completes (R60, R208): its count returns to 0, its phase flips, and every arrived thread
proceeds. -/
def Block.completeBar (b : Block) (n : Nat) : Block :=
  let bar := Tab.get ⟨0, false⟩ b.bars n
  if bar.count ≠ 0 && b.live ≤ bar.count then
    { b with
      bars := b.bars.put n ⟨0, !bar.phase⟩
      squads := b.squads.map fun (k, q) =>
        (k, (q.passBar n).settle) }
  else b

/-- Every barrier that can complete does; the records of its threads keep their mark until they are drawn (R208). -/
def Core.completeBars (k : Core) (pos : Nat) : Core :=
  match Tab.find? k.blocks pos with
  | none => k
  | some b =>
    let done := b.bars.filterMap fun (n, x) => if x.count ≠ 0 && b.live ≤ x.count then some n else none
    { k with
      blocks := k.blocks.put pos (done.foldl Block.completeBar b)
      recs := k.recs.map fun r => if r.pos = pos && (match r.bar with
        | some n => done.contains n
        | none => false) then { r with passed := true } else r }

/-- The outputs of a pixel thread go to the back end when it ends, or its samples leave it unchanged (R392, R393). -/
def Member.threadDone (m : Member) (launch index tid : Nat) (outs : Option (List Pxo)) : Member :=
  { m with shaded := m.shaded.map fun x =>
      if x.block = (launch, index) && x.tid = tid then { x with ready := true, outs := outs } else x }

/-- The results of a pixel thread of a stall. -/
def State.pixelDone (s : State) (st launch index tid : Nat) (outs : Option (List Pxo)) : State :=
  { s with passes := s.passes.map fun p =>
      { p with members := p.members.map fun (k, m) => (k, if k = st then m.threadDone launch index tid outs else m) } }

/-- A thread ends: the block's live count, its query, its pixel outputs. -/
def State.endThread (s : State) (q : Sel) (ln : Lane) (discard : Bool) : State :=
  match s.block? q.blk with
  | none => s
  | some b =>
    let s := match b.kind with
      | .rpixel _ => s.pixelDone q.stall b.launch b.index ln.tid (if discard then none else some ln.pxo)
      | _ => s
    let s := s.modBlock q.blk fun b => { b with live := b.live - 1 }
    s.modCore q.stall q.core fun k => k.endRoot q.pos ln.root

/-- A lane that runs on as a helper (R52): its thread has ended or gone elsewhere, and with it the reservation, the query, the
outputs and the held entries of its ray stack (log 36). -/
def Lane.asHelper (ln : Lane) : Lane := { ln with helper := true, resv := none, root := none, rstack := [], pxo := [] }

/-- The lanes that a word ends (R182, R52, R56): in a quad-locked launch a thread's lane runs on as a helper while its quad
keeps a thread; what its ray stack holds goes with the thread (log 53). -/
def Squad.endLanes (q : Squad) (quad : Bool) (ls : List Nat) : Squad :=
  if quad then (q.mapLanes fun l ln => if ls.contains l then ln.asHelper else ln).dropEmpty
  else { q with lanes := q.lanes.filter fun l => !ls.contains l.1 }

/-- Held ranges become unheld (R359). -/
def Task.release (t : Task) (p : Hold → Bool) : Task :=
  { t with
    unheld := t.unheld ++ ((t.held.filter fun h => p h && h.lo < h.hi).map fun h => (h.lo, h.hi))
    held := t.held.filter fun h => !p h }

/-- The ranges that squad slots of a block hold become unheld. -/
def State.releaseHolds (s : State) (st : Nat) (k : Block) (p : Nat → Bool) : State :=
  match k.kind with
  | .task id => s.modStall st fun t =>
      { t with tasks := t.tasks.map fun x => if x.id = id then x.release fun h => h.index = k.index && p h.slot else x }
  | _ => s

/-- Whether a write that a squad issued waits in the stall's write buffer or on its way to the host or another package. -/
def Stall.writesOfSquad (t : Stall) (q : Sel) : Bool := (t.wbuf.any fun w => w.src = some q) || t.posted.any fun p => p.src = some q

/-- A squad slot without lanes whose accesses are all performed (R182, R305). -/
def State.slotFree (s : State) (q : Sel) (x : Squad) : Bool :=
  x.lanes.isEmpty && x.sq.isEmpty && x.flight.all (·.perf) && !(s.stall q.stall).writesOfSquad q

/-- Empty squad slots whose accesses are performed are free (R182, R305). -/
def State.reapSquads (s : State) (b : BSel) : State :=
  s.modBlock b fun k => { k with squads := k.squads.filter fun x => !s.slotFree ⟨b.stall, b.core, b.pos, x.1⟩ x.2 }

/-- Whether a block has ended (R170): no thread present, held or filed, and what its threads issued performed (R305). A halt, and a
fault or a cause that is due, keep it. -/
def State.blockOver (s : State) (b : BSel) (k : Block) : Bool :=
  k.squads.isEmpty && !(s.core b.stall b.core).recs.any (fun r => r.pos = b.pos)
    && k.halt.phase = .run && k.halt.pendJob.isEmpty && k.halt.pendAsync.isEmpty

/-- Whether a job of the block at a position runs on a core: a copy, a collective or a matrix command (R352). -/
def Stall.hasJobs (t : Stall) (core pos : Nat) : Bool :=
  (t.core core).copies.any (fun j => j.pos = some pos) || t.colls.any (fun j => j.core = core && j.pos = pos)
    || match (t.core core).block? pos with
      | some k => !k.eng.run.isEmpty || !k.halt.pendJob.isEmpty
      | none => false

/-- Whether jobs of a launch's ended blocks run still (R352). -/
def Stall.leftJobs (t : Stall) (launch : Nat) : Bool :=
  t.cores.any fun c => c.2.left.any fun x => x.2.launch = launch && t.hasJobs c.1 x.1

/-- What blocks that had a position have left on a core goes when the position is taken again, but for those whose jobs run. -/
def Stall.clearLeft (t : Stall) (core pos : Nat) : Stall :=
  t.modCore core fun c => { c with left := c.left.filter fun x => x.1 % 16 ≠ pos || t.hasJobs core x.1 }

/-- A free number for what the block at a position leaves. -/
def Core.leftKey (c : Core) (pos : Nat) : Nat :=
  (((List.range (c.left.length + 1)).map fun i => 16 * (i + 1) + pos % 16).find? fun n => (Tab.find? c.left n).isNone).getD (16 + pos % 16)

/-- The jobs of an ended block go on under the number of what it leaves. -/
def Stall.moveJobs (t : Stall) (core pos key : Nat) : Stall :=
  { (t.modCore core fun c => { c with copies := c.copies.map fun j => if j.pos = some pos then { j with pos := some key } else j }) with
    colls := t.colls.map fun j => if j.core = core && j.pos = pos then { j with pos := key } else j }

/-! ## Ends of raster blocks (R377, R382, R384, R387) -/

/-- The members of a market (R28). -/
def State.members (s : State) (m : Nat) : List Nat := bitsOf (Tab.get ((0 : DWord), (0 : Word)) s.market m).1

/-- Send one raster message to every member of a market. -/
def State.primAll (s : State) (m : Nat) (f : Nat → PrimMsg) : State := { s with prims := s.prims ++ (s.members m).map f }

/-- Update the pass that a market has open. -/
def State.modPass (s : State) (m : Nat) (f : Pass → Pass) : State :=
  { s with passes := s.passes.map fun p => if p.market = m then f p else p }

/-- A group's done markers are sent: to each member, with the number of its packets (R384). -/
def State.sendDones (s : State) (m token st : Nat) (count : Nat → Nat) : State :=
  (s.primAll m fun x => .done m token (count x) x st).modPass m fun p =>
    { p with groups := p.groups.map fun g => if g.token = token then { g with culled := true } else g }

/-- The group count of a draw whose task blocks have all ended: the sum of the children, at most 2^24 (R377). -/
def Draw.childCount (d : Draw) : Nat := min (2 ^ 24) ((d.tasks.map (·.2)).foldl (· + ·) 0)

/-- A task block ends: its children are counted, and the last one's end fixes the draw's group count (R377). -/
def State.taskEnded (s : State) (m draw index children : Nat) : State :=
  let s := s.modPass m fun p =>
    { p with draws := updAt p.draws draw fun d => { d with tasks := d.tasks.put index children, tasksOver := d.tasksOver + 1 } }
  match s.passes.find? fun p => p.market = m with
  | none => s
  | some p => match p.draws[draw]? with
    | none => s
    | some d =>
      if d.tasksOver = d.count && d.total.isNone then
        (s.primAll m fun x => .drawStart m draw d.childCount x).modPass m fun p =>
          { p with draws := updAt p.draws draw fun d => { d with total := some d.childCount } }
      else s

/-- The threads of a pixel block that ended without an exit leave their samples unchanged (R387). -/
def Member.blockGone (x : Member) (launch index : Nat) : Member :=
  { x with shaded := x.shaded.map fun r => if r.block = (launch, index) && !r.ready then { r with ready := true, outs := none } else r }

/-- What the end of a block, resident or saved, means to a pass. -/
def State.rasterOver (s : State) (st launch index : Nat) (kind : BlockRole) (mesh : MeshOut) : State :=
  match kind with
  | .rtask m draw => s.taskEnded m draw index (if mesh.fin then mesh.count else 0)
  | .rmesh m token => if mesh.fin then s else s.sendDones m token st fun _ => 0
  | .rpixel m => s.modPass m fun p =>
      { p with members := p.members.map fun x => (x.1, if x.1 = st then x.2.blockGone launch index else x.2) }
  | _ => s

/-- A block that has ended leaves its position, its granules and its context slot (R43, R184, R443), and its launch counts
it. Its jobs that still run go on (R170, R352, log 57). -/
def State.endBlock (s : State) (b : BSel) : State :=
  match s.block? b with
  | none => s
  | some k =>
    let s := ((s.rasterOver b.stall k.launch k.index k.kind k.mesh).releaseHolds b.stall k fun _ => true).modStall b.stall fun t =>
      let t := t.clearLeft b.core b.pos
      t.moveJobs b.core b.pos ((t.core b.core).leftKey b.pos)
    let s := s.modCore b.stall b.core fun c =>
      { c with blocks := c.blocks.del b.pos, left := c.left.put (c.leftKey b.pos) k, recs := c.recs.filter fun r => r.pos ≠ b.pos,
               queries := c.queries.filter fun x => x.1 / 1024 ≠ b.pos,
               supOwner := c.supOwner.filter fun x => x.2.1 ≠ b.pos }
    s.modStall b.stall fun t =>
      { t with
        launches := t.launches.map fun l => if l.id = k.launch then { l with ended := l.ended + 1, mark := s.nextId } else l
        slots := match k.cslot with
          | none => t.slots
          | some i => t.slots.filter (· ≠ i) }

/-- What follows from squads that emptied or jobs that ended: free slots, and the end of the block. -/
def State.reap (s : State) (b : BSel) : State :=
  let s := s.reapSquads b
  match s.block? b with
  | none => s
  | some k =>
    if 16 ≤ b.pos then s.modStall b.stall fun t =>
      { t with launches := t.launches.map fun l => if l.id = k.launch then { l with mark := s.nextId } else l }
    else if s.blockOver b k then s.endBlock b else s

/-- The halt of a single step that a word leaves due whose squad holds no lane behind it (R459): no squad is left to stop, so it is
delivered as a cause without a word (log 22). -/
def State.stepGone (s : State) (q : Sel) : State :=
  if (s.squad? q).any fun x => x.lanes.isEmpty && x.step && !x.sup && !x.hr.stopped then
    s.modBlock q.blk fun b => { b with halt := { b.halt with pendAsync := b.halt.pendAsync ++ [0x72] } }
  else s

/-- What follows a word that may leave its squad without lanes. -/
def State.endWord (s : State) (q : Sel) : State := ((s.wordDone q false).stepGone q).reap q.blk

/-- A number from 64 up for a squad that leaves its slot, of the same issue slot. -/
def Block.freeNum (b : Block) (slot : Nat) : Nat :=
  (((List.range (b.squads.length + 1)).map fun i => 64 + slot % 4 + 4 * i).find? fun n => (Tab.find? b.squads n).isNone).getD 64

/-- The squad that an access came from, renamed. -/
def Sel.renamed (a : Sel) (n : Nat) (x : Sel) : Sel := if x = a then { a with slot := n } else x

/-- What names the squad of an access or a job, renamed. -/
def Stall.rename (t : Stall) (st : Nat) (q : Sel) (n : Nat) : Stall :=
  let t := if st = q.stall then
      t.modCore q.core fun c => { c with
        recs := c.recs.map fun r => if r.pos = q.pos && r.src = q.slot then { r with src := n } else r
        copies := c.copies.map fun j => if j.pos = some q.pos && j.slot = q.slot then { j with slot := n } else j }
    else t
  { t with
    wbuf := t.wbuf.map fun w => { w with src := w.src.map (Sel.renamed q n) }
    posted := t.posted.map fun w => { w with src := w.src.map (Sel.renamed q n) }
    far := t.far.map fun w => { w with q := Sel.renamed q n w.q }
    colls := t.colls.map fun j => if st = q.stall && j.core = q.core && j.pos = q.pos && j.slot = q.slot then { j with slot := n } else j }

/-- A squad slot that filing has emptied is empty at once (R58, R181): what its threads issued and is not performed yet goes on under a
number beyond the slots of blocks, 64 or more, that issues nothing (log 13). -/
def State.vacate (s : State) (q : Sel) : State :=
  match s.block? q.blk, s.squad? q with
  | some b, some sq =>
    if sq.lanes.isEmpty && q.slot < 64 && !s.slotFree q sq then
      let n := b.freeNum q.slot
      let s := s.modBlock q.blk fun b =>
        let name (x : Nat × Nat) : Nat × Nat := if x.1 = q.slot then (n, x.2) else x
        let b := { b with
          squads := (b.squads.del q.slot).put n { sq with asks := [] }
          eng := { b.eng with queued := b.eng.queued.map name, run := b.eng.run.map fun (c : MCmd) => { c with src := name c.src } } }
        { b with squads := b.squads.map fun x =>
            (x.1, { x.2 with reload := x.2.reload.map name }) }
      { s with stalls := s.stalls.map fun t => (t.1, t.2.rename t.1 q n) }
    else s
  | _, _ => s

/-- What follows a word that files its squad. -/
def State.endFiling (s : State) (q : Sel) : State := (((s.wordDone q false).stepGone q).vacate q).reap q.blk

/-- End the threads of active lanes (R182, R393), and then what follows. -/
def Ctx.endActive (c : Ctx) (discard : Bool) : State :=
  let ending := c.act.filter fun l => !l.2.helper
  let s := ending.foldl (fun s l => s.endThread c.q l.2 discard) c.s
  let s := s.modSquad c.q fun q => (q.endLanes c.blk.kern.quad (c.act.map (·.1))).advance.settle
  let gone : Bool := match s.squad? c.q with
    | some q => q.lanes.isEmpty
    | none => true
  let s := if gone then s.releaseHolds c.q.stall c.blk fun n => n = c.q.slot else s
  let s := s.modCore c.q.stall c.q.core fun k => k.completeBars c.q.pos
  s.endWord c.q

/-! ## Filing (R161 to R166) -/

/-- Bytes of a record (R162). -/
def Rec.size (r : Rec) : Nat := 32 + 16 * r.live

/-- The spill share of a core in bytes (R164). -/
def Stall.spillShare (t : Stall) : Nat := field t.cspill 63 56 * 65536

/-- Whether a record lies in the spill area (R164). -/
def Rec.spilled (r : Rec) : Bool := !r.spill.isEmpty

/-- Where a physical core's share of the spill area begins, as a local address (R164). -/
def Stall.shareBase (t : Stall) (c : Nat) : Nat := field t.cspill 40 16 * 65536 + c * t.spillShare

/-- The units of 16 bytes of a core's share that are taken: by its spilled records and by what saved blocks left there (R456). -/
def Stall.shareUsed (t : Stall) (c : Nat) : List Nat :=
  ((t.core c).recs ++ (t.saved.filter fun x => x.spillCore = c).flatMap (·.spillRecs)).flatMap (·.spill)

/-- The lowest n free units of a core's share (log 58). -/
def Stall.shareFree (t : Stall) (c n : Nat) : List Nat :=
  let used := t.shareUsed c
  ((List.range (used.length + n)).filter fun u => u < t.spillShare / 16 && !used.contains u).take n

/-- Bytes of a core's share taken. -/
def Stall.spillUsed (t : Stall) (c : Nat) : Nat := 16 * (t.shareUsed c).length

/-- Free bytes of crate memory (R161). -/
def Core.crateFree (k : Core) : Nat := 131072 - ((k.recs.filter fun r => !r.spilled).map Rec.size).foldl (· + ·) 0

/-- The keys of the bins in use (R166). -/
def Core.bins (k : Core) : List (Nat × Nat × DWord) := nub (k.recs.map fun r => (r.pos, r.role, r.pc))

/-- Whether filings of the given keys and total bytes have room (R165). -/
def Stall.hasRoom (t : Stall) (c : Nat) (keys : List (Nat × Nat × DWord)) (bytes : Nat) : Bool :=
  (nub ((t.core c).bins ++ keys)).length ≤ 64
    && bytes ≤ (t.core c).crateFree + (t.spillShare - t.spillUsed c)

/-- A group to file: the lanes that form it, its PC, LIVE, barrier mark, whether it stands at a wait, and the lanes that are filed,
each with whether it is filed as a helper. -/
structure FGroup where
  own : List Nat
  pc : DWord
  live : Nat
  bar : Option Nat
  atWait : Bool
  lanes : List (Nat × Lane × Bool)
deriving DecidableEq, Repr

/-- The record of a lane (R162); its ray stack goes to pad first. -/
def fileRec (b : Block) (q : Sel) (role : Nat) (clock order : Nat) (g : FGroup) (x : Nat × Lane × Bool) : Block × Rec :=
  let (l, ln, helper) := x
  let (b, rsk) := if helper then (b, 0) else spillAll b ln.tid ln.rstack.reverse
  (b, { pos := q.pos, role := role, pc := g.pc, tid := ln.tid, lane := l, live := g.live, pred := ln.p, helper := helper,
        bar := g.bar, passed := false, spawn := false, atWait := g.atWait, rsk := rsk, rnd := ln.rnd,
        stamp := clock % 2 ^ 32, regs := ln.v.filter fun v => v.1 < 4 * g.live, root := if helper then none else ln.root,
        src := q.slot, srcId := order, spill := [], unit := order * 16 + l / 4, pxo := if helper then [] else ln.pxo })

/-- Bytes of a register file: n words from register 0. -/
def wordsBytes (t : Tab Word) (n : Nat) : List Byte := (List.range n).flatMap fun i => leBytes 4 (Tab.get 0 t i).toNat

/-- A crate record (R162). -/
def Rec.bytes (r : Rec) : List Byte :=
  leBytes 8 r.pc.toNat ++ leBytes 2 r.tid ++ leBytes 1 r.lane ++ leBytes 1 r.live
    ++ leBytes 1 (r.pred.toNat + if r.helper then 128 else 0)
    ++ leBytes 1 (match r.bar with
      | none => 0
      | some n => 128 + n)
    ++ leBytes 1 ((if r.spawn then 1 else 0) + if r.atWait then 2 else 0)
    ++ leBytes 1 r.rsk ++ leBytes 4 r.rnd.toNat ++ leBytes 4 r.stamp ++ List.replicate 8 0 ++ wordsBytes r.regs (4 * r.live)

/-- The source number of records whose threads have no accesses left: no squad has it. -/
def freeSrc : Nat := 2 ^ 32

/-- The package address of a unit of a core's share. -/
def State.shareAddr (s : State) (st core u : Nat) : Nat := s.localPa st ((s.stall st).shareBase core + 16 * u)

/-- Write bytes to units of a core's share of the stall's DRAM (R164), through the stall's write buffer. -/
def State.writeShare (s : State) (st core : Nat) (bs : List Byte) : List Nat → State
  | [] => s
  | u :: us => (s.bufferBytes st none (s.shareAddr st core u) (sliceBytes bs 0 16)).writeShare st core (bs.drop 16) us

/-- Put records into the crate, or into the spill share where they do not fit (R164). -/
def State.addRecs (s : State) (st core : Nat) : List Rec → State
  | [] => s
  | r :: rs =>
    let us := if (s.core st core).crateFree < r.size then (s.stall st).shareFree core (r.size / 16) else []
    ((s.modCore st core fun k => { k with recs := k.recs ++ [{ r with spill := us }] }).writeShare st core r.bytes us).addRecs st core rs

/-- Whether the spilled bytes of records can be read back: their lines are there (R271). -/
def State.shareReady (s : State) (st core : Nat) (rs : List Rec) : Bool :=
  rs.all fun r => r.spill.all fun u => s.readableAt st (s.shareAddr st core u) 16

/-- The lines of spilled bytes that are not there yet are asked for (R274). -/
def State.shareAsk (s : State) (st core : Nat) (rs : List Rec) : State :=
  rs.foldl (fun s r => r.spill.foldl (fun s u => s.askAt st (s.shareAddr st core u) 16) s) s

/-- A record read back from the share (R164): its predicates, random state and registers are those of its bytes there (log 58). -/
def State.readBack (s : State) (st core : Nat) (r : Rec) : Rec :=
  if r.spilled then
    let bs := r.spill.flatMap fun u => s.seenBytes st (s.shareAddr st core u) 16
    { r with
      spill := []
      pred := BitVec.ofNat 7 (sliceNum bs 12 1)
      rnd := BitVec.ofNat 32 (sliceNum bs 16 4)
      regs := (List.range (4 * r.live)).foldl (fun t i => Tab.set 0 t i (BitVec.ofNat 32 (sliceNum bs (32 + 4 * i) 4))) [] }
  else r

/-- The lines of records that are read back have been read (R271). -/
def State.shareTouch (s : State) (st core : Nat) (rs : List Rec) : State :=
  s.takeReads st (nub (rs.flatMap fun r => r.spill.map fun u => s.shareAddr st core u / 64))

/-- File the records of a group's lanes, in ascending lane order. -/
def State.fileOne (s : State) (q : Sel) (role : Nat) (g : FGroup) : State :=
  let clock := s.cyc q.stall q.core
  let order := s.nextId
  g.lanes.foldl (fun s x =>
    match s.block? q.blk with
    | none => s
    | some b =>
      let (b', r) := fileRec b q role clock order g x
      (s.modBlock q.blk fun _ => b').addRecs q.stall q.core [r]) { s with nextId := order + 1 }

/-- Whether groups have room together. -/
def State.roomFor (s : State) (q : Sel) (role : Nat) (gs : List FGroup) : Bool :=
  (s.stall q.stall).hasRoom q.core (gs.map fun g => (q.pos, role, g.pc))
    ((gs.map fun g => g.lanes.length * (32 + 16 * g.live)).foldl (· + ·) 0)

/-- File groups in ascending PC order. The lanes are not yet removed from the squad. -/
def State.fileGroups (s : State) (q : Sel) (role : Nat) (gs : List FGroup) : State :=
  (sortBy (fun g => g.pc.toNat) gs).foldl (fun s g => s.fileOne q role g) s

/-- Remove lanes from a squad without ending their threads. -/
def Squad.remove (q : Squad) (ls : List Nat) : Squad := { q with lanes := q.lanes.filter fun l => !ls.contains l.1 }

/-! ## Whole quads (R51, R55, R160) -/

/-- What is filed where a group of lanes is: those lanes; in a quad-locked launch the whole quads that a lane of the group joins
which is no helper, the other lanes as helpers. -/
def Squad.fileLanes (q : Squad) (quad : Bool) (own : List Nat) : List (Nat × Lane × Bool) :=
  if quad then
    q.lanes.filterMap fun (l, ln) =>
      let joined := q.lanes.any fun (m, x) => m / 4 = l / 4 && !x.helper && own.contains m
      if joined then some (l, ln, ln.helper || !own.contains l) else none
  else q.lanes.filterMap fun (l, ln) => if own.contains l then some (l, ln, ln.helper) else none

/-- The squad without lanes that have been filed. In a quad-locked launch the lanes of a quad that keeps a thread here run on as
helpers beside it: in the issuing group if a thread of the quad is there, else beside the lowest lane that holds one (R55, R160,
log 36); a quad of helpers alone leaves (R56). -/
def Squad.unfile (q : Squad) (quad : Bool) (own : List Nat) : Squad :=
  if quad then
    let here (l : Nat) : List (Nat × Lane) := q.lanes.filter fun m => m.1 / 4 = l / 4 && !m.2.helper && !own.contains m.1
    let stays (l : Nat) : Option LaneAt :=
      if (here l).any fun m => m.2.at' = .issue then some .issue else (here l).head?.map fun m => m.2.at'
    (q.mapLanes fun l ln => if own.contains l then
      (match stays l with
        | some p => { ln.asHelper with at' := p }
        | none => ln.asHelper) else ln).dropEmpty
  else q.remove own

/-! ## Held groups (R171 to R173) -/

/-- The held groups outside every loop body, by PC and barrier mark, with the largest LIVE of their lanes. -/
def Squad.heldGroups (q : Squad) (quad : Bool) : List FGroup :=
  let hs := q.lanes.filterMap fun (l, ln) => match ln.at' with
    | .held h => if (q.loopOf l).isNone then some (l, h) else none
    | _ => none
  let keys := nub (hs.map fun x => (x.2.pc, x.2.bar))
  sortBy (fun g => g.pc.toNat) (keys.map fun k =>
    let ms := hs.filter fun x => (x.2.pc, x.2.bar) = k
    { own := ms.map (·.1), pc := k.1, live := (ms.map fun x => x.2.live).foldl max 0, bar := k.2, atWait := false,
      lanes := q.fileLanes quad (ms.map (·.1)) })

/-- File the held groups outside every loop body for which there is room, in ascending PC order, each as the filing of those before it
leaves it (R173). -/
def State.fileHeld (s : State) (q : Sel) : State :=
  match s.block? q.blk, s.squad? q with
  | some b, some sq =>
    if sq.sup then s
    else ((sq.heldGroups b.kern.quad).map fun g => (g.pc, g.bar)).foldl (fun s k => match s.squad? q with
      | none => s
      | some now => match (now.heldGroups b.kern.quad).find? fun g => (g.pc, g.bar) = k with
        | none => s
        | some g =>
          if !g.lanes.isEmpty && s.roomFor q sq.role [g] then (s.fileOne q sq.role g).modSquad q fun x => x.unfile b.kern.quad g.own
          else s) s
  | _, _ => s

/-- Hold a lane. -/
def Lane.hold (ln : Lane) (pc : DWord) (live clock seq : Nat) (left : List Nat) (bar : Option Nat) : Lane :=
  { ln with at' := .held ⟨pc, live, clock, seq, bar, left⟩ }

/-! ## Forced filing (R58) -/

/-- Whether a bin of the block and role has passed BAGE. -/
def Core.agedBin (k : Core) (now : Nat) (b : Block) (pos role : Nat) : Bool :=
  k.recs.any fun r => r.pos = pos && r.role = role && b.kern.bage ≤ (now + 2 ^ 32 - r.stamp) % 2 ^ 32

/-- The squad slots of a role that are empty. -/
def Block.emptySlots (b : Block) (role : Nat) : List Nat :=
  let (lo, hi) := b.kern.roleRange role
  (List.range (hi - lo)).filterMap fun i => match Tab.find? b.squads (lo + i) with
    | none => some (lo + i)
    | some _ => none

/-- Whether a thread of the squad is inside a protected lrs/scs sequence (R291). -/
def Squad.protected (q : Squad) (clock : Nat) : Bool :=
  q.lanes.any fun l => match l.2.resv with
    | some r => match r.prot with
      | some c => clock < c + 64
      | none => false
    | none => false

/-- The squad that forced filing takes: of the block and role, resident longest without being filed (R58); of squads that have
been resident equally long, that of the lowest slot (log 13). -/
def State.forcedSlot (s : State) (b : BSel) (role : Nat) : Option Nat :=
  match s.block? b with
  | none => none
  | some k =>
    let core := s.core b.stall b.core
    if core.agedBin (s.cyc b.stall b.core) k b.pos role && (k.emptySlots role).isEmpty && k.halt.phase = .run then
      (minBy (fun x => x.2.since * 64 + x.1) (k.squads.filter fun x => x.2.role = role && !x.2.lanes.isEmpty)).map (·.1)
    else none

/-! ## Divergent transfers (R160) -/

/-- The lane whose way a lane goes: its own; in a quad-locked launch a helper lane stays with its quad (R55): with a lane of the
quad that is no helper and goes where the helper's own way leads, else with the lowest that is no helper (log 36). -/
def Ctx.wayOf (c : Ctx) (next : List (Nat × DWord)) (l : Nat) (ln : Lane) : Nat :=
  if !ln.helper || !c.blk.kern.quad then l
  else
    let reals := c.present.filter fun m => m.1 / 4 = l / 4 && !m.2.helper
    match reals.find? fun m => (Tab.find? next l).isSome && Tab.find? next m.1 = Tab.find? next l with
    | some m => m.1
    | none => (reals.head?.map (·.1)).getD l

/-- The next PC of each present lane, helper lanes staying with their quads. -/
def Ctx.sides (c : Ctx) (next : List (Nat × DWord)) : List (Nat × DWord) :=
  c.present.filterMap fun (l, ln) => (Tab.find? next (c.wayOf next l ln)).map fun pc => (l, pc)

/-- The distinct next PCs, ascending. -/
def nextPcs (next : List (Nat × DWord)) : List DWord := sortBy BitVec.toNat (nub (next.map (·.2)))

/-- The groups of a divergent word that is filed. In a quad-locked launch a quad joins every group that one of its lanes
that are no helpers joins, and the others of its lanes go along as helpers, held lanes too (R51, R55). Lanes of quads that have no
thread in the issuing group make no group: they stay with the group that continues (log 36). -/
def groupsOf (c : Ctx) (next : List (Nat × DWord)) (live : Nat) : List FGroup :=
  ((nextPcs next).map fun pc =>
    let own := next.filterMap fun x => if x.2 = pc then some x.1 else none
    ({ own := own, pc := pc, live := live, bar := none, atWait := false, lanes := c.sq.fileLanes c.blk.kern.quad own } : FGroup)).filter
      fun g => !g.lanes.isEmpty

/-- The size of a group as R160 compares it: lanes, or quads in a quad-locked launch. -/
def FGroup.weight (g : FGroup) (quad : Bool) : Nat :=
  if quad then (nub (g.lanes.map fun x => x.1 / 4)).length else g.lanes.length

/-- Which group continues in place: for a direct branch the larger, and on a tie the one at PC + 8; else the lowest PC. -/
def continuing (c : Ctx) (gs : List FGroup) (direct : Bool) : DWord :=
  match gs with
  | [] => c.sq.pc + 8
  | g :: t =>
    if direct then
      let best := t.foldl (fun b x =>
        let wb := b.weight c.blk.kern.quad
        let wx := x.weight c.blk.kern.quad
        if wb < wx || (wb = wx && x.pc = c.sq.pc + 8) then x else b) g
      best.pc
    else g.pc

/-- Where a lane of a word that holds its groups goes: issuing at a PC, held outside the bodies of loops that it leaves (R176), or
waiting at the end of its innermost loop's body (R175). -/
def holdAt (c : Ctx) (taken : Bool) (l : Nat) (pc : DWord) : LaneAt × Option DWord :=
  let mine := c.sq.loops.filter fun x => x.entered.contains l
  if taken then
    match (mine.filter fun x => !x.holds pc).map (·.ctr) with
    | [] => (.issue, some pc)
    | left => (.held ⟨pc, 0, 0, 0, none, left⟩, none)
  else match mine.head?.filter fun x => x.endPc = pc with
    | some x => (.atEnd x.ctr, none)
    | none => (.issue, some pc)

/-- Hold the groups of a divergent word in place (R160, R171, R172, R176): the lowest next PC issues. -/
def Ctx.holdGroups (c : Ctx) (s : State) (next : List (Nat × DWord)) (live : Nat) : State :=
  let clock := s.cyc c.q.stall c.q.core
  let taken (l : Nat) : Bool := match Tab.find? c.present l with
    | some ln => c.act.any fun x => x.1 = c.wayOf next l ln
    | none => false
  let going := next.filterMap fun (l, pc) => (holdAt c (taken l) l pc).2
  let first := minBy BitVec.toNat going
  let s' := s.modSquad c.q fun q =>
    let q := match first with
      | none => q
      | some pc => { q with pc := pc }
    next.foldl (fun q (l, pc) => q.modLane l fun ln =>
        match holdAt c (taken l) l pc with
        | (.issue, _) => if some pc = first then ln else ln.hold pc live clock s.nextId [] none
        | (.held h, _) => ln.hold pc live clock s.nextId h.left none
        | (.atEnd d, _) => { ln with at' := .atEnd d }) q
  { s' with nextId := s.nextId + 1 }

/-- The context after the held groups are filed: the squad as it is now, with the lanes that issue. -/
def Ctx.relook (c : Ctx) (s : State) : Ctx :=
  match s.squad? c.q with
  | none => c
  | some sq => { c with s := s, sq := sq, present := sq.issuing }

/-- divert (R160). The squad's PC is set. A squad in supervisor mode files nothing: it holds its groups in place (log 18). -/
def Ctx.divert (c : Ctx) (s : State) (next : List (Nat × DWord)) (live : Nat) (direct : Bool) : State :=
  if c.sq.inBody || c.sq.sup then
    let c := c.relook s
    c.holdGroups s (c.sides next) live
  else
    let s := s.fileHeld c.q
    let c := c.relook s
    let next := c.sides next
    let gs := groupsOf c next live
    match gs with
    | [] => s.modSquad c.q fun q => { q with pc := (next.head?.map (·.2)).getD (q.pc + 8) }
    | [g] => s.modSquad c.q fun q => { q with pc := g.pc }
    | _ =>
      let cont := continuing c gs direct
      let filed := gs.filter fun g => g.pc ≠ cont
      if s.roomFor c.q c.sq.role filed then
        (s.fileGroups c.q c.sq.role filed).modSquad c.q fun q =>
          { (q.unfile c.blk.kern.quad (filed.flatMap (·.own))) with pc := cont }
      else c.holdGroups s next live

/-- The held group that has been held longest, if it has been held for BAGE clocks (R172, step 4). -/
def Squad.agedHeld (q : Squad) (bage clock : Nat) : Option Held :=
  minBy (fun h => h.since * 2 ^ 32 + h.seq) (q.lanes.filterMap fun (_, ln) => match ln.at' with
    | .held h => if h.left = [] && h.bar = none && bage ≤ clock - h.since then some h else none
    | _ => none)

/-- The age rule (R172, step 4): the issuing group is held and the group held longest issues. -/
def Squad.ageSwap (q : Squad) (h : Held) (live clock seq : Nat) : Squad :=
  let q := q.mapLanes fun _ ln => if ln.at' = .issue then ln.hold q.pc live clock seq [] none else ln
  { q with pc := h.pc, point := none }.join

/-- A transfer word with a lane taken, or a reform, is a point of R58 and R172. -/
def Ctx.reached (c : Ctx) (s : State) (live : Nat) : State := s.modSquad c.q fun q =>
  { q with point := if c.act.isEmpty then none else some (live, true) }

end Sys2Proof.Machine
end

