-- ==== Sys2Proof/Machine/Control.lean ====
section
/-! DEFINITION. The control-flow words (R174 to R183, R461) and the events of chapter 06. -/

set_option Elab.async false

namespace Sys2Proof.Machine

open Sys2Proof

/-- The 0x03 of a LIVE beyond the budget (R70). -/
def liveBad (c : Ctx) (live : Live) : Bool := c.budget < 4 * live.val

/-- The next PC of every present lane: active lanes go to their target, the others to PC + 8 (R160). -/
def Ctx.nexts (c : Ctx) (t : Nat → Lane → DWord) : List (Nat × DWord) :=
  c.present.map fun l => (l.1, if c.act.any fun a => a.1 = l.1 then t l.1 l.2 else c.sq.pc + 8)

/-- Write the link of active lanes, PC + 8 (R178, R179). -/
def Ctx.link (c : Ctx) (d : Opnd) : State :=
  c.s.modSquad c.q fun q => c.act.foldl (fun q l => q.modLane l.1 fun ln => ln.write d (wordsOf true (c.sq.pc + 8))) q

/-- The context after the links are written, for filing. -/
def Ctx.relane (c : Ctx) (s : State) : Ctx :=
  match s.squad? c.q with
  | none => c
  | some sq =>
    let up (l : Nat × Lane) : Nat × Lane := (l.1, (Tab.find? sq.lanes l.1).getD l.2)
    { c with s := s, sq := sq, present := c.present.map up, act := c.act.map up }

/-- A transfer (R160): the checks have passed. -/
def Ctx.transfer (c : Ctx) (link : Option Opnd) (t : Nat → Lane → DWord) (live : Nat) (direct : Bool) : Res :=
  let next := c.nexts t
  let c' := match link with
    | none => c
    | some d => c.relane (c.link d)
  .at' (c'.reached (c'.divert c'.s next live direct) live)

/-- The causes of active lanes; those of helper lanes are not raised and the lane leaves (R53). A lane that waits for a line,
a helper too, makes the word wait. -/
def Ctx.laneCauses (c : Ctx) (f : Nat → Lane → Option Nat) : List (Nat × Nat) × List Nat :=
  (c.act.filterMap fun l => if l.2.helper && !(f l.1 l.2).any isWait then none else (f l.1 l.2).map fun x => (l.1, x),
   c.act.filterMap fun l => if l.2.helper && (f l.1 l.2).isSome then some l.1 else none)

/-- The context without lanes that left. -/
def Ctx.without (c : Ctx) (ls : List Nat) : Ctx :=
  if ls.isEmpty then c
  else
    let s := c.s.modSquad c.q fun q => q.dropLanes ls
    { (c.relane s) with present := c.present.filter fun l => !ls.contains l.1, act := c.act.filter fun l => !ls.contains l.1 }

/-- A transfer after the checks of each active lane's target. -/
def Ctx.checkedTransfer (c : Ctx) (check : Nat → Lane → Option Nat) (link : Option Opnd) (t : Nat → Lane → DWord)
    (live : Nat) (direct : Bool) : Res :=
  let (cs, gone) := c.laneCauses check
  if cs ≠ [] then .raise cs 0 else (c.without gone).transfer link t live direct

/-- The target of a direct branch (R69). -/
def directTarget (pc : DWord) (off : BitVec 24) : DWord := pc + 8 + (off.signExtend 64 <<< 3)

/-- The cause of a target, by what must stand there: nothing more, a land word, or a land word with the tag (R178, R179). -/
def targetCause (c : Ctx) (t : DWord) (land : Bool) (tag : Option (BitVec 12)) (k : Nat) : Option Nat :=
  if t.toNat % 8 ≠ 0 then some 0x06
  else match c.target t k with
    | .error e => some e
    | .ok w =>
      if land && !isLand w then some 0x06
      else match tag with
        | some g => if w.extractLsb' 0 12 = g then none else some 0x05
        | none => none

/-- bra (R178). -/
def execBra (h : Hdr) (off : BitVec 24) (live : Live) (s : State) : Host.Outcome State Fault Refusal :=
  issue h (fun c => { uses := [], bad := liveBad c live, all := true })
    (fun c =>
      let t := directTarget c.sq.pc off
      let e := targetCause c t false none 0
      c.checkedTransfer (fun _ _ => e) none (fun _ _ => t) live.val true) s

/-- call (R178): the word at the target must be land; its tag is not checked. -/
def execCall (h : Hdr) (link : Opnd) (off : BitVec 24) (live : Live) (s : State) : Host.Outcome State Fault Refusal :=
  issue h (fun c => { uses := [.w2 link], bad := liveBad c live || !(link.isVec || link = .zero), all := true })
    (fun c =>
      let t := directTarget c.sq.pc off
      let e := targetCause c t true none 0
      c.checkedTransfer (fun _ _ => e) (some link) (fun _ _ => t) live.val true) s

/-- Whether an operand can hold an indirect target (R177). -/
def targetOk (a : Opnd) : Bool := a.isVec || a.isSca

/-- jmp (R179). -/
def execJmp (h : Hdr) (a : Opnd) (tag : BitVec 12) (live : Live) (s : State) : Host.Outcome State Fault Refusal :=
  issue h (fun c => { uses := [.r2 a], bad := liveBad c live || !targetOk a, all := true })
    (fun c => c.checkedTransfer (fun l ln => targetCause c (c.rd64 ln a) true (some tag) l) none (fun _ ln => c.rd64 ln a)
      live.val false) s

/-- calli (R179): the links are written after a is read. -/
def execCalli (h : Hdr) (d a : Opnd) (tag : BitVec 12) (live : Live) (s : State) : Host.Outcome State Fault Refusal :=
  issue h (fun c => { uses := [.w2 d, .r2 a], bad := liveBad c live || !targetOk a || !(d.isVec || d = .zero), all := true })
    (fun c => c.checkedTransfer (fun l ln => targetCause c (c.rd64 ln a) true (some tag) l) (some d) (fun _ ln => c.rd64 ln a)
      live.val false) s

/-- ret (R179): neither land word nor tag is checked. -/
def execRet (h : Hdr) (a : Opnd) (live : Live) (s : State) : Host.Outcome State Fault Refusal :=
  issue h (fun c => { uses := [.r2 a], bad := liveBad c live || !targetOk a, all := true })
    (fun c => c.checkedTransfer (fun l ln => targetCause c (c.rd64 ln a) false none l) none (fun _ ln => c.rd64 ln a)
      live.val false) s

/-- land (R180): no effect. -/
def execLand (h : Hdr) (_tag : BitVec 12) (s : State) : Host.Outcome State Fault Refusal :=
  issue h (fun _ => { uses := [] }) (fun c => .ok c.s) s

/-- nop (R183). -/
def execNop (h : Hdr) (s : State) : Host.Outcome State Fault Refusal :=
  issue h (fun _ => { uses := [] }) (fun c => .ok c.s) s

/-- yield (R183): the squad ranks as if it had just become ready. -/
def execYield (h : Hdr) (s : State) : Host.Outcome State Fault Refusal :=
  issue h (fun _ => { uses := [] })
    (fun c => .ok (if c.act.isEmpty then c.s
      else
        c.s.modSquad c.q fun q => { q with ready := some (c.s.cyc c.q.stall c.q.core) })) s

/-- exit (R182). -/
def execExit (h : Hdr) (s : State) : Host.Outcome State Fault Refusal :=
  issue h (fun _ => { uses := [], all := true }) (fun c => .over (c.endActive false)) s

/-- brk (R461, R439): 0x71 in every active lane, and the squad resumes at PC + 8. -/
def execBrk (h : Hdr) (_code : BitVec 12) (s : State) : Host.Outcome State Fault Refusal :=
  issue h (fun _ => { uses := [] })
    (fun c => match c.real with
      | none => .ok c.s
      | some _ =>
        .at' (c.s.takeCauses c.q ((c.act.filter fun l => !l.2.helper).map fun l => (l.1, 0x71)) (c.sq.pc + 8) 0)) s

/-! ## reform and loop -/

/-- Whether a squad is full (R181). -/
def Squad.full (q : Squad) (w : Nat) (quad : Bool) : Bool :=
  if quad then w / 4 ≤ (nub (q.issuing.map fun l => l.1 / 4)).length else w ≤ q.issuing.length

/-- Whether another thread of the block and role is present in another slot, held, or filed (R181). -/
def State.othersOf (s : State) (q : Sel) (role : Nat) : Bool :=
  (match s.block? q.blk with
    | none => false
    | some b => b.squads.any fun (n, x) => x.role = role &&
        (if n = q.slot then x.lanes.any fun l => l.2.at' ≠ .issue else !x.lanes.isEmpty))
    || (s.core q.stall q.core).recs.any fun r => r.pos = q.pos && r.role = role

/-- Hold every issuing lane of a squad at a PC with a LIVE (R165, R171). -/
def Squad.holdAll (q : Squad) (pc : DWord) (live clock seq : Nat) : Squad :=
  q.mapLanes fun _ ln => if ln.at' = .issue then ln.hold pc live clock seq [] none else ln

/-- reform (R181). Without room its lanes are held at PC + 8, and the lowest of the held groups goes on (R165, R172). -/
def execReform (sbit : Bool) (live : Live) (s : State) : Host.Outcome State Fault Refusal :=
  issue (Hdr.plain sbit) (fun c => { uses := [], bad := liveBad c live, all := true })
    (fun c =>
      if c.sq.inBody then .ok c.s
      else
        let s := c.s.fileHeld c.q
        let c := c.relook s
        let next := c.sides (c.present.map fun l => (l.1, c.sq.pc + 8))
        let gs := groupsOf c next live.val
        if c.sq.full c.blk.kern.width c.blk.kern.quad || c.sq.agedDraw || !s.othersOf c.q c.sq.role then
          .at' (s.modSquad c.q fun q =>
            { q with pc := q.pc + 8, agedDraw := false, point := if c.sq.agedDraw then none else some (live.val, false) })
        else if s.roomFor c.q c.sq.role gs then
          .over (((s.fileGroups c.q c.sq.role gs).modSquad c.q fun q =>
            { (q.unfile c.blk.kern.quad (c.present.map (·.1))) with agedDraw := false, point := none }).endFiling c.q)
        else
          .at' ({ s.modSquad c.q fun q => { (q.holdAll (q.pc + 8) live.val (s.cyc c.q.stall c.q.core) s.nextId) with
              point := some (live.val, false) } with nextId := s.nextId + 1 })) s

/-- The count of loop (R174). -/
def Ctx.loopCount (c : Ctx) : LoopCount → Nat
  | .imm n => n.toNat
  | .reg a => match a with
    | .sca k => (c.sca k).toNat
    | _ => 0

/-- The 0x07 of loop (R174, points 1 and 2). -/
def loopTooLong (c : Ctx) (len : BitVec 10) : Bool :=
  256 < len.toNat || c.sq.loops.any fun x =>
    c.present.any (fun l => x.entered.contains l.1) && x.endPc < c.sq.pc + 8 + BitVec.ofNat 64 (8 * len.toNat)

/-- The 0x03 of loop (R174, point 3, and the source operand). The points are taken in their order, so a loop that is too long
raises 0x07 whatever its counter (log 12). -/
def loopBad (c : Ctx) (ctr : Fin 3) (count : LoopCount) (len : BitVec 10) : Bool :=
  (match count with
    | .imm _ => false
    | .reg a => !a.isSca) || (!loopTooLong c len && c.sq.loops.any fun l => l.ctr = ctr.val)

/-- loop (R174). -/
def execLoop (sbit : Bool) (ctr : Fin 3) (count : LoopCount) (len : BitVec 10) (s : State) :
    Host.Outcome State Fault Refusal :=
  issue (Hdr.plain sbit)
    (fun c => { uses := match count with
                  | .imm _ => []
                  | .reg a => [.r a],
                bad := loopBad c ctr count len, loop := loopTooLong c len })
    (fun c =>
      let n := c.loopCount count
      if n = 0 then
        .at' (c.s.modSquad c.q fun q =>
          { q with pc := q.pc + 8 + BitVec.ofNat 64 (8 * len.toNat), point := none }.fallEnd)
      else
        .at' (c.s.modSquad c.q fun q =>
          { q with pc := q.pc + 8, point := none, lc := Tab.set 0 q.lc ctr.val (BitVec.ofNat 32 n),
                   loops := ⟨q.pc + 8, len.toNat, ctr.val, c.present.map (·.1)⟩ :: q.loops })) s

/-- The loop whose end test is due: every lane that entered it waits at its body's end, has left or has exited (R175). -/
def Squad.dueLoop (q : Squad) : Option Loop :=
  q.loops.find? fun x => q.lanes.all fun (l, ln) => !x.entered.contains l || match ln.at' with
    | .issue => false
    | .held h => h.left.contains x.ctr
    | .atEnd c => c = x.ctr

/-- The lanes that wait at a loop's end issue at a PC; a group that issues elsewhere is held meanwhile (R175, R176, log 46). -/
def Squad.wake (q : Squad) (x : Loop) (pc : DWord) (live clock seq : Nat) : Squad :=
  { (q.mapLanes fun _ ln => match ln.at' with
      | .atEnd c => if c = x.ctr then { ln with at' := .issue } else ln
      | .issue => if q.pc = pc then ln else ln.hold q.pc live clock seq [] none
      | .held _ => ln) with pc := pc }

/-- A loop is over for its squad: the lanes that left its body wait for it no longer (R176). -/
def Squad.endLoop (q : Squad) (x : Loop) : Squad :=
  { (q.mapLanes fun _ ln => match ln.at' with
      | .held h => { ln with at' := .held { h with left := h.left.filter (· ≠ x.ctr) } }
      | _ => ln) with
    lc := Tab.set 0 q.lc x.ctr 0
    loops := q.loops.filter fun y => y.ctr ≠ x.ctr }

/-- The end test of a loop (R175, R176). The word before it is no point of R58 (R175). -/
def Squad.endTest (q : Squad) (x : Loop) (live clock seq : Nat) : Squad :=
  let waits := q.lanes.any fun l => l.2.at' = .atEnd x.ctr
  let n := Tab.get 0 q.lc x.ctr
  let q := { q with point := none }
  if n.toNat > 1 && waits then ({ (q.wake x x.first live clock seq) with lc := Tab.set 0 q.lc x.ctr (n - 1) }).settle
  else if waits then ((q.wake x x.endPc live clock seq).endLoop x).fallEnd.settle
  else (q.endLoop x).settle

/-- Whether no lane that entered a loop is in another one: the loop was its outermost. -/
def Squad.outermost (q : Squad) (x : Loop) : Bool := !q.loops.any fun y => y.ctr ≠ x.ctr && y.entered.any x.entered.contains

/-- Whether a squad goes on at all: its block runs or comes to a halt, or the squad itself is in supervisor mode (R435, R445). -/
def Block.letsGo (b : Block) (q : Squad) : Bool := b.halt.phase = .run || b.halt.phase = .halting || (b.halt.phase = .inSup && q.sup)

/-- LOOP_END_TEST: every entered lane waits at the body's end, has left or has exited (R175). At the outermost body's end the groups
held at the PC of the lanes that completed it join them, or, if there are none, the lowest held group issues; then the groups still
held are filed (R172, R173, log 46). -/
def execLoopEndTest (q : Sel) (s : State) : Host.Outcome State Fault Refusal :=
  match s.block? q.blk, s.squad? q with
  | some b, some sq =>
    match sq.dueLoop with
    | none => .next s
    | some x =>
      if b.letsGo sq then
        let s' := { (s.modSquad q fun y => y.endTest x (b.kern.budget sq.role / 4) (s.cyc q.stall q.core) s.nextId) with nextId := s.nextId + 1 }
        let ends : Bool := !((s'.squad? q).any fun y => y.loops.any fun z => z.ctr = x.ctr)
        .next (if ends && sq.outermost x then (((s'.fileHeld q).modSquad q Squad.settle).vacate q).reap q.blk else s')
      else .next s
  | _, _ => .next s

/-! ## Forced filing, held groups, draws -/

/-- FORCED_FILING (R58): at a taken branch, a reform or a park of the squad that the rule takes, its threads are filed at the
PC each would execute next. A squad whose results are still in flight is filed once they have returned (log 13). -/
def execForcedFiling (st core : Nat) (s : State) : Host.Outcome State Fault Refusal :=
  let k := s.core st core
  .next (k.blocks.foldl (fun s (pos, b) =>
    (List.range b.kern.roles.length).foldl (fun s role =>
      match s.forcedSlot ⟨st, core, pos⟩ role with
      | none => s
      | some slot =>
        let q : Sel := ⟨st, core, pos, slot⟩
        match s.squad? q with
        | none => s
        | some sq =>
          let clock := s.cyc st core
          let waiting := match sq.park with
            | .wait _ _ _ _ => true
            | .pwait => true
            | _ => false
          let atBar := sq.issuing.isEmpty && sq.loops.isEmpty
          let live : Option Nat :=
            if sq.park = .none then (if atBar then some 0 else sq.point.map (·.1)) else if waiting then some (b.kern.budget role / 4)
            else none
          match live with
          | none => s
          | some lv =>
            if sq.loops ≠ [] || sq.sup || sq.stepped || sq.protected clock || sq.flight.any (fun f => !f.ret) then s
            else
              let own := sq.issuing.map (·.1)
              let g : FGroup := { own := own, pc := sq.pc, live := lv, bar := none, atWait := waiting,
                                  lanes := sq.fileLanes b.kern.quad own }
              let gs := (g :: sq.heldGroups b.kern.quad).filter fun g => !g.lanes.isEmpty
              if s.roomFor q role gs then
                let s := s.fileGroups q role gs
                let s := s.modSquad q fun x => { x with lanes := [], park := .none, point := none, flight := [] }
                (s.vacate q).reap q.blk
              else s) s) s)

/-- HELD_GROUP_AGE (R172, step 4): at the issuing group's taken branch, the group held longest issues instead. -/
def execHeldGroupAge (q : Sel) (s : State) : Host.Outcome State Fault Refusal :=
  match s.block? q.blk, s.squad? q with
  | some b, some sq =>
    match sq.point, sq.agedHeld b.kern.bage (s.cyc q.stall q.core) with
    | some (live, true), some h =>
      if sq.issuing.isEmpty || !b.letsGo sq || sq.protected (s.cyc q.stall q.core) then .next s
      else
        let s' := s.modSquad q fun x => x.ageSwap h live (s.cyc q.stall q.core) s.nextId
        .next { s' with nextId := s.nextId + 1 }
    | _, _ => .next s
  | _, _ => .next s

/-- The records of a bin, in filing order. -/
def Core.binRecs (k : Core) (pos role : Nat) (pc : DWord) : List Rec :=
  k.recs.filter fun r => r.pos = pos && r.role = role && r.pc = pc

/-- The clocks since a record was filed, modulo 2^32 (R166). -/
def Rec.age (r : Rec) (now : Nat) : Nat := (now + 2 ^ 32 - r.stamp) % 2 ^ 32

/-- The age of the oldest of some records (R166). -/
def oldestAge (now : Nat) (rs : List Rec) : Nat := (rs.map fun r => r.age now).foldl max 0

/-- Whether a bin is aged, and whether it is full (R166). -/
def binAged (now bage : Nat) (rs : List Rec) : Bool := rs.any fun r => bage ≤ r.age now

/-- Full: W threads, or W / 4 quads in a quad-locked launch (R166). -/
def binFull (w : Nat) (quad : Bool) (rs : List Rec) : Bool := if quad then w / 4 ≤ (nub (rs.map (·.unit))).length else w ≤ rs.length

/-- The bin that R167 picks for a block and role: the aged bin with the oldest record, else the full bin with the oldest. -/
def Core.pickBin (k : Core) (now : Nat) (b : Block) (pos role : Nat) : Option (DWord × Bool) :=
  let pcs := nub ((k.recs.filter fun r => r.pos = pos && r.role = role).map (·.pc))
  let oldest (ok : List Rec → Bool) : Option DWord :=
    minBy (fun pc => 2 ^ 32 - oldestAge now (k.binRecs pos role pc)) (pcs.filter fun pc => ok (k.binRecs pos role pc))
  match oldest (binAged now b.kern.bage) with
  | some pc => some (pc, true)
  | none => (oldest (binFull b.kern.width b.kern.quad)).map fun pc => (pc, false)

/-- The first of the empty lanes of a width. -/
def firstEmpty (w : Nat) (t : Tab Lane) : Option Nat :=
  (List.range w).find? fun l => (Tab.find? t l).isNone

/-- The lane a record becomes (R169). -/
def laneOfRec (r : Rec) (budget : Nat) (clock : Nat) : Lane where
  tid := r.tid
  v := r.regs
  p := r.pred
  rnd := r.rnd
  rstack := []
  resv := none
  helper := r.helper
  at' := match r.bar with
    | none => .issue
    | some n => if r.passed then .issue else .held ⟨r.pc, budget / 4, clock, 0, some n, []⟩
  root := r.root
  pxo := r.pxo

/-- Place threads in filing order: each takes its lane if empty, else the lowest empty one (R168). -/
def placeRecs (w budget clock : Nat) (t : Tab Lane) : List Rec → Tab Lane
  | [] => t
  | r :: rs =>
    let l := match Tab.find? t r.lane with
      | none => if r.lane < w then some r.lane else firstEmpty w t
      | some _ => firstEmpty w t
    placeRecs w budget clock (match l with
      | some l => t.put l (laneOfRec r budget clock)
      | none => t) rs

/-- Place quads in filing order: a quad takes its former position if free, else the lowest free one (R168). -/
def placeQuads (w budget clock : Nat) (t : Tab Lane) : List Rec → Nat → Tab Lane
  | _, 0 => t
  | [], _ => t
  | r :: rs, fuel + 1 =>
    let quad := (r :: rs).takeWhile fun x => x.unit = r.unit
    let rest := (r :: rs).drop quad.length
    let free (k : Nat) : Bool := !(t.any fun x => x.1 / 4 = k)
    let pos := if r.lane / 4 < w / 4 && free (r.lane / 4) then some (r.lane / 4) else (List.range (w / 4)).find? free
    let t' := match pos with
      | none => t
      | some k => quad.foldl (fun t x => t.put (4 * k + x.lane % 4) (laneOfRec x budget clock)) t
    placeQuads w budget clock t' rest fuel

/-- The records a draw takes from a bin: up to W threads, or up to W / 4 whole quads. -/
def drawTake (w : Nat) (quad : Bool) (rs : List Rec) : List Rec :=
  if quad then
    let us := (nub (rs.map (·.unit))).take (w / 4)
    rs.filter fun r => us.contains r.unit
  else rs.take w

/-- Without the first `n` records of a bin; the others keep their filing order (R166, R167). -/
def dropRecs (bin : Rec → Bool) : Nat → List Rec → List Rec
  | 0, rs => rs
  | _, [] => []
  | n + 1, r :: rs => if bin r then dropRecs bin n rs else r :: dropRecs bin (n + 1) rs

/-- A squad as it starts: nothing in its registers, queues or watch slots. -/
def Squad.start (role : Nat) (pc : DWord) (lanes : Tab Lane) (clock : Nat) : Squad where
  role := role
  pc := pc
  lanes := lanes
  sca := []
  lc := []
  loops := []
  w0 := .off
  w1 := .off
  flight := []
  sq := []
  park := .none
  agedDraw := false
  point := none
  reload := []
  asks := []
  since := clock
  ready := none
  issued := clock
  hr := .reset
  sup := false
  step := false
  stepped := false
  dbg := 0
  wp0 := 0
  wp1 := 0

/-- Draw once for a block and role, if a slot is empty and a bin is eligible (R167 to R169). Records that lie in the spill share are
read back under the tokens of their lines; a draw whose lines are not there yet waits (R271). -/
def State.drawOne (s : State) (b : BSel) (role : Nat) : Option State :=
  match s.block? b with
  | none => none
  | some blk =>
    let k := s.core b.stall b.core
    match blk.emptySlots role, k.pickBin (s.cyc b.stall b.core) blk b.pos role with
    | slot :: _, some (pc, aged) =>
      let bin := k.binRecs b.pos role pc
      let w := blk.kern.width
      let raw := drawTake w blk.kern.quad bin
      if !s.shareReady b.stall b.core raw then none
      else
      let taken := raw.map (s.readBack b.stall b.core)
      let budget := blk.kern.budget role
      let lanes := if blk.kern.quad then placeQuads w budget (s.cyc b.stall b.core) [] taken taken.length
                   else placeRecs w budget (s.cyc b.stall b.core) [] taken
      let sq := { Squad.start role pc lanes (s.cyc b.stall b.core) with
        park := .reload
        agedDraw := aged && !binFull w blk.kern.quad bin
        reload := nub (taken.map fun r => (r.src, r.srcId)) }
      let s := (s.shareTouch b.stall b.core raw).modCore b.stall b.core fun k =>
        { k with recs := dropRecs (fun r => r.pos = b.pos && r.role = role && r.pc = pc) taken.length k.recs }
      let s := s.modBlock b fun x => { x with squads := x.squads.put slot sq }
      some { s with nextId := s.nextId + 1 }
    | _, _ => none

/-- The spilled bytes that the next draw of a block and role has to read are asked for (R274). -/
def State.drawAsk (s : State) (b : BSel) (role : Nat) : State :=
  match s.block? b with
  | none => s
  | some blk =>
    let k := s.core b.stall b.core
    match blk.emptySlots role, k.pickBin (s.cyc b.stall b.core) blk b.pos role with
    | _ :: _, some (pc, _) => s.shareAsk b.stall b.core (drawTake blk.kern.width blk.kern.quad (k.binRecs b.pos role pc))
    | _, _ => s

/-- Draw for a block and role while it can (R167, step 4). -/
def State.drawAll (s : State) (b : BSel) (role : Nat) : Nat → State
  | 0 => s
  | n + 1 => match s.drawOne b role with
    | none => s.drawAsk b role
    | some s' => State.drawAll s' b role n

/-- BIN_DRAW: a core draws for every block that is not halted, and every role (R167, R435). -/
def execBinDraw (st core : Nat) (s : State) : Host.Outcome State Fault Refusal :=
  .next ((s.core st core).blocks.foldl (fun s (pos, b) =>
    if b.halt.phase = .run then
      (List.range b.kern.roles.length).foldl (fun s role => s.drawAll ⟨st, core, pos⟩ role 64) s
    else s) s)

/-- Whether the accesses that a drawn squad's threads made in another squad have left its store queue, so that the squad reads
them, and its reads and acquire fences among them are performed (R294). -/
def Block.reloadReady (b : Block) (sq : Squad) : Bool :=
  sq.reload.all fun x => match Tab.find? b.squads x.1 with
    | none => true
    | some src => (src.sq.all fun e => x.2 ≤ e.id) && src.flight.all fun f => x.2 ≤ f.id || f.perf

/-- DRAW_RELOAD_COMPLETE: the squad becomes ready (R169). -/
def execDrawReloadComplete (q : Sel) (s : State) : Host.Outcome State Fault Refusal :=
  match s.block? q.blk, s.squad? q with
  | some b, some sq =>
    if sq.park = .reload && b.reloadReady sq then
      .next (s.modSquad q fun x => { x with park := .none, reload := [], ready := none }.settle)
    else .next s
  | _, _ => .next s

/-- Move the oldest spilled record back where crate memory has room for it (R164); ages are taken modulo 2^32. -/
def State.unspill (s : State) (st core : Nat) : State :=
  let k := s.core st core
  match minBy (fun r => 2 ^ 32 - r.age (s.cyc st core)) (k.recs.filter (·.spilled)) with
  | none => s
  | some r =>
    if k.crateFree < r.size then s
    else if s.shareReady st core [r] then
      (s.shareTouch st core [r]).modCore st core fun k =>
        { k with recs := k.recs.map fun x => if x = r then s.readBack st core r else x }
    else s.shareAsk st core [r]

/-- CRATE_SPILL_RETURN (R164). -/
def execCrateSpillReturn (st core : Nat) (s : State) : Host.Outcome State Fault Refusal := .next (s.unspill st core)

end Sys2Proof.Machine
end

