-- ==== Sys2Proof/Machine/FpAlu.lean ====
section
/-! DEFINITION. Floating point, conversions, MX blocks and Welford steps as functions of register values
(chapters 04 and 05). -/

set_option Elab.async false

namespace Sys2Proof

/-- The format of an instruction's type. -/
def FTy.ff : FTy → FF
  | .f32 => .f32
  | .f64 => .f64

/-- The rounding an instruction applies: its mode, SAT and, under sr, the bits of the stepped state. -/
structure Rnd where
  mode : RMode
  sat : Bool
  rw : Nat
deriving DecidableEq, Repr

/-- Round to nearest even, no saturation. -/
def Rnd.rne : Rnd := ⟨.rne, false, 0⟩

/-- A result that is not NaN by invalidity: encode, adding the flags met on the way. -/
def FF.out (f : FF) (r : Rnd) (v : Num) (nv dz : Bool) : Nat × Fl :=
  let (b, fl) := f.ofNum r.mode r.sat r.rw v
  (b, Fl.or fl { nv := nv, dz := dz })

/-- fadd (R133). -/
def fAdd (f : FF) (r : Rnd) (a b : Num) : Nat × Fl :=
  let (v, nv) := a.add (r.mode == .rdn) false b
  f.out r v nv false

/-- fsub (R133). -/
def fSub (f : FF) (r : Rnd) (a b : Num) : Nat × Fl := fAdd f r a b.neg

/-- fmul (R133). -/
def fMul (f : FF) (r : Rnd) (a b : Num) : Nat × Fl :=
  let (v, nv) := a.mul b
  f.out r v nv false

/-- ffma (R133). -/
def fFma (f : FF) (r : Rnd) (a b c : Num) : Nat × Fl :=
  let (v, nv) := Num.fma (r.mode == .rdn) a b c
  f.out r v nv false

/-- fdiv (R133). -/
def fDiv (f : FF) (r : Rnd) (a b : Num) : Nat × Fl :=
  let (v, nv, dz) := a.div b
  f.out r v nv dz

/-- fsqrt (R133). -/
def fSqrt (f : FF) (r : Rnd) (a : Num) : Nat × Fl :=
  let (v, nv) := a.sqrt
  f.out r v nv false

/-- fmin and fmax (R134): never rounded. -/
def fPick (f : FF) (great : Bool) (a b : Num) : Nat × Fl :=
  let (v, nv) := a.pick great b
  f.out .rne v nv false

/-- fcmp (R135): the outcome and NV. -/
def fCmp (c : FCond) (a b : Num) : Bool × Fl :=
  let un := a.isNan || b.isNan
  let sn := a.isSnan || b.isSnan
  let quiet := match c with
    | .lt => false
    | .le => false
    | .gt => false
    | .ge => false
    | _ => true
  let v := match c with
    | .eq => a.eq b
    | .ne => !a.eq b
    | .lt => a.lt b
    | .le => a.lt b || a.eq b
    | .gt => b.lt a
    | .ge => b.lt a || a.eq b
    | .un => un
    | .ord => !un
  (v, Fl.inv (sn || (un && !quiet)))

/-- fsel (R136): a if c is not NaN and c ≥ 0, else b; a NaN becomes canonical and sets nothing. -/
def fSel (f : FF) (a b c : Num) : Nat :=
  let pick := if !c.isNan && !c.lt .zero then a else b
  (f.ofNum .rne false 0 pick).1

/-- frnd (R136): to an integral value; NX only where asked. -/
def fRnd (f : FF) (mode : RMode) (setNx : Bool) (a : Num) : Nat × Fl :=
  match a with
  | .fin g n d =>
    let (m, ch) := roundInt mode 0 g n d
    (f.enc g (f.rnd .rtz false 0 false m 1).1, { nx := ch && setNx })
  | x => f.ofNum .rne false 0 x

/-- Whether all are zeros of one sign. -/
def sameZeros (a b c : Num) : Bool :=
  a.isZero && b.isZero && c.isZero && a.isNeg == b.isNeg && b.isNeg == c.isNeg

/-- fdot2 (R137): a0 b0 + a1 b1 + c, exact, rounded once to f32. -/
def fDot2 (r : Rnd) (a0 b0 a1 b1 c : Num) : Nat × Fl :=
  let (p0, i0) := a0.mul b0
  let (p1, i1) := a1.mul b1
  let rdn := r.mode == .rdn
  let nan := p0.isNan || p1.isNan || c.isNan
  let pos := (p0.isInf && !p0.isNeg) || (p1.isInf && !p1.isNeg) || (c.isInf && !c.isNeg)
  let ngt := (p0.isInf && p0.isNeg) || (p1.isInf && p1.isNeg) || (c.isInf && c.isNeg)
  let nv := i0 || i1 || c.isSnan || (pos && ngt)
  let v :=
    if nan || (pos && ngt) then Num.nan false
    else if pos then .inf false
    else if ngt then .inf true
    else if sameZeros p0 p1 c then .fin c.isNeg 0 1
    else
      let s := ((p0.add false true p1).1.add false true c).1
      if s.isZero then .fin rdn 0 1 else s
  FF.f32.out r v nv false

/-! ## Conversions -/

/-- The integer type of an integer code: width and signedness. -/
def TyCode.int : TyCode → Option (Nat × Bool)
  | .i8 => some (8, true)
  | .i16 => some (16, true)
  | .i32 => some (32, true)
  | .i64 => some (64, true)
  | .n8 => some (8, false)
  | .n16 => some (16, false)
  | .n32 => some (32, false)
  | .n64 => some (64, false)
  | _ => none

/-- The floating-point format of a code; mx8 elements are E4M3. -/
def TyCode.ff : TyCode → FF
  | .f16 => .f16
  | .bf16 => .bf16
  | .f32 => .f32
  | .f64 => .f64
  | .e5m2 => .e5m2
  | .e4m3 => .e4m3
  | .d8 => .d8
  | .mx8 => .e4m3
  | _ => .f32

/-- Bits of a code (R140). -/
def TyCode.width (t : TyCode) : Nat :=
  match t.int with
  | some (w, _) => w
  | none => t.ff.bits

/-- A type whose register operand is an even pair. -/
def TyCode.wide (t : TyCode) : Bool := t.width = 64

/-- The value of the low bits read as an integer. -/
def intOf (w : Nat) (sg : Bool) (b : Nat) : Int :=
  let v := b % 2 ^ w
  if sg && v.testBit (w - 1) then (v : Int) - 2 ^ w else v

/-- Convert one value (R108, R109): the result's bits, unextended, and its flags. -/
def convert (dst src : TyCode) (r : Rnd) (b : Nat) : Nat × Fl :=
  match src.int, dst.int with
  | some (sw, ss), some (dw, ds) =>
    let v := intOf sw ss b
    let lo : Int := if ds then -2 ^ (dw - 1) else 0
    let hi : Int := if ds then 2 ^ (dw - 1) - 1 else 2 ^ dw - 1
    (((if r.sat then clampInt lo hi v else v) % 2 ^ dw).toNat, Fl.none)
  | some (sw, ss), none =>
    let v := intOf sw ss b
    dst.ff.ofNum r.mode r.sat r.rw (.ofInt v 1)
  | none, some (dw, ds) =>
    let lo : Int := if ds then -2 ^ (dw - 1) else 0
    let hi : Int := if ds then 2 ^ (dw - 1) - 1 else 2 ^ dw - 1
    let (v, fl) := (src.ff.read (b % 2 ^ src.ff.bits)).toInt r.mode r.rw lo hi
    ((v % 2 ^ dw).toNat, fl)
  | none, none => dst.ff.ofNum r.mode r.sat r.rw (src.ff.read (b % 2 ^ src.ff.bits))

/-- A result in its register: i8 and i16 sign-extended to 32 bits, everything else zero-extended (R140). -/
def TyCode.fill (t : TyCode) (b : Nat) : DWord :=
  match t.int with
  | some (w, true) => if w < 64 then ((BitVec.ofInt 32 (intOf w true b))).zeroExtend 64 else BitVec.ofNat 64 b
  | _ => BitVec.ofNat 64 b

/-- Whether a conversion rounds a value, and so steps the random state under sr (R106): it does unless both types are
integers. DEDUCED, log 5. -/
def convertRounds (dst src : TyCode) : Bool := !(dst.isInt && src.isInt)

/-! ## MX blocks (R97, R98) -/

/-- The greatest magnitude of a list of finite values, as a fraction. -/
def maxMag : List Num → Nat × Nat
  | [] => (0, 1)
  | .fin _ n d :: t =>
    let (m, e) := maxMag t
    if m * d < n * e then (n, d) else (m, e)
  | _ :: t => maxMag t

/-- The exponent X of a block whose greatest magnitude is n / d (R98). -/
def mxExp (n d : Nat) : Int := if n = 0 then -127 else clampInt (-127) 127 (floorLog2 n d - 8)

/-- v / 2^X. -/
def Num.scaleDown (v : Num) (x : Int) : Num :=
  match v with
  | .fin g n d => if 0 ≤ x then .fin g n (d * 2 ^ x.toNat) else .fin g (n * 2 ^ (-x).toNat) d
  | y => y

/-- One element of a block: a scaled magnitude above 448 becomes 448 and sets NX alone (R98). -/
def mxElem (r : Rnd) (v : Num) : Nat × Fl :=
  match v with
  | .fin g n d => if 448 * d < n then (FF.e4m3.enc g 0x7E, { nx := true }) else FF.e4m3.rnd r.mode false r.rw g n d
  | _ => (0x7F, Fl.none)

/-- The elements of a block with the random bits of each. -/
def mxElems (mode : RMode) (x : Int) : List Num → List Nat → List (Nat × Fl)
  | [], _ => []
  | v :: t, rs => mxElem ⟨mode, false, rs.headD 0⟩ (v.scaleDown x) :: mxElems mode x t rs.tail

/-- A block of values: scale code, element codes, flags. `rws` holds the random bits per element. -/
def mxBlock (mode : RMode) (vs : List Num) (rws : List Nat) : Nat × List Nat × Fl :=
  if vs.any (fun v => v.isNan || v.isInf) then
    (0xFF, vs.map fun _ => 0x7F, Fl.inv (vs.any fun v => v.isSnan || v.isInf))
  else
    let (n, d) := maxMag vs
    let x := mxExp n d
    let es := mxElems mode x vs rws
    ((x + 127).toNat, es.map (·.1), es.foldl (fun f e => f.or e.2) Fl.none)

/-- The value of an element under its scale (R97). -/
def mxValue (scale elem : Nat) : Num :=
  if scale = 0xFF then .nan false
  else match FF.e4m3.read elem with
    | .fin g n d => .fin g (n * 2 ^ scale) (d * 2 ^ 127)
    | _ => .nan false

/-! ## Atomics and Welford -/

/-- rne(a + b) with no flag (R191, R285). -/
def faddPlain (f : FF) (a b : Nat) : Nat := (fAdd f .rne (f.read a) (f.read b)).1

/-- fmin or fmax with no flag. -/
def fpickPlain (f : FF) (great : Bool) (a b : Nat) : Nat := (fPick f great (f.read a) (f.read b)).1

/-- An f32 sum, rne, with its flags. -/
def wAdd (a b : Nat) : Nat × Fl := fAdd .f32 .rne (FF.f32.read a) (FF.f32.read b)
/-- An f32 difference. -/
def wSub (a b : Nat) : Nat × Fl := fSub .f32 .rne (FF.f32.read a) (FF.f32.read b)
/-- An f32 product. -/
def wMul (a b : Nat) : Nat × Fl := fMul .f32 .rne (FF.f32.read a) (FF.f32.read b)
/-- An f32 quotient. -/
def wDiv (a b : Nat) : Nat × Fl := fDiv .f32 .rne (FF.f32.read a) (FF.f32.read b)
/-- a × b + c rounded once. -/
def wFma (a b c : Nat) : Nat × Fl := fFma .f32 .rne (FF.f32.read a) (FF.f32.read b) (FF.f32.read c)

/-- wfu (R146): the new triple and its flags. A division by n1 = 0 meets DZ as fdiv does (log 55). -/
def welfordUpdate (n mean m2 x : Nat) : Nat × Nat × Nat × Fl :=
  let (n1, f1) := wAdd n 0x3F800000
  let (dv, f2) := wSub x mean
  let (q, f3) := wDiv dv n1
  let (mean1, f4) := wAdd mean q
  let (e, f5) := wSub x mean1
  let (m2n, f6) := wFma dv e m2
  (n1, mean1, m2n, ((f1.or f2).or (f3.or f4)).or (f5.or f6))

/-- wfm (R147): the merged triple and its flags. -/
def welfordMerge (na ma qa nb mb qb : Nat) : Nat × Nat × Nat × Fl :=
  let (n, f1) := wAdd na nb
  if (FF.f32.read n).isZero then (0, 0, 0, f1)
  else
    let (dl, f2) := wSub mb ma
    let (w, f3) := wDiv nb n
    let (mu, f4) := wFma dl w ma
    let (t, f5) := wMul dl dl
    let (u, f6) := wMul na w
    let (qs, f7) := wAdd qa qb
    let (m, f8) := wFma t u qs
    (n, mu, m, ((f1.or f2).or (f3.or f4)).or ((f5.or f6).or (f7.or f8)))

end Sys2Proof
end

