-- ==== Sys2Proof/Machine/Pad.lean ====
section
/-! DEFINITION. Pad and accumulator memory, tags, watches and barriers (chapter 07, R184 to R195 and R204 to R211). -/

set_option Elab.async false

namespace Sys2Proof

open Machine

/-- Size and sign of a load (R190). -/
def PldSz.spec : PldSz → Nat × Bool
  | .b8 => (1, false)
  | .i8 => (1, true)
  | .b16 => (2, false)
  | .i16 => (2, true)
  | .b32 => (4, false)
  | .b64 => (8, false)

/-- Size of a store (R190). -/
def PstSz.size : PstSz → Nat
  | .b8 => 1
  | .b16 => 2
  | .b32 => 4
  | .b64 => 8

/-- Whether a pad atomic is 8 bytes wide. -/
def PatOp.wide : PatOp → Bool
  | .b64 _ => true
  | _ => false

/-- Whether a pad atomic compares. -/
def PatOp.isCas : PatOp → Bool
  | .i32 op => op = .cas
  | .n32 op => op = .cas
  | .b64 op => op = .cas
  | _ => false

/-- The new value of a pad atomic (R191): old value, operand, compare. -/
def PatOp.apply (op : PatOp) (old b cmp : DWord) : DWord :=
  match op with
  | .i32 o => o.apply .i32 old b cmp
  | .n32 o => o.apply .n32 old b cmp
  | .b64 o => o.apply .n64 old b cmp
  | .minF => BitVec.ofNat 64 (fpickPlain .f32 false (lo32 old).toNat (lo32 b).toNat)
  | .maxF => BitVec.ofNat 64 (fpickPlain .f32 true (lo32 old).toNat (lo32 b).toNat)
  | .faddF => BitVec.ofNat 64 (faddPlain .f32 (lo32 old).toNat (lo32 b).toNat)

/-- The operands of a tag word. -/
def TMask.uses : TMask → List Use
  | .reg a => [.r2 a]
  | .tag _ => []

/-- A vector mask is no operand of a tag word (R204). -/
def TMask.isVec : TMask → Bool
  | .reg a => a.isVec
  | .tag _ => false

namespace Machine

/-! ## Accesses -/

/-- Whether a last source is scalar, special or immediate. -/
def riUniform : RI → Bool
  | .reg o => o.uniform
  | .imm _ => true

/-- Whether a destination keeps a word squad-uniform (R186): scalar or zero. -/
def destUniform (d : Opnd) : Bool := d.isSca || d = .zero

/-- The lanes a word acts for: the acting lane once if it is squad-uniform, else every active lane (R186). -/
def Ctx.accLanes (c : Ctx) (uniform : Bool) : List (Nat × Lane) := if uniform then c.acting.toList else c.act

/-- The offset of a pad or AM access of size z, exact (R185). -/
def Ctx.padAddr (c : Ctx) (l : Nat) (ln : Lane) (a : Opnd) (off : BitVec 12) (z : Nat) : Int :=
  (c.rd l ln a).toNat + off.toInt * z

/-- The check of R185 and R189: the offset, or the cause. -/
def accCheck (size : Nat) (bad : List Nat) (range : Nat) (addr : Int) (z : Nat) (reads : Bool) : Except Nat Nat :=
  if addr % z ≠ 0 then .error 0x20
  else if addr < 0 || (size : Int) < addr + z then .error range
  else if reads && hitsBad bad addr.toNat z then .error 0x2B
  else .ok addr.toNat

/-- A lane's access after its check: the offset, or none for a helper lane's access that is not performed. -/
abbrev Access := Nat × Lane × Option Nat

/-- The checks of a word's lanes: the causes of lanes that are no helpers, and the accesses. -/
def Ctx.accesses (c : Ctx) (ls : List (Nat × Lane)) (am : Bool) (a : Opnd) (off : BitVec 12) (z : Nat) (reads : Bool) :
    Except (List (Nat × Nat)) (List Access) :=
  let rs := ls.map fun l => (l.1, l.2,
    if am then accCheck c.blk.kern.am c.blk.amBad 0x27 (c.padAddr l.1 l.2 a off z) z reads
    else accCheck c.blk.kern.pad c.blk.padBad 0x26 (c.padAddr l.1 l.2 a off z) z reads)
  let cs := rs.filterMap fun r => match r with
    | (l, ln, .error e) => if ln.helper then none else some (l, e)
    | _ => none
  if cs ≠ [] then .error cs
  else .ok (rs.map fun r => match r with
    | (l, ln, .ok x) => (l, ln, some x)
    | (l, ln, .error _) => (l, ln, none))

/-- Where a value of a lane goes in a result in flight: its registers, or those of the scalar file. -/
def destVals (d : Opnd) (l : Nat) (ws : List Word) : List (Nat × Nat × Word) :=
  match d with
  | .vec k => (List.range ws.length).map fun i => (l, k.val + i, ws.getD i 0)
  | .sca k => (List.range ws.length).map fun i => (64, k.val + i, ws.getD i 0)
  | _ => []

/-- The registers of a destination. -/
def destRegs (d : Opnd) (n : Nat) : List (Bool × Nat) := Use.regs ⟨d, n, 1, true⟩

/-- Put values read at issue in flight (R77); a zero destination leaves nothing. -/
def State.flightOf (s : State) (q : Sel) (d : Opnd) (n : Nat) (vals : List (Nat × Nat × Word)) : State :=
  if destRegs d n = [] then s else s.launchFlight q (Flight.known 0 (destRegs d n) vals Fl.none)

/-- A little-endian value, zero- or sign-extended, as the words of its destination. -/
def extendWords (z : Nat) (signed : Bool) (v : Nat) : List Word :=
  if z = 8 then wordsOf true (BitVec.ofNat 64 v)
  else
    let w := BitVec.ofNat 32 v
    [if signed && z = 1 then (BitVec.ofNat 8 v).signExtend 32 else if signed && z = 2 then (BitVec.ofNat 16 v).signExtend 32
     else w]

/-- A load from pad or AM (R190): read at its point in the order, returned later. -/
def padLoad (h : Hdr) (am : Bool) (z : Nat) (signed : Bool) (off : BitVec 12) (d a : Opnd) (s : State) :
    Host.Outcome State Fault Refusal :=
  issue h (fun _ => { uses := [.ww (z = 8) d, .r a] })
    (fun c => match c.accesses (c.accLanes (a.uniform && destUniform d)) am a off z true with
      | .error cs => .raise cs 0
      | .ok xs =>
        let read (x : Nat) : Nat := if am then c.blk.am.num x z else c.blk.pad.num x z
        let vals := xs.flatMap fun (l, _, x) => destVals d l (extendWords z signed (match x with
          | some x => read x
          | none => 0))
        .ok (c.s.flightOf c.q d (if z = 8 then 2 else 1) vals)) s

/-- The bytes a lane stores. -/
def Ctx.storeBytes (c : Ctx) (l : Nat) (ln : Lane) (b : Opnd) (z : Nat) : List Byte :=
  leBytes z (c.rdW (z = 8) l ln b).toNat

/-- A store to pad or AM (R190): lanes in ascending order; helper lanes store nothing (R53). -/
def padStore (h : Hdr) (am : Bool) (z : Nat) (off : BitVec 12) (a b : Opnd) (s : State) :
    Host.Outcome State Fault Refusal :=
  issue h (fun _ => { uses := [.r a, .rw' (z = 8) b] })
    (fun c => match c.accesses (c.accLanes (a.uniform && b.uniform)) am a off z (z < 8) with
      | .error cs => .raise cs 0
      | .ok xs => .ok (xs.foldl (fun s x => match x with
          | (l, ln, some addr) =>
            if ln.helper then s
            else s.modBlock c.q.blk fun k =>
              if am then k.writeAm addr (c.storeBytes l ln b z) else k.writePad addr (c.storeBytes l ln b z)
          | _ => s) c.s)) s

/-- pld (R190). -/
def execPld (h : Hdr) (sz : PldSz) (off : BitVec 12) (d a : Opnd) (s : State) : Host.Outcome State Fault Refusal :=
  padLoad h false sz.spec.1 sz.spec.2 off d a s

/-- pst (R190). -/
def execPst (h : Hdr) (sz : PstSz) (off : BitVec 12) (a b : Opnd) (s : State) : Host.Outcome State Fault Refusal :=
  padStore h false sz.size off a b s

/-- ald (R190). -/
def execAld (h : Hdr) (wide : Bool) (off : BitVec 12) (d a : Opnd) (s : State) : Host.Outcome State Fault Refusal :=
  padLoad h true (if wide then 8 else 4) false off d a s

/-- ast (R190). -/
def execAst (h : Hdr) (wide : Bool) (off : BitVec 12) (a b : Opnd) (s : State) : Host.Outcome State Fault Refusal :=
  padStore h true (if wide then 8 else 4) off a b s

/-! ## Pad atomics -/

/-- The use of an atomic's operand B: one or two registers, or twice that for cas (R191, R284). -/
def casUse (wide cas : Bool) (b : Opnd) : Use :=
  let n := (if wide then 2 else 1) * (if cas then 2 else 1)
  ⟨b, n, n, false⟩

/-- The operand and the compare of an atomic in a lane: for cas, compare first and then the new value. -/
def Ctx.casVals (c : Ctx) (wide cas : Bool) (l : Nat) (ln : Lane) (b : Opnd) : DWord × DWord :=
  if cas then
    (if wide then (pair64 (c.rdAt ln b 2) (c.rdAt ln b 3), pair64 (c.rdAt ln b 0) (c.rdAt ln b 1))
     else ((c.rdAt ln b 1).zeroExtend 64, (c.rdAt ln b 0).zeroExtend 64))
  else (c.rdW wide l ln b, 0)

/-- Read, compute and write of lanes in order: the state and the old values (R192, R210). -/
def Ctx.padUpdate (c : Ctx) (z : Nat) (f : Nat → Lane → Nat → Nat) (xs : List Access) : State × List (Nat × Nat) :=
  xs.foldl (fun (acc : State × List (Nat × Nat)) x => match x with
    | (l, ln, some addr) =>
      if ln.helper then (acc.1, acc.2 ++ [(l, 0)])
      else
        let old := match acc.1.block? c.q.blk with
          | some k => k.pad.num addr z
          | none => 0
        (acc.1.modBlock c.q.blk fun k => k.writePad addr (leBytes z (f l ln old)), acc.2 ++ [(l, old)])
    | (l, _, none) => (acc.1, acc.2 ++ [(l, 0)])) (c.s, [])

/-- A pad word that reads, computes and writes, and returns the old value. -/
def Ctx.padAtomic (c : Ctx) (z : Nat) (uniform : Bool) (off : BitVec 12) (d a : Opnd) (f : Nat → Lane → Nat → Nat) : Res :=
  match c.accesses (c.accLanes uniform) false a off z true with
  | .error cs => .raise cs 0
  | .ok xs =>
    let r := c.padUpdate z f xs
    .ok (r.1.flightOf c.q d (if z = 8 then 2 else 1)
      (r.2.flatMap fun x => destVals d x.1 (extendWords z false x.2)))

/-- patom (R191, R192). -/
def execPatom (h : Hdr) (op : PatOp) (off : BitVec 12) (d a b : Opnd) (s : State) : Host.Outcome State Fault Refusal :=
  issue h (fun _ => { uses := [.ww op.wide d, .r a, casUse op.wide op.isCas b] })
    (fun c => c.padAtomic (if op.wide then 8 else 4) (a.uniform && b.uniform && destUniform d) off d a fun l ln old =>
      let v := c.casVals op.wide op.isCas l ln b
      (op.apply (BitVec.ofNat 64 old) v.1 v.2).toNat) s

/-! ## Tags -/

/-- The mask of a tag word (R204). -/
def Ctx.tmask (c : Ctx) (ln : Lane) : TMask → DWord
  | .reg a => c.rd64 ln a
  | .tag n => BitVec.ofNat 64 (2 ^ n.toNat)

/-- The index of the lowest set bit, or 64. -/
def lowestBit (m : DWord) : Nat := match bitsOf m with
  | [] => 64
  | i :: _ => i

/-- A tag word: once when a lane is active. -/
def tagWord (h : Hdr) (d : List Opnd) (m : TMask) (f : Ctx → DWord → Res) (s : State) : Host.Outcome State Fault Refusal :=
  issue h (fun _ => { uses := d.map .w1 ++ m.uses, bad := m.isVec })
    (fun c => match c.acting with
      | none => .ok c.s
      | some l => f c (c.tmask l.2 m)) s

/-- twany (R204). -/
def execTwany (h : Hdr) (d : Opnd) (m : TMask) (s : State) : Host.Outcome State Fault Refusal :=
  tagWord h [d] m (fun c mask =>
    if mask ≠ 0 && c.blk.tagsDone &&& mask = 0 then .park .tags
    else .ok (c.writeAll c.s d [BitVec.ofNat 32 (lowestBit (c.blk.tagsDone &&& mask))])) s

/-- twall (R204). -/
def execTwall (h : Hdr) (m : TMask) (s : State) : Host.Outcome State Fault Refusal :=
  tagWord h [] m (fun c mask => if c.blk.tagsDone &&& mask = mask then .ok c.s else .park .tags) s

/-- tfirst (R204). -/
def execTfirst (h : Hdr) (d : Opnd) (m : TMask) (s : State) : Host.Outcome State Fault Refusal :=
  tagWord h [d] m (fun c mask => .ok (c.writeAll c.s d [BitVec.ofNat 32 (lowestBit (c.blk.tagsDone &&& mask))])) s

/-- tclr (R204). -/
def execTclr (h : Hdr) (m : TMask) (s : State) : Host.Outcome State Fault Refusal :=
  tagWord h [] m (fun c mask => .ok (c.s.modBlock c.q.blk fun b => { b with tagsDone := b.tagsDone &&& ~~~mask })) s

/-- A tag's job is done (R194). -/
def Block.tagDone (b : Block) (t : Nat) : Block :=
  { b with tagsDone := setBit b.tagsDone t true, tagsBusy := setBit b.tagsBusy t false }

/-- A job takes a tag that is not busy (R194). -/
def Block.tagTake (b : Block) (t : Nat) : Block :=
  { b with tagsDone := setBit b.tagsDone t false, tagsBusy := setBit b.tagsBusy t true }

/-! ## Watches -/

/-- The line a translated place lies in. -/
def State.watchLine (s : State) (st : Nat) : Place → WTgt
  | .dev pa => .dev (pa / 64)
  | .mgmt off => .dev ((s.localPa st mgmtBase + off) / 64)
  | .host a _ => .host (a / 64)
  | .ext a _ => if s.ownsExt a then .dev (a % 2 ^ 48 / 64) else .ext (a / 64)

/-- Set a watch slot. -/
def Squad.setWatch (q : Squad) (slot : Bool) (w : Watch) : Squad := if slot then { q with w1 := w } else { q with w0 := w }

/-- watch (R205). -/
def execWatch (h : Hdr) (kind : WatchKind) (slot : Bool) (a : Opnd) (s : State) : Host.Outcome State Fault Refusal :=
  issue h (fun _ => match kind with
      | .global => { uses := [.r2 a], bad := a.isVec }
      | .pad => { uses := [.r a], bad := a.isVec }
      | .off => { uses := [] })
    (fun c => match c.acting with
      | none => .ok c.s
      | some (l, ln) =>
        match kind with
        | .off => .ok (c.s.modSquad c.q fun q => q.setWatch slot { (if slot then q.w1 else q.w0) with armed := false })
        | .pad =>
          let o := (c.rd l ln a).toNat
          if c.blk.kern.pad ≤ o then c.actingRaise (l, ln) 0x26 0
          else .ok (c.s.modSquad c.q fun q => q.setWatch slot ⟨true, false, .pad (o / 64), BitVec.ofNat 64 o⟩)
        | .global =>
          let va := c.rd64 ln a
          match c.s.translate c.q.stall c.sq.sup va .read 1 0 with
          | .error e => c.actingRaise (l, ln) e va
          | .ok t =>
            let s := c.s.modSquad c.q fun q => q.setWatch slot ⟨true, false, c.s.watchLine c.q.stall t.place, va⟩
            .ok ({ s with free := s.free + 1 }.keepTlb c.q.stall [t.ent])) s

/-- The hit bits of the slots. -/
def Squad.hits (q : Squad) : Nat := (if q.w0.hit then 1 else 0) + (if q.w1.hit then 2 else 0)

/-- Clear the hit bits that a result reports. -/
def Squad.clearHits (q : Squad) (r : Nat) : Squad :=
  { q with w0 := if r % 2 = 1 then { q.w0 with hit := false } else q.w0
           w1 := if r / 2 % 2 = 1 then { q.w1 with hit := false } else q.w1 }

/-- Give wait its result. -/
def Ctx.waitResult (c : Ctx) (d : Opnd) (r : Nat) : State :=
  c.writeAll (c.s.modSquad c.q fun q => q.clearHits r) d [BitVec.ofNat 32 r]

/-- wait (R207). -/
def execWait (h : Hdr) (d : Opnd) (a : RI) (s : State) : Host.Outcome State Fault Refusal :=
  issue h (fun _ => { uses := .w1 d :: riUse false a, reduce := true })
    (fun c => match c.act.head? with
      | none => .ok c.s
      | some (l, ln) =>
        if !c.sq.w0.armed && !c.sq.w1.armed then .ok (c.writeAll c.s d [0x10])
        else if c.sq.hits ≠ 0 then .ok (c.waitResult d c.sq.hits)
        else
          let t := (c.rdN l ln a).toNat
          .park (.wait h d (if t = 0 then none else some (c.s.cyc c.q.stall c.q.core + t)) false)) s

/-- A parked wait returns with the result that its squad's state gives. -/
def State.waitReturns (s : State) (q : Sel) (timeout : Bool) : State :=
  match s.block? q.blk, s.squad? q with
  | some b, some sq =>
    match sq.park, b.halt.phase with
    | .wait h d deadline stopped, .run =>
      let late := match deadline with
        | none => false
        | some t => t ≤ s.cyc q.stall q.core
      let r := sq.hits + (if stopped then 8 else 0) + (if timeout && late then 4 else 0)
      if r = 0 then s
      else match Ctx.of { s with cur := q } h with
        | none => s
        | some c => { ({ c.unpark with sq := { c.sq with park := .none } }.waitResult d r).wordDone q true with cur := s.cur }
    | _, _ => s
  | _, _ => s

/-- WAIT_RETURN (R206, R207): a hit, or the block stopped and resumed. -/
def execWaitReturn (q : Sel) (s : State) : Host.Outcome State Fault Refusal := .next (s.waitReturns q false)

/-- WAIT_TIMEOUT (R207). -/
def execWaitTimeout (q : Sel) (s : State) : Host.Outcome State Fault Refusal := .next (s.waitReturns q true)

/-! ## Barriers -/

/-- bar (R208): the issuing group arrives and waits at PC + 8. -/
def execBar (sbit : Bool) (n : BitVec 4) (s : State) : Host.Outcome State Fault Refusal :=
  issue (Hdr.plain sbit) (fun _ => { uses := [] })
    (fun c =>
      let k := (c.present.filter fun l => !l.2.helper).length
      let clock := c.s.cyc c.q.stall c.q.core
      let s := c.s.modBlock c.q.blk fun b =>
        let bar := Tab.get ⟨0, false⟩ b.bars n.toNat
        { b with bars := b.bars.put n.toNat { bar with count := bar.count + k } }
      let s := s.modSquad c.q fun q =>
        { q.mapLanes (fun _ ln => if ln.at' = .issue then
              ln.hold (c.sq.pc + 8) (c.budget / 4) clock c.s.nextId [] (some n.toNat) else ln) with
          pc := c.sq.pc + 8, point := none }
      let s := { s with nextId := s.nextId + 1 }
      .at' (s.modCore c.q.stall c.q.core fun x => x.completeBars c.q.pos)) s

/-- The word after one arrival (R210). -/
def arrive (w amount : Nat) : Nat :=
  let e := w / 2 ^ 16 % 2 ^ 15
  let arr := w % 2 ^ 16 + amount
  if e ≤ arr then (1 - w / 2 ^ 31) * 2 ^ 31 + e * 2 ^ 16 else w / 2 ^ 16 * 2 ^ 16 + arr

/-- parr (R210). -/
def execParr (h : Hdr) (d a : Opnd) (b : RI) (s : State) : Host.Outcome State Fault Refusal :=
  issue h (fun _ => { uses := [.w1 d, .r a] ++ riUse false b })
    (fun c => c.padAtomic 4 (a.uniform && riUniform b && destUniform d) 0 d a fun l ln old =>
      arrive old ((c.rdN l ln b).toNat % 2 ^ 16)) s

/-- pwait (R211): parked until the phase bit of every lane's word differs from the given phase. -/
def execPwait (h : Hdr) (d a : Opnd) (b : RI) (s : State) : Host.Outcome State Fault Refusal :=
  issue h (fun _ => { uses := [.w1 d, .r a] ++ riUse false b })
    (fun c => match c.accesses (c.accLanes (a.uniform && riUniform b && destUniform d)) false a 0 4 true with
      | .error cs => .raise cs 0
      | .ok xs =>
        let word (x : Nat) : Nat := c.blk.pad.num x 4
        let passed := xs.all fun (l, ln, x) => match x with
          | none => true
          | some x => word x / 2 ^ 31 ≠ (c.rdN l ln b).toNat % 2
        if c.act.isEmpty then .ok c.s
        else if passed then
          .ok (c.s.flightOf c.q d 1 (xs.flatMap fun (l, _, x) => destVals d l [BitVec.ofNat 32 (match x with
            | some x => word x
            | none => 0)]))
        else .park .pwait) s

end Machine

end Sys2Proof
end

