-- ==== Sys2Proof/Machine/Order.lean ====
section
/-! DEFINITION. How accesses are performed: loads in program order, store queues, the stall write buffer, atomics, reservations
and fences (chapters 10 and 11, R281 to R307). -/

set_option Elab.async false

namespace Sys2Proof

/-- Whether an operation of atom is 8 bytes wide (R285). -/
def AtomOp.wide : AtomOp → Bool
  | .int _ ty => ty.wide
  | .faddF64 => true
  | .fminF64 => true
  | .fmaxF64 => true
  | _ => false

/-- Bytes of an operation of atom. -/
def AtomOp.size (op : AtomOp) : Nat := if op.wide then 8 else 4

/-- Two packed BF16 sums (R285). -/
def packedBf16 (old b : DWord) : DWord :=
  let f (i : Nat) : Nat := faddPlain .bf16 (old.toNat / 2 ^ i % 65536) (b.toNat / 2 ^ i % 65536)
  BitVec.ofNat 64 (f 0 + f 16 * 65536)

/-- The new value of atom and red (R285): old value, operand, compare. -/
def AtomOp.apply (op : AtomOp) (old b cmp : DWord) : DWord :=
  let lo (d : DWord) : Nat := (Machine.lo32 d).toNat
  match op with
  | .int o ty => o.apply ty old b cmp
  | .faddF32 => BitVec.ofNat 64 (faddPlain .f32 (lo old) (lo b))
  | .faddF64 => BitVec.ofNat 64 (faddPlain .f64 old.toNat b.toNat)
  | .fminF32 => BitVec.ofNat 64 (fpickPlain .f32 false (lo old) (lo b))
  | .fmaxF32 => BitVec.ofNat 64 (fpickPlain .f32 true (lo old) (lo b))
  | .fminF64 => BitVec.ofNat 64 (fpickPlain .f64 false old.toNat b.toNat)
  | .fmaxF64 => BitVec.ofNat 64 (fpickPlain .f64 true old.toNat b.toNat)
  | .faddBf16 => packedBf16 old b

/-- Whether an operation compares. -/
def AtomOp.isCas : AtomOp → Bool
  | .int .cas _ => true
  | _ => false

namespace Machine

/-! ## Places and observers -/

/-- The space and the address of a place. -/
def Place.key : Place → Nat × Nat
  | .dev a => (0, a)
  | .mgmt o => (1, o)
  | .host a _ => (2, a)
  | .ext a _ => (3, a)

/-- Whether two accesses share a byte. -/
def overlaps (p : Place) (n : Nat) (q : Place) (m : Nat) : Bool :=
  p.key.1 = q.key.1 && p.key.2 < q.key.2 + m && q.key.2 < p.key.2 + n

/-- Observer C. -/
def obsC (o : BitVec 6) : Bool := o.getLsbD 0
/-- Observer E. -/
def obsE (o : BitVec 6) : Bool := o.getLsbD 4
/-- Observer H. -/
def obsH (o : BitVec 6) : Bool := o.getLsbD 5
/-- Whether a mask names any of D, E and H. -/
def obsOut (o : BitVec 6) : Bool := o.getLsbD 3 || obsE o || obsH o

/-- The newest queued store's value of a byte among the entries before an order number (R295). -/
def ownByte (sq : List SqEnt) (before sp a : Nat) : Option Byte :=
  sq.foldl (fun v e =>
    if e.id < before then match e.op with
      | .store p bs => if p.key.1 = sp && p.key.2 ≤ a && a < p.key.2 + bs.length then bs[a - p.key.2]? else v
      | _ => v
    else v) none

/-- Whether a stall's write buffer holds a write to a line. -/
def Stall.buffers (t : Stall) (line : Nat) : Bool := t.wbuf.any fun w => w.pa / 64 = line

/-- An acquire with observer C invalidates the core's L1 (R263, R301). -/
def State.acquireEffect (s : State) (q : Sel) (o : BitVec 6) : State :=
  if obsC o then s.modCore q.stall q.core fun k => { k with l1 := [], l1h := [] } else s

/-! ## Late causes -/

/-- Whether a lane of a squad holds no thread: it is a helper, or gone. -/
def State.noThread (s : State) (q : Sel) (l : Nat) : Bool :=
  match s.squad? q with
  | none => true
  | some sq => match Tab.find? sq.lanes l with
    | none => true
    | some ln => ln.helper

/-- A line was lost after a word that needs its bytes had issued (R266): the lanes that name it raise 0x2A at the word's PC, and
nothing is written (R11, log 27). -/
def State.lateLost (s : State) (q : Sel) (pc : DWord) (ls : List (Nat × DWord)) : State :=
  match ls.filter fun l => !s.noThread q l.1 with
  | [] => s
  | (l, va) :: rest => s.takeCausesAt q (((l, va) :: rest).map fun x => (x.1, 0x2A)) pc va false

/-! ## Loads -/

/-- Whether a queued entry holds a later load: an acquire or an acquire-release fence, an atomic, scs or merge that overlaps
it (R282, R299, R307), an scs of a lane that makes a new reservation (R289), any atomic, scs or merge before an acquire fence, which
waits for its read (R307), or any entry before a read of the management page (R249). -/
def SqEnt.holds (e : SqEnt) (f : Flight) : Bool :=
  let meets (ls : List AtLane) (n : Nat) : Bool := f.reads.any fun r => ls.any fun l => overlaps r.place r.size l.place n
  let fence : Bool := f.acq && f.reads.isEmpty
  e.id < f.id && (e.acq.isSome || f.reads.any (fun r => r.place.key.1 = 1) || match e.op with
    | .fence ar => ar
    | .atomic op ls => fence || meets ls op.size
    | .scs wide ls => fence || meets ls (if wide then 8 else 4) || f.reads.any fun r => r.resv.isSome && ls.any fun l => l.own = r.own
    | .merge ls => fence || meets ls 32
    | _ => false)

/-- A read that is performed in any order with the thread's other loads (R297): of uncached host memory or of external memory. -/
def Place.anyOrder : Place → Bool
  | .host _ hro => !hro
  | .ext _ hro => !hro
  | _ => false

/-- Whether an acquire leaves later accesses to host and external memory alone (R299): it reads host memory without H, or external
memory without E. -/
def Flight.sparesOut (f : Flight) : Bool :=
  !f.reads.isEmpty && f.reads.all fun r => match r.place with
    | .host _ _ => !obsH f.obs
    | .ext _ _ => !obsE f.obs
    | _ => false

/-- Whether an earlier load of the squad that is not fixed yet holds a read (R249, R296, R297, R299, R307): an acquire; any load before a
read of the management page; for a read in order, a load with reads in order left; else one that reads a byte of it. -/
def Flight.holds (g f : Flight) (r : RdReq) : Bool :=
  let out : Bool := r.place.key.1 = 2 || r.place.key.1 = 3
  g.id < f.id && !g.perf && !g.byQueue &&
    ((g.acq && !(out && g.sparesOut))
      || r.place.key.1 = 1
      || g.reads.any fun x => (!r.place.anyOrder && !x.place.anyOrder) || overlaps x.place x.size r.place r.size)

/-- Whether a qget that waits for its item holds what was issued after it: it is an acquire (R361, R299). -/
def Squad.asked (q : Squad) (id : Nat) : Bool := q.asks.any fun a => a.order < id

/-- Whether an acquire fence may take effect: every earlier load has its value fixed (R307). -/
def Squad.fenceReady (q : Squad) (f : Flight) : Bool := !q.asked f.id && !q.flight.any fun g => g.id < f.id && !g.perf

/-- Whether nothing of the squad holds a read of a load (R282, R297, R299). -/
def Squad.mayRead (q : Squad) (f : Flight) (r : RdReq) : Bool :=
  !f.perf && !f.byQueue && !q.asked f.id && !q.sq.any (fun e => e.holds f) && !q.flight.any fun g => g.holds f r

/-- Bytes of a read: the squad's own queued stores first, then a base. -/
def readBytes (sq : List SqEnt) (before sp a n : Nat) (base : Nat → Byte) : List Byte :=
  (List.range n).map fun i => (ownByte sq before sp (a + i)).getD (base i)

/-- Drop a line from a core's L1, since a thread of it has read or written a newer value of the line elsewhere (R296). -/
def State.dropL1 (s : State) (q : Sel) (line : Nat) : State :=
  s.modCore q.stall q.core fun k => { k with l1 := k.l1.del line }

/-- Fill a line of a core's L1, or bring the held line up to date, after a read that L1 did not serve (R263, R296). -/
def State.fillL1 (s : State) (q : Sel) (line : Nat) (fill : Bool) : State :=
  s.modCore q.stall q.core fun k =>
    if fill || (Tab.find? k.l1 line).isSome then { k with l1 := k.l1.put line (s.seenBytes q.stall (line * 64) 64) } else k

/-- The reservation that an lrs makes when its read is performed (R289, R291); a thread of a block that has halted keeps none. -/
def State.reserve (s : State) (q : Sel) (r : RdReq) (line : Nat) : State :=
  let running : Bool := match s.block? q.blk with
    | some b => b.halt.phase = .run || b.halt.phase = .inSup
    | none => false
  match r.resv with
  | none => s
  | some (va, con) =>
    if running then s.modSquad q fun x => x.modLane r.own fun ln =>
      { ln with resv := some ⟨line, va, r.size, if con then some (s.cyc q.stall q.core) else none⟩ }
    else s

/-- What becomes of a read: it waits, it meets a lost line (R266), or it is performed. -/
inductive RdOut where
  | wait
  | lost
  | done (bs : List Byte) (s : State)
deriving DecidableEq, Repr

/-- Whether an entry of the store queue names a line of device memory. -/
def SqEnt.onLine (e : SqEnt) (line : Nat) : Bool :=
  let at' (p : Place) : Bool := p.key.1 = 0 && p.key.2 / 64 = line
  match e.op with
  | .store p bs => p.key.1 = 0 && (linesOf p.key.2 bs.length).contains line
  | .atomic _ ls => ls.any fun l => at' l.place
  | .scs _ ls => ls.any fun l => at' l.place
  | .merge ls => ls.any fun l => at' l.place
  | .cwb p => at' p
  | .cinv p _ => at' p
  | .fence _ => false

/-- Whether a constrained lrs must wait for what its own squad has queued for its line, or for a write that the buffer holds: performed
later, it would end the reservation (R292). -/
def State.lrsBehind (s : State) (q : Sel) (sq : List SqEnt) (f : Flight) (line : Nat) : Bool :=
  (s.stall q.stall).buffers line || sq.any fun e => e.id < f.id && e.onLine line

/-- Whether the stall has a write to a line of this package on its way through the switch (R296, R319). -/
def State.ownPosted (s : State) (st line : Nat) : Bool := (s.stall st).posted.any fun p => match p.place with
  | .ext a _ => s.ownsExt a && (linesOf (a % 2 ^ 48) p.bytes.length).contains line
  | _ => false

/-- A read of device memory (R263, R271, R295, R301). -/
def State.readDev (s : State) (q : Sel) (sq : List SqEnt) (f : Flight) (r : RdReq) (pa : Nat) : RdOut :=
  let t := s.stall q.stall
  let line := pa / 64
  let x := s.dcLine q.stall line
  let plain := f.obs = 0 && r.resv.isNone
  let held := if plain then Tab.find? (t.core q.core).l1 line else none
  let s' := if held.isSome then { s with free := s.free + 1 } else s
  let con : Bool := match r.resv with
    | some (_, c) => c
    | none => false
  let tokens : Bool := if con then x.t = 64 && !s.lrsBehind q sq f line else 1 ≤ x.t && x.v
  let fromL1 := match held with
    | some l => if Config.freeBool s.free then some l else none
    | none => none
  let lost (buffered : Bool) : Bool := (List.range r.size).any fun i =>
    s.lostByte (pa + i) && (ownByte sq f.id 0 (pa + i)).isNone && !(buffered && t.buffersByte (pa + i))
  if s.ownPosted q.stall line then .wait
  else match fromL1 with
  | some l => .done (readBytes sq f.id 0 pa r.size fun i => l.getD (pa % 64 + i) 0) s'
  | none =>
    if obsOut f.obs then
      (if tokens && !t.buffers line then
        (if lost false then .lost
         else .done (readBytes sq f.id 0 pa r.size fun i => s.mem.rd (pa + i)) ((s'.fillL1 q line false).reserve q r line))
      else .wait)
    else if r.resv.isNone && (List.range r.size).all (fun i => (ownByte sq f.id 0 (pa + i)).isSome || t.buffersByte (pa + i)) then
      .done (readBytes sq f.id 0 pa r.size fun i => s.seenByte q.stall (pa + i)) (s'.dropL1 q line)
    else if tokens then
      (if lost true then .lost
       else .done (readBytes sq f.id 0 pa r.size fun i => s.seenByte q.stall (pa + i))
        ((s'.fillL1 q line (plain && !f.noFill)).reserve q r line))
    else .wait

/-! ### Host and domain memory (R264, R319) -/

/-- The line of host or domain memory, by the host address that names it (R319). -/
def Place.outLine : Place → Nat
  | .host a _ => a / 64
  | .ext a _ => (2 ^ 59 + a) / 64
  | _ => 0

/-- A byte of host or domain memory as that memory holds it. -/
def State.outByte (s : State) (p : Place) (i : Nat) : Byte :=
  match p with
  | .host a _ => s.hostMem.rd (a + i)
  | .ext a _ => s.extByte (a + i)
  | _ => 0

/-- The 64 bytes of the line that a place of host or domain memory lies in. -/
def State.outBytes (s : State) (p : Place) : List Byte :=
  (List.range 64).map fun i => match p with
    | .host a _ => s.hostMem.rd (a / 64 * 64 + i)
    | .ext a _ => s.extByte (a / 64 * 64 + i)
    | _ => 0

/-- Whether a place lies in an HRO page. -/
def Place.hro : Place → Bool
  | .host _ h => h
  | .ext _ h => h
  | _ => false

/-- Whether the stall has a posted write to a byte of a read on its way (R295, R296). -/
def Stall.postedTo (t : Stall) (p : Place) (n : Nat) : Bool := t.posted.any fun x => overlaps x.place x.bytes.length p n

/-- What a plain load of an HRO line leaves in the core's L1: the line, if the load fills it or L1 holds it (R263, R296). -/
def Core.keepHro (k : Core) (line : Nat) (fill : Bool) (bs : List Byte) : Core :=
  if fill || (Tab.find? k.l1h line).isSome then { k with l1h := k.l1h.put line bs } else k

/-- A read of host or domain memory (R264, R295, R301): a line of an HRO page may be served by the copy in the core's L1, if the load
is plain, or by the copy in the die cache, unless the read names the observer of that memory; any other read is served by the memory
and brings the copies up to date. -/
def State.readOut (s : State) (q : Sel) (sq : List SqEnt) (f : Flight) (r : RdReq) : RdOut :=
  let t := s.stall q.stall
  let p := r.place
  let a := p.key.2
  let line := p.outLine
  let strict := if p.key.1 = 2 then obsH f.obs else obsE f.obs
  let plain := f.obs = 0
  if t.postedTo p r.size then .wait
  else
    let inL1 := if p.hro && plain then Tab.find? (t.core q.core).l1h line else none
    let inDc := if p.hro && !strict then Tab.find? t.hro line else none
    let s' := if p.hro then { s with free := s.free + 2 } else s
    let give (l : List Byte) : List Byte := readBytes sq f.id p.key.1 a r.size fun i => l.getD (a % 64 + i) 0
    let fill (s : State) (l : List Byte) : State := s.modCore q.stall q.core fun k => k.keepHro line (plain && !f.noFill) l
    match (if Config.freeBool s.free then inL1 else none), (if Config.freeBool (s.free + 1) then inDc else none) with
    | some l, _ => .done (give l) s'
    | none, some l => .done (give l) (fill s' l)
    | none, none =>
      .done (readBytes sq f.id p.key.1 a r.size fun i => s.outByte p i)
        (if p.hro then fill (s'.putHro q.stall line (s.outBytes p)) (s.outBytes p)
         else if p.key.1 = 3 && s.ownsExt a then s'.dropL1 q (a % 2 ^ 48 / 64) else s')

/-- One read. -/
def State.readOne (s : State) (q : Sel) (sq : List SqEnt) (f : Flight) (r : RdReq) : RdOut :=
  match r.place with
  | .dev pa => s.readDev q sq f r pa
  | .mgmt off =>
    let t := s.stall q.stall
    if (t.wbuf.any fun w => w.id < f.id) || (t.posted.any fun p => p.id < f.id) then .wait
    else .done (s.mgmtBytes q.stall off r.size) s
  | _ => s.readOut q sq f r

/-- The words a read gives its registers (R267). -/
def RdReq.words (r : RdReq) (bs : List Byte) : List Word :=
  if r.size = 16 then (List.range 4).map fun i => BitVec.ofNat 32 (sliceNum bs (4 * i) 4)
  else extendWords r.size (r.fill = .sign) (leNat bs)

/-- What the reads of a load that are tried leave: the reads left, those that met a lost line, the values, and the machine. -/
structure RdRun where
  left : List RdReq
  lost : List RdReq
  vals : List (Nat × Nat × Word)
  s : State
deriving DecidableEq, Repr

/-- Perform the reads of a load that may be performed and satisfy a test. -/
def State.readMany (s : State) (q : Sel) (sq : Squad) (f : Flight) (now : RdReq → Bool) : RdRun :=
  f.reads.foldl (fun (a : RdRun) r =>
    if now r && sq.mayRead f r then
      match a.s.readOne q sq.sq f r with
      | .wait => { a with left := a.left ++ [r] }
      | .lost => { a with lost := a.lost ++ [r] }
      | .done bs s' =>
        let ws := r.words bs
        { a with vals := a.vals ++ (List.range ws.length).map (fun i => (r.lane, r.reg + i, ws.getD i 0)), s := s' }
    else { a with left := a.left ++ [r] }) ⟨[], [], [], s⟩

/-- Update the flight with an order number. -/
def Squad.modFlight (q : Squad) (id : Nat) (f : Flight → Flight) : Squad :=
  { q with flight := q.flight.map fun x => if x.id = id then f x else x }

/-- Take a flight away. -/
def Squad.dropFlight (q : Squad) (id : Nat) : Squad := { q with flight := q.flight.filter fun x => x.id ≠ id }

/-- The virtual address of a read as far as the machine keeps it. -/
def RdReq.va (r : RdReq) : DWord :=
  match r.resv with
  | some (va, _) => va
  | none => 0

/-- Perform what can be performed of one load (R297, R299); `out` says that reads of host and external memory are performed too. A
load that meets a lost line writes nothing and raises 0x2A (R266), unless only helper lanes meet it, which read zero (R53). -/
def State.performLoad (s : State) (q : Sel) (id : Nat) (out : Bool) : State :=
  match s.squad? q with
  | none => s
  | some sq =>
    match sq.flight.find? fun f => f.id = id with
    | none => s
    | some f =>
      if f.perf || f.byQueue then s
      else if f.reads.isEmpty then
        (if sq.fenceReady f && !sq.sq.any (fun e => e.holds f) then
          let s' := s.modSquad q fun x => x.modFlight id fun g => { g with perf := true }
          if f.acq then s'.acquireEffect q f.obs else s'
        else s)
      else
        let r := s.readMany q sq f fun x => out || !x.place.anyOrder
        let zeros := (r.lost.flatMap fun x =>
          let ws := x.words (List.replicate x.size 0)
          (List.range ws.length).map fun i => (x.lane, x.reg + i, ws.getD i 0))
        if r.lost.any fun x => !s.noThread q x.own then
          (r.s.modSquad q fun x => x.dropFlight id).lateLost q f.pc (r.lost.map fun x => (x.own, x.va))
        else
          let s' := r.s.modSquad q fun x => x.modFlight id fun g =>
            { g with reads := r.left, vals := if g.dst.isEmpty then g.vals else g.vals ++ r.vals ++ zeros, perf := r.left.isEmpty }
          if r.left.isEmpty && f.acq then s'.acquireEffect q f.obs else s'

/-- Perform the loads of a squad that are performed in program order, as far as they go. -/
def State.performLoads (s : State) (q : Sel) : State :=
  match s.squad? q with
  | none => s
  | some sq => sq.flight.foldl (fun s f => s.performLoad q f.id false) s

/-! ## The store queue -/

/-- Take the head entry of a squad's store queue away; with the last one, a squad without threads is free (R182, R305). -/
def State.popSq (s : State) (q : Sel) : State := (s.modSquad q fun x => { x with sq := x.sq.drop 1 }).reap q.blk

/-- Give values to the flight that an entry supplies. -/
def State.supply (s : State) (q : Sel) (flight : Option Nat) (vals : List (Nat × Nat × Word)) (done : Bool) : State :=
  match flight with
  | none => s
  | some id => s.modSquad q fun x => x.modFlight id fun f =>
      { f with vals := if f.dst.isEmpty then f.vals else f.vals ++ vals, perf := f.perf || done }

/-- The words of an atomic's old value for its destination. -/
def atVals (l : AtLane) (wide : Bool) (v : Nat) : List (Nat × Nat × Word) :=
  let ws := wordsOf wide (BitVec.ofNat 64 v)
  (List.range ws.length).map fun i => (l.lane, l.reg + i, ws.getD i 0)

/-- The line of a place. -/
def Place.line (p : Place) : Nat := p.key.2 / 64

/-- The lanes of an atomic that name the line its first lane names, and the rest (R286). -/
def lineLanes (ls : List AtLane) : List AtLane × List AtLane :=
  match ls with
  | [] => ([], [])
  | l :: _ => (ls.filter fun x => x.place.key.1 = l.place.key.1 && x.place.line = l.place.line,
               ls.filter fun x => !(x.place.key.1 = l.place.key.1 && x.place.line = l.place.line))

/-- Read, compute and write of lanes that name one line, in ascending lane order (R286). -/
def State.atomLanes (s : State) (op : AtomOp) (ls : List AtLane) : List (Nat × Nat × Word) × State :=
  ls.foldl (fun (acc : List (Nat × Nat × Word) × State) l =>
    let pa := l.place.key.2
    let old := acc.2.mem.num pa op.size
    (acc.1 ++ atVals l op.wide old,
     acc.2.performWrite pa (leBytes op.size (op.apply (BitVec.ofNat 64 old) l.b l.cmp).toNat))) ([], s)

/-- Mark a die cache's line dirty. -/
def State.dirty (s : State) (st line : Nat) : State := s.putDc st line { s.dcLine st line with v := true, d := true }

/-- Replace the lanes that remain of the head entry, or take it away when none do. -/
def State.headLanes (s : State) (q : Sel) (e : SqEnt) (op : List AtLane → SqOp) (left : List AtLane) : State :=
  if left.isEmpty then
    let s := (s.popSq q).supply q e.flight [] true
    match e.acq with
    | some o => s.acquireEffect q o
    | none => s
  else s.modSquad q fun x => { x with sq := { e with op := op left, sent := false, checked := true } :: x.sq.drop 1 }

/-- The lanes that need a byte of a lost line (R266). -/
def State.lostLanes (s : State) (z : Nat) (ls : List AtLane) : List AtLane :=
  ls.filter fun l => l.place.key.1 = 0 && s.lostAny l.place.key.2 z

/-- An entry whose lanes met a lost line goes, with the result that it supplies, and raises 0x2A (R11, R266). -/
def State.failEntry (s : State) (q : Sel) (e : SqEnt) (ls : List AtLane) : State :=
  let s := s.modSquad q fun x =>
    let x := { x with sq := x.sq.filter fun y => y.id ≠ e.id }
    match e.flight with
    | some id => x.dropFlight id
    | none => x
  (s.lateLost q e.pc (ls.map fun l => (l.own, l.va))).reap q.blk

/-- A far operation leaves for the home of its line, with the order number of that moment (R281, R283, R295, R421). -/
def State.sendFar (s : State) (q : Sel) (e : SqEnt) (op : Option AtomOp) (ls : List AtLane) : State :=
  match ls with
  | [] => s
  | l :: _ =>
    if e.sent then s
    else
      let s := s.modSquad q fun x => { x with sq := { e with sent := true } :: x.sq.drop 1 }
      { (s.modStall (s.homeStall l.place.line) fun t => { t with far := t.far ++ [⟨q, e.id, s.nextId, op, ls⟩] }) with
        nextId := s.nextId + 1 }

/-- The lanes of an entry that need a byte of a lost line: they are looked for when its first lanes act, before anything is written
(R11, R266, log 27). -/
def State.lostOf (s : State) (e : SqEnt) (z : Nat) (ls : List AtLane) : List AtLane := if e.checked then [] else s.lostLanes z ls

/-- Whether a die cache can perform an operation on a line: it holds every token, and no earlier write to the line is on its way
(R281, R295). -/
def State.lineReady (s : State) (st line : Nat) : Bool :=
  (s.dcLine st line).t = 64 && !(s.stall st).buffers line && !s.ownPosted st line

/-- An atomic at the head, one line after another in the order of their first lanes (R281, R286, R294): the lanes of a far line leave for
its home, and those of a near line act in the die cache. -/
def State.drainAtomic (s : State) (q : Sel) (e : SqEnt) (op : AtomOp) (ls : List AtLane) : State :=
  let lost := s.lostOf e op.size ls
  match lineLanes ls with
  | ([], _) => s.headLanes q e (.atomic op) []
  | (l :: same, left) =>
    match l.place with
    | .mgmt off =>
      if !lost.isEmpty then s.failEntry q e lost
      else
        let (old, s') := s.crtSwap q.stall (off / 8) l.cmp l.b
        (s'.supply q e.flight (atVals l op.wide old.toNat) false).headLanes q e (.atomic op) (same ++ left)
    | _ =>
      let line := l.place.line
      if l.far then s.sendFar q e (some op) (l :: same)
      else if !s.lineReady q.stall line then s
      else if !lost.isEmpty then s.failEntry q e lost
      else
        let (vals, s') := s.atomLanes op (l :: same)
        ((((s'.dirty q.stall line).dropL1 q line).supply q e.flight vals false)).headLanes q e (.atomic op) left

/-- Whether a lane's reservation is valid for an scs (R290). -/
def Lane.reserved (ln : Lane) (l : AtLane) (z : Nat) : Bool :=
  match ln.resv with
  | some r => r.va = l.va && r.z = z
  | none => false

/-- scs at the head: lanes in ascending order; a lane with a valid reservation waits for every token (R290). With the reservation its
protection ends, and what the die cache deferred goes on (R278, R291). -/
def State.drainScs (s : State) (q : Sel) (e : SqEnt) (wide : Bool) : List AtLane → State
  | [] => s.headLanes q e (.scs wide) []
  | l :: rest =>
    let z := if wide then 8 else 4
    let line := l.place.line
    let ok := match s.squad? q with
      | some sq => match Tab.find? sq.lanes l.own with
        | some ln => ln.reserved l z
        | none => false
      | none => false
    let endIt (s : State) : State := (s.modSquad q fun x => x.modLane l.own fun ln => { ln with resv := none }).forward q.stall line
    if ok then
      (if s.lineReady q.stall line then
        let s := (((s.performWrite l.place.key.2 (leBytes z l.b.toNat)).dirty q.stall line).dropL1 q line)
        State.drainScs ((endIt s).supply q e.flight [(l.lane, l.reg, 1)] false) q e wide rest
      else s.headLanes q e (.scs wide) (l :: rest))
    else State.drainScs ((endIt s).supply q e.flight [(l.lane, l.reg, 0)] false) q e wide rest

/-- A write enters the stall write buffer (R295): from then on the stall's agents see it, and it updates the issuing core's L1. -/
def State.bufferStore (s : State) (q : Sel) (id pa : Nat) (bs : List Byte) : State :=
  let line := pa / 64
  let s : State := { (s.modStall q.stall fun t => { (t.note [.dev line]) with wbuf := t.wbuf ++ [⟨id, s.nextId, some q, pa, bs⟩] }) with
    nextId := s.nextId + 1 }
  s.modCore q.stall q.core fun k => match Tab.find? k.l1 line with
    | none => k
    | some l => { k with l1 := k.l1.put line (patchBytes l (pa % 64) bs) }

/-- A store leaves the queue: into the stall write buffer, to the management page, or posted (R295). -/
def State.drainStore (s : State) (q : Sel) (e : SqEnt) (p : Place) (bs : List Byte) : State :=
  let s' : State := match p with
    | .dev pa => s.bufferStore q e.id pa bs
    | .mgmt off => s.mgmtStore q.stall off bs
    | p => s.modStall q.stall fun t => { t with posted := t.posted ++ [⟨e.id, some q, p, bs⟩] }
  s'.popSq q

/-- cwb at the head (R269): a dirty line's data and owner token go home. -/
def State.drainCwb (s : State) (q : Sel) (p : Place) : State :=
  match p with
  | .dev pa =>
    let line := pa / 64
    let x := s.dcLine q.stall line
    if x.o && x.d then
      (s.sendTokens line 1 true true true false q.stall (s.homeStall line) true).putDc q.stall line
        { x with t := x.t - 1, o := false, d := false, v := x.v && 1 < x.t }
    else s
  | _ => s

/-- cinv at the head (R269). -/
def State.drainCinv (s : State) (q : Sel) (p : Place) (dc : Bool) : State :=
  match p with
  | .dev pa =>
    let line := pa / 64
    let s := s.dropL1 q line
    if dc then s.dcSendAll q.stall line true (s.homeStall line) true else s
  | .mgmt _ => s
  | p =>
    let s := s.modCore q.stall q.core fun k => { k with l1h := k.l1h.del p.outLine }
    if dc then s.modStall q.stall fun t => { t with hro := t.hro.del p.outLine } else s

/-- Whether the waits of a release are over (R300, R301): writes that stood in the buffer when it reached the head, and for E
and H the posted writes. An acquire-release fence waits for every posted write, which no agent sees before it completes (R307). -/
def Stall.released (t : Stall) (ar : Bool) (o : BitVec 6) (mark : Nat) : Bool :=
  !(obsOut o && t.wbuf.any (fun w => w.seq < mark))
    && !((ar || obsE o) && t.posted.any (fun p => p.id < mark && p.place.key.1 = 3))
    && !((ar || obsH o) && t.posted.any (fun p => p.id < mark && p.place.key.1 = 2))

/-- Whether an entry is an acquire-release fence. -/
def SqOp.isAr : SqOp → Bool
  | .fence ar => ar
  | _ => false

/-- Whether the die cache defers a cinv of it, since a reservation protects the line (R291). -/
def State.defers (s : State) (st : Nat) (p : Place) (dc : Bool) : Bool :=
  dc && match p with
    | .dev pa => s.lineProtected st (pa / 64)
    | _ => false

/-- The effect of the head entry. -/
def State.drainOp (s : State) (q : Sel) (e : SqEnt) : State :=
  let acq (s : State) : State := match e.acq with
    | some o => s.acquireEffect q o
    | none => s
  match e.op with
  | .store p bs => acq (s.drainStore q e p bs)
  | .atomic op ls => s.drainAtomic q e op ls
  | .scs wide ls => s.drainScs q e wide ls
  | .merge ls => s.sendFar q e none (lineLanes ls).1
  | .cwb p => (s.popSq q).drainCwb q p
  | .cinv p dc => if s.defers q.stall p dc then s else (s.popSq q).drainCinv q p dc
  | .fence _ => acq (s.popSq q)

/-- The head of a squad's store queue acts, if nothing holds it: earlier loads have their values fixed (R297), no qget waits before it
(R361), and a release has its waits (R300). -/
def State.drainHead (s : State) (q : Sel) : State :=
  match s.squad? q with
  | none => s
  | some sq =>
    match sq.sq with
    | [] => s
    | e :: rest =>
      if sq.asked e.id || sq.flight.any fun f => f.id < e.id && !f.perf && !f.byQueue then s
      else match e.rel with
        | none => s.drainOp q e
        | some o =>
          let mark := e.mark.getD s.nextId
          let s := if e.mark.isSome then s
            else { (s.modSquad q fun x => { x with sq := { e with mark := some mark } :: rest }) with nextId := s.nextId + 1 }
          if (s.stall q.stall).released e.op.isAr o mark then s.drainOp q { e with mark := some mark } else s

/-! ## Performing buffered and posted writes -/

/-- Whether a buffered write is the oldest of its line (R295). -/
def oldestOfLine (ws : List BufW) (i : Nat) : Bool :=
  match ws[i]? with
  | none => false
  | some w => !(ws.take i).any fun x => x.pa / 64 = w.pa / 64

/-- A write of a squad is performed: a squad without threads may be free now (R305). -/
def State.reapFor (s : State) (src : Option Sel) : State :=
  match src with
  | some q => s.reap q.blk
  | none => s

/-- Perform a buffered write, if it is the oldest of its line and the die cache holds every token of it. -/
def State.performBuffered (s : State) (st i : Nat) : State :=
  let t := s.stall st
  match t.wbuf[i]? with
  | none => s
  | some w =>
    let line := w.pa / 64
    if oldestOfLine t.wbuf i && (s.dcLine st line).t = 64 then
      (((s.performWriteOf (some st) w.pa w.bytes).dirty st line).modStall st fun t =>
        { t with wbuf := t.wbuf.eraseIdx i }).reapFor w.src
    else s

/-- The index of the oldest buffered write to a line. -/
def bufIndex (ws : List BufW) (line : Nat) : Nat := ws.findIdx fun w => w.pa / 64 = line

/-- Perform every buffered write to a line, in order. -/
def State.performLine (s : State) (st line : Nat) : Nat → State
  | 0 => s
  | n + 1 =>
    let ws := (s.stall st).wbuf
    if bufIndex ws line < ws.length then State.performLine (s.performBuffered st (bufIndex ws line)) st line n else s

/-! ## What waits for a line -/

/-- Every squad slot of a stall. -/
def Stall.squads (t : Stall) (st : Nat) : List (Sel × Squad) :=
  (t.blocks st).flatMap fun b => b.2.squads.map fun q => (⟨b.1.stall, b.1.core, b.1.pos, q.1⟩, q.2)

/-- Whether a load of a squad that may be performed reads a device line and waits for tokens: 1 for a read, 2 for a constrained lrs,
which gathers all of them (R291). -/
def Squad.readsLine (q : Squad) (line : Nat) : Nat :=
  (q.flight.flatMap fun f => f.reads.map fun r => match r.place with
    | .dev pa => if pa / 64 = line && q.mayRead f r then (match r.resv with
      | some (_, true) => 2
      | _ => 1) else 0
    | _ => 0).foldl max 0

/-- Whether the head of a squad's store queue waits for every token of a line. -/
def Squad.writesLine (q : Squad) (line : Nat) : Bool :=
  match q.sq with
  | [] => false
  | e :: _ =>
    let first (ls : List AtLane) : Bool := match ls with
      | l :: _ => l.place.key.1 = 0 && !l.far && l.place.line = line
      | [] => false
    match e.op with
    | .atomic _ ls => first ls
    | .scs _ ls => first ls
    | _ => false

/-- Whether an access of a stall waits for one token of a line. -/
def State.wantsRead (s : State) (st line : Nat) : Bool :=
  ((s.stall st).squads st).any (fun q => q.2.readsLine line = 1) || (s.stall st).cores.any fun c => c.2.pf.contains line

/-- Whether an access of a stall waits for every token of a line. -/
def State.wantsWrite (s : State) (st line : Nat) : Bool :=
  (s.stall st).buffers line || ((s.stall st).squads st).any fun q => q.2.readsLine line = 2 || q.2.writesLine line

/-- A line that comes to the die cache fills the L1 of each core that has a prefetch of it under way (R269). -/
def State.servePf (s : State) (st line : Nat) : State :=
  s.modStall st fun t => { t with cores := t.cores.map fun c =>
    (c.1, if c.2.pf.contains line then
        { c.2 with l1 := c.2.l1.put line (s.seenBytes st (line * 64) 64), pf := c.2.pf.filter (· ≠ line) }
      else c.2) }

/-- Perform the accesses of a stall that wait for a line (R274, R278). -/
def State.serveLine (s : State) (st line : Nat) : State :=
  let s := s.servePf st line
  let s := s.performLine st line (s.stall st).wbuf.length
  let s := ((s.stall st).squads st).foldl (fun s q => if q.2.writesLine line then s.drainHead q.1 else s) s
  ((s.stall st).squads st).foldl (fun s q => if q.2.readsLine line ≠ 0 then s.performLoads q.1 else s) s

/-! ## Far operations at the home -/

/-- The key of a ray hit (R420): T with NaN greatest, then PRIM, then NODE. -/
def hitLess (t1 p1 : Word) (n1 : DWord) (t2 p2 : Word) (n2 : DWord) : Bool :=
  let a := FF.f32.read t1.toNat
  let b := FF.f32.read t2.toNat
  let lt := if a.isNan then false else if b.isNan then true else a.lt b
  let gt := if b.isNan then false else if a.isNan then true else b.lt a
  if lt then true else if gt then false
  else if p1.toNat < p2.toNat then true else if p2.toNat < p1.toNat then false else n1.toNat < n2.toNat

/-- The merge of a hit into its result slot (R421). -/
def State.mergeHit (s : State) (l : AtLane) : State :=
  let pa := l.place.key.2
  let w (k : Nat) : Word := BitVec.ofNat 32 (s.mem.num (pa + 4 * k) 4)
  let h (k : Nat) : Word := l.more.getD k 0
  if hitLess (h 0) (h 3) l.b (w 0) (w 3) (BitVec.ofNat 64 (s.mem.num (pa + 16) 8)) then
    s.performWrite pa ((List.range 4).flatMap (fun k => leBytes 4 (h k).toNat) ++ leBytes 8 l.b.toNat ++ leBytes 8 0)
  else s

/-- The lanes of a queue entry that one far operation carried are done. -/
def State.farDone (s : State) (f : FarOp) (vals : List (Nat × Nat × Word)) : State :=
  match s.squad? f.q with
  | none => s
  | some sq =>
    match sq.sq with
    | [] => s
    | e :: _ =>
      if e.id ≠ f.sqid then s
      else
        let left (ls : List AtLane) : List AtLane := ls.filter fun l => !f.lanes.contains l
        let s := s.supply f.q e.flight vals false
        match e.op with
        | .atomic op ls => s.headLanes f.q e (.atomic op) (left ls)
        | .merge ls => s.headLanes f.q e .merge (left ls)
        | _ => s

/-- The entry of the store queue that a far operation came from. -/
def State.farEntry (s : State) (f : FarOp) : Option SqEnt := (s.squad? f.q).bind fun sq => sq.sq.find? fun e => e.id = f.sqid

/-- Bytes of a far operation on a lane's place. -/
def FarOp.size (f : FarOp) : Nat :=
  match f.op with
  | some op => op.size
  | none => 32

/-- The lanes of an entry of atomics or merges. -/
def SqOp.lanes : SqOp → List AtLane
  | .atomic _ ls => ls
  | .merge ls => ls
  | _ => []

/-- The lanes that meet a lost line where a far operation acts: of all the lines of its word, if its lanes are the first to act
(R11, R266). -/
def State.farLost (s : State) (f : FarOp) : List AtLane :=
  match s.farEntry f with
  | some e => s.lostOf e f.size e.op.lanes
  | none => s.lostLanes f.size f.lanes

/-- Perform a far operation at its home (R283); a word that meets a lost line raises 0x2A and writes nothing (R266). -/
def State.performFar (s : State) (f : FarOp) : State :=
  let line := match f.lanes with
    | l :: _ => l.place.line
    | [] => 0
  let lost := s.farLost f
  if !lost.isEmpty then (match s.farEntry f with
    | some e => s.failEntry f.q e lost
    | none => s)
  else match f.op with
    | some op =>
      let (vals, s') := s.atomLanes op f.lanes
      (s'.dropL1 f.q line).farDone f vals
    | none => ((f.lanes.foldl (fun s l => s.mergeHit l) s).dropL1 f.q line).farDone f []

/-- Whether a write to its line that stood in its stall's buffer when a far operation left is left there (R295). -/
def State.farBehind (s : State) (f : FarOp) : Bool :=
  match f.lanes with
  | [] => false
  | l :: _ => s.ownPosted f.q.stall l.place.line
    || (s.stall f.q.stall).wbuf.any fun w => w.pa / 64 = l.place.line && w.seq < f.mark

/-- Whether a far operation may act now: its home holds every token, and no earlier write holds it (R283, R295). -/
def State.farReady (s : State) (f : FarOp) : Bool :=
  match f.lanes with
  | [] => true
  | l :: _ => (s.homeLine l.place.line).t = 64 && !s.farBehind f

/-- A write that came from outside the package is performed at the home of its line, which is whole again if it covers it (R266, R293). -/
def State.performAtHome (s : State) (pa : Nat) (bs : List Byte) : State :=
  if bs.length = 64 then (s.performWrite pa bs).wholeAtHome (pa / 64) else s.performWrite pa bs

/-- Writes of the host and of external peers to a line are performed at its home once it holds every token (R293). -/
def State.serveInbound (s : State) (line : Nat) : State :=
  let (mine, rest) := s.inbound.partition fun w => w.1 / 64 = line
  if mine.isEmpty then s
  else if (s.homeLine line).t = 64 then
    (mine.foldl (fun (s : State) w => s.performAtHome w.1 w.2) { s with inbound := rest }).served (s.homeStall line) line true
  else s.askPersistent (s.homeStall line) line .home

/-- Perform the far operations of a home on a line that its gathered tokens allow, then the writes from outside. -/
def State.serveHome (s : State) (st line : Nat) : State :=
  let mine (f : FarOp) : Bool := match f.lanes with
    | l :: _ => l.place.line = line
    | [] => false
  State.serveInbound (((s.stall st).far.filter mine).foldl (fun s f =>
    if s.farReady f then
      ((s.performFar f).modStall st fun t => { t with far := t.far.erase f }).served st line true
    else s) s) line

end Machine

end Sys2Proof
end

