-- ==== Sys2Proof/Machine/Records.lean ====
section
/-! DEFINITION. The scheduler's accesses, completion and system-call records, and the ends of queue entries (R343 to R349,
R448, R449). -/

set_option Elab.async false

namespace Sys2Proof.Machine

open Sys2Proof

/-! ## Accesses of the scheduler -/

/-- What a unit of a stall reads at a place: what the stall sees, or 0x2A (R266); it waits for a token of the line (R271), and for
writes of the stall to the same bytes of host or domain memory that are on their way (R295, R296). -/
def State.unitRead (s : State) (st : Nat) (p : Place) (n : Nat) : Except Nat (List Byte) :=
  match p with
  | .dev pa =>
    if s.lostSeen st pa n then .error 0x2A
    else if !s.readableAt st pa n then .error (s.missCode st pa n)
    else .ok (s.seenBytes st pa n)
  | .mgmt off => .ok (s.mgmtBytes st off n)
  | p => if (s.stall st).postedTo p n then .error waitCode else .ok ((List.range n).map (s.outByte p))

/-- What a unit's read leaves: the translation kept (R258), and its lines read (R274). -/
def State.unitTouch (s : State) (st : Nat) (sup : Bool) (va : DWord) (acc : Acc) (n k : Nat) : State :=
  match s.translate st sup va acc 1 k with
  | .error _ => s
  | .ok t =>
    let s := s.keepTlb st [t.ent]
    match acc, t.place with
    | .write, _ => s
    | _, .dev pa => s.takeReads st (linesOf pa n)
    | _, _ => s

/-- One piece of a read, within a line, as a user-mode access of the stall (R344): what the stall sees, or the cause. -/
def State.readPiece (s : State) (st : Nat) (acc : Acc) (va n k : Nat) : Except Nat (List Byte) :=
  match s.translate st false (BitVec.ofNat 64 va) acc 1 k with
  | .error c => .error c
  | .ok t => s.unitRead st t.place n

/-- A read of n bytes by the scheduler, line by line. -/
def State.userRead (s : State) (st : Nat) (acc : Acc) (va n : Nat) : Except Nat (List Byte) :=
  (linesOf va n).foldl (fun r l => match r with
    | .error c => .error c
    | .ok bs =>
      let lo := max va (64 * l)
      let hi := min (va + n) (64 * l + 64)
      match s.readPiece st acc lo (hi - lo) bs.length with
      | .error c => .error c
      | .ok x => .ok (bs ++ x)) (.ok [])

/-- What a read of n bytes by the scheduler leaves. -/
def State.userTouch (s : State) (st : Nat) (acc : Acc) (va n : Nat) : State :=
  (linesOf va n).foldl (fun s l =>
    let lo := max va (64 * l)
    let hi := min (va + n) (64 * l + 64)
    s.unitTouch st false (BitVec.ofNat 64 lo) acc (hi - lo) (lo - va)) s

/-- The cause of a write of a 32-bit word, or its place. -/
def State.userPlace (s : State) (st : Nat) (acc : Acc) (va : DWord) : Except Nat Place :=
  match s.translate st false va acc 4 0 with
  | .error c => .error c
  | .ok t => match acc, leafKind t.ent.leaf with
    | .write, 2 => .error 0x22
    | _, _ => .ok t.place

/-- A write of a 32-bit word by the scheduler: it enters the write buffer, or is posted (R295). The order number is that of
the write. -/
def State.userWrite (s : State) (st : Nat) (va : DWord) (v : Word) : Except Nat (Nat × State) :=
  match s.userPlace st .write va with
  | .error c => .error c
  | .ok p =>
    let id := s.nextId
    let bs := leBytes 4 v.toNat
    let s := s.unitTouch st false va .write 4 0
    .ok (id, match p with
      | .dev pa => s.bufferBytes st none pa bs
      | .mgmt off => s.mgmtStore st off bs
      | p => { (s.modStall st fun t => { t with posted := t.posted ++ [⟨id, none, p, bs⟩] }) with nextId := id + 1 })

/-- Whether buffered and posted writes below an order number are all performed. -/
def Stall.writtenTo (t : Stall) (upto : Nat) : Bool :=
  !(t.wbuf.any fun w => w.id < upto) && !(t.posted.any fun p => p.id < upto)

/-! ## Rings (R347, R348, R448) -/

/-- HBASE of a ring descriptor. -/
def ringBase (d : DWord) : Nat := field d 59 6 * 64
/-- LOG2ENT. -/
def ringLog (d : DWord) : Nat := field d 5 0
/-- Whether a ring is enabled. -/
def ringOn (d : DWord) : Bool := 4 ≤ ringLog d && ringLog d ≤ 16

/-- Whether record r may be written: r − CONS ≤ 2^LOG2ENT (R348). -/
def ringRoom (d : DWord) (seq cons : Word) : Bool := (seq + 1 - cons).toNat ≤ 2 ^ ringLog d

/-- The bytes of a completion record after its RSEQ (R347). -/
def doneRecord (eseq : Word) (queue ty status aux : Nat) : List Byte :=
  leBytes 4 eseq.toNat ++ leBytes 1 queue ++ leBytes 1 ty ++ leBytes 2 status ++ leBytes 4 aux ++ List.replicate 16 0

/-- Hold a completion record until it can be written; a disabled ring drops it (R348). -/
def State.postDone (s : State) (st : Nat) (bytes : List Byte) (entry : Option Nat) : State :=
  s.modStall st fun t => if ringOn t.cring then { t with heldRecs := t.heldRecs ++ [⟨false, bytes, entry, none⟩] } else t

/-! ## Entries (R345) -/

/-- The address of a queue's state block. -/
def State.queueBlock (s : State) (st q : Nat) : Nat :=
  s.localPa st (field (BitVec.ofNat 64 ((s.stall st).qdesc.num (32 * q + 8) 8)) 40 6 * 64)

/-- A queue as the scheduler keeps it. -/
def Stall.queue (t : Stall) (q : Nat) : QueueSt := Tab.get QueueSt.empty t.queues q

/-- COMPLETED advances over the complete prefix, whose entries leave (R345, step 5). -/
def State.advanceCompleted (s : State) (st q : Nat) : Nat → State
  | 0 => s
  | n + 1 =>
    let t := s.stall st
    let next := (t.queue q).completed + 1
    match t.entries.find? fun e => e.q = q && e.seq = next && e.st = .complete with
    | none => s
    | some e =>
      let s := s.modStall st fun t => { t with
        entries := t.entries.filter fun x => x.id ≠ e.id
        queues := t.queues.put q { t.queue q with completed := next } }
      State.advanceCompleted (s.bufferBytes st none (s.queueBlock st q + 4) (leBytes 4 next.toNat)) st q n

/-- Set the state of an entry. -/
def State.setEntry (s : State) (st id : Nat) (f : Entry → Entry) : State :=
  s.modStall st fun t => { t with entries := t.entries.map fun e => if e.id = id then f e else e }

/-- Set or clear BUSY of a market (R28). -/
def State.setBusy (s : State) (m : Nat) (b : Bool) : State :=
  let e := Tab.get ((0 : DWord), (0 : Word)) s.market m
  let ctl := if b then e.2 ||| 0x40000000 else e.2 &&& 0xBFFFFFFF
  { s with market := Tab.put s.market m (e.1, ctl) }

/-- The market of a raster message. -/
def PrimMsg.market : PrimMsg → Nat
  | .drawStart m _ _ _ => m
  | .packet m _ => m
  | .done m _ _ _ _ => m
  | .passEnd m _ _ => m
  | .retired m _ _ => m

/-- A pass closes: its messages go and its market is free (R374). -/
def State.closePass (s : State) (m : Nat) : State :=
  State.setBusy { s with passes := s.passes.filter (fun y => y.market ≠ m), prims := s.prims.filter fun x => x.market ≠ m } m false

/-- What the completion of an entry frees: the market of an MLAUNCH, or of a pass (R353, R374). -/
def State.freeMarket (s : State) (e : Entry) : State :=
  match e.market with
  | none => s
  | some m => if e.ty = 2 then s.setBusy m false else if e.ty = 0x12 then s.closePass m else s

/-- An entry whose record is written, or that writes none, is complete. -/
def State.entryComplete (s : State) (st id : Nat) : State :=
  match (s.stall st).entries.find? fun e => e.id = id with
  | none => s
  | some e =>
    ((s.freeMarket e).setEntry st id fun e => { e with st := .complete }).advanceCompleted st e.q ((s.stall st).entries.length + 1)

/-- A queue entry ends with STATUS and AUX: its record is held where it owes one (R345, R347). -/
def State.entryEnds (s : State) (st id status aux : Nat) : State :=
  match (s.stall st).entries.find? fun e => e.id = id with
  | none => s
  | some e =>
    let done : Bool := match e.st with
      | .finished _ _ => true
      | .complete => true
      | _ => false
    if done then s
    else
      let s := s.setEntry st id fun e => { e with st := .finished status aux }
      if (e.notify || status ≠ 0) && ringOn (s.stall st).cring then
        s.postDone st (doneRecord e.seq e.q e.ty status aux) (some id)
      else s.entryComplete st id

/-- The number of a written record, where a block keeps it: the parked squad of a call, or the halted block (R452, R492). -/
def BlockHalt.numbered (h : BlockHalt) (o : OutRec) (n : Word) : BlockHalt :=
  if o.kind = 1 then { h with rseq := some n.toNat } else h

/-- A record is outstanding from its writing (R492). -/
def State.installOut (s : State) (st : Nat) (n : Word) (o : OutRec) : State :=
  s.modStall st fun t => { t with
    outRecs := t.outRecs ++ [{ o with rseq := n }]
    cores := t.cores.map fun c => (c.1, { c.2 with blocks := c.2.blocks.map fun b =>
      (b.1, if b.2.launch = o.launch && b.2.index = o.index && o.kind ≠ 2 then
        { (if o.kind = 0 then b.2.modSquad o.slot fun q => { q with park := .call (some n.toNat) } else b.2) with
          halt := b.2.halt.numbered o n }
        else b.2) })
    saved := t.saved.map fun v =>
      if v.launch = o.launch && v.index = o.index && o.kind ≠ 2 then
        { v with
          halt := v.halt.numbered o n
          calls := if o.kind = 0 then v.calls.put o.slot (some n.toNat) else v.calls }
      else v }

/-- Write the oldest held record of a ring, if there is room (R348). -/
def State.releaseOne (s : State) (st : Nat) (sys : Bool) : State :=
  let t := s.stall st
  match t.heldRecs.find? fun r => r.syscall = sys with
  | none => s
  | some r =>
    let d := if sys then t.scring else t.cring
    let seq := if sys then t.scrseq else t.crseq
    let cons := if sys then t.sccons else t.ccons
    let drop (s : State) : State := s.modStall st fun t => { t with heldRecs := t.heldRecs.erase r }
    let close (s : State) : State := match r.entry with
      | some id => if sys then s else s.entryComplete st id
      | none => s
    if !ringOn d then close (drop s)
    else if ringRoom d seq cons then
      let n := seq + 1
      let size := if sys then 64 else 32
      let a := ringBase d + size * (n.toNat % 2 ^ ringLog d)
      let s := (drop s).performHost a (leBytes 4 n.toNat ++ r.bytes) true
      let s := s.modStall st fun t => if sys then { t with scrseq := n } else { t with crseq := n }
      close (match r.out with
        | none => s
        | some o => s.installOut st n o)
    else s

/-- Stop a queue (R345, step 3): EN clears, STOP and STOPSEQ are written, and a record says why. -/
def State.stopQueue (s : State) (st q : Nat) (n : Word) (ty aux : Nat) : State :=
  let b := s.queueBlock st q
  let s := s.modStall st fun t => { t with qdesc := t.qdesc.wr (32 * q + 22) (t.qdesc.rd (32 * q + 22) &&& 0xFE) }
  let s := (s.bufferBytes st none (b + 8) (leBytes 4 n.toNat)).bufferBytes st none (b + 12) [1]
  s.postDone st (doneRecord n q ty 0x0300 aux) none

end Sys2Proof.Machine
end

