-- ==== Sys2Proof/Machine/Copy.lean ====
section
/-! DEFINITION. Footprint cards (R308 to R311), the memory accesses of jobs, and the copy unit (chapter 07, R193 to R203). -/

set_option Elab.async false

namespace Sys2Proof.Machine

open Sys2Proof

/-! ## Footprints -/

/-- Whether two regions share a byte (R308, R310). -/
def Region.meets (a b : Region) : Bool :=
  a.space = b.space && a.owner = b.owner && 0 < a.len && 0 < b.len && a.base < b.base + b.len && b.base < a.base + a.len

/-- Whether an earlier card has an edge to a later one (R310). -/
def Card.edge (i j : Card) : Bool :=
  i.writes.any (fun w => j.reads.any w.meets) || i.reads.any (fun r => j.writes.any r.meets)
    || i.writes.any fun w => j.writes.any w.meets

/-- Whether no earlier card has an edge to a card of the table. -/
def cardClear (cs : List Card) (id : Nat) : Bool :=
  match cs.find? fun c => c.id = id with
  | none => true
  | some j => !((cs.takeWhile fun c => c.id ≠ id).any fun i => i.edge j)

/-- Whether a fetched SIGNAL whose write is not performed holds a card that entered after it (R355); a failed SIGNAL holds it until
the SIGNAL completes, which its record may delay (R348, R354). -/
def Entry.holdsCard (e : Entry) (c : Card) : Bool :=
  let ext := sliceNum e.bytes 40 4
  let r : Region := ⟨0, (0, 0), sliceNum e.bytes 32 8, ext⟩
  let open' : Bool := match e.st with
    | .finished status _ => status ≠ 0
    | .complete => false
    | _ => true
  e.ty = 3 && ext ≠ 0 && open' && e.id < c.id && (c.reads.any r.meets || c.writes.any r.meets)

/-- Whether a card of the table may access memory (R310, R355): from the clock after it entered, when every card that goes before it
has entered too (R309). -/
def Stall.cardMay (t : Stall) (id : Nat) : Bool :=
  cardClear t.cards id && !(t.cards.any fun c => c.id = id && (t.clock ≤ c.clock || t.entries.any fun e => e.holdsCard c))

/-- The cards that failed jobs of a block keep in the table (R311). -/
def Block.failedCards (k : Block) : List Nat :=
  k.halt.cards ++ (k.halt.job.map (·.card)).toList ++ k.halt.pendJob.map (·.card) ++ (k.eng.run.filter (·.failed)).map (·.card)

/-- Whether the footprint table has a free entry (R309). -/
def Stall.cardRoom (t : Stall) : Bool := t.cards.length < 256

/-- The place among the cards of one clock (R309): by core, and within a core words by issue slot, then the copy of a COPY entry (4,
log 59), then the matrix engine (5). -/
def cardPlace (core k : Nat) : Nat := core * 8 + k

/-- Whether a card goes before another in the table. -/
def Card.before (a b : Card) : Bool := a.clock < b.clock || (a.clock = b.clock && a.place ≤ b.place)

/-- Put a card behind those that go before it (R309). -/
def insertCard (cs : List Card) (x : Card) : List Card := cs.takeWhile (·.before x) ++ x :: cs.dropWhile (·.before x)

/-- Enter a card: its number, and the machine after. -/
def State.enterCard (s : State) (st place : Nat) (reads writes : List Region) : Nat × State :=
  (s.nextId, { (s.modStall st fun t => { t with cards := insertCard t.cards ⟨s.nextId, t.clock, place, reads, writes⟩ }) with
    nextId := s.nextId + 1 })

/-- A card leaves the table. -/
def State.leaveCard (s : State) (st id : Nat) : State :=
  s.modStall st fun t => { t with cards := t.cards.filter fun c => c.id ≠ id }

/-- The owner of a block's pad and AM in regions: its launch and index, which no other block of the stall has (R308). -/
def State.ownerOf (s : State) (b : BSel) : Nat × Nat :=
  match s.block? b with
  | some k => (k.launch, k.index)
  | none => (0, 0)

/-! ## Accesses of jobs -/

/-- One side of a job: the stall's virtual space, the pad of a block, or its AM. -/
inductive End where
  | va
  | pad (b : BSel)
  | am (b : BSel)
deriving DecidableEq, Repr

/-- Read n bytes for a job: what the stall sees, or the cause (R203). -/
def State.jobRead (s : State) (st : Nat) (sup : Bool) (e : End) (addr : Int) (n k : Nat) : Except Nat (List Byte) :=
  match e with
  | .va =>
    match s.translate st sup (BitVec.ofInt 64 addr) .read 1 k with
    | .error c => .error c
    | .ok t => s.unitRead st t.place n
  | .pad b =>
    match s.block? b with
    | none => .error 0x26
    | some k => if hitsBad k.padBad addr.toNat n then .error 0x2B else .ok (k.pad.rds addr.toNat n)
  | .am b =>
    match s.block? b with
    | none => .error 0x27
    | some k => if hitsBad k.amBad addr.toNat n then .error 0x2B else .ok (k.am.rds addr.toNat n)

/-- The place a job would write to, or the cause (R203). -/
def State.jobPlace (s : State) (st : Nat) (sup : Bool) (e : End) (addr : Int) (k : Nat) : Except Nat (Option Place) :=
  match e with
  | .va =>
    match s.translate st sup (BitVec.ofInt 64 addr) .write 1 k with
    | .error c => .error c
    | .ok t => if leafKind t.ent.leaf = 2 then .error 0x22 else .ok (some t.place)
  | _ => .ok none

/-- What a job's access of the virtual space leaves: the translation and the tokens. -/
def State.jobTouch (s : State) (st : Nat) (sup : Bool) (e : End) (addr : Int) (acc : Acc) (n k : Nat) : State :=
  match e with
  | .va => s.unitTouch st sup (BitVec.ofInt 64 addr) acc n k
  | _ => s

/-- Whether a job's access goes to host or domain memory. -/
def State.jobOut (s : State) (st : Nat) (sup : Bool) (e : End) (addr : Int) (acc : Acc) (k : Nat) : Bool :=
  match e with
  | .va => match s.translate st sup (BitVec.ofInt 64 addr) acc 1 k with
    | .ok t => t.place.key.1 = 2 || t.place.key.1 = 3
    | .error _ => false
  | _ => false

/-- Write bytes for a job; `src` is the squad that issued it, if one. What falls on an entry of the CRT is dropped without a cause: R23 speaks
of the stores and atomics of words only (log 43). -/
def State.jobWrite (s : State) (st : Nat) (src : Option Sel) (e : End) (p : Option Place) (addr : Int) (bs : List Byte) : State :=
  match e, p with
  | .va, some (.dev pa) => s.bufferBytes st src pa bs
  | .va, some (.mgmt off) => s.mgmtStore st off bs
  | .va, some p =>
    { (s.modStall st fun t => { t with posted := t.posted ++ [⟨s.nextId, src, p, bs⟩] }) with nextId := s.nextId + 1 }
  | .va, none => s
  | .pad b, _ => s.modBlock b fun k => k.writePad addr.toNat bs
  | .am b, _ => s.modBlock b fun k => k.writeAm addr.toNat bs

/-! ## Descriptors (R196, R197) -/

/-- A copy descriptor's fields. -/
structure CopyD where
  top : Nat
  srcPeer : Nat
  srcKind : Nat
  src : Nat
  dstPeer : Nat
  dstKind : Nat
  dst : Nat
  dfmt : TyCode
  sfmt : TyCode
  sat : Bool
  zb : Bool
  sr : Bool
  tag : Nat
  n : List Nat
  side : Bool
  st : List Int
  seed : Word
deriving DecidableEq, Repr

/-- Read a descriptor. -/
def CopyD.ofWords (ws : List Word) : CopyD :=
  let d (k : Nat) : DWord := pair64 (ws.getD (2 * k) 0) (ws.getD (2 * k + 1) 0)
  let sh := d 2
  let sv := d 3
  let stride (i : Nat) : Int := ((sv.extractLsb' (20 * i) 20).toInt) * 2 ^ field sv 62 60
  { top := field (d 0) 63 62 + field (d 1) 63 62
    srcPeer := field (d 0) 61 56, srcKind := field (d 0) 55 52, src := field (d 0) 51 0
    dstPeer := field (d 1) 61 56, dstKind := field (d 1) 55 52, dst := field (d 1) 51 0
    dfmt := TyCode.ofBits (sh.extractLsb' 60 4), sfmt := TyCode.ofBits (sh.extractLsb' 56 4)
    sat := sh.getLsbD 55, zb := sh.getLsbD 54, sr := sh.getLsbD 53, tag := field sh 52 47
    n := [field sh 15 0, field sh 27 16, field sh 38 28, field sh 46 39]
    side := sv.getLsbD 63
    st := [stride 0, stride 1, stride 2]
    seed := lo32 (d 0) ^^^ lo32 (d 1) ^^^ 0x9E3779B9 }

/-- Bytes of an element. -/
def elemSize (t : TyCode) : Nat := t.width / 8

/-- Count i of a descriptor. -/
def CopyD.cnt (d : CopyD) (i : Nat) : Nat := d.n.getD i 0

/-- Elements of a copy. -/
def CopyD.total (d : CopyD) : Nat := d.cnt 0 * d.cnt 1 * d.cnt 2 * d.cnt 3

/-- The offset of element k in copy order on a dense side. -/
def denseOff (z k : Nat) : Int := ((z * k : Nat) : Int)

/-- The offset of element k in copy order on the strided side (R197). -/
def CopyD.stridedOff (d : CopyD) (z k : Nat) : Int :=
  let i0 := k % d.cnt 0
  let i1 := k / d.cnt 0 % d.cnt 1
  let i2 := k / (d.cnt 0 * d.cnt 1) % d.cnt 2
  let i3 := k / (d.cnt 0 * d.cnt 1 * d.cnt 2)
  ((z * i0 : Nat) : Int) + d.st.getD 0 0 * ((i1 : Nat) : Int) + d.st.getD 1 0 * ((i2 : Nat) : Int) + d.st.getD 2 0 * ((i3 : Nat) : Int)

/-- The source offset of element k. -/
def CopyD.srcOff (d : CopyD) (k : Nat) : Int :=
  if d.side then denseOff (elemSize d.sfmt) k else d.stridedOff (elemSize d.sfmt) k

/-- The destination offset of element k. -/
def CopyD.dstOff (d : CopyD) (k : Nat) : Int :=
  if d.side then d.stridedOff (elemSize d.dfmt) k else denseOff (elemSize d.dfmt) k

/-- The lowest offset and the end of a side's extent, scales and bitmap aside. -/
def CopyD.span (d : CopyD) (strided : Bool) (z : Nat) : Int × Int :=
  if strided then
    let step (i : Nat) : Int := d.st.getD i 0 * (((d.cnt (i + 1) - 1 : Nat)) : Int)
    let neg (x : Int) : Int := if x < 0 then x else 0
    let pos (x : Int) : Int := if x < 0 then 0 else x
    (neg (step 0) + neg (step 1) + neg (step 2), pos (step 0) + pos (step 1) + pos (step 2) + ((z * d.cnt 0 : Nat) : Int))
  else (0, ((z * d.total : Nat) : Int))

/-- Bytes of the zero-block bitmap (R199). -/
def CopyD.bitmapBytes (d : CopyD) : Nat := (d.cnt 0 * d.cnt 1 + 4095) / 4096 * 8

/-- The source extent. -/
def CopyD.srcExt (d : CopyD) : Int × Int :=
  let (lo, hi) := d.span (!d.side) (elemSize d.sfmt)
  (lo, if d.sfmt = .mx8 then max hi ((d.total + d.total / 32 : Nat) : Int) else hi)

/-- The destination extent, with its scales or its bitmap. -/
def CopyD.dstExt (d : CopyD) : Int × Int :=
  let (lo, hi) := d.span d.side (elemSize d.dfmt)
  (lo, if d.dfmt = .mx8 then max hi ((d.total + d.total / 32 : Nat) : Int)
       else if d.zb then max hi ((d.cnt 0 * d.cnt 1 * elemSize d.dfmt + d.bitmapBytes : Nat) : Int) else hi)

/-- A breach of R200 by an MX copy. -/
def CopyD.mxBad (d : CopyD) : Bool :=
  if d.sfmt = .mx8 || d.dfmt = .mx8 then
    !((d.sfmt = .f32 && d.dfmt = .mx8 && !d.side) || (d.sfmt = .mx8 && d.dfmt = .f32 && d.side)) || d.cnt 0 % 32 ≠ 0
      || d.cnt 0 = 0 || d.zb
  else false

/-- A breach of R199. -/
def CopyD.zbBad (d : CopyD) : Bool :=
  d.zb && !(d.dstKind = 1 && !d.side && d.cnt 0 % 8 = 0 && d.cnt 1 % 8 = 0 && d.cnt 2 = 1 && d.cnt 3 = 1
    && (d.dfmt.width = 8 || d.dfmt.width = 16) && d.dfmt ≠ .mx8)

/-- An element offset that is no multiple of its element size (R201). -/
def CopyD.misaligned (d : CopyD) : Bool :=
  let zs := elemSize d.sfmt
  let zd := elemSize d.dfmt
  let z := if d.side then zd else zs
  d.src % zs ≠ 0 || d.dst % zd ≠ 0
    || (List.range 3).any fun i => 1 < d.cnt (i + 1) && d.st.getD i 0 % (z : Int) ≠ 0

/-- The 0x43 of a descriptor (R201), for a block of a gang of size g (1 for none); `sameDst` says that both sides name one
range. -/
def CopyD.bad (d : CopyD) (g : Nat) (same : Bool) : Bool :=
  let (slo, shi) := d.srcExt
  let (dlo, dhi) := d.dstExt
  let sideBad (kind peer a : Nat) : Bool :=
    3 < kind || (kind = 3 && (g < 2 || g ≤ peer)) || (kind ≠ 3 && peer ≠ 0) || (kind ≠ 0 && 2 ^ 32 ≤ a)
  d.top ≠ 0 || sideBad d.srcKind d.srcPeer d.src || sideBad d.dstKind d.dstPeer d.dst || d.n.contains 0 || d.mxBad || d.zbBad
    || d.misaligned
    || (same && (d.src : Int) + slo < (d.dst : Int) + dhi && (d.dst : Int) + dlo < (d.src : Int) + shi)

/-- The block of a gang with a rank (R48). -/
def State.gangMember (s : State) (b : BSel) (rank : Nat) : Option BSel :=
  match s.block? b with
  | none => none
  | some me =>
    (((s.stall b.stall).blocks b.stall).find? fun x =>
      x.2.launch = me.launch && me.gang > 1 && x.2.index / me.gang = me.index / me.gang && x.2.index % me.gang = rank).map (·.1)

/-- What the member of a gang with a rank left when it ended. -/
def State.gangLeft (s : State) (b : BSel) (rank : Nat) : Option BSel :=
  match s.block? b with
  | none => none
  | some me => (((s.stall b.stall).lefts b.stall).find? fun x =>
      x.2.launch = me.launch && me.gang > 1 && x.2.index / me.gang = me.index / me.gang && x.2.index % me.gang = rank).map (·.1)

/-- What a side of a descriptor names, for a block; the pad of a peer that has ended is what it has left (log 57). -/
def State.copyEnd (s : State) (b : BSel) (kind peer : Nat) : End :=
  match kind with
  | 0 => .va
  | 1 => .pad b
  | 2 => .am b
  | _ => match s.gangMember b peer <|> s.gangLeft b peer with
    | some m => .pad m
    | none => .pad b

/-- The allotment of a side, and its range cause. -/
def State.endLimit (s : State) : End → Option (Nat × Nat)
  | .va => none
  | .pad b => (s.block? b).map fun k => (k.kern.pad, 0x26)
  | .am b => (s.block? b).map fun k => (k.kern.am, 0x27)

/-- The range cause of an extent (R201, check 2). -/
def State.endRange (s : State) (e : End) (a : Nat) (ext : Int × Int) : Option Nat :=
  match s.endLimit e with
  | none => none
  | some (n, c) => if (a : Int) + ext.1 < 0 || (n : Int) < (a : Int) + ext.2 then some c else none

/-- The region of an extent (R197). -/
def State.endRegion (s : State) (e : End) (a : Nat) (ext : Int × Int) : Region :=
  let len := (ext.2 - ext.1).toNat
  let base := ((a : Int) + ext.1).toNat
  match e with
  | .va => ⟨0, (0, 0), base, len⟩
  | .pad b => ⟨1, s.ownerOf b, base, len⟩
  | .am b => ⟨2, s.ownerOf b, base, len⟩

/-! ## Running (R197 to R203) -/

/-- The running of a copy so far: the writes to make, whether each element is zero, the random state, and the failure. -/
structure CopyRun where
  outs : List (Option Place × Int × List Byte)
  zeros : List Bool
  rnd : Word
  fail : Option (Nat × Nat)
deriving DecidableEq, Repr

/-- Step the copy's own random state (R198): the bits, and the state. -/
def copyRnd (d : CopyD) (w : Word) : Nat × Word :=
  if d.sr then (srBits (srStep w), srStep w) else (0, w)

/-- Whether a converted element is +0, −0 or integer 0 (R199). -/
def zeroElem (t : TyCode) (v : Nat) : Bool :=
  v = 0 || (!t.isInt && t ≠ .d8 && v = 2 ^ (t.width - 1))

/-- One element that is in no MX block of the destination. -/
def State.copyElem (s : State) (st : Nat) (sup : Bool) (d : CopyD) (se de : End) (r : CopyRun) (k : Nat) : CopyRun :=
  match r.fail with
  | some _ => r
  | none =>
    let stop (c : Nat) : CopyRun := { r with fail := some (c, k) }
    match s.jobRead st sup se ((d.src : Int) + d.srcOff k) (elemSize d.sfmt) (2 * k) with
    | .error c => stop c
    | .ok bs =>
      let (rw, rnd) := copyRnd d r.rnd
      let mode : RMode := if d.sr then .sr else .rne
      let scaled : Except Nat Nat :=
        if d.sfmt = .mx8 then
          match s.jobRead st sup se ((d.src : Int) + ((d.total + k / 32 : Nat) : Int)) 1 (2 * k) with
          | .error c => .error c
          | .ok sc => .ok (FF.f32.ofNum mode d.sat rw (mxValue (leNat sc) (leNat bs))).1
        else .ok (convert d.dfmt d.sfmt ⟨mode, d.sat, rw⟩ (leNat bs)).1
      match scaled with
      | .error c => stop c
      | .ok v =>
        let a := (d.dst : Int) + d.dstOff k
        match s.jobPlace st sup de a (2 * k + 1) with
        | .error c => stop c
        | .ok p => { r with outs := r.outs ++ [(p, a, leBytes (elemSize d.dfmt) v)], zeros := r.zeros ++ [zeroElem d.dfmt v],
                            rnd := rnd }

/-- Read the 32 values of a block. -/
def State.blockVals (s : State) (st : Nat) (sup : Bool) (d : CopyD) (se : End) (k : Nat) : Nat → Except Nat (List Num)
  | 0 => .ok []
  | n + 1 =>
    match s.jobRead st sup se ((d.src : Int) + d.srcOff k) 4 (2 * k) with
    | .error c => .error c
    | .ok bs => match State.blockVals s st sup d se (k + 1) n with
      | .error c => .error c
      | .ok vs => .ok (FF.f32.read (leNat bs) :: vs)

/-- The random bits of n elements, and the state after. -/
def copyRnds (d : CopyD) (w : Word) : Nat → List Nat × Word
  | 0 => ([], w)
  | n + 1 =>
    let (rw, w') := copyRnd d w
    let (rs, w'') := copyRnds d w' n
    (rw :: rs, w'')

/-- One block of a copy to MX (R200, R203): 32 elements and their scale, or nothing of them. -/
def State.copyMx (s : State) (st : Nat) (sup : Bool) (d : CopyD) (se de : End) (r : CopyRun) (j : Nat) : CopyRun :=
  match r.fail with
  | some _ => r
  | none =>
    let k := 32 * j
    match s.blockVals st sup d se k 32 with
    | .error c => { r with fail := some (c, k) }
    | .ok vs =>
      let (rws, rnd) := copyRnds d r.rnd 32
      let (scale, es, _) := mxBlock (if d.sr then .sr else .rne) vs rws
      let parts := (List.range 32).map (fun i => ((d.dst : Int) + d.dstOff (k + i), [BitVec.ofNat 8 (es.getD i 0)]))
        ++ [((d.dst : Int) + ((d.total + j : Nat) : Int), [BitVec.ofNat 8 scale])]
      let placed := parts.map fun x => (s.jobPlace st sup de x.1 (2 * k + 1), x)
      match placed.find? fun x => match x.1 with
          | .error _ => true
          | .ok _ => false with
      | some (.error c, _) => { r with fail := some (c, k) }
      | _ => { r with
          outs := r.outs ++ placed.filterMap fun x => match x.1 with
            | .ok p => some (p, x.2.1, x.2.2)
            | .error _ => none
          rnd := rnd }

/-- The zero-block bitmap's bytes (R199). -/
def bitmapOf (d : CopyD) (zeros : List Bool) : List Byte :=
  let cols := d.cnt 0 / 8
  let isZero (b : Nat) : Bool := (List.range 64).all fun e =>
    zeros.getD ((8 * (b / cols) + e / 8) * d.cnt 0 + 8 * (b % cols) + e % 8) false
  (List.range d.bitmapBytes).map fun i =>
    BitVec.ofNat 8 (((List.range 8).map fun k =>
      if 8 * i + k < cols * (d.cnt 1 / 8) && isZero (8 * i + k) then 2 ^ k else 0).foldl (· + ·) 0)

/-- Run a copy from element `made` on: the writes it makes, in copy order, and the failing element with its cause, or the one that
waits. -/
def State.runCopy (s : State) (st : Nat) (sup : Bool) (d : CopyD) (se de : End) (made : Nat) (start : CopyRun) : CopyRun :=
  let r := if d.dfmt = .mx8 then ((List.range (d.total / 32)).drop (made / 32)).foldl (s.copyMx st sup d se de) start
    else ((List.range d.total).drop made).foldl (s.copyElem st sup d se de) start
  if d.zb && r.fail.isNone then
    { r with outs := r.outs ++ [(none, (d.dst : Int) + ((d.cnt 0 * d.cnt 1 * elemSize d.dfmt : Nat) : Int), bitmapOf d r.zeros)] }
  else r

/-- Join writes that continue one another. -/
def joinRuns (os : List (Option Place × Int × List Byte)) : List (Option Place × Int × List Byte) :=
  (os.foldl (fun (acc : List (Option Place × Int × List Byte)) o =>
    match acc with
    | (p, a, bs) :: rest =>
      let cont : Bool := match p, o.1 with
        | some (.dev x), some (.dev y) => decide (y = x + bs.length)
        | none, none => decide (o.2.1 = a + (bs.length : Int))
        | _, _ => false
      if cont then (p, a, bs ++ o.2.2) :: rest else o :: acc
    | [] => [o]) []).reverse

/-- Make the writes of a copy. -/
def State.copyWrites (s : State) (st : Nat) (src : Option Sel) (de : End) (os : List (Option Place × Int × List Byte)) : State :=
  (joinRuns os).foldl (fun s o => s.jobWrite st src de o.1 o.2.1 o.2.2) s

/-- The choice of an element's write (a block of a copy to MX makes one). -/
def CopyD.dstChoice (d : CopyD) (k : Nat) : Nat := 2 * (if d.dfmt = .mx8 then k / 32 * 32 else k) + 1

/-- What the accesses of the elements of a copy from `made` up to n leave. -/
def State.copyTouch (s : State) (st : Nat) (sup : Bool) (d : CopyD) (se de : End) (made n : Nat) : State :=
  ((List.range n).drop made).foldl (fun s k =>
    let s := s.jobTouch st sup se ((d.src : Int) + d.srcOff k) .read (elemSize d.sfmt) (2 * k)
    let s := if d.sfmt = .mx8 then s.jobTouch st sup se ((d.src : Int) + ((d.total + k / 32 : Nat) : Int)) .read 1 (2 * k) else s
    s.jobTouch st sup de ((d.dst : Int) + d.dstOff k) .write (elemSize d.dfmt) (d.dstChoice k)) s

/-- Whether every access of a copy goes to host or domain memory. -/
def State.copyOut (s : State) (st : Nat) (sup : Bool) (d : CopyD) (se de : End) : Bool :=
  (List.range d.total).all fun k =>
    s.jobOut st sup se ((d.src : Int) + d.srcOff k) .read (2 * k)
      && s.jobOut st sup de ((d.dst : Int) + d.dstOff k) .write (d.dstChoice k)

/-! ## cpy and the ends of copies -/

/-- The block of a job. -/
def CopyJob.blk (j : CopyJob) (st core : Nat) : BSel := ⟨st, core, j.pos.getD 0⟩

/-- The gang size and rank limits of a block, 1 for none. -/
def Block.gangSize (b : Block) : Nat := if b.gang < 2 then 1 else b.gang

/-- cpy (R201): checked, then its tag is busy and the copy is queued; without a free entry of the footprint table or room in the
core's copy unit it holds its issue slot (R193, R309). -/
def execCpy (h : Hdr) (a : Opnd) (s : State) : Host.Outcome State Fault Refusal :=
  issue h (fun _ => { uses := [⟨a, 8, 8, false⟩], bad := !a.isSca })
    (fun c => match c.acting with
      | none => .ok c.s
      | some (l, ln) =>
        if ln.helper then .ok c.s
        else
          let ws := (List.range 8).map fun k => c.rdAt ln a k
          let d := CopyD.ofWords ws
          let b := c.q.blk
          let se := c.s.copyEnd b d.srcKind d.srcPeer
          let de := c.s.copyEnd b d.dstKind d.dstPeer
          if d.bad c.blk.gangSize (se = de) then .raise [(l, 0x43)] 0
          else match c.s.endRange se d.src d.srcExt with
            | some e => .raise [(l, e)] 0
            | none => match c.s.endRange de d.dst d.dstExt with
              | some e => .raise [(l, e)] 0
              | none =>
                if c.blk.tagsBusy.getLsbD d.tag then .raise [(l, 0x44)] 0
                else if !(c.s.stall b.stall).cardRoom || 64 ≤ (c.s.core b.stall b.core).copies.length then .hold
                else
                  let (id, s) := c.s.enterCard b.stall (cardPlace b.core c.q.islot) [c.s.endRegion se d.src d.srcExt] [c.s.endRegion de d.dst d.dstExt]
                  let s := s.modBlock b fun k => k.tagTake d.tag
                  .ok (s.modCore b.stall b.core fun k => { k with copies := k.copies ++
                    [⟨some b.pos, c.q.slot, ws, c.sq.pc, id, id, none, c.sq.sup, 0, d.seed, []⟩] })) s

/-- Whether the accesses of the issuing squad before an order number are out of its queue, and its acquires are fixed, but for those
that leave a job alone that accesses host and domain memory only (R202, R299). -/
def State.squadDrained (s : State) (q : Sel) (upto : Nat) (out : Bool) : Bool :=
  match s.squad? q with
  | none => true
  | some sq => !sq.asked upto && !(sq.sq.any fun e => e.id < upto)
    && !(sq.flight.any fun f => f.id < upto && f.acq && !f.perf && !(out && f.sparesOut))

/-- The descriptor of a copy job. -/
def CopyJob.d (j : CopyJob) : CopyD := CopyD.ofWords j.desc

/-- The source of a copy job. -/
def State.copySrc (s : State) (st core : Nat) (j : CopyJob) : End := s.copyEnd (j.blk st core) j.d.srcKind j.d.srcPeer

/-- The destination of a copy job. -/
def State.copyDst (s : State) (st core : Nat) (j : CopyJob) : End := s.copyEnd (j.blk st core) j.d.dstKind j.d.dstPeer

/-- Whether a copy may run: its card has no edge to wait for, and its squad's stores have drained. -/
def State.copyReady (s : State) (st core : Nat) (j : CopyJob) : Bool :=
  match j.pos with
  | none => (s.stall st).cardMay j.card
  | some p => (s.stall st).cardMay j.card
    && (s.squadDrained ⟨st, core, p, j.slot⟩ j.after false
      || (s.squadDrained ⟨st, core, p, j.slot⟩ j.after true && s.copyOut st j.sup j.d (s.copySrc st core j) (s.copyDst st core j)))

/-- What running a copy job now would do: its elements that are still to be copied. -/
def State.copyNow (s : State) (st core : Nat) (j : CopyJob) : CopyRun :=
  s.runCopy st j.sup j.d (s.copySrc st core j) (s.copyDst st core j) j.made ⟨[], j.zeros, j.rnd, none⟩

/-- A job leaves its core. -/
def State.dropCopy (s : State) (st core i : Nat) : State :=
  s.modCore st core fun k => { k with copies := k.copies.eraseIdx i }

/-- The translations a job used have spent free choices. -/
def State.spend (s : State) (n : Nat) : State := { s with free := s.free + n }

/-- The elements of a copy up to n are copied: the translations and the reads, and the writes. -/
def State.copyMade (s : State) (st core : Nat) (j : CopyJob) (n : Nat) (os : List (Option Place × Int × List Byte)) : State :=
  ((s.copyTouch st j.sup j.d (s.copySrc st core j) (s.copyDst st core j) j.made n).spend (2 * j.d.total)).copyWrites st
    (j.pos.map fun p => ⟨st, core, p, j.slot⟩) (s.copyDst st core j) os

/-- A copy that waits at element k has copied those before it. -/
def State.copyOn (s : State) (st core i : Nat) (j : CopyJob) (r : CopyRun) (k : Nat) : State :=
  if k = j.made then s
  else (s.copyMade st core j k r.outs).modCore st core fun c =>
    { c with copies := updAt c.copies i fun j => { j with made := k, rnd := r.rnd, zeros := r.zeros } }

/-- COPY_COMPLETE (R202): every element is written, and then the tag is done. A copy that waits for a token goes as far as it can, and
asks for the line (R274). -/
def execCopyComplete (st core i : Nat) (s : State) : Host.Outcome State Fault Refusal :=
  match (s.core st core).copies[i]? with
  | none => .next s
  | some j =>
    let r := s.copyNow st core j
    if !s.copyReady st core j then .next s
    else match r.fail with
      | some (c, k) => .next (if isWait c then (s.copyOn st core i j r k).askFor st c else s)
      | none =>
        let s := ((s.copyMade st core j j.d.total r.outs).dropCopy st core i).leaveCard st j.card
        .next (match j.pos, j.entry with
          | some p, _ => (s.modBlock ⟨st, core, p⟩ fun k => k.tagDone j.d.tag).reap ⟨st, core, p⟩
          | none, some e => s.entryEnds st e 0 0
          | none, none => s)

/-- COPY_FAULT (R203, R345): the elements before the failing one are written; the block's fault is pending, or the queue entry
ends with the cause. A copy that waits for a token meets no fault. -/
def execCopyFault (st core i : Nat) (s : State) : Host.Outcome State Fault Refusal :=
  match (s.core st core).copies[i]? with
  | none => .next s
  | some j =>
    let r := s.copyNow st core j
    match r.fail with
    | none => .next s
    | some (c, k) =>
      if !s.copyReady st core j || isWait c then .next s
      else
        let s := (s.copyMade st core j k r.outs).dropCopy st core i
        .next (match j.pos, j.entry with
          | some p, _ => s.modBlock ⟨st, core, p⟩ fun x => { x with halt := { x.halt with
              pendJob := x.halt.pendJob ++ [⟨c, 1, j.d.tag, 0, 0, k, j.pc, j.card⟩] } }
          | none, some e => (s.leaveCard st j.card).entryEnds st e 0x0400 c
          | none, none => s)

end Sys2Proof.Machine
end

