-- ==== Sys2Proof/Machine/Integer.lean ====
section
/-! DEFINITION. The integer, logic and address group (chapter 05, R122 to R131). -/

set_option Elab.async false

namespace Sys2Proof.Machine

open Sys2Proof

/-- A word of the integer group: its operands and its effect per lane (R116, R122). -/
def intWord (h : Hdr) (us : List Use) (d : Opnd) (f : Ctx → Nat → Lane → Except Nat LaneOut) (s : State) :
    Host.Outcome State Fault Refusal :=
  issue h (fun _ => { uses := us }) (fun c => c.perLane d (f c)) s

/-- A result of 32 or 64 bits. -/
def outW (wide : Bool) (v : DWord) : Except Nat LaneOut := .ok { ws := wordsOf wide v }

/-- d := f (a, b) with both sources of the type. -/
def binWord (h : Hdr) (ty : ITy) (d a : Opnd) (b : RI) (f : DWord → DWord → DWord) (s : State) :
    Host.Outcome State Fault Refusal :=
  intWord h ([.ww ty.wide d, .rw' ty.wide a] ++ riUse ty.wide b) d
    (fun c l ln => outW ty.wide (f (c.rdW ty.wide l ln a) (c.rdRI ty l ln b))) s

/-- The exact value of an arithmetic instruction narrowed to the type (R123). -/
def arithWord (h : Hdr) (ty : ITy) (sat : Bool) (d a : Opnd) (b : RI) (f : Int → Int → Int) (s : State) :
    Host.Outcome State Fault Refusal :=
  binWord h ty d a b (fun x y => ty.put sat (f (ty.val x) (ty.val y))) s

/-- d := f (a) with source and destination of the type. -/
def unWord (h : Hdr) (ty : ITy) (d a : Opnd) (f : DWord → DWord) (s : State) : Host.Outcome State Fault Refusal :=
  intWord h [.ww ty.wide d, .rw' ty.wide a] d (fun c l ln => outW ty.wide (f (c.rdW ty.wide l ln a))) s

/-- A shift: the count is a 32-bit operand, its immediate zero-extended (R125). -/
def shiftWord (h : Hdr) (ty : ITy) (d a : Opnd) (b : RI) (f : DWord → Nat → DWord) (s : State) :
    Host.Outcome State Fault Refusal :=
  intWord h ([.ww ty.wide d, .rw' ty.wide a] ++ riUse false b) d
    (fun c l ln => outW ty.wide (f (c.rdW ty.wide l ln a) (c.rdN l ln b).toNat)) s

/-- A count written as a 32-bit destination (R126). -/
def countWord (h : Hdr) (ty : ITy) (d a : Opnd) (f : DWord → DWord) (s : State) : Host.Outcome State Fault Refusal :=
  intWord h [.w1 d, .rw' ty.wide a] d (fun c l ln => outW false (f (c.rdW ty.wide l ln a))) s

/-- add (R123). -/
def execAdd (h : Hdr) (ty : ITy) (sat : Bool) (d a : Opnd) (b : RI) (s : State) : Host.Outcome State Fault Refusal :=
  arithWord h ty sat d a b (· + ·) s

/-- sub (R123). -/
def execSub (h : Hdr) (ty : ITy) (sat : Bool) (d a : Opnd) (b : RI) (s : State) : Host.Outcome State Fault Refusal :=
  arithWord h ty sat d a b (· - ·) s

/-- mul (R123). -/
def execMul (h : Hdr) (ty : ITy) (sat : Bool) (d a : Opnd) (b : RI) (s : State) : Host.Outcome State Fault Refusal :=
  arithWord h ty sat d a b (· * ·) s

/-- mulhi (R123). -/
def execMulhi (h : Hdr) (ty : ITy) (d a : Opnd) (b : RI) (s : State) : Host.Outcome State Fault Refusal :=
  arithWord h ty false d a b ty.mulHi s

/-- mad: a × b + c, the immediate in place of c (R123). -/
def execMad (h : Hdr) (ty : ITy) (sat : Bool) (d a b : Opnd) (e : RI) (s : State) : Host.Outcome State Fault Refusal :=
  intWord h ([.ww ty.wide d, .rw' ty.wide a, .rw' ty.wide b] ++ riUse ty.wide e) d
    (fun c l ln => outW ty.wide (ty.put sat
      (ty.val (c.rdW ty.wide l ln a) * ty.val (c.rdW ty.wide l ln b) + ty.val (c.rdRI ty l ln e)))) s

/-- div (R124): a zero divisor raises 0x10. -/
def execDiv (h : Hdr) (ty : ITy) (sat : Bool) (d a : Opnd) (b : RI) (s : State) : Host.Outcome State Fault Refusal :=
  intWord h ([.ww ty.wide d, .rw' ty.wide a] ++ riUse ty.wide b) d
    (fun c l ln =>
      let x := ty.val (c.rdW ty.wide l ln a)
      let y := ty.val (c.rdRI ty l ln b)
      if y = 0 then .error 0x10 else outW ty.wide (ty.quot sat x y)) s

/-- rem (R124): the remainder takes the sign of the dividend. -/
def execRem (h : Hdr) (ty : ITy) (d a : Opnd) (b : RI) (s : State) : Host.Outcome State Fault Refusal :=
  intWord h ([.ww ty.wide d, .rw' ty.wide a] ++ riUse ty.wide b) d
    (fun c l ln =>
      let x := ty.val (c.rdW ty.wide l ln a)
      let y := ty.val (c.rdRI ty l ln b)
      if y = 0 then .error 0x10 else outW ty.wide (ty.put false (x.tmod y))) s

/-- min (R123). -/
def execMin (h : Hdr) (ty : ITy) (d a : Opnd) (b : RI) (s : State) : Host.Outcome State Fault Refusal :=
  arithWord h ty false d a b (fun x y => if y < x then y else x) s

/-- max (R123). -/
def execMax (h : Hdr) (ty : ITy) (d a : Opnd) (b : RI) (s : State) : Host.Outcome State Fault Refusal :=
  arithWord h ty false d a b (fun x y => if x < y then y else x) s

/-- abs (R123). -/
def execAbs (h : Hdr) (ty : ITy) (sat : Bool) (d a : Opnd) (s : State) : Host.Outcome State Fault Refusal :=
  unWord h ty d a (fun x => ty.put sat (ty.val x).natAbs) s

/-- neg (R123). -/
def execNeg (h : Hdr) (ty : ITy) (sat : Bool) (d a : Opnd) (s : State) : Host.Outcome State Fault Refusal :=
  unWord h ty d a (fun x => ty.put sat (-(ty.val x))) s

/-- and (R125). -/
def execAnd (h : Hdr) (ty : ITy) (d a : Opnd) (b : RI) (s : State) : Host.Outcome State Fault Refusal :=
  binWord h ty d a b (· &&& ·) s

/-- or (R125). -/
def execOr (h : Hdr) (ty : ITy) (d a : Opnd) (b : RI) (s : State) : Host.Outcome State Fault Refusal :=
  binWord h ty d a b (· ||| ·) s

/-- xor (R125). -/
def execXor (h : Hdr) (ty : ITy) (d a : Opnd) (b : RI) (s : State) : Host.Outcome State Fault Refusal :=
  binWord h ty d a b (· ^^^ ·) s

/-- not (R125). -/
def execNot (h : Hdr) (ty : ITy) (d a : Opnd) (s : State) : Host.Outcome State Fault Refusal :=
  unWord h ty d a (fun x => ~~~x) s

/-- andn (R125). -/
def execAndn (h : Hdr) (ty : ITy) (d a : Opnd) (b : RI) (s : State) : Host.Outcome State Fault Refusal :=
  binWord h ty d a b (fun x y => x &&& ~~~y) s

/-- shl (R125). -/
def execShl (h : Hdr) (ty : ITy) (d a : Opnd) (b : RI) (s : State) : Host.Outcome State Fault Refusal :=
  shiftWord h ty d a b ty.shl s

/-- shr (R125). -/
def execShr (h : Hdr) (ty : ITy) (d a : Opnd) (b : RI) (s : State) : Host.Outcome State Fault Refusal :=
  shiftWord h ty d a b ty.shr s

/-- sar (R125). -/
def execSar (h : Hdr) (ty : ITy) (d a : Opnd) (b : RI) (s : State) : Host.Outcome State Fault Refusal :=
  shiftWord h ty d a b ty.sar s

/-- rot (R125). -/
def execRot (h : Hdr) (ty : ITy) (d a : Opnd) (b : RI) (s : State) : Host.Outcome State Fault Refusal :=
  shiftWord h ty d a b ty.rot s

/-- clz (R126). -/
def execClz (h : Hdr) (ty : ITy) (d a : Opnd) (s : State) : Host.Outcome State Fault Refusal :=
  countWord h ty d a ty.clz s

/-- popc (R126). -/
def execPopc (h : Hdr) (ty : ITy) (d a : Opnd) (s : State) : Host.Outcome State Fault Refusal :=
  countWord h ty d a ty.popc s

/-- brev (R126). -/
def execBrev (h : Hdr) (ty : ITy) (d a : Opnd) (s : State) : Host.Outcome State Fault Refusal :=
  unWord h ty d a ty.brev s

/-- bfx (R127). -/
def execBfx (h : Hdr) (ty : ITy) (d a : Opnd) (spec : RI) (s : State) : Host.Outcome State Fault Refusal :=
  shiftWord h ty d a spec ty.bfx s

/-- bfi (R127). -/
def execBfi (h : Hdr) (ty : ITy) (d a b : Opnd) (spec : RI) (s : State) : Host.Outcome State Fault Refusal :=
  intWord h ([.ww ty.wide d, .rw' ty.wide a, .rw' ty.wide b] ++ riUse false spec) d
    (fun c l ln => outW ty.wide (ty.bfi (c.rdW ty.wide l ln a) (c.rdW ty.wide l ln b) (c.rdN l ln spec).toNat)) s

/-- sel (R129). -/
def execSel (h : Hdr) (ty : ITy) (d a b : Opnd) (p : PSpec) (s : State) : Host.Outcome State Fault Refusal :=
  intWord h [.ww ty.wide d, .rw' ty.wide a, .rw' ty.wide b] d
    (fun c l ln => outW ty.wide (c.rdW ty.wide l ln (if ln.spec p then a else b))) s

/-- cmp (R128). -/
def execCmp (h : Hdr) (cond : ICond) (ty : ITy) (pd : Pred) (a : Opnd) (b : RI) (s : State) :
    Host.Outcome State Fault Refusal :=
  intWord h (.rw' ty.wide a :: riUse ty.wide b) .zero
    (fun c l ln => .ok { ps := [(pd, cond.holds (ty.val (c.rdW ty.wide l ln a)) (ty.val (c.rdRI ty l ln b)))] }) s

/-- lea (R131): b is a 32-bit operand, zero-extended under n32 and sign-extended under i32; its immediate likewise. -/
def execLea (h : Hdr) (sh : BitVec 3) (nat : Bool) (d a : Opnd) (b : RI) (s : State) : Host.Outcome State Fault Refusal :=
  intWord h ([.w2 d, .r2 a] ++ riUse false b) d
    (fun c l ln =>
      let x : Word := match b with
        | .reg o => c.rd l ln o
        | .imm v => if nat then v.zeroExtend 32 else v.signExtend 32
      let y : DWord := if nat then x.zeroExtend 64 else x.signExtend 64
      outW true (c.rd64 ln a + (y <<< sh.toNat))) s

/-- mov (R131). -/
def execMov (h : Hdr) (ty : ITy) (d a : Opnd) (s : State) : Host.Outcome State Fault Refusal :=
  unWord h ty d a (fun x => x) s

/-- movi (R131). -/
def execMovi (h : Hdr) (ty : ITy) (d : Opnd) (imm : BitVec 20) (s : State) : Host.Outcome State Fault Refusal :=
  intWord h [.ww ty.wide d] d (fun _ _ _ => outW ty.wide (ty.imm imm)) s

/-- movh (R131): it reads its destination. -/
def execMovh (h : Hdr) (_nat : Bool) (d : Opnd) (imm : BitVec 20) (s : State) : Host.Outcome State Fault Refusal :=
  intWord h [.w1 d, .r d] d
    (fun c l ln => outW false (((imm.zeroExtend 32 <<< 12) ||| (c.rd l ln d &&& 0xFFF)).zeroExtend 64)) s

/-- The value pset writes in a lane (R130). -/
def psetValue (c : Ctx) (l : Nat) (ln : Lane) : PsetOp → Bool
  | .nz ty a => c.rdW ty.wide l ln a ≠ 0
  | .mask a => (c.rd64 ln a).getLsbD l
  | .and a b => ln.spec a && ln.spec b
  | .or a b => ln.spec a || ln.spec b
  | .xor a b => ln.spec a != ln.spec b
  | .andn a b => ln.spec a && !ln.spec b

/-- The register sources of pset. -/
def psetUses : PsetOp → List Use
  | .nz ty a => [.rw' ty.wide a]
  | .mask a => [.r2 a]
  | _ => []

/-- pset (R130). -/
def execPset (h : Hdr) (op : PsetOp) (pd : Pred) (s : State) : Host.Outcome State Fault Refusal :=
  intWord h (psetUses op) .zero (fun c l ln => .ok { ps := [(pd, psetValue c l ln op)] }) s

end Sys2Proof.Machine
end

