-- ==== Sys2Proof/Machine/Special.lean ====
section
/-! DEFINITION. The special functions, exactly rounded (R138, R139). Results that are irrational are enclosed between two
fractions until both truncate alike. -/

set_option Elab.async false

namespace Sys2Proof

/-- A positive irrational enclosed by lo/den and hi/den. -/
structure Encl where
  lo : Nat
  hi : Nat
  den : Nat
deriving DecidableEq, Repr

/-- Whether both ends have the same f32 truncation. -/
def Encl.tight (e : Encl) : Bool :=
  0 < e.lo &&
    (FF.f32.rnd .rtz false 0 false (2 * e.lo + 1) (2 * e.den)).1 == (FF.f32.rnd .rtz false 0 false (2 * e.hi + 1) (2 * e.den)).1

/-- The truncation of the enclosed value: inexact, so a point strictly inside is rounded (R138). -/
def Encl.out (neg : Bool) (e : Encl) : Nat × Fl := FF.f32.rnd .rtz false 0 neg (2 * e.lo + 1) (2 * e.den)

/-- Take the first working precision, in bits, whose enclosure is tight; the last one otherwise. -/
def firstTight (f : Nat → Encl) : List Nat → Encl
  | [] => f 4096
  | w :: t => let e := f w; if e.tight then e else firstTight f t

/-- The working precisions tried in turn. -/
def precisions : List Nat := [512, 1024, 2048]

/-! ### 2^x -/

/-- The product of the roots of two that the low k bits of m select, over 2^w, below and above: the value is
2^(m mod 2^k / 2^k), built from its lowest bit up. -/
def exp2Frac (w m : Nat) : Nat → Nat × Nat
  | 0 => (2 ^ w, 2 ^ w)
  | k + 1 =>
    let (lo, hi) := exp2Frac w m k
    let t := if m.testBit k then 2 else 1
    (isqrt (t * lo * 2 ^ w), isqrt (t * hi * 2 ^ w) + 1)

/-- 2^x for x = i + m / 2^k, enclosed. -/
def exp2Encl (i : Int) (m k w : Nat) : Encl :=
  let (lo, hi) := exp2Frac w m k
  if 0 ≤ i then ⟨lo * 2 ^ i.toNat, hi * 2 ^ i.toNat, 2 ^ w⟩ else ⟨lo, hi, 2 ^ (w + (-i).toNat)⟩

/-- fexp2 (R138, R139). -/
def fexp2 (b : Nat) : Nat × Fl :=
  match FF.f32.read b with
  | .nan s => (FF.nan .f32, Fl.inv s)
  | .inf g => (if g then 0 else 0x7F800000, Fl.none)
  | .fin g n d =>
    let x := sgn g n
    let i := x.fdiv d
    let m := (x - i * d).toNat
    if 128 ≤ i then (0x7F7FFFFF, Fl.over)
    else if i < -200 then (0, { uf := true, nx := true })
    else if m = 0 then
      (if 0 ≤ i then FF.f32.rnd .rtz false 0 false (2 ^ i.toNat) 1 else FF.f32.rnd .rtz false 0 false 1 (2 ^ (-i).toNat))
    else (firstTight (exp2Encl i m 149) precisions).out false

/-! ### log2 x -/

/-- The next k binary digits of log2 of a value between lo/2^w and hi/2^w, both in [1, 2); none where the enclosure
cannot tell a digit. -/
def log2Digits (w : Nat) : Nat → Nat → Nat → Option Nat
  | 0, _, _ => some 0
  | k + 1, lo, hi =>
    let l := lo * lo / 2 ^ w
    let h := hi * hi / 2 ^ w + 1
    if 2 ^ (w + 1) ≤ l then (log2Digits w k (l / 2) (h / 2 + 1)).map (2 ^ k + ·)
    else if h < 2 ^ (w + 1) then log2Digits w k l h
    else none

/-- |log2 (n / d)| enclosed to 160 binary digits, and whether it is negative; n / d is not a power of two. -/
def log2Encl (n d w : Nat) : Bool × Encl :=
  let e := floorLog2 n d
  let y := if 0 ≤ e then n * 2 ^ w / (d * 2 ^ e.toNat) else n * 2 ^ (w + (-e).toNat) / d
  match log2Digits w 160 y (y + 1) with
  | none => (false, ⟨0, 1, 1⟩)
  | some f =>
    let t := e * 2 ^ 160 + f
    if 0 ≤ t then (false, ⟨t.toNat, t.toNat, 2 ^ 160⟩) else (true, ⟨(-t - 1).toNat, (-t - 1).toNat, 2 ^ 160⟩)

/-- flog2 (R138, R139). -/
def flog2 (b : Nat) : Nat × Fl :=
  match FF.f32.read b with
  | .nan s => (FF.nan .f32, Fl.inv s)
  | .inf g => if g then (FF.nan .f32, Fl.inv true) else (0x7F800000, Fl.none)
  | .fin g n d =>
    if n = 0 then (0xFF800000, { dz := true })
    else if g then (FF.nan .f32, Fl.inv true)
    else
      let e := floorLog2 n d
      if (if 0 ≤ e then n = d * 2 ^ e.toNat else n * 2 ^ (-e).toNat = d) then
        FF.f32.rnd .rtz false 0 (e < 0) e.natAbs 1
      else
        (firstTight (fun w => (log2Encl n d w).2) precisions).out (log2Encl n d 1024).1

/-! ### sin πx and cos πx -/

/-- A point on the unit circle, scaled by 2^w. -/
structure Pt where
  c : Int
  s : Int
deriving DecidableEq, Repr

/-- The product of two points. -/
def Pt.mul (w : Nat) (a b : Pt) : Pt :=
  ⟨(a.c * b.c - a.s * b.s).fdiv (2 ^ w), (a.c * b.s + a.s * b.c).fdiv (2 ^ w)⟩

/-- The point at half the angle, for an angle of at most a quarter turn. -/
def Pt.half (w : Nat) (a : Pt) : Pt :=
  let c := isqrt ((2 ^ w + a.c.toNat) * 2 ^ w / 2)
  ⟨c, (a.s.toNat * 2 ^ w / (2 * c) : Nat)⟩

/-- Multiply `acc` by the points at angles π/2^j that the bits of m below bit k select, `p` being the point of bit k - 1. -/
def angleGo (w m : Nat) : Nat → Pt → Pt → Pt
  | 0, _, acc => acc
  | k + 1, p, acc => angleGo w m k (p.half w) (if m.testBit k then acc.mul w p else acc)

/-- The point at angle π · m / 2^149, m below 2^149. -/
def angle (w m : Nat) : Pt := angleGo w m 149 ⟨0, 2 ^ w⟩ ⟨2 ^ w, 0⟩

/-- A magnitude known to 2^16 units of 2^-w: the roundings of the half angles and products together stay below that. -/
def around (w : Nat) (v : Int) : Encl := ⟨v.natAbs - 2 ^ 16, v.natAbs + 2 ^ 16, 2 ^ w⟩

/-- fsinp and fcosp of a finite value (R138, R139). -/
def fTrig (cosine : Bool) (g : Bool) (n d : Nat) : Nat × Fl :=
  let whole := n / d
  let frac := n % d
  let odd := whole % 2 = 1
  if frac = 0 then
    (if cosine then (if odd then 0xBF800000 else 0x3F800000) else FF.f32.enc g 0, Fl.none)
  else if 2 * frac = d then
    (if cosine then 0 else FF.f32.enc (g != odd) 0x3F800000, Fl.none)
  else
    let m := frac * 2 ^ 149 / d
    let at' (w : Nat) : Int := if cosine then (angle w m).c else (angle w m).s
    let neg := (if cosine then odd else g != odd) != (at' 512 < 0 : Bool)
    (firstTight (fun w => around w (at' w)) precisions).out neg

/-- fsinp. -/
def fsinp (b : Nat) : Nat × Fl :=
  match FF.f32.read b with
  | .nan s => (FF.nan .f32, Fl.inv s)
  | .inf _ => (FF.nan .f32, Fl.inv true)
  | .fin g n d => fTrig false g n d

/-- fcosp. -/
def fcosp (b : Nat) : Nat × Fl :=
  match FF.f32.read b with
  | .nan s => (FF.nan .f32, Fl.inv s)
  | .inf _ => (FF.nan .f32, Fl.inv true)
  | .fin g n d => fTrig true g n d

/-! ### Reciprocals -/

/-- frcp (R138, R139). -/
def frcp (b : Nat) : Nat × Fl :=
  match FF.f32.read b with
  | .nan s => (FF.nan .f32, Fl.inv s)
  | .inf g => (FF.f32.enc g 0, Fl.none)
  | .fin g n d => if n = 0 then (FF.f32.enc g (FF.infCode .f32), { dz := true }) else FF.f32.rnd .rtz false 0 g d n

/-- frsq (R138, R139). -/
def frsq (b : Nat) : Nat × Fl :=
  match FF.f32.read b with
  | .nan s => (FF.nan .f32, Fl.inv s)
  | .inf g => if g then (FF.nan .f32, Fl.inv true) else (0, Fl.none)
  | .fin g n d =>
    if n = 0 then (FF.f32.enc g (FF.infCode .f32), { dz := true })
    else if g then (FF.nan .f32, Fl.inv true)
    else
      let (r, q) := sqrtFrac d n
      FF.f32.rnd .rtz false 0 false r q

end Sys2Proof
end

