-- ==== Sys2Proof/Machine/Float.lean ====
section
/-! DEFINITION. The floating-point group, special functions, conversions, random state and Welford words (chapter 05, R132 to
R147). -/

set_option Elab.async false

namespace Sys2Proof.Machine

open Sys2Proof

/-! ## Floating point -/

/-- A double word of a natural number. -/
def dw (n : Nat) : DWord := BitVec.ofNat 64 n

/-- A floating-point source after its modifiers (R66, R132). -/
def Ctx.rdF (c : Ctx) (ft : FTy) (l : Nat) (ln : Lane) (o : Opnd) (na aa : Bool) : Num :=
  Num.modified na aa (ft.ff.read (c.rdW (ft = .f64) l ln o).toNat)

/-- A rounded word of the group: `f` gets the format, the rounding and the sources (R132, R133). -/
def fpWord (h : Hdr) (ft : FTy) (e : Ext) (d : Opnd) (srcs : List (Opnd × Bool × Bool))
    (f : FF → Rnd → List Num → Nat × Fl) (s : State) : Host.Outcome State Fault Refusal :=
  issue h (fun _ => { uses := .ww (ft = .f64) d :: srcs.map fun x => .rw' (ft = .f64) x.1 })
    (fun c => c.perLane d fun l ln =>
      let (m, rw, rn) := rounding c.fpc e ln.rnd
      let (v, fl) := f ft.ff ⟨m, e.sat, rw⟩ (srcs.map fun x => c.rdF ft l ln x.1 x.2.1 x.2.2)
      .ok { ws := wordsOf (ft = .f64) (dw v), rnd := rn, fl := fl }) s

/-- The sources a, b, c with their modifiers. -/
def srcA (e : Ext) (a : Opnd) : Opnd × Bool × Bool := (a, e.na, e.aa)
/-- Source B. -/
def srcB (e : Ext) (b : Opnd) : Opnd × Bool × Bool := (b, e.nb, e.ab)
/-- Source C. -/
def srcC (e : Ext) (c : Opnd) : Opnd × Bool × Bool := (c, e.nc, e.ac)

/-- A function of two sources. -/
def on2 (f : FF → Rnd → Num → Num → Nat × Fl) (ff : FF) (r : Rnd) (xs : List Num) : Nat × Fl :=
  f ff r (xs.getD 0 .zero) (xs.getD 1 .zero)

/-- fadd (R133). -/
def execFadd (h : Hdr) (ft : FTy) (e : Ext) (d a b : Opnd) (s : State) : Host.Outcome State Fault Refusal :=
  fpWord h ft e d [srcA e a, srcB e b] (on2 fAdd) s

/-- fsub (R133). -/
def execFsub (h : Hdr) (ft : FTy) (e : Ext) (d a b : Opnd) (s : State) : Host.Outcome State Fault Refusal :=
  fpWord h ft e d [srcA e a, srcB e b] (on2 fSub) s

/-- fmul (R133). -/
def execFmul (h : Hdr) (ft : FTy) (e : Ext) (d a b : Opnd) (s : State) : Host.Outcome State Fault Refusal :=
  fpWord h ft e d [srcA e a, srcB e b] (on2 fMul) s

/-- ffma: one rounding (R133). -/
def execFfma (h : Hdr) (ft : FTy) (e : Ext) (d a b c : Opnd) (s : State) : Host.Outcome State Fault Refusal :=
  fpWord h ft e d [srcA e a, srcB e b, srcC e c]
    (fun ff r xs => fFma ff r (xs.getD 0 .zero) (xs.getD 1 .zero) (xs.getD 2 .zero)) s

/-- fdiv (R133). -/
def execFdiv (h : Hdr) (ft : FTy) (e : Ext) (d a b : Opnd) (s : State) : Host.Outcome State Fault Refusal :=
  fpWord h ft e d [srcA e a, srcB e b] (on2 fDiv) s

/-- fsqrt (R133). -/
def execFsqrt (h : Hdr) (ft : FTy) (e : Ext) (d a : Opnd) (s : State) : Host.Outcome State Fault Refusal :=
  fpWord h ft e d [srcA e a] (fun ff r xs => fSqrt ff r (xs.getD 0 .zero)) s

/-- fmin (R134). -/
def execFmin (h : Hdr) (ft : FTy) (e : Ext) (d a b : Opnd) (s : State) : Host.Outcome State Fault Refusal :=
  fpWord h ft e d [srcA e a, srcB e b] (on2 fun ff _ => fPick ff false) s

/-- fmax (R134). -/
def execFmax (h : Hdr) (ft : FTy) (e : Ext) (d a b : Opnd) (s : State) : Host.Outcome State Fault Refusal :=
  fpWord h ft e d [srcA e a, srcB e b] (on2 fun ff _ => fPick ff true) s

/-- fcmp (R135): writes a predicate. -/
def execFcmp (h : Hdr) (cond : FCond) (ft : FTy) (e : Ext) (pd : Pred) (a b : Opnd) (s : State) :
    Host.Outcome State Fault Refusal :=
  issue h (fun _ => { uses := [.rw' (ft = .f64) a, .rw' (ft = .f64) b] })
    (fun c => c.perLane .zero fun l ln =>
      let (v, fl) := fCmp cond (c.rdF ft l ln a e.na e.aa) (c.rdF ft l ln b e.nb e.ab)
      .ok { ps := [(pd, v)], fl := fl }) s

/-- fsel (R136). -/
def execFsel (h : Hdr) (ft : FTy) (e : Ext) (d a b c : Opnd) (s : State) : Host.Outcome State Fault Refusal :=
  fpWord h ft e d [srcA e a, srcB e b, srcC e c]
    (fun ff _ xs => (fSel ff (xs.getD 0 .zero) (xs.getD 1 .zero) (xs.getD 2 .zero), Fl.none)) s

/-- frnd (R136). -/
def execFrnd (h : Hdr) (ft : FTy) (nx : Bool) (e : Ext) (d a : Opnd) (s : State) : Host.Outcome State Fault Refusal :=
  fpWord h ft e d [srcA e a] (fun ff r xs => fRnd ff r.mode nx (xs.getD 0 .zero)) s

/-- fdot2 (R137): modifiers act on both elements. -/
def execFdot2 (h : Hdr) (bf : Bool) (e : Ext) (d a b cc : Opnd) (s : State) : Host.Outcome State Fault Refusal :=
  issue h (fun _ => { uses := [.w1 d, .r a, .r b, .r cc] })
    (fun c => c.perLane d fun l ln =>
      let (m, rw, rn) := rounding c.fpc e ln.rnd
      let ff : FF := if bf then .bf16 else .f16
      let el (o : Opnd) (na aa : Bool) (k : Nat) : Num :=
        Num.modified na aa (ff.read ((c.rd l ln o).toNat / 2 ^ (16 * k) % 2 ^ 16))
      let (v, fl) := fDot2 ⟨m, e.sat, rw⟩ (el a e.na e.aa 0) (el b e.nb e.ab 0) (el a e.na e.aa 1) (el b e.nb e.ab 1)
        (c.rdF .f32 l ln cc e.nc e.ac)
      .ok { ws := [BitVec.ofNat 32 v], rnd := rn, fl := fl }) s

/-! ## Special functions (R138, R139) -/

/-- A special function: its result is a variable-latency result (R77). A scalar destination raises 0x03 (R116). -/
def specialWord (h : Hdr) (d a : Opnd) (f : Nat → Nat × Fl) (s : State) : Host.Outcome State Fault Refusal :=
  issue h (fun _ => { uses := [.w1 d, .r a], bad := d.isSca })
    (fun c => c.perLaneVar d 1 fun l ln =>
      let (v, fl) := f (c.rd l ln a).toNat
      .ok { ws := [BitVec.ofNat 32 v], fl := fl }) s

/-- frcp. -/
def execFrcp (h : Hdr) (d a : Opnd) (s : State) : Host.Outcome State Fault Refusal := specialWord h d a frcp s
/-- frsq. -/
def execFrsq (h : Hdr) (d a : Opnd) (s : State) : Host.Outcome State Fault Refusal := specialWord h d a frsq s
/-- fexp2. -/
def execFexp2 (h : Hdr) (d a : Opnd) (s : State) : Host.Outcome State Fault Refusal := specialWord h d a fexp2 s
/-- flog2. -/
def execFlog2 (h : Hdr) (d a : Opnd) (s : State) : Host.Outcome State Fault Refusal := specialWord h d a flog2 s
/-- fsinp. -/
def execFsinp (h : Hdr) (d a : Opnd) (s : State) : Host.Outcome State Fault Refusal := specialWord h d a fsinp s
/-- fcosp. -/
def execFcosp (h : Hdr) (d a : Opnd) (s : State) : Host.Outcome State Fault Refusal := specialWord h d a fcosp s

/-! ## Conversions -/

/-- The random bits of n successive roundings and the state after them (R106). -/
def srSeq : Nat → BitVec 32 → List Nat × BitVec 32
  | 0, r => ([], r)
  | n + 1, r =>
    let r := srStep r
    let (bs, r') := srSeq n r
    (srBits r :: bs, r')

/-- The random bits of the n values a word rounds in a lane, and the new state: it steps only under sr (R106). -/
def roundings (e : Ext) (n : Nat) (rnd : Word) : List Nat × Option Word :=
  if e.sre && 0 < n then
    let (bs, r) := srSeq n rnd
    (bs, some r)
  else ([], none)

/-- The registers that cvt names (R141, R142). DESIGN CHOICE (log 55): the operand zero is admitted as d and a of the MX conversions. -/
def cvtUses (dst src : TyCode) (d a x : Opnd) : List Use :=
  if dst = .mx8 then [⟨d, 9, 4, true⟩, ⟨a, 32, 4, false⟩]
  else if src = .mx8 then [⟨d, 32, 4, true⟩, ⟨a, 8, 4, false⟩, .r x]
  else [.ww dst.wide d, .rw' src.wide a]

/-- cvt.mx8.f32 in a lane (R142): eight words of elements, then the scale. -/
def cvtToMx (c : Ctx) (e : Ext) (ln : Lane) (a : Opnd) : LaneOut :=
  let vals := (List.range 32).map fun i => FF.f32.read (c.rdAt ln a i).toNat
  let (rws, rn) := roundings e 32 ln.rnd
  let (m, _, _) := rounding c.fpc e ln.rnd
  let (scale, els, fl) := mxBlock m vals rws
  let word (j : Nat) : Word :=
    BitVec.ofNat 32 (els.getD (4 * j) 0 + 2 ^ 8 * els.getD (4 * j + 1) 0 + 2 ^ 16 * els.getD (4 * j + 2) 0
      + 2 ^ 24 * els.getD (4 * j + 3) 0)
  { ws := (List.range 8).map word ++ [BitVec.ofNat 32 scale], rnd := rn, fl := fl }

/-- cvt.f32.mx8 in a lane (R142). -/
def cvtFromMx (c : Ctx) (e : Ext) (l : Nat) (ln : Lane) (a x : Opnd) : LaneOut :=
  let scale := (c.rd l ln x).toNat % 256
  let (rws, rn) := roundings e 32 ln.rnd
  let (m, _, _) := rounding c.fpc e ln.rnd
  let one (i : Nat) : Nat × Fl :=
    let el := (c.rdAt ln a (i / 4)).toNat / 2 ^ (8 * (i % 4)) % 256
    FF.f32.ofNum m e.sat (rws.getD i 0) (mxValue scale el)
  let rs := (List.range 32).map one
  { ws := rs.map fun r => BitVec.ofNat 32 r.1, rnd := rn, fl := rs.foldl (fun f r => f.or r.2) Fl.none }

/-- cvt (R141). -/
def execCvt (h : Hdr) (e : Ext) (dst src : TyCode) (d a x : Opnd) (s : State) : Host.Outcome State Fault Refusal :=
  issue h (fun _ => { uses := cvtUses dst src d a x })
    (fun c => c.perLane d fun l ln =>
      if dst = .mx8 then .ok (cvtToMx c e ln a)
      else if src = .mx8 then .ok (cvtFromMx c e l ln a x)
      else
        let (rws, rn) := roundings e (if convertRounds dst src then 1 else 0) ln.rnd
        let (m, _, _) := rounding c.fpc e ln.rnd
        let (b, fl) := convert dst src ⟨m, e.sat, rws.getD 0 0⟩ (c.rdW src.wide l ln a).toNat
        .ok { ws := wordsOf dst.wide (dst.fill b), rnd := rn, fl := fl }) s

/-- The wide side of pack and unpack as a type code. -/
def PSrc.code : PSrc → TyCode
  | .f32 => .f32
  | .i32 => .i32
  | .n32 => .n32

/-- pack (R143): under stochastic rounding the random state steps once for each element, whatever its types. -/
def execPack (h : Hdr) (e : Ext) (dst : TyCode) (src : PSrc) (d a b : Opnd) (s : State) :
    Host.Outcome State Fault Refusal :=
  let byte := dst.byteWide
  issue h (fun _ => { uses := .w1 d :: (if byte then [⟨a, 4, 1, false⟩] else [.r a, .r b]), bad := d.isSca })
    (fun c => c.perLane d fun l ln =>
      let n := if byte then 4 else 2
      let sc := PSrc.code src
      let (rws, rn) := roundings e n ln.rnd
      let (m, _, _) := rounding c.fpc e ln.rnd
      let one (i : Nat) : Nat × Fl :=
        let v := if byte then c.rdAt ln a i else if i = 0 then c.rd l ln a else c.rd l ln b
        convert dst sc ⟨m, e.sat, rws.getD i 0⟩ v.toNat
      let rs := (List.range n).map one
      let word := (List.range n).foldl (fun w i => w + (rs.getD i (0, Fl.none)).1 * 2 ^ (dst.width * i)) 0
      .ok { ws := [BitVec.ofNat 32 word], rnd := rn, fl := rs.foldl (fun f r => f.or r.2) Fl.none }) s

/-- unpack (R144): every value is exact. -/
def execUnpack (h : Hdr) (src : TyCode) (dst : PSrc) (d a : Opnd) (s : State) : Host.Outcome State Fault Refusal :=
  let n := if src.byteWide then 4 else 2
  issue h (fun _ => { uses := [⟨d, n, 1, true⟩, .r a], bad := d.isSca })
    (fun c => c.perLane d fun l ln =>
      let rs := (List.range n).map fun i =>
        let b := (c.rd l ln a).toNat / 2 ^ (src.width * i) % 2 ^ src.width
        let (v, fl) := convert (PSrc.code dst) src ⟨.rne, false, 0⟩ b
        (BitVec.ofNat 32 v, Fl.inv fl.nv)
      .ok { ws := rs.map (·.1), fl := rs.foldl (fun f r => f.or r.2) Fl.none }) s

/-- rseed (R145). A state written as zero reads as zero until the next step of it, which replaces it (R106, log 49). -/
def execRseed (h : Hdr) (d a : Opnd) (s : State) : Host.Outcome State Fault Refusal :=
  issue h (fun _ => { uses := [.w1 d, .r a], bad := d.isSca })
    (fun c => c.perLane d fun l ln => .ok { ws := [ln.rnd], rnd := some (c.rd l ln a) }) s

/-! ## Welford (R146, R147) -/

/-- wfu: the triple at d updated with the sample a. The operand zero as d names no multiple of 4 (log 55). -/
def execWfu (h : Hdr) (d a : Opnd) (s : State) : Host.Outcome State Fault Refusal :=
  issue h (fun _ => { uses := [⟨d, 3, 4, true⟩, ⟨d, 3, 4, false⟩, .r a], bad := !d.isVec })
    (fun c => c.perLane d fun l ln =>
      let x (i : Nat) := (c.rdAt ln d i).toNat
      let (n, m, q, fl) := welfordUpdate (x 0) (x 1) (x 2) (c.rd l ln a).toNat
      .ok { ws := [BitVec.ofNat 32 n, BitVec.ofNat 32 m, BitVec.ofNat 32 q], fl := fl }) s

/-- wfm: the triple at a merged into the triple at d. The operand zero as d or a names no multiple of 4 (log 55). -/
def execWfm (h : Hdr) (d a : Opnd) (s : State) : Host.Outcome State Fault Refusal :=
  issue h (fun _ => { uses := [⟨d, 3, 4, true⟩, ⟨d, 3, 4, false⟩, ⟨a, 3, 4, false⟩],
                      bad := !d.isVec || !(a.isVec || a.isSca) })
    (fun c => c.perLane d fun _ ln =>
      let x (o : Opnd) (i : Nat) := (c.rdAt ln o i).toNat
      let (n, m, q, fl) := welfordMerge (x d 0) (x d 1) (x d 2) (x a 0) (x a 1) (x a 2)
      .ok { ws := [BitVec.ofNat 32 n, BitVec.ofNat 32 m, BitVec.ofNat 32 q], fl := fl }) s

end Sys2Proof.Machine
end

