-- ==== Sys2Proof/Machine/CrossLane.lean ====
section
/-! DEFINITION. Cross-lane and quad words (chapter 05, R148 to R153) and the pair word (chapter 03, R73 to R76). -/

set_option Elab.async false

namespace Sys2Proof.Machine

open Sys2Proof

/-- The present lane at an index. -/
def Ctx.at? (c : Ctx) (j : Nat) : Option Lane := Tab.find? c.present j

/-- The value of an operand at a source lane, or the reading lane's own where that lane is not present (R149, R153). -/
def Ctx.from (c : Ctx) (a : Opnd) (l : Nat) (ln : Lane) (j : Option Nat) : Word :=
  match j with
  | none => c.rd l ln a
  | some k => match c.at? k with
    | none => c.rd l ln a
    | some m => c.rd k m a

/-- The source lane of shfl, if it lies in the squad (R149). -/
def shflSource (v : ShflVar) (w l : Nat) (b : Word) : Option Nat :=
  let j : Int := match v with
    | .idx => b.toNat
    | .up => (l : Int) - b.toNat
    | .down => (l : Int) + b.toNat
    | .xor => (l ^^^ b.toNat : Nat)
  if 0 ≤ j && j < w then some j.toNat else none

/-- shfl (R149). -/
def execShfl (h : Hdr) (v : ShflVar) (_nat : Bool) (d a : Opnd) (b : RI) (s : State) : Host.Outcome State Fault Refusal :=
  issue h (fun _ => { uses := [.w1 d, .r a] ++ riUse false b, bad := d.isSca })
    (fun c => c.perLane d fun l ln =>
      .ok { ws := [c.from a l ln (shflSource v c.blk.kern.width l (c.rdN l ln b))] }) s

/-- The reduction of a list of values in lane order, with its flags (R150); `idn` is the result of no values. -/
def reduceVals (op : RedOp) (ty : CTy) (sat : Bool) (mode : RMode) (vs : List Word) : Word × Fl :=
  let ity : ITy := match ty with
    | .i32 => .i32
    | _ => .n32
  let ints := vs.map fun v => ity.val (v.zeroExtend 64)
  let nums := vs.map fun v => FF.f32.read v.toNat
  match op, ty with
  | .add, .f32 =>
    let nv := nums.any Num.isSnan
      || (nums.any (fun t => t.isInf && t.isNeg) && nums.any (fun t => t.isInf && !t.isNeg))
    let (b, fl) := FF.f32.out ⟨mode, false, 0⟩ (window56 nums).1 nv false
    (BitVec.ofNat 32 b, fl)
  | .add, _ => (lo32 (ity.put sat (ints.foldl (· + ·) 0)), Fl.none)
  | .and, _ => (vs.foldl (· &&& ·) 0xFFFFFFFF, Fl.none)
  | .or, _ => (vs.foldl (· ||| ·) 0, Fl.none)
  | o, .f32 =>
    let great := o = .max
    match nums with
    | [] => (if great then 0xFF800000 else 0x7F800000, Fl.none)
    | x :: xs =>
      let r := xs.foldl (fun a b => (a.pick great b).1) x
      let (b, fl) := fPick .f32 great r r
      (BitVec.ofNat 32 b, fl.or (Fl.inv (nums.any Num.isSnan)))
  | o, _ =>
    match ints with
    | [] => (lo32 (ity.put false (if o = .max then ity.lo else ity.hi)), Fl.none)
    | x :: xs =>
      (lo32 (ity.put false (xs.foldl (fun a b => if o = .max then (if a < b then b else a) else (if b < a then b else a)) x)), Fl.none)

/-- The mode of redux and scan: the override or FPC (R102, R150). -/
def Ctx.redMode (c : Ctx) (e : Ext) : RMode := if e.rmo then RMode.ofBits e.rm else fpcMode c.fpc

/-- redux (R150). -/
def execRedux (h : Hdr) (op : RedOp) (ty : CTy) (e : Ext) (d a : Opnd) (s : State) : Host.Outcome State Fault Refusal :=
  issue h (fun _ => { uses := [.w1 d, .r a], reduce := true })
    (fun c =>
      let r := reduceVals op ty e.sat (c.redMode e) (c.act.map fun l => c.rd l.1 l.2 a)
      c.perLane d fun _ _ => .ok { ws := [r.1], fl := r.2 }) s

/-- scan (R151). -/
def execScan (h : Hdr) (excl : Bool) (op : RedOp) (ty : CTy) (e : Ext) (d a : Opnd) (s : State) :
    Host.Outcome State Fault Refusal :=
  issue h (fun _ => { uses := [.w1 d, .r a], bad := !d.isVec })
    (fun c => c.perLane d fun l _ =>
      let below := c.act.filter fun m => if excl then m.1 < l else m.1 ≤ l
      let r := reduceVals op ty e.sat (c.redMode e) (below.map fun m => c.rd m.1 m.2 a)
      .ok { ws := [r.1], fl := r.2 }) s

/-- The mask of the active lanes where a predicate reads true. -/
def Ctx.ballot (c : Ctx) (p : PSpec) : DWord :=
  c.act.foldl (fun m l => if l.2.spec p then setBit m l.1 true else m) 0

/-- ballot (R152). -/
def execBallot (h : Hdr) (d : Opnd) (p : PSpec) (s : State) : Host.Outcome State Fault Refusal :=
  issue h (fun _ => { uses := [.w2 d], reduce := true })
    (fun c => c.perLane d fun _ _ => .ok { ws := wordsOf true (c.ballot p) }) s

/-- The outcome of a vote (R152). -/
def Ctx.vote (c : Ctx) (v : VoteVar) (p : PSpec) : Bool :=
  match v with
  | .all => c.act.all fun l => l.2.spec p
  | .any => c.act.any fun l => l.2.spec p
  | .uni => c.act.all (fun l => l.2.spec p) || c.act.all (fun l => !l.2.spec p)

/-- vote (R152). -/
def execVote (h : Hdr) (v : VoteVar) (pd : Pred) (p : PSpec) (s : State) : Host.Outcome State Fault Refusal :=
  issue h (fun _ => { uses := [] }) (fun c => c.perLane .zero fun _ _ => .ok { ps := [(pd, c.vote v p)] }) s

/-- qx (R153). -/
def execQx (h : Hdr) (var : QxVar) (_nat : Bool) (d a : Opnd) (s : State) : Host.Outcome State Fault Refusal :=
  issue h (fun _ => { uses := [.w1 d, .r a], bad := d.isSca })
    (fun c => c.perLane d fun l ln =>
      let k := match var with
        | .h => 1
        | .v => 2
        | .diag => 3
      .ok { ws := [c.from a l ln (some (l ^^^ k))] }) s

/-- qbc (R153). -/
def execQbc (h : Hdr) (_nat : Bool) (d a : Opnd) (b : QSel) (s : State) : Host.Outcome State Fault Refusal :=
  issue h (fun _ =>
      { uses := [.w1 d, .r a] ++ (match b with
          | .reg o => [.r o]
          | .imm _ => []), bad := d.isSca })
    (fun c => c.perLane d fun l ln =>
      let k := match b with
        | .reg o => (c.rd l ln o).toNat % 4
        | .imm k => k.val
      .ok { ws := [c.from a l ln (some (l / 4 * 4 + k))] }) s

/-! ## The pair word -/

/-- Whether an operation reads D (R74). -/
def Rop.readsD : Rop → Bool
  | .nop | .mov | .movi8 | .not | .neg | .fabs | .fneg | .cvtF | .cvtI => false
  | _ => true

/-- Whether the B field is an imm8 (R74). -/
def Rop.hasImm : Rop → Bool
  | .movi8 | .addi8 | .subi8 | .andi8 | .ori8 | .xori8 | .shli8 | .shri8 | .sari8 => true
  | _ => false

/-- The B operand of a slot where it is a register. -/
def slotB (x : Slot) : Opnd := Opnd.ofByte x.b
/-- The D operand of a slot. -/
def slotD (x : Slot) : Opnd := Opnd.ofByte x.d

/-- The operands of a slot. -/
def slotUses (x : Slot) : List Use :=
  if x.rop = .nop then []
  else [.w1 (slotD x)] ++ (if Rop.readsD x.rop then [.r (slotD x)] else [])
    ++ (if Rop.hasImm x.rop then [] else [.r (slotB x)])

/-- The 0x03 of a slot beyond R72 (R75): D names a special operand. -/
def slotBad (x : Slot) : Bool := x.rop ≠ .nop && !(slotD x).isVec && !(slotD x).isSca

/-- The vector registers a slot reads, for the bank rule (R76). -/
def slotVecs (x : Slot) : List Nat :=
  (slotUses x).filterMap fun u => if u.w then none else match u.o with
    | .vec k => some k.val
    | _ => none

/-- Whether two different registers of a list share a bank. -/
def bankClash : List Nat → Bool
  | [] => false
  | r :: t => t.any (fun k => k ≠ r && k % 4 = r % 4) || bankClash t

/-- R76, rules 4 and 5. -/
def pairClash (a b : Slot) : Bool :=
  (a.rop ≠ .nop && b.rop ≠ .nop && a.d = b.d) || bankClash (slotVecs a ++ slotVecs b)

/-- The value a slot writes in a lane, its flags and its cause (R74). -/
def slotOut (c : Ctx) (x : Slot) (l : Nat) (ln : Lane) : LaneOut :=
  let ty : ITy := if x.ty then .n32 else .i32
  let dv : DWord := (c.rd l ln (slotD x)).zeroExtend 64
  let imm : DWord := if x.ty then x.b.zeroExtend 64 else ((x.b.signExtend 32).zeroExtend 64)
  let bv : DWord := if Rop.hasImm x.rop then imm else (c.rd l ln (slotB x)).zeroExtend 64
  let sh := if Rop.hasImm x.rop then x.b.toNat else (lo32 bv).toNat
  let int (v : DWord) : LaneOut := { ws := [lo32 v] }
  let r : Rnd := ⟨fpcMode c.fpc, false, 0⟩
  let fd := FF.f32.read (lo32 dv).toNat
  let fb := FF.f32.read (lo32 bv).toNat
  let fp (v : Nat × Fl) : LaneOut := { ws := [BitVec.ofNat 32 v.1], fl := v.2 }
  match x.rop with
  | .nop => {}
  | .mov => int bv
  | .movi8 => int imm
  | .add | .addi8 => int (ty.put x.sat (ty.val dv + ty.val bv))
  | .sub | .subi8 => int (ty.put x.sat (ty.val dv - ty.val bv))
  | .and | .andi8 => int (dv &&& bv)
  | .or | .ori8 => int (dv ||| bv)
  | .xor | .xori8 => int (dv ^^^ bv)
  | .not => int (~~~bv)
  | .neg => int (ty.put false (-(ty.val bv)))
  | .shl | .shli8 => int (ITy.n32.shl dv sh)
  | .shr | .shri8 => int (ITy.n32.shr dv sh)
  | .sar | .sari8 => int (ITy.n32.sar dv sh)
  | .min => int (if ty.val bv < ty.val dv then bv else dv)
  | .max => int (if ty.val dv < ty.val bv then bv else dv)
  | .fadd => fp (fAdd .f32 r fd fb)
  | .fsub => fp (fSub .f32 r fd fb)
  | .fmul => fp (fMul .f32 r fd fb)
  | .fmin => fp (fPick .f32 false fd fb)
  | .fmax => fp (fPick .f32 true fd fb)
  | .fabs => { ws := [lo32 bv &&& 0x7FFFFFFF] }
  | .fneg => { ws := [lo32 bv ^^^ 0x80000000] }
  | .cvtF => fp (convert .f32 (if x.ty then .n32 else .i32) r (lo32 bv).toNat)
  | .cvtI => fp (convert (if x.ty then .n32 else .i32) .f32 r (lo32 bv).toNat)

/-- The guard of a slot: 0 true, else p0 to p2 (R73). -/
def slotActs (x : Slot) (ln : Lane) : Bool :=
  match x.pr2.toNat with
  | 0 => true
  | n => ln.p.getLsbD (n - 1)

/-- The results of a slot over its own active lanes. -/
def slotResults (c : Ctx) (x : Slot) : List (Nat × Lane × Except Nat LaneOut) :=
  let act := c.present.filter fun l => slotActs x l.2
  let c' : Ctx := { c with act := act }
  let ls := if x.rop = .nop then [] else if (slotD x).isSca then c'.acting.toList else act
  runLanes c.fpc ls fun l ln => .ok (slotOut c x l ln)

/-- One cause per lane, the higher-ranked of two (R434). -/
def mergeCauses (a b : List (Nat × Nat)) : List (Nat × Nat) :=
  (sortNats (nub (a.map (·.1) ++ b.map (·.1)))).map fun l =>
    match a.find? (fun x => x.1 = l), b.find? (fun x => x.1 = l) with
    | some x, some y => if causeKey y.2 < causeKey x.2 then y else x
    | some x, none => x
    | none, some y => y
    | none, none => (l, 0)

/-- A pair word (R73 to R76). -/
def execPairWord (sbit : Bool) (sa sb : Slot) (s : State) : Host.Outcome State Fault Refusal :=
  issue (Hdr.plain sbit)
    (fun _ => { uses := slotUses sa ++ slotUses sb, reduce := true,
                bad := slotBad sa || slotBad sb || mixes (slotUses sa) || mixes (slotUses sb),
                pairing := pairClash sa sb })
    (fun c =>
      let ra := slotResults c sa
      let rb := slotResults c sb
      let cs := mergeCauses (realCauses ra) (realCauses rb)
      if cs ≠ [] then .raise cs 0
      else
        let drop := helperCauses ra ++ helperCauses rb
        let s := c.s.modSquad c.q fun q =>
          ((q.applyLanes (slotD sa) ra).applyLanes (slotD sb) rb).dropLanes drop
        let wr (s : State) (x : Slot) (rs : List (Nat × Lane × Except Nat LaneOut)) : State :=
          match firstWords rs with
          | some ws => s.writeSca c.q c.sq.sup (slotD x) ws
          | none => s
        .ok ((wr (wr s sa ra) sb rb).oweFlags c.q.blk ((realFlags ra).or (realFlags rb)))) s

end Sys2Proof.Machine
end

