-- ==== Sys2Proof/Machine/Registers.lean ====
section
/-! DEFINITION. Control registers: mfc, mtc, the writes of FPC and MQB, and cyc (R120, R154 to R156, R463). -/

set_option Elab.async false

namespace Sys2Proof.Machine

open Sys2Proof

/-- The assigned control indices (R120, R443, R470). -/
def crAssigned (n : Nat) : Bool :=
  n ∈ [0x001, 0x002, 0x003, 0x004, 0x005, 0x006, 0x007, 0x008, 0x00C, 0x00D, 0x00E, 0x010, 0x011, 0x012, 0x020, 0x021,
       0x022, 0x023, 0x100, 0x101]

/-- The registers of supervisor mode only (R120). -/
def crPriv (n : Nat) : Bool := n ∈ [0x020, 0x021, 0x022, 0x023, 0x100, 0x101]

/-- The 64-bit registers. -/
def crWide (n : Nat) : Bool := n ∈ [0x003, 0x005, 0x021, 0x100]

/-- SID (R24). -/
def sidOf (q : Sel) (lcore : Nat) : Word := BitVec.ofNat 32 (q.core * 2 ^ 14 + lcore * 2 ^ 6 + q.stall)

/-- The local address of a context slot (R443). -/
def slotAddr (savea : DWord) (slot : Nat) : Nat := field savea 40 16 * 65536 + slot * (field savea 63 56 * 2 ^ 20)

/-- CTX: the local address of the block's context slot; a block without one reads 0. -/
def ctxOf (s : State) (st : Nat) (b : Block) : DWord :=
  match b.cslot with
  | none => 0
  | some i => BitVec.ofNat 64 (slotAddr (s.stall st).savea i)

/-- MKT of the launch of a block (R49). -/
def mktOf (s : State) (st launch : Nat) : Word :=
  match (s.stall st).launches.find? fun l => l.id = launch with
  | some l => l.mkt
  | none => 0

/-- A control register as a lane reads it (R155). -/
def Ctx.cr (c : Ctx) (ln : Lane) (n : Nat) : DWord :=
  let w (x : Word) : DWord := x.zeroExtend 64
  match n with
  | 0x001 => w c.fpc
  | 0x002 => w c.blk.eng.mxs
  | 0x003 => c.blk.tagsDone
  | 0x004 => w c.blk.ksp
  | 0x005 => BitVec.ofNat 64 (c.s.cyc c.q.stall c.q.core)
  | 0x006 => w (sidOf c.q c.blk.lcore)
  | 0x007 => if ln.helper then 1 else 0
  | 0x008 => w (mktOf c.s c.q.stall c.blk.launch)
  | 0x00C => w (Tab.get 0 c.sq.lc 0)
  | 0x00D => w (Tab.get 0 c.sq.lc 1)
  | 0x00E => w (Tab.get 0 c.sq.lc 2)
  | 0x010 => w c.blk.eng.mqb
  | 0x011 => w c.blk.eng.mqh
  | 0x012 => w c.blk.eng.mqt
  | 0x020 => w c.sq.hr.cause
  | 0x021 => c.sq.hr.epc
  | 0x022 => w c.sq.hr.flane
  | 0x023 => w c.sq.hr.skid
  | 0x100 => ctxOf c.s c.q.stall c.blk
  | 0x101 => w (c.s.core c.q.stall c.q.core).retst
  | _ => 0

/-- A write of a register that all squads of a block share: the words that issue in the same clock see the value before it (R156). -/
def Block.crLater (b : Block) (islot idx : Nat) (v : Word) : Block := { b with crw := insertBy (·.islot) ⟨islot, idx, v⟩ b.crw }

/-- A write of KSP, MXS or MQB takes effect: MXS loses the bits written as 1, and MQB starts its queue afresh (R155, R216). -/
def Block.crDo (b : Block) (w : CrWrite) : Block :=
  match w.idx with
  | 0x002 => { b with eng := { b.eng with mxs := b.eng.mxs &&& ~~~w.v } }
  | 0x004 => { b with ksp := w.v &&& 0xFF07FFF8 }
  | 0x010 => { b with eng := { b.eng with mqb := w.v &&& 0xFF87FFF0, mqh := 0, mqt := 0, queued := [] } }
  | _ => b

/-- The writes of a clock take effect as it ends, in the order of their issue slots (R156). -/
def Block.crLand (b : Block) : Block := b.crw.foldl Block.crDo { b with crw := [] }

/-- What a write of a control register does; registers and fields that are RO ignore it (R155). FPC and MQB have rows of
their own. A bit of MXS that is set after the write stays set. -/
def State.crWrite (s : State) (q : Sel) (n : Nat) (v : DWord) : State :=
  let w := lo32 v
  match n with
  | 0x002 => s.modBlock q.blk fun b => b.crLater q.islot 0x002 (w &&& 0x1F &&& b.eng.mxs)
  | 0x004 => s.modBlock q.blk fun b => b.crLater q.islot 0x004 w
  | 0x00C => s.modSquad q fun x => { x with lc := Tab.set 0 x.lc 0 w }
  | 0x00D => s.modSquad q fun x => { x with lc := Tab.set 0 x.lc 1 w }
  | 0x00E => s.modSquad q fun x => { x with lc := Tab.set 0 x.lc 2 w }
  | 0x020 => s.modSquad q fun x => { x with hr := { x.hr with cause := (x.hr.cause &&& ~~~0x7F) ||| (w &&& 0x7F) } }
  | 0x021 => s.modSquad q fun x => { x with hr := { x.hr with epc := v } }
  | 0x022 => s.modSquad q fun x => { x with hr := { x.hr with flane := w &&& 0x7F } }
  | _ => s

/-- mfc (R154, R155). -/
def execMfc (h : Hdr) (d : Opnd) (idx : BitVec 12) (s : State) : Host.Outcome State Fault Refusal :=
  let n := idx.toNat
  issue h (fun _ => { uses := [.ww (crWide n) d], reduce := true, priv := crPriv n,
                      bad := !crAssigned n || (n = 0x007 && d.isSca) })
    (fun c => c.perLane d fun _ ln => .ok { ws := wordsOf (crWide n) (c.cr ln n) }) s

/-- The value that mtc takes: of a vector, that of the lowest active lane; a scalar is the same in every lane (R155). DESIGN CHOICE
(log 56): a special operand that differs from lane to lane counts as a vector. -/
def Ctx.mtcVal (c : Ctx) (wide : Bool) (a : Opnd) : Option DWord := c.act.head?.map fun l => c.rdW wide l.1 l.2 a

/-- What is common to mtc words. -/
def mtcWord (h : Hdr) (n : Nat) (a : Opnd) (f : Ctx → DWord → Res) (s : State) : Host.Outcome State Fault Refusal :=
  issue h (fun _ => { uses := [.rw' (crWide n) a], priv := crPriv n, bad := !crAssigned n })
    (fun c => match c.mtcVal (crWide n) a with
      | none => .ok c.s
      | some v => f c v) s

/-- mtc (R154 to R156). -/
def execMtc (h : Hdr) (idx : BitVec 12) (a : Opnd) (s : State) : Host.Outcome State Fault Refusal :=
  mtcWord h idx.toNat a (fun c v => .ok (c.s.crWrite c.q idx.toNat v)) s

/-- mtc to FPC (R110, R112, R156). -/
def execFpcWrite (h : Hdr) (a : Opnd) (s : State) : Host.Outcome State Fault Refusal :=
  mtcWord h 0x001 a (fun c v => .ok (c.s.modBlock c.q.blk fun b =>
    { b with fpc := b.fpc.write (c.s.cyc c.q.stall c.q.core) c.q.islot (lo32 v) })) s

/-- mtc to MQB (R214, R216): checked, then held until the queue is empty and nothing dispatched is incomplete; the write takes
effect with the next clock (R156). A block without a matrix engine ignores the write (R213). -/
def execMqbWrite (h : Hdr) (a : Opnd) (s : State) : Host.Outcome State Fault Refusal :=
  mtcWord h 0x010 a (fun c v =>
    let ent := field v 31 23
    let base := field v 18 4 * 16
    let raise (code : Nat) : Res := match c.acting with
      | some l => c.actingRaise l code 0
      | none => .ok c.s
    if c.blk.kern.mqEnt = 0 then .ok c.s
    else if ent < 8 || 256 < ent then raise 0x42
    else if c.blk.kern.pad < base + 16 * ent then raise 0x26
    else if c.blk.eng.mqh ≠ c.blk.eng.mqt || c.blk.eng.run ≠ [] then .hold
    else .ok (c.s.modBlock c.q.blk fun b => b.crLater c.q.islot 0x010 (lo32 v))) s

/-- cyc (R463): once when the active lanes hold one that is no helper, and no effect otherwise (R460). -/
def execCyc (h : Hdr) (d : Opnd) (s : State) : Host.Outcome State Fault Refusal :=
  issue h (fun _ => { uses := [.w2 d], reduce := true })
    (fun c => match c.real with
      | none => .ok c.s
      | some _ => .ok (c.writeAll c.s d (wordsOf true (BitVec.ofNat 64 (c.s.cyc c.q.stall c.q.core))))) s

end Sys2Proof.Machine
end

