-- ==== Sys2Proof/Machine/Memory.lean ====
section
/-! DEFINITION. The memory words: ld, st, atom, red, lrs, scs, cpf, cwb, cinv and fence (R267 to R269, R284 to R292, R306,
R307). -/

set_option Elab.async false

namespace Sys2Proof

/-- Bytes of a load, and how it fills its registers (R267). -/
def LdSz.spec : LdSz → Nat × Bool
  | .b8 => (1, false)
  | .i8 => (1, true)
  | .b16 => (2, false)
  | .i16 => (2, true)
  | .b32 => (4, false)
  | .b64 => (8, false)
  | .b128 => (16, false)

/-- Bytes of a store (R267). -/
def StSz.size : StSz → Nat
  | .b8 => 1
  | .b16 => 2
  | .b32 => 4
  | .b64 => 8
  | .b128 => 16

/-- Registers of a datum of a size. -/
def regsOf (z : Nat) : Nat := if z = 16 then 4 else if z = 8 then 2 else 1

/-- Whether an order acquires. -/
def Ord.acquires : Ord → Bool
  | .acq => true
  | .ar => true
  | _ => false

/-- Whether an order releases. -/
def Ord.releases : Ord → Bool
  | .rel => true
  | .ar => true
  | _ => false

namespace Machine

/-- Whether an address operand is uniform (R268): a scalar pair, zero or argl. -/
def addrUniform (a : Opnd) : Bool := a.isSca || a = .zero || a = .argl

/-- What an access does at a byte of its place: reads, writes. -/
structure Mode where
  acc : Acc
  rd : Bool
  wr : Bool
  /-- An access that needs its bytes fails at a lost line (R266). -/
  needs : Bool
deriving DecidableEq, Repr

/-- A load. -/
def Mode.load : Mode := ⟨.read, true, false, true⟩
/-- A store. -/
def Mode.store : Mode := ⟨.write, false, true, false⟩
/-- An atomic. -/
def Mode.atomic : Mode := ⟨.atomic, true, true, true⟩
/-- lrs. -/
def Mode.lrs : Mode := ⟨.lrs, true, false, true⟩
/-- scs: it needs no byte of the line. -/
def Mode.scs : Mode := ⟨.atomic, true, true, false⟩
/-- cwb and cinv, checked as a read (R269). -/
def Mode.line : Mode := ⟨.read, true, false, false⟩

/-- Whether an enabled watchpoint of the squad meets an access (R459). -/
def Squad.watched (q : Squad) (va : DWord) (rd wr : Bool) : Bool :=
  let meets (w : DWord) : Bool :=
    w.getLsbD 0 && field w 51 6 = va.toNat / 64 && ((rd && w.getLsbD 1) || (wr && w.getLsbD 2))
  meets q.wp0 || meets q.wp1

/-- Whether a byte that an access needs is lost: not in the squad's queue, nor in the stall's buffer, nor written since
(R266). -/
def Ctx.lostAt (c : Ctx) (pa z : Nat) : Bool :=
  let t := c.s.stall c.q.stall
  (List.range z).any fun i =>
    c.s.lostByte (pa + i) && !t.buffersByte (pa + i) && (ownByte c.sq.sq c.s.nextId 0 (pa + i)).isNone

/-- The address of an access (R268, R286). -/
def Ctx.memVa (c : Ctx) (ln : Lane) (a : Opnd) (off : BitVec 12) (z : Nat) : DWord :=
  c.rd64 ln a + off.signExtend 64 * BitVec.ofNat 64 z

/-- The checks of one lane's access, in order: R254, the management page (R23, R249), lost lines, watchpoints. -/
def Ctx.memLane (c : Ctx) (k : Nat) (va : DWord) (z : Nat) (m : Mode) (crtCas : Bool) : Except Nat Tr :=
  match c.s.translate c.q.stall c.sq.sup va m.acc z k with
  | .error e => .error e
  | .ok t =>
    let denied : Bool := match t.place with
      | .mgmt off => (m.acc ≠ .read && m.acc ≠ .write && !(crtCas && off < 0x180)) || (m.acc = .write && off < 0x180)
      | _ => false
    let lost : Bool := match t.place with
      | .dev pa => m.needs && c.lostAt pa z
      | _ => false
    if denied then .error 0x22 else if lost then .error 0x2A
    else if c.sq.watched va m.rd m.wr then .error 0x73 else .ok t

/-- An access of a lane: its address and, where the check passed, its translation. -/
structure MAcc where
  lane : Nat
  ln : Lane
  va : DWord
  tr : Except Nat Tr

/-- The accesses of lanes. -/
def Ctx.memAccs (c : Ctx) (ls : List (Nat × Lane)) (a : Opnd) (off : BitVec 12) (z : Nat) (m : Mode) (crtCas : Bool) :
    List MAcc :=
  ls.map fun l =>
    let va := c.memVa l.2 a off z
    ⟨l.1, l.2, va, c.memLane l.1 va z m crtCas⟩

/-- The cause of an access. -/
def MAcc.cause (x : MAcc) : Option Nat :=
  match x.tr with
  | .error e => some e
  | .ok _ => none

/-- Whether an access waits for a token of a translation (R258). -/
def MAcc.waits (x : MAcc) : Bool := x.cause.any isWait

/-- The causes of accesses by lanes that are no helpers, and what any access waits for. -/
def memCauses (xs : List MAcc) : List (Nat × Nat) :=
  xs.filterMap fun x => if x.ln.helper && !x.waits then none else x.cause.map fun e => (x.lane, e)

/-- The address of the primary lane's access (R444). -/
def causeVa (xs : List MAcc) (cs : List (Nat × Nat)) : DWord :=
  match xs.find? fun x => x.lane = (primaryOf cs).2 with
  | some x => x.va
  | none => 0

/-- The translations that a word used are kept, and the free choices it made are spent (R258, log 6). -/
def State.keepAll (s : State) (q : Sel) (xs : List MAcc) : State :=
  State.keepTlb { s with free := s.free + 65 } q.stall (xs.filterMap fun x => match x.tr with
    | .ok t => some t.ent
    | .error _ => none)

/-- A memory word: check every lane; raise, or act on the accesses that passed. -/
def Ctx.memWord (c : Ctx) (xs : List MAcc) (f : State → Res) : Res :=
  let cs := memCauses xs
  if cs ≠ [] then .raise cs (causeVa xs cs) else f (c.s.keepAll c.q xs)

/-- The places of the accesses that passed. -/
def placed (xs : List MAcc) : List (MAcc × Tr) :=
  xs.filterMap fun x => match x.tr with
    | .ok t => some (x, t)
    | .error _ => none

/-- Where a lane's result goes: its lane and first register; the scalar file is lane 64. -/
def destSlot (d : Opnd) (l : Nat) : Nat × Nat :=
  match d with
  | .sca k => (64, k.val)
  | .vec k => (l, k.val)
  | _ => (l, 0)

/-- Put a load in flight. -/
def State.launchLoad (s : State) (q : Sel) (d : Opnd) (n : Nat) (reads : List RdReq) (vals : List (Nat × Nat × Word))
    (acq : Bool) (obs : BitVec 6) (noFill : Bool) : State :=
  s.launchFlight q { Flight.known 0 (destRegs d n) vals Fl.none with
    reads := reads, perf := false, acq := acq, obs := obs, noFill := noFill }

/-- Queue an entry, with its order number and the PC of its word. -/
def State.enqueue (s : State) (q : Sel) (e : SqEnt) : State :=
  { (s.modSquad q fun x => { x with sq := x.sq ++ [{ e with id := s.nextId, pc := x.pc }] }) with nextId := s.nextId + 1 }

/-- A plain entry of the store queue. -/
def SqEnt.plain (op : SqOp) : SqEnt := ⟨0, 0, op, none, none, none, none, false, false⟩

/-- The helper lanes whose load reads zero, and those that leave their quad: a cause from 0x20 to 0x3F, or another (R53). -/
def helperFails (xs : List MAcc) (zero : Bool) : List Nat :=
  xs.filterMap fun x => match x.cause with
    | none => none
    | some e => if x.ln.helper && (decide (0x20 ≤ e && e < 0x40) == zero) then some x.lane else none

/-- Zeros for the lanes of helper accesses that were not performed (R53). -/
def zerosFor (d : Opnd) (n : Nat) (ls : List Nat) : List (Nat × Nat × Word) :=
  ls.flatMap fun l => destVals d l ((List.range n).map fun _ => (0 : Word))

/-- Whether any access is to the management page. -/
def anyMgmt (ps : List (MAcc × Tr)) : Bool := ps.any fun p => p.2.place.key.1 = 1

/-- ld (R267, R268). -/
def execLd (h : Hdr) (sz : LdSz) (hint : Hint) (m : MemX) (d a : Opnd) (s : State) : Host.Outcome State Fault Refusal :=
  let z := sz.spec.1
  let n := regsOf z
  issue h (fun _ => { uses := [⟨d, n, n, true⟩, .r2 a] })
    (fun c =>
      let xs := c.memAccs (c.accLanes (addrUniform a && destUniform d)) a m.off z .load false
      c.memWord xs fun s =>
        let ps := placed xs
        let s := s.modSquad c.q fun q => q.dropLanes (helperFails xs false)
        let failed := helperFails xs true
        let reads := ps.map fun p =>
          let slot := destSlot d p.1.lane
          (⟨slot.1, p.1.lane, slot.2, p.2.place, z, if sz.spec.2 then .sign else .zero, none⟩ : RdReq)
        let mg := anyMgmt ps
        .ok (s.launchLoad c.q d n reads (zerosFor d n failed) (m.ord.acquires || mg) (if mg then 0x3F else m.obs)
          (hint = .na))) s

/-- The bytes that a lane stores to memory. -/
def Ctx.memBytes (c : Ctx) (l : Nat) (ln : Lane) (b : Opnd) (z : Nat) : List Byte :=
  if z = 16 then (List.range 4).flatMap fun k => leBytes 4 (c.rdAt ln b k).toNat else c.storeBytes l ln b z

/-- The lanes of a word whose helper lanes perform nothing (R53). -/
def Ctx.writers (c : Ctx) (uniform : Bool) : List (Nat × Lane) := (c.accLanes uniform).filter fun l => !l.2.helper

/-- st (R267, R268): every lane's store enters the store queue, in ascending lane order. -/
def execSt (h : Hdr) (sz : StSz) (_hint : Hint) (m : MemX) (a b : Opnd) (s : State) : Host.Outcome State Fault Refusal :=
  let z := sz.size
  let n := regsOf z
  issue h (fun _ => { uses := [.r2 a, ⟨b, n, n, false⟩] })
    (fun c =>
      let xs := c.memAccs (c.writers (addrUniform a && b.scaOrZero)) a m.off z .store false
      c.memWord xs fun s =>
        .ok ((placed xs).foldl (fun s p =>
          let mg : Bool := p.2.place.key.1 = 1
          s.enqueue c.q { SqEnt.plain (.store p.2.place (c.memBytes p.1.lane p.1.ln b z)) with
            rel := if mg then some 0x3F else if m.ord.releases then some m.obs else none
            acq := if mg then some 0x3F else none }) s)) s

/-- One lane of an atomic. -/
def Ctx.atLane (c : Ctx) (wide cas : Bool) (d b : Opnd) (far : Bool) (p : MAcc × Tr) : AtLane :=
  let slot := destSlot d p.1.lane
  let v := c.casVals wide cas p.1.lane p.1.ln b
  ⟨slot.1, p.1.lane, slot.2, p.2.place, p.1.va, v.1, v.2, [], far⟩

/-- A line that any lane of the word names through a far leaf is far for all of them, since the lanes of a line take effect together
(R286, log 28). -/
def farLines (ls : List AtLane) : List AtLane :=
  ls.map fun l => { l with far := (lineLanes (l :: ls)).1.any (·.far) }

/-- Queue an atomic's lanes, in ascending order, supplying a flight. -/
def State.queueAtomic (s : State) (q : Sel) (op : AtomOp) (ls : List AtLane) (rel acq : Option (BitVec 6))
    (flight : Option Nat) : State :=
  if ls.isEmpty then s
  else s.enqueue q { SqEnt.plain (.atomic op (farLines ls)) with rel := rel, acq := acq, flight := flight }

/-- Launch the flight of a queued result, if its destination holds one: its number, and the machine after. -/
def State.queuedFlight (s : State) (q : Sel) (d : Opnd) (n : Nat) (vals : List (Nat × Nat × Word)) (any : Bool) :
    Option Nat × State :=
  if destRegs d n = [] then (none, s)
  else (some s.nextId, s.launchFlight q { Flight.known 0 (destRegs d n) vals Fl.none with perf := !any, byQueue := true })

/-- atom (R284 to R286). A swap of a CRT entry acts on the entry, whatever the class of its leaf (R23). -/
def execAtom (h : Hdr) (op : AtomOp) (m : MemX) (d a b : Opnd) (s : State) : Host.Outcome State Fault Refusal :=
  let n := if op.wide then 2 else 1
  issue h (fun _ => { uses := [.ww op.wide d, .r2 a, casUse op.wide op.isCas b] })
    (fun c =>
      let ls := c.accLanes (addrUniform a && b.isSca && destUniform d)
      let xs := c.memAccs (ls.filter fun l => !l.2.helper) a m.off op.size .atomic (op.wide && op.isCas)
      c.memWord xs fun s =>
        let ps := placed xs
        let helpers := ls.filterMap fun l => if l.2.helper then some l.1 else none
        let mg := anyMgmt ps
        let (id, s) := s.queuedFlight c.q d n (zerosFor d n helpers) (!ps.isEmpty)
        .ok (s.queueAtomic c.q op (ps.map fun p => c.atLane op.wide op.isCas d b (p.2.far && p.2.place.key.1 ≠ 1) p)
          (if mg then some 0x3F else if m.ord.releases then some m.obs else none)
          (if mg then some 0x3F else if m.ord.acquires then some m.obs else none) id)) s

/-- red (R287): at the home, returning nothing. -/
def execRed (h : Hdr) (op : AtomOp) (m : MemX) (a b : Opnd) (s : State) : Host.Outcome State Fault Refusal :=
  issue h (fun _ => { uses := [.r2 a, .rw' op.wide b] })
    (fun c =>
      let xs := c.memAccs (c.writers (addrUniform a && b.isSca)) a m.off op.size .atomic false
      c.memWord xs fun s =>
        .ok (s.queueAtomic c.q op ((placed xs).map (c.atLane op.wide false .zero b true))
          (if m.ord.releases then some m.obs else none) none none)) s

/-! ## Reservations -/

/-- Whether a word may stand between an lrs and its scs (R291). -/
def betweenOk : Instr → Bool
  | .bra _ _ _ | .jmp _ _ _ _ | .call _ _ _ _ | .calli _ _ _ _ _ | .ret _ _ _ | .reform _ _ | .loop _ _ _ _ | .exit _
  | .wait _ _ _ | .pwait _ _ _ _ | .bar _ _ | .twany _ _ _ | .twall _ _ | .trap _ _ | .brk _ _ | .cpy _ _
  | .ld _ _ _ _ _ _ | .st _ _ _ _ _ _ | .atom _ _ _ _ _ _ | .red _ _ _ _ _ | .lrs _ _ _ _ _ | .scs _ _ _ _ _ _
  | .cpf _ _ _ _ | .cwb _ _ _ | .cinv _ _ _ _ => false
  | _ => true

/-- A word that follows an lrs, as the core sees it when the lrs issues (R291): a line whose token is still on its way is read as
memory holds it; none where the word cannot be fetched. -/
def Ctx.ahead (c : Ctx) (k : Nat) : Option DWord :=
  let pc := c.sq.pc + BitVec.ofNat 64 (8 * k)
  match c.target pc k with
  | .ok w => some w
  | .error e => if !isWait e then none else (c.s.codeAt c.q.stall c.blk.kern c.sq.sup pc (2 * k)).toOption.map (c.s.codeWord c.q.stall)

/-- Whether the lrs at a PC begins a constrained sequence (R291): within 16 words its scs stands, with nothing between that is
not admitted. -/
def Ctx.constrained (c : Ctx) (wide : Bool) (off : BitVec 12) (a : Opnd) : Nat → Nat → Bool
  | _, 0 => false
  | k, n + 1 =>
    match c.ahead k with
    | none => false
    | some w =>
      match decode w with
      | .error _ => false
      | .ok (.scs _ wide' m' _ a' _) => wide' == wide && m'.off = off && a' = a
      | .ok i => betweenOk i && Ctx.constrained c wide off a (k + 1) n

/-- lrs (R288, R289): never squad-uniform. -/
def execLrs (h : Hdr) (wide : Bool) (m : MemX) (d a : Opnd) (s : State) : Host.Outcome State Fault Refusal :=
  let z := if wide then 8 else 4
  let n := if wide then 2 else 1
  issue h (fun _ => { uses := [.ww wide d, .r2 a] })
    (fun c =>
      let con := c.constrained wide m.off a 1 16
      let xs := c.memAccs c.act a m.off z .lrs false
      c.memWord xs fun s =>
        let s := s.modSquad c.q fun q => q.dropLanes (helperFails xs false)
        let failed := helperFails xs true
        let reads := (placed xs).map fun p =>
          let slot := destSlot d p.1.lane
          (⟨slot.1, p.1.lane, slot.2, p.2.place, z, .zero, some (p.1.va, con)⟩ : RdReq)
        .ok (s.launchLoad c.q d n reads (zerosFor d n failed) m.ord.acquires m.obs true)) s

/-- scs (R288, R290). -/
def execScs (h : Hdr) (wide : Bool) (m : MemX) (d a b : Opnd) (s : State) : Host.Outcome State Fault Refusal :=
  let z := if wide then 8 else 4
  issue h (fun _ => { uses := [.w1 d, .r2 a, .rw' wide b] })
    (fun c =>
      let xs := c.memAccs (c.writers false) a m.off z .scs false
      c.memWord xs fun s =>
        let ps := placed xs
        let helpers := c.act.filterMap fun l => if l.2.helper then some l.1 else none
        let (id, s) := s.queuedFlight c.q d 1 (zerosFor d 1 helpers) (!ps.isEmpty)
        .ok (if ps.isEmpty then s
          else s.enqueue c.q { SqEnt.plain (.scs wide (ps.map (c.atLane wide false d b false))) with
            rel := if m.ord.releases then some m.obs else none, flight := id })) s

/-! ## Lines -/

/-- The distinct lines that accesses name, in ascending lane order of first naming. -/
def distinctPlaces (ps : List (MAcc × Tr)) : List Place :=
  ps.foldl (fun l p => if l.any fun x => x.key.1 = p.2.place.key.1 && x.line = p.2.place.line then l else l ++ [p.2.place]) []

/-- A prefetch of one line (R269). A line of device memory without a token fills L1 when the token comes. A line of an HRO page has no
tokens: it comes to L1 and the die cache, or to the die cache; and it has no memory-side cache here. -/
def State.prefetch (s : State) (q : Sel) (var : CpfVar) (p : Place) : State :=
  match p with
  | .dev pa =>
    let line := pa / 64
    let x := s.dcLine q.stall line
    match var with
    | .l1 => if 1 ≤ x.t && x.v then s.fillL1 q line true
      else (s.modCore q.stall q.core fun k => { k with pf := if k.pf.contains line then k.pf else k.pf ++ [line] }).wantLine q.stall line false
    | .dc => if 1 ≤ x.t && x.v then s else s.wantLine q.stall line false
    | .ms => s
    | .dcw => if x.t = 64 then s else s.wantLine q.stall line true
  | .mgmt _ => s
  | p =>
    if p.hro then
      (match var with
        | .l1 => (s.putHro q.stall p.outLine (s.outBytes p)).modCore q.stall q.core fun k => k.keepHro p.outLine true (s.outBytes p)
        | .dc | .dcw => s.putHro q.stall p.outLine (s.outBytes p)
        | .ms => s)
    else s

/-- cpf (R269): no cause beyond the decode causes. -/
def execCpf (h : Hdr) (var : CpfVar) (off : BitVec 12) (a : Opnd) (s : State) : Host.Outcome State Fault Refusal :=
  issue h (fun _ => { uses := [.r2 a] })
    (fun c =>
      let xs := c.act.map fun l =>
        let va := c.memVa l.2 a off 64
        (⟨l.1, l.2, va, c.s.translate c.q.stall c.sq.sup va .read 1 l.1⟩ : MAcc)
      if xs.any fun x => x.waits then .raise (xs.filterMap fun x => if x.waits then x.cause.map fun e => (x.lane, e) else none) 0
      else .ok ((distinctPlaces (placed xs)).foldl (fun s p => s.prefetch c.q var p) (c.s.keepAll c.q xs))) s

/-- cwb and cinv (R269): a queue entry for each distinct line. -/
def lineWord (h : Hdr) (off : BitVec 12) (a : Opnd) (op : Place → SqOp) (s : State) : Host.Outcome State Fault Refusal :=
  issue h (fun _ => { uses := [.r2 a] })
    (fun c =>
      let xs := c.act.map fun l =>
        let va := c.memVa l.2 a off 64
        (⟨l.1, l.2, va, c.memLane l.1 va 1 .line false⟩ : MAcc)
      let gone := xs.filterMap fun x => if x.ln.helper then x.cause.map fun _ => x.lane else none
      c.memWord xs fun s =>
        let s := s.modSquad c.q fun q => q.dropLanes gone
        .ok ((distinctPlaces (placed xs)).foldl (fun s p => s.enqueue c.q (SqEnt.plain (op p))) s)) s

/-- cwb (R269). -/
def execCwb (h : Hdr) (off : BitVec 12) (a : Opnd) (s : State) : Host.Outcome State Fault Refusal :=
  lineWord h off a .cwb s

/-- cinv (R269). -/
def execCinv (h : Hdr) (dc : Bool) (off : BitVec 12) (a : Opnd) (s : State) : Host.Outcome State Fault Refusal :=
  lineWord h off a (fun p => .cinv p dc) s

/-! ## fence -/

/-- An acquire fence: it stands among the loads and reads nothing. -/
def State.acquireFence (s : State) (q : Sel) (obs : BitVec 6) : State := s.launchLoad q .zero 0 [] [] true obs true

/-- fence (R306, R307): an acquire stands among the loads, a release in the store queue; acquire-release stands in the queue
and holds later loads as well. -/
def execFence (h : Hdr) (kind : FenceKind) (obs : BitVec 6) (s : State) : Host.Outcome State Fault Refusal :=
  issue h (fun _ => { uses := [] })
    (fun c => match c.acting with
      | none => .ok c.s
      | some _ => .ok (match kind with
        | .acq => c.s.acquireFence c.q obs
        | .rel => c.s.enqueue c.q { SqEnt.plain (.fence false) with rel := some obs }
        | .ar => c.s.enqueue c.q { SqEnt.plain (.fence true) with rel := some obs, acq := some obs })) s

/-! ## Plain reads of a word's own unit -/

/-- What a plain read of n bytes waits for, if it waits: a token of device memory (R271), the stall's own posted write to the same memory
(R296), or for the management page, the stores before it (R249). -/
def Ctx.readWaits (c : Ctx) (p : Place) (n : Nat) : Option Nat :=
  let t := c.s.stall c.q.stall
  match p with
  | .dev pa => if !c.s.readableAt c.q.stall pa n then some (c.s.missCode c.q.stall pa n)
    else if (linesOf pa n).any (c.s.ownPosted c.q.stall) then some waitCode else none
  | .mgmt _ => if c.sq.sq.isEmpty && t.wbuf.isEmpty && t.posted.isEmpty then none else some waitCode
  | p => if t.postedTo p n then some waitCode else none

/-- n bytes as the squad's thread reads them at one point (R298): a user-mode read, or one of the squad's mode, aligned to z, its
own queued stores first; or the cause. -/
def Ctx.plainRead (c : Ctx) (sup : Bool) (va : DWord) (n z k : Nat) : Except Nat (List Byte) :=
  match c.s.translate c.q.stall sup va .read z k with
  | .error e => .error e
  | .ok t =>
    if (match t.place with
        | .dev pa => c.lostAt pa n
        | _ => false) then .error 0x2A
    else match c.readWaits t.place n with
    | some e => .error e
    | none => .ok (readBytes c.sq.sq c.s.nextId t.place.key.1 t.place.key.2 n fun i => c.s.placeByte c.q.stall t.place i)

/-- The copies of the lines of host or domain memory in a range leave the die cache and the core's L1 (R263, R264). -/
def State.dropOut (s : State) (q : Sel) (p : Place) (n : Nat) : State :=
  let s := (List.range ((p.key.2 % 64 + n + 63) / 64)).foldl (fun s i =>
    (s.modCore q.stall q.core fun k => { k with l1h := k.l1h.del (p.outLine + i) }).modStall q.stall fun t =>
      { t with hro := t.hro.del (p.outLine + i) }) s
  if p.key.1 = 3 && s.ownsExt p.key.2 then (linesOf (p.key.2 % 2 ^ 48) n).foldl (fun s l => s.dropL1 q l) s else s

/-- What a plain read leaves (R249, R258, R296): the translation is kept, its lines are read, and no older copy of them that a later load
might be served is held; a read of the management page is an acquire with every observer. -/
def State.readTouch (s : State) (q : Sel) (sup : Bool) (va : DWord) (n z k : Nat) : State :=
  match s.translate q.stall sup va .read z k with
  | .error _ => s
  | .ok t =>
    let s := s.keepTlb q.stall [t.ent]
    match t.place with
    | .dev pa => (linesOf pa n).foldl (fun s l => s.dropL1 q l) (s.takeReads q.stall (linesOf pa n))
    | .mgmt _ => s.acquireEffect q 0x3F
    | p => s.dropOut q p n

/-- A plain read of a word's unit: its address, its bytes, its alignment and its lane. -/
abbrev URead := DWord × Nat × Nat × Nat

/-- A word's effect with what its unit's reads leave. -/
def Ctx.touched (c : Ctx) (rs : List URead) : Res → Res
  | .ok s => .ok (rs.foldl (fun s r => s.readTouch c.q c.sq.sup r.1 r.2.1 r.2.2.1 r.2.2.2) s)
  | r => r

/-- Whether the squad's earlier reads are performed, and nothing but plain stores to memory waits in its queue: a texture or ray word
reads at its issue, after them (log 21). -/
def Ctx.readsDone (c : Ctx) : Bool := c.sq.asks.isEmpty && c.sq.flight.all (·.perf) && c.sq.sq.all fun e => e.acq.isNone && match e.op with
  | .store _ _ => true
  | _ => false

/-- What a helper lane's failed read does (R53): a cause from 0x20 to 0x3F writes zeros, and any other takes the lane away. -/
def helperZero (ln : Lane) (n : Nat) (r : Except Nat LaneOut) : Except Nat LaneOut :=
  match r with
  | .error e => if ln.helper && 0x20 ≤ e && e < 0x40 then .ok { ws := List.replicate n 0 } else .error e
  | .ok o => .ok o

end Machine

end Sys2Proof
end

