-- ==== Sys2Proof/Machine/Routes.lean ====
section
/-! DEFINITION. The geometry of the package: sites, edges, routes and detours (chapter 01, R13 to R20). -/

set_option Elab.async false

namespace Sys2Proof.Machine

open Sys2Proof

/-- Column and row of a site (R13). -/
def siteCol (n : Nat) : Nat := n % 9
/-- The row of a site. -/
def siteRow (n : Nat) : Nat := n / 9

/-- The edge between neighbouring sites of one row, given the western column (R14). -/
def horizEdge (c r : Nat) : Nat := 8 * r + c
/-- The edge between neighbouring sites of one column, given the northern row. -/
def vertEdge (c r : Nat) : Nat := 64 + 9 * r + c

/-- A bit of a 128-bit map (R14). -/
def mapBit (m : DWord × DWord) (i : Nat) : Bool := if i < 64 then m.1.getLsbD i else m.2.getLsbD (i - 64)

/-- Set or clear a bit of a map. -/
def setMapBit (m : DWord × DWord) (i : Nat) (v : Bool) : DWord × DWord :=
  if i < 64 then (setBit m.1 i v, m.2) else (m.1, setBit m.2 (i - 64) v)

/-- The columns stepped into between a and b, each with the western column of the edge crossed. -/
def stepsTo (a b : Nat) : List (Nat × Nat) :=
  if a < b then (List.range (b - a)).map fun i => (a + i + 1, a + i)
  else (List.range (a - b)).map fun i => (a - i - 1, a - i - 1)

/-- A leg in dimension order, column first: the sites entered and the edges crossed (R19). -/
def legSteps (a b : Nat) : List (Nat × Nat) :=
  (stepsTo (siteCol a) (siteCol b)).map (fun x => (9 * siteRow a + x.1, horizEdge x.2 (siteRow a)))
    ++ (stepsTo (siteRow a) (siteRow b)).map fun x => (9 * x.1 + siteCol b, vertEdge (siteCol b) x.2)

/-- Whether a path through the given sites crosses only sites that forward and edges that work (R19). Its two ends count as crossed
sites (log 52). -/
def State.pathOk (s : State) : List Nat → Bool
  | [] => true
  | [a] => mapBit s.fwd a
  | a :: b :: t => mapBit s.fwd a && a < 72 && b < 72
      && ((legSteps a b).all fun x => mapBit s.fwd x.1 && mapBit s.edge x.2) && State.pathOk s (b :: t)

/-- The waypoints of a route-table entry; none where the entry is not valid (R18). -/
def routePoints (e : DWord) : Option (List Nat) :=
  let n := field e 62 60
  if !e.getLsbD 63 || n = 7 then none else some ((List.range n).map fun i => field e (7 * i + 6) (7 * i))

/-- Whether a route of a stall passes R19 to a site. -/
def State.routeTo (s : State) (st route site : Nat) : Bool :=
  match routePoints (Tab.get 0 (s.stall st).routes route) with
  | none => false
  | some ws => s.pathOk (s.siteOf st :: ws ++ [site])

/-- Hops between sites. -/
def siteHops (a b : Nat) : Nat :=
  (max (siteCol a) (siteCol b) - min (siteCol a) (siteCol b)) + (max (siteRow a) (siteRow b) - min (siteRow a) (siteRow b))

/-- Waypoints as one number, which orders lists of one length. -/
def waypointCode (ws : List Nat) : Nat := ws.foldl (fun n w => n * 128 + w) 0

/-- A way so far: the site it has come to, its hops, and its waypoints, that site among them. -/
abbrev Way := Nat × Nat × List Nat

/-- The order of ways to a site: fewest waypoints, then fewest hops, then the lower site numbers. -/
def Way.cost (x : Way) (b : Nat) : Nat := x.2.2.length * 2 ^ 56 + (x.2.1 + siteHops x.1 b) * 2 ^ 42 + waypointCode x.2.2

/-- The ways with one waypoint more, to the sites that no way has come to yet. -/
def State.moreWays (s : State) (known last : List Way) : List Way :=
  ((List.range 72).filter fun w => !known.any fun x => x.1 = w).filterMap fun w =>
    (minBy (fun x => Way.cost x w) (last.filter fun x => s.pathOk [x.1, w])).map fun x =>
      (w, x.2.1 + siteHops x.1 w, x.2.2 ++ [w])

/-- Ways with at most n waypoints more than the last ones have. -/
def State.waysOn (s : State) : Nat → List Way → List Way → List Way
  | 0, known, _ => known
  | n + 1, known, last => let new := s.moreWays known last; State.waysOn s n (known ++ new) new

/-- The best way from a site to each site that six waypoints reach (R18), the fewest waypoints first. -/
def State.ways (s : State) (a : Nat) : List Way := s.waysOn 6 [(a, 0, [])] [(a, 0, [])]

/-- A detour to a site that route 0 does not reach: the fewest waypoints, six at most (R18), then the fewest hops, then the lower site
numbers (R20 leaves the choice open, log 14). -/
def State.detour (s : State) (a b : Nat) : Option (List Nat) :=
  (minBy (fun x => Way.cost x b) ((s.ways a).filter fun x => s.pathOk [x.1, b])).map (·.2.2)

/-- A route-table entry through waypoints (R18). -/
def wayWord (ws : List Nat) : DWord :=
  BitVec.ofNat 64 (2 ^ 63 + ws.length * 2 ^ 60 + ((List.range ws.length).map fun i => ws.getD i 0 * 2 ^ (7 * i)).foldl (· + ·) 0)

/-- Whether a path through the given sites crosses an edge. -/
def crossesEdge (edge : Nat) : List Nat → Bool
  | a :: b :: t => (legSteps a b).any (fun x => x.2 = edge) || crossesEdge edge (b :: t)
  | _ => false

/-- The waypoints with a detour put into every leg that does not pass R19; none where a leg has no detour. -/
def State.mendWay (s : State) (a : Nat) : List Nat → Option (List Nat)
  | [] => some []
  | w :: ws => match (if s.pathOk [a, w] then some [] else s.detour a w), State.mendWay s w ws with
    | some d, some r => some (d ++ w :: r)
    | _, _ => none

/-- The stalls in service whose sites a path from a stall through waypoints reaches under R19. -/
def State.reaches (s : State) (st : Nat) (ws : List Nat) : List Nat :=
  (List.range 64).filter fun d => (s.siteState d = 1 || s.siteState d = 2) && s.pathOk (s.siteOf st :: ws ++ [s.siteOf d])

/-- The waypoints of a route that a service flow rewrites: the old ones with detours put in and, at their end, waypoints more, or where six
do not suffice others from the source on; of all these the first that reaches the most of the stalls that the old route reached. None
where no route reaches one of them (log 14). -/
def State.rewritten (s : State) (st : Nat) (ws old : List Nat) : Option (List Nat) :=
  let a := s.siteOf st
  let kept := match s.mendWay a ws with
    | none => []
    | some w => (s.ways (w.getLast?.getD a)).map fun x => w ++ x.2.2
  let served (w : List Nat) : Nat := ((s.reaches st w).filter fun d => old.contains d).length
  match minBy (fun w => 64 - served w) ((kept ++ (s.ways a).map (·.2.2)).filter fun w => w.length ≤ 6) with
  | none => none
  | some w => if served w = 0 then (if old.isEmpty then kept.head? else none) else some w

/-- The entry of a route that a service flow rewrites, each of its waypoints renamed first: V = 0 where no route passes (R19, R468,
R474). `was` is the package before. -/
def State.mendRoute (s was : State) (st : Nat) (ren : Nat → Nat) (e : DWord) : DWord :=
  match routePoints e with
  | none => e
  | some ws => match s.rewritten st (ws.map ren) (was.reaches st ws) with
    | some w => if w.length ≤ 6 then wayWord w else 0
    | none => 0

/-- The neighbours of a site over working edges (R16). -/
def State.neighbours (s : State) (a : Nat) : List Nat :=
  (List.range 72).filter fun b => siteHops a b = 1 &&
    mapBit s.edge (if siteRow a = siteRow b then horizEdge (min (siteCol a) (siteCol b)) (siteRow a)
      else vertEdge (siteCol a) (min (siteRow a) (siteRow b)))

/-- The sites within n hops of a start, each with its distance: only sites that forward are passed, the start aside. -/
def State.reach (s : State) (start : Nat) : Nat → List (Nat × Nat)
  | 0 => [(start, 0)]
  | n + 1 =>
    let known := State.reach s start n
    let from' := known.filter fun x => x.2 = n && (x.1 = start || mapBit s.fwd x.1)
    let new := nub (from'.flatMap fun x => s.neighbours x.1)
    known ++ (new.filter fun b => !known.any fun x => x.1 = b).map fun b => (b, n + 1)

/-- The way that serves the most of some sites; of those the one with the fewest waypoints, then hops, then the lower site numbers
(log 14). -/
def State.sharedWay (s : State) (ways : List Way) (sites : List Nat) : Option (Way × List Nat) :=
  let known := (ways.map fun x => (x, sites.filter fun b => s.pathOk [x.1, b])).filter fun x => x.2 ≠ []
  minBy (fun x => (64 - x.2.length) * 2 ^ 64 + Way.cost x.1 (x.2.headD 0)) known

/-- The entry of a route table for a detour (R20): the free one with the highest number, else, where a service flow may, the highest one
that the array does not name. An entry with NWP = 7 acts as V = 0 and is free (log 14). -/
def detourEntry (routes : Tab DWord) (named : List Nat) (force : Bool) : Option Nat :=
  let unnamed := ((List.range 15).map fun i => 15 - i).filter fun r => !named.contains r
  match unnamed.find? fun r => routePoints (Tab.get 0 routes r) = none with
  | some r => some r
  | none => if force then unnamed.head? else none

/-- Detours for the destinations that route 0 does not reach, each a stall with its site: an entry for the way that serves the most of
them, until none is left. -/
def State.takeDetours (s : State) (ways : List Way) (force : Bool) : Nat → List (Nat × Nat) → Tab DWord → Tab Nat → Tab DWord × Tab Nat
  | 0, _, routes, names => (routes, names)
  | n + 1, dests, routes, names =>
    match s.sharedWay ways (dests.map (·.2)), detourEntry routes (names.map (·.2)) force with
    | some (x, on), some r =>
      let ds := dests.filter fun d => on.contains d.2
      State.takeDetours s ways force n (dests.filter fun d => !on.contains d.2) (routes.put r (wayWord x.2.2))
        (ds.foldl (fun t d => t.put d.1 r) names)
    | _, _ => (routes, names)

/-- Rewrite the default routes of a stall (R20): route 0 where it reaches, else a detour in a free entry from 15 downward,
shared under the same waypoints; entries that a service wrote and no destination names return to V = 0. `force` lets a service flow
take the highest-numbered entry not named where none is free. A stall that is unmapped or down, or that no way reaches, is named with
route 0 (log 14). -/
def State.fillRoutes (s : State) (st : Nat) (force : Bool) : State :=
  let t := s.stall st
  let mine := nub ((List.range 64).filterMap fun d => let r := Tab.get 0 t.defRoutes d; if r = 0 then none else some r)
  let clean := mine.foldl (fun tab r => Tab.set (0 : DWord) tab r 0) t.routes
  let dests := ((List.range 64).filter fun d => (s.siteState d = 1 || s.siteState d = 2)
    && !s.pathOk [s.siteOf st, s.siteOf d]).map fun d => (d, s.siteOf d)
  let (routes, names) := if dests.isEmpty then (clean, []) else s.takeDetours (s.ways (s.siteOf st)) force 15 dests clean []
  s.modStall st fun t => { t with routes := routes, defRoutes := names }

end Sys2Proof.Machine
end

