-- ==== Sys2Proof/Machine/Mesh.lean ====
section
/-! DEFINITION. Messages between cores and collectives (chapter 12). -/

set_option Elab.async false

namespace Sys2Proof.Machine

open Sys2Proof

/-! ## Mailboxes (R320 to R322) -/

/-- The declaration of a mailbox of a kernel. -/
def Kern.box (k : Kern) (m : Nat) : Option MboxDecl := k.mbox.find? fun d => d.num = m

/-- The NI's copy of a TAIL. -/
def Block.tail (b : Block) (m : Nat) : Word := Tab.get 0 b.tails m

/-- HEAD of a mailbox, as pad holds it. -/
def Block.mboxHead (b : Block) (d : MboxDecl) : Word := BitVec.ofNat 32 (b.pad.num d.base 4)

/-- The header of a message (R321). -/
def NiMsg.header (m : NiMsg) : List Byte :=
  leBytes 2 m.seq ++ leBytes 1 m.sstall ++ leBytes 1 m.score ++ leBytes 1 m.dstall ++ leBytes 1 m.dcore
    ++ leBytes 1 (m.mb + 16 * m.rt) ++ leBytes 1 m.lenm1
    ++ leBytes 1 ((if m.ret then 1 else 0) + (if m.fire then 2 else 0) + 4 * m.reason) ++ leBytes 1 m.armtag ++ [0, 0]
    ++ leBytes 4 m.user.toNat

/-- The pad offset of the payload that the next message of a mailbox takes. -/
def Block.nextPayload (b : Block) (d : MboxDecl) : Nat := d.base + 64 + 16 * d.ent + 256 * ((b.tail d.num).toNat % d.ent)

/-- Append a message (R322): the payload, the header, then TAIL. -/
def Block.append (b : Block) (d : MboxDecl) (m : NiMsg) : Block :=
  let slot := (b.tail d.num).toNat % d.ent
  let t := b.tail d.num + 1
  let b := b.writePad (b.nextPayload d) m.payload
  let b := b.writePad (d.base + 64 + 16 * slot) m.header
  let b := b.writePad (d.base + 4) (leBytes 4 t.toNat)
  { b with tails := b.tails.put d.num t }

/-- Whether a mailbox has no room (R322). -/
def Block.mboxFull (b : Block) (d : MboxDecl) : Bool := d.ent ≤ (b.tail d.num - b.mboxHead d).toNat

/-- The position of the block that holds the mailboxes of a core (R320). -/
def Core.holder (k : Core) : Option (Nat × Block) := List.find? (fun b => b.2.kern.mbox ≠ []) k.blocks

/-- A message goes back to its sender (R321). -/
def NiMsg.returned (m : NiMsg) (reason : Nat) : NiMsg := { m with ret := true, reason := reason }

/-- Put a message on the mesh. -/
def State.post (s : State) (m : Msg) : State := { s with net := s.net ++ [m] }

/-- The NI of a stall handles the next message of a source (R322, R327, R472): the entry of its logical core says where it
goes. It is held behind messages that are held. -/
def State.niHandle (s : State) (m : NiMsg) : State :=
  let st := m.dstall
  let t := s.stall st
  let e := Tab.get 0 t.crt m.dcore
  if e.getLsbD 14 || t.migbuf.any (fun x => x.dcore = m.dcore) then
    if t.migbuf.length < 64 then s.modStall st fun t => { t with migbuf := t.migbuf ++ [m] }
    else s.post (.ret (m.returned 4))
  else if !e.getLsbD 15 then s.post (.ret (m.returned 3))
  else
    let p := field e 5 0
    match (t.core p).holder with
    | none => s.post (.ret (m.returned 3))
    | some (pos, b) => match b.kern.box m.mb with
      | none => s.post (.ret (m.returned 2))
      | some d =>
        if b.mboxFull d then s.post (.ret (m.returned 1))
        else
          let off := b.nextPayload d
          let s := (s.modBlock ⟨st, p, pos⟩ fun b => b.append d m).post (.sendAck m)
          if m.fire then s.modStall st fun t => { t with
            fires := t.fires ++ [⟨p, m.armtag, m.mb, off, m.seq, (b.append d m).pad.rds off 256⟩] } else s

/-! ## Order at the receiver (R324, R325) -/

/-- The key of a source and a logical core of the receiving stall. -/
def NiMsg.srcKey (m : NiMsg) : Nat := (m.dcore * 64 + m.sstall) * 64 + m.score

/-- The expected number of a source. -/
def Stall.expects (t : Stall) (m : NiMsg) : Nat := Tab.get 0 t.expected m.srcKey

/-- Handle a message that is next, and then the held ones that have become next. -/
def State.niInOrder (s : State) (m : NiMsg) : Nat → State
  | 0 => s
  | n + 1 =>
    let s := (s.niHandle m).modStall m.dstall fun t => { t with expected := Tab.set 0 t.expected m.srcKey ((m.seq + 1) % 65536) }
    let t := s.stall m.dstall
    match t.early.find? fun x => x.srcKey = m.srcKey && x.seq = t.expects m with
    | none => s
    | some x =>
      State.niInOrder (s.modStall m.dstall fun t => { t with early := t.early.filter fun y => y ≠ x }) x n

/-- A message reaches its destination NI: handled if it is next, held if it is early. -/
def State.niArrive (s : State) (m : NiMsg) : State :=
  let t := s.stall m.dstall
  if m.seq = t.expects m then s.niInOrder m (t.early.length + 1)
  else s.modStall m.dstall fun t => { t with early := t.early ++ [m] }

/-- MESSAGE_ARRIVAL (R322). -/
def execMessageArrival (i : Nat) (s : State) : Host.Outcome State Fault Refusal :=
  match s.net[i]? with
  | some (.send m) => .next (State.niArrive { s with net := s.net.eraseIdx i } m)
  | _ => .next s

/-- MIGRATION_FORWARD (R472): a message whose logical core is migrating goes through the new entry, its SEQ unchanged. -/
def execMigrationForward (i : Nat) (s : State) : Host.Outcome State Fault Refusal :=
  match s.net[i]? with
  | some (.send m) =>
    if (Tab.get 0 (s.stall m.dstall).crt m.dcore).getLsbD 14 then
      .next (State.niArrive { s with net := s.net.eraseIdx i } m)
    else .next s
  | _ => .next s

/-- Update the block that sent a message, if it is still where it was. -/
def State.modSender (s : State) (m : NiMsg) (f : Block → Block) : State :=
  s.modBlock ⟨m.sstall, m.spcore, m.spos⟩ fun b => if b.launch = m.slaunch && b.index = m.sindex then f b else b

/-- MESSAGE_ACK (R326). -/
def execMessageAck (i : Nat) (s : State) : Host.Outcome State Fault Refusal :=
  match s.net[i]? with
  | some (.sendAck m) =>
    .next ((State.modSender { s with net := s.net.eraseIdx i } m fun b => { b with inflight := b.inflight - 1 }))
  | _ => .next s

/-- RETURNED_MESSAGE (R322, R326): appended to mailbox 15 of the sender, whose space its credit reserved. -/
def execReturnedMessage (i : Nat) (s : State) : Host.Outcome State Fault Refusal :=
  match s.net[i]? with
  | some (.ret m) =>
    .next ((State.modSender { s with net := s.net.eraseIdx i } m fun b =>
      let b := match b.kern.box 15 with
        | none => b
        | some d => b.append d m
      { b with inflight := b.inflight - 1 }))
  | _ => .next s

/-- Deliver the messages of a logical core that the migration buffer holds, in SEQ order per source (R327). -/
def State.releaseHeld (s : State) (st core : Nat) : State :=
  let t := s.stall st
  if (Tab.get 0 t.crt core).getLsbD 14 then s
  else
    let mine := t.migbuf.filter fun m => m.dcore = core
    let s := s.modStall st fun t => { t with migbuf := t.migbuf.filter fun m => m.dcore ≠ core }
    mine.foldl (fun s m => s.niHandle m) s

/-! ## send (R329 to R331) -/

/-- Free return credits of a block (R326). -/
def Block.credits (b : Block) : Int :=
  match b.kern.box 15 with
  | none => 0
  | some d => (d.ent : Int) - ((b.tail 15 - b.mboxHead d).toNat : Int) - (b.inflight : Int)

/-- MSPILL accepts messages (R325). -/
def Stall.mspillOk (t : Stall) : Bool := t.mspill.getLsbD 0 && 208 ≤ field t.mspill 63 56

/-- The 0x51 of send (R330). -/
def State.routeInvalid (s : State) (st : Nat) (k : Kern) (mbox dcore dstall route : Nat) : Bool :=
  mbox = 15 || 47 < dcore || s.siteState dstall = 0 || s.siteState dstall = 3 || !(s.stall dstall).mspillOk
    || (route ≠ 0 && !k.routes.testBit route) || !s.routeTo st route (s.siteOf dstall)

/-- Whether every earlier access of a squad has been performed, as a release with C and D requires (R331). -/
def State.squadQuiet (s : State) (q : Sel) : Bool :=
  match s.squad? q with
  | none => true
  | some sq => sq.asks.isEmpty && sq.sq.isEmpty && sq.flight.all (·.perf) && (s.stall q.stall).wbuf.isEmpty

/-- The message of a send. -/
def Ctx.message (c : Ctx) (a b : DWord) (seq : Nat) : NiMsg where
  seq := seq
  sstall := c.q.stall
  score := c.blk.lcore
  dstall := field a 5 0
  dcore := field a 11 6
  mb := field a 17 14
  rt := field a 21 18
  lenm1 := field a 29 22
  ret := false
  fire := a.getLsbD 30
  reason := 0
  armtag := field a 58 51
  user := lo32 b
  payload := c.blk.pad.rds (field a 50 32) (field a 29 22 + 1)
  spcore := c.q.core
  spos := c.q.pos
  slaunch := c.blk.launch
  sindex := c.blk.index

/-- The key of a sender's counter (R324). -/
def NiMsg.dstKey (m : NiMsg) : Nat := (m.score * 64 + m.dstall) * 64 + m.dcore

/-- The cause of a send's descriptor (R330). -/
def Ctx.sendCause (c : Ctx) (a : DWord) : Option Nat :=
  if field a 13 12 ≠ 0 || field a 63 59 ≠ 0 || (field a 58 51 ≠ 0 && !a.getLsbD 30) then some 0x02
  else if field a 50 32 % 4 ≠ 0 then some 0x20
  else if c.blk.kern.pad < field a 50 32 + field a 29 22 + 1 then some 0x26
  else if c.s.routeInvalid c.q.stall c.blk.kern (field a 17 14) (field a 11 6) (field a 5 0) (field a 21 18) then some 0x51
  else none

/-- The sends of other squads of a block that wait with a credit (R330). -/
def Block.creditsHeld (b : Block) (slot : Nat) : Nat :=
  (b.squads.filter fun x => x.1 ≠ slot && x.2.park = .slot true).length

/-- Whether the squad waits with a credit (R330). -/
def State.hasCredit (s : State) : Bool :=
  match s.squad? s.cur with
  | some x => x.park = .slot true
  | none => false

/-- What a send meets when it takes its return credit (R326): it has one, it holds its issue slot, or it raises 0x50. -/
def Ctx.takeCredit (c : Ctx) (had : Bool) : Option Res :=
  let held := c.blk.creditsHeld c.q.slot
  if had || (held : Int) < c.blk.credits then none
  else if c.blk.inflight ≠ 0 || held ≠ 0 then some .hold
  else some (.raise [((c.real.map (·.1)).getD 0, 0x50)] 0)

/-- send (R329, R330). -/
def execSend (h : Hdr) (d a b : Opnd) (s : State) : Host.Outcome State Fault Refusal :=
  issue h (fun _ => { uses := [.w1 d, .r2 a, .r b], bad := !a.isSca || !b.scaOrZero })
    (fun c => match c.real with
      | none => .ok c.s
      | some (l, ln) =>
        let x := c.rd64 ln a
        match c.sendCause x with
        | some e => .raise [(l, e)] 0
        | none =>
          match c.takeCredit s.hasCredit with
          | some r => r
          | none =>
            if x.getLsbD 31 && !c.s.squadQuiet c.q then (if c.sq.asks.isEmpty then .holdCredit else .park .answer)
            else
            let m := c.message x ((c.rd l ln b).zeroExtend 64) 0
            let seq := Tab.get 0 (c.s.stall c.q.stall).sendSeq m.dstKey
            let s := (c.s.modBlock c.q.blk fun k => { k with inflight := k.inflight + 1 }).modStall c.q.stall fun t =>
              { t with sendSeq := Tab.set 0 t.sendSeq m.dstKey ((seq + 1) % 65536) }
            .ok (c.writeAll (s.post (.send { m with seq := seq })) d [BitVec.ofNat 32 seq])) s

/-- mbadv (R332): one step in pad order; a vector B gives the value of the lowest active lane. -/
def execMbadv (h : Hdr) (mb : BitVec 4) (d : Opnd) (b : RI) (s : State) : Host.Outcome State Fault Refusal :=
  issue h (fun c => { uses := .w1 d :: riUse false b, bad := (c.blk.kern.box mb.toNat).isNone, reduce := true })
    (fun c => match c.act.head?, c.blk.kern.box mb.toNat with
      | some (l, ln), some dcl =>
        let n := (c.rdN l ln b).toNat
        let hd := c.blk.mboxHead dcl
        let k := min n (c.blk.tail mb.toNat - hd).toNat
        let s := c.s.modBlock c.q.blk fun x => x.writePad dcl.base (leBytes 4 (hd.toNat + k))
        .ok (c.writeAll s d [BitVec.ofNat 32 k])
      | _, _ => .ok c.s) s

/-! ## Collectives (R333 to R339) -/

/-- A field of a group table entry (R333). -/
def Stall.grp (t : Stall) (g o n : Nat) : Nat := t.coll.num (32 * g + o) n

/-- V of an entry. -/
def Stall.grpValid (t : Stall) (g : Nat) : Bool := t.grp g 14 1 % 2 = 1

/-- LMASK. -/
def Stall.grpMask (t : Stall) (g : Nat) : DWord := BitVec.ofNat 64 (t.grp g 0 8)

/-- SIZE of a group. -/
def Stall.grpSize (t : Stall) (g : Nat) : Nat := popMask (t.grpMask g) * t.grp g 8 2

/-- The rank of a member. -/
def Stall.grpRank (t : Stall) (g st : Nat) : Nat :=
  t.grp g 10 2 * popMask (t.grpMask g) + ((bitsOf (t.grpMask g)).filter fun i => i < st).length

/-- A collective card (R334). -/
structure CollCard where
  src : DWord
  dst : DWord
  count : Nat
  op : Nat
  ty : Nat
  anch : Int
  group : Nat
  tag : Nat
  root : Nat
  clean : Bool
deriving DecidableEq, Repr

/-- Read a card from its 64 bytes. -/
def CollCard.of (bs : List Byte) : CollCard :=
  let n (o k : Nat) : Nat := sliceNum bs o k
  { src := BitVec.ofNat 64 (n 0 8), dst := BitVec.ofNat 64 (n 8 8), count := n 16 4, op := n 20 1, ty := n 21 1
    anch := (BitVec.ofNat 16 (n 22 2)).toInt, group := n 24 1, tag := n 25 1, root := n 26 2
    clean := n 28 4 = 0 && n 48 16 = 0 }

/-- Bytes of an element of a collective. -/
def CollCard.size (c : CollCard) : Nat := if c.ty = 0xA then 4 else if c.ty = 0x9 then 2 else 1

/-- Elements read by a member (R334). -/
def CollCard.reads (c : CollCard) (size : Nat) : Nat := if c.op = 3 then c.count * size else c.count

/-- Elements written by the member of a rank. -/
def CollCard.writes (c : CollCard) (size rank : Nat) : Nat :=
  match c.op with
  | 0 => if rank = c.root then c.count else 0
  | 2 => c.count * size
  | _ => c.count

/-- Bytes of n elements with their scales. -/
def CollCard.bytes (c : CollCard) (n : Nat) : Nat := n * c.size + if c.ty = 0xF then n / 32 else 0

/-- A breach of R196 by a side. -/
def collSideBad (d : DWord) : Bool := field d 63 56 ≠ 0 || 1 < field d 55 52 || (field d 55 52 = 1 && 2 ^ 32 ≤ field d 51 0)

/-- The 0x52 of a card at a stall (R339). -/
def CollCard.bad (c : CollCard) (t : Stall) (st : Nat) : Bool :=
  !c.clean || collSideBad c.src || collSideBad c.dst || c.count = 0 || 2 ^ 24 < c.count || (c.ty = 0xF && c.count % 32 ≠ 0)
    || 3 < c.op || (c.ty ≠ 0xA && c.ty ≠ 0x9 && c.ty ≠ 0xF) || c.anch < -256 || 255 < c.anch || 63 < c.group || 63 < c.tag
    || (c.op ≠ 0 && c.root ≠ 0) || !t.grpValid c.group || !(t.grpMask c.group).getLsbD st || t.grpSize c.group ≤ c.root

/-- A side of a card. -/
def collEnd (d : DWord) (b : BSel) : End := if field d 55 52 = 1 then .pad b else .va

/-- Whether a KIND 1 extent reaches beyond the allotment. -/
def collBeyond (d : DWord) (pad n : Nat) : Bool := field d 55 52 = 1 && pad < field d 51 0 + n

/-- The region of a side. -/
def State.collRegion (s : State) (d : DWord) (b : BSel) (n : Nat) : Region :=
  if field d 55 52 = 1 then ⟨1, s.ownerOf b, field d 51 0, n⟩ else ⟨0, (0, 0), field d 51 0, n⟩

/-- coll (R339). Its card names no route (R334), so it checks no path and raises no 0x51 (R19, R468; log 14). -/
def execColl (h : Hdr) (a : Opnd) (s : State) : Host.Outcome State Fault Refusal :=
  issue h (fun _ => { uses := [.r a], bad := !a.isSca })
    (fun c => match c.real with
      | none => .ok c.s
      | some (l, ln) =>
        let off := (c.rd l ln a).toNat
        let b := c.q.blk
        let t := c.s.stall b.stall
        let bytes := c.blk.pad.rds off 64
        let cd := CollCard.of bytes
        let size := t.grpSize cd.group
        let rank := t.grpRank cd.group b.stall
        let rb := cd.bytes (cd.reads size)
        let wb := cd.bytes (cd.writes size rank)
        if off % 64 ≠ 0 then .raise [(l, 0x20)] 0
        else if c.blk.kern.pad < off + 64 || collBeyond cd.src c.blk.kern.pad rb || collBeyond cd.dst c.blk.kern.pad wb then
          .raise [(l, 0x26)] 0
        else if hitsBad c.blk.padBad off 64 then .raise [(l, 0x2B)] 0
        else if cd.bad t b.stall then .raise [(l, 0x52)] 0
        else if c.blk.tagsBusy.getLsbD cd.tag then .raise [(l, 0x44)] 0
        else if !t.cardRoom then .hold
        else
          let cseq := t.grp cd.group 16 4
          let (id, s) := c.s.enterCard b.stall (cardPlace b.core c.q.islot) [c.s.collRegion cd.src b rb]
            [c.s.collRegion cd.dst b wb, ⟨1, c.s.ownerOf b, off + 32, 16⟩]
          let s := s.modBlock b fun k => k.tagTake cd.tag
          .ok (s.modStall b.stall fun t => { t with
            coll := t.coll.wrs (32 * cd.group + 16) (leBytes 4 (cseq + 1))
            colls := t.colls ++ [⟨cd.group, cseq, b.core, b.pos, c.q.slot, c.blk.launch, c.blk.index, bytes, off, c.sq.pc, id, id, [], none⟩] })) s

/-! ### The sum (R336) -/

/-- What one output element sums to: the value, and NV, WOV, NX. -/
def collSum (anch : Int) (xs : List Num) : Num × Bool × Bool × Bool :=
  let q : Int := anch - 158
  if xs.any Num.isNan || (xs.any (fun x => x.isInf && x.isNeg) && xs.any fun x => x.isInf && !x.isNeg) then
    (.nan false, true, false, false)
  else match xs.find? Num.isInf with
    | some x => (x, false, false, false)
    | none =>
      let part (x : Num) : Int × Bool × Bool := match x with
        | .fin g n d =>
          let k := floorScale n d q
          let exact : Bool := if 0 ≤ q then decide (k * (d * 2 ^ q.toNat) = n) else decide (k * d = n * 2 ^ (-q).toNat)
          if 2 ^ 159 - 1 < k then (sgn g (2 ^ 159 - 1), !exact, true) else (sgn g k, !exact, false)
        | _ => (0, false, false)
      let ps := xs.map part
      let s := (ps.map (·.1)).foldl (· + ·) 0
      let nx := ps.any fun p => p.2.1
      let wov := ps.any fun p => p.2.2
      if 2 ^ 159 - 1 < s then (.scaled (2 ^ 159 - 1) q, false, true, nx)
      else if s < -2 ^ 159 then (.scaled (-2 ^ 159) q, false, true, nx)
      else (.scaled s q, false, wov, nx)

/-- FLAGS (R335). -/
def collFlags (nv wov nx : Bool) (f : Fl) : Nat :=
  (if nv || f.nv then 1 else 0) + (if f.ovf then 2 else 0) + (if wov then 4 else 0) + (if nx || f.nx then 8 else 0)
    + (if f.uf then 16 else 0)

/-- The contribution of a member to element k of n: the value its bytes hold. -/
def CollCard.value (c : CollCard) (n : Nat) (bs : List Byte) (k : Nat) : Num :=
  match c.ty with
  | 0xF => mxValue (sliceNum bs (n + k / 32) 1) (sliceNum bs k 1)
  | 0x9 => FF.bf16.read (sliceNum bs (2 * k) 2)
  | _ => FF.f32.read (sliceNum bs (4 * k) 4)

/-- The outputs of n sums: their bytes, with scales behind them for mx8, and FLAGS. -/
def CollCard.outputs (c : CollCard) (n : Nat) (sums : Nat → Num × Bool × Bool × Bool) : List Byte × Nat :=
  let ss := (List.range n).map sums
  let base := ss.foldl (fun f x => f ||| collFlags x.2.1 x.2.2.1 x.2.2.2 Fl.none) 0
  if c.ty = 0xF then
    let blocks := (List.range (n / 32)).map fun j =>
      mxBlock .rne ((List.range 32).map fun i => (ss.getD (32 * j + i) (.zero, false, false, false)).1) (List.replicate 32 0)
    (blocks.flatMap (fun b => b.2.1.flatMap (leBytes 1)) ++ blocks.flatMap fun b => leBytes 1 b.1,
     blocks.foldl (fun f b => f ||| collFlags false false false b.2.2) base)
  else
    let ff : FF := if c.ty = 0x9 then .bf16 else .f32
    let outs := ss.map fun x => ff.ofNum .rne true 0 x.1
    (outs.flatMap fun o => leBytes c.size o.1, outs.foldl (fun f o => f ||| collFlags false false false o.2) base)

/-! ### The rendezvous (R337) -/

/-- The job of a stall in a collective. -/
def Stall.collJob (t : Stall) (g cseq : Nat) : Option CollJob :=
  t.colls.find? fun j => j.grp = g && j.cseq = cseq && j.result.isNone

/-- The pending jobs of an entry at every stall of the package. -/
def State.collPending (s : State) (g : Nat) : List (Nat × CollJob) :=
  s.stalls.flatMap fun (n, t) => (t.colls.filter fun j => j.grp = g && j.result.isNone).map fun j => (n, j)

/-- Set the result of a stall's job. -/
def State.collResult (s : State) (st g cseq : Nat) (r : Nat × Nat) : State :=
  s.modStall st fun t => { t with colls := t.colls.map fun j =>
    if j.grp = g && j.cseq = cseq && j.result.isNone then { j with result := some r } else j }

/-- What matching members agree on (R337). -/
def CollCard.key (c : CollCard) : Nat × Nat × Nat × Int × Nat := (c.op, c.ty, c.count, c.anch, c.root)

/-- Bytes that a member reads (R334). -/
def CollJob.toRead (j : CollJob) (t : Stall) : Nat :=
  let c := CollCard.of j.card
  c.bytes (c.reads (t.grpSize c.group))

/-- The next piece of a member's source, within a line: its address and length. -/
def CollJob.piece (j : CollJob) (t : Stall) : Nat × Nat :=
  let a := field (CollCard.of j.card).src 51 0
  let lo := a + j.got.length
  (lo, min (a + j.toRead t) (lo / 64 * 64 + 64) - lo)

/-- The next piece of a member's source, or what keeps it from being read. -/
def State.collRead (s : State) (st : Nat) (j : CollJob) : Except Nat (List Byte) :=
  let x := j.piece (s.stall st)
  s.jobRead st false (collEnd (CollCard.of j.card).src ⟨st, j.core, j.pos⟩) (x.1 : Int) x.2 0

/-- The lines of a member's destination, with their places, or the cause. -/
def State.collPlaces (s : State) (st : Nat) (j : CollJob) (n : Nat) : Except Nat (List (Nat × Nat × Option Place)) :=
  let d := (CollCard.of j.card).dst
  (linesOf (field d 51 0) n).foldl (fun acc l => match acc with
    | .error c => .error c
    | .ok ps =>
      let lo := max (field d 51 0) (64 * l)
      let hi := min (field d 51 0 + n) (64 * l + 64)
      match s.jobPlace st false (collEnd d ⟨st, j.core, j.pos⟩) (lo : Int) 1 with
      | .error c => .error c
      | .ok p => .ok (ps ++ [(lo, hi - lo, p)])) (.ok [])

/-- The squad that issued a job. -/
def CollJob.sel (j : CollJob) (st : Nat) : Sel := ⟨st, j.core, j.pos, j.slot⟩

/-- Whether a member may access its data: its card waits for no edge, and its squad's stores have drained (R309, R338). -/
def State.collMay (s : State) (st : Nat) (j : CollJob) : Bool :=
  (s.stall st).cardMay j.cardId && s.squadDrained (j.sel st) j.after false

/-- A member reads its source, piece by piece, as far as it can, and asks for the line that it waits for (R274). -/
def State.collGather (s : State) (st : Nat) (j : CollJob) : Nat → State
  | 0 => s
  | n + 1 =>
    if j.toRead (s.stall st) ≤ j.got.length then s
    else match s.collRead st j with
      | .error c => s.askFor st c
      | .ok bs =>
        let x := j.piece (s.stall st)
        let j' := { j with got := j.got ++ bs }
        State.collGather ((s.jobTouch st false (collEnd (CollCard.of j.card).src ⟨st, j.core, j.pos⟩) (x.1 : Int) .read x.2 0).modStall st
          fun t => { t with colls := t.colls.map fun y => if y = j then j' else y }) st j' n

/-- Write a member's destination. -/
def State.collWrite (s : State) (st : Nat) (j : CollJob) (out : List Byte) : State :=
  let d := (CollCard.of j.card).dst
  let e := collEnd d ⟨st, j.core, j.pos⟩
  match s.collPlaces st j out.length with
  | .error _ => s
  | .ok ps => ps.foldl (fun s p =>
      (s.jobTouch st false e (p.1 : Int) .write p.2.1 1).jobWrite st (some (j.sel st)) e p.2.2 (p.1 : Int)
        (sliceBytes out (p.1 - field d 51 0) p.2.1)) s

/-- The cause of a member's own data access, or that it has some to make still. -/
def State.collCause (s : State) (st : Nat) (j : CollJob) : Option Nat :=
  let c := CollCard.of j.card
  let t := s.stall st
  let size := t.grpSize c.group
  if j.got.length < j.toRead t then (match s.collRead st j with
    | .error e => some e
    | .ok _ => some waitCode)
  else match s.collPlaces st j (c.bytes (c.writes size (t.grpRank c.group st))) with
    | .error e => some e
    | .ok _ => none

/-- A member whose own data access fails stops its block (R337): the job leaves, and its card stays until the block resumes. -/
def State.collFault (s : State) (st : Nat) (j : CollJob) (cause : Nat) : State :=
  let s := s.modStall st fun t => { t with colls := t.colls.filter fun x => x ≠ j }
  s.modBlock ⟨st, j.core, j.pos⟩ fun b => { b with halt := { b.halt with
    pendJob := b.halt.pendJob ++ [⟨cause, 3, (CollCard.of j.card).tag, 0, 0, 0, j.pc, j.cardId⟩] } }

/-- Bytes that the members of other packages contribute: free values (log 6). -/
def freeBytes (k n : Nat) : List Byte := (List.range n).map fun i => (Config.freeWord (k + i)).extractLsb' 0 8

/-- The bytes that every member contributes, by rank: those of this package as read, those of other packages free. -/
def State.collData (s : State) (c : CollCard) (t : Stall) (ms : List (Nat × CollJob)) : List (List Byte) :=
  let size := t.grpSize c.group
  let n := c.bytes (c.reads size)
  (List.range size).map fun r =>
    match ms.find? fun m => t.grpRank c.group m.1 = r with
    | some m => m.2.got
    | none => freeBytes (s.free + 1 + r * n) n

/-- The bytes the member of a rank receives, and FLAGS: one result for every member (R336). -/
def CollCard.result (c : CollCard) (size : Nat) (data : List (List Byte)) (rank : Nat) : List Byte × Nat :=
  let z := c.size
  match c.op with
  | 2 =>
    let sc := c.count / 32
    (data.flatMap (fun bs => sliceBytes bs 0 (c.count * z))
      ++ (if c.ty = 0xF then data.flatMap fun bs => sliceBytes bs (c.count * z) sc else []), 0)
  | _ =>
    let n := c.reads size
    let all := c.outputs n fun k => collSum c.anch (data.map fun bs => c.value n bs k)
    match c.op with
    | 3 => (sliceBytes all.1 (rank * c.count * z) (c.count * z)
        ++ (if c.ty = 0xF then sliceBytes all.1 (n * z + rank * c.count / 32) (c.count / 32) else []), all.2)
    | 0 => if rank = c.root then all else ([], all.2)
    | _ => all

/-- Every member of a matched collective has its destination written. -/
def State.collDeliver (s : State) (c : CollCard) (t : Stall) (ms : List (Nat × CollJob)) : State :=
  let size := t.grpSize c.group
  let data := s.collData c t ms
  let s' := ms.foldl (fun s' m =>
    let r := c.result size data ((s.stall m.1).grpRank c.group m.1)
    (s'.collWrite m.1 m.2 r.1).collResult m.1 m.2.grp m.2.cseq (0, r.2)) s
  if t.grp c.group 8 2 = 1 then s' else s'.spend (1 + size * c.bytes (c.reads size))

/-- The members of a pending collective in this package, as the stall that issued a job knows them. -/
def State.collMembers (s : State) (st g : Nat) : List Nat := bitsOf ((s.stall st).grpMask g)

/-- The jobs of the members for the same collective of an entry. -/
def State.collPeers (s : State) (st : Nat) (j : CollJob) : List (Nat × CollJob) :=
  (s.collMembers st j.grp).filterMap fun m => ((s.stall m).collJob j.grp j.cseq).map fun x => (m, x)

/-- Whether a member of a pending collective has its entry with V clear, or has had the collective aborted. -/
def State.collBroken (s : State) (st : Nat) (j : CollJob) : Bool := (s.collMembers st j.grp).any fun m =>
  !(s.stall m).grpValid j.grp || (s.stall m).dead.contains (j.grp, j.cseq)

/-- Whether a pending collective can be settled: an entry is cleared, or every member has issued it and may access its data. -/
def State.collReady (s : State) (x : Nat × CollJob) : Bool :=
  let ms := s.collPeers x.1 x.2
  s.collBroken x.1 x.2 || (ms.length = (s.collMembers x.1 x.2.grp).length
    && ms.all fun m => s.collMay m.1 m.2 && !(s.collCause m.1 m.2).any isWait)

/-- The members of a collective end with STATUS 0x52 and ABORT. -/
def State.collAbort (s : State) (ms : List (Nat × CollJob)) : State :=
  ms.foldl (fun s m => s.collResult m.1 m.2.grp m.2.cseq (0x52, 32)) s

/-- A pending collective is settled (R337). Whether the other packages of a group agree is a free choice (log 6). -/
def State.collSettle (s : State) (st : Nat) (j : CollJob) : State :=
  let t := s.stall st
  let ms := s.collPeers st j
  let c := CollCard.of j.card
  if s.collBroken st j then s.collAbort ms
  else
    let many : Bool := t.grp j.grp 8 2 ≠ 1
    let agree := (ms.all fun m => (CollCard.of m.2.card).key = c.key) && (!many || Config.freeBool s.free)
    let s := if many then s.spend 1 else s
    if !agree then s.collAbort ms
    else match ms.find? fun m => (s.collCause m.1 m.2).isSome with
      | some _ => ms.foldl (fun s' m => match s.collCause m.1 m.2 with
          | some e => s'.collFault m.1 m.2 e
          | none => s'.collAbort [m]) s
      | none => s.collDeliver c t ms

/-- The members of the pending collectives of an entry read their sources, and ask for what the places of their destinations wait for. -/
def State.collAdvance (s : State) (grp : Nat) : State :=
  (s.collPending grp).foldl (fun s x =>
    if !s.collMay x.1 x.2 then s
    else if x.2.toRead (s.stall x.1) ≤ x.2.got.length then (match s.collCause x.1 x.2 with
      | some c => s.askFor x.1 c
      | none => s)
    else s.collGather x.1 x.2 (x.2.toRead (s.stall x.1))) s

/-- COLLECTIVE_RENDEZVOUS (R337): the members read their sources; then their k-th collectives on an entry meet: the one of the lowest CSEQ
among those that can be settled, whose destinations are written at this point (log 32). -/
def execCollectiveRendezvous (grp : Nat) (s : State) : Host.Outcome State Fault Refusal :=
  let s := s.collAdvance grp
  .next (match minBy (fun x => x.2.cseq) ((s.collPending grp).filter s.collReady) with
    | none => s
    | some x => s.collSettle x.1 x.2)

/-- The completion record's bytes (R335). -/
def collRecord (status flags cseq size rank : Nat) : List Byte :=
  leBytes 2 status ++ leBytes 1 flags ++ [0] ++ leBytes 4 cseq ++ leBytes 4 size ++ leBytes 4 rank

/-- COLLECTIVE_COMPLETE (R338): REC, then the tag; the collectives of one entry complete in CSEQ order. -/
def execCollectiveComplete (st i : Nat) (s : State) : Host.Outcome State Fault Refusal :=
  let t := s.stall st
  match t.colls[i]? with
  | none => .next s
  | some j => match j.result with
    | none => .next s
    | some (status, flags) =>
      if (t.colls.take i).any fun x => x.grp = j.grp then .next s
      else
        let b : BSel := ⟨st, j.core, j.pos⟩
        let s := s.modBlock b fun k =>
          (k.writePad (j.off + 32) (collRecord status flags j.cseq (t.grpSize j.grp) (t.grpRank j.grp st))).tagDone (CollCard.of j.card).tag
        let s := s.modStall st fun t => { t with colls := t.colls.eraseIdx i }
        .next ((s.leaveCard st j.cardId).reap b)

end Sys2Proof.Machine
end

