-- ==== Sys2Proof/Machine/Matrix.lean ====
section
/-! DEFINITION. The matrix engine (chapter 08, R212 to R248). -/

set_option Elab.async false

namespace Sys2Proof.Machine

open Sys2Proof

/-! ## Formats, planes and patterns -/

/-- The class of a format code (R212): 0 16-bit float, 1 8-bit float, 2 MX, 3 integer. -/
def mxClass (f : Nat) : Option Nat :=
  match f with
  | 0x8 => some 0
  | 0x9 => some 0
  | 0xC => some 1
  | 0xD => some 1
  | 0xE => some 1
  | 0xF => some 2
  | 0x0 => some 3
  | _ => none

/-- Bytes of an element of a matrix format. -/
def mxSize (f : Nat) : Nat := if mxClass f = some 0 then 2 else 1

/-- Depth of a column (R212). -/
def mxKmax (f : Nat) : Nat := if mxClass f = some 0 then 128 else 256

/-- The value of a stored element of a floating-point class. -/
def mxNum (f v : Nat) : Num := (TyCode.ofBits (BitVec.ofNat 4 f)).ff.read v

/-- An invalid plane. -/
def Plane.none : Plane := ⟨false, 0, 0, 0, [], []⟩

/-- The engine of a block that becomes resident (R213), with MQB from the header; a block without one reads 0. -/
def Engine.start (mqb : Word) : Engine where
  mqb := mqb
  mqh := 0
  mqt := 0
  mxs := 0
  active := .none
  shadow := .none
  act1 := false
  joined := false
  gseq := 0
  queued := []
  run := []
  waitFrom := .none
  waited := 0
  dispatched := .none

/-- mix32 (R228). -/
def mix32 (x : BitVec 32) : BitVec 32 :=
  let x := x ^^^ (x >>> 16)
  let x := x * 0x7FEB352D
  let x := x ^^^ (x >>> 15)
  let x := x * 0x846CA68B
  x ^^^ (x >>> 16)

/-- The eight-bit values with n bits set, ascending. -/
def maskList (n : Nat) : List Nat := (List.range 256).filter fun v => ((List.range 8).filter fun i => v.testBit i).length = n

/-- The mask of column n, group g of a sparse plane (R228). -/
def patternMask (den seed n g : Nat) : Nat :=
  let l := maskList (if den = 1 then 4 else 2)
  l.getD ((mix32 (BitVec.ofNat 32 seed ^^^ BitVec.ofNat 32 (n * 65536) ^^^ BitVec.ofNat 32 g)).toNat % l.length) 0

/-- Logical K positions of a plane (R228). -/
def Plane.kl (p : Plane) : Nat := mxKmax p.fmt * 2 ^ p.den

/-- The kept positions of column n in ascending order; the packed index of a position is its index here (R228). -/
def Plane.kept (p : Plane) (n : Nat) : List Nat :=
  if p.den = 0 then List.range p.kl
  else (List.range (p.kl / 8)).flatMap fun g =>
    ((List.range 8).filter fun i => (patternMask p.den p.seed n g).testBit i).map (8 * g + ·)

/-- The stored code at packed index k of column n. -/
def Plane.code (p : Plane) (n k : Nat) : Nat := p.data.num ((64 * k + n) * mxSize p.fmt) (mxSize p.fmt)

/-- NaN, NaR or infinite. -/
def nonFinite (v : Num) : Bool := v.isNan || v.isInf

/-- NF(j, q) of a plane that is loaded: a stored value whose position lies in group j and whose column lies in 8q to 8q + 7 is not
finite (R226). -/
def Plane.notFinite (p : Plane) (j q : Nat) : Bool :=
  let kk := 8 / 2 ^ p.den
  mxClass p.fmt ≠ some 3 && (List.range kk).any fun i => (List.range 8).any fun c =>
    nonFinite (mxNum p.fmt (p.code (8 * q + c) (kk * j + i)))

/-- A plane with the NF bits of its stored values: 128 groups of positions at most (R225, R226). -/
def Plane.withNf (p : Plane) : Plane :=
  { p with nf := Mem.wrs [] 0 ((List.range (p.kl / 8)).map fun j =>
      BitVec.ofNat 8 (((List.range 8).map fun q => if p.notFinite j q then 2 ^ q else 0).foldl (· + ·) 0)) }

/-- NF(j, q) of a plane (R225). -/
def Plane.nfAt (p : Plane) (j q : Nat) : Bool := (p.nf.rd j).getLsbD q

/-- The stored values of a slot in the order of TR = 0 (R226). -/
def planeData (pad : Mem) (base fmt : Nat) (tr : Bool) : Mem :=
  let z := mxSize fmt
  let cells := (pad.filter fun c => base ≤ c.1 && c.1 < base + 16384).map fun c => (c.1 - base, c.2)
  if tr then cells.foldl (fun m c =>
    let e := c.1 / z
    Tab.put m ((64 * (e % mxKmax fmt) + e / mxKmax fmt) * z + c.1 % z) c.2) []
  else cells

/-! ## Command records (R217, R218) -/

/-- A field of a record. -/
def mf (r : BitVec 128) (hi lo : Nat) : Nat := r.toNat / 2 ^ lo % 2 ^ (hi + 1 - lo)

/-- CMD. -/
def mCmd (r : BitVec 128) : Nat := mf r 7 0
/-- FMT. -/
def mFmt (r : BitVec 128) : Nat := mf r 11 8
/-- The pad offset of the ring header. -/
def mRing (r : BitVec 128) : Nat := mf r 31 16 * 16
/-- GANG of an MSTREAM. -/
def mGang (r : BitVec 128) : Bool := mCmd r = 3 && r.getLsbD 14
/-- ACC. -/
def mAcc (r : BitVec 128) : Bool := r.getLsbD 12

/-- A command with a rendezvous (R240). -/
def mMeets (r : BitVec 128) : Bool := mCmd r = 7 || mGang r

/-- Step 1 of R218 for a block of a gang of size g. -/
def mShapeBad (g : Nat) (r : BitVec 128) : Bool :=
  match mCmd r with
  | 1 => (mxClass (mFmt r)).isNone || mf r 14 13 = 3 || (mf r 14 13 ≠ 0 && mFmt r = 0xF) || (mf r 14 13 = 0 && mf r 95 64 ≠ 0)
      || r.getLsbD 15 || mf r 63 32 ≠ 0 || mf r 127 96 ≠ 0
  | 2 => mf r 127 8 ≠ 0
  | 3 =>
    let m := mf r 41 32
    (mxClass (mFmt r)).isNone || m < 8 || m % 8 ≠ 0 || (if mFmt r = 0xF then 128 else 512) < m || (mFmt r = 0xF && mAcc r)
      || (!mGang r && (mf r 95 80 ≠ 0 || mf r 66 64 ≠ 0)) || (mGang r && 1 < g && g ≤ mf r 66 64)
      || r.getLsbD 15 || mf r 47 42 ≠ 0 || mf r 63 58 ≠ 0 || mf r 79 67 ≠ 0 || mf r 127 96 ≠ 0
  | 4 =>
    let m := mf r 89 80
    let d := mf r 73 64
    let pl := mf r 57 48
    m < 8 || 128 < m || m % 8 ≠ 0 || (d ≠ pl && d < pl + 8 * m && pl < d + m)
      || mf r 11 8 ≠ 0 || mf r 15 13 ≠ 0 || mf r 63 58 ≠ 0 || mf r 79 74 ≠ 0 || mf r 127 90 ≠ 0
  | 5 => mf r 42 32 = 0 || 1024 < mf r 42 32 || mf r 15 8 ≠ 0 || mf r 31 26 ≠ 0 || mf r 127 43 ≠ 0
  | 6 => mf r 15 8 ≠ 0 || mf r 127 22 ≠ 0
  | 7 => mf r 127 9 ≠ 0
  | _ => true

/-- The rank of a block in its gang. -/
def Block.rank (b : Block) : Nat := if b.gang < 2 then 0 else b.index % b.gang

/-- Whether the block reads the ring of a command itself: a gang member that is not the source does not (R229, R240). -/
def Block.usesRing (b : Block) (r : BitVec 128) : Bool := mCmd r = 1 || (mCmd r = 3 && (!mGang r || mf r 66 64 = b.rank))

/-- The pad regions that a record names. -/
def Block.mPads (b : Block) (r : BitVec 128) : List (Nat × Nat) :=
  if mCmd r = 4 then [(mf r 31 16 * 16, 8 * mf r 89 80), (mf r 47 32 * 16, 512)]
  else if b.usesRing r then [(mRing r, 16)] else []

/-- The AM rows that a record writes. -/
def mWrites (r : BitVec 128) : Option (Nat × Nat) :=
  match mCmd r with
  | 3 => some (mf r 57 48, if mFmt r = 0xF then 8 * mf r 41 32 else mf r 41 32)
  | 4 => some (mf r 73 64, mf r 89 80)
  | 5 => some (mf r 25 16, mf r 42 32)
  | _ => none

/-- The AM rows that a record names. -/
def mRows (r : BitVec 128) : List (Nat × Nat) :=
  (mWrites r).toList ++ (if mCmd r = 4 then [(mf r 57 48, 8 * mf r 89 80)] else [])

/-- Steps 1 to 3 of R218. -/
def Block.mCheck (b : Block) (r : BitVec 128) : Option Nat :=
  if mShapeBad b.gang r then some 0x42
  else if (b.mPads r).any fun x => b.kern.pad < x.1 + x.2 then some 0x26
  else if (mRows r).any fun x => b.kern.am / 256 < x.1 + x.2 then some 0x27
  else none

/-! ## The queue (R214, R215) -/

/-- ENT. -/
def Engine.ent (e : Engine) : Nat := field (e.mqb.zeroExtend 64) 31 23
/-- The pad offset of a queue entry. -/
def Engine.slot (e : Engine) (i : Nat) : Nat := field (e.mqb.zeroExtend 64) 18 4 * 16 + 16 * i
/-- IDX of MQH or MQT. -/
def mqIdx (w : Word) : Nat := w.toNat % 256
/-- The queue is empty. -/
def Engine.empty (e : Engine) : Bool := e.mqh = e.mqt
/-- The queue is full. -/
def Engine.full (e : Engine) : Bool := mqIdx e.mqh = mqIdx e.mqt && e.mqh ≠ e.mqt
/-- Entries in the queue. -/
def Engine.occ (e : Engine) : Nat := if e.full then e.ent else (mqIdx e.mqt + e.ent - mqIdx e.mqh) % e.ent
/-- The next position: IDX advances, and WRAP toggles at ENT. -/
def Engine.after (e : Engine) (w : Word) : Word :=
  if mqIdx w + 1 < e.ent then w + 1 else (w ^^^ 0x10000) &&& 0x10000

/-- The squad slot and the order number of the menq that queued the head, where the engine knows it: one from before a restore it does not,
and nothing of that squad is in flight any more (R246). -/
def Engine.headSrc (e : Engine) : Nat × Nat := if e.queued.length < e.occ then (freeSrc, 0) else e.queued.headD (freeSrc, 0)

/-- The record at the head. -/
def Block.mHead (b : Block) : Option (BitVec 128) :=
  if b.kern.mqEnt = 0 || b.eng.empty then none
  else some (BitVec.ofNat 128 (b.pad.num (b.eng.slot (mqIdx b.eng.mqh)) 16))

/-- A write of MQB takes effect with the next clock (R216). A menq of that clock waits for it, which no rule says (log 56). -/
def Block.mqbMoves (b : Block) : Bool := b.crw.any fun w => w.idx = 0x010

/-- menq (R247). -/
def execMenq (h : Hdr) (d a : Opnd) (s : State) : Host.Outcome State Fault Refusal :=
  issue h (fun _ => { uses := [.w1 d, ⟨a, 4, 4, false⟩], bad := !a.isVec && !a.isSca })
    (fun c => match c.real with
      | none => .ok c.s
      | some (l, ln) =>
        let r : BitVec 128 := BitVec.ofNat 128 (leNat ((List.range 4).flatMap fun k => leBytes 4 (c.rdAt ln a k).toNat))
        if c.blk.kern.mqEnt = 0 then .raise [(l, 0x40)] 0
        else match c.blk.mCheck r with
          | some e => .raise [(l, e)] 0
          | none =>
            if c.blk.mqbMoves then .hold
            else if mCmd r = 7 && c.blk.gang < 2 then .raise [(l, 0x42)] 0
            else if mCmd r = 6 && c.blk.tagsBusy.getLsbD (mf r 21 16) then .raise [(l, 0x44)] 0
            else if c.blk.eng.full then .raise [(l, 0x40)] 0
            else
              let s := c.s
              let s := s.modBlock c.q.blk fun b =>
                let b := b.writePad (b.eng.slot (mqIdx b.eng.mqt)) (leBytes 16 r.toNat)
                let b := if mCmd r = 6 then b.tagTake (mf r 21 16) else b
                { b with eng := { b.eng with mqt := b.eng.after b.eng.mqt, queued := b.eng.queued ++ [(c.q.slot, s.nextId)] } }
              .ok (c.writeAll { s with nextId := s.nextId + 1 } d [c.blk.eng.mqt])) s

/-! ## Dispatch (R220 to R224, R240) -/

/-- Bytes of the operand that a command reads from its slot. -/
def Block.operandBytes (b : Block) (r : BitVec 128) : Nat :=
  if mCmd r = 1 then 16384
  else
    let n := mf r 41 32 * b.eng.active.kl
    n * mxSize (mFmt r) + if r.getLsbD 13 then (n + 4095) / 4096 * 8 else 0

/-- A ring as a command finds it: it waits, it fails, or it claims a slot (R223). -/
inductive RingAt where
  | wait
  | bad (c : Nat)
  | slot (n addr size : Nat)
deriving DecidableEq, Repr

/-- Slots of a ring claimed by dispatched commands and not yet released: a command whose rows have been read has released its slot. -/
def Engine.claimed (e : Engine) (ring : Nat) : Nat :=
  (((e.run.filter fun c => !c.read).flatMap (·.claims)).filter fun x => x.1 = ring).length

/-- The checks of R223 in their order. -/
def Block.ringAt (b : Block) (r : BitVec 128) : RingAt :=
  let o := mRing r
  let h := (b.pad.num o 4 + b.eng.claimed o) % 2 ^ 32
  let n := (b.pad.num (o + 4) 4 + 2 ^ 32 - h) % 2 ^ 32
  let base := b.pad.num (o + 8) 4
  let sz := b.pad.num (o + 12) 2
  let ns := b.pad.num (o + 14) 2
  if hitsBad b.padBad o 16 then .bad 0x2B
  else if n = 0 then .wait
  else if ns < n || ns = 0 || 1024 < ns || sz = 0 || 1536 < sz || base % 64 ≠ 0 || sz * 256 < b.operandBytes r then .bad 0x42
  else if b.kern.pad < base + ns * (sz * 256) then .bad 0x26
  else .slot h (base + h % ns * (sz * 256)) (sz * 256)

/-- The unit of a command: 0 load, 1 stream, 2 a tracker (R220). -/
def mUnit (r : BitVec 128) : Nat :=
  match mCmd r with
  | 1 => 0
  | 6 => 2
  | _ => 1

/-- Whether the AM regions of two commands overlap. -/
def mRowsMeet (x y : BitVec 128) : Bool :=
  (mRows x).any fun a => (mRows y).any fun b => a.1 < b.1 + b.2 && b.1 < a.1 + a.2

/-- The unit conditions of R220. -/
def Engine.unitsFree (e : Engine) (r : BitVec 128) : Bool :=
  let busy (u : Nat) : Bool := e.run.any fun x => x.unit = u
  match mCmd r with
  | 1 => !busy 0
  | 2 => !busy 0 && !busy 1
  | 6 => (e.run.filter fun x => x.unit = 2).length < 8
  | 7 => !busy 0 && !busy 1 && !busy 2
  | _ => !e.run.any fun x => x.unit = 1 && (!x.read || mRowsMeet x.rec' r)

/-- The checks at dispatch that wait for nothing: R218 again, the plane checks, the gang checks (R229, R235, R239). -/
def Block.dispatchCause (b : Block) (r : BitVec 128) : Option Nat :=
  if hitsBad b.padBad (b.eng.slot (mqIdx b.eng.mqh)) 16 then some 0x2B
  else match b.mCheck r with
    | some c => some c
    | none =>
      if mCmd r = 3 && (!b.eng.active.valid || mxClass (mFmt r) ≠ mxClass b.eng.active.fmt || (mFmt r = 0xF && b.eng.active.den ≠ 0)) then
        some 0x42
      else if (mGang r && !b.eng.joined) || (mCmd r = 7 && (r.getLsbD 8 = b.eng.joined || b.gang < 2)) then some 0x42
      else none

/-- Whether the engine of a block may dispatch at all (R435, R309). -/
def Block.engineRuns (b : Block) : Bool := b.halt.phase = .run && b.halt.pendJob.isEmpty

/-- Whether every acquire that a command's squad issued before its menq is fixed: the command acts after it (R299, R303). -/
def Block.acquired (b : Block) (src : Nat × Nat) : Bool :=
  match Tab.find? b.squads src.1 with
  | none => true
  | some x => !x.asked src.2 && x.flight.all fun f => !f.acq || f.perf || src.2 ≤ f.id

/-- Whether the oldest command may look at its ring: its dispatch reads it (R223). -/
def Block.headClear (b : Block) (r : BitVec 128) : Bool := !b.usesRing r || b.acquired b.eng.headSrc

/-- What a member presents for a rendezvous (R240): its oldest queued command, its unit conditions met and its own checks
passed, in a clock in which it has dispatched nothing yet (R220). -/
def Block.presents (b : Block) (clock : Nat) : Option (BitVec 128) :=
  match b.mHead with
  | none => none
  | some r =>
    if b.engineRuns && b.eng.unitsFree r && b.headClear r && (b.dispatchCause r).isNone && mMeets r && b.eng.dispatched ≠ some clock then some r else none

/-- The members of a block's gang by rank. -/
def State.gangBlocks (s : State) (b : BSel) (k : Block) : List (BSel × Block) :=
  (List.range k.gang).filterMap fun i => match s.gangMember b i with
    | none => none
    | some m => (s.block? m).map fun x => (m, x)

/-- Whether the source of a stream has a slot present, or its ring fails. -/
def sourceThere (ms : List (BSel × Block)) (clock : Nat) (r : BitVec 128) : Bool :=
  match ms[mf r 66 64]? with
  | none => true
  | some (_, x) => match x.presents clock with
    | none => false
    | some y => mCmd y = 7 || x.ringAt y ≠ .wait

/-- Whether two presented commands agree (R240). -/
def mAgree (x y : BitVec 128) : Bool :=
  mCmd x = mCmd y && (if mCmd x = 7 then x.getLsbD 8 = y.getLsbD 8
    else mf x 41 32 = mf y 41 32 && mFmt x = mFmt y && x.getLsbD 13 = y.getLsbD 13 && mf x 66 64 = mf y 66 64
      && mf x 95 80 = mf y 95 80)

/-- A rendezvous (R240): not met, or met with whether the commands agree. -/
def State.rendezvous (s : State) (b : BSel) (k : Block) : Option Bool :=
  let ms := s.gangBlocks b k
  let clock := s.cyc b.stall b.core
  let rs := ms.map fun m => (m.2, m.2.presents clock)
  if ms.length ≠ k.gang || rs.any (fun x => x.2.isNone) then none
  else
    let ps := rs.filterMap fun x => x.2.map fun r => (x.1, r)
    if ps.any fun x => mCmd x.2 = 3 && !sourceThere ms clock x.2 then none
    else match ps with
      | [] => none
      | (_, r) :: _ => some (ps.all fun x => mAgree r x.2 && (mCmd x.2 = 7 || mf x.2 95 80 = x.1.eng.gseq))

/-- The job fault of a matrix command (R219). -/
def matrixFault (c qi cmd row card : Nat) : JobFault := ⟨c, 2, 0, cmd, qi, row, 0, card⟩

/-- A cause raised at dispatch leaves the command undispatched (R219); the count of its wait stands still (R224). -/
def Block.refuseHead (b : Block) (clock c : Nat) : Block :=
  let cmd := match b.mHead with
    | none => 0
    | some r => mCmd r
  { b with
    eng := b.eng.pause clock
    halt := { b.halt with pendJob := b.halt.pendJob ++ [matrixFault c (mqIdx b.eng.mqh) cmd 0 0] } }

/-- The oldest command waits for a slot or a rendezvous: its count runs (R224). -/
def Block.startWait (b : Block) (clock : Nat) : Block :=
  match b.eng.waitFrom with
  | none => { b with eng := { b.eng with waitFrom := some clock } }
  | some _ => b

/-- The regions of a command (R245): reads and writes. -/
def mRegions (owner : Nat × Nat) (b : Block) (r : BitVec 128) (ring : Option (Nat × Nat × Nat)) : List Region × List Region :=
  let pad (a n : Nat) : Region := ⟨1, owner, a, n⟩
  let am (x : Nat × Nat) : Region := ⟨2, owner, 256 * x.1, 256 * x.2⟩
  let dst := (mWrites r).toList.map am
  let (rr, rw) := match ring with
    | none => ([], [])
    | some (_, a, n) => ([pad (mRing r) 16, pad a n], [pad (mRing r) 4])
  match mCmd r with
  | 1 => (rr, rw)
  | 3 => (rr ++ (if mAcc r then dst else []), dst ++ rw)
  | 4 => ((b.mPads r).map (fun x => pad x.1 x.2) ++ [am (mf r 57 48, 8 * mf r 89 80)] ++ (if mAcc r then dst else []), dst)
  | 5 => ([], dst)
  | _ => ([], [])

/-- MQH advances at dispatch, the one of this clock (R220). -/
def Block.popHead (b : Block) (clock : Nat) : Block :=
  { b with eng := { b.eng with
      mqh := b.eng.after b.eng.mqh
      queued := if b.eng.queued.length < b.eng.occ then b.eng.queued else b.eng.queued.drop 1
      waitFrom := none, waited := 0, dispatched := some clock } }

/-- Dispatch the oldest command of a block, with the slot it claims. MSWAP completes in its clock and MGANG at its
rendezvous, and their cards leave as they enter; the others run (R239, R242, R309). -/
def State.dispatchHead (s : State) (p : BSel) (ring : Option (Nat × Nat × Nat)) : State :=
  match s.block? p with
  | none => s
  | some b => match b.mHead with
    | none => s
    | some r =>
      let clock := s.cyc p.stall p.core
      let b' := b.popHead clock
      match mCmd r with
      | 2 => s.modBlock p fun _ =>
        { b' with eng := { b'.eng with active := b.eng.shadow, shadow := b.eng.active, act1 := !b.eng.act1 } }
      | 7 => s.modBlock p fun _ =>
        { b' with eng := { b'.eng with joined := r.getLsbD 8, gseq := if r.getLsbD 8 then 0 else b.eng.gseq } }
      | _ =>
        let regs := mRegions (b.launch, b.index) b r ring
        let (id, s) := s.enterCard p.stall (cardPlace p.core 5) regs.1 regs.2
        let claims := match ring with
          | none => []
          | some (n, a, _) => [(mRing r, n, a)]
        s.modBlock p fun _ =>
          { b' with eng := { b'.eng with
              gseq := if mGang r then (b.eng.gseq + 1) % 65536 else b.eng.gseq
              run := b.eng.run ++ [⟨r, mqIdx b.eng.mqh, clock, mUnit r, id, claims, none, false, false, b.eng.headSrc⟩] } }

/-- The slot that a member claims in a rendezvous. -/
def Block.ringOf (b : Block) (r : BitVec 128) : Option (Nat × Nat × Nat) :=
  if b.usesRing r then match b.ringAt r with
    | .slot n a z => some (n, a, z)
    | _ => none
  else none

/-- Whether a member's own ring fails at the rendezvous. -/
def Block.ringCause (b : Block) (r : BitVec 128) : Option Nat :=
  if b.usesRing r then match b.ringAt r with
    | .bad c => some c
    | _ => none
  else none

/-- A met rendezvous: every member dispatches, or every member records 0x42; a source whose ring fails raises alone. -/
def State.meet (s : State) (ms : List (BSel × Block)) (clock : Nat) (agree : Bool) : State :=
  let src := ms.filterMap fun m => match m.2.presents clock with
    | none => none
    | some r => (m.2.ringCause r).map fun c => (m.1, c)
  if !agree then ms.foldl (fun s m => s.modBlock m.1 fun b => b.refuseHead clock 0x42) s
  else match src with
    | (p, c) :: _ => s.modBlock p fun b => b.refuseHead clock c
    | [] => ms.foldl (fun s m => match m.2.presents clock with
      | none => s
      | some r => s.dispatchHead m.1 (m.2.ringOf r)) s

/-- Whether the footprint table has room for the commands that would dispatch together: one, or a gang's (R240, R309). -/
def State.engineRoom (s : State) (p : BSel) (b : Block) (r : BitVec 128) : Bool :=
  (s.stall p.stall).cards.length + (if mMeets r then b.gangSize else 1) ≤ 256

/-- The engine of a block takes up the oldest queued command, at most one in a clock (R218 to R223, R240). -/
def State.engineStep (s : State) (p : BSel) (b : Block) (r : BitVec 128) : State :=
  let clock := s.cyc p.stall p.core
  if !b.eng.unitsFree r || !b.headClear r || b.eng.dispatched = some clock then s
  else match b.dispatchCause r with
    | some c => s.modBlock p fun b => b.refuseHead clock c
    | none =>
      if !s.engineRoom p b r then s
      else if mMeets r then
        match s.rendezvous p b with
        | none => s.modBlock p fun b => b.startWait clock
        | some a => s.meet (s.gangBlocks p b) clock a
      else if mCmd r = 1 || mCmd r = 3 then
        match b.ringAt r with
        | .wait => s.modBlock p fun b => b.startWait clock
        | .bad c => s.modBlock p fun b => b.refuseHead clock c
        | .slot n a z => s.dispatchHead p (some (n, a, z))
      else s.dispatchHead p none

/-- The dispatch event of command k: nothing happens unless it is the oldest queued command. A record that is no command is
refused under the first of them. -/
def matrixEvent (k : Nat) (p : BSel) (s : State) : Host.Outcome State Fault Refusal :=
  match s.block? p with
  | none => .next s
  | some b => match b.mHead with
    | none => .next s
    | some r =>
      if b.engineRuns && (mCmd r = k || (k = 1 && (mCmd r = 0 || 7 < mCmd r))) then .next (s.engineStep p b r) else .next s

/-- MWLOAD (R226). -/
def execMwload (b : BSel) (s : State) : Host.Outcome State Fault Refusal := matrixEvent 1 b s
/-- MSWAP (R227). -/
def execMswap (b : BSel) (s : State) : Host.Outcome State Fault Refusal := matrixEvent 2 b s
/-- MSTREAM (R229). -/
def execMstream (b : BSel) (s : State) : Host.Outcome State Fault Refusal := matrixEvent 3 b s
/-- MSCALE (R236). -/
def execMscale (b : BSel) (s : State) : Host.Outcome State Fault Refusal := matrixEvent 4 b s
/-- MZERO (R237). -/
def execMzero (b : BSel) (s : State) : Host.Outcome State Fault Refusal := matrixEvent 5 b s
/-- MTAG (R238). -/
def execMtag (b : BSel) (s : State) : Host.Outcome State Fault Refusal := matrixEvent 6 b s
/-- MGANG (R239, R240). -/
def execMgang (b : BSel) (s : State) : Host.Outcome State Fault Refusal := matrixEvent 7 b s

/-- Clocks that the oldest queued command has waited (R224). -/
def Engine.waitedAt (e : Engine) (clock : Nat) : Option Nat := e.waitFrom.map fun c => e.waited + (clock - c)

/-- RING_UNDERRUN_TIMEOUT (R224). -/
def execRingUnderrunTimeout (p : BSel) (s : State) : Host.Outcome State Fault Refusal :=
  match s.block? p with
  | none => .next s
  | some b =>
    let clock := s.cyc p.stall p.core
    match b.eng.waitedAt clock with
    | none => .next s
    | some n => if b.engineRuns && 2097152 ≤ n then .next (s.modBlock p fun b => b.refuseHead clock 0x41) else .next s

/-! ## Running (R230 to R238) -/

/-- prod (R231). -/
def mxProd (x y : Num) : Num := (x.mul y).1

/-- What an element's sum gives: the f32 code and the flags of MXS (NV, OF, WOV). -/
def mxElement (vals : List Num) (terms : List Num) (acc : Num) : Nat × Word :=
  let (w, ovf) := window56 terms
  let v := windowTotal acc w
  let (out, _) := FF.f32.ofNum .rne false 0 v
  let res := FF.f32.read out
  let nv : Word := if res.isNan && !(acc.isNan || vals.any Num.isNan) then 1 else 0
  let ov : Word := if res.isInf && !(acc.isInf || vals.any Num.isInf) then 2 else 0
  let wov : Word := if ovf then 4 else 0
  (out, nv ||| ov ||| wov)

/-- The operand of a stream: the bytes of the slot, its rows, its depth and its elements' size. -/
structure Rows where
  bytes : List Byte
  m : Nat
  kl : Nat
  z : Nat
  zb : Bool
deriving DecidableEq, Repr

/-- Element k of row r (R230). -/
def Rows.at' (a : Rows) (r k : Nat) : Nat := sliceNum a.bytes ((a.kl * r + k) * a.z) a.z

/-- Whether block (i, j) is skipped (R230, R199). -/
def Rows.skip (a : Rows) (i j : Nat) : Bool :=
  let k := i * (a.kl / 8) + j
  a.zb && (a.bytes.getD (a.m * a.kl * a.z + k / 8) 0).getLsbD (k % 8)

/-- The positions of column c that a row sums over, each with its packed index (R232). -/
def positions (p : Plane) (a : Rows) (r c : Nat) : List (Nat × Nat) :=
  ((p.kept c).zip (List.range (mxKmax p.fmt))).filter fun x => !a.skip (r / 8) (x.1 / 8)

/-- One element of the integer class: the entry, and IOV (R232). -/
def intElement (p : Plane) (a : Rows) (r c : Nat) (acc : Word) : Nat × Word :=
  let v := (positions p a r c).foldl (fun t x =>
    t + intOf 8 true (a.at' r x.1) * intOf 8 true (p.code c x.2)) acc.toInt
  ((BitVec.ofInt 32 v).toNat, if v < -2 ^ 31 || 2 ^ 31 - 1 < v then 8 else 0)

/-- One element of a float class over the positions given (R232, R235). -/
def floatElement (p : Plane) (a : Rows) (fmt r c : Nat) (pos : List (Nat × Nat)) (acc : Num) : Nat × Word :=
  let ps := pos.map fun x => (mxNum fmt (a.at' r x.1), mxNum p.fmt (p.code c x.2))
  mxElement (ps.flatMap fun x => [x.1, x.2]) (ps.map fun x => mxProd x.1 x.2) acc

/-- The entries of a row, with the flags they set. -/
def rowOf (f : Nat → Nat × Word) : List Byte × Word :=
  let es := (List.range 64).map f
  (es.flatMap fun e => leBytes 4 e.1, es.foldl (fun w e => w ||| e.2) 0)

/-- An AM entry. -/
def Block.amAt (b : Block) (row c : Nat) : Nat := b.am.num (row * 256 + 4 * c) 4

/-- The rows that row r of a stream writes: AM row and bytes, and the flags (R232, R235). -/
def streamRow (b : Block) (r : BitVec 128) (a : Rows) (i : Nat) : List (Nat × List Byte) × Word :=
  let p := b.eng.active
  let dst := mf r 57 48
  let fmt := mFmt r
  if fmt = 0xF then
    let parts := (List.range 8).map fun j =>
      (dst + j * a.m + i, rowOf fun c =>
        floatElement p a fmt i c ((positions p a i c).filter fun x => x.1 / 32 = j) .zero)
    (parts.map fun x => (x.1, x.2.1), parts.foldl (fun w x => w ||| x.2.2) 0)
  else
    let acc (c : Nat) : Nat := if mAcc r then b.amAt (dst + i) c else 0
    let row := rowOf fun c =>
      if mxClass fmt = some 3 then intElement p a i c (BitVec.ofNat 32 (acc c))
      else floatElement p a fmt i c (positions p a i c) (FF.f32.read (acc c))
    ([(dst + i, row.1)], row.2)

/-- SKNF (R233): a row that is streamed skips a block whose positions of the plane are not all finite. -/
def skipsNonFinite (p : Plane) (a : Rows) (rows : Nat) : Bool :=
  a.zb && (List.range ((rows + 7) / 8)).any fun i => (List.range (a.kl / 8)).any fun j =>
    a.skip i j && (List.range 8).any fun q => p.nfAt j q

/-- A row of MSCALE (R236). -/
def scaleRow (b : Block) (r : BitVec 128) (i : Nat) : List (Nat × List Byte) × Word :=
  let m := mf r 89 80
  let pl := mf r 57 48
  let dst := mf r 73 64
  let row := rowOf fun c =>
    let xs := (List.range 8).map fun j =>
      let xa := b.pad.num (mf r 31 16 * 16 + 8 * i + j) 1
      let xb := b.pad.num (mf r 47 32 * 16 + 8 * c + j) 1
      let v := FF.f32.read (b.amAt (pl + j * m + i) c)
      (v, if xa = 255 || xb = 255 then Num.nan false else v.scaleDown (254 - (xa : Int) - (xb : Int)), xa = 255 || xb = 255)
    let acc := if mAcc r then FF.f32.read (b.amAt (dst + i) c) else .zero
    mxElement (xs.map fun x => if x.2.2 then .nan false else x.1) (xs.map fun x => x.2.1) acc
  ([(dst + i, row.1)], row.2)

/-- The rows of a command up to a failing one, one after another: each row's writes precede the next row's reads. -/
def runRows (f : Block → Nat → List (Nat × List Byte) × Word) (b : Block) : List Nat → Block
  | [] => b
  | i :: is =>
    let (ws, fl) := f b i
    let b := ws.foldl (fun b w => b.writeAm (w.1 * 256) w.2) b
    runRows f { b with eng := { b.eng with mxs := b.eng.mxs ||| fl } } is

/-- The first row of m that meets an uncorrectable error, or m (R219). -/
def firstBad (m : Nat) (bad : Nat → Bool) : Nat :=
  match (List.range m).find? bad with
  | none => m
  | some i => i

/-- HEAD of each claimed slot is written, in claim order (R223). -/
def Block.release (b : Block) (c : MCmd) : Block :=
  c.claims.foldl (fun b x => b.writePad x.1 (leBytes 4 ((x.2.1 + 1) % 2 ^ 32))) b

/-- A command whose rows have been read, or that stops on a row. -/
def Block.endRows (b : Block) (i : Nat) (c : MCmd) (fail : Option Nat) : Block :=
  match fail with
  | none => { b.release c with eng := { (b.release c).eng with run := b.eng.run.set i { c with read := true } } }
  | some row =>
    { b with
      eng := { b.eng with run := b.eng.run.set i { c with failed := true } }
      halt := { b.halt with pendJob := b.halt.pendJob ++ [matrixFault 0x2B c.qi (mCmd c.rec') row c.card] } }

/-- The pad address of the slot a running command claimed (R223). -/
def MCmd.slotAt (c : MCmd) : Nat :=
  match c.claims with
  | [] => 0
  | (_, _, a) :: _ => a

/-- The bytes of a stream's slot, and the first row that meets an error in them. -/
def Block.slotRows (b : Block) (c : MCmd) : List Byte × Nat :=
  let m := mf c.rec' 41 32
  let n := b.eng.active.kl * mxSize (mFmt c.rec')
  let a := c.slotAt
  let tail := b.operandBytes c.rec' - m * n
  (b.pad.rds a (b.operandBytes c.rec'),
   if hitsBad b.padBad (a + m * n) tail then 0 else firstBad m fun r => hitsBad b.padBad (a + n * r) n)

/-- The effect of MWLOAD: the shadow plane (R226). -/
def Block.doLoad (b : Block) (c : MCmd) : Block × Option Nat :=
  let r := c.rec'
  let a := c.slotAt
  if hitsBad b.padBad a 16384 then (b, some 0)
  else ({ b with eng := { b.eng with shadow := Plane.withNf ⟨true, mFmt r, mf r 14 13, mf r 95 64, planeData b.pad a (mFmt r) (r.getLsbD 12), []⟩ } },
        none)

/-- The effect of MSTREAM over rows, of which the first `good` are there. -/
def Block.doStream (b : Block) (c : MCmd) (bytes : List Byte) (good : Nat) : Block × Option Nat :=
  let r := c.rec'
  let a : Rows := ⟨bytes, mf r 41 32, b.eng.active.kl, mxSize (mFmt r), r.getLsbD 13⟩
  let n := min good (firstBad a.m fun i => mAcc r && hitsBad b.amBad ((mf r 57 48 + i) * 256) 256)
  let b' := runRows (fun b i => streamRow b r a i) b (List.range n)
  let b' := if skipsNonFinite b.eng.active a n then { b' with eng := { b'.eng with mxs := b'.eng.mxs ||| 16 } } else b'
  (b', if n < a.m then some n else none)

/-- The effect of MSCALE. -/
def Block.doScale (b : Block) (c : MCmd) : Block × Option Nat :=
  let r := c.rec'
  let m := mf r 89 80
  let n := firstBad m fun i =>
    hitsBad b.padBad (mf r 47 32 * 16) 512 || hitsBad b.padBad (mf r 31 16 * 16 + 8 * i) 8
      || (List.range 8).any (fun j => hitsBad b.amBad ((mf r 57 48 + j * m + i) * 256) 256)
      || (mAcc r && hitsBad b.amBad ((mf r 73 64 + i) * 256) 256)
  (runRows (fun b i => scaleRow b r i) b (List.range n), if n < m then some n else none)

/-- The effect of MZERO. -/
def Block.doZero (b : Block) (c : MCmd) : Block :=
  b.writeAm (mf c.rec' 25 16 * 256) (List.replicate (mf c.rec' 42 32 * 256) 0)

/-- A running gang stream receives the source's rows. -/
def MCmd.receive (x : MCmd) (gs good : Nat) (bytes : List Byte) : MCmd :=
  if mGang x.rec' && mf x.rec' 95 80 = gs && x.sent.isNone then { x with sent := some (good, bytes) } else x

/-- The rows that a gang source sends, with the bitmap, go to the members that run the same stream (R240). -/
def State.sendRows (s : State) (p : BSel) (k : Block) (gs good : Nat) (bytes : List Byte) : State :=
  let get (core : Nat) (x : Nat × Block) : Nat × Block :=
    (x.1, if (core = p.core && x.1 = p.pos) || !sameGang k x.2 then x.2
      else { x.2 with eng := { x.2.eng with run := x.2.eng.run.map fun y => y.receive gs good bytes } })
  s.modStall p.stall fun t => { t with cores := t.cores.map fun c =>
    (c.1, { c.2 with blocks := c.2.blocks.map (get c.1), left := c.2.left.map (get c.1) }) }

/-- The effect of a running command, and the row that stops it. A member of a gang that is not the source runs the rows sent to it;
where the source stopped on a row, the member's command ends with the rows before it (log 50). -/
def Block.runCmd (b : Block) (c : MCmd) : Block × Option Nat :=
  match mCmd c.rec' with
  | 1 => b.doLoad c
  | 3 =>
    if b.usesRing c.rec' then b.doStream c (b.slotRows c).1 (b.slotRows c).2
    else match c.sent with
      | none => (b, none)
      | some (good, bytes) => ((b.doStream c bytes good).1, (b.doStream c bytes good).2.filter (· < good))
  | 4 => b.doScale c
  | 5 => (b.doZero c, none)
  | _ => (b, none)

/-- Whether the card of a running command holds it back (R310). While its block is saved, which lets every dispatched command complete
(R246), the cards of the block's own failed jobs hold its commands no longer (log 50). -/
def State.cmdClear (s : State) (p : BSel) (b : Block) (c : MCmd) : Bool :=
  let t := s.stall p.stall
  if b.halt.phase = .saving then { t with cards := t.cards.filter fun x => !b.failedCards.contains x.id }.cardMay c.card else t.cardMay c.card

/-- Whether a running command may access pad and AM, or a tag may become done: no card has an edge to it, a gang member has the
source's rows, a tag has no earlier command left, and no earlier acquire is open (R238, R240, R299, R310). -/
def State.cmdMay (s : State) (p : BSel) (b : Block) (i : Nat) (c : MCmd) : Bool :=
  if c.unit = 2 then (b.eng.run.take i).all fun x => x.failed && b.halt.phase = .saving
  else s.cmdClear p b c && b.acquired c.src && !(mGang c.rec' && !b.usesRing c.rec' && c.sent.isNone)

/-- A command is complete (R242): its unit is free and its card leaves. -/
def State.cmdDone (s : State) (p : BSel) (i : Nat) (c : MCmd) : State :=
  (((s.modBlock p fun b =>
    let b := { b with eng := { b.eng with run := b.eng.run.eraseIdx i } }
    if mCmd c.rec' = 6 then b.tagDone (mf c.rec' 21 16) else b).leaveCard p.stall c.card).reap p)

/-- MATRIX_COMMAND_COMPLETE (R219, R220, R240, R242): a stream or a scaling acts on its rows, which frees its unit for the next
command, and is complete at a later event of the same name; every other command acts and is complete at one. -/
def execMatrixCommandComplete (p : BSel) (i : Nat) (s : State) : Host.Outcome State Fault Refusal :=
  match s.block? p with
  | none => .next s
  | some b => match b.eng.run[i]? with
    | none => .next s
    | some c =>
      if c.failed || !s.cmdMay p b i c then .next s
      else if c.read || mCmd c.rec' = 6 then .next (s.cmdDone p i c)
      else
        let x := b.runCmd c
        let s := s.modBlock p fun _ => x.1.endRows i c x.2
        let s := if mGang c.rec' && b.usesRing c.rec' then s.sendRows p b (mf c.rec' 95 80) (b.slotRows c).2 (b.slotRows c).1 else s
        .next (if x.2.isNone && (mCmd c.rec' = 1 || mCmd c.rec' = 5) then s.cmdDone p i c else s)

/-! ## Status (R248) -/

/-- Why the oldest queued command of a block waits: for a slot, for a rendezvous. -/
def State.waitsFor (s : State) (p : BSel) (b : Block) : Bool × Bool :=
  match b.mHead with
  | none => (false, false)
  | some r =>
    if !b.eng.unitsFree r || (b.dispatchCause r).isSome then (false, false)
    else if mMeets r then (false, (s.rendezvous p b).isNone)
    else ((mCmd r = 1 || mCmd r = 3) && b.ringAt r = .wait, false)

/-- The state of a plane in 16 bits. -/
def Plane.bits (p : Plane) : Nat := (if p.valid then 1 else 0) + 2 * p.fmt + 32 * p.den

/-- The value of mstat. -/
def State.mxStatus (s : State) (p : BSel) (b : Block) (sel : Nat) : Word :=
  let e := b.eng
  let bit (c : Bool) (n : Nat) : Nat := if c then 2 ^ n else 0
  if b.kern.mqEnt = 0 then (if sel = 0 then 0x80000000 else 0)
  else if sel = 0 then
    let (wr, wg) := s.waitsFor p b
    let cur := match e.run with
      | [] => 0
      | c :: _ => mCmd c.rec'
    BitVec.ofNat 32 (bit (e.empty && e.run.isEmpty) 31 + bit e.joined 30 + b.rank * 2 ^ 27 + (b.gangSize - 1) * 2 ^ 24
      + bit wr 23 + bit wg 22 + e.occ * 256 + cur)
  else if sel = 1 then BitVec.ofNat 32 e.gseq
  else BitVec.ofNat 32 (e.active.bits + 65536 * e.shadow.bits)

/-- mstat (R248). -/
def execMstat (h : Hdr) (d : Opnd) (sel : Fin 3) (s : State) : Host.Outcome State Fault Refusal :=
  issue h (fun _ => { uses := [.w1 d], reduce := true })
    (fun c => c.perLane d fun _ _ => .ok { ws := [c.s.mxStatus c.q.blk c.blk sel.val] }) s

end Sys2Proof.Machine
end

