-- ==== Sys2Proof/Machine/Shake.lean ====
section
/-! DEFINITION. SHAKE256 (R88, R465) and SHA3-512 (R467): the sponge of FIPS 202, with a rate of 136 or 72 bytes, over a state of 25
lanes of 64 bits. The spec names the functions and their lengths; their steps are taken from the standard (log 7). The standard's two tables are computed here from
what generates them: the turns of rho from the walk that pi makes, the constants of iota from a shift register. -/

set_option Elab.async false

namespace Sys2Proof.Machine

open Sys2Proof

/-- The sponge's state: the lane at column x and row y stands under x + 5y; a lane that is not listed is zero. -/
abbrev Sponge := Tab DWord

/-- A lane of the state. -/
def Sponge.lane (s : Sponge) (x y : Nat) : DWord := Tab.get 0 s (x % 5 + 5 * (y % 5))

/-- The state whose lane at column x and row y is f x y. -/
def Sponge.build (f : Nat → Nat → DWord) : Sponge := (List.range 25).map fun k => (k, f (k % 5) (k / 5))

/-- The parity of a column. -/
def Sponge.parity (s : Sponge) (x : Nat) : DWord := [1, 2, 3, 4].foldl (fun v y => v ^^^ s.lane x y) (s.lane x 0)

/-- Theta: every lane takes the parities of the two columns beside its own. -/
def Sponge.mix (s : Sponge) : Sponge :=
  let side := (List.range 5).map fun x => s.parity (x + 4) ^^^ (s.parity (x + 1)).rotateLeft 1
  Sponge.build fun x y => s.lane x y ^^^ side.getD x 0

/-- Rho and pi at once. Pi moves the lane at (x, y) to (y, 2x + 3y), and rho turns the lanes along that same walk, from (1, 0) on, by
1, 3, 6, 10 and so on. `n` steps are left; the walk stands at (x, y), whose lane turns by the `t`-th of these numbers. -/
def Sponge.walk (s : Sponge) : Nat → Nat → Nat → Nat → Sponge → Sponge
  | 0, _, _, _, out => out
  | n + 1, t, x, y, out =>
    let y' := (2 * x + 3 * y) % 5
    Sponge.walk s n (t + 1) y y' (Tab.put out (y + 5 * y') ((s.lane x y).rotateLeft (t * (t + 1) / 2 % 64)))

/-- Chi: a lane takes the next one of its row where the one between is clear. -/
def Sponge.bend (s : Sponge) : Sponge := Sponge.build fun x y => s.lane x y ^^^ (s.lane (x + 2) y &&& ~~~ s.lane (x + 1) y)

/-- One step of the shift register x^8 + x^6 + x^5 + x^4 + 1. -/
def shakeReg (r : Byte) : Byte := if r.msb then (r <<< 1) ^^^ 0x71 else r <<< 1

/-- The constant of a round (iota) and the register behind it: its seven outputs stand at bits 0, 1, 3, 7, 15, 31 and 63. -/
def shakeConst (r : Byte) : DWord × Byte :=
  [0, 1, 3, 7, 15, 31, 63].foldl (fun (c, r) k => (if r.getLsbD 0 then c ||| (1 <<< k) else c, shakeReg r)) (0, r)

/-- One round, and the register of the next. -/
def shakeRound (s : Sponge) (r : Byte) : Sponge × Byte :=
  let m := s.mix
  let b := (Sponge.walk m 24 1 1 0 [(0, m.lane 0 0)]).bend
  let (c, r) := shakeConst r
  (Tab.put b 0 (b.lane 0 0 ^^^ c), r)

/-- The permutation: n rounds. -/
def Sponge.permute : Nat → Byte → Sponge → Sponge
  | 0, _, s => s
  | n + 1, r, s => let (s, r) := shakeRound s r; Sponge.permute n r s

/-- Eight bytes of a message from place i on, the first least significant; behind its end the bytes are zero. -/
def shakeLane (bs : List Byte) (i : Nat) : DWord :=
  ((bs.drop i).take 8).foldr (fun b v => (v <<< 8) ||| b.setWidth 64) 0

/-- Absorb `n` blocks of `rate` bytes, each followed by the 24 rounds. -/
def Sponge.absorb (rate : Nat) (bs : List Byte) : Nat → Sponge → Sponge
  | 0, s => s
  | n + 1, s =>
    let mixed := Sponge.build fun x y =>
      let k := x + 5 * y
      if 8 * k < rate then s.lane x y ^^^ shakeLane bs (8 * k) else s.lane x y
    Sponge.absorb rate (bs.drop rate) n (Sponge.permute 24 1 mixed)

/-- 64 bytes of the sponge of a byte list. The bits of the function and the first bit of the padding follow the message as one byte; the
padding's last bit closes its last block. -/
def spongeOf (rate : Nat) (first : Byte) (bs : List Byte) : List Byte :=
  let blocks := bs.length / rate + 1
  let begun := bs ++ first :: List.replicate (rate * blocks - bs.length - 1) 0
  let closed := begun.mapIdx fun i b => if i + 1 = rate * blocks then b ||| 0x80 else b
  let s := Sponge.absorb rate closed blocks []
  (List.range 64).map fun i => ((s.lane (i / 8) (i / 40)) >>> (8 * (i % 8))).setWidth 8

/-- SHAKE256 of a byte list, 64 bytes (R88, R465): the bits of the function are 1111. -/
def shake256 (bs : List Byte) : List Byte := spongeOf 136 0x1F bs

/-- SHA3-512 of a byte list (R467): the bits of the function are 01. -/
def sha3 (bs : List Byte) : List Byte := spongeOf 72 0x06 bs

end Sys2Proof.Machine
end

