-- ==== Sys2Proof/Machine/Cards.lean ====
section
/-! DEFINITION. Kernel headers, launch cards and launches (chapter 02 R43 to R50, chapter 03 R88, R92, chapter 13 R350 to
R352), and the start of a block (R39, R40, R184, R213, R320). -/

set_option Elab.async false

namespace Sys2Proof.Machine

open Sys2Proof

/-! ## Kernel headers (R88) -/

/-- A kernel header as it stands: its 256 bytes. -/
abbrev KHead := List Byte

/-- FORM: 0 Puden, 1 native. -/
def khForm (h : KHead) : Nat := sliceNum h 6 1
/-- Bit 0 of FLAGS: quad-locked. -/
def khQuad (h : KHead) : Bool := sliceNum h 7 1 % 2 = 1
/-- NROLES. -/
def khRoles (h : KHead) : Nat := sliceNum h 11 1
/-- PAD. -/
def khPad (h : KHead) : Nat := sliceNum h 12 4
/-- AM. -/
def khAm (h : KHead) : Nat := sliceNum h 16 4
/-- CODEWORDS. -/
def khWords (h : KHead) : Nat := sliceNum h 32 4
/-- DATABYTES. -/
def khData (h : KHead) : Nat := sliceNum h 36 4
/-- ENTRY. -/
def khEntry (h : KHead) : Nat := sliceNum h 40 4
/-- MQENT. -/
def khMqEnt (h : KHead) : Nat := sliceNum h 28 2
/-- PIPE. -/
def khPipe (h : KHead) : Nat := sliceNum h 30 1
/-- Bytes of the image. -/
def khSize (h : KHead) : Nat := 256 + 8 * khWords h + (khData h + 7) / 8 * 8

/-- MAGIC, VERSION and FORM hold what R88 asks. -/
def khNamed (h : KHead) : Bool := sliceNum h 0 4 = 0x314E4450 && sliceNum h 4 2 = 1 && khForm h ≤ 1

/-- A role record. -/
def khRole (h : KHead) (i : Nat) : Role := ⟨sliceNum h (48 + 4 * i) 1, 8 * sliceNum h (49 + 4 * i) 1, sliceNum h (50 + 4 * i) 1⟩

/-- The declared mailboxes. -/
def khBoxes (h : KHead) : List MboxDecl :=
  (List.range 16).filterMap fun m =>
    if sliceNum h (70 + 8 * m) 2 % 2 = 1 then some ⟨m, sliceNum h (64 + 8 * m) 4, sliceNum h (68 + 8 * m) 2⟩ else none

/-- The pad regions that a header declares: base and bytes. -/
def khRegions (h : KHead) : List (Nat × Nat) :=
  (if khMqEnt h = 0 then [] else [(sliceNum h 24 4, 16 * khMqEnt h)]) ++ (khBoxes h).map fun d => (d.base, 64 + 272 * d.ent)

/-- No two regions of a list share a byte. -/
def disjointRegions : List (Nat × Nat) → Bool
  | [] => true
  | r :: rs => rs.all (fun x => x.1 + x.2 ≤ r.1 || r.1 + r.2 ≤ x.1) && disjointRegions rs

/-- The role part of a header: bit 1 of FLAGS, the budget, the zero bytes of the records. The rows give no range for what a record
holds; bit 1 of FLAGS is taken to say that NROLES is not 0 (log 51). -/
def khRolesOk (h : KHead) : Bool :=
  let n := khRoles h
  let v := sliceNum h 9 1
  n ≤ 4 && ((sliceNum h 7 1).testBit 1 == (n ≠ 0)) && (if n = 0 then 1 ≤ v && v ≤ 24 else v = 0)
    && (List.range 4).all (fun i => sliceNum h (51 + 4 * i) 1 = 0)

/-- The mailbox and queue part of a header; of the last two bytes of a mailbox record only bit 0 may be set (log 51). -/
def khPadOk (h : KHead) : Bool :=
  (khRegions h).all (fun r => r.1 + r.2 ≤ khPad h) && disjointRegions (khRegions h)
    && (khMqEnt h = 0 || (8 ≤ khMqEnt h && khMqEnt h ≤ 256)) && sliceNum h 24 4 % 16 = 0
    && (List.range 16).all (fun m => sliceNum h (70 + 8 * m) 2 ≤ 1)
    && (khBoxes h).all fun d => d.base % 64 = 0

/-- NAME is ASCII and zero-padded. -/
def khNameOk (h : KHead) : Bool :=
  let n := sliceBytes h 192 32
  n.all (fun b => b.toNat < 128) && (n.dropWhile (· ≠ 0)).all (· = 0)

/-- Well-formed in every field but MAGIC, VERSION and FORM (R88). ENTRY, a word index, is taken to name a word of the code (log 51). -/
def khOk (h : KHead) : Bool :=
  sliceNum h 7 1 < 4 && [16, 32, 64].contains (sliceNum h 8 1) && sliceNum h 10 1 ≤ 16 && khRolesOk h
    && khPad h % 1024 = 0 && khAm h % 1024 = 0 && 256 ≤ sliceNum h 20 2 && sliceNum h 20 2 ≤ 16384
    && sliceNum h 22 2 % 2 = 0 && khPipe h ≤ 8 && sliceNum h 31 1 = 0
    && 1 ≤ khWords h && khWords h ≤ 2 ^ 24 && khData h ≤ 2 ^ 24 && khEntry h < khWords h && sliceNum h 44 4 = 0
    && khPadOk h && khNameOk h && sliceNum h 224 32 = 0

/-- Read the header at an address, which must translate with execute permission: the cause, or that the read waits. -/
def State.kheadAt (s : State) (st : Nat) (kaddr : DWord) : Except Nat KHead :=
  match s.translate st false kaddr .fetch 256 0 with
  | .error c => .error c
  | .ok t => s.unitRead st t.place 256

/-- Bytes of an image, page by page, each of which must translate for execution. -/
def State.imageBytes (s : State) (st : Nat) (va n : Nat) : Nat → Except Nat (List Byte)
  | 0 => .ok []
  | fuel + 1 =>
    if n = 0 then .ok []
    else
      let k := min n (65536 - va % 65536)
      match s.translate st false (BitVec.ofNat 64 va) .fetch 1 0 with
      | .error c => .error c
      | .ok t => match s.unitRead st t.place k, State.imageBytes s st (va + k) (n - k) fuel with
        | .ok bs, .ok r => .ok (bs ++ r)
        | .error c, _ => .error c
        | _, .error c => .error c

/-- Pages that n bytes from anywhere in a page touch, at most. -/
def pagesOf (n : Nat) : Nat := n / 65536 + 2

/-- The whole image at an address (R88). -/
def State.imageAt (s : State) (st : Nat) (kaddr : DWord) (h : KHead) : Except Nat (List Byte) :=
  s.imageBytes st kaddr.toNat (khSize h) (pagesOf (khSize h))

/-- What reading n bytes of an image leaves: translations and tokens. -/
def State.imageTouch (s : State) (st : Nat) (va n : Nat) : Nat → State
  | 0 => s
  | fuel + 1 =>
    if n = 0 then s
    else
      let k := min n (65536 - va % 65536)
      State.imageTouch (s.unitTouch st false (BitVec.ofNat 64 va) .fetch k 0) st (va + k) (n - k) fuel

/-! ## Launch cards (R350) -/

/-- A launch card: its 64 bytes. -/
abbrev LCard := List Byte

/-- KADDR. -/
def lcKaddr (c : LCard) : DWord := BitVec.ofNat 64 (sliceNum c 0 8)
/-- ARG. -/
def lcArg (c : LCard) : DWord := BitVec.ofNat 64 (sliceNum c 8 8)
/-- A grid dimension. -/
def lcGrid (c : LCard) (i : Nat) : Nat := sliceNum c (16 + 2 * i) 2
/-- A block dimension. -/
def lcShape (c : LCard) (i : Nat) : Nat := sliceNum c (22 + 2 * i) 2
/-- The number of blocks. -/
def lcBlocks (c : LCard) : Nat := lcGrid c 0 * lcGrid c 1 * lcGrid c 2
/-- Threads of a block. -/
def lcThreads (c : LCard) : Nat := lcShape c 0 * lcShape c 1 * lcShape c 2
/-- GANG. -/
def lcGang (c : LCard) : Nat := sliceNum c 31 1
/-- PRIO. -/
def lcPrio (c : LCard) : Nat := sliceNum c 43 1 % 8
/-- BAGE: 0 takes the header's value. -/
def lcBage (c : LCard) : Nat := sliceNum c 40 2

/-- The roles of a launch: the header's, or one role of the squads that the threads fill (R43, R44). -/
def launchRoles (h : KHead) (c : LCard) : List Role :=
  let w := max 1 (sliceNum h 8 1)
  if khRoles h = 0 then [⟨(lcThreads c + w - 1) / w, 8 * sliceNum h 9 1, sliceNum h 10 1⟩]
  else (List.range (min 4 (khRoles h))).map (khRole h)

/-- The kernel that a card launches in place, with the card's allotments and BAGE. -/
def kernOf (h : KHead) (c : LCard) : Kern where
  width := sliceNum h 8 1
  quad := khQuad h
  roles := launchRoles h c
  pad := sliceNum c 32 4
  am := sliceNum c 36 4
  bage := if lcBage c = 0 then sliceNum h 20 2 else lcBage c
  routes := sliceNum h 22 2
  mqBase := sliceNum h 24 4
  mqEnt := khMqEnt h
  stages := khPipe h
  mbox := khBoxes h
  words := khWords h
  entry := khEntry h
  kaddr := lcKaddr c
  area := none

/-- The register words that squad slots of a kernel take in an issue slot, and their number (R42, R43). -/
def Kern.slotUse (k : Kern) (i : Nat) : Nat × Nat :=
  let js := (List.range k.slots).filter fun j => j % 4 = i
  (js.length, (js.map fun j => k.width * k.budget (roleAt k.roles j)).foldl (· + ·) 0)

/-- 0x01: a dimension outside R43 or R46. -/
def cardShapeBad (c : LCard) : Bool :=
  [0, 1, 2].any (fun i => lcGrid c i = 0 || lcShape c i = 0) || 2 ^ 32 ≤ lcBlocks c || 1024 < lcThreads c

/-- 0x02: too many squad slots, or too much slack. DESIGN CHOICE (log 53): so is a role-bound card whose roles launch fewer squads than
its threads fill, which no rule speaks of. -/
def cardSlotsBad (k : Kern) (c : LCard) : Bool :=
  64 < k.slots || 16 < (k.roles.map (·.slack)).foldl (· + ·) 0
    || (k.roles.map (·.squads)).foldl (· + ·) 0 * k.width < lcThreads c

/-- 0x03: a block does not fit on an empty core. -/
def cardTooBig (k : Kern) : Bool :=
  393216 < k.pad || 262144 < k.am || (List.range 4).any fun i => 16 < (k.slotUse i).1 || 32768 < (k.slotUse i).2

/-- 0x07: the card departs from the header, or a field is out of range. -/
def cardDeparts (h : KHead) (c : LCard) : Bool :=
  sliceNum c 28 1 ≠ sliceNum h 8 1 || sliceNum c 29 1 ≠ sliceNum h 9 1 || sliceNum c 30 1 ≠ sliceNum h 10 1
    || sliceBytes c 44 16 ≠ sliceBytes h 48 16 || (sliceNum c 60 1 % 2 = 1) ≠ khQuad h
    || !(lcBage c = 0 || (256 ≤ lcBage c && lcBage c ≤ 16384))
    || sliceNum c 32 4 < khPad h || sliceNum c 36 4 < khAm h || sliceNum c 32 4 % 1024 ≠ 0 || sliceNum c 36 4 % 1024 ≠ 0
    || 4 ≤ sliceNum c 42 1 || 8 ≤ sliceNum c 43 1 || 2 ≤ sliceNum c 60 1 || sliceNum c 61 3 ≠ 0

/-- The logical core that an entry of the CRT in service maps to a physical core (R22, R471). -/
def Stall.lcoreOf (t : Stall) (phys : Nat) : Option Nat :=
  (List.range 48).find? fun l => (Tab.get 0 t.crt l).getLsbD 15 && field (Tab.get 0 t.crt l) 5 0 = phys

/-- The cores of a cluster that take blocks. -/
def Stall.clusterCores (t : Stall) (cl : Nat) : List Nat :=
  ((List.range 9).map fun i => 9 * cl + i).filter fun c => (t.lcoreOf c).isSome && !(t.core c).off

/-- 0x06: no cluster has enough cores. -/
def gangTooBig (t : Stall) (g : Nat) : Bool := (List.range 6).all fun cl => (t.clusterCores cl).length < g

/-- The reason of a refused card (R50, R351), in the order log 15 gives; `fired` is the payload's pad offset for a fire, and `pixel`
says that its blocks are of the pixel stage, which is quad-locked whatever the header says (R51). -/
def cardRefusal (t : Stall) (h : KHead) (c : LCard) (fired : Option Nat) (pixel : Bool) : Option Nat :=
  let k := kernOf h c
  let g := lcGang c
  if !khNamed h || (khForm h = 1 && !khOk h) then some 0x09
  else if cardSlotsBad k c then some 0x02
  else if cardTooBig k then some 0x03
  else if (k.quad || pixel) && lcThreads c % 4 ≠ 0 then some 0x04
  else if g < 1 || 8 < g || lcBlocks c % g ≠ 0 then some 0x05
  else if gangTooBig t g then some 0x06
  else if cardDeparts h c then some 0x07
  else if (match fired with
    | some off => lcBlocks c ≠ 1 || g ≠ 1 || k.mbox ≠ [] || k.pad < off + 256
    | none => false) then some 0x08
  else if k.stages ≠ 0 && (lcBlocks c < k.stages || g ≠ 1) then some 0x0A
  else none

/-- The checks of a card, and its header where it is accepted; or that reading the header waits. -/
def State.checkCard (s : State) (st : Nat) (c : LCard) (fired : Option Nat) (pixel : Bool) : Except Nat KHead :=
  if cardShapeBad c then .error 0x01
  else match s.kheadAt st (lcKaddr c) with
    | .error e => .error (if isWait e then e else 0x09)
    | .ok h => match cardRefusal (s.stall st) h c fired pixel with
      | some r => .error r
      | none => .ok h

/-- What the launch of a card waits for, if it does: a token of a line of its image (R271). -/
def State.cardCode (s : State) (st : Nat) (c : LCard) (fired : Option Nat) : Option Nat :=
  match s.checkCard st c fired false with
  | .error e => if isWait e then some e else none
  | .ok h => if khForm h = 1 then none else match s.imageAt st (lcKaddr c) h with
    | .error e => if isWait e then some e else none
    | .ok _ => none

/-- Whether the launch of a card waits. -/
def State.cardWaits (s : State) (st : Nat) (c : LCard) (fired : Option Nat) : Bool := (s.cardCode st c fired).isSome

/-- Whether a launch belongs to the pass of a market. -/
def Launch.ofPass (l : Launch) (m : Nat) : Bool :=
  match l.src with
  | .rtask x _ => x = m
  | .rmesh x _ => x = m
  | .rpixel x => x = m
  | _ => false

/-- What the launch of a card waits for is asked for (R274). -/
def State.askCard (s : State) (st : Nat) (c : LCard) (fired : Option Nat) : State :=
  match s.cardCode st c fired with
  | some e => s.askFor st e
  | none => s

/-! ## Launches -/

/-- What a launch takes from where it comes: its number, source, class, priority cap, and its record's and MKT's fields. -/
structure Origin where
  id : Nat
  src : LaunchSrc
  graphics : Bool
  cap : Nat
  queue : Nat
  ety : Nat
  eseq : Word
  mkt : Word
deriving DecidableEq, Repr

/-- Whether a launch runs at the pixel stage, which is quad-locked whatever its header says (R51). -/
def LaunchSrc.pixel : LaunchSrc → Bool
  | .rpixel _ => true
  | _ => false

/-- A launch of an accepted card. -/
def Origin.launch (o : Origin) (k : Kern) (c : LCard) (fin : Bool) : Launch where
  id := o.id
  kern := { k with quad := k.quad || o.src.pixel }
  arg := lcArg c
  grid := lcBlocks c
  bshape := lcThreads c
  gang := lcGang c
  cc := sliceNum c 42 1 % 4
  prio := min (lcPrio c) o.cap
  graphics := o.graphics
  src := o.src
  queue := o.queue
  ety := o.ety
  eseq := o.eseq
  mkt := o.mkt
  next := 0
  ended := 0
  evicted := []
  status := none
  closed := false
  mark := 0
  fin := fin

/-- A refused launch: it has no block to run. -/
def Origin.refused (o : Origin) (status : Nat) : Launch :=
  { o.launch ⟨16, false, [], 0, 0, 256, 0, 0, 0, 0, [], 0, 0, 0, none⟩ [] false with grid := 0, status := some (status, 0) }

/-- The version of the finaliser in use: that of the active image of the stall's DMC (R465). -/
def State.finVersion (s : State) (st : Nat) : Word :=
  let f := Tab.get Firm.reset s.firm (s.siteOf st * 4 + 1)
  Config.imageVersion (if f.bActive then f.b else f.a)

/-- The code-area entry of a digest (R90). -/
def Stall.codeFind (t : Stall) (digest : List Byte) (v : Word) : Option CodeEnt :=
  t.code.find? fun e => e.digest = digest && e.version = v

/-- A kernel that runs from the code area: what its native header says of the code (R91). -/
def Kern.inArea (k : Kern) (addr entry words : Nat) : Kern := { k with area := some addr, entry := entry, words := words }

/-- A launch of a code-area entry counts as a use of it (R92). -/
def Stall.useCode (t : Stall) (addr : Nat) : Stall :=
  { t with launched := t.launched + 1, code := t.code.map fun e => if e.addr = addr then { e with used := t.launched + 1 } else e }

/-- Make the launch of a card that does not wait: refused, ready, or waiting for the finaliser (R351, R90, R92). -/
def State.makeLaunch (s : State) (st : Nat) (o : Origin) (c : LCard) (fired : Option Nat) : State :=
  let add (s : State) (l : Launch) : State := s.modStall st fun t => { t with launches := t.launches ++ [l] }
  match s.checkCard st c fired false with
  | .error r => add s (o.refused (0x0200 + r))
  | .ok h =>
    let k := kernOf h c
    if khForm h = 1 then add (s.imageTouch st (lcKaddr c).toNat 256 2) (o.launch k c false)
    else match s.imageAt st (lcKaddr c) h with
      | .error _ => add s (o.refused 0x0209)
      | .ok img =>
        let s := s.imageTouch st (lcKaddr c).toNat (khSize h) (pagesOf (khSize h))
        match (s.stall st).codeFind (shake256 img) (s.finVersion st) with
        | none => add s (o.launch k c true)
        | some e => add (s.modStall st fun t => t.useCode e.addr) (o.launch (k.inArea e.addr e.entry e.words) c false)

/-! ## Room on a core (R43, R213, R320, R443) -/

/-- The squad slots and register words that the resident blocks of a core take in an issue slot. -/
def slotsTaken (bs : List Kern) (i : Nat) : Nat × Nat :=
  bs.foldl (fun a k => (a.1 + (k.slotUse i).1, a.2 + (k.slotUse i).2)) (0, 0)

/-- Whether a kernel's block fits beside the blocks of a list. -/
def fitsWith (bs : List Kern) (k : Kern) : Bool :=
  bs.length < 16
    && (List.range 4).all (fun i =>
      (slotsTaken bs i).1 + (k.slotUse i).1 ≤ 16 && (slotsTaken bs i).2 + (k.slotUse i).2 ≤ 32768)
    && (bs.map (·.pad)).foldl (· + ·) 0 + k.pad ≤ 393216 && (bs.map (·.am)).foldl (· + ·) 0 + k.am ≤ 262144
    && (k.mqEnt = 0 || bs.all fun b => b.mqEnt = 0) && (k.mbox = [] || bs.all fun b => b.mbox = [])

/-- Whether a kernel's block fits on a core now. -/
def Core.hasRoom (c : Core) (k : Kern) : Bool := fitsWith (c.blocks.map fun b => b.2.kern) k

/-- Context slots exist (R443). -/
def Stall.savesOn (t : Stall) : Bool := field t.savea 63 56 ≠ 0 && field t.savea 55 44 ≠ 0

/-- The free context slots. -/
def Stall.freeSlots (t : Stall) : List Nat :=
  if t.savesOn then (List.range (field t.savea 55 44)).filter fun i => !t.slots.contains i else []

/-- Whether n blocks can have context slots. -/
def Stall.slotsFor (t : Stall) (n : Nat) : Bool := !t.savesOn || n ≤ t.freeSlots.length

/-- The lowest free block position of a core. -/
def Core.freePos (c : Core) : Nat := ((List.range 16).find? fun p => (Tab.find? c.blocks p).isNone).getD 0

/-! ## The start of a block -/

/-- The random state of a thread at the start (R40). -/
def seedOf (index t : Nat) : Word :=
  let v := 0x9E3779B9 ^^^ BitVec.ofNat 32 ((index % 2 ^ 22 * 1024 + t) % 2 ^ 32)
  if v = 0 then 0x9E3779B9 else v

/-- A thread at the start (R40). -/
def Lane.start (index tid : Nat) : Lane where
  tid := tid
  v := []
  p := 0
  rnd := seedOf index tid
  rstack := []
  resv := none
  helper := false
  at' := .issue
  root := none
  pxo := []

/-- The launched squads in order: their slots and roles (R39, R44). -/
def launchedSlots : List Role → Nat → Nat → List (Nat × Nat)
  | [], _, _ => []
  | r :: rs, base, i => (List.range r.squads).map (fun j => (base + j, i)) ++ launchedSlots rs (base + r.squads + r.slack) (i + 1)

/-- The squads of a block at its start (R39): threads fill the launched squads in order. Launched slots of a role-bound block that the
threads do not reach start empty, as slack does: the spec does not say what they are (R44, log 53). -/
def startSquads (k : Kern) (index threads : Nat) (clock : Nat) : Tab Squad :=
  let slots := launchedSlots k.roles 0 0
  (List.range slots.length).filterMap fun i =>
    let (slot, role) := slots.getD i (0, 0)
    let n := min k.width (threads - i * k.width)
    if n = 0 then none
    else some (slot, Squad.start role (k.kaddr + 256 + BitVec.ofNat 64 (8 * k.entry))
      ((List.range n).map fun l => (l, Lane.start index (i * k.width + l))) clock)

/-- No halt. -/
def BlockHalt.reset : BlockHalt where
  phase := .run
  psq := 0
  cause := 0
  flane := 0x7F
  nest := false
  halts := 0
  job := none
  pendJob := []
  pendAsync := []
  reply := none
  rseq := none
  saveFrom := 0
  toSave := false
  stay := false
  waits := false
  owe := false
  cards := []

/-- MQB as the header gives it (R213). -/
def Kern.mqb (k : Kern) : Word :=
  if k.mqEnt = 0 then 0 else BitVec.ofNat 32 (k.mqEnt * 2 ^ 23 + k.mqBase)

/-- A block as it becomes resident for the first time (R36, R40, R184, R213). -/
def Launch.block (l : Launch) (index lcore : Nat) (cslot : Option Nat) (kind : BlockRole) (clock order : Nat) : Block where
  launch := l.id
  index := index
  arg := l.arg
  threads := l.bshape
  kern := l.kern
  gang := l.gang
  lcore := lcore
  cslot := cslot
  pad := []
  am := []
  padBad := []
  amBad := []
  fpc := .of 0
  tagsDone := 0
  tagsBusy := 0
  crw := []
  ksp := 0
  bars := []
  eng := Engine.start l.kern.mqb
  tails := []
  inflight := 0
  squads := startSquads l.kern index l.bshape clock
  live := l.bshape
  halt := .reset
  kind := kind
  mesh := ⟨[], 0, false, 0⟩
  stamp := order

/-- Make a block resident on a core: it takes the lowest position and, where slots exist, the lowest context slot. -/
def State.install (s : State) (st core : Nat) (f : Nat → Option Nat → Nat → Block) : State :=
  let t := s.stall st
  let slot := t.freeSlots.head?
  let b := f ((t.lcoreOf core).getD 0) slot t.clock
  { (s.modStall st fun t => { ((t.clearLeft core (t.core core).freePos).modCore core fun c => { c with blocks := c.blocks.put c.freePos b }) with
      slots := match slot with
        | none => t.slots
        | some i => i :: t.slots }) with nextId := s.nextId + 1 }

/-- Add to a launch of a stall. -/
def Stall.modLaunch (t : Stall) (id : Nat) (f : Launch → Launch) : Stall :=
  { t with launches := t.launches.map fun l => if l.id = id then f l else l }

/-- A launch of a stall. -/
def Stall.launch? (t : Stall) (id : Nat) : Option Launch := t.launches.find? fun l => l.id = id

end Sys2Proof.Machine
end

