-- ==== Sys2Proof/Machine/Places.lean ====
section
/-! DEFINITION. Placement of blocks (R47, R48, R356, R361, R369, R471), and the abort of a launch (R349, R447). -/

set_option Elab.async false

namespace Sys2Proof.Machine

open Sys2Proof

/-! ## Which launch is next (R356, step 3) -/

/-- Whether a launch has a block to place: evicted or never placed. A pipeline launch beyond the four that hold stage queues
places none (R361). -/
def Launch.waits (l : Launch) (t : Stall) : Bool :=
  l.status.isNone && !l.fin && (l.next < l.grid || l.evicted ≠ [])
    && (l.kern.stages = 0 || t.pipes.any (fun p => p.launch = l.id) || t.pipes.length < 4)

/-- The next launch to place: the highest priority, then the earliest. -/
def Stall.nextLaunch (t : Stall) : Option Launch :=
  minBy (fun l => (7 - l.prio) * 2 ^ 64 + l.id) (t.launches.filter fun l => l.waits t)

/-! ## Cores (R356, step 5) -/

/-- The physical cores on which blocks may be placed (R471, R473). -/
def Stall.inService (t : Stall) : List Nat := (List.range 54).filter fun c => (t.lcoreOf c).isSome && !(t.core c).off

/-- The cores a launch's block may take: of a task's cluster, a fire's receiving core, or any. -/
def Stall.coresFor (t : Stall) (l : Launch) : List Nat :=
  let all := t.inService
  match l.src with
  | .task id => match t.tasks.find? fun x => x.id = id with
    | some x => all.filter fun c => c / 9 = x.cluster
    | none => all
  | .fire core _ _ => all.filter (· = core)
  | _ => all

/-- The order of cores with room: fewest resident blocks, then lowest physical core. -/
def Stall.coreKey (t : Stall) (c : Nat) : Nat := (t.core c).blocks.length * 64 + c

/-- The core for one block, or none without room. -/
def Stall.pickCore (t : Stall) (l : Launch) : Option Nat :=
  minBy t.coreKey ((t.coresFor l).filter fun c => (t.core c).hasRoom l.kern)

/-- The cores of a cluster with room for a kernel. -/
def Stall.clusterRoom (t : Stall) (k : Kern) (cl : Nat) : List Nat :=
  (t.clusterCores cl).filter fun c => (t.core c).hasRoom k

/-- The cores for a gang: of the cluster with the most free cores, then the lowest; fewest blocks first within it. -/
def Stall.pickGang (t : Stall) (k : Kern) (g : Nat) : Option (List Nat) :=
  (minBy (fun cl => (9 - (t.clusterRoom k cl).length) * 8 + cl)
    ((List.range 6).filter fun cl => g ≤ (t.clusterRoom k cl).length)).map
    fun cl => (sortBy t.coreKey (t.clusterRoom k cl)).take g

/-- The cores that the next blocks of a launch take. -/
def Stall.picks (t : Stall) (l : Launch) : Option (List Nat) :=
  if l.gang < 2 then (t.pickCore l).map fun c => [c] else t.pickGang l.kern l.gang

/-! ## Placing -/

/-- What a block of a launch is. -/
def Launch.kindOf (l : Launch) (index : Nat) : BlockRole :=
  match l.src with
  | .task id => .task id
  | .rtask m d => .rtask m d
  | .rmesh m tok => .rmesh m tok
  | .rpixel m => .rpixel m
  | _ => if l.kern.stages = 0 then .grid else .stage l.id (index % l.kern.stages)

/-- ARG of a draw of a pass. -/
def Pass.drawArg (p : Pass) (draw : Nat) : DWord :=
  match p.draws[draw]? with
  | some d => d.arg
  | none => 0

/-- The group record of a task block or a mesh block (R378). -/
def groupRecord (p : Pass) (draw group task child : Nat) : List Byte :=
  leBytes 8 (p.drawArg draw).toNat ++ leBytes 4 draw ++ leBytes 4 group ++ leBytes 4 task ++ leBytes 4 child ++ leBytes 1 p.dealer
    ++ List.replicate 39 0

/-- The task of a group and its child number under it (R377, R378). -/
def Draw.childOf (d : Draw) (group : Nat) : Nat × Nat :=
  if d.tcard.isNone then (group, 0)
  else
    let go := d.tasks.foldl (fun (acc : Nat × Option (Nat × Nat)) x => match acc.2 with
      | some _ => acc
      | none => if group < acc.1 + x.2 then (acc.1, some (x.1, group - acc.1)) else (acc.1 + x.2, none)) (0, none)
    go.2.getD (0, 0)

/-- The threads of a pixel block as its squads hold them: helpers, and the registers of R390. -/
def pixelThreads (x : PixBlock) (q : Squad) : Squad :=
  q.mapLanes fun _ ln =>
    let (helper, ws) := x.threads.getD ln.tid (true, [])
    { ln with helper := helper, v := putWords ln.v 0 ws }

/-- A pixel block that a member has formed. -/
def State.pixBlock (s : State) (m st index : Nat) : Option PixBlock :=
  match s.passes.find? fun p => p.market = m with
  | none => none
  | some p => match Tab.find? p.members st with
    | none => none
    | some x => x.blocks.find? fun y => y.index = index

/-- A block with the pieces and threads of a pixel block. -/
def Block.asPixel (b : Block) (y : PixBlock) : Block :=
  { b with
    pad := b.pad.wrs 0 y.attrs
    threads := y.threads.length
    live := (y.threads.filter fun x => !x.1).length
    squads := b.squads.filterMap fun (n, q) =>
      let q' := pixelThreads y { q with lanes := q.lanes.filter fun x => x.2.tid < y.threads.length }
      if q'.lanes.isEmpty then none else some (n, q') }

/-- The argument pointer of a block (R369, R378, R390): the payload's pad offset, the draw's ARG, or the card's. -/
def State.argOf (s : State) (l : Launch) : DWord :=
  let draw (m d : Nat) : DWord := match s.passes.find? fun p => p.market = m with
    | some p => p.drawArg d
    | none => l.arg
  match l.src with
  | .fire _ off _ => BitVec.ofNat 64 off
  | .rtask m d => draw m d
  | .rmesh m tok => draw m (tok / 2 ^ 24)
  | _ => l.arg

/-- What the stall writes into a block before it starts: the payload of a fire, a group record, whose ARG argl and argh read, or a
pixel block's pieces and registers (R369, R378, R390). -/
def State.prepare (s : State) (st : Nat) (l : Launch) (index : Nat) (b : Block) : Block :=
  let b := { b with arg := s.argOf l }
  match l.src with
  | .fire _ off payload => { b with pad := b.pad.wrs off payload }
  | .rtask m d => match s.passes.find? fun p => p.market = m with
    | some p => { b with pad := b.pad.wrs 0 (groupRecord p d 0 index 0) }
    | none => b
  | .rmesh m tok => match s.passes.find? fun p => p.market = m with
    | some p =>
      let g := tok % 2 ^ 24
      let (task, child) := match p.draws[tok / 2 ^ 24]? with
        | some d => d.childOf g
        | none => (0, 0)
      { b with pad := b.pad.wrs 0 (groupRecord p (tok / 2 ^ 24) g task child) }
    | none => b
  | .rpixel m => match s.pixBlock m st index with
    | some y => b.asPixel y
    | none => b
  | _ => b

/-- A pixel block that is placed is formed no more, and its results name its block (R390). -/
def State.pixelPlaced (s : State) (st : Nat) (l : Launch) (index : Nat) : State :=
  match l.src with
  | .rpixel m => s.modPass m fun p => { p with members := p.members.map fun x =>
      (x.1, if x.1 = st then { x.2 with blocks := x.2.blocks.filter fun y => y.index ≠ index } else x.2) }
  | _ => s

/-- A pipeline launch takes its stage queues with its first block, and each block its first stage (R361). -/
def Stall.enterStage (t : Stall) (l : Launch) (index : Nat) : Stall :=
  if l.kern.stages = 0 then t
  else
    let t := if t.pipes.any (fun p => p.launch = l.id) then t
      else { t with pipes := t.pipes ++ [⟨l.id, l.kern.stages, List.replicate l.kern.stages [], false, [], [], t.clock⟩] }
    { t with pipes := t.pipes.map fun p =>
        if p.launch = l.id then { p with stageOf := p.stageOf.put index (index % l.kern.stages) } else p }

/-- Place one block of a launch on a core. -/
def State.placeOne (s : State) (st : Nat) (l : Launch) (index core : Nat) : State :=
  let order := s.nextId
  let s' := s.install st core fun lcore cslot clock =>
    s.prepare st l index (l.block index lcore cslot (l.kindOf index) clock order)
  (s'.pixelPlaced st l index).modStall st fun t => (t.enterStage l index).modLaunch l.id fun x => { x with next := index + 1 }

/-- Place blocks of rising index on a list of cores. -/
def State.placeMany (s : State) (st : Nat) (l : Launch) : Nat → List Nat → State
  | _, [] => s
  | index, c :: cs => (s.placeOne st l index c).placeMany st l (index + 1) cs

/-- Victims of evictions that are gone or taken back are named no more, and an eviction with none left is over (R358). -/
def Stall.victimsLeft (t : Stall) (p : Nat × Nat → Bool) : Stall :=
  { t with evicting := (t.evicting.map fun e => { e with victims := e.victims.filter p }).filter fun e => e.victims ≠ [] }

/-- Whether blocks are being saved to make room for a block of a launch: it is placed when the last of them is saved (R358). -/
def Stall.evictsFor (t : Stall) (launch index : Nat) : Bool :=
  t.evicting.any fun e => e.launch = launch && e.index = index && e.victims ≠ []

/-- BLOCK_PLACE (R356): the next block of the next launch, or its whole gang, starts on the core the rule picks; a gang is
named by its first core. Evicted blocks come first, by BLOCK_RESTORE. -/
def execBlockPlace (st core : Nat) (s : State) : Host.Outcome State Fault Refusal :=
  let t := s.stall st
  match t.nextLaunch with
  | none => .next s
  | some l =>
    if t.pausePlace || l.evicted ≠ [] || t.evictsFor l.id l.next || !t.slotsFor (max 1 l.gang) then .next s
    else match t.picks l with
      | some (c :: cs) => .next (if c = core then s.placeMany st l l.next (c :: cs) else s)
      | _ => .next s

/-! ## Aborting a launch (R349, R447) -/

/-- A resident block of an aborted launch: its threads, filed records, jobs and job cards go; stores that its threads have
issued stay queued until they are performed (R305, R349). -/
def State.stopBlock (s : State) (b : BSel) : State :=
  match s.block? b with
  | none => s
  | some k =>
    let core := s.core b.stall b.core
    let cards := ((core.copies.filter fun j => j.pos = some b.pos).map (·.card)) ++ k.eng.run.map (·.card)
      ++ (((s.stall b.stall).colls.filter fun j => j.core = b.core && j.pos = b.pos).map (·.cardId))
      ++ k.failedCards
    let s := s.modCore b.stall b.core fun c =>
      { c with copies := c.copies.filter (fun j => j.pos ≠ some b.pos), recs := c.recs.filter (fun r => r.pos ≠ b.pos) }
    let s := s.modStall b.stall fun t =>
      { t with cards := t.cards.filter (fun c => !cards.contains c.id),
               colls := t.colls.filter (fun j => !(j.core = b.core && j.pos = b.pos)) }
    let s := s.modBlock b fun k =>
      { k with
        squads := k.squads.map fun q => (q.1, { q.2 with lanes := [], park := .none, flight := [], asks := [], point := none, loops := [] })
        eng := { k.eng with run := [], waitFrom := none }
        live := 0
        halt := { BlockHalt.reset with halts := k.halt.halts } }
    s.reap b

/-- The blocks of an aborted launch that are not resident end without running. -/
def State.dropUnplaced (s : State) (st : Nat) (l : Launch) : State :=
  match l.src with
  | .rtask m d => (List.range (l.grid - l.next)).foldl (fun s i => s.taskEnded m d (l.next + i) 0) s
  | .rmesh m tok => if l.next < l.grid then s.sendDones m tok st fun _ => 0 else s
  | .rpixel m => (List.range (l.grid - l.next)).foldl (fun s i => s.modPass m fun p => { p with members := p.members.map fun x =>
      (x.1, if x.1 = st then { (x.2.blockGone l.id (l.next + i)) with
        blocks := x.2.blocks.filter fun y => y.index ≠ l.next + i } else x.2) }) s
  | _ => s

/-- Abort a launch: every block stops without a save, saved blocks are dropped, and no further block runs. A saved block that is dropped
ends for its pass (R387). -/
def State.abortLaunch (s : State) (st id status aux : Nat) : State :=
  match (s.stall st).launch? id with
  | none => s
  | some l =>
    if l.status.isSome || l.closed then s
    else
      let mine := ((s.stall st).blocks st ++ (s.stall st).lefts st).filter fun x => x.2.launch = id
      let gone := (s.stall st).saved.filter fun v => v.launch = id
      let s := (gone.foldl (fun s v => s.rasterOver st v.launch v.index v.kind v.mesh) (s.dropUnplaced st l)).modStall st fun t =>
        { (t.modLaunch id fun l => { l with
            status := some (status, aux)
            ended := l.ended + (l.grid - l.next) + gone.length
            next := l.grid
            evicted := []
            fin := false }) with
          saved := t.saved.filter fun v => v.launch ≠ id
          slots := t.slots.filter fun i => !gone.any fun v => v.cslot = i
          outRecs := t.outRecs.filter fun r => r.launch ≠ id
          cards := t.cards.filter fun c => !gone.any fun v => v.halt.cards.contains c.id
          evicting := ({ t with evicting := t.evicting.filter fun e => e.launch ≠ id }.victimsLeft fun v => v.1 ≠ id).evicting }
      mine.foldl (fun s x => s.stopBlock x.1) s

end Sys2Proof.Machine
end

