-- ==== Sys2Proof/Machine/Passes.lean ====
section
/-! DEFINITION. Pass descriptors, owner tables and the cards of a pass (chapter 14, R372 to R376, R378). -/

set_option Elab.async false

namespace Sys2Proof.Machine

open Sys2Proof

/-- A field of a pass descriptor. -/
def pf (d : List Byte) (o n : Nat) : Nat := sliceNum d o n
/-- WIDTH. -/
def pdWidth (d : List Byte) : Nat := pf d 16 2
/-- HEIGHT. -/
def pdHeight (d : List Byte) : Nat := pf d 18 2
/-- SAMPLES. -/
def pdSamples (d : List Byte) : Nat := pf d 20 1
/-- MARKET. -/
def pdMarket (d : List Byte) : Nat := pf d 21 1
/-- ATTR. -/
def pdAttr (d : List Byte) : Nat := pf d 22 1
/-- A bit of FLAGS: 0 EARLY, 1 FRONT, 4 DEN, 5 DWR, 6 SEN. -/
def pdFlag (d : List Byte) (i : Nat) : Bool := (pf d 23 1).testBit i
/-- CULL. -/
def pdCull (d : List Byte) : Nat := pf d 23 1 / 4 % 4

/-- A target record (R373). -/
structure Target where
  base : Nat
  pitch : Nat
  fmt : Nat
  blend : Nat
  fact : Nat
  wmask : Nat
deriving DecidableEq, Repr

/-- Target i of a descriptor. -/
def pdTarget (d : List Byte) (i : Nat) : Target :=
  let o := 80 + 16 * i
  ⟨pf d o 8, pf d (o + 8) 4, pf d (o + 12) 1, pf d (o + 13) 1, pf d (o + 14) 1, pf d (o + 15) 1⟩

/-- A target record within R373 and R394. -/
def Target.ok (t : Target) : Bool :=
  t.base % 256 = 0 && t.pitch % 256 = 0 && t.fmt ≤ 8 && t.blend / 2 ≤ 4 && t.fact % 16 ≤ 5 && t.fact / 16 ≤ 5 && t.wmask < 16

/-- Whether a binary32 value is finite and lies from lo to hi. -/
def f32Within (v : Nat) (lo hi : Int) : Bool :=
  match FF.f32.read v with
  | .fin neg n d => let x : Int := if neg then -(n : Int) else n
                    lo * d ≤ x && x ≤ hi * d
  | _ => false

/-- Whether every field of a descriptor lies within R372 and R373. -/
def passDescOk (d : List Byte) : Bool :=
  pf d 0 8 % 256 = 0 && 1 ≤ pdWidth d && pdWidth d ≤ 16384 && 1 ≤ pdHeight d && pdHeight d ≤ 16384
    && [1, 2, 4, 8].contains (pdSamples d) && pdMarket d < 16 && pdAttr d ≤ 16 && pf d 23 1 < 128 && pdCull d ≠ 3
    && [24, 28].all (fun o => f32Within (pf d o 4) (-16384) 16384 && pf d o 4 % 2 ^ 31 ≠ 0)
    && [32, 36].all (fun o => f32Within (pf d o 4) (-16384) 32768)
    && [40, 41, 45, 46, 47].all (fun o => pf d o 1 < 8)
    && pf d 48 8 % 256 = 0 && pf d 56 8 % 256 = 0 && pf d 64 4 % 256 = 0 && pf d 68 4 % 256 = 0 && pf d 72 8 = 0
    && (List.range 4).all (fun i => (pdTarget d i).ok) && pf d 144 112 = 0

/-- Whether an owner table names members only (R375). -/
def ownersOk (s : State) (m : Nat) (os : List Byte) : Bool :=
  os.all fun b => b.toNat < 64 && (s.members m).contains b.toNat

/-- A card whose grid is 1 × 1 × 1 and whose gang size is 1. -/
def cardSingle (c : LCard) : Bool := lcBlocks c = 1 && lcGang c = 1

/-- Whether a card of a pass fails R351 on a stall, or its check waits. -/
def State.cardFails (s : State) (st : Nat) (c : LCard) (pixel : Bool) : Option Nat :=
  match s.checkCard st c none pixel with
  | .ok _ => none
  | .error e => some (if isWait e then e else 0)

/-- The checks of a PASS (R374): the cause or 0 of a refusal, or the descriptor, the owner table and the pixel card. -/
def State.passCheck (s : State) (st pdesc : Nat) : Except Nat (List Byte) :=
  if pdesc % 64 ≠ 0 then .error 0
  else match s.userRead st .read pdesc 256 with
    | .error c => .error c
    | .ok d =>
      if !passDescOk d then .error 0
      else match s.userRead st .read (pf d 0 8) 256 with
        | .error c => .error c
        | .ok os => match s.userRead st .read (pf d 8 8) 64 with
          | .error c => .error c
          | .ok card =>
            let m := pdMarket d
            let ctl := (Tab.get ((0 : DWord), (0 : Word)) s.market m).2
            if !ctl.getLsbD 31 || !(s.members m).contains st || !ownersOk s m os
              || !(s.members m).all (fun x => 24 ≤ field (s.stall x).rspill 63 56)
              || !cardSingle card || sliceNum card 32 4 < 768 * pdAttr d then .error 0
            else match s.cardFails st card true with
              | some e => .error e
              | none => .ok (d ++ os ++ card)

/-- The market that a PASS entry names, as far as its descriptor can be read. -/
def State.passMarket (s : State) (st pdesc : Nat) : Option Nat :=
  match s.userRead st .read pdesc 256 with
  | .ok d => if pdMarket d < 16 then some (pdMarket d) else none
  | .error _ => none

/-- Whether a market is busy (R28). -/
def State.busy (s : State) (m : Nat) : Bool := (Tab.get ((0 : DWord), (0 : Word)) s.market m).2.getLsbD 30

/-- The checks of a DRAW inside a pass (R371, R378): its mesh card and its task card, at any address that can be read. -/
def State.drawCheck (s : State) (st attr : Nat) (e : List Byte) : Except Nat (List Byte) :=
  let mc := sliceNum e 16 8
  let tc := sliceNum e 24 8
  if 2 ^ 24 ≤ sliceNum e 32 4 then .error 0
  else match s.userRead st .read mc 64 with
    | .error c => .error c
    | .ok m =>
      if !cardSingle m || sliceNum m 32 4 < 64 + 256 * (16 + 4 * attr) then .error 0
      else match s.cardFails st m false with
        | some e => .error e
        | none =>
          if tc = 0 then .ok m
          else match s.userRead st .read tc 64 with
            | .error c => .error c
            | .ok t =>
              if !cardSingle t then .error 0
              else match s.cardFails st t false with
                | some e => .error e
                | none => .ok (m ++ t)

end Sys2Proof.Machine
end

