-- ==== Sys2Proof/Machine/Queues.lean ====
section
/-! DEFINITION. Hardware queues: fetch, the entries that are no raster entries, aborts, and the completion of launches (chapter
13, R341 to R355). -/

set_option Elab.async false

namespace Sys2Proof.Machine

open Sys2Proof

/-! ## Fetch (R344 to R346) -/

/-- A field of a queue descriptor. -/
def Stall.qd (t : Stall) (q o n : Nat) : Nat := t.qdesc.num (32 * q + o) n

/-- Whether a is later than b (R341). -/
def laterThan (a b : Word) : Bool := 1 ≤ (a - b).toNat && (a - b).toNat < 2 ^ 31

/-- The address of the entry with SEQ n of a queue. -/
def State.entryPa (s : State) (st q : Nat) (n : Word) : Nat :=
  let t := s.stall st
  s.localPa st (field (BitVec.ofNat 64 (t.qd q 0 8)) 40 6 * 64 + 64 * (n.toNat % max 1 (t.qd q 16 4)))

/-- The 64 bytes of the entry with SEQ n, as the stall sees them. -/
def State.entryBytes (s : State) (st q : Nat) (n : Word) : List Byte := s.seenBytes st (s.entryPa st q n) 64

/-- Entries of a queue that are not complete. -/
def Stall.open' (t : Stall) (q : Nat) : List Entry := t.entries.filter fun e => e.q = q && e.st ≠ .complete

/-- Whether an entry has ended. -/
def Entry.over (e : Entry) : Bool :=
  match e.st with
  | .finished _ _ => true
  | .complete => true
  | _ => false

/-- The TYPEs that a class admits (R344, R371). -/
def admits (cls ty : Nat) : Bool :=
  match cls with
  | 0 => [1, 3, 4, 6, 7, 0x10, 0x11, 0x12].contains ty
  | 1 => [1, 2, 3, 4, 6, 7].contains ty
  | _ => [3, 4, 5, 7].contains ty

/-- The payload bytes that an entry type names, as ranges (R344, R371, R450). -/
def namedBytes (ty : Nat) : List (Nat × Nat) :=
  match ty with
  | 1 => [(16, 24)]
  | 2 => [(16, 25)]
  | 3 => [(16, 29), (32, 44)]
  | 4 => [(16, 29)]
  | 5 => [(16, 48)]
  | 6 => [(16, 21), (24, 40)]
  | 0x10 => [(16, 24)]
  | 0x11 => [(16, 36), (40, 48)]
  | _ => []

/-- A header and payload within R344, for a queue of a class. -/
def entryFormOk (e : List Byte) (n : Word) (cls : Nat) : Bool :=
  let ty := sliceNum e 4 1
  let fl := sliceNum e 5 1
  sliceNum e 0 4 = n.toNat && admits cls ty && fl < 8 && sliceNum e 6 1 ≤ (if fl / 4 = 1 then 63 else 0)
    && sliceNum e 7 1 = 0 && sliceNum e 12 4 = 0
    && (List.range 48).all fun i => (namedBytes ty).any (fun r => r.1 ≤ 16 + i && 16 + i < r.2) || e.getD (16 + i) 0 = 0

/-- The translation of an address that an entry names: its cause. -/
def State.addrCause (s : State) (st : Nat) (acc : Acc) (va z : Nat) : Option Nat :=
  match s.translate st false (BitVec.ofNat 64 va) acc z 0 with
  | .error c => some c
  | .ok _ => none

/-- The OBS byte of SIGNAL and WAITMEM: not zero, with bits 7:6 zero. -/
def obsByteOk (e : List Byte) : Bool := sliceNum e 28 1 ≠ 0 && sliceNum e 28 1 < 64

/-- The descriptor of the pass that a queue has open: of the pass, or of its PASS entry while that has not started. -/
def State.openDesc (s : State) (st q m : Nat) : List Byte :=
  match s.passes.find? fun p => p.market = m with
  | some p => p.desc
  | none => match (s.stall st).entries.find? fun x => x.q = q && x.ty = 0x10 && x.market = some m with
    | some x => sliceBytes x.bytes 64 256
    | none => []

/-- A card read at fetch. -/
def State.readCard (s : State) (st va : Nat) : Except Nat (List Byte) :=
  if va % 64 ≠ 0 then .error 0 else s.userRead st .read va 64

/-- Whether a REPLY names an outstanding record that admits its action (R450). -/
def Stall.replyOk (t : Stall) (e : List Byte) : Bool :=
  let act := sliceNum e 20 1
  [0, 1, 2, 3, 5].contains act
    && t.outRecs.any fun r => r.rseq.toNat = sliceNum e 16 4 && (r.kind ≠ 2 || act = 0)

/-- What an entry's type asks at fetch (R344, R345, R353, R371, R374, R378): AUX of the stop, or the bytes read with it. -/
def State.entryCheck (s : State) (st q : Nat) (e : List Byte) : Except Nat (List Byte) :=
  let t := s.stall st
  let va := sliceNum e 16 8
  let need (c : Option Nat) : Except Nat (List Byte) := match c with
    | some c => .error c
    | none => .ok []
  match (t.queue q).openPass, sliceNum e 4 1 with
  | none, 1 => s.readCard st va
  | none, 2 =>
    let m := sliceNum e 24 1
    if 16 ≤ m || !(Tab.get ((0 : DWord), (0 : Word)) s.market m).2.getLsbD 31 || !(s.members m).contains st then .error 0
    else s.readCard st va
  | none, 3 =>
    if !obsByteOk e then .error 0
    else match s.addrCause st .write va 4 with
      | some c => .error c
      | none => need (if sliceNum e 40 4 = 0 then none else s.addrCause st .read (sliceNum e 32 8) 1)
  | none, 4 => if !obsByteOk e then .error 0 else need (s.addrCause st .read va 4)
  | none, 5 =>
    let d := CopyD.ofWords ((List.range 8).map fun i => BitVec.ofNat 32 (sliceNum e (16 + 4 * i) 4))
    if d.srcKind ≠ 0 || d.dstKind ≠ 0 || d.zb || d.tag ≠ 0 then .error 0
    else match s.addrCause st .read d.src 1 with
      | some c => .error c
      | none => need (s.addrCause st .write d.dst 1)
  | none, 6 => if t.replyOk e then .ok [] else .error 0
  | none, 0x10 => s.passCheck st va
  | some m, 0x11 => s.drawCheck st (pdAttr (s.openDesc st q m)) e
  | some _, 0x12 => .ok []
  | _, 7 => .ok []
  | _, _ => .error 0

/-- Whether a queue holds at a market entry that waits for BUSY (R353, R374). -/
def State.holdsAtMarket (s : State) (st q : Nat) (e : List Byte) : Bool :=
  ((s.stall st).entries.any fun x => x.q = q && x.ty = 2 && x.market.isNone && !x.over)
    || (sliceNum e 4 1 = 0x10 && match s.passMarket st (sliceNum e 16 8) with
      | some m => s.busy m
      | none => false)

/-- A word of a queue's state block, as the stall sees it. -/
def State.blockWord (s : State) (st q o : Nat) : Word := BitVec.ofNat 32 (leNat (s.seenBytes st (s.queueBlock st q + o) 4))

/-- The queue whose FETCHED an entry waits for, if it waits for one (R341, R344); a DEPQ that names no queue makes the entry malformed, and
holds nothing. -/
def depOf (e : List Byte) : Option Nat :=
  if (sliceNum e 5 1).testBit 2 && sliceNum e 6 1 < 64 then some (sliceNum e 6 1) else none

/-- The DEP condition of an entry (R341, R344): FETCHED of DEPQ, which is read under a token, equals DEPSEQ or is later. -/
def State.depOk (s : State) (st : Nat) (e : List Byte) : Bool :=
  match depOf e with
  | none => true
  | some p =>
    let f := s.blockWord st p 0
    let d : Word := BitVec.ofNat 32 (sliceNum e 8 4)
    s.readableAt st (s.queueBlock st p) 4 && (f = d || laterThan f d)

/-- Whether a queue is eligible (R345, step 1); a NOP completes as it is fetched, and its queue fetches nothing before that; an entry
is read under a token of its line (R271). -/
def State.eligible (s : State) (st q : Nat) : Bool :=
  let t := s.stall st
  let f := (t.queue q).fetched
  let db : Word := BitVec.ofNat 32 (t.qd q 24 4)
  let e := s.entryBytes st q (f + 1)
  t.qd q 22 1 % 2 = 1 && !(t.queue q).starts && !(t.queue q).abort && laterThan db f && (t.open' q).length < 16
    && !(t.entries.any fun x => x.q = q && (x.ty = 4 || x.ty = 7) && !x.over)
    && s.readableAt st (s.entryPa st q (f + 1)) 64
    && !((sliceNum e 5 1).testBit 1 && (t.open' q) ≠ []) && s.depOk st e && !s.holdsAtMarket st q e

/-- The queue to fetch from (R345, step 2). -/
def State.pickQueue (s : State) (st : Nat) : Option Nat :=
  let t := s.stall st
  if 64 ≤ (t.heldRecs.filter fun r => !r.syscall).length then none
  else minBy (fun q => (((7 - t.qd q 21 1 % 8) * 4 + t.qd q 20 1) * 2 ^ 80 + (t.queue q).lastFetch) * 64 + q)
    ((List.range 64).filter (s.eligible st))

/-- What a queue that is enabled reads before it can fetch (R342, R344, R345): its state block, with which STOP is cleared and it goes on
from FETCHED + 1; then the next entry, and the state block that the entry's DEP names. What is not there yet is asked for (R274). -/
def State.queueReads (s : State) (st q : Nat) : State :=
  let t := s.stall st
  let b := s.queueBlock st q
  let next := s.entryPa st q ((t.queue q).fetched + 1)
  if t.qd q 22 1 % 2 = 0 then s
  else if (t.queue q).starts then
    (if s.readableAt st b 16 then
      ((s.takeReads st (linesOf b 16)).bufferBytes st none (b + 12) [0]).modStall st fun t => { t with
        queues := t.queues.put q { t.queue q with fetched := s.blockWord st q 0, completed := s.blockWord st q 4, starts := false } }
    else s.askAt st b 16)
  else if !laterThan (BitVec.ofNat 32 (t.qd q 24 4)) (t.queue q).fetched then s
  else if !s.readableAt st next 64 then s.askAt st next 64
  else match depOf (s.entryBytes st q ((t.queue q).fetched + 1)) with
    | some p => s.askAt st (s.queueBlock st p) 4
    | none => s

/-- What the fetch of an entry does beside taking it: an MLAUNCH sets BUSY where it is clear; a PASS sets BUSY and opens the pass; a
PASSEND closes it. -/
def State.noteFetched (s : State) (st q : Nat) (e x : List Byte) : State :=
  let openTo (s : State) (m : Option Nat) : State :=
    s.modStall st fun t => { t with queues := t.queues.put q { t.queue q with openPass := m } }
  match sliceNum e 4 1 with
  | 2 => if s.busy (sliceNum e 24 1) then s else s.setBusy (sliceNum e 24 1) true
  | 0x10 => openTo (s.setBusy (pdMarket x) true) (some (pdMarket x))
  | 0x12 => openTo s none
  | _ => s

/-- A fetched entry. -/
def Entry.fetched (id q : Nat) (n : Word) (e x : List Byte) (prio cls : Nat) (market : Option Nat) : Entry where
  id := id
  q := q
  seq := n
  ty := sliceNum e 4 1
  notify := (sliceNum e 5 1).testBit 0
  bytes := e ++ x
  prio := prio
  cls := cls
  st := .fetched
  upto := 0
  market := market

/-- The market of an entry as it is fetched: an MLAUNCH has it once it has set BUSY (R353). -/
def State.entryMarket (s : State) (st q : Nat) (e x : List Byte) : Option Nat :=
  let t := s.stall st
  match sliceNum e 4 1 with
  | 2 => if s.busy (sliceNum e 24 1) then none else some (sliceNum e 24 1)
  | 0x10 => some (pdMarket x)
  | 0x11 => (t.queue q).openPass
  | 0x12 => (t.queue q).openPass
  | _ => none

/-- What the scheduler's reads for an entry leave: the translations and the tokens. -/
def State.entryTouch (s : State) (st q : Nat) (n : Word) (e x : List Byte) : State :=
  let va := sliceNum e 16 8
  let at' (s : State) (acc : Acc) (a : Nat) : State := s.unitTouch st false (BitVec.ofNat 64 a) acc 0 0
  let s := s.takeReads st (linesOf (s.entryPa st q n) 64)
  match sliceNum e 4 1 with
  | 1 => s.userTouch st .read va 64
  | 2 => s.userTouch st .read va 64
  | 3 => at' (at' s .write va) .read (sliceNum e 32 8)
  | 4 => at' s .read va
  | 0x10 => ((s.userTouch st .read va 256).userTouch st .read (pf x 0 8) 256).userTouch st .read (pf x 8 8) 64
  | 0x11 => (s.userTouch st .read va 64).userTouch st .read (sliceNum e 24 8) (if sliceNum e 24 8 = 0 then 0 else 64)
  | _ => s

/-- Take the next entry of a queue, or stop the queue (R345, step 3, R346); a read that waits for a token leaves the entry there. -/
def State.fetchFrom (s : State) (st q : Nat) : State :=
  let t := s.stall st
  let f := (t.queue q).fetched
  let n := f + 1
  let e := s.entryBytes st q n
  let far : Bool := t.qd q 16 4 < (BitVec.ofNat 32 (t.qd q 24 4) - f).toNat
  let timed (s : State) : State := s.modStall st fun t => { t with queues := t.queues.put q { t.queue q with lastFetch := t.clock } }
  if far then (timed s).stopQueue st q n 0 0
  else if !entryFormOk e n (t.qd q 20 1) then (timed s).stopQueue st q n (sliceNum e 4 1) 0
  else match s.entryCheck st q e with
    | .error aux => if isWait aux then s.askFor st aux else (timed s).stopQueue st q n (sliceNum e 4 1) aux
    | .ok x =>
      let s' := (timed (s.entryTouch st q n e x)).modStall st fun t => { t with
        queues := t.queues.put q { t.queue q with fetched := n }
        entries := t.entries ++ [Entry.fetched s.nextId q n e x (t.qd q 21 1 % 8) (t.qd q 20 1) (s.entryMarket st q e x)] }
      let s' := { s' with nextId := s.nextId + 1, free := s.free + 1 }
      (s'.noteFetched st q e x).bufferBytes st none (s.queueBlock st q) (leBytes 4 n.toNat)

/-- QUEUE_FETCH (R345): one entry, from the best eligible queue; fetch pauses while new scheduler firmware waits (R466). -/
def execQueueFetch (st : Nat) (s : State) : Host.Outcome State Fault Refusal :=
  if s.pendFirm.contains (s.siteOf st, 2) then .next s
  else
    let s := (s.stall st).queues.foldl (fun s x => s.queueReads st x.1) s
    .next (match s.pickQueue st with
      | none => s
      | some q => s.fetchFrom st q)

/-! ## Starting entries (R345, step 4) -/

/-- Whether an entry is the next of its queue to start: those before it have started. A SIGNAL and a WAITMEM start when they
are fetched. A launch that waits for the finaliser has not started. -/
def Stall.mayStart (t : Stall) (e : Entry) : Bool :=
  e.st = .fetched
    && !(t.entries.any fun x => x.q = e.q && x.id < e.id && x.st = .fetched && x.ty ≠ 3 && x.ty ≠ 4)
    && !(t.launches.any fun l => l.fin && match l.src with
      | .queue id => t.entries.any fun x => x.id = id && x.q = e.q && x.id < e.id
      | _ => false)

/-- An entry at an index of a type, ready to start. -/
def Stall.startable (t : Stall) (i ty : Nat) : Option Entry :=
  match t.entries[i]? with
  | none => none
  | some e => if e.ty = ty && t.mayStart e then some e else none

/-- The card read with an entry. -/
def Entry.card (e : Entry) : List Byte := sliceBytes e.bytes 64 64

/-- LAUNCH_ENTRY (R351, R352): the card is checked and its launch made, once its image can be read. -/
def execLaunchEntry (st i : Nat) (s : State) : Host.Outcome State Fault Refusal :=
  .next (match (s.stall st).startable i 1 with
    | none => s
    | some e =>
      if s.cardWaits st e.card none then s.askCard st e.card none
      else (s.setEntry st e.id fun e => { e with st := .running }).makeLaunch st
        ⟨e.id, .queue e.id, e.cls = 0, e.prio, e.q, 1, e.seq, 0⟩ e.card none)

/-- MKT as a member reads it (R49). -/
def mktWord (m count rank : Nat) : Word := BitVec.ofNat 32 (m * 2 ^ 16 + 2 ^ 15 + count * 2 ^ 8 + rank)

/-- An MLAUNCH that found BUSY set at its fetch tests it again and, once it is clear, sets it (R353). -/
def State.takeMarket (s : State) (st i : Nat) : State :=
  match (s.stall st).entries[i]? with
  | some e =>
    if e.ty = 2 && e.st = .fetched && e.market.isNone && !s.busy (sliceNum e.bytes 24 1) then
      (s.setBusy (sliceNum e.bytes 24 1) true).setEntry st e.id fun e => { e with market := some (sliceNum e.bytes 24 1) }
    else s
  | none => s

/-- MLAUNCH (R353): with BUSY its own, the entry sends the card to every member. -/
def execMlaunch (st i : Nat) (s : State) : Host.Outcome State Fault Refusal :=
  let s := s.takeMarket st i
  .next (match (s.stall st).startable i 2 with
    | none => s
    | some e =>
      let m := sliceNum e.bytes 24 1
      let ms := s.members m
      if e.market.isNone then s
      else match ms.find? fun x => s.cardWaits x e.card none with
      | some x => s.askCard x e.card none
      | none =>
        let s := s.setEntry st e.id fun e => { e with st := .running }
        (List.range ms.length).foldl (fun s rank =>
          s.makeLaunch (ms.getD rank 0)
            ⟨e.id, .market st e.id, e.cls = 0, e.prio, e.q, 2, e.seq, mktWord m ms.length rank⟩ e.card none) s)

/-- NOP_ENTRY (R345, step 4): a NOP ends as it is fetched, whatever the entries before it do; until then its queue fetches nothing. -/
def execNopEntry (st i : Nat) (s : State) : Host.Outcome State Fault Refusal :=
  .next (match (s.stall st).entries[i]? with
    | none => s
    | some e => if e.ty = 7 then s.entryEnds st e.id 0 0 else s)

/-- The core of a COPY entry's job: of those in service, the one with the fewest copies, then the lowest. -/
def Stall.copyCore (t : Stall) : Nat :=
  (minBy (fun c => (t.core c).copies.length * 64 + c) ((List.range 54).filter fun c => (t.lcoreOf c).isSome)).getD 0

/-- COPY_ENTRY (R345, R355): the copy's card enters the footprint table and the copy is queued. -/
def execCopyEntry (st i : Nat) (s : State) : Host.Outcome State Fault Refusal :=
  .next (match (s.stall st).startable i 5 with
    | none => s
    | some e =>
      let ws := (List.range 8).map fun k => BitVec.ofNat 32 (sliceNum e.bytes (16 + 4 * k) 4)
      let d := CopyD.ofWords ws
      if d.bad 1 true then s.entryEnds st e.id 0x0400 0x43
      else if !(s.stall st).cardRoom || 64 ≤ (s.core st (s.stall st).copyCore).copies.length then s
      else
        let (id, s) := s.enterCard st (cardPlace (s.stall st).copyCore 4) [s.endRegion .va d.src d.srcExt] [s.endRegion .va d.dst d.dstExt]
        let s := s.setEntry st e.id fun e => { e with st := .running }
        s.modCore st (s.stall st).copyCore fun k =>
          { k with copies := k.copies ++ [⟨none, 0, ws, 0, id, id, some e.id, false, 0, d.seed, []⟩] })

/-! ## SIGNAL and WAITMEM (R354) -/

/-- The observers of a SIGNAL or WAITMEM. -/
def Entry.obs (e : Entry) : BitVec 6 := BitVec.ofNat 6 (sliceNum e.bytes 28 1)

/-- Whether every earlier entry of the queue has completed. -/
def Stall.firstOpen (t : Stall) (e : Entry) : Bool := !(t.entries.any fun x => x.q = e.q && x.id < e.id && x.st ≠ .complete)

/-- Whether writes of launches and passes that an abort of the queue ended are still to be performed: a SIGNAL waits for them too (R349,
R354, R403). -/
def State.owes (s : State) (st q : Nat) : Bool :=
  ((s.stall st).queue q).owed.any fun o => !(s.stall o.stall).writtenTo o.upto || match o.launch with
    | some id => (s.stall o.stall).launches.any fun l => l.id = id && !l.closed
    | none => false

/-- SIGNAL: it waits for the entries before it, then for their writes, then writes VALUE, and ends when that is performed. -/
def execSignal (st i : Nat) (s : State) : Host.Outcome State Fault Refusal :=
  let t := s.stall st
  .next (match t.entries[i]? with
    | none => s
    | some e =>
      if e.ty ≠ 3 then s
      else match e.st with
        | .fetched => if t.firstOpen e then s.setEntry st e.id fun e => { e with st := .running, upto := s.nextId } else s
        | .running =>
          if t.writtenTo e.upto && !s.owes st e.q then
            match s.userWrite st (BitVec.ofNat 64 (sliceNum e.bytes 16 8)) (BitVec.ofNat 32 (sliceNum e.bytes 24 4)) with
            | .error c => if isWait c then s.askFor st c else s.entryEnds st e.id 0x0400 c
            | .ok (id, s) => s.setEntry st e.id fun e => { e with st := .waiting, upto := id + 1 }
          else s
        | .waiting => if t.writtenTo e.upto then s.entryEnds st e.id 0 0 else s
        | _ => s)

/-- Whether the word of a WAITMEM has reached VALUE. -/
def reached (word value : Word) : Bool := (word - value).toNat < 2 ^ 31

/-- The read of a WAITMEM: the cause, what it waits for, or the word; the buffered writes of its line are performed first, and those on
their way to the host or to another package are complete. -/
def State.waitRead (s : State) (st : Nat) (e : Entry) : Except Nat Word :=
  let va := sliceNum e.bytes 16 8
  match s.userPlace st .read (BitVec.ofNat 64 va) with
  | .error c => .error c
  | .ok p =>
    if (match p with
      | .dev pa => (s.stall st).buffers (pa / 64)
      | _ => false) then .error waitCode
    else (s.userRead st .read va 4).map fun bs => BitVec.ofNat 32 (leNat bs)

/-- An acquire of the scheduler with observer C: no core of the stall reads an older value from its L1 (R301, R354). -/
def State.stallAcquire (s : State) (st : Nat) (o : BitVec 6) : State :=
  if obsC o then s.modStall st fun t => { t with cores := t.cores.map fun c => (c.1, { c.2 with l1 := [], l1h := [] }) } else s

/-- What a read of a WAITMEM leaves: the translation and the token; of a line of an HRO page, a held copy is replaced by what is
read (R301). -/
def State.waitTouch (s : State) (st va : Nat) : State :=
  let s' := s.userTouch st .read va 4
  match s.userPlace st .read (BitVec.ofNat 64 va) with
  | .ok p => if p.hro && (Tab.find? (s.stall st).hro p.outLine).isSome then s'.putHro st p.outLine (s.outBytes p) else s'
  | .error _ => s'

/-- One read of a WAITMEM. -/
def State.waitOnce (s : State) (st : Nat) (e : Entry) : State :=
  match s.waitRead st e with
  | .error c => if isWait c then s.askFor st c else s.entryEnds st e.id 0x0400 c
  | .ok w =>
    let s := s.waitTouch st (sliceNum e.bytes 16 8)
    if reached w (BitVec.ofNat 32 (sliceNum e.bytes 24 4)) then (s.stallAcquire st e.obs).entryEnds st e.id 0 0
    else s.setEntry st e.id fun e => { e with st := .waiting, upto := (s.stall st).clock }

/-- WAITMEM: the first read. -/
def execWaitmem (st i : Nat) (s : State) : Host.Outcome State Fault Refusal :=
  .next (match (s.stall st).entries[i]? with
    | none => s
    | some e => if e.ty = 4 && e.st = .fetched then s.waitOnce st e else s)

/-- WAITMEM_REREAD: after 1,024 clocks, or once a write to the line has brought the word there. -/
def execWaitmemReread (st i : Nat) (s : State) : Host.Outcome State Fault Refusal :=
  let t := s.stall st
  .next (match t.entries[i]? with
    | none => s
    | some e =>
      if e.ty = 4 && e.st = .waiting && (e.upto + 1024 ≤ t.clock || match s.waitRead st e with
          | .ok w => reached w (BitVec.ofNat 32 (sliceNum e.bytes 24 4))
          | _ => false) then s.waitOnce st e
      else s)

/-! ## Launch completion (R352, R353, R365, R366, R369, R370) -/

/-- The record of work that no queue entry made. -/
def State.deviceRecord (s : State) (st : Nat) (eseq : Word) (status aux : Nat) : State :=
  s.postDone st (doneRecord eseq 0xFF 0 status aux) none

/-- Write a DONE word, if there is one; a write that fails makes a record (R366, R370). -/
def State.writeDone (s : State) (st : Nat) (done : DWord) (eseq v : Word) : State :=
  if done = 0 then s
  else match s.userWrite st done v with
    | .ok (_, s) => s
    | .error c => s.deviceRecord st eseq 0x0400 c

/-- A launch leaves the stall, with its stage queues. -/
def State.dropLaunch (s : State) (st id : Nat) : State := s.modStall st fun t =>
  { t with launches := t.launches.filter (fun l => l.id ≠ id), pipes := t.pipes.filter fun p => p.launch ≠ id }

/-- A task whose launch has gone leaves the pool when it is complete (R366). -/
def Stall.reapTasks (t : Stall) : Stall :=
  { t with tasks := t.tasks.filter fun k => !(k.finished && !(t.launches.any fun l => l.id = k.launch)) }

/-- A refused or aborted task launch completes its task with that status (R365). -/
def State.failTask (s : State) (st id status : Nat) (l : Launch) (aux : Nat) : State :=
  match (s.stall st).tasks.find? fun k => k.id = id with
  | none => s
  | some k =>
    if k.finished then s
    else
      let s := s.modStall st fun t => { t with tasks := t.tasks.map fun x => if x.id = id then { x with finished := true } else x }
      (s.writeDone st k.done l.eseq (BitVec.ofNat 32 (status * 2 ^ 16 + 1))).deviceRecord st l.eseq status aux

/-- The member launches of an MLAUNCH, by member. -/
def State.marketLaunches (s : State) (m home e : Nat) : List (Nat × Launch) :=
  (s.members m).filterMap fun x => ((s.stall x).launches.find? fun l => l.src = .market home e).map fun l => (x, l)

/-- STATUS and AUX of an MLAUNCH from its members' launches, in ascending member order (R353). -/
def marketStatus (ls : List (Nat × Launch)) : Nat × Nat :=
  match ls.find? fun x => match x.2.status with
    | some (c, _) => 0x0200 ≤ c && c < 0x0300
    | none => false with
  | some (x, l) => ((l.status.getD (0, 0)).1, x)
  | none => match ls.find? fun x => x.2.status.isSome with
    | some (_, l) => l.status.getD (0, 0)
    | none => (0, 0)

/-- Every member's launch has completed: the entry ends, and BUSY clears when it is complete (R353). -/
def State.marketDone (s : State) (home e m : Nat) : State :=
  let ls := s.marketLaunches m home e
  if ls.all fun x => x.2.closed then
    let (status, aux) := marketStatus ls
    let s := ls.foldl (fun s x => s.dropLaunch x.1 x.2.id) s
    s.entryEnds home e status aux
  else s

/-- Whether a launch has completed (R352): every block has ended, every job of its blocks, and every access of its threads is performed. -/
def Launch.complete (l : Launch) (t : Stall) : Bool :=
  !l.closed && !l.fin && l.next = l.grid && l.ended = l.grid && l.evicted = [] && !t.leftJobs l.id && t.writtenTo l.mark

/-- What the completion of a launch does, by its source. -/
def State.closeLaunch (s : State) (st : Nat) (l : Launch) : State :=
  let (status, aux) := l.status.getD (0, 0)
  match l.src with
  | .queue e => (s.dropLaunch st l.id).entryEnds st e status aux
  | .market home e =>
    (s.modStall st fun t => { (t.modLaunch l.id fun l => { l with closed := true }) with
      pipes := t.pipes.filter fun p => p.launch ≠ l.id }).marketDone home e (field (l.mkt.zeroExtend 64) 19 16)
  | .device done =>
    let s := (s.dropLaunch st l.id).modStall st fun t => { t with devq := t.devq - 1 }
    let s := if status = 0 then s else s.deviceRecord st l.eseq status aux
    s.writeDone st done l.eseq (BitVec.ofNat 32 (status * 2 ^ 16 + 1))
  | .task id =>
    let s := if status = 0 then s else s.failTask st id status l aux
    (s.dropLaunch st l.id).modStall st Stall.reapTasks
  | .fire _ _ _ =>
    let s := s.dropLaunch st l.id
    if status = 0 then s else s.deviceRecord st l.eseq status aux
  | _ => s.dropLaunch st l.id

/-- What the write of a DONE word waits for, if its translation does (R258). -/
def State.wordCode (s : State) (st : Nat) (a : DWord) : Option Nat :=
  if a = 0 then none
  else match s.userPlace st .write a with
    | .error c => if isWait c then some c else none
    | .ok _ => none

/-- What the write of a launch's DONE word waits for. -/
def State.doneCode (s : State) (st : Nat) (l : Launch) : Option Nat :=
  match l.src with
  | .device done => s.wordCode st done
  | .task id => match (s.stall st).tasks.find? fun k => k.id = id with
    | some k => s.wordCode st k.done
    | none => none
  | _ => none

/-- LAUNCH_COMPLETE (R352). -/
def execLaunchComplete (st i : Nat) (s : State) : Host.Outcome State Fault Refusal :=
  let t := s.stall st
  .next (match t.launches[i]? with
    | none => s
    | some l =>
      if !l.complete t then s
      else match s.doneCode st l with
        | some c => s.askFor st c
        | none => s.closeLaunch st l)

/-- RECORD_RELEASE (R348): the oldest held record of either ring is written, if there is room. -/
def execRecordRelease (st : Nat) (s : State) : Host.Outcome State Fault Refusal :=
  .next ((s.releaseOne st false).releaseOne st true)

/-! ## Abort of a queue (R349) -/

/-- The launches that a queue entry made, with their stalls. -/
def State.entryLaunches (s : State) (st : Nat) (e : Entry) : List (Nat × Nat) :=
  s.stalls.flatMap fun (x, t) => t.launches.filterMap fun l =>
    if (x = st && l.src = .queue e.id) || l.src = .market st e.id then some (x, l.id) else none

/-- The copies of a COPY entry go, with their cards. -/
def Stall.dropEntryCopy (t : Stall) (id : Nat) : Stall :=
  let cards := t.cores.flatMap fun c => (c.2.copies.filter fun j => j.entry = some id).map (·.card)
  { t with
    cores := t.cores.map fun c => (c.1, { c.2 with copies := c.2.copies.filter fun j => j.entry ≠ some id })
    cards := t.cards.filter fun c => !cards.contains c.id }

/-- An entry whose record is held is incomplete still (R348): the record says that it was aborted. -/
def HeldRec.aborted (r : HeldRec) (e : Entry) : HeldRec :=
  if r.entry = some e.id && !r.syscall then { r with bytes := doneRecord e.seq e.q e.ty 0x0400 0 } else r

/-- What a queue's later SIGNALs have to wait for is noted. -/
def State.owe (s : State) (st q : Nat) (os : List Owed) : State :=
  s.modStall st fun t => { t with queues := t.queues.put q { t.queue q with owed := (t.queue q).owed ++ os } }

/-- One incomplete entry of an aborted queue; the market of a pass is freed with the pass. -/
def State.abortEntry (s : State) (st : Nat) (e : Entry) : State :=
  match e.st with
  | .complete => s
  | .finished _ _ =>
    (s.setEntry st e.id fun e => { e with st := .finished 0x0400 0, market := if e.ty = 2 then e.market else none }).modStall st
      fun t => { t with heldRecs := t.heldRecs.map fun r => r.aborted e }
  | _ =>
    let s := if e.ty = 0x10 && e.st = .fetched then s.setBusy (pdMarket (sliceBytes e.bytes 64 256)) false else s
    let s := s.setEntry st e.id fun e => { e with market := if e.ty = 2 then e.market else none }
    let ls := s.entryLaunches st e
    let s := (ls.foldl (fun s x => s.abortLaunch x.1 x.2 0x0400 0) s).owe st e.q (ls.map fun x => ⟨x.1, some x.2, s.nextId⟩)
    (s.modStall st fun t => t.dropEntryCopy e.id).entryEnds st e.id 0x0400 0

/-- The passes that a queue deals are aborted with it: their blocks stop, and their market is free; what their blocks and back ends have
written is still performed. -/
def State.abortPasses (s : State) (st q : Nat) : State :=
  (s.passes.filter fun p => p.dealer = st && p.queue = q).foldl (fun s p =>
    let s := (s.members p.market).foldl (fun s x =>
      let ls := (s.stall x).launches.filter fun l => l.ofPass p.market
      let mark := ((Tab.find? p.members x).map (·.mark)).getD 0
      (ls.foldl (fun s l => s.abortLaunch x l.id 0x0400 0) s).owe st q (⟨x, none, mark⟩ :: ls.map fun l => ⟨x, some l.id, s.nextId⟩)) s
    s.closePass p.market) s

/-- QUEUE_ABORT (R349). -/
def execQueueAbort (st q : Nat) (s : State) : Host.Outcome State Fault Refusal :=
  let t := s.stall st
  if !(t.queue q).abort then .next s
  else
    let s := s.modStall st fun t => { t with
      queues := t.queues.put q { t.queue q with abort := false, openPass := none } }
    .next (((t.open' q).foldl (fun s e => s.abortEntry st e) s).abortPasses st q)

end Sys2Proof.Machine
end

