-- ==== Sys2Proof/Machine/Scheduler.lean ====
section
/-! DEFINITION. Range tasks, pipelines, fires and device launches (chapter 13, R359 to R370). -/

set_option Elab.async false

namespace Sys2Proof.Machine

open Sys2Proof

/-! ## Cards read by words -/

/-- The 64 bytes of a card as the squad's thread reads them: a user-mode read, its own queued stores first; or the cause. -/
def Ctx.cardRead (c : Ctx) (va : DWord) : Except Nat (List Byte) := c.plainRead false va 64 64 0

/-- The launch of a card that a word has read: the word holds its issue slot where the card's image waits for a token (R271). -/
def Ctx.launchCard (c : Ctx) (va : DWord) (card : List Byte) (o : Origin) (f : Stall → Stall) : Res :=
  match c.s.cardCode c.q.stall card none with
  | some e => .raise [(0, e)] 0
  | none =>
    let s := (c.s.readTouch c.q false va 64 64 0).modStall c.q.stall f
    .ok (State.makeLaunch { s with nextId := s.nextId + 1 } c.q.stall o card none)

/-- The launch that a word's block belongs to. -/
def Ctx.launch (c : Ctx) : Option Launch := (c.s.stall c.q.stall).launch? c.blk.launch

/-- Where a launch that a word makes comes from (R347, R352). -/
def Ctx.origin (c : Ctx) (src : LaunchSrc) : Origin :=
  let (p, e) : Nat × Word := match c.launch with
    | some l => (l.prio, l.eseq)
    | none => (0, 0)
  ⟨c.s.nextId, src, false, p, 0xFF, 0, e, 0⟩

/-! ## Range tasks (R359, R360, R365, R366) -/

/-- The tasks in the pool of a cluster. -/
def Stall.pool (t : Stall) (cl : Nat) : List Task := t.tasks.filter fun x => x.cluster = cl

/-- tspawn (R365). -/
def execTspawn (h : Hdr) (a : Opnd) (s : State) : Host.Outcome State Fault Refusal :=
  issue h (fun _ => { uses := [⟨a, 8, 8, false⟩], bad := !a.isSca })
    (fun c => match c.real with
      | none => .ok c.s
      | some (l, ln) =>
        let w (k : Nat) : Word := c.rdAt ln a k
        let va := pair64 (w 0) (w 1)
        let done := pair64 (w 5) (w 6)
        if (w 3).toNat ≤ (w 2).toNat || w 4 = 0 || 2 ^ 20 < (w 4).toNat || w 7 ≠ 0 then .raise [(l, 0x02)] 0
        else if va.toNat % 64 ≠ 0 then .raise [(l, 0x20)] va
        else if done.toNat % 4 ≠ 0 then .raise [(l, 0x20)] done
        else match c.cardRead va with
          | .error e => .raise [(l, e)] va
          | .ok card =>
            if 8 ≤ ((c.s.stall c.q.stall).pool (c.q.core / 9)).length then .hold
            else
              let id := c.s.nextId
              c.launchCard va card (c.origin (.task id)) fun t => { t with tasks := t.tasks ++
                [⟨id, c.q.core / 9, (w 2).toNat, (w 3).toNat, (w 4).toNat, done, 0, [((w 2).toNat, (w 3).toNat)], [], id, false⟩] }) s

/-- Grains of a held range. -/
def Hold.grains (x : Hold) (grain : Nat) : Nat := (x.hi - x.lo + grain - 1) / grain

/-- The range a slot holds. -/
def Task.holdOf (t : Task) (index slot : Nat) : Option Hold := t.held.find? fun h => h.index = index && h.slot = slot

/-- Give a slot a range, in place of what it holds. -/
def Task.setHold (t : Task) (h : Hold) : Task :=
  { t with held := (t.held.filter fun x => !(x.index = h.index && x.slot = h.slot)) ++ [h] }

/-- Hand a slot its next chunk (R360): d, the count, and the task after. -/
def Task.next (t : Task) (index slot : Nat) : Nat × Nat × Task :=
  let give (t : Task) (lo hi : Nat) : Nat × Nat × Task :=
    let n := min t.grain (hi - lo)
    (lo, n, t.setHold ⟨index, slot, lo + n, hi⟩)
  match (t.holdOf index slot).filter fun h => h.lo < h.hi with
  | some h => give t h.lo h.hi
  | none => match minBy (·.1) t.unheld with
    | some (lo, hi) => give { t with unheld := t.unheld.erase (lo, hi) } lo hi
    | none =>
      match minBy (fun h => ((2 ^ 33 - h.grains t.grain) * 2 ^ 32 + h.index) * 64 + h.slot)
          (t.held.filter fun h => 2 ≤ h.grains t.grain) with
      | none => (0, 0, t)
      | some v =>
        let m := v.lo + (v.grains t.grain + 1) / 2 * t.grain
        give (t.setHold { v with hi := m }) m v.hi

/-- Whether a block runs a task. -/
def Block.taskId (b : Block) : Option Nat :=
  match b.kind with
  | .task id => some id
  | _ => none

/-- Update a task of a stall. -/
def Stall.modTask (t : Stall) (id : Nat) (f : Task → Task) : Stall :=
  { t with tasks := t.tasks.map fun x => if x.id = id then f x else x }

/-- tnext (R360). -/
def execTnext (h : Hdr) (d : Opnd) (s : State) : Host.Outcome State Fault Refusal :=
  issue h (fun c => { uses := [.w2 d], bad := c.blk.taskId.isNone || !(d.isVec || d.isSca || d = .zero) })
    (fun c => match c.real with
      | none => .ok c.s
      | some _ =>
        let id := c.blk.taskId.getD 0
        match (c.s.stall c.q.stall).tasks.find? fun x => x.id = id with
        | none => .ok (c.writeAll c.s d [0, 0])
        | some t =>
          let (lo, n, t') := t.next c.blk.index c.q.slot
          let s := c.s.modStall c.q.stall fun x => x.modTask id fun _ => t'
          .ok (c.writeAll s d [BitVec.ofNat 32 lo, BitVec.ofNat 32 n])) s

/-- tdone (R366): a release, so it holds until the accesses before it are performed; then it counts. -/
def execTdone (h : Hdr) (d : Opnd) (b : RI) (s : State) : Host.Outcome State Fault Refusal :=
  issue h (fun c => { uses := .w1 d :: riUse false b,
                      bad := c.blk.taskId.isNone || !(d.isVec || d.isSca || d = .zero) || (match b with
                        | .reg o => !o.isSca
                        | .imm _ => false) })
    (fun c => match c.real with
      | none => .ok c.s
      | some (l, ln) =>
        if !c.s.squadQuiet c.q then c.holdBehind
        else
          let id := c.blk.taskId.getD 0
          match (c.s.stall c.q.stall).tasks.find? fun x => x.id = id with
          | none => .ok (c.writeAll c.s d [0])
          | some t =>
            let n := t.count + (c.rdN l ln b).toNat
            let first : Bool := !t.finished && decide (t.hi - t.lo ≤ n)
            match if first then c.s.wordCode c.q.stall t.done else none with
            | some e => .raise [(l, e)] 0
            | none =>
            let s := c.s.modStall c.q.stall fun x => x.modTask id fun t => { t with count := n, finished := t.finished || first }
            let s := if first then s.writeDone c.q.stall t.done (c.origin (.task id)).eseq 1 else s
            .ok (c.writeAll s d [if first then 1 else 0])) s

/-! ## Pipelines (R361 to R363, R367) -/

/-- The pipeline of a block's launch. -/
def Ctx.pipe (c : Ctx) : Option Pipe := (c.s.stall c.q.stall).pipes.find? fun p => p.launch = c.blk.launch

/-- Update a pipeline of a stall. -/
def Stall.modPipe (t : Stall) (launch : Nat) (f : Pipe → Pipe) : Stall :=
  { t with pipes := t.pipes.map fun p => if p.launch = launch then f p else p }

/-- The words that a qget returns: the item, and its stage or CLOSED. -/
def askWords (item : List Word) (stage : Nat) (closed : Bool) : List Word :=
  if closed then [0, 0, 0, 0, 0x80000000] else item ++ [BitVec.ofNat 32 stage]

/-- A qget returns: its registers are written and a word that waited for them may issue. -/
def Squad.answer (q : Squad) (a : Ask) (ws : List Word) : Squad :=
  { q with
    sca := putWords q.sca a.reg ws
    asks := q.asks.filter fun x => x ≠ a
    park := if q.park = .answer then .none else q.park }

/-- The oldest waiting qget of a stage of a launch. -/
def Stall.oldestAsk (t : Stall) (st launch stage : Nat) : Option (Sel × Ask) :=
  minBy (fun x => x.2.order) ((t.blocks st).flatMap fun (b, k) =>
    if k.launch = launch then k.squads.flatMap fun (n, q) =>
      (q.asks.filter fun a => a.stage = stage).map fun a => (⟨b.stall, b.core, b.pos, n⟩, a)
    else [])

/-- Append an item to a stage queue, or hand it to the qget that has waited longest. -/
def State.putItem (s : State) (st launch stage : Nat) (item : List Word) : State :=
  match (s.stall st).oldestAsk st launch stage with
  | some (q, a) => (s.acquireEffect q 1).modSquad q fun x => x.answer a (askWords item stage false)
  | none => s.modStall st fun t => t.modPipe launch fun p => { p with queues := updAt p.queues stage fun l => l ++ [item] }

/-- qput (R367): a release with observer C, so it holds until the squad's reads are performed and its stores have left its queue (log 40). -/
def execQput (h : Hdr) (d a : Opnd) (stage : BitVec 3) (s : State) : Host.Outcome State Fault Refusal :=
  let beyond (c : Ctx) : Bool := c.blk.kern.stages ≠ 0 && c.blk.kern.stages ≤ stage.toNat
  issue h (fun c => if beyond c then { uses := [] }
      else { uses := [.w1 d, ⟨a, 4, 4, false⟩],
             bad := c.blk.kern.stages = 0 || !a.isSca || !(d.isVec || d.isSca || d = .zero) })
    (fun c =>
      if beyond c then .raise (c.present.map fun l => (l.1, 0x02)) 0
      else match c.real, c.pipe with
        | none, _ => .ok c.s
        | _, none => .ok (c.writeAll c.s d [0])
        | some (_, ln), some p =>
          if !c.sq.sq.isEmpty || c.sq.flight.any (fun f => !f.perf) || !c.sq.asks.isEmpty then c.holdBehind
          else if p.drained || 256 ≤ (p.queues.getD stage.toNat []).length then .ok (c.writeAll c.s d [0])
          else
            let item := (List.range 4).map fun k => c.rdAt ln a k
            .ok (c.writeAll (c.s.putItem c.q.stall c.blk.launch stage.toNat item) d [1])) s

/-- The stage of a block (R361). -/
def Pipe.stageIn (p : Pipe) (index : Nat) : Nat := Tab.get (index % max 1 p.stages) p.stageOf index

/-- The stage of a block at its next qget: a pending move takes effect (R362). -/
def Pipe.stageNow (p : Pipe) (index : Nat) : Nat := (Tab.find? p.moved index).getD (p.stageIn index)

/-- qget (R367): the oldest item of the block's stage, or CLOSED; else its registers are written when an item comes. -/
def execQget (h : Hdr) (d : Opnd) (s : State) : Host.Outcome State Fault Refusal :=
  issue h (fun c => { uses := [⟨d, 5, 8, true⟩], bad := c.blk.kern.stages = 0 || !d.isSca })
    (fun c => match c.real, c.pipe, d with
      | some _, some p, .sca k =>
        let n := p.stageNow c.blk.index
        let s := c.s.modStall c.q.stall fun t => t.modPipe p.launch fun p =>
          { p with stageOf := p.stageOf.put c.blk.index n, moved := p.moved.del c.blk.index }
        let s' := s.acquireEffect c.q 1
        if p.drained then .ok (c.writeAll s d (askWords [] 0 true))
        else match p.queues.getD n [] with
          | item :: rest =>
            .ok (c.writeAll (s'.modStall c.q.stall fun t => t.modPipe p.launch fun p =>
              { p with queues := updAt p.queues n fun _ => rest }) d (askWords item n false))
          | [] => .ok { (s.modSquad c.q fun q => { q with asks := q.asks ++ [⟨s.nextId, k.val, n⟩] }) with nextId := s.nextId + 1 }
      | _, _, _ => .ok c.s) s

/-- The blocks of a pipeline launch that have not ended, by index. -/
def Stall.pipeBlocks (t : Stall) (st launch : Nat) : List Nat :=
  ((t.blocks st).filter fun x => x.2.launch = launch).map (·.2.index) ++ (t.saved.filter fun v => v.launch = launch).map (·.index)

/-- The pressure of a stage as a fraction: occupancy over blocks, 0 where the next queue is full (R362). A block whose move has not
taken effect counts in the stage that it is still in. A stage with items and no block has a pressure above every other (log 16). -/
def Pipe.pressure (p : Pipe) (blocks : List Nat) (stage : Nat) : Nat × Nat :=
  let n := (blocks.filter fun i => p.stageIn i = stage).length
  let o := (p.queues.getD stage []).length
  if 256 ≤ (p.queues.getD (stage + 1) []).length || o = 0 then (0, 1) else (o, n)

/-- Whether a fraction is above another; a zero denominator is above all. -/
def fracLt (a b : Nat × Nat) : Bool := a.1 * b.2 < b.1 * a.2

/-- One reassignment of a pipeline (R362). -/
def Pipe.reassign (p : Pipe) (blocks : List Nat) : Pipe :=
  let pr := p.pressure blocks
  let stages := List.range p.stages
  let hi := stages.foldl (fun b x => if fracLt (pr b) (pr x) then x else b) 0
  let few (x : Nat) : Bool := 2 ≤ (blocks.filter fun i => p.stageIn i = x).length
  match (stages.filter few).foldl (fun b x => match b with
      | none => some x
      | some y => if fracLt (pr y) (pr x) then some y else some x) (none : Option Nat) with
  | none => p
  | some lo =>
    let a := pr hi
    let b := pr lo
    if lo ≠ hi && (b.1 + 16 * b.2) * a.2 ≤ a.1 * b.2 then
      { p with moved := p.moved.put (((blocks.filter fun i => p.stageIn i = lo).foldl max 0)) hi }
    else p

/-- PIPELINE_REASSIGN (R362): every 4,096 clocks. -/
def execPipelineReassign (st i : Nat) (s : State) : Host.Outcome State Fault Refusal :=
  let t := s.stall st
  .next (match t.pipes[i]? with
    | none => s
    | some p =>
      if p.since + 4096 ≤ t.clock then s.modStall st fun t => t.modPipe p.launch fun p =>
        { (p.reassign (t.pipeBlocks st p.launch)) with since := t.clock }
      else s)

/-- Whether a squad has a job that a waiting qget of its own holds (R299, R361). -/
def Squad.jobAsked (q : Squad) (t : Stall) (b : BSel) (k : Block) (slot : Nat) : Bool :=
  ((t.core b.core).copies.any fun j => j.pos = some b.pos && j.slot = slot && q.asked j.after)
    || (t.colls.any fun j => j.core = b.core && j.pos = b.pos && j.slot = slot && q.asked j.after)
    || (k.eng.queued ++ k.eng.run.map (·.src)).any fun x => x.1 = slot && q.asked x.2

/-- Whether a squad waits in a qget: its word, the results at its marker or the jobs whose tags it waits for are held by a qget that
waits (R363, log 16). -/
def Squad.inQget (q : Squad) (t : Stall) (b : BSel) (k : Block) (slot : Nat) : Bool :=
  match q.park with
  | .answer => true
  | .marker => q.flight.any fun f => f.named && !f.ret && q.asked f.id
  | .tags | .pwait => q.jobAsked t b k slot
  | _ => false

/-- Whether every lane of a squad waits at a barrier. -/
def Squad.atBar (q : Squad) : Bool := q.lanes.all fun l => match l.2.at' with
  | .held h => h.bar.isSome
  | _ => false

/-- Whether a block waits in qget: a squad waits in one, every other waits in one too or at a barrier, and none of its threads is filed but
at a barrier (R363, log 16). -/
def waitsInQget (t : Stall) (b : BSel) (k : Block) : Bool :=
  k.squads.any (fun x => x.2.inQget t b k x.1)
    && k.squads.all (fun x => x.2.atBar || x.2.inQget t b k x.1)
    && (t.core b.core).recs.all fun r => r.pos ≠ b.pos || (r.bar.isSome && !r.passed)

/-- Whether a pipeline launch is drained (R363). -/
def Stall.pipeDrained (t : Stall) (st : Nat) (p : Pipe) : Bool :=
  p.queues.all (·.isEmpty) && !(t.saved.any fun v => v.launch = p.launch)
    && (t.blocks st).all (fun x => x.2.launch ≠ p.launch || waitsInQget t x.1 x.2)
    && (match t.launch? p.launch with
      | some l => l.next = l.grid
      | none => true)

/-- Every waiting qget of a pipeline returns CLOSED. -/
def State.closeAsks (s : State) (st launch : Nat) : State := s.modStall st fun t => { t with
  cores := t.cores.map fun c => (c.1, { c.2 with blocks := c.2.blocks.map fun b =>
    (b.1, if b.2.launch = launch then { b.2 with squads := b.2.squads.map fun q =>
      (q.1, q.2.asks.foldl (fun q a => q.answer a (askWords [] 0 true)) q.2) } else b.2) }) }

/-- PIPELINE_DRAIN (R363). -/
def execPipelineDrain (st i : Nat) (s : State) : Host.Outcome State Fault Refusal :=
  let t := s.stall st
  .next (match t.pipes[i]? with
    | none => s
    | some p =>
      if !p.drained && t.pipeDrained st p then
        (s.modStall st fun t => t.modPipe p.launch fun p => { p with drained := true }).closeAsks st p.launch
      else s)

/-! ## Arming, fires and device launches (R368 to R370) -/

/-- arm (R368). -/
def execArm (h : Hdr) (a : Opnd) (s : State) : Host.Outcome State Fault Refusal :=
  issue h (fun _ => { uses := [⟨a, 4, 4, false⟩], bad := !a.isSca })
    (fun c => match c.real with
      | none => .ok c.s
      | some (l, ln) =>
        let w (k : Nat) : Word := c.rdAt ln a k
        if (w 2) &&& 0x7FFF0000 ≠ 0 || w 3 ≠ 0 then .raise [(l, 0x02)] 0
        else
          let e := 16 * ((w 2).toNat % 256)
          let prio := match c.launch with
            | some l => l.prio
            | none => 0
          .ok (c.s.modStall c.q.stall fun t =>
            if (w 2).getLsbD 31 then { t with armt := t.armt.wr (e + 10) 0 }
            else { t with armt := t.armt.wrs e (leBytes 8 (pair64 (w 0) (w 1)).toNat ++ leBytes 1 ((w 2).toNat / 256 % 256)
              ++ leBytes 1 prio ++ [1] ++ List.replicate 5 0) })) s

/-- launch (R370). -/
def execLaunch (h : Hdr) (a : Opnd) (s : State) : Host.Outcome State Fault Refusal :=
  issue h (fun _ => { uses := [⟨a, 4, 4, false⟩], bad := !a.isSca })
    (fun c => match c.real with
      | none => .ok c.s
      | some (l, ln) =>
        let va := pair64 (c.rdAt ln a 0) (c.rdAt ln a 1)
        let done := pair64 (c.rdAt ln a 2) (c.rdAt ln a 3)
        if va.toNat % 64 ≠ 0 then .raise [(l, 0x20)] va
        else if done.toNat % 4 ≠ 0 then .raise [(l, 0x20)] done
        else match c.cardRead va with
          | .error e => .raise [(l, e)] va
          | .ok card =>
            if 256 ≤ (c.s.stall c.q.stall).devq then .hold
            else c.launchCard va card (c.origin (.device done)) fun t => { t with devq := t.devq + 1 }) s

/-- One fire leaves its entry's count (R368, R369). -/
def Stall.countFire (t : Stall) (tag : Nat) : Stall :=
  let e := 16 * tag
  let n := t.armt.num (e + 8) 1
  if n = 0 then t
  else { t with armt := (t.armt.wr (e + 8) (BitVec.ofNat 8 (n - 1))).wr (e + 10) (if n = 1 then 0 else 1) }

/-- FIRE (R369): the armed card is launched with the payload slot of the message, as it stood when the message was appended
(log 17). It waits for a token of the card or of its image (R271). -/
def execFire (st i : Nat) (s : State) : Host.Outcome State Fault Refusal :=
  let t := s.stall st
  .next (match t.fires[i]? with
    | none => s
    | some f =>
      let gone (s : State) : State := s.modStall st fun t => { t with fires := t.fires.eraseIdx i }
      let e := 16 * f.tag
      let eseq := BitVec.ofNat 32 f.seq
      let va := t.armt.num e 8
      if t.armt.num (e + 10) 1 % 2 = 0 then (gone s).deviceRecord st eseq 0x0500 (f.tag + 256 * f.mb)
      else match s.userRead st .read va 64 with
        | .error c => if isWait c then s.askFor st c else ((gone s).modStall st fun t => t.countFire f.tag).deviceRecord st eseq 0x0400 c
        | .ok card =>
          if s.cardWaits st card (some f.off) then s.askCard st card (some f.off)
          else
            let s := ((gone s).userTouch st .read va 64).modStall st fun t => t.countFire f.tag
            State.makeLaunch { s with nextId := s.nextId + 1 } st
              ⟨s.nextId, .fire f.core f.off f.payload, false, t.armt.num (e + 9) 1 % 8, 0xFF, 0, eseq, 0⟩ card (some f.off))

end Sys2Proof.Machine
end

