-- ==== Sys2Proof/Machine/Image.lean ====
section
/-! DEFINITION. The image of a saved block: what is written to its context slot and what is read back (chapter 16, R454 to
R458). -/

set_option Elab.async false

namespace Sys2Proof.Machine

open Sys2Proof

/-! ## Bytes of the parts -/

/-- A watch slot (R455). -/
def Watch.bytes (w : Watch) : List Byte :=
  let pad := match w.tgt with
    | .pad _ => 2
    | _ => 0
  leBytes 8 (if w.armed then w.va.toNat % 2 ^ 52 / 64 * 64 + pad + 1 else 0)

/-- The loop record of a counter: an active loop, or zeros. -/
def loopBytes (ls : List Loop) (ctr : Nat) : List Byte :=
  match ls.find? fun l => l.ctr = ctr with
  | none => List.replicate 24 0
  | some l => leBytes 8 l.first.toNat ++ leBytes 8 ((l.entered.map fun n => 2 ^ n).foldl (· + ·) 0) ++ leBytes 2 l.len ++ [1]
      ++ List.replicate 5 0

/-- An entry of the lane table. -/
def laneBytes (pc : DWord) (barrier : Bool) (ln : Option Lane) (ends : Nat → DWord) : List Byte :=
  match ln with
  | none => List.replicate 16 0
  | some ln =>
    let (p, live, flags) := match ln.at' with
      | .issue => (pc, 0, 0)
      | .held h => (h.pc, h.live, (if h.bar.isSome then 8 else 0) + if barrier && h.bar.isSome then 0 else 4)
      | .atEnd c => (ends c, 0, 16)
    leBytes 8 p.toNat ++ leBytes 2 (ln.tid % 1024 + live * 1024) ++ leBytes 1 ln.p.toNat
      ++ leBytes 1 (flags + 1 + if ln.helper then 2 else 0) ++ leBytes 4 ln.rnd.toNat

/-- The barrier at which a squad with no issuing lane is parked. -/
def Squad.barOf (q : Squad) : Option Nat :=
  if q.issuing.isEmpty then
    (q.lanes.findSome? fun l => match l.2.at' with
      | .held h => h.bar
      | _ => none)
  else none

/-- STATE (R455). -/
def Squad.state (q : Squad) (all : Bool) : Nat :=
  if q.lanes.isEmpty then 0
  else match q.park with
    | .wait _ _ _ _ => 3
    | .pwait => 4
    | .tags => if all then 6 else 5
    | .call _ => 8
    | _ => if q.barOf.isSome then 7 else 1

/-- Whether a word is twall. -/
def isTwall (w : DWord) : Bool := !w.getLsbD 62 && field w 61 54 = 0x97

/-- A vector register of a lane in the image. -/
def laneWord (ln : Option Lane) (r : Nat) : List Byte :=
  leBytes 4 (match ln with
    | none => 0
    | some ln => (Tab.get 0 ln.v r).toNat)

/-- A squad record (R455): 0x600 bytes and its registers. -/
def Squad.bytes (q : Squad) (w budget : Nat) (all : Bool) : List Byte :=
  let pc := match q.barOf with
    | none => q.pc
    | some n => (q.lanes.findSome? fun l => match l.2.at' with
        | .held h => if h.bar = some n then some h.pc else none
        | _ => none).getD q.pc
  let lane (l : Nat) : Option Lane := Tab.find? q.lanes l
  leBytes 8 pc.toNat ++ wordsBytes q.lc 3 ++ leBytes 1 (q.state all) ++ leBytes 1 (q.barOf.getD 0) ++ leBytes 1 w
    ++ leBytes 1 (budget / 8) ++ q.w0.bytes ++ q.w1.bytes ++ leBytes 8 q.dbg.toNat ++ leBytes 8 q.wp0.toNat
    ++ leBytes 8 q.wp1.toNat ++ loopBytes q.loops 0 ++ loopBytes q.loops 1 ++ loopBytes q.loops 2
    ++ List.replicate 56 0 ++ wordsBytes q.sca 48 ++ List.replicate 128 0
    ++ (List.range 64).flatMap (fun l => laneBytes pc q.barOf.isSome (lane l) fun c => ((q.loops.find? fun x => x.ctr = c).map Loop.endPc).getD 0)
    ++ ((List.range budget).flatMap fun r => (List.range w).flatMap fun l => laneWord (lane l) r)

/-- An empty squad slot's record. -/
def emptySquad (w budget : Nat) : List Byte :=
  List.replicate 0x16 0 ++ leBytes 1 w ++ leBytes 1 (budget / 8) ++ List.replicate (0x600 - 0x18 + 4 * w * budget) 0

/-- Plane 0 and plane 1 of an engine (R454). -/
def Engine.plane (e : Engine) (n : Nat) : Plane := if (n = 1) = e.act1 then e.active else e.shadow

/-- A plane in the image: 16 KiB of values, the NF bits, and zeros. -/
def Plane.bytes (p : Plane) : List Byte :=
  p.data.rds 0 16384
    ++ p.nf.rds 0 128
    ++ List.replicate 128 0

/-- A hardware barrier in the image. -/
def Bar.word (b : Bar) : Nat := (if b.phase then 2 ^ 31 else 0) + b.count

/-- The root of a spawned thread, by thread index: from its lane or its record. -/
def rootOf (b : Block) (recs : List Rec) (t : Nat) : Option Nat :=
  match b.squads.findSome? fun q => q.2.lanes.findSome? fun l => if l.2.tid = t && !l.2.helper then l.2.root else none with
  | some r => some r
  | none => recs.findSome? fun r => if r.tid = t && !r.helper then r.root else none

/-- The query table of a block (R454). -/
def queryBytes (c : Core) (pos : Nat) : List Byte :=
  let qs := c.queries.filter fun x => x.1 / 1024 = pos
  (List.range 64).flatMap fun i => match qs[i]? with
    | none => leBytes 4 0
    | some x => leBytes 4 (2 ^ 31 + x.2.count * 1024 + x.1 % 1024)

/-- The records of a block, bin by bin, bins in order of their oldest STAMP (R456); ages are taken modulo 2^32. -/
def binOrder (now : Nat) (recs : List Rec) : List Rec :=
  (sortBy (fun b => 2 ^ 32 - oldestAge now b) ((nub (recs.map fun r => (r.role, r.pc))).map fun k =>
    recs.filter fun r => (r.role, r.pc) = k)).flatten

/-- Register budget of each squad slot. -/
def Kern.budgetAt (k : Kern) (j : Nat) : Nat := k.budget (roleAt k.roles j)

/-- Q(s) relative to the slot (R455). -/
def Kern.squadOff (k : Kern) (s : Nat) : Nat :=
  0x10000 + ((List.range s).map fun j => 0x600 + 4 * k.width * k.budgetAt j).foldl (· + ·) 0

/-- P0 (R456). -/
def Kern.padOff (k : Kern) : Nat := (k.squadOff k.slots + 4095) / 4096 * 4096

/-- The records that lie in the slot, and those that pass its end. -/
def splitRecs (room : Nat) : List Rec → List Rec × List Rec
  | [] => ([], [])
  | r :: rs => if r.size ≤ room then
      let (a, b) := splitRecs (room - r.size) rs
      (r :: a, b)
    else ([], r :: rs)

/-- Bytes of a context slot. -/
def Stall.slotSize (t : Stall) : Nat := field t.savea 63 56 * 2 ^ 20

/-- The records of a block at a position. -/
def Core.recsOf (c : Core) (now pos : Nat) : List Rec := binOrder now (c.recs.filter fun r => r.pos = pos)

/-- Whether a save of a block fits (R456). -/
def State.saveFits (s : State) (b : BSel) (k : Block) : Bool :=
  let t := s.stall b.stall
  let base := k.kern.padOff + k.kern.pad + k.kern.am
  let rest := (splitRecs (t.slotSize - base) ((t.core b.core).recsOf t.clock b.pos)).2
  let mine := ((t.core b.core).recs.filter fun r => r.pos = b.pos && r.spilled).map Rec.size
  t.savesOn && base ≤ t.slotSize
    && (rest.map Rec.size).foldl (· + ·) 0 + t.spillUsed b.core ≤ t.spillShare + mine.foldl (· + ·) 0

/-- The block part of an image, from 0x4000 to 0x10000 (R454). -/
def State.blockPart (s : State) (b : BSel) (k : Block) (nrec recBytes spillN : Nat) : List Byte :=
  let c := s.core b.stall b.core
  let e := k.eng
  let recs := c.recsOf (s.cyc b.stall b.core) b.pos
  let z := List.replicate 0xC000 (0 : Byte)
  let put (o : Nat) (bs : List Byte) (l : List Byte) : List Byte := l.take o ++ bs ++ l.drop (o + bs.length)
  let held : Nat := (if k.kern.mqEnt ≠ 0 then 1 else 0) + (if k.kern.mbox ≠ [] then 2 else 0) + if k.kern.quad then 4 else 0
  let head := leBytes 4 k.fpc.rest.toNat ++ leBytes 4 e.mxs.toNat ++ leBytes 8 k.tagsDone.toNat ++ leBytes 4 k.ksp.toNat
    ++ leBytes 2 k.kern.bage ++ leBytes 1 k.kern.slots ++ leBytes 1 held ++ leBytes 4 k.kern.pad ++ leBytes 4 k.kern.am
    ++ leBytes 4 (s.cyc b.stall b.core % 2 ^ 32) ++ leBytes 4 nrec ++ leBytes 8 recBytes
    ++ leBytes 1 (if spillN = 0 then 0xFF else b.core) ++ List.replicate 3 0 ++ leBytes 4 spillN ++ List.replicate 8 0
    ++ (List.range 16).flatMap (fun n => leBytes 4 (Tab.get ⟨0, false⟩ k.bars n).word)
    ++ leBytes 4 e.mqb.toNat ++ leBytes 4 e.mqh.toNat ++ leBytes 4 e.mqt.toNat
    ++ leBytes 4 ((if e.act1 then 1 else 0) + (if e.joined then 2 else 0) + e.gseq * 65536)
    ++ leBytes 2 (e.plane 0).bits ++ leBytes 2 (e.plane 1).bits ++ List.replicate 4 0
    ++ leBytes 4 (e.plane 0).seed ++ leBytes 4 (e.plane 1).seed
  put 0x5100 (e.plane 1).bytes (put 0x1000 (e.plane 0).bytes (put 0x200 ((List.range 1024).flatMap fun t =>
    leBytes 2 (match rootOf k recs t with
      | none => 0
      | some r => 2 ^ 15 + r)) (put 0x100 (queryBytes c b.pos) (put 0 head z))))

/-- The bytes of an image from offset 0x4000 (R454 to R456). -/
def State.imageOf (s : State) (b : BSel) (k : Block) : List Byte :=
  let t := s.stall b.stall
  let base := k.kern.padOff + k.kern.pad + k.kern.am
  let (ins, outs) := splitRecs (t.slotSize - base) ((t.core b.core).recsOf t.clock b.pos)
  let sq (j : Nat) : List Byte := match Tab.find? k.squads j with
    | none => emptySquad k.kern.width (k.kern.budgetAt j)
    | some q =>
      let all : Bool := match s.codeAt b.stall k.kern false q.pc 0 with
        | .ok p => isTwall (s.codeWord b.stall p)
        | .error _ => false
      q.bytes k.kern.width (k.kern.budgetAt j) all
  let squads := (List.range k.kern.slots).flatMap sq
  s.blockPart b k ins.length ((ins.map Rec.size).foldl (· + ·) 0) outs.length ++ squads
    ++ List.replicate (k.kern.padOff - k.kern.squadOff k.kern.slots) 0 ++ k.pad.rds 0 k.kern.pad ++ k.am.rds 0 k.kern.am
    ++ ins.flatMap Rec.bytes

/-! ## Reading an image back (R457) -/

/-- A register file from bytes. -/
def filesOf (bs : List Byte) (o n : Nat) : Tab Word :=
  (List.range n).foldl (fun t i => Tab.set 0 t i (BitVec.ofNat 32 (sliceNum bs (o + 4 * i) 4))) []

/-- Bytes as a memory. -/
def memOf (bs : List Byte) : Mem := Mem.wrs [] 0 bs

/-- A record from its bytes, for a position; its role, its filing and whether its barrier has completed are those given, and a thread keeps its outputs (R162, R392, R457). -/
def recOf (v : Saved) (bs : List Byte) (o pos : Nat) (role : Nat × Nat × Bool) (shift : Nat) (roots : Nat → Option Nat) : Rec :=
  let live := sliceNum bs (o + 11) 1
  let pb := sliceNum bs (o + 12) 1
  let bb := sliceNum bs (o + 13) 1
  let fl := sliceNum bs (o + 14) 1
  let tid := sliceNum bs (o + 8) 2 % 1024
  { pos := pos, role := role.1, pc := BitVec.ofNat 64 (sliceNum bs o 8), tid := tid, lane := sliceNum bs (o + 10) 1, live := live,
    pred := BitVec.ofNat 7 pb, helper := 128 ≤ pb, bar := if 128 ≤ bb then some (bb % 16) else none, passed := role.2.2,
    spawn := fl % 2 = 1, atWait := fl / 2 % 2 = 1, rsk := sliceNum bs (o + 15) 1, rnd := BitVec.ofNat 32 (sliceNum bs (o + 16) 4),
    stamp := (sliceNum bs (o + 20) 4 + shift) % 2 ^ 32, regs := filesOf bs (o + 32) (4 * live),
    root := if 128 ≤ pb then none else roots tid, src := freeSrc, srcId := 0, spill := [], unit := role.2.1,
    pxo := if 128 ≤ pb then [] else Tab.get [] v.pxo tid }

/-- n records from bytes. -/
def recsFrom (v : Saved) (bs : List Byte) (pos shift : Nat) (roots : Nat → Option Nat) : Nat → Nat → Nat → List Rec
  | _, _, 0 => []
  | o, i, n + 1 =>
    let r := recOf v bs o pos (v.roles.getD i (0, i, false)) shift roots
    r :: recsFrom v bs pos shift roots (o + r.size) (i + 1) n

/-- The loops of a squad, innermost first: a nested body is shorter than the one around it. -/
def loopsOf (bs : List Byte) (o : Nat) : List Loop :=
  sortBy (·.len) ((List.range 3).filterMap fun c =>
    let p := o + 0x40 + 24 * c
    if sliceNum bs (p + 18) 1 % 2 = 1 then
      some ⟨BitVec.ofNat 64 (sliceNum bs p 8), sliceNum bs (p + 16) 2, c, bitsOf (BitVec.ofNat 64 (sliceNum bs (p + 8) 8))⟩
    else none)

/-- The barrier of a bar word. -/
def barOfWord (w : DWord) : Nat := field w 3 0

/-- A watch slot after a restore: an armed one has its hit bit set (R206). -/
def State.watchOf (s : State) (st : Nat) (v : DWord) : Watch :=
  if !v.getLsbD 0 then .off
  else
    let va := v &&& 0x000FFFFFFFFFFFC0
    if v.getLsbD 1 then ⟨true, true, .pad (va.toNat / 64), va⟩
    else match s.translate st false va .read 1 0 with
      | .ok t => ⟨true, true, s.watchLine st t.place, va⟩
      | .error _ => ⟨true, true, .dev (2 ^ 64), va⟩

/-- A lane of an image. A held lane counts its BAGE clocks from the restore (R172): the image does not hold its time. -/
def laneOf (s : State) (v : Saved) (kern : Kern) (bs : List Byte) (o l slot w budget clock : Nat) (loops : List Loop)
    (roots : Nat → Option Nat) : Option Lane :=
  let p := o + 0x200 + 16 * l
  let fl := sliceNum bs (p + 11) 1
  let st := sliceNum bs (o + 0x14) 1
  let pc : DWord := BitVec.ofNat 64 (sliceNum bs p 8)
  let tw := sliceNum bs (p + 8) 2
  if fl % 2 = 0 then none
  else
    let helper := fl.testBit 1
    let barrier : Option Nat := if !fl.testBit 3 then none
      else if st = 7 && !fl.testBit 2 then some (sliceNum bs (o + 0x15) 1 % 16)
      else match s.codeAt slot kern false (pc - 8) 0 with
        | .ok p => some (barOfWord (s.codeWord slot p))
        | .error _ => some 0
    let at' : LaneAt :=
      let mine := loops.filter fun x => x.entered.contains l
      match fl.testBit 4, mine.find? fun x => x.endPc = pc with
      | true, some x => .atEnd x.ctr
      | _, _ =>
        if fl.testBit 2 || fl.testBit 3 || fl.testBit 4 then
          .held ⟨pc, tw / 1024, clock, 0, barrier, if fl.testBit 3 then [] else (mine.filter fun x => !x.holds pc).map (·.ctr)⟩
        else .issue
    some { tid := tw % 1024
           v := (List.range budget).foldl (fun t r =>
             Tab.set 0 t r (BitVec.ofNat 32 (sliceNum bs (o + 0x600 + 4 * (r * w + l)) 4))) []
           p := BitVec.ofNat 7 (sliceNum bs (p + 10) 1)
           rnd := BitVec.ofNat 32 (sliceNum bs (p + 12) 4)
           rstack := []
           resv := none
           helper := helper
           at' := at'
           root := if helper then none else roots (tw % 1024)
           pxo := Tab.get [] v.pxo (tw % 1024) }

/-- A squad of an image, or none for an empty slot (R455, R457). The image has no field for a draw from an aged bin that was not full (R58,
R169) or for the clock of residence: the squad passes its next reform as any other, and its residence starts anew (log 24). -/
def State.squadOf (s : State) (st : Nat) (v : Saved) (kern : Kern) (bs : List Byte) (j clock : Nat)
    (roots : Nat → Option Nat) : Option Squad :=
  let o := kern.squadOff j - 0x4000
  let state := sliceNum bs (o + 0x14) 1
  let pc : DWord := BitVec.ofNat 64 (sliceNum bs o 8)
  if state = 0 then none
  else
    let loops := loopsOf bs o
    let lanes := (List.range 64).filterMap fun l => (laneOf s v kern bs o l st kern.width (kern.budgetAt j) clock loops roots).map fun x => (l, x)
    let park : Park := match state with
      | 3 => match s.codeAt st kern false pc 0 with
        | .error _ => .none
        | .ok p => match decode (s.codeWord st p) with
          | .ok (.wait h d _) => .wait h d none true
          | _ => .none
      | 8 => .call (Tab.get none v.calls j)
      | _ => .none
    let w0 := s.watchOf st (BitVec.ofNat 64 (sliceNum bs (o + 0x18) 8))
    let w1 := s.watchOf st (BitVec.ofNat 64 (sliceNum bs (o + 0x20) 8))
    let dbg : DWord := BitVec.ofNat 64 (sliceNum bs (o + 0x28) 8) &&& 1
    let wp (k : Nat) : DWord := BitVec.ofNat 64 (sliceNum bs (o + k) 8) &&& 0x000FFFFFFFFFFFC7
    some { Squad.start (roleAt kern.roles j) pc lanes clock with
      sca := filesOf bs (o + 0xC0) 48
      lc := filesOf bs (o + 8) 3
      loops := loops
      w0 := w0
      w1 := w1
      park := park
      asks := Tab.get [] v.asks j
      hr := Tab.get .reset v.regs j
      step := dbg.getLsbD 0
      dbg := dbg
      wp0 := wp 0x30
      wp1 := wp 0x38 }

/-- A plane of an image. -/
def planeOf (bs : List Byte) (o bits seed : Nat) : Plane :=
  ⟨bits % 2 = 1, bits / 2 % 16, bits / 32 % 4, seed, memOf (sliceBytes bs o 16384), memOf (sliceBytes bs (o + 16384) 128)⟩

/-- The engine of an image (R246); reserved fields read as zero (R8, R214, R215, R248). -/
def engineOf (bs : List Byte) : Engine :=
  let fl := sliceNum bs 0x8C 4
  let p0 := planeOf bs 0x1000 (sliceNum bs 0x90 2) (sliceNum bs 0x98 4)
  let p1 := planeOf bs 0x5100 (sliceNum bs 0x92 2) (sliceNum bs 0x9C 4)
  let act1 : Bool := fl % 2 = 1
  let w (o : Nat) (m : Word) : Word := BitVec.ofNat 32 (sliceNum bs o 4) &&& m
  { mqb := w 0x80 0xFF87FFF0, mqh := w 0x84 0x100FF, mqt := w 0x88 0x100FF, mxs := w 4 0x1F,
    active := if act1 then p1 else p0, shadow := if act1 then p0 else p1, act1 := act1,
    joined := fl / 2 % 2 = 1, gseq := fl / 65536, queued := [], run := [], waitFrom := none, waited := 0, dispatched := none }

/-- The tags that queued MTAG commands name (R246). -/
def Block.queuedTags (b : Block) : DWord :=
  (List.range b.eng.occ).foldl (fun m i =>
    let a := b.eng.slot ((mqIdx b.eng.mqh + i) % max 1 b.eng.ent)
    let r : BitVec 128 := BitVec.ofNat 128 (b.pad.num a 16)
    if mCmd r = 6 then setBit m (mf r 21 16) true else m) 0

end Sys2Proof.Machine
end

