-- ==== Sys2Proof/Machine/Traps.lean ====
section
/-! DEFINITION. Halts and their records, supervisor mode, calls and the answers of the host (chapter 16, R433 to R452, R459 to
R464, R492). -/

set_option Elab.async false

namespace Sys2Proof.Machine

open Sys2Proof

/-! ## Gangs and where blocks stand -/

/-- A block's gang as it is resident, itself included (R48). -/
def State.gangOf (s : State) (b : BSel) : List (BSel × Block) :=
  match s.block? b with
  | none => []
  | some me => ((s.stall b.stall).blocks b.stall).filter fun x => x.1 = b || sameGang me x.2

/-- The resident block of a launch with an index. -/
def State.findBlock (s : State) (st launch index : Nat) : Option (BSel × Block) :=
  ((s.stall st).blocks st).find? fun x => x.2.launch = launch && x.2.index = index

/-- Squad slots that hold threads. -/
def Block.fullSlots (k : Block) : List Nat := (k.squads.filter fun x => !x.2.lanes.isEmpty).map (·.1)

/-! ## The supervisor image (R442, R445) -/

/-- The local address of the supervisor image that SVEC names. -/
def Stall.supImage (t : Stall) : Nat := field t.svec 40 8 * 256

/-- Whether SVEC names an image in DRAM. -/
def Stall.supOn (t : Stall) : Bool := t.svec.getLsbD 0 && inDram (t.supImage + 255)

/-- Whether the read of the supervisor image's header waits for a token (R271). -/
def State.supWaits (s : State) (st : Nat) : Bool :=
  (s.stall st).supOn && !s.readableAt st (s.localPa st (s.stall st).supImage) 256

/-- The lines of the supervisor image's header are asked for (R274). -/
def State.askSup (s : State) (st : Nat) : State := s.askAt st (s.localPa st (s.stall st).supImage) 256

/-- The header of the supervisor image has been read. -/
def State.supRead (s : State) (st : Nat) : State :=
  if (s.stall st).supOn then s.takeReads st (linesOf (s.localPa st (s.stall st).supImage) 256) else s

/-- The entry PC of the stall supervisor: SVEC.V is set and IMG names a well-formed FORM 1 image, none of it lost. -/
def State.supEntry (s : State) (st : Nat) : Option DWord :=
  let img := (s.stall st).supImage
  let h := s.seenBytes st (s.localPa st img) 256
  if (s.stall st).supOn && !s.lostSeen st (s.localPa st img) 256 && khNamed h && khForm h = 1 && khOk h then
    some (BitVec.ofNat 64 (img + 256 + 8 * khEntry h))
  else none

/-- The user's lanes while its squad is in supervisor mode: those of the issuing group issue, and the others stay held (R445).
A squad with no issuing group, at a barrier or at the end of a loop's body, enters with the lanes that wait there. -/
def supLanes (q : Squad) : Tab Lane :=
  let chosen (ln : Lane) : Bool :=
    if !q.issuing.isEmpty then ln.at' = .issue
    else match q.barOf, ln.at' with
      | some n, .held h => h.bar = some n
      | none, _ => true
      | _, _ => false
  q.lanes.map fun (l, ln) => (l,
    if chosen ln then { ln with at' := .issue }
    else { ln with at' := .held ⟨q.pc, 0, 0, 0, some 16, []⟩ })

/-- A squad goes to supervisor mode at a PC (R445), keeping what it goes back to; one whose trap came from supervisor mode keeps
what it has kept already (log 18). -/
def Squad.enterSup (q : Squad) (entry : DWord) (reply : Option Nat) : Squad :=
  { q with
    lanes := supLanes q
    loops := []
    park := .none
    point := none
    pc := entry
    sup := true
    hr := if q.sup then { q.hr with reply := reply }
      else { q.hr with upc := q.pc, park := q.park, ats := q.lanes.map (fun x => (x.1, x.2.at')), loops := q.loops, reply := reply } }

/-- A squad leaves supervisor mode: its PC, lanes, loops and park are as they were. -/
def Squad.leaveSup (q : Squad) : Squad :=
  if q.sup then
    { q with
      lanes := q.lanes.map fun (l, ln) => (l, { ln with at' := Tab.get ln.at' q.hr.ats l })
      loops := q.hr.loops
      pc := q.hr.upc
      park := q.hr.park
      sup := false
      hr := { q.hr with upc := 0, park := .none, ats := [], loops := [], reply := none } }
  else q

/-- A squad that is to go on at a PC: a park that it has been moved away from is over, unless it waits for a call's answer; and at the
end of a loop's body its lanes wait for the end test (R175). -/
def Squad.moveTo (q : Squad) (pc : DWord) : Squad :=
  if pc = q.pc then q
  else
    { q with
      pc := pc
      park := match q.park with
        | .call n => .call n
        | _ => .none }.fallEnd

/-- The supervisor scalar file of an issue slot is free. -/
def Core.supFree (c : Core) (islot : Nat) : Bool := (Tab.find? c.supOwner islot).isNone

/-- The file of a squad's issue slot becomes free. -/
def State.freeSup (s : State) (q : Sel) : State := s.modCore q.stall q.core fun c =>
  { c with supOwner := c.supOwner.filter fun x => x.2 ≠ (q.pos, q.slot), supFile := c.supFile.del q.islot }

/-- SUPERVISOR ENTRY (R445, R451): the squad of a slot enters; s0 and s1 hold CTX, and the words of a REPLY follow from s2. -/
def State.enterSup (s : State) (q : Sel) (entry : DWord) (reply : Option Nat) (args : List Word) : State :=
  match s.block? q.blk with
  | none => s
  | some k =>
    let ctx := ctxOf s q.stall k
    let s := s.modCore q.stall q.core fun c =>
      { c with supFile := c.supFile.put q.islot (putWords [] 0 (lo32 ctx :: hi32 ctx :: args)),
               supOwner := c.supOwner.put q.islot (q.pos, q.slot) }
    s.modSquad q fun x => x.enterSup entry reply

/-! ## Records (R448, R449) -/

/-- ESEQ and QUEUE of a launch. -/
def State.entryOf (s : State) (st launch : Nat) : Word × Nat :=
  match (s.stall st).launch? launch with
  | some l => (l.eseq, l.queue)
  | none => (0, 0xFF)

/-- A record of the system-call ring after its RSEQ: KIND, CAUSE, FLANE, BLOCK, SQUAD, PCORE, IMM16, PC and the 24 bytes of
ARGS. -/
def callRecord (st kind cause flane block squad pcore imm : Nat) (pc : DWord) (args : List Byte) (eseq : Word) (queue : Nat) :
    List Byte :=
  [BitVec.ofNat 8 kind, BitVec.ofNat 8 cause, BitVec.ofNat 8 st, BitVec.ofNat 8 flane] ++ leBytes 4 block
    ++ [BitVec.ofNat 8 squad, BitVec.ofNat 8 pcore] ++ leBytes 2 imm ++ leBytes 8 pc.toNat ++ sliceBytes args 0 24
    ++ leBytes 4 eseq.toNat ++ leBytes 1 queue ++ List.replicate 11 0

/-- Hold a record of the system-call ring until it can be written. -/
def State.postCall (s : State) (st : Nat) (bytes : List Byte) (out : OutRec) : State :=
  s.modStall st fun t => { t with heldRecs := t.heldRecs ++ [⟨true, bytes, none, some out⟩] }

/-- The PC of the word that raised a halt's cause, or the EPC of the primary squad where no word raised it (R449). A single step's
cause follows its word, and the PC is that of the next one. -/
def State.causePc (k : Block) : DWord :=
  match Tab.find? k.squads k.halt.psq with
  | none => 0
  | some q => if k.halt.flane = 0x7F then q.hr.epc else q.hr.wpc

/-- A KIND 1 record for a block (R449); it replaces one that is outstanding for the block. -/
def State.haltRecord (s : State) (b : BSel) (k : Block) (pc : DWord) : State :=
  let va : DWord := match Tab.find? k.squads k.halt.psq with
    | some q => if k.halt.flane = 0x7F then 0 else q.hr.va
    | none => 0
  let (eseq, queue) := s.entryOf b.stall k.launch
  let bytes := callRecord b.stall 1 (k.halt.cause + if k.halt.nest then 128 else 0) k.halt.flane k.index k.halt.psq b.core 0 pc
    (leBytes 8 (ctxOf s b.stall k).toNat ++ leBytes 8 va.toNat) eseq queue
  let s := (s.modBlock b fun k => { k with halt := { k.halt with reply := none, rseq := none } }).modStall b.stall fun t =>
    { t with outRecs := t.outRecs.filter fun r => !(r.kind = 1 && r.launch = k.launch && r.index = k.index) }
  s.postCall b.stall bytes ⟨0, 1, k.launch, k.index, k.halt.psq, bytes⟩

/-- A KIND 2 record: an asynchronous cause with no block (R436, R449). -/
def State.kind2 (s : State) (st cause core : Nat) : State :=
  let bytes := callRecord st 2 cause 0x7F 0xFFFFFFFF 0 core 0 0 [] 0 0xFF
  if ringOn (s.stall st).scring then s.postCall st bytes ⟨0, 2, 0, 0, 0, bytes⟩ else s

/-! ## The end of a halt (R435, R444) -/

/-- Whether a write waits that a squad of a block issued. -/
def Stall.writesOf (t : Stall) (b : BSel) : Bool :=
  (t.wbuf.any fun w => w.src.map Sel.blk = some b) || t.posted.any fun p => p.src.map Sel.blk = some b

/-- Whether a block has come to rest (R435): results written, accesses performed, draws finished. -/
def Block.quiet (k : Block) (t : Stall) (b : BSel) : Bool :=
  k.squads.all (fun x => x.2.flight.all (fun f => f.ret || (!f.named && f.perf)) && x.2.sq.isEmpty && x.2.park ≠ .reload)
    && !t.writesOf b

/-- A block as an empty one of its squads would see it: a squad that the cause of another stopped (R438 to R441). -/
def HaltRegs.asSibling (h : HaltRegs) (cause : Nat) (kind : Nat) (prim : Bool) (pc : DWord) : HaltRegs :=
  { h with
    cause := BitVec.ofNat 32 (cause + (if prim then 2 ^ 15 else 0) + (causeClass cause).code * 2 ^ 16 + kind * 2 ^ 18)
    epc := pc
    flane := 0x7F
    lanes := []
    va := 0 }

/-- The credits of the mesh that squads hold for a send that has not taken effect (R330). -/
def Block.heldCredits (k : Block) : Nat := (k.squads.filter fun x => x.2.park = .slot true).length

/-- A squad at rest in a halt: nothing is in flight, its threads hold no reservation (R289), and a word that held its slot and
has not taken effect holds it no more (R455). -/
def Squad.atRest (q : Squad) : Squad :=
  { (q.mapLanes fun _ ln => { ln with resv := none }) with
    flight := []
    park := match q.park with
      | .slot _ => .none
      | p => p }

/-- The squad registers of a block whose halt completes: a squad that stopped on its own word keeps its record, and PRIM names
the primary squad; a squad in supervisor mode that no cause of its own stopped keeps the record of its user word (log 18). -/
def Block.record (k : Block) (cause : Nat) : Block :=
  { k with
    fpc := .of k.fpc.rest
    inflight := k.inflight - k.heldCredits
    squads := k.squads.map fun (n, q) =>
      let prim : Bool := n = k.halt.psq
      let q := q.atRest
      (n, if q.hr.stopped then { q with hr := { q.hr with
            cause := (q.hr.cause &&& ~~~0x8000) ||| (if prim then 0x8000 else 0) } }
          else if q.sup then q
          else { q with hr := q.hr.asSibling cause (if prim then 2 else 1) prim q.pc }) }

/-- The halt record of a block (R444), as ranges of bytes from offset 0 of its slot. -/
def haltBytes (b : BSel) (k : Block) : List Byte :=
  let j : JobFault := k.halt.job.getD ⟨0, 0, 0, 0, 0, 0, 0, 0⟩
  let reg (n : Nat) : HaltRegs := match Tab.find? k.squads n with
    | some q => q.hr
    | none => .reset
  let slotRec (n : Nat) : List Byte :=
    let h := reg n
    leBytes 8 h.epc.toNat ++ leBytes 1 h.skid.toNat ++ leBytes 1 (h.cause.toNat / 2 ^ 15 % 32) ++ leBytes 1 (h.cause.toNat % 128)
      ++ leBytes 1 h.flane.toNat ++ List.replicate 52 0 ++ (List.range 64).map fun l => BitVec.ofNat 8 (Tab.get 0 h.lanes l)
  leBytes 8 (reg k.halt.psq).epc.toNat
    ++ leBytes 1 (k.halt.cause + if k.halt.nest then 128 else 0) ++ leBytes 1 k.halt.psq ++ leBytes 1 k.halt.flane
    ++ leBytes 1 b.pos ++ leBytes 4 k.halt.halts ++ leBytes 1 j.kind ++ leBytes 1 j.tag ++ leBytes 1 j.cmd ++ leBytes 1 j.qi
    ++ leBytes 4 j.idx ++ leBytes 8 j.jpc.toNat ++ leBytes 4 k.index ++ leBytes 1 b.core ++ leBytes 1 k.kern.slots
    ++ leBytes 1 (if k.gang < 2 then 0 else k.index % k.gang) ++ List.replicate 25 0 ++ (List.range k.kern.slots).flatMap slotRec

/-- Write a halt record to a block's slot. -/
def State.writeHalt (s : State) (b : BSel) (k : Block) : State :=
  match k.cslot with
  | none => s
  | some i =>
    let a := s.localPa b.stall (slotAddr (s.stall b.stall).savea i)
    (s.bufferBytes b.stall none a (haltBytes b k)).bufferBytes b.stall none (a + 0x2040) (List.replicate 0x3C0 0)

/-- What a completed halt leads to (R433, R445, R449). -/
inductive HaltWay where
  | supervisor (entry : DWord)
  | host
  | fatal
deriving DecidableEq, Repr

/-- The way of a cause: the supervisor for class S, the host, or the abort of the launch. -/
def State.haltWay (s : State) (b : BSel) (k : Block) : HaltWay :=
  let t := s.stall b.stall
  let toHost : HaltWay := if k.cslot.isNone || !ringOn t.scring then .fatal else .host
  if k.halt.nest then
    (if ringOn t.scring && !(k.cslot.isNone && causeClass k.halt.cause ≠ .fatal) then .host else .fatal)
  else match causeClass k.halt.cause with
    | .fatal => .fatal
    | .sup =>
      (match s.supEntry b.stall with
      | some e => if k.cslot.isNone then .fatal else if k.fullSlots.contains k.halt.psq then .supervisor e else toHost
      | none => toHost)
    | _ => toHost

/-- The member of a halting gang that holds the primary cause (R434): the cause that ranks first, then the lower gang rank. -/
def primaryMember (ms : List (BSel × Block)) : Option (BSel × Block) :=
  minBy (fun x => causeKey x.2.halt.cause * 16 + (if x.2.gang < 2 then 0 else x.2.index % x.2.gang))
    (ms.filter fun x => x.2.halt.phase = .halting && x.2.halt.psq ≠ 0xFF)

/-- The halting members are at rest: their registers and counts are recorded (R438 to R441, R444). -/
def State.settleHalt (s : State) (cause : Nat) (ms : List (BSel × Block)) : State :=
  ms.foldl (fun s x => s.modBlock x.1 fun k =>
    let c := if k.halt.psq = 0xFF then cause else k.halt.cause
    { (k.record c) with halt := { k.halt with phase := .halted, cause := c, halts := (k.halt.halts + 1) % 2 ^ 32 } }) s

/-- A block in halting for a save goes on to the save (R453). -/
def Block.startSave (k : Block) (clock : Nat) : Block :=
  { k with halt := { k.halt with phase := .saving, saveFrom := clock } }

/-- The supervisor's squads of a block are back in user mode (R446: a cause raised there goes to the host). -/
def State.leaveSupAll (s : State) (b : BSel) : State :=
  match s.block? b with
  | none => s
  | some k => k.squads.foldl (fun s x => if x.2.sup && (x.2.hr.reply.isNone || (k.halt.nest && x.1 = k.halt.psq)) then
      (s.modSquad ⟨b.stall, b.core, b.pos, x.1⟩ fun q => q.leaveSup).freeSup
        ⟨b.stall, b.core, b.pos, x.1⟩ else s) s

/-- Where the completed halt of a primary block goes. -/
def State.dispose (s : State) (b : BSel) (k : Block) (way : HaltWay) : State :=
  match way with
  | .fatal => s.abortLaunch b.stall k.launch 0x0400 k.halt.cause
  | .host => (s.haltRecord b k (State.causePc k)).leaveSupAll b
  | .supervisor e => (s.modBlock b fun k => { k with halt := { k.halt with phase := .inSup } }).enterSup
      ⟨b.stall, b.core, b.pos, k.halt.psq⟩ e none []

/-- The supervisor files that squads of a block hold become free; those that answer calls keep theirs unless `all`. -/
def State.freeSups (s : State) (b : BSel) (k : Block) (all : Bool) : State :=
  k.squads.foldl (fun s x => if x.2.sup && (all || x.2.hr.reply.isNone) then
    s.freeSup ⟨b.stall, b.core, b.pos, x.1⟩ else s) s

/-- A block that is to be saved goes back to user mode, every squad at its EPC; a squad that handled a REPLY to a call is parked
again, its record outstanding (log 18). -/
def State.settleSquads (s : State) (b : BSel) (k : Block) : State :=
  (s.freeSups b k true).modBlock b fun k =>
    { k with squads := k.squads.map fun (n, q) => (n, q.leaveSup.moveTo q.hr.epc) }

/-- No single step and no end test of a loop is due in a block (R175, R459). -/
def Block.settled (k : Block) : Bool := k.squads.all fun x => !x.2.stepped && !x.2.dueLoop.isSome

/-- The handler of a complete halt is found at this moment (R433). The primary squad of a class S cause waits, halted, while another
squad holds the supervisor file of its issue slot, or a line of the image's header is on its way (R445). -/
def State.enterHandler (s : State) (p : BSel) : State :=
  match s.block? p with
  | none => s
  | some k =>
    let sup : Bool := !k.halt.nest && causeClass k.halt.cause = .sup
    if sup && s.supWaits p.stall then s.askSup p.stall
    else
      let s := if sup then s.supRead p.stall else s
      let way := s.haltWay p k
      let waits : Bool := match way with
        | .supervisor _ => !(s.core p.stall p.core).supFree (k.halt.psq % 4)
        | _ => false
      if waits then s
      else (s.modBlock p fun k => { k with halt := { k.halt with phase := .halted } }).dispose p k way

/-- The records of the members whose halt is complete are written (R444). -/
def State.writeHalts (s : State) (ms : List (BSel × Block)) : State :=
  ms.foldl (fun s x => match s.block? x.1 with
    | some y => s.writeHalt x.1 y
    | none => s) s

/-- HALT_COMPLETE (R435, R444, R445, R449): every halting member of the gang is at rest. Their records are written, and the primary
squad's handler is entered, at once or once it can be. -/
def execHaltComplete (b : BSel) (s : State) : Host.Outcome State Fault Refusal :=
  let ms := (s.gangOf b).filter fun x => x.2.halt.phase = .halting
  if (s.block? b).any fun k => k.halt.phase = .toSup then .next (s.enterHandler b)
  else match primaryMember ms with
  | none => .next s
  | some (p, k) =>
    if p ≠ b || !(ms.all fun x => x.2.quiet (s.stall x.1.stall) x.1 && x.2.settled) then .next s
    else if k.halt.toSave then
      .next (ms.foldl (fun s x => (s.settleSquads x.1 x.2).modBlock x.1 fun k => k.startSave (s.cyc x.1.stall x.1.core))
        (s.settleHalt k.halt.cause ms))
    else
      let s := (s.settleHalt k.halt.cause ms).writeHalts ms
      .next ((s.modBlock p fun k => { k with halt := { k.halt with phase := .toSup } }).enterHandler p)

/-! ## Asynchronous causes and job faults (R436, R437) -/

/-- An asynchronous cause for a physical core (R436). -/
def State.asyncCause (s : State) (st core cause : Nat) : State :=
  let open' := (s.core st core).blocks.any fun x => x.2.halt.phase = .run || x.2.halt.phase = .halting
  let s := s.modCore st core fun c => { c with blocks := c.blocks.map fun x =>
    (x.1, { x.2 with halt := { x.2.halt with pendAsync := x.2.halt.pendAsync ++ [cause] } }) }
  if open' then s else s.kind2 st cause core

/-- ASYNC_CAUSE_DELIVERY (R436): at a word boundary of a running block; a job's fault goes first. -/
def execAsyncCauseDelivery (b : BSel) (s : State) : Host.Outcome State Fault Refusal :=
  .next (match s.block? b with
    | none => s
    | some k => match k.halt.phase, k.halt.pendJob, k.halt.pendAsync with
      | .run, [], c :: cs =>
        (s.modBlock b fun k => { k with halt := { k.halt with pendAsync := cs } }).haltBlock b c
      | _, _, _ => s)

/-- The fault of a job becomes the block's (R437). -/
def Block.takeJob (k : Block) : Block :=
  match k.halt.pendJob with
  | [] => k
  | j :: js => { k with halt := { k.halt with job := some j, pendJob := js } }

/-- JOB_FAULT (R437): the oldest fault pending halts a running block. A job that outlives its block has none to halt: its fault aborts the
launch (log 57). -/
def execJobFault (b : BSel) (s : State) : Host.Outcome State Fault Refusal :=
  .next (match s.block? b with
    | none => s
    | some k => if 16 ≤ b.pos then (match k.halt.pendJob with
        | j :: _ => s.abortLaunch b.stall k.launch 0x0400 j.cause
        | [] => s)
      else match k.halt.phase, k.halt.pendJob with
      | .run, j :: _ => (s.modBlock b Block.takeJob).haltBlock b j.cause
      | _, _ => s)

/-- SINGLE_STEP (R459): the halt that follows a word issued under STEP, in the lanes that would issue next; in every lane where
none would, since all wait (log 22). Where the block comes to a halt already, the squad records the step as its own cause. -/
def execSingleStep (q : Sel) (s : State) : Host.Outcome State Fault Refusal :=
  .next (match s.block? q.blk, s.squad? q with
    | some k, some sq =>
      if sq.stepped && !sq.lanes.isEmpty && (k.halt.phase = .run || k.halt.phase = .halting) then
        (s.modSquad q fun x => { x with stepped := false }).takeCausesAt q
          ((if sq.issuing.isEmpty then sq.lanes else sq.issuing).map fun l => (l.1, 0x72)) sq.pc 0 false
      else s
    | _, _ => s)

/-! ## Leaving a halt (R437, R447) -/

/-- The job whose fault halted a block is settled on resumption: its tag is done, or its command counts as complete; the card
that failed leaves (R437). -/
def Block.settleJob (k : Block) : Block :=
  let k := match k.halt.job with
    | none => k
    | some j => if j.kind = 2 then k else k.tagDone j.tag
  (k.eng.run.filter (·.failed)).foldl (fun k c =>
    { k.release c with eng := { (k.release c).eng with run := k.eng.run.filter (· ≠ c) } }) k

/-- A squad goes on at its EPC in user mode (R447, R207): a parked wait returns; a park that the squad has been moved away from
is over. A squad that handles a REPLY to its own call goes on in supervisor mode (log 18). -/
def Squad.goOn (q : Squad) (skip : Bool) : Squad :=
  if q.sup && q.hr.reply.isSome then q
  else
    let q := q.leaveSup.moveTo (q.hr.epc + if skip then 8 else 0)
    { q with
      hr := { q.hr with stopped := false }
      park := match q.park with
        | .wait h d t _ => .wait h d t true
        | p => p }

/-- A block leaves its halt (R447, actions 0 and 1). -/
def Block.goOn (k : Block) (skip : Bool) : Block :=
  let k := k.settleJob
  let psq := k.halt.psq
  let r := k.resume false
  { k with
    halt := { r.halt with toSave := false, stay := false, waits := false, owe := false, cards := [] }
    squads := k.squads.map fun (n, q) => (n, q.goOn (skip && n = psq)) }

/-- RETURN FROM A HALT for a block and its gang (R447): the primary squad is that of the block named. -/
def State.resumeGang (s : State) (b : BSel) (skip : Bool) : State :=
  (s.gangOf b).foldl (fun s x =>
    let s := x.2.failedCards.foldl (fun s c => s.leaveCard b.stall c) (s.freeSups x.1 x.2 false)
    (s.modBlock x.1 fun k => k.goOn (skip && x.1 = b)).reap x.1) s

/-- Save a halted block with its gang (R447, actions 2 and 5): `stay` keeps it stopped, `waits` keeps it halted after its
restore, `owe` owes it a KIND 1 record. An image that does not fit aborts the launch (R456). -/
def State.saveGang (s : State) (b : BSel) (stay waits owe : Bool) : State :=
  let ms := s.gangOf b
  match s.block? b with
  | none => s
  | some me =>
    if !(ms.all fun x => s.saveFits x.1 x.2) then s.abortLaunch b.stall me.launch 0x0400 0x78
    else ms.foldl (fun s x =>
      (s.settleSquads x.1 x.2).modBlock x.1 fun k =>
        { k.startSave (s.cyc b.stall x.1.core) with halt := { (k.startSave (s.cyc b.stall x.1.core)).halt with
            toSave := true, stay := stay, waits := waits, owe := owe && x.1 = b } }) s

/-- Save a running block with its gang, for a REPLY to a call (R492) or an eviction (R358): it halts first, with no cause. -/
def State.haltToSave (s : State) (b : BSel) (stay : Bool) : State :=
  let ms := s.gangOf b
  match s.block? b with
  | none => s
  | some me =>
    if !(ms.all fun x => s.saveFits x.1 x.2) then s.abortLaunch b.stall me.launch 0x0400 0x78
    else
      let s := s.haltBlock b 0
      ms.foldl (fun s x => s.modBlock x.1 fun k =>
        { k with halt := { k.halt with toSave := true, stay := stay, waits := false, owe := false } }) s

/-- A record of the system-call ring is answered (R492). -/
def State.answered (s : State) (st rseq : Nat) : State :=
  s.modStall st fun t => { t with outRecs := t.outRecs.filter fun r => r.rseq.toNat ≠ rseq }

/-- The return words of a call go to s0 to s3 of the trapping squad, which leaves its park at its EPC (R451, R492). -/
def Squad.answerCall (q : Squad) (ws : List Word) : Squad := { q with sca := putWords q.sca 0 ws, park := .none }

/-! ## sret (R447, R492) -/

/-- CAUSE.CODE of a squad. -/
def Squad.code (q : Squad) : Nat := q.hr.cause.toNat % 128

/-- The registers s4 to s7 of the supervisor's file. -/
def Ctx.supReturn (c : Ctx) : List Word := (List.range 4).map fun i => c.sca (4 + i)

/-- The trapping squad of a call goes back to user mode at its EPC, in its park or out of it. -/
def State.leaveCall (s : State) (q : Sel) (answer : Option (List Word)) : State :=
  (s.modSquad q fun x =>
    let y := x.leaveSup.moveTo x.hr.epc
    match answer with
    | some ws => y.answerCall ws
    | none => y).freeSup q

/-- A halted block that lent a squad to a call is halted again. -/
def State.rehalt (s : State) (b : BSel) : State :=
  s.modBlock b fun k => if k.halt.phase = .inSup then { k with halt := { k.halt with phase := .halted } } else k

/-- Save the block of a call (R492): a running block halts first; a halted one stays halted after its restore. -/
def State.saveForCall (s : State) (b : BSel) (stay : Bool) : State :=
  match s.block? b with
  | none => s
  | some k => if k.halt.phase = .run then s.haltToSave b stay else s.saveGang b stay true false

/-- sret in an entry that a REPLY to a call made. -/
def sretCall (c : Ctx) (rseq : Nat) (act : Nat) : State :=
  let st := c.q.stall
  let b := c.q.blk
  match act with
  | 2 => ((c.s.leaveCall c.q none).rehalt b).saveForCall b true
  | 3 => (c.s.abortLaunch st c.blk.launch 0x0400 c.sq.code).answered st rseq
  | 4 =>
    let out := (c.s.stall st).outRecs.find? fun r => r.rseq.toNat = rseq
    let s := (((c.s.leaveCall c.q none).modSquad c.q fun x => { x with park := .call none }).rehalt b).answered st rseq
    match out with
    | some r => s.postCall st r.bytes r
    | none => s
  | 5 => ((c.s.leaveCall c.q none).rehalt b).saveForCall b false
  | _ => ((c.s.leaveCall c.q (some c.supReturn)).rehalt b).answered st rseq

/-- sret in an entry made by a cause, or by a REPLY to a halt's record. -/
def sretHalt (c : Ctx) (act : Nat) : State :=
  let st := c.q.stall
  let b := c.q.blk
  let close (s : State) : State := match c.blk.halt.reply with
    | some (n, _) => s.answered st n
    | none => s
  match act with
  | 2 => c.s.saveGang b true true c.blk.halt.reply.isNone
  | 3 => close (c.s.abortLaunch st c.blk.launch 0x0400 c.sq.code)
  | 4 =>
    let s := close (((c.s.modSquad c.q Squad.leaveSup).freeSup c.q).rehalt b)
    match s.block? b with
    | some k => s.haltRecord b k (State.causePc k)
    | none => s
  | 5 => close (c.s.saveGang b false false false)
  | _ => close (c.s.resumeGang b (act = 1))

/-- sret (R447, R492). -/
def execSret (h : Hdr) (act : Fin 6) (s : State) : Host.Outcome State Fault Refusal :=
  issue h (fun _ => { uses := [], priv := true })
    (fun c => match c.real with
      | none => .ok c.s
      | some _ => .at' (match c.sq.hr.reply with
        | some n => sretCall c n act.val
        | none => sretHalt c act.val)) s

/-! ## trap, halt and iflush (R452, R462, R464) -/

/-- trap (R452): the squad parks, in the mode it is in, and its record waits for ring room (R433: 0x70 never halts a block). -/
def execTrap (h : Hdr) (imm : BitVec 16) (s : State) : Host.Outcome State Fault Refusal :=
  issue h (fun _ => { uses := [⟨.sca 0, 6, 1, false⟩] })
    (fun c => match c.real with
      | none => .ok c.s
      | some _ =>
        let st := c.q.stall
        if !ringOn (c.s.stall st).scring then .at' (c.s.abortLaunch st c.blk.launch 0x0400 0x70)
        else
          let args := (List.range 6).flatMap fun i => leBytes 4 (c.sca i).toNat
          let (eseq, queue) := c.s.entryOf st c.blk.launch
          let bytes := callRecord st 0 0x70 0x7F c.blk.index c.q.slot c.q.core imm.toNat c.sq.pc args eseq queue
          .ok ((c.s.postCall st bytes ⟨0, 0, c.blk.launch, c.blk.index, c.q.slot, bytes⟩).modSquad c.q fun x =>
            { x with park := .call none })) s

/-- halt (R462): a running block is halted with 0x71; this word is no word of the skid. -/
def execHalt (h : Hdr) (a : Opnd) (s : State) : Host.Outcome State Fault Refusal :=
  issue h (fun _ => { uses := [.r a], priv := true, bad := !a.isSca })
    (fun c => match c.real with
      | none => .ok c.s
      | some (l, ln) =>
        let v := c.rd l ln a
        if v &&& 0xFFFFF0C0 ≠ 0 then .raise [(l, 0x02)] 0
        else
          let b : BSel := ⟨c.q.stall, v.toNat % 64, v.toNat / 256 % 16⟩
          match c.s.block? b with
          | none => .ok c.s
          | some k =>
            let s' := if k.halt.phase = .run then c.s.haltBlock b 0x71 else c.s
            .ok (if c.blk.halt.phase = .run && (s'.block? c.q.blk).any (fun x => x.halt.phase == .halting) then
              s'.modSquad c.q fun x => { x with hr := { x.hr with skid := x.hr.skid - 1 } } else s')) s

/-- iflush (R464): once the thread's stores have left the store queue, the instruction caches forget what they hold. -/
def execIflush (h : Hdr) (scope : Bool) (s : State) : Host.Outcome State Fault Refusal :=
  issue h (fun _ => { uses := [], priv := true })
    (fun c => match c.real with
      | none => .ok c.s
      | some _ =>
        if !c.sq.sq.isEmpty then .hold
        else .ok (c.s.modStall c.q.stall fun t => { t with cores := t.cores.map fun k =>
          (k.1, if scope || k.1 = c.q.core then { k.2 with icache := [] } else k.2) })) s

/-! ## REPLY (R450, R451, R492) -/

/-- The words of a REPLY from payload byte 16 on. -/
def replyWords (e : Entry) : List Word := (List.range 12).map fun i => BitVec.ofNat 32 (sliceNum e.bytes (16 + 4 * i) 4)

/-- W0 to W3. -/
def returnWords (e : Entry) : List Word := (List.range 4).map fun i => BitVec.ofNat 32 (sliceNum e.bytes (24 + 4 * i) 4)

/-- The entry of a REPLY marks the squad (R451): CAUSE.KIND is 0b11. The squad of a call has cause 0x70 and stands at its EPC. -/
def Squad.replied (q : Squad) (call : Bool) : Squad :=
  let hr := if call then q.hr.asSibling 0x70 0 false q.pc else q.hr
  { q with hr := { hr with cause := hr.cause ||| 0xC0000 } }

/-- A saved block is to be restored: it is no longer stopped, and stands at the head of its launch's placement order. -/
def State.unstop (s : State) (st launch index : Nat) (waits : Bool) : State :=
  s.modStall st fun t => { (t.modLaunch launch fun l => { l with
      evicted := if l.evicted.contains index then l.evicted else index :: l.evicted }) with
    saved := t.saved.map fun v => if v.launch = launch && v.index = index then
      { v with stopped := false, halt := { v.halt with waits := waits } } else v }

/-- The saved members of a saved block's gang. -/
def Stall.savedGang (t : Stall) (v : Saved) : List Saved :=
  t.saved.filter fun x => x.launch = v.launch && (x.index = v.index || (2 ≤ v.gang && x.index / v.gang = v.index / v.gang))

/-- A saved block stays saved until a REPLY. -/
def State.keepStopped (s : State) (st : Nat) (v : Saved) : State :=
  ((s.stall st).savedGang v).foldl (fun s x => s.modStall st fun t =>
    { (t.modLaunch x.launch fun l => { l with evicted := l.evicted.filter (· ≠ x.index) }) with
      saved := t.saved.map fun y => if y.launch = x.launch && y.index = x.index then { y with stopped := true } else y }) s

/-- A REPLY whose block is saved: it waits for the restore, or acts on the saved block. -/
def State.replySaved (s : State) (st : Nat) (e : Entry) (r : OutRec) (v : Saved) (act : Nat) (sup : Bool) : State :=
  let gang := (s.stall st).savedGang v
  if sup || act < 2 then
    (if v.stopped then gang.foldl (fun s x => s.unstop st x.launch x.index x.halt.waits) s else s)
  else match act with
    | 2 => (s.keepStopped st v).entryEnds st e.id 0 0
    | 3 => ((s.abortLaunch st v.launch 0x0400 (if r.kind = 0 then 0x70 else v.halt.cause)).answered st r.rseq.toNat).entryEnds st e.id 0 0
    | _ =>
      let s := gang.foldl (fun s x => s.unstop st x.launch x.index (if r.kind = 1 then false else x.halt.waits)) s
      (if r.kind = 1 then s.answered st r.rseq.toNat else s).entryEnds st e.id 0 0

/-- A REPLY to the record of a halted block, applied by the scheduler. -/
def State.replyHalt (s : State) (st : Nat) (b : BSel) (k : Block) (rseq act : Nat) : State :=
  match act with
  | 2 => s.saveGang b true true false
  | 3 => (s.abortLaunch st k.launch 0x0400 k.halt.cause).answered st rseq
  | 5 => (s.saveGang b false false false).answered st rseq
  | _ => (s.resumeGang b (act = 1)).answered st rseq

/-- A REPLY to the record of a call, applied by the scheduler. -/
def State.replyCall (s : State) (st : Nat) (q : Sel) (k : Block) (ws : List Word) (rseq act : Nat) : State :=
  match act with
  | 2 => s.saveForCall q.blk true
  | 3 => (s.abortLaunch st k.launch 0x0400 0x70).answered st rseq
  | 5 => s.saveForCall q.blk false
  | _ =>
    let sup := match s.squad? q with
      | some x => x.sup
      | none => false
    ((s.writeSca q sup (.sca 0) ws).modSquad q fun x => { x with park := .none }).answered st rseq

/-- A REPLY whose block is resident: it waits until the block and the supervisor's file are ready for it. -/
def State.replyHere (s : State) (st : Nat) (e : Entry) (r : OutRec) (b : BSel) (k : Block) (act : Nat) (sup : Option DWord) :
    State :=
  let n := r.rseq.toNat
  let slot := if r.kind = 0 then r.slot else k.halt.psq
  let q : Sel := ⟨b.stall, b.core, b.pos, slot⟩
  let ready : Bool := match k.halt.phase with
    | .run => r.kind = 0
    | .halted => true
    | .inSup => r.kind = 0 && (Tab.find? k.squads slot).any fun x => x.sup && x.park = .call (some n)
    | _ => false
  let present : Bool := k.fullSlots.contains slot
  if !ready then s
  else match (if present then sup else none) with
    | some entry =>
      if !(s.core b.stall b.core).supFree q.islot && Tab.find? (s.core b.stall b.core).supOwner q.islot ≠ some (q.pos, q.slot) then s
      else
        let s := (s.modSquad q fun x => x.replied (r.kind = 0)).modBlock b fun k =>
          if r.kind = 1 then { k with halt := { k.halt with phase := .inSup, reply := some (n, 1) } }
          else if k.halt.phase = .halted then { k with halt := { k.halt with phase := .inSup } }
          else k
        (s.enterSup q entry (if r.kind = 0 then some n else none) (replyWords e)).entryEnds st e.id 0 0
    | none =>
      (if r.kind = 1 then s.replyHalt st b k n act else s.replyCall st q k (returnWords e) n act).entryEnds st e.id 0 0

/-- REPLY (R450, R451, R492). A record that something else has answered meanwhile leaves nothing to do. -/
def execReply (st i : Nat) (s : State) : Host.Outcome State Fault Refusal :=
  .next (match (s.stall st).startable i 6 with
    | none => s
    | some e =>
      let act := sliceNum e.bytes 20 1
      match (s.stall st).outRecs.find? fun r => r.rseq.toNat = sliceNum e.bytes 16 4 with
      | none => s.entryEnds st e.id 0 0
      | some r =>
        if r.kind = 2 then (s.answered st r.rseq.toNat).entryEnds st e.id 0 0
        else if s.supWaits st then s.askSup st
        else let s := s.supRead st
        match s.findBlock st r.launch r.index with
          | some (b, k) => s.replyHere st e r b k act (s.supEntry st)
          | none => match (s.stall st).saved.find? fun v => v.launch = r.launch && v.index = r.index with
            | some v => s.replySaved st e r v act (s.supEntry st).isSome
            | none => (s.answered st r.rseq.toNat).entryEnds st e.id 0 0)

end Sys2Proof.Machine
end

