-- ==== Sys2Proof/Machine/Saves.lean ====
section
/-! DEFINITION. Saves, restores and partial eviction of blocks (chapter 13, R358; chapter 16, R453 to R458; R246). -/

set_option Elab.async false

namespace Sys2Proof.Machine

open Sys2Proof

/-! ## Saving (R453) -/

/-- Every held ray-stack entry of a block's threads spills (R423, R453, step 5); those of helper lanes are dropped (R424). -/
def Block.spillStacks (k : Block) : Block :=
  let b := k.squads.foldl (fun b x => x.2.lanes.foldl (fun b l =>
    if l.2.helper then b else (spillAll b l.2.tid l.2.rstack.reverse).1) b) k
  { b with squads := b.squads.map fun x => (x.1, x.2.mapLanes fun _ ln => { ln with rstack := [] }) }

/-- Whether a block being saved has reached steps 1 to 4 of R453. -/
def State.saveReady (s : State) (b : BSel) (k : Block) : Bool :=
  let t := s.stall b.stall
  k.halt.phase = .saving && k.quiet t b && !((t.core b.core).copies.any fun j => j.pos = some b.pos)
    && !(t.colls.any fun j => j.core = b.core && j.pos = b.pos) && k.eng.run.all (·.failed) && k.inflight = 0

/-- The logical core that the restore is bound to: a block that leaves a retiring core while its CRT entry migrates (R471). -/
def State.boundCore (s : State) (b : BSel) (k : Block) : Option Nat :=
  if k.halt.cause = 0x79 && !k.halt.waits && (Tab.get 0 (s.stall b.stall).crt k.lcore).getLsbD 14 then some k.lcore else none

/-- A saved block, for a block whose image is written. -/
def State.savedOf (s : State) (b : BSel) (k : Block) (cslot : Nat) (ins outs : List Rec) : Saved where
  launch := k.launch
  index := k.index
  cslot := cslot
  gang := k.gang
  lcore := s.boundCore b k
  stopped := k.halt.stay
  halt := k.halt
  cmds := k.eng.run
  regs := k.squads.map fun x => (x.1, x.2.hr)
  calls := k.squads.filterMap fun x => match x.2.park with
    | .call n => some (x.1, n)
    | _ => none
  asks := k.squads.map fun x => (x.1, x.2.asks)
  kind := k.kind
  threads := k.threads
  live := k.live
  mesh := k.mesh
  pxo := (ins.filter fun r => !r.helper).foldl (fun t r => Tab.set [] t r.tid r.pxo)
    (k.squads.foldl (fun t x => x.2.lanes.foldl (fun t l => if l.2.helper then t else Tab.set [] t l.2.tid l.2.pxo) t) [])
  padBad := k.padBad
  amBad := k.amBad
  roles := ins.map fun r => (r.role, r.unit, r.passed)
  spillCore := b.core
  spillRecs := outs

/-- Write a block's image and take it off its core (R453, step 6). The ranges that it holds of a task become unheld (R359), and the
cards of its failed jobs stay until it is resumed (R311). -/
def State.saveBlock (s : State) (b : BSel) : State :=
  match s.block? b with
  | none => s
  | some k0 => match k0.cslot with
    | none => s
    | some cs =>
      let k1 := k0.crLand.spillStacks
      let k := { k1 with halt := { k1.halt with cards := k0.failedCards } }
      let s := (s.modBlock b fun _ => k).releaseHolds b.stall k fun _ => true
      let t := s.stall b.stall
      let (ins, outs) := splitRecs (t.slotSize - (k.kern.padOff + k.kern.pad + k.kern.am)) ((t.core b.core).recsOf t.clock b.pos)
      let v := s.savedOf b k cs ins outs
      let s := s.bufferBytes b.stall none (s.localPa b.stall (slotAddr t.savea cs) + 0x4000) (s.imageOf b k)
      let s := if k.halt.owe then s.haltRecord b k (State.causePc k) else s
      let s := s.modCore b.stall b.core fun c =>
        { c with blocks := c.blocks.del b.pos, recs := c.recs.filter (fun r => r.pos ≠ b.pos),
                 queries := c.queries.filter (fun x => x.1 / 1024 ≠ b.pos),
                 supOwner := c.supOwner.filter fun x => x.2.1 ≠ b.pos }
      s.modStall b.stall fun t =>
        Stall.victimsLeft { (t.modLaunch k.launch fun l => { l with
            evicted := if k.halt.stay then l.evicted else l.evicted ++ [k.index] }) with
          saved := t.saved ++ [v] } fun x => x ≠ (k.launch, k.index)

/-- An abandoned save (R453): the block stays halted with its job's fault as the primary cause, and no incoming block waits for
it. -/
def State.abandonSave (s : State) (b : BSel) : State :=
  let ms := s.gangOf b
  let s := s.modStall b.stall fun t => t.victimsLeft fun v => !ms.any fun x => v = (x.2.launch, x.2.index)
  ms.foldl (fun s x => s.modBlock x.1 fun k =>
    let h := { k.takeJob.halt with phase := HaltPhase.halting, nest := false, flane := 0x7F, toSave := false, stay := false,
                                   waits := false, owe := false }
    match k.halt.pendJob with
    | [] => { k with halt := { h with psq := 0xFF, cause := 0 } }
    | j :: _ => { k with
        halt := { h with psq := (k.fullSlots.head?).getD 0, cause := j.cause }
        squads := k.squads.map fun x => (x.1, { x.2 with hr := { x.2.hr with stopped := false } }) }) s

/-- BLOCK_SAVE (R453): a block with its gang. -/
def execBlockSave (b : BSel) (s : State) : Host.Outcome State Fault Refusal :=
  let ms := s.gangOf b
  if !(ms.all fun x => x.2.halt.phase = .saving) then .next s
  else if ms.any fun x => x.2.halt.pendJob ≠ [] then .next (s.abandonSave b)
  else if ms.all fun x => s.saveReady x.1 x.2 then .next (ms.foldl (fun s x => s.saveBlock x.1) s)
  else .next s

/-- A copy that the bound of R453 stops: it fails with 0x43 at an element that the spec leaves open (log 6). -/
def State.stopCopy (s : State) (st core i : Nat) (j : CopyJob) : State :=
  let d := j.d
  let r := s.copyNow st core j
  let max' := match r.fail with
    | some (_, k) => k + 1 - j.made
    | none => max 1 (d.total - j.made)
  let n := if s.copyReady st core j then (Config.freeWord s.free).toNat % max' else 0
  let whole := j.made + if d.dfmt = .mx8 then n / 32 * 32 else n
  let outs := if d.dfmt = .mx8 then r.outs.take (33 * (n / 32)) else r.outs.take n
  let s := ((s.spend 1).copyMade st core j whole outs).dropCopy st core i
  s.modBlock (j.blk st core) fun x => { x with halt := { x.halt with
    pendJob := x.halt.pendJob ++ [⟨0x43, 1, d.tag, 0, 0, whole, j.pc, j.card⟩] } }

/-- A collective that the bound stops ends at this member (R453). -/
def State.stopColl (s : State) (b : BSel) (j : CollJob) : State :=
  let s := s.modStall b.stall fun t => { t with colls := t.colls.map fun x => if x = j then { x with result := some (0x52, 32) } else x }
  s.modBlock b fun k => { k with halt := { k.halt with
    pendJob := k.halt.pendJob ++ [⟨0x52, 3, (CollCard.of j.card).tag, 0, 0, 0, j.pc, j.cardId⟩] } }

/-- The copies of a block that still run are stopped, one after another, the first one first. -/
def State.stopCopies (s : State) (b : BSel) : Nat → State
  | 0 => s
  | n + 1 =>
    let c := s.core b.stall b.core
    match (List.range c.copies.length).findSome? fun i => match c.copies[i]? with
        | some j => if j.pos = some b.pos then some (i, j) else none
        | none => none with
    | none => s
    | some (i, j) => State.stopCopies (s.stopCopy b.stall b.core i j) b n

/-- SAVE_TIMEOUT (R453, step 2): 42,000 clocks after the start of the save, every copy still running is stopped, and every collective
still waiting. -/
def execSaveTimeout (b : BSel) (s : State) : Host.Outcome State Fault Refusal :=
  .next (match s.block? b with
    | none => s
    | some k =>
      if k.halt.phase = .saving && k.halt.saveFrom + 42000 ≤ s.cyc b.stall b.core then
        let s := s.stopCopies b (s.core b.stall b.core).copies.length
        ((s.stall b.stall).colls.filter fun j => j.core = b.core && j.pos = b.pos && j.result.isNone).foldl
          (fun s j => s.stopColl b j) s
      else s)

/-! ## Restoring (R457, R458) -/

/-- A saved block of a launch. -/
def Stall.savedAt (t : Stall) (launch index : Nat) : Option Saved := t.saved.find? fun v => v.launch = launch && v.index = index

/-- Whether a saved block may be restored onto a core: any with room, but for a block that is bound (R457, R471). -/
def Stall.mayRestore (t : Stall) (l : Launch) (v : Saved) (c : Nat) : Bool :=
  t.inService.contains c && (t.core c).hasRoom l.kern && match v.lcore with
    | none => true
    | some n => field (Tab.get 0 t.crt n) 5 0 = c

/-- The saved blocks that come back together, in order of index, with their cores. -/
def Stall.restorePicks (t : Stall) (l : Launch) : Option (List (Saved × Nat)) :=
  match l.evicted with
  | [] => none
  | i :: _ => match t.savedAt l.id i with
    | none => none
    | some v =>
      let vs := sortBy (·.index) (t.savedGang v)
      if vs.any (·.stopped) then none
      else if vs.length < 2 then (minBy t.coreKey ((List.range 54).filter (t.mayRestore l v))).map fun c => [(v, c)]
      else
        let assign (cl : Nat) : Option (List (Saved × Nat)) :=
          let cores := sortBy t.coreKey (t.clusterRoom l.kern cl)
          let bound := vs.filterMap fun v => v.lcore.map fun n => field (Tab.get 0 t.crt n) 5 0
          let go := vs.foldl (fun (acc : Option (List (Saved × Nat) × List Nat)) v => match acc with
            | none => none
            | some (out, free) => match v.lcore with
              | some n =>
                let c := field (Tab.get 0 t.crt n) 5 0
                if free.contains c then some (out ++ [(v, c)], free.erase c) else none
              | none => match free.find? fun c => !bound.contains c with
                | some c => some (out ++ [(v, c)], free.erase c)
                | none => none) (some ([], cores))
          go.map (·.1)
        (minBy (fun x => (9 - x.1) * 8 + x.2.1) ((List.range 6).filterMap fun cl =>
          (assign cl).map fun p => ((t.clusterRoom l.kern cl).length, cl, p))).map fun x => x.2.2

/-- The roots of spawned threads in an image (R454). -/
def imageRoots (bs : List Byte) (t : Nat) : Option Nat :=
  let v := sliceNum bs (0x200 + 2 * t) 2
  if 2 ^ 15 ≤ v then some (v % 1024) else none

/-- The query-table entries of an image (R454). -/
def imageQueries (bs : List Byte) (pos : Nat) : List (Nat × Query) :=
  (List.range 64).filterMap fun i =>
    let v := sliceNum bs (0x100 + 4 * i) 4
    if 2 ^ 31 ≤ v then some (pos * 1024 + v % 1024, ⟨pos, v / 1024 % 128⟩) else none

/-- The squads of an image (R457). A block that waits for a REPLY is halted still, each EPC at the image's PC; any other runs. -/
def State.imageSquads (s : State) (st : Nat) (v : Saved) (kern : Kern) (bs : List Byte) (clock : Nat) : Tab Squad :=
  (List.range kern.slots).filterMap fun j =>
    (s.squadOf st v kern bs j clock (imageRoots bs)).map fun q =>
      (j, { q with hr := { q.hr with epc := q.pc, stopped := q.hr.stopped && v.halt.waits } })

/-- The tag of the failed job that a halted block waits to settle is busy still (R203, R437). -/
def Block.markJob (b : Block) : Block :=
  match b.halt.job with
  | some j => if j.kind = 2 then b else { b with tagsBusy := setBit b.tagsBusy j.tag true }
  | none => b

/-- The block of an image (R454 to R457); reserved fields of registers read as zero (R8). What stopped on an error and was saved counts
as complete where the block runs again (R219, R437). -/
def State.blockOf (s : State) (st : Nat) (l : Launch) (v : Saved) (bs : List Byte) (lcore clock order : Nat) : Block :=
  let kern := { l.kern with bage := sliceNum bs 0x14 2 }
  let p0 := kern.padOff - 0x4000
  let pad := memOf (sliceBytes bs p0 kern.pad)
  let b : Block :=
    { launch := l.id
      index := v.index
      arg := s.argOf l
      threads := v.threads
      kern := kern
      gang := l.gang
      lcore := lcore
      cslot := some v.cslot
      pad := pad
      am := memOf (sliceBytes bs (p0 + kern.pad) kern.am)
      padBad := v.padBad
      amBad := v.amBad
      fpc := .of (BitVec.ofNat 32 (sliceNum bs 0 4) &&& 0x00031F1F)
      tagsDone := BitVec.ofNat 64 (sliceNum bs 8 8)
      tagsBusy := 0
      crw := []
      ksp := BitVec.ofNat 32 (sliceNum bs 0x10 4) &&& 0xFF07FFF8
      bars := (List.range 16).foldl (fun t n =>
        let w := sliceNum bs (0x40 + 4 * n) 4
        Tab.set ⟨0, false⟩ t n ⟨w % 2048, 2 ^ 31 ≤ w⟩) []
      eng := engineOf bs
      tails := kern.mbox.foldl (fun t d => Tab.set 0 t d.num (BitVec.ofNat 32 (pad.num (d.base + 4) 4))) []
      inflight := 0
      squads := s.imageSquads st v kern bs clock
      live := v.live
      halt := { v.halt with phase := if v.halt.waits then .halted else .run, cause := if v.halt.waits then v.halt.cause else 0,
                            nest := v.halt.nest && v.halt.waits, reply := none, toSave := false, stay := false,
                            waits := false, owe := false, cards := if v.halt.waits then v.halt.cards else [] }
      kind := v.kind
      mesh := v.mesh
      stamp := order }
  let b := { b with tagsBusy := b.queuedTags, tagsDone := b.tagsDone &&& ~~~b.queuedTags, eng := { b.eng with run := v.cmds } }
  if v.halt.waits then b.markJob
  else { b.settleJob with halt := { b.settleJob.halt with job := none } }


/-- A qget of a restored block that can be answered is. -/
def State.matchAsks (s : State) (b : BSel) : State :=
  match s.block? b with
  | none => s
  | some k => k.squads.foldl (fun s x => x.2.asks.foldl (fun s a =>
      match (s.stall b.stall).pipes.find? fun p => p.launch = k.launch with
      | none => s
      | some p =>
        let q : Sel := ⟨b.stall, b.core, b.pos, x.1⟩
        if p.drained then s.modSquad q fun y => y.answer a (askWords [] 0 true)
        else match p.queues.getD a.stage [] with
          | [] => s
          | item :: rest => ((s.modStall b.stall fun t => t.modPipe p.launch fun p =>
              { p with queues := updAt p.queues a.stage fun _ => rest }).acquireEffect q 1).modSquad q fun y =>
                y.answer a (askWords item a.stage false)) s) s

/-- RETST.SPARE (R470): the core at index 8 of the cluster, or 0x3F if a VAL = 1 entry holds it. -/
def Stall.spareOf (t : Stall) (core : Nat) : Nat :=
  let p := 9 * (core / 9) + 8
  if (t.lcoreOf p).isSome then 0x3F else p

/-- The core whose retirement is requested for a logical core. -/
def Stall.retiring (t : Stall) (l : Nat) : Option Nat :=
  (List.range 54).find? fun c => field ((t.core c).retst.zeroExtend 64) 31 30 = 1 && field ((t.core c).retst.zeroExtend 64) 13 8 = l
    && !(t.core c).off

/-- A block that holds mailboxes comes back on the spare: RETST there says complete, and 0x79 is delivered to it (R473). -/
def State.retireOnSpare (s : State) (b : BSel) (l : Nat) : State :=
  let t := s.stall b.stall
  let old := (t.retiring l).getD 0x3F
  (s.modCore b.stall b.core fun c =>
    { c with retst := BitVec.ofNat 32 (2 ^ 31 + t.spareOf b.core * 2 ^ 16 + l * 2 ^ 8 + old) }).modBlock b fun k =>
      { k with halt := { k.halt with pendAsync := k.halt.pendAsync ++ [0x79] } }

/-- Where the image of a saved block lies (R454). -/
def State.imageAddr (s : State) (st : Nat) (v : Saved) : Nat := s.localPa st (slotAddr (s.stall st).savea v.cslot) + 0x4000

/-- The bytes of a saved block's image, by the record bytes that its block part names (R454, R456). -/
def State.imageSize (s : State) (st : Nat) (kern : Kern) (v : Saved) : Nat :=
  kern.padOff - 0x4000 + kern.pad + kern.am + leNat (s.seenBytes st (s.imageAddr st v + 0x28) 8)

/-- Whether the lines of a saved block's image, and what it left in a spill share, can be read (R271). -/
def State.imageReady (s : State) (st : Nat) (kern : Kern) (v : Saved) : Bool :=
  s.readableAt st (s.imageAddr st v) 0xC000 && s.readableAt st (s.imageAddr st v) (s.imageSize st kern v)
    && s.shareReady st v.spillCore v.spillRecs

/-- What is not there yet is asked for (R274). -/
def State.imageAsk (s : State) (st : Nat) (kern : Kern) (v : Saved) : State :=
  let s := s.askAt st (s.imageAddr st v) 0xC000
  (if s.readableAt st (s.imageAddr st v) 0xC000 then s.askAt st (s.imageAddr st v) (s.imageSize st kern v) else s).shareAsk st
    v.spillCore v.spillRecs

/-- Bring one saved block back onto a core (R457). The core's L1 forgets what it holds, so that no thread reads an older value than it
has read before (R294, R296); the cards of a resumed block's failed jobs leave (R311). -/
def State.restoreOne (s : State) (st : Nat) (l : Launch) (v : Saved) (core : Nat) : State :=
  let t := s.stall st
  let c := t.core core
  let kern := l.kern
  let bs := s.seenBytes st (s.imageAddr st v) (s.imageSize st kern v)
  let pos := c.freePos
  let shift := (t.clock + 2 ^ 32 - sliceNum bs 0x20 4) % 2 ^ 32
  let recs := recsFrom v bs pos shift (imageRoots bs) (kern.padOff - 0x4000 + kern.pad + kern.am) 0 (sliceNum bs 0x24 4)
    ++ v.spillRecs.map fun r => { s.readBack st v.spillCore r with pos := pos, src := freeSrc, srcId := 0, stamp := (r.stamp + shift) % 2 ^ 32 }
  let b := s.blockOf st l v bs ((t.lcoreOf core).getD 0) t.clock s.nextId
  let s := if v.halt.waits then s else v.halt.cards.foldl (fun s c => s.leaveCard st c) s
  let s := (s.modStall st fun t =>
    { (((t.clearLeft core pos).modCore core fun c =>
        { c with l1 := [], l1h := [], blocks := c.blocks.put pos b, queries := (imageQueries bs pos).foldl (fun q x => q.put x.1 x.2) c.queries }).modLaunch
          l.id fun l => { l with evicted := l.evicted.erase v.index }) with
      saved := t.saved.filter fun x => x ≠ v }).addRecs st core recs
  let s := match v.lcore with
    | some n => if kern.mbox = [] then s else s.retireOnSpare ⟨st, core, pos⟩ n
    | none => s
  State.matchAsks { s with nextId := s.nextId + 1 } ⟨st, core, pos⟩

/-- The lines of an image have been read. -/
def State.imageRead (s : State) (st : Nat) (kern : Kern) (v : Saved) : State :=
  (s.takeReads st (linesOf (s.imageAddr st v) (s.imageSize st kern v))).shareTouch st v.spillCore v.spillRecs

/-- BLOCK_RESTORE (R356, R457): the saved block of a slot, with its gang, comes back first of its launch; the event names the
core it takes. -/
def execBlockRestore (st slot core : Nat) (s : State) : Host.Outcome State Fault Refusal :=
  let t := s.stall st
  .next (match t.nextLaunch with
    | none => s
    | some l =>
      if t.pausePlace || l.evicted.head?.any (fun i => t.evictsFor l.id i) then s
      else match t.restorePicks l with
        | none => s
        | some ps => if ps.any fun x => x.1.cslot = slot && x.2 = core then
          (if ps.all fun x => s.imageReady st l.kern x.1 then
            ps.foldl (fun s x => (s.restoreOne st l x.1 x.2).imageRead st l.kern x.1) s
          else ps.foldl (fun s x => s.imageAsk st l.kern x.1) s)
          else s)

/-! ## Partial eviction (R358) -/

/-- Whether a block may be a victim for priority p: it is not being saved, and its save fits. -/
def State.mayEvict (s : State) (p : Nat) (x : BSel × Block) : Bool :=
  (match (s.stall x.1.stall).launch? x.2.launch with
    | some l => decide (l.prio < p)
    | none => false)
    && x.2.halt.phase ≠ .saving && !x.2.halt.toSave && s.saveFits x.1 x.2

/-- The victims of a core in the order they are taken: lowest priority, then most recently made resident. -/
def State.victimOrder (s : State) (st : Nat) (xs : List (BSel × Block)) : List (BSel × Block) :=
  sortBy (fun x =>
    let p := match (s.stall st).launch? x.2.launch with
      | some l => l.prio
      | none => 0
    p * 2 ^ 64 + (2 ^ 64 - 1 - x.2.stamp)) xs

/-- Whether a kernel's block fits on a core without some blocks. -/
def Stall.fitsWithout (t : Stall) (gone : List BSel) (k : Kern) (c : Nat) : Bool :=
  fitsWith (((t.core c).blocks.filter fun b => !(gone.any fun g => g.core = c && g.pos = b.1)).map fun b => b.2.kern) k

/-- Take victims in order until enough cores have room; a gang goes whole. -/
def State.takeVictims (s : State) (st : Nat) (p : Nat) (enough : List BSel → Bool) :
    List (BSel × Block) → List BSel → Option (List BSel)
  | [], gone => if enough gone then some gone else none
  | x :: xs, gone =>
    if enough gone then some gone
    else if gone.contains x.1 then State.takeVictims s st p enough xs gone
    else
      let g := s.gangOf x.1
      if g.all fun y => s.mayEvict p y then
        State.takeVictims s st p enough xs (gone ++ g.map (·.1))
      else State.takeVictims s st p enough xs gone

/-- The cores that an incoming block could take, or the cores of the clusters that its gang could take. -/
def Stall.targets (t : Stall) (l : Launch) : List (Nat × List Nat) :=
  if l.gang < 2 then (t.coresFor l).map fun c => (c, [c]) else (List.range 6).map fun cl => (cl, t.clusterCores cl)

/-- The victims for the next block of a launch (R358): the fewest, then the lowest core or cluster. -/
def State.victims (s : State) (st : Nat) (l : Launch) : Option (List BSel) :=
  let t := s.stall st
  let need := max 1 l.gang
  (minBy (fun (x : Nat × List BSel) => x.2.length * 64 + x.1) ((t.targets l).filterMap fun (n, cs) =>
    let here := (t.blocks st).filter fun x => cs.contains x.1.core
    (s.takeVictims st l.prio (fun gone => need ≤ (cs.filter fun c => t.fitsWithout gone l.kern c).length)
      (s.victimOrder st here) []).map fun v => (n, v))).map (·.2)

/-- Whether the next block of a launch has a place without evicting. -/
def Stall.hasPlace (t : Stall) (l : Launch) : Bool :=
  if l.evicted = [] then (t.picks l).isSome else (t.restorePicks l).isSome

/-- The eviction of one victim, with its gang: a running block halts first, and a halted one stays halted after its restore. One that
comes to a halt, or whose supervisor runs, is saved after that (log 18). -/
def State.evictOne (s : State) (b : BSel) : State :=
  let ms := s.gangOf b
  if ms.all fun x => x.2.halt.phase = .run then s.haltToSave b false
  else if ms.all fun x => x.2.halt.phase = .halted then s.saveGang b false true false
  else s

/-- The resident block that an eviction names. -/
def State.victimAt (s : State) (st : Nat) (v : Nat × Nat) : Option (BSel × Block) :=
  ((s.stall st).blocks st).find? fun x => x.2.launch = v.1 && x.2.index = v.2

/-- The evictions under way go on: victims that have gone are named no more, nor those whose save fits no longer, and those that can
be saved now are. -/
def State.evictionsGo (s : State) (st : Nat) : State :=
  let fits (s : State) (b : BSel) : Bool := (s.gangOf b).all fun x => s.saveFits x.1 x.2
  let stays (v : Nat × Nat) : Bool := match s.victimAt st v with
    | some x => x.2.halt.phase = .saving || x.2.halt.toSave || fits s x.1
    | none => false
  if (s.stall st).evicting = [] then s
  else
  let s := s.modStall st fun t => t.victimsLeft stays
  ((s.stall st).evicting.flatMap (·.victims)).foldl (fun s v => match s.victimAt st v with
    | some x => if fits s x.1 then s.evictOne x.1 else s
    | none => s) s

/-- The block that a launch has to place next: an evicted one, else the lowest index. -/
def Launch.nextIndex (l : Launch) : Nat := (l.evicted.head?).getD l.next

/-- EVICTION (R358): evictions under way go on; and where the next block of the next launch has no room and none is under way for it,
victims of lower priority are named for it, and saved. -/
def execEviction (st : Nat) (s : State) : Host.Outcome State Fault Refusal :=
  let s := s.evictionsGo st
  let t := s.stall st
  .next (match t.nextLaunch with
    | none => s
    | some l =>
      if t.pausePlace || !t.savesOn || t.evictsFor l.id l.nextIndex || t.hasPlace l
          || (l.evicted = [] && !t.slotsFor (max 1 l.gang)) then s
      else match s.victims st l with
        | some (v :: vs) =>
          let names := (v :: vs).filterMap fun b => (s.block? b).map fun k => (k.launch, k.index)
          (s.modStall st fun t => { t with evicting := t.evicting ++ [⟨l.id, l.nextIndex, names⟩] }).evictionsGo st
        | _ => s)

end Sys2Proof.Machine
end

