-- ==== Sys2Proof/Machine/Tokens.lean ====
section
/-! DEFINITION. The events of the token protocol, of the stall write buffer and of the L1 (chapters 10 and 11). -/

set_option Elab.async false

namespace Sys2Proof.Machine

open Sys2Proof

/-- A message leaves the mesh. -/
def State.taken (s : State) (i : Nat) : State := { s with net := s.net.eraseIdx i }

/-! ## Local accesses and evictions -/

/-- DC_LOCAL_READ (R274): the waiting reads of a line are served under a token, or the line misses. A line that came for a unit which
asks no more is kept for it no longer (log 25). -/
def execDcLocalRead (st line : Nat) (s : State) : Host.Outcome State Fault Refusal :=
  .next (if s.wantsRead st line then
      (if s.readable st line then (s.serveLine st line).settleMiss st line else s.wantLine st line false)
    else if (s.stall st).wanted line then (if s.readable st line then s else s.wantLine st line false)
    else s.takeRead st line)

/-- DC_LOCAL_WRITE (R274): the waiting writes of a line are performed under every token, or the line misses. -/
def execDcLocalWrite (st line : Nat) (s : State) : Host.Outcome State Fault Refusal :=
  .next (if s.wantsWrite st line then
      (if (s.dcLine st line).t = 64 then (s.serveLine st line).settleMiss st line else s.wantLine st line true) else s)

/-- DC_EVICTION (R274): a write-back of every token; no line that waits or is protected. -/
def execDcEviction (st line : Nat) (s : State) : Host.Outcome State Fault Refusal :=
  let x := s.dcLine st line
  .next (if 1 ≤ x.t && x.miss = .none && !s.lineProtected st line then s.dcSendAll st line true (s.homeStall line) true else s)

/-- L1_EVICTION (R263): of a line of device memory and of the line of an HRO page that the same number names. -/
def execL1Eviction (st core line : Nat) (s : State) : Host.Outcome State Fault Refusal :=
  .next (s.modCore st core fun k => { k with l1 := k.l1.del line, l1h := k.l1h.del line })

/-! ## Transient requests -/

/-- TRANSIENT_REQUEST_AT_CACHE (R274); deferred while a reservation protects the line (R291). -/
def execTransientRequestAtCache (i : Nat) (s : State) : Host.Outcome State Fault Refusal :=
  match s.net[i]? with
  | some (.trans line write e dst false) =>
    if s.lineProtected dst line then .next s
    else
      let s := s.taken i
      let x := s.dcLine dst line
      .next (if write then s.dcSendAll dst line false e false
        else if !x.o then s
        else if 2 ≤ x.t then (s.sendTokens line 1 false true false false dst e false).putDc dst line { x with t := x.t - 1 }
        else s.dcSendAll dst line false e false)
  | _ => .next s

/-- A home forwards a request to every hinted stall but the requester. -/
def State.forwardHinted (s : State) (line : Nat) (write : Bool) (e : Nat) (hint : DWord) : State :=
  (bitsOf hint).foldl (fun s x => if x = e then s else s.send (.trans line write e x false)) s

/-- TRANSIENT_REQUEST_AT_HOME (R275). -/
def execTransientRequestAtHome (i : Nat) (s : State) : Host.Outcome State Fault Refusal :=
  match s.net[i]? with
  | some (.trans line write e _ true) =>
    let s := s.taken i
    let h := s.homeLine line
    let home := s.homeStall line
    .next (if write then
        ((s.homeSendAll line e false).forwardHinted line true e h.sharers).putHint line (BitVec.ofNat 64 (2 ^ e))
      else if !h.o then s.forwardHinted line false e h.sharers
      else if 2 ≤ h.t then
        ((s.sendTokens line 1 false true false false home e false).putHome line { h with t := h.t - 1 }).noteSharer line e (h.t = 64)
      else (s.homeSendAll line e false).noteSharer line e false)
  | _ => .next s

/-! ## Token messages -/

/-- A token message reaches a die cache (R274): the tokens are added; then they are forwarded to another stall's active
request, or satisfy what the line waits for, or go home when nothing here wants them. -/
def State.tokensAtCache (s : State) (line n : Nat) (own data d : Bool) (st : Nat) : State :=
  let x := s.dcLine st line
  let wasIdle := x.t = 0 && x.miss = .none
  let s := s.putDc st line { x with t := x.t + n, v := x.v || data, o := x.o || own, d := if own then d else x.d }
  if (s.stall st).claimed line st then s.forward st line
  else if (s.dcLine st line).satisfied then (s.serveLine st line).missDone st line
  else if wasIdle then s.dcSendAll st line true (s.homeStall line) true
  else s

/-- TOKEN_MESSAGE_AT_CACHE (R274). -/
def execTokenMessageAtCache (i : Nat) (s : State) : Host.Outcome State Fault Refusal :=
  match s.net[i]? with
  | some (.token line n own data d _ _ dst false) => .next ((s.taken i).tokensAtCache line n own data d dst)
  | _ => .next s

/-- TOKEN_MESSAGE_AT_HOME (R275): the tokens are added; ALL clears the sender's hint bit; a line that comes back with every byte written is
lost no more (R266); then an active persistent request is served, and so are far operations that waited for the line (R283). -/
def execTokenMessageAtHome (i : Nat) (s : State) : Host.Outcome State Fault Refusal :=
  match s.net[i]? with
  | some (.token line n own _ d all src dst true) =>
    let s := s.taken i
    let h := s.homeLine line
    let s := s.putHome line ⟨h.t + n, h.o || own, if all then h.hint.map fun v => setBit v src false else h.hint⟩
    let s := if own && d then s.wholeAtHome line else s
    let s := if (s.homeLine line).t = 64 then s.serveHome dst line else s
    .next (s.forward (s.homeStall line) line)
  | _ => .next s

/-! ## Persistent requests -/

/-- MISS_TIMER_EXPIRE (R274, R276): 512 clocks after the request, once. -/
def execMissTimerExpire (st line : Nat) (s : State) : Host.Outcome State Fault Refusal :=
  let x := s.dcLine st line
  .next (if x.miss ≠ .none && !x.satisfied && !x.esc && x.timer + 512 ≤ (s.stall st).clock then
      (s.putDc st line { x with esc := true }).askPersistent st line (if x.miss = .write then .write else .read)
    else s)

/-- ACTIVATE (R278). -/
def execActivate (i : Nat) (s : State) : Host.Outcome State Fault Refusal :=
  match s.net[i]? with
  | some (.activate e line kind dst) =>
    let s := (s.taken i).modStall dst fun t => { t with ptab := t.ptab.put e ⟨line, kind⟩ }
    .next ((s.send (.ack e false dst)).forward dst line)
  | _ => .next s

/-- A stall of a marked set has deactivated its entry for the line (R278). -/
def Stall.unmark (t : Stall) (e : Nat) (line : Nat) : Stall :=
  { t with marked := match Tab.find? t.marked line with
      | none => t.marked
      | some l => if (l.filter (· ≠ e)).isEmpty then t.marked.del line else t.marked.put line (l.filter (· ≠ e)) }

/-- DEACTIVATE (R278): the entry is free, and the next request for its line becomes active. -/
def execDeactivate (i : Nat) (s : State) : Host.Outcome State Fault Refusal :=
  match s.net[i]? with
  | some (.deactivate e dst) =>
    let s := s.taken i
    let line := match Tab.find? (s.stall dst).ptab e with
      | some p => p.line
      | none => 0
    let s := s.modStall dst fun t => ({ t with ptab := t.ptab.del e } : Stall).unmark e line
    .next (((s.send (.ack e true dst)).forward dst line).escalate dst)
  | _ => .next s

/-- ACKNOWLEDGE (R278). -/
def execAcknowledge (i : Nat) (s : State) : Host.Outcome State Fault Refusal :=
  match s.net[i]? with
  | some (.ack e deact _) =>
    let s := (s.taken i).modStall e fun t => { t with preq := t.preq.map fun p =>
      if deact then { p with deactAcks := p.deactAcks - 1 } else { p with actAcks := p.actAcks - 1 } }
    .next (s.progress e)
  | _ => .next s

/-- PROTECTED_DEFERRAL_END (R291): 64 clocks have passed; what was deferred goes on. -/
def execProtectedDeferralEnd (st line : Nat) (s : State) : Host.Outcome State Fault Refusal :=
  if s.lineProtected st line then .next s
  else
    let s := s.modStall st fun t => { t with cores := t.cores.map fun c => (c.1, { c.2 with blocks := c.2.blocks.map fun b =>
      (b.1, { b.2 with squads := b.2.squads.map fun q => (q.1, q.2.mapLanes fun _ ln => match ln.resv with
        | some r => if r.line = line then { ln with resv := some { r with prot := none } } else ln
        | none => ln) }) }) }
    .next (s.forward st line)

/-- FAR_ATOMIC (R283): a far atomic, red or merge at its home acts, or the line is recalled; the recall waits until the writes
that go before the operation have been performed, since they need the tokens first (log 41). -/
def execFarAtomic (st i : Nat) (s : State) : Host.Outcome State Fault Refusal :=
  match (s.stall st).far[i]? with
  | none => .next s
  | some f =>
    let line := match f.lanes with
      | l :: _ => l.place.line
      | [] => 0
    if s.farReady f then
      .next (((s.modStall st fun t => { t with far := t.far.eraseIdx i }).performFar f).served st line true)
    else if (s.homeLine line).t = 64 || s.farBehind f then .next s
    else .next (s.askPersistent st line .home)

/-! ## Store queues and the write buffer -/

/-- STORE_DRAIN (R295, R297, R300). -/
def execStoreDrain (q : Sel) (s : State) : Host.Outcome State Fault Refusal := .next (s.drainHead q)

/-- BUFFERED_WRITE_PERFORM (R295). -/
def execBufferedWritePerform (st i : Nat) (s : State) : Host.Outcome State Fault Refusal := .next (s.performBuffered st i)

/-- A posted write to this package's own memory, which has come back through the switch (R293, R319): the part within its first line is
performed once the line's home holds every token, and the rest goes on. -/
def State.performOwn (s : State) (st i : Nat) (p : Posted) (a : Nat) : State :=
  let pa := a % 2 ^ 48
  let line := pa / 64
  if (s.homeLine line).t = 64 then
    let n := min p.bytes.length (64 - pa % 64)
    let s := (s.performAtHome pa (p.bytes.take n)).served (s.homeStall line) line true
    let s := match p.src with
      | some q => s.dropL1 q line
      | none => s
    if p.bytes.length ≤ n then (s.modStall st fun t => { t with posted := t.posted.eraseIdx i }).reapFor p.src
    else s.modStall st fun t =>
      { t with posted := updAt t.posted i fun p => { p with place := .ext (a + n) false, bytes := p.bytes.drop n } }
  else s.askPersistent (s.homeStall line) line .home

/-- POSTED_WRITE_COMPLETE (R295): a posted write completes at its memory. -/
def execPostedWriteComplete (st i : Nat) (s : State) : Host.Outcome State Fault Refusal :=
  match (s.stall st).posted[i]? with
  | none => .next s
  | some p =>
    let gone : State := s.modStall st fun t => { t with posted := t.posted.eraseIdx i }
    .next (match p.place with
      | .host a _ => (gone.performHost a p.bytes true).reapFor p.src
      | .ext a _ => if s.ownsExt a then s.performOwn st i p a else (gone.performExt a p.bytes).reapFor p.src
      | _ => gone.reapFor p.src)

/-! ## Results -/

/-- Write the values of a result in flight to its registers (R77). -/
def State.landFlight (s : State) (q : Sel) (sup : Bool) (vals : List (Nat × Nat × Word)) : State :=
  vals.foldl (fun s v =>
    if v.1 = 64 then
      (if h : v.2.1 < 48 then s.writeSca q sup (.sca ⟨v.2.1, h⟩) [v.2.2] else s)
    else s.modSquad q fun x => x.modLane v.1 fun ln => { ln with v := Tab.set 0 ln.v v.2.1 v.2.2 }) s

/-- RESULT_RETURN (R77): what the load may read is read, the loads before it first as far as the program order of R297 asks; when
every value of the result is fixed, it is written to its registers, its flags are set, and the result has returned. What occupies no
register is over with that. -/
def execResultReturn (q : Sel) (i : Nat) (s : State) : Host.Outcome State Fault Refusal :=
  match (s.squad? q).bind fun (sq : Squad) => (sq.flight[i]?).map fun (f : Flight) => f.id with
  | none => .next s
  | some id =>
    let s := (s.performLoads q).performLoad q id true
    match s.squad? q with
    | none => .next s
    | some sq =>
      match sq.flight.find? fun f => f.id = id with
      | none => .next s
      | some f =>
        if !f.perf || f.ret then .next s
        else
          let s := (s.landFlight q sq.sup f.vals).setFlags q.blk f.fl
          if f.named then .next (s.modSquad q fun x => x.modFlight id fun g => { g with ret := true })
          else .next ((s.modSquad q fun x => x.dropFlight id).reap q.blk)

end Sys2Proof.Machine
end

