-- ==== Sys2Proof/Machine/External.lean ====
section
/-! DEFINITION. What reaches the package from outside: the host's and external peers' accesses to device memory, memory errors,
ports and switch planes, resets and lost stalls (R17, R25, R189, R260, R264 to R266, R293, R318, R319, R340, R469). -/

set_option Elab.async false

namespace Sys2Proof.Machine

open Sys2Proof

/-! ## Accesses from outside (R266, R293, R295) -/

/-- Whether every byte of a range is device memory: DRAM or carved stock of a mapped stall that is not down (R249). -/
def State.devRange (s : State) (pa n : Nat) : Bool :=
  match s.stallAt (pa / 2 ^ 41) with
  | none => false
  | some st =>
    let a := pa % 2 ^ 41
    s.siteState st ≠ 3 && 0 < n && (inDram (a + n - 1) || (stockBase ≤ a && a + n ≤ stockBase + (s.stall st).stockSize))

/-- The lost lines that a range touches. -/
def State.lostLines (s : State) (pa n : Nat) : List Nat := (linesOf pa n).filter fun l => (Tab.find? s.lost l).isSome

/-- HOST_READ (R266, R293): performed values; a lost line gives none of its bytes: CXL.io gets Completer Abort, CXL.mem and
CXL.cache get zeros and poison, and function 64 logs it. -/
def execHostRead (io : Bool) (pa n : Nat) (s : State) : Host.Outcome State Fault Refusal :=
  .next (if !s.devRange pa n then { s with answer := .none }
    else
      let gone := s.lostLines pa n
      let bs := s.mem.rds pa n
      if gone.isEmpty then { s with answer := .data bs }
      else
        let zeroed := (List.range n).map fun i => if gone.contains ((pa + i) / 64) then 0 else bs.getD i 0
        { s with
          answer := if io then .abort else .poison zeroed
          evlog := s.evlog ++ gone.map fun l => .lostRead (l * 64) })

/-- A write from outside, line by line: each piece is performed at its home, or waits there for the tokens (R293). -/
def State.writeInbound (s : State) (pa : Nat) (bs : List Byte) : State :=
  if !s.devRange pa bs.length then s
  else (linesOf pa bs.length).foldl (fun s l =>
    let lo := max pa (l * 64)
    let hi := min (pa + bs.length) (l * 64 + 64)
    State.serveInbound { s with inbound := s.inbound ++ [(lo, sliceBytes bs (lo - pa) (hi - lo))] } l) s

/-- HOST_WRITE (R293). -/
def execHostWrite (pa : Nat) (bs : List Byte) (s : State) : Host.Outcome State Fault Refusal := .next (s.writeInbound pa bs)

/-- EXTERNAL_PEER_ACCESS (R293): a write, or a read of n bytes where there is nothing to write. A read of a lost line ends
without data: the one marked response that leaves the package is the host's (R265). -/
def execExternalPeerAccess (pa : Nat) (wr : List Byte) (n : Nat) (s : State) : Host.Outcome State Fault Refusal :=
  .next (if wr ≠ [] then s.writeInbound pa wr
    else if !s.devRange pa n then { s with answer := .none }
    else if (s.lostLines pa n).isEmpty then { s with answer := .data (s.mem.rds pa n) }
    else { s with answer := .abort })

/-! ## Errors (R189, R265, R266, R469) -/

/-- UNCORRECTABLE_ERROR (R189, R265): a line of device memory is lost; a granule of pad or accumulator memory is in error. -/
def execUncorrectableError (e : ErrAt) (s : State) : Host.Outcome State Fault Refusal :=
  .next (match e with
    | .mem pa => if s.devRange (pa / 64 * 64) 64 then { s with lost := s.lost.put (pa / 64) 0 } else s
    | .pad b g => s.modBlock b fun k =>
        if 8 * g + 8 ≤ k.kern.pad && !k.padBad.contains g then { k with padBad := k.padBad ++ [g] } else k
    | .am b g => s.modBlock b fun k =>
        if 8 * g + 8 ≤ k.kern.am && !k.amBad.contains g then { k with amBad := k.amBad ++ [g] } else k)

/-- 3,600 s on the oscillator of the DMC (R469). -/
def period : Nat := 3600 * 126 * 10 ^ 9

/-- Whether a core's retirement is requested or runs (R469, R470). -/
def Core.retires (c : Core) (t : Stall) : Bool :=
  let r : DWord := c.retst.zeroExtend 64
  field r 31 30 = 1 || (field r 31 30 = 2 && (Tab.get 0 t.crt (field r 13 8)).getLsbD 14)

/-- The request that a core retire (R469, R470). -/
def State.askRetire (s : State) (st core : Nat) : State :=
  let t := s.stall st
  let w := 2 ^ 30 + t.spareOf core * 2 ^ 16 + (t.lcoreOf core).getD 0 * 2 ^ 8 + core
  (s.modCore st core fun c => { c with retst := BitVec.ofNat 32 w }).asyncCause st core 0x79

/-- A correctable pad or accumulator-memory error of a core (R469): the third of a sliding period asks for its retirement. -/
def State.padError (s : State) (st core : Nat) : State :=
  let t := s.stall st
  let times := (t.core core).ceTimes.filter fun c => t.osc < c + period
  let s := s.modCore st core fun c => { c with ceTimes := times ++ [t.osc] }
  if 2 ≤ times.length && !(t.core core).retires t then s.askRetire st core else s

/-- COUNT passes LIMIT (R436, R469): 0x2C for the block whose access it was, or a record of KIND 2. -/
def State.countPassed (s : State) (st core : Nat) (user : Option Nat) : State :=
  match user with
  | none => s.kind2 st 0x2C core
  | some p => match s.block? ⟨st, core, p⟩ with
    | none => s.kind2 st 0x2C core
    | some _ => s.modBlock ⟨st, core, p⟩ fun k => { k with halt := { k.halt with pendAsync := k.halt.pendAsync ++ [0x2C] } }

/-- CORRECTABLE_ERROR (R469): `pad` for an error of the core's pad or accumulator memory, `user` the position of the block
whose access met it. A core that is powered off counts none (R473). -/
def execCorrectableError (st core : Nat) (pad : Bool) (user : Option Nat) (s : State) : Host.Outcome State Fault Refusal :=
  if (s.core st core).off then .next s
  else
    let t := s.stall st
    let n := t.ceCount + 1
    let limit := field (t.ceRest.zeroExtend 64) 15 0
    let s := s.modStall st fun t => { t with ceCount := n }
    let s := if limit ≠ 0 && n.toNat = limit + 1 then s.countPassed st core user else s
    .next (if pad then s.padError st core else s)

/-- CE_WINDOW_END (R469). -/
def execCeWindowEnd (st : Nat) (s : State) : Host.Outcome State Fault Refusal := .next (s.modStall st fun t => { t with ceCount := 0 })

/-! ## Ports and planes (R25, R26, R264, R318, R319, R340) -/

/-- HOST_PORT_LINK_FAILURE (R25). -/
def execHostPortLinkFailure (p : Nat) (s : State) : Host.Outcome State Fault Refusal :=
  .next { s with hostUp := updAt s.hostUp p fun _ => false }

/-- HOST_PORT_LINK_RESTORE (R264). -/
def execHostPortLinkRestore (p : Nat) (s : State) : Host.Outcome State Fault Refusal :=
  .next { s with hostUp := updAt s.hostUp p fun _ => true }

/-- The host port that a stall's accesses leave by (R264): the nearer of the two that are up, port 0 at site (0,3) first. -/
def State.hostPort (s : State) (st : Nat) : Option Nat :=
  minBy (fun p => siteHops (s.siteOf st) (9 * (3 + p))) ((List.range 2).filter fun p => s.hostUp.getD p false)

/-- The site of a scale port (R26): two to a site, ports 0 to 15 in row 0 and 16 to 31 in row 7. Port q connects to switch plane q. -/
def scalePortSite (q : Nat) : Nat := if q < 16 then q / 2 else 9 * 7 + (q - 16) / 2

/-- SCALE_PORT_FAILURE (R340). -/
def execScalePortFailure (p : Nat) (s : State) : Host.Outcome State Fault Refusal :=
  .next (if p < 32 && !s.scaleDown.contains p then { s with scaleDown := insertNat p s.scaleDown } else s)

/-- SCALE_PORT_RESTORE (R319). -/
def execScalePortRestore (p : Nat) (s : State) : Host.Outcome State Fault Refusal :=
  .next { s with scaleDown := s.scaleDown.filter (· ≠ p) }

/-- The scale port that an access of a plane uses: the next working plane in ascending order (R319, R340). -/
def State.scalePort (s : State) (plane : Nat) : Option Nat :=
  ((List.range 32).map fun i => (plane + i) % 32).find? fun p => !s.scaleDown.contains p

/-- SWITCH_PLANE_SETUP (R318). -/
def execSwitchPlaneSetup (pkg : Nat) (s : State) : Host.Outcome State Fault Refusal :=
  .next (if pkg < 512 then { s with pkg := BitVec.ofNat 64 (512 + pkg) } else s)

/-! ## Lost and reset stalls -/

/-- Change the entry of a stall in the site table: its state and site, with GEN + 1 (R15). -/
def State.setSite (s : State) (st state site : Nat) : State :=
  let e : DWord := (Tab.get 0 s.site st).zeroExtend 64
  { s with site := Tab.set 0 s.site st (BitVec.ofNat 32 ((field e 23 16 + 1) % 256 * 2 ^ 16 + state * 2 ^ 14 + site)) }

/-- STALL_LOST (R17, R475): the entry reads 0b11. -/
def execStallLost (st : Nat) (s : State) : Host.Outcome State Fault Refusal :=
  .next (if s.siteState st = 1 || s.siteState st = 2 then s.setSite st 3 (s.siteOf st) else s)

/-- The CRT after a stall reset: an entry whose core at reset has been retired names its cluster's spare, or, where another of the
cluster has that already or it is retired too, is out of service (R471, log 19). -/
def crtWithout (gone : List Nat) : Tab DWord :=
  crtReset.map fun x =>
    let p := field x.2 5 0
    let spare := 9 * (p / 9) + 8
    (x.1, if !gone.contains p then x.2
      else if gone.contains spare || gone.any (fun c => c / 9 = p / 9 && c < p) then BitVec.ofNat 64 p
      else BitVec.ofNat 64 (0x8000 + spare))

/-- STALL_RESET (R260): the stock does not survive, and every register and unit of the stall is at its reset value. The tokens
and what keeps track of them stay where they are (R271), and so do the sequence numbers that only a package reset clears
(R324). A retired core stays off and out of service (R473), and the default routes are written as at boot (R20); log 19 says what else
the model takes to survive. -/
def execStallReset (st : Nat) (s : State) : Host.Outcome State Fault Refusal :=
  let t := s.stall st
  let base := s.localPa st stockBase
  let gone := (List.range 54).filter fun c => s.retired.contains (st * 64 + c)
  .next <| State.fillRoutes (st := st) (force := false) { (s.modStall st fun _ => { Stall.reset with
      crt := crtWithout gone, cores := gone.map fun c => (c, { Core.reset with off := true }), osc := t.osc
      dc := t.dc, ptab := t.ptab, preq := t.preq, pwait := t.pwait, want := t.want, marked := t.marked, wbuf := t.wbuf, posted := t.posted
      sharers := t.sharers, sendSeq := t.sendSeq, expected := t.expected, early := t.early }) with
    mem := s.mem.clear base (base + t.stockSize)
    lost := s.lost.filter fun l => l.1 * 64 < base || base + t.stockSize ≤ l.1 * 64 }

end Sys2Proof.Machine
end

