-- ==== Sys2Proof/Machine/Finaliser.lean ====
section
/-! DEFINITION. The finaliser: the checks of a Puden image, the four passes that make its native form, and the code area
(chapter 03, R89 to R93). -/

set_option Elab.async false

namespace Sys2Proof.Machine

open Sys2Proof

/-! ## What a word reads and writes -/

/-- What the finaliser knows of a word: its operands, whether it reduces lanes to a scalar, a 0x03 or 0x02 that every issue of it
would raise under the image's header, whether it is privileged, whether it counts as reading every register (R78), and whether
its destination is in flight after it (R77). -/
structure FinUse where
  uses : List Use
  reduce : Bool := false
  bad : Bool := false
  priv : Bool := false
  all : Bool := false
  var : Bool := false
deriving DecidableEq, Repr

/-- nop. -/
def nopI : Instr := .nop ⟨false, false, 7⟩

/-- An operand that a word of chapter 13 or 14 may name as its destination. -/
def destAny (d : Opnd) : Bool := d.isVec || d.isSca || d = .zero

/-- The use of the index of qbc. -/
def qselUse : QSel → List Use
  | .reg o => [.r o]
  | .imm _ => []

/-- A last source that is a register but no scalar one. -/
def riVec : RI → Bool
  | .reg o => !o.isSca
  | .imm _ => false

/-- Not two vector registers in rising order. -/
def notBelow : Opnd → Opnd → Bool
  | .vec i, .vec j => j.val ≤ i.val
  | _, _ => true

/-- Integer, logic and address words (R122 to R131). -/
def finInt : Instr → Option FinUse
  | .add _ ty _ d a b | .sub _ ty _ d a b | .mul _ ty _ d a b | .div _ ty _ d a b =>
    some { uses := [.ww ty.wide d, .rw' ty.wide a] ++ riUse ty.wide b }
  | .mulhi _ ty d a b | .rem _ ty d a b | .min _ ty d a b | .max _ ty d a b | .and _ ty d a b | .or _ ty d a b
  | .xor _ ty d a b | .andn _ ty d a b => some { uses := [.ww ty.wide d, .rw' ty.wide a] ++ riUse ty.wide b }
  | .mad _ ty _ d a b c => some { uses := [.ww ty.wide d, .rw' ty.wide a, .rw' ty.wide b] ++ riUse ty.wide c }
  | .abs _ ty _ d a | .neg _ ty _ d a => some { uses := [.ww ty.wide d, .rw' ty.wide a] }
  | .not _ ty d a | .brev _ ty d a | .mov _ ty d a => some { uses := [.ww ty.wide d, .rw' ty.wide a] }
  | .shl _ ty d a b | .shr _ ty d a b | .sar _ ty d a b | .rot _ ty d a b | .bfx _ ty d a b =>
    some { uses := [.ww ty.wide d, .rw' ty.wide a] ++ riUse false b }
  | .clz _ ty d a | .popc _ ty d a => some { uses := [.w1 d, .rw' ty.wide a] }
  | .bfi _ ty d a b spec => some { uses := [.ww ty.wide d, .rw' ty.wide a, .rw' ty.wide b] ++ riUse false spec }
  | .sel _ ty d a b _ => some { uses := [.ww ty.wide d, .rw' ty.wide a, .rw' ty.wide b] }
  | .cmp _ _ ty _ a b => some { uses := .rw' ty.wide a :: riUse ty.wide b }
  | .lea _ _ _ d a b => some { uses := [.w2 d, .r2 a] ++ riUse false b }
  | .movi _ ty d _ => some { uses := [.ww ty.wide d] }
  | .movh _ _ d _ => some { uses := [.w1 d, .r d] }
  | .pset _ op _ => some { uses := psetUses op }
  | _ => none

/-- Floating point, conversion and cross-lane words (R132 to R153). -/
def finFp : Instr → Option FinUse
  | .fadd _ ft _ d a b | .fsub _ ft _ d a b | .fmul _ ft _ d a b | .fdiv _ ft _ d a b | .fmin _ ft _ d a b
  | .fmax _ ft _ d a b => let w : Bool := ft = .f64; some { uses := [.ww w d, .rw' w a, .rw' w b] }
  | .ffma _ ft _ d a b c | .fsel _ ft _ d a b c =>
    let w : Bool := ft = .f64
    some { uses := [.ww w d, .rw' w a, .rw' w b, .rw' w c] }
  | .fsqrt _ ft _ d a | .frnd _ ft _ _ d a => let w : Bool := ft = .f64; some { uses := [.ww w d, .rw' w a] }
  | .fcmp _ _ ft _ _ a b => let w : Bool := ft = .f64; some { uses := [.rw' w a, .rw' w b] }
  | .fdot2 _ _ _ d a b c => some { uses := [.w1 d, .r a, .r b, .r c] }
  | .frcp _ d a | .frsq _ d a | .fexp2 _ d a | .flog2 _ d a | .fsinp _ d a | .fcosp _ d a =>
    some { uses := [.w1 d, .r a], bad := d.isSca, var := true }
  | .cvt _ _ dst src d a x => some { uses := cvtUses dst src d a x }
  | .pack _ _ dst _ d a b =>
    some { uses := .w1 d :: (if dst.byteWide then [⟨a, 4, 1, false⟩] else [.r a, .r b]), bad := d.isSca }
  | .unpack _ src _ d a => some { uses := [⟨d, if src.byteWide then 4 else 2, 1, true⟩, .r a], bad := d.isSca }
  | .rseed _ d a => some { uses := [.w1 d, .r a], bad := d.isSca }
  | .wfu _ d a => some { uses := [⟨d, 3, 4, true⟩, ⟨d, 3, 4, false⟩, .r a], bad := !d.isVec }
  | .wfm _ d a => some { uses := [⟨d, 3, 4, true⟩, ⟨d, 3, 4, false⟩, ⟨a, 3, 4, false⟩], bad := !d.isVec || !vecOrScaF a }
  | .shfl _ _ _ d a b => some { uses := [.w1 d, .r a] ++ riUse false b, bad := d.isSca }
  | .redux _ _ _ _ d a => some { uses := [.w1 d, .r a], reduce := true }
  | .scan _ _ _ _ _ d a => some { uses := [.w1 d, .r a], bad := !d.isVec }
  | .ballot _ d _ => some { uses := [.w2 d], reduce := true }
  | .vote _ _ _ _ => some { uses := [] }
  | .qx _ _ _ d a => some { uses := [.w1 d, .r a], bad := d.isSca }
  | .qbc _ _ d a b => some { uses := [.w1 d, .r a] ++ qselUse b, bad := d.isSca }
  | .pairWord _ sa sb => some { uses := slotUses sa ++ slotUses sb, reduce := true }
  | _ => none
where
  /-- A vector or a scalar register. -/
  vecOrScaF (a : Opnd) : Bool := a.isVec || a.isSca

/-- Memory, pad and control words (R154 to R211, R267 to R307). -/
def finMem : Instr → Option FinUse
  | .ld _ sz _ _ d a => let n := regsOf sz.spec.1; some { uses := [⟨d, n, n, true⟩, .r2 a], var := true }
  | .st _ sz _ _ a b => let n := regsOf sz.size; some { uses := [.r2 a, ⟨b, n, n, false⟩] }
  | .atom _ op _ d a b => some { uses := [.ww op.wide d, .r2 a, casUse op.wide op.isCas b], var := true }
  | .red _ op _ a b => some { uses := [.r2 a, .rw' op.wide b] }
  | .lrs _ w _ d a => some { uses := [.ww w d, .r2 a], var := true }
  | .scs _ w _ d a b => some { uses := [.w1 d, .r2 a, .rw' w b], var := true }
  | .cpf _ _ _ a | .cwb _ _ a | .cinv _ _ _ a => some { uses := [.r2 a] }
  | .pld _ sz _ d a => some { uses := [.ww (sz.spec.1 = 8) d, .r a], var := true }
  | .pst _ sz _ a b => some { uses := [.r a, .rw' (sz.size = 8) b] }
  | .ald _ w _ d a => some { uses := [.ww w d, .r a], var := true }
  | .ast _ w _ a b => some { uses := [.r a, .rw' w b] }
  | .patom _ op _ d a b => some { uses := [.ww op.wide d, .r a, casUse op.wide op.isCas b], var := true }
  | .parr _ d a b | .pwait _ d a b => some { uses := [.w1 d, .r a] ++ riUse false b, var := true }
  | .cpy _ a => some { uses := [⟨a, 8, 8, false⟩], bad := !a.isSca }
  | .twany _ d m | .tfirst _ d m => some { uses := .w1 d :: m.uses, bad := m.isVec }
  | .twall _ m | .tclr _ m => some { uses := m.uses, bad := m.isVec }
  | .watch _ kind _ a => some (match kind with
    | .global => { uses := [.r2 a], bad := a.isVec }
    | .pad => { uses := [.r a], bad := a.isVec }
    | .off => { uses := [] })
  | .wait _ d a => some { uses := .w1 d :: riUse false a, reduce := true }
  | .bra _ _ _ => some { uses := [], all := true }
  | .jmp _ a _ _ | .ret _ a _ => some { uses := [.r2 a], bad := !vecOrScaM a, all := true }
  | .call _ link _ _ => some { uses := [.w2 link], bad := !(link.isVec || link = .zero), all := true }
  | .calli _ d a _ _ => some { uses := [.w2 d, .r2 a], bad := !vecOrScaM a || !(d.isVec || d = .zero), all := true }
  | .reform _ _ | .exit _ | .pkill _ => some { uses := [], all := true }
  | .loop _ _ count _ => some (match count with
    | .imm _ => { uses := [] }
    | .reg a => { uses := [.r a], bad := !a.isSca })
  | .mfc _ d idx => some { uses := [.ww (crWide idx.toNat) d], reduce := true, priv := crPriv idx.toNat,
                           bad := !crAssigned idx.toNat || (idx = 0x007 && d.isSca) }
  | .mtc _ idx a => some { uses := [.rw' (crWide idx.toNat) a], priv := crPriv idx.toNat, bad := !crAssigned idx.toNat }
  | .fpcWrite _ a | .mqbWrite _ a => some { uses := [.r a] }
  | .cyc _ d => some { uses := [.w2 d], reduce := true }
  | .trap _ _ => some { uses := [⟨.sca 0, 6, 1, false⟩] }
  | .sret _ _ | .iflush _ _ => some { uses := [], priv := true }
  | .halt _ a => some { uses := [.r a], priv := true, bad := !a.isSca }
  | _ => none
where
  /-- A vector or a scalar register. -/
  vecOrScaM (a : Opnd) : Bool := a.isVec || a.isSca

/-- Matrix, mesh, scheduler, graphics and ray words (R247 to R432), under the image's header. -/
def finUnit (h : KHead) : Instr → Option FinUse
  | .menq _ d a => some { uses := [.w1 d, ⟨a, 4, 4, false⟩], bad := !vecOrScaU a }
  | .mstat _ d _ => some { uses := [.w1 d], reduce := true }
  | .send _ d a b => some { uses := [.w1 d, .r2 a, .r b], bad := !a.isSca || !b.scaOrZero }
  | .mbadv _ mb d b => some { uses := .w1 d :: riUse false b, reduce := true, bad := !((khBoxes h).any fun x => x.num = mb.toNat) }
  | .coll _ a => some { uses := [.r a], bad := !a.isSca }
  | .tspawn _ a => some { uses := [⟨a, 8, 8, false⟩], bad := !a.isSca }
  | .tnext _ d => some { uses := [.w2 d], bad := !destAny d }
  | .tdone _ d b => some { uses := .w1 d :: riUse false b, bad := !destAny d || riVec b }
  | .qput _ d a stage => some { uses := [.w1 d, ⟨a, 4, 4, false⟩], bad := khPipe h ≤ stage.toNat || !a.isSca || !destAny d }
  | .qget _ d => some { uses := [⟨d, 5, 8, true⟩], bad := khPipe h = 0 || !d.isSca }
  | .arm _ a | .launch _ a => some { uses := [⟨a, 4, 4, false⟩], bad := !a.isSca }
  | .tex _ arr d a b => some (tex arr d a b [])
  | .texf _ arr d a b c | .texl _ arr d a b c => some (tex arr d a b [.r c])
  | .texg _ arr _ d a b c => some (tex arr d a b [.r c])
  | .mout _ a => some { uses := [.r a], bad := !a.isVec }
  | .mfinMesh _ d a | .mfinTask _ d a => some { uses := [.w1 d, .r a], bad := !destAny d }
  | .pxo _ n a => some { uses := [⟨a, if n.val = 4 then 1 else 4, 1, false⟩], bad := !a.isVec }
  | .rbox _ d a b => some { uses := [⟨d, 9, 4, true⟩, ⟨a, 8, 4, false⟩, .r2 b], bad := !d.isVec || !a.isVec || !vecOrScaU b, var := true }
  | .rtri _ d a b => some { uses := [⟨d, 4, 4, true⟩, ⟨a, 8, 4, false⟩, .r2 b], bad := !d.isVec || !a.isVec || !vecOrScaU b, var := true }
  | .rtriW _ d a b c => some { uses := [⟨d, 4, 4, true⟩, ⟨a, 8, 4, false⟩, .r2 b, .r2 c],
                               bad := !(d.isVec || d = .zero) || !a.isVec || !vecOrScaU b || !vecOrScaU c, var := true }
  | .bmbox _ d a b => some { uses := [⟨d, 5, 4, true⟩, ⟨a, 16, 4, false⟩, .r2 b], bad := !d.isVec || !a.isVec || !vecOrScaU b, var := true }
  | .bmtri _ d a b => some { uses := [⟨d, 4, 4, true⟩, ⟨a, 16, 4, false⟩, .r2 b], bad := !d.isVec || !a.isVec || !vecOrScaU b, var := true }
  | .bmsplit _ d a b => some { uses := [.w1 d, ⟨a, 16, 4, false⟩, .r b], bad := !vecOrScaU b || notBelow d a }
  | .kpush _ a => some { uses := [.r2 a], bad := !vecOrScaU a }
  | .kpop _ d => some { uses := [.w2 d], bad := !d.isVec }
  | _ => none
where
  /-- A vector or a scalar register. -/
  vecOrScaU (a : Opnd) : Bool := a.isVec || a.isSca
  /-- A texture word. -/
  tex (arr : Bool) (d a b : Opnd) (more : List Use) : FinUse :=
    { uses := [⟨d, 4, 4, true⟩, ⟨a, if arr then 3 else 2, 1, false⟩, .r2 b] ++ more,
      bad := !d.isVec || !a.isVec || !(b.isSca || b = .argl), var := true }

/-- What a word reads and writes; a word that names no register has none of it. -/
def finUse (h : KHead) (i : Instr) : FinUse :=
  ((finInt i <|> finFp i) <|> (finMem i <|> finUnit h i)).getD { uses := [] }

/-! ## The checks (R90) -/

/-- The code words of an image. -/
def imgCode (h : KHead) (img : List Byte) : List DWord :=
  (List.range (khWords h)).map fun i => BitVec.ofNat 64 (sliceNum img (256 + 8 * i) 8)

/-- Status 0x02: P, S or LIVE is set. -/
def puden2 (w : DWord) : Bool :=
  w.getLsbD 62 || w.getLsbD 63 || (0x60 ≤ field w 61 54 && field w 61 54 ≤ 0x66 && field w 19 14 ≠ 0)

/-- The largest register budget of an image: a register at or above it is bad whatever role executes the word (R42, R90). -/
def khBudget (h : KHead) : Nat :=
  if khRoles h = 0 then 8 * sliceNum h 9 1 else ((List.range (khRoles h)).map fun i => (khRole h i).budget).foldl max 0

/-- Status 0x03: the word would raise 0x01, 0x02, 0x03 or 0x08 in user mode. -/
def puden3 (h : KHead) (w : DWord) : Bool :=
  match decode w with
  | .error _ => true
  | .ok i =>
    let u := finUse h i
    u.bad || u.priv || u.uses.any (Use.bad (khBudget h)) || (!u.reduce && mixes u.uses)

/-- The instruction of a word that has passed. -/
def wordInstr (w : DWord) : Instr := (decode w).toOption.getD nopI

/-- A loop of code: its word's index, the index after its body, and its counter. -/
structure CLoop where
  at' : Nat
  stop : Nat
  ctr : Nat
deriving DecidableEq, Repr

/-- The loops of code, in address order. -/
def codeLoops (is : List Instr) : List CLoop :=
  (List.range is.length).filterMap fun k => match is.getD k nopI with
    | .loop _ ctr _ len => some ⟨k, k + 1 + len.toNat, ctr.val⟩
    | _ => none

/-- The index that a direct branch names. -/
def directIndex (k : Nat) : Instr → Option Int
  | .bra _ off _ => some (k + 1 + off.toInt)
  | .call _ _ off _ => some (k + 1 + off.toInt)
  | _ => none

/-- Status 0x04. -/
def puden4 (is : List Instr) : Bool :=
  let n := is.length
  let loops := codeLoops is
  (List.range n).any (fun k => match directIndex k (is.getD k nopI) with
    | some t => t < 0 || (n : Int) ≤ t
    | none => false)
  || loops.any fun l => n < l.stop || l.at' + 257 < l.stop
      || loops.any fun m => m.at' < l.at' && l.at' < m.stop && (m.stop < l.stop || m.ctr = l.ctr)

/-! ## Successors (R91) -/

/-- Whether a full-form word is guarded. -/
def guarded (w : DWord) : Bool := field w 53 50 ≠ 7

/-- The land words with a tag. -/
def landsOf (is : List Instr) (tag : BitVec 12) : List Nat :=
  (List.range is.length).filter fun k => match is.getD k nopI with
    | .land _ t => t = tag
    | _ => false

/-- The words that follow a call. -/
def returns (is : List Instr) : List Nat :=
  (List.range is.length).filterMap fun k => match is.getD k nopI with
    | .call _ _ _ _ => some (k + 1)
    | .calli _ _ _ _ _ => some (k + 1)
    | _ => none

/-- Where word k passes control when it goes on at p in straight-line order: to p, and to the first word of every loop around it whose
body ends at p (R175). -/
def arrivesAt (loops : List CLoop) (k p : Nat) : List Nat :=
  p :: (loops.filter fun l => l.stop = p && l.at' < k).map fun l => l.at' + 1

/-- Where a word passes control in straight-line order. -/
def fallsTo (loops : List CLoop) (k : Nat) : List Nat := arrivesAt loops k (k + 1)

/-- Where word k passes control, with the words at which a bra, call, jmp, calli, ret or reform goes on in straight-line order. -/
def goesTo (ws : List DWord) (is : List Instr) (loops : List CLoop) (k : Nat) (next : List Nat) : List Nat :=
  let i := is.getD k nopI
  let fall := fallsTo loops k
  let ifGuarded := if guarded (ws.getD k 0) then next else []
  (match i with
    | .bra _ off _ => (k + 1 + off.toInt).toNat :: ifGuarded
    | .call _ _ off _ => (k + 1 + off.toInt).toNat :: ifGuarded
    | .jmp _ _ tag _ => landsOf is tag ++ ifGuarded
    | .calli _ _ _ tag _ => landsOf is tag ++ ifGuarded
    | .ret _ _ _ => returns is ++ ifGuarded
    | .reform _ _ => next
    | .exit _ => if guarded (ws.getD k 0) then fall else []
    | .pkill _ => if guarded (ws.getD k 0) then fall else []
    | .loop _ _ _ len => arrivesAt loops k (k + 1 + len.toNat) ++ fall
    | _ => fall).filter fun x => x < is.length

/-- The successors of word k for LIVE (R91): of the words that carry it, those that the rule lists. -/
def successors (ws : List DWord) (is : List Instr) (loops : List CLoop) (k : Nat) : List Nat := goesTo ws is loops k [k + 1]

/-- The words that word k can pass control to, for the markers, whose sets go along every path (R91). -/
def pathsFrom (ws : List DWord) (is : List Instr) (loops : List CLoop) (k : Nat) : List Nat :=
  goesTo ws is loops k (fallsTo loops k)

/-! ## Sets of registers as masks -/

/-- The bit of a register: vectors below scalars. -/
def regBit (r : Bool × Nat) : Nat := 2 ^ (if r.1 then 192 + r.2 else r.2)

/-- The mask of uses. -/
def usesMask (us : List Use) : Nat := us.foldl (fun m u => (Use.regs u).foldl (fun m r => m ||| regBit r) m) 0

/-- The vector registers of a mask. -/
def vecMask (m : Nat) : Nat := m % 2 ^ 192

/-- Registers read. -/
def FinUse.reads (u : FinUse) : Nat := usesMask (u.uses.filter fun x => !x.w)
/-- Registers written. -/
def FinUse.writes (u : FinUse) : Nat := usesMask (u.uses.filter fun x => x.w)
/-- Registers in flight after it. -/
def FinUse.flight (u : FinUse) : Nat := if u.var then u.writes else 0

/-- Apply a function until nothing changes, at most n times. -/
def untilStable {α : Type} [DecidableEq α] (f : α → α) : Nat → α → α
  | 0, x => x
  | n + 1, x => if f x = x then x else untilStable f n (f x)

/-! ## Pass 1: LIVE -/

/-- One round of liveness: what is live on entry to each word. -/
def liveRound (us : List FinUse) (gs : List Bool) (succ : List (List Nat)) (live : List Nat) : List Nat :=
  (List.range us.length).map fun k =>
    let u := us.getD k { uses := [] }
    let out := (succ.getD k []).foldl (fun m x => m ||| live.getD x 0) 0
    let kill := if gs.getD k true then 0 else vecMask u.writes
    vecMask u.reads ||| (out &&& (2 ^ 192 - 1 - kill))

/-- Live on entry to each word. -/
def liveIn (us : List FinUse) (gs : List Bool) (succ : List (List Nat)) : List Nat :=
  untilStable (liveRound us gs succ) (us.length + 1) (us.map fun _ => 0)

/-- LIVE of a mask: the smallest with 4 × LIVE above every register. -/
def liveCount (m : Nat) : Nat := if m = 0 then 0 else m.log2 / 4 + 1

/-- Whether a word carries LIVE. -/
def hasLive : Instr → Bool
  | .bra _ _ _ | .call _ _ _ _ | .jmp _ _ _ _ | .calli _ _ _ _ _ | .ret _ _ _ | .reform _ _ => true
  | _ => false

/-- Replace a field of a word: its lowest bit and its width. -/
def setField (w : DWord) (lo n v : Nat) : DWord :=
  BitVec.ofNat 64 (w.toNat / 2 ^ (lo + n) * 2 ^ (lo + n) + v % 2 ^ n * 2 ^ lo + w.toNat % 2 ^ lo)

/-- The words with LIVE set. -/
def setLives (ws : List DWord) (is : List Instr) (live : List Nat) (succ : List (List Nat)) : List DWord :=
  (List.range ws.length).map fun k =>
    let w := ws.getD k 0
    if hasLive (is.getD k nopI) then
      setField w 14 6 (liveCount ((succ.getD k []).foldl (fun m x => m ||| live.getD x 0) 0))
    else w

/-! ## Pass 2: pairs -/

/-- The guard of a slot, where a restricted operation can carry it. -/
def slotGuard (h : Hdr) : Option (BitVec 2) :=
  if h.neg then none
  else match h.pn.toNat with
    | 7 => some 0
    | 0 => some 1
    | 1 => some 2
    | 2 => some 3
    | _ => none

/-- The TY bit of a 32-bit type. -/
def tyBit : ITy → Option Bool
  | .i32 => some false
  | .n32 => some true
  | _ => none

/-- An immediate as imm8 under a type (R74). -/
def imm8 (nat : Bool) (v : BitVec 20) : Option (BitVec 8) :=
  if nat then (if v.toNat < 256 then some (v.truncate 8) else none)
  else (if -128 ≤ v.toInt && v.toInt ≤ 127 then some (v.truncate 8) else none)

/-- A slot of an operation that reads D: register and immediate forms with the types that each admits. -/
def slotOf2 (h : Hdr) (ty : ITy) (sat : Bool) (d a : Opnd) (b : RI) (reg imm : Option (Rop × Bool)) : Option Slot :=
  match slotGuard h, tyBit ty, b with
  | some g, some t, .reg o => match reg with
    | some (r, both) => if a = d && (both || !t) then some ⟨r, g, t, sat, d.toByte, o.toByte⟩ else none
    | none => none
  | some g, some t, .imm v => match imm, imm8 t v with
    | some (r, both), some x => if a = d && (both || !t) then some ⟨r, g, t, sat, d.toByte, x⟩ else none
    | _, _ => none
  | _, _, _ => none

/-- A slot of a shift. -/
def slotShift (h : Hdr) (ty : ITy) (d a : Opnd) (b : RI) (reg imm : Rop) : Option Slot :=
  match slotGuard h, b with
  | some g, .reg o => if ty = .i32 && a = d then some ⟨reg, g, false, false, d.toByte, o.toByte⟩ else none
  | some g, .imm v => if ty = .i32 && a = d && v.toNat < 32 then some ⟨imm, g, false, false, d.toByte, v.truncate 8⟩ else none
  | _, _ => none

/-- A slot of an operation of one source. -/
def slotOf1 (h : Hdr) (ok : Bool) (ty : Bool) (d b : Opnd) (r : Rop) : Option Slot :=
  match slotGuard h with
  | some g => if ok then some ⟨r, g, ty, false, d.toByte, b.toByte⟩ else none
  | none => none

/-- A floating-point slot: binary32, no modifier. -/
def slotFp (h : Hdr) (ft : FTy) (e : Ext) (d a b : Opnd) (r : Rop) : Option Slot :=
  slotOf1 h (ft = .f32 && e = Ext.zero && a = d) false d b r

/-- The slot whose full-form equivalent a word is (R74). -/
def restricted : Instr → Option Slot
  | .nop h => if h.neg || h.pn ≠ 7 then none else some ⟨.nop, 0, false, false, 0, 0⟩
  | .mov h ty d a => slotOf1 h (ty = .i32) false d a .mov
  | .not h ty d a => slotOf1 h (ty = .i32) false d a .not
  | .neg h ty sat d a => slotOf1 h (ty = .i32 && !sat) false d a .neg
  | .movi h ty d v => match slotGuard h, tyBit ty with
    | some g, some t => (imm8 t v).map fun x => ⟨.movi8, g, t, false, d.toByte, x⟩
    | _, _ => none
  | .add h ty sat d a b => slotOf2 h ty sat d a b (some (.add, true)) (some (.addi8, true))
  | .sub h ty sat d a b => slotOf2 h ty sat d a b (some (.sub, true)) (some (.subi8, true))
  | .and h ty d a b => slotOf2 h ty false d a b (some (.and, false)) (some (.andi8, true))
  | .or h ty d a b => slotOf2 h ty false d a b (some (.or, false)) (some (.ori8, true))
  | .xor h ty d a b => slotOf2 h ty false d a b (some (.xor, false)) (some (.xori8, true))
  | .min h ty d a b => slotOf2 h ty false d a b (some (.min, true)) none
  | .max h ty d a b => slotOf2 h ty false d a b (some (.max, true)) none
  | .shl h ty d a b => slotShift h ty d a b .shl .shli8
  | .shr h ty d a b => slotShift h ty d a b .shr .shri8
  | .sar h ty d a b => slotShift h ty d a b .sar .sari8
  | .fadd h ft e d a b => slotFp h ft e d a b .fadd
  | .fsub h ft e d a b => slotFp h ft e d a b .fsub
  | .fmul h ft e d a b => slotFp h ft e d a b .fmul
  | .fmin h ft e d a b => slotFp h ft e d a b .fmin
  | .fmax h ft e d a b => slotFp h ft e d a b .fmax
  | .cvt h e .f32 .i32 d a _ => slotOf1 h (e = Ext.zero) false d a .cvtF
  | .cvt h e .f32 .n32 d a _ => slotOf1 h (e = Ext.zero) true d a .cvtF
  | .cvt h e .i32 .f32 d a _ => slotOf1 h (e = Ext.zero) false d a .cvtI
  | .cvt h e .n32 .f32 d a _ => slotOf1 h (e = Ext.zero) true d a .cvtI
  | _ => none

/-- The pair of two words, where they join: the first in slot A (R91). -/
def joinWords (i j : Instr) : Option DWord :=
  match restricted i, restricted j with
  | some a, some b =>
    let wr := usesMask ((slotUses a).filter fun u => u.w)
    let rd := usesMask ((slotUses b).filter fun u => !u.w)
    if slotBad a || slotBad b || wr &&& rd ≠ 0 || pairClash a b then none else encode (.pairWord false a b)
  | _, _ => none

/-- The scan from a word on: the native words, each with the Puden words it came from. -/
def joinFrom (may : Nat → Bool) (x : Nat × DWord × Instr) : List (Nat × DWord × Instr) → List (List Nat × DWord)
  | [] => [([x.1], x.2.1)]
  | y :: t => match (if may y.1 then joinWords x.2.2 y.2.2 else none) with
    | none => ([x.1], x.2.1) :: joinFrom may y t
    | some p => match t with
      | [] => [([x.1, y.1], p)]
      | z :: t' => ([x.1, y.1], p) :: joinFrom may z t'

/-- The scan from the lowest address. -/
def joinScan (may : Nat → Bool) : List (Nat × DWord × Instr) → List (List Nat × DWord)
  | [] => []
  | x :: t => joinFrom may x t

/-- The innermost loop whose body holds an index. -/
def bodyOf (loops : List CLoop) (k : Nat) : Option Nat :=
  ((loops.filter fun l => l.at' < k && k < l.stop).map (·.at')).getLast?

/-- Whether word k may be the second of a pair: no branch target, and in the same body as the word before it. -/
def mayJoin (is : List Instr) (loops : List CLoop) (k : Nat) : Bool :=
  !((List.range is.length).any fun j => directIndex j (is.getD j nopI) = some (k : Int))
    && bodyOf loops (k - 1) = bodyOf loops k

/-! ## Pass 4: offsets -/

/-- The native index that a Puden word became; past the last, the number of native words. -/
def nativeIndex (js : List (List Nat × DWord)) (k : Nat) : Nat := js.findIdx fun j => j.1.contains k

/-- A native word with its offset or body length recomputed. -/
def relocate (js : List (List Nat × DWord)) (is : List Instr) (j : Nat) : DWord :=
  match js[j]? with
  | some ([k], w) =>
    (match is.getD k nopI with
      | .loop _ _ _ len => setField w 10 10 (nativeIndex js (k + 1 + len.toNat) - j - 1)
      | i => match directIndex k i with
        | some t => setField w 20 24 (((nativeIndex js t.toNat : Int) - j - 1) % 2 ^ 24).toNat
        | none => w)
  | some (_, w) => w
  | none => 0

/-! ## Pass 3: markers -/

/-- Whether a word needs S with a set in flight on entry (R77, R78). -/
def needsMark (u : FinUse) (split : Bool) (m : Nat) : Bool := !split && m ≠ 0 && (u.all || m &&& (u.reads ||| u.writes) ≠ 0)

/-- One round over the words in address order: what is in flight on entry to and after each word. With `grow`, sets on entry only
grow. -/
def flightRound (us : List (FinUse × Bool)) (pred : List (List Nat)) (grow : Bool) (st : List (Nat × Nat)) : List (Nat × Nat) :=
  (List.range us.length).foldl (fun st k =>
    let x := us.getD k ({ uses := [] }, false)
    let old := if grow then (st.getD k (0, 0)).1 else 0
    let m := (pred.getD k []).foldl (fun m p => m ||| (st.getD p (0, 0)).2) old
    st.set k (m, if needsMark x.1 x.2 m || x.2 then x.1.flight else m ||| x.1.flight)) st

/-- What is in flight on entry to each word, over every path. Rounds that do not settle within the number of words go on with
sets that only grow. -/
def inFlight (us : List (FinUse × Bool)) (pred : List (List Nat)) : List Nat :=
  let n := us.length
  let st := untilStable (flightRound us pred false) (n + 9) (us.map fun _ => (0, 0))
  let st := if flightRound us pred false st = st then st else untilStable (flightRound us pred true) (240 * n + 1) st
  st.map (·.1)

/-- Whether a word is bmsplit, which waits without S (R78). -/
def isSplit : Instr → Bool
  | .bmsplit _ _ _ _ => true
  | _ => false

/-- The words with S set on those that need it. -/
def setMarks (h : KHead) (ws : List DWord) : List DWord :=
  let is := ws.map wordInstr
  let us := is.map fun i => (finUse h i, isSplit i)
  let loops := codeLoops is
  let succ := (List.range ws.length).map (pathsFrom ws is loops)
  let pred := (List.range ws.length).map fun k => (List.range ws.length).filter fun p => (succ.getD p []).contains k
  let fl := inFlight us pred
  (List.range ws.length).map fun k =>
    let x := us.getD k ({ uses := [] }, false)
    let w := ws.getD k 0
    if needsMark x.1 x.2 (fl.getD k 0) then w ||| BitVec.ofNat 64 (2 ^ 63) else w

/-! ## The native image (R91) -/

/-- The word of nop. -/
def nopWord : DWord := (encode nopI).getD 0

/-- The native words of checked code, and the native index of its entry. -/
def nativeCode (h : KHead) (ws : List DWord) : List DWord × Nat :=
  let is := ws.map wordInstr
  let us := is.map (finUse h)
  let loops := codeLoops is
  let succ := (List.range ws.length).map (successors ws is loops)
  let ws := setLives ws is (liveIn us (ws.map guarded) succ) succ
  let js := joinScan (mayJoin is loops) ((List.range ws.length).map fun k => (k, ws.getD k 0, is.getD k nopI))
  let native := setMarks h ((List.range js.length).map (relocate js is))
  (native ++ List.replicate (ws.length - native.length) nopWord, nativeIndex js (khEntry h))

/-- The finaliser: the first failing status of R90 but 0x05, or the native image. -/
def finalise (h : KHead) (img : List Byte) : Except Nat (List Byte) :=
  let ws := imgCode h img
  if !khOk h then .error 0x01
  else if ws.any puden2 then .error 0x02
  else if ws.any (puden3 h) then .error 0x03
  else if puden4 (ws.map wordInstr) then .error 0x04
  else
    let (native, entry) := nativeCode h ws
    .ok (patchBytes (patchBytes h 6 [1]) 40 (leBytes 4 entry) ++ native.flatMap (fun w => leBytes 8 w.toNat)
      ++ img.drop (256 + 8 * khWords h))

/-! ## The code area (R92, R93) -/

/-- Bytes rounded up to 64 KiB. -/
def roundCode (n : Nat) : Nat := (n + 65535) / 65536 * 65536

/-- Whether a launch holds an entry. -/
def Stall.codeHeld (t : Stall) (e : CodeEnt) : Bool := t.launches.any fun l => l.kern.area = some e.addr && !l.closed

/-- Whether the code area has an entry and the bytes for an image. -/
def Stall.codeFits (t : Stall) (size : Nat) : Bool :=
  t.code.length < field t.codea 63 53
    && (t.code.map fun e => roundCode e.size).foldl (· + ·) 0 + roundCode size ≤ field t.codea 52 41 * 2 ^ 20

/-- The entry to evict: of an older version first, then the one launched least recently; none where every entry is held. -/
def Stall.codeVictim (t : Stall) (v : Word) : Option CodeEnt :=
  minBy (fun e => (if e.version = v then 2 ^ 64 else 0) + e.used) (t.code.filter fun e => !t.codeHeld e)

/-- Evict entries until an image fits, as far as entries can be evicted. -/
def Stall.codeRoom (t : Stall) (v : Word) (size : Nat) : Nat → Stall
  | 0 => t
  | n + 1 =>
    if t.codeFits size then t
    else match t.codeVictim v with
      | none => t
      | some e => Stall.codeRoom { t with code := t.code.erase e } v size n

/-- The area's base. -/
def Stall.codeBase (t : Stall) : Nat := field t.codea 40 16 * 65536

/-- The lowest gap that holds an image. -/
def Stall.codeGap (t : Stall) (size : Nat) : Option Nat :=
  let fits (a : Nat) : Bool := a + roundCode size ≤ t.codeBase + field t.codea 52 41 * 2 ^ 20
    && t.code.all fun e => e.addr + roundCode e.size ≤ a || a + roundCode size ≤ e.addr
  minBy id ((t.codeBase :: t.code.map fun e => e.addr + roundCode e.size).filter fits)

/-- A kernel whose image has moved in the code area. -/
def Kern.moved (k : Kern) (old new : Nat) : Kern := if k.area = some old then { k with area := some new } else k

/-- Move one entry of the code area. -/
def State.moveCode (s : State) (st : Nat) (e : CodeEnt) (new : Nat) : State :=
  let bs := s.seenBytes st (s.localPa st e.addr) e.size
  let s := s.bufferBytes st none (s.localPa st new) bs
  s.modStall st fun t =>
    { t with
      code := t.code.map fun x => if x = e then { x with addr := new } else x
      launches := t.launches.map fun l => { l with kern := l.kern.moved e.addr new }
      cores := t.cores.map fun c => (c.1, { c.2 with icache := [], blocks := c.2.blocks.map fun b =>
        (b.1, { b.2 with kern := b.2.kern.moved e.addr new }) }) }

/-- Compact the area: every entry moves down in address order (R93). -/
def State.compactCode (s : State) (st : Nat) : State :=
  let es := sortBy (·.addr) (s.stall st).code
  (es.foldl (fun (a : State × Nat) e =>
    (if e.addr = a.2 then a.1 else a.1.moveCode st e a.2, a.2 + roundCode e.size)) (s, (s.stall st).codeBase)).1

/-- The entries that storing an image of a size has to move first (R93). -/
def Stall.codeMoves (t : Stall) (v : Word) (n : Nat) : List CodeEnt :=
  let t := t.codeRoom v n (t.code.length + 1)
  if t.codeFits n && (t.codeGap n).isNone then t.code else []

/-- Store a native image under its key, if it fits after the evictions: the address, and the machine after (R92, R93). -/
def State.storeCode (s : State) (st : Nat) (digest : List Byte) (v : Word) (img : List Byte) : Option Nat × State :=
  let n := img.length
  let s := s.modStall st fun t => t.codeRoom v n (t.code.length + 1)
  if !(s.stall st).codeFits n then (none, s)
  else
    let s := if ((s.stall st).codeGap n).isSome then s else s.compactCode st
    match (s.stall st).codeGap n with
    | none => (none, s)
    | some a =>
      let s := s.bufferBytes st none (s.localPa st a) img
      (some a, s.modStall st fun t =>
        { t with code := t.code ++ [⟨digest, v, a, n, 0, khEntry img, khWords img⟩]
                 cores := t.cores.map fun c => (c.1, { c.2 with icache := [] }) })

/-- The launch at an index runs from the code area. -/
def State.launchArea (s : State) (st id a : Nat) : State :=
  s.modStall st fun t =>
    let t := t.useCode a
    match t.code.find? fun e => e.addr = a with
    | none => t
    | some e => { t with launches := t.launches.map fun l => if l.id = id then { l with kern := l.kern.inArea a e.entry e.words, fin := false } else l }

/-- The launch is refused (R90, R351). -/
def State.launchRefused (s : State) (st id status : Nat) : State :=
  s.modStall st fun t =>
    { t with launches := t.launches.map fun l =>
        if l.id = id then { l with fin := false, grid := 0, next := 0, status := some (status, 0) } else l }

/-- FINALISER_RUN (R90 to R92): the DMC checks the Puden image of a launch that waits for it, and stores its native form. It waits for
the lines of the image (R271). -/
def execFinaliserRun (st i : Nat) (s : State) : Host.Outcome State Fault Refusal :=
  .next (match (s.stall st).launches[i]? with
    | none => s
    | some l =>
      let refuse (c : Nat) : State := if isWait c then s.askFor st c else s.launchRefused st l.id 0x0209
      if !l.fin then s
      else match s.kheadAt st l.kern.kaddr with
        | .error c => refuse c
        | .ok h => match s.imageAt st l.kern.kaddr h with
          | .error c => refuse c
          | .ok img =>
            let s := s.imageTouch st l.kern.kaddr.toNat (khSize h) (pagesOf (khSize h))
            let digest := shake256 img
            let v := s.finVersion st
            match (s.stall st).codeFind digest v with
            | some e => s.launchArea st l.id e.addr
            | none => match finalise h img with
              | .error status => s.launchRefused st l.id (0x0100 + status)
              | .ok native =>
                match ((s.stall st).codeMoves v native.length).find? fun e => !s.readableAt st (s.localPa st e.addr) e.size with
                | some e => s.askAt st (s.localPa st e.addr) e.size
                | none => match s.storeCode st digest v native with
                | (none, s) => s.launchRefused st l.id 0x0105
                | (some a, s) => s.launchArea st l.id a)

end Sys2Proof.Machine
end

