-- ==== Sys2Proof/Machine/Pixels.lean ====
section
/-! DEFINITION. The pixel formats: decoding and write conversion (chapter 14, R395, R397), and binary32 values. -/

set_option Elab.async false

namespace Sys2Proof.Machine

open Sys2Proof

/-- A binary32 word as a number. -/
def f32Num (w : Word) : Num := FF.f32.read w.toNat

/-- rne(v, f32) (R102). -/
def rne32 (v : Num) : Word := BitVec.ofNat 32 (FF.f32.ofNum .rne false 0 v).1

/-- a − b exactly. -/
def nSub (a b : Num) : Num := (a.add false true b.neg).1
/-- a + b exactly. -/
def nAdd (a b : Num) : Num := (a.add false true b).1
/-- a × b exactly. -/
def nMul (a b : Num) : Num := (a.mul b).1
/-- a / b exactly. -/
def nDiv (a b : Num) : Num := (a.div b).1
/-- A natural number as a number. -/
def nNat (n : Nat) : Num := .fin false n 1

/-- Whether a value is below zero. -/
def below0 (a : Num) : Bool := a.lt .zero

/-- The bytes of an element of a target format. -/
def pixBytes (fmt : Nat) : Nat := [0, 4, 8, 16, 4, 1, 4, 4, 4].getD fmt 0

/-! ## Unsigned small floats (pk11f) -/

/-- An unsigned float of a 5-bit exponent, bias 15, and fb fraction bits. -/
def smallRead (fb c : Nat) : Num :=
  let e := c / 2 ^ fb
  let m := c % 2 ^ fb
  if e = 31 then (if m = 0 then .inf false else .nan false)
  else .fin false (if e = 0 then m else (2 ^ fb + m) * 2 ^ (e - 1)) (2 ^ (14 + fb))

/-- A value into an unsigned float: rne; negative and −0 give +0, overflow infinity, NaN a fraction of 1. -/
def smallWrite (fb : Nat) : Num → Nat
  | .nan _ => 31 * 2 ^ fb + 1
  | .inf neg => if neg then 0 else 31 * 2 ^ fb
  | .fin neg n d =>
    if neg || n = 0 then 0
    else
      let u := n * 2 ^ (14 + fb) / d
      let sh := u.log2 - fb
      let q := u / 2 ^ sh
      let pn := n * 2 ^ (14 + fb) - q * 2 ^ sh * d
      let pd := 2 ^ sh * d
      let c := sh * 2 ^ fb + q
      min (31 * 2 ^ fb) (if roundsUp .rne 0 false c pn pd then c + 1 else c)

/-! ## Channels -/

/-- An n-bit unorm code decoded (R397). -/
def unormRead (n c : Nat) : Word := rne32 (.fin false c (2 ^ n - 1))

/-- A value into an n-bit unorm code (R395). -/
def unormWrite (n : Nat) (v : Num) : Nat :=
  match v with
  | .nan _ => 0
  | .inf neg => if neg then 0 else 2 ^ n - 1
  | .fin neg a d =>
    if neg then 0 else if d ≤ a then 2 ^ n - 1
    else (roundInt .rne 0 false (a * (2 ^ n - 1)) d).1

/-- A binary16 code decoded. -/
def halfRead (c : Nat) : Word := rne32 (FF.f16.read c)

/-- A value into binary16, rne without SAT. -/
def halfWrite (v : Num) : Nat := (FF.f16.ofNum .rne false 0 v).1

/-- A binary32 code with its NaN made canonical. -/
def canon32 (w : Nat) : Nat := if (FF.f32.read w).isNan then FF.f32.nan else w

/-- 1.0. -/
def one32 : Word := 0x3F800000

/-- A texel of a target format decoded: red, green, blue, alpha as binary32 (R397). -/
def pixDecode (fmt v : Nat) : List Word :=
  let w (x : Nat) : Word := BitVec.ofNat 32 x
  match fmt with
  | 1 => (List.range 4).map fun i => unormRead 8 (v / 2 ^ (8 * i) % 256)
  | 2 => (List.range 4).map fun i => halfRead (v / 2 ^ (16 * i) % 65536)
  | 3 => (List.range 4).map fun i => w (v / 2 ^ (32 * i) % 2 ^ 32)
  | 4 => [halfRead (v % 65536), halfRead (v / 65536 % 65536), 0, one32]
  | 5 => [unormRead 8 (v % 256), 0, 0, one32]
  | 6 => [w (v % 2 ^ 32), 0, 0, one32]
  | 7 => [unormRead 10 (v % 1024), unormRead 10 (v / 1024 % 1024), unormRead 10 (v / 2 ^ 20 % 1024), unormRead 2 (v / 2 ^ 30 % 4)]
  | 8 => [rne32 (smallRead 6 (v % 2048)), rne32 (smallRead 6 (v / 2048 % 2048)), rne32 (smallRead 5 (v / 2 ^ 22 % 1024)), one32]
  | _ => [0, 0, 0, 0]

/-- The channels of a target format: position and width of each that it has. -/
def pixFields (fmt : Nat) : List (Nat × Nat) :=
  match fmt with
  | 1 => [(0, 8), (8, 8), (16, 8), (24, 8)]
  | 2 => [(0, 16), (16, 16), (32, 16), (48, 16)]
  | 3 => [(0, 32), (32, 32), (64, 32), (96, 32)]
  | 4 => [(0, 16), (16, 16)]
  | 5 => [(0, 8)]
  | 6 => [(0, 32)]
  | 7 => [(0, 10), (10, 10), (20, 10), (30, 2)]
  | 8 => [(0, 11), (11, 11), (22, 10)]
  | _ => []

/-- A channel's code in a target format (R395). -/
def pixEncode (fmt width : Nat) (v : Word) : Nat :=
  match fmt with
  | 1 => unormWrite width (f32Num v)
  | 2 => halfWrite (f32Num v)
  | 3 => canon32 v.toNat
  | 4 => halfWrite (f32Num v)
  | 5 => unormWrite width (f32Num v)
  | 6 => canon32 v.toNat
  | 7 => unormWrite width (f32Num v)
  | _ => smallWrite (width - 5) (f32Num v)

/-- A stored element with the channels that a mask enables replaced (R394, R395). -/
def pixWrite (fmt mask old : Nat) (vs : List Word) : Nat :=
  ((List.range 4).zip (pixFields fmt)).foldl (fun acc x =>
    let (i, lo, n) := x
    if mask.testBit i then
      acc - acc / 2 ^ lo % 2 ^ n * 2 ^ lo + pixEncode fmt n (vs.getD i 0) * 2 ^ lo
    else acc) old

/-! ## Blending and tests (R391, R394) -/

/-- A blend factor (R394). -/
def blendFactor (code : Nat) (sa da : Num) : Num :=
  match code with
  | 0 => .zero
  | 1 => nNat 1
  | 2 => sa
  | 3 => nSub (nNat 1) sa
  | 4 => da
  | _ => nSub (nNat 1) da

/-- One channel blended: the operation, the factors, the output and the stored value. -/
def blendChannel (op sf df : Nat) (sa da o d : Num) : Word :=
  let fs := nMul (blendFactor sf sa da) o
  let fd := nMul (blendFactor df sa da) d
  match op with
  | 0 => rne32 ((fs.add false false fd).1)
  | 1 => rne32 ((fs.add false false fd.neg).1)
  | 2 => rne32 ((fd.add false false fs.neg).1)
  | 3 => rne32 (o.pick false d).1
  | _ => rne32 (o.pick true d).1

/-- A depth or stencil function (R391): the incoming value against the stored one. -/
def testFn (code : Nat) (lt eq : Bool) : Bool :=
  match code with
  | 0 => false
  | 1 => lt
  | 2 => eq
  | 3 => lt || eq
  | 4 => !lt && !eq
  | 5 => !eq
  | 6 => !lt
  | _ => true

/-- The depth function on values: every comparison but notequal is false of a NaN. -/
def depthPass (code : Nat) (a b : Num) : Bool :=
  match code with
  | 0 => false
  | 1 => a.lt b
  | 2 => a.eq b
  | 3 => a.lt b || a.eq b
  | 4 => b.lt a
  | 5 => !a.eq b
  | 6 => b.lt a || a.eq b
  | _ => true

/-- A stencil operation (R391). -/
def stencilOp (code ref old : Nat) : Nat :=
  match code with
  | 0 => old
  | 1 => 0
  | 2 => ref
  | 3 => min 255 (old + 1)
  | 4 => old - 1
  | 5 => 255 - old
  | 6 => (old + 1) % 256
  | _ => (old + 255) % 256

/-- A stencil value written under SWMASK. -/
def stencilWrite (mask old new : Nat) : Nat :=
  ((List.range 8).map fun i => if (if mask.testBit i then new.testBit i else old.testBit i) then 2 ^ i else 0).foldl (· + ·) 0

end Sys2Proof.Machine
end

