-- ==== Sys2Proof/Machine/Raster.lean ====
section
/-! DEFINITION. The raster pipeline up to the owners: mesh output, the front end, draws, groups and the messages of a pass
(chapter 14, R371 to R387, R392, R393). -/

set_option Elab.async false

namespace Sys2Proof.Machine

open Sys2Proof

/-! ## Passes -/

/-- The pass that a market has open. -/
def State.pass? (s : State) (m : Nat) : Option Pass := s.passes.find? fun p => p.market = m

/-- The pass of a market that goes on: present and not aborted. -/
def State.livePass (s : State) (m : Nat) : Option Pass :=
  match s.pass? m with
  | some p => if p.aborted.isNone then some p else none
  | none => none

/-- ATTR of the pass of a market. -/
def State.passAttr (s : State) (m : Nat) : Nat :=
  match s.pass? m with
  | some p => pdAttr p.desc
  | none => 0

/-- A member at the start of a pass. -/
def Member.reset : Member := ⟨[], [], [], none, 0, 0, [], 0, [], 0⟩

/-- Abort a pass with a cause (R387): the first cause stays. -/
def State.failPass (s : State) (m cause : Nat) : State :=
  s.modPass m fun p => { p with aborted := match p.aborted with
    | none => some cause
    | some c => some c }

/-! ## The front end (R383) -/

/-- A vertex: x, y, z, w, and its attributes. -/
abbrev Vtx := List Word

/-- A component of a vertex as a number. -/
def Vtx.num (v : Vtx) (i : Nat) : Num := f32Num (v.getD i 0)

/-- The distance from a plane of the view volume: x ≥ −w, x ≤ w, y ≥ −w, y ≤ w, z ≥ 0, z ≤ w. -/
def viewDist (v : Vtx) (k : Nat) : Num :=
  match k with
  | 0 => nAdd (v.num 0) (v.num 3)
  | 1 => nSub (v.num 3) (v.num 0)
  | 2 => nAdd (v.num 1) (v.num 3)
  | 3 => nSub (v.num 3) (v.num 1)
  | 4 => v.num 2
  | _ => nSub (v.num 3) (v.num 2)

/-- The distance from a clip plane: x ≥ −4w, x ≤ 4w, y ≥ −4w, y ≤ 4w, z ≥ 0. -/
def clipDist (v : Vtx) (k : Nat) : Num :=
  let w4 := nMul (nNat 4) (v.num 3)
  match k with
  | 0 => nAdd (v.num 0) w4
  | 1 => nSub w4 (v.num 0)
  | 2 => nAdd (v.num 1) w4
  | 3 => nSub w4 (v.num 1)
  | _ => v.num 2

/-- Whether a triangle is culled by the view planes. -/
def viewCulled (t : List Vtx) : Bool := (List.range 6).any fun k => t.all fun v => below0 (viewDist v k)

/-- The new vertex on the edge from p to q. -/
def clipPoint (p q : Vtx) (k : Nat) : Vtx :=
  let dp := clipDist p k
  let t := nDiv dp (nSub dp (clipDist q k))
  (List.range p.length).map fun i => rne32 (nAdd (p.num i) (nMul t (nSub (q.num i) (p.num i))))

/-- One plane of Sutherland–Hodgman: the edges from each vertex to the next, from the first vertex on (log 20). -/
def clipPlane (k : Nat) (poly : List Vtx) : List Vtx :=
  let n := poly.length
  (List.range n).flatMap fun i =>
    let p := poly.getD i []
    let q := poly.getD ((i + 1) % n) []
    let pin := !below0 (clipDist p k)
    let qin := !below0 (clipDist q k)
    (if pin then [p] else []) ++ (if pin != qin then [clipPoint p q k] else [])

/-- The pieces of a triangle after clipping: the triangle, or the fan of its polygon. -/
def clipTri (t : List Vtx) : List (List Vtx) :=
  if t.any fun v => (List.range 5).any fun k => below0 (clipDist v k) then
    let poly := (List.range 5).foldl (fun p k => clipPlane k p) t
    (List.range (poly.length - 2)).map fun i => [poly.getD 0 [], poly.getD (i + 1) [], poly.getD (i + 2) []]
  else [t]

/-- A screen coordinate in 2^-8 pixels; a value that is not finite is not stated, and is a free one (log 20). -/
def screenCoord (c w scale off : Num) (k : Nat) : Int :=
  match nAdd (nMul (nDiv c w) scale) off with
  | .fin neg n d => sgn neg (roundInt .rne 0 neg (n * 256) d).1
  | _ => (Config.freeWord k).toInt

/-- The doubled area of a screen triangle, signed. -/
def area2 (xs ys : List Int) : Int :=
  let x (i : Nat) : Int := xs.getD i 0
  let y (i : Nat) : Int := ys.getD i 0
  (x 1 - x 0) * (y 2 - y 0) - (x 2 - x 0) * (y 1 - y 0)

/-- A piece on the screen, or none where the face cull drops it. -/
def setupPiece (d : List Byte) (key piece k : Nat) (t : List Vtx) : Option Packet :=
  let num (o : Nat) : Num := FF.f32.read (pf d o 4)
  let at' (i : Nat) : Vtx := t.getD i []
  let xs := (List.range 3).map fun i => screenCoord ((at' i).num 0) ((at' i).num 3) (num 24) (num 32) (k + 2 * i)
  let ys := (List.range 3).map fun i => screenCoord ((at' i).num 1) ((at' i).num 3) (num 28) (num 36) (k + 2 * i + 1)
  let a := area2 xs ys
  let front : Bool := if pdFlag d 1 then decide (a < 0) else decide (0 < a)
  if a = 0 || (pdCull d = 1 && !front) || (pdCull d = 2 && front) then none
  else some
    { key := key, piece := piece, owner := 0, xs := xs, ys := ys
      zn := (List.range 3).map fun i => rne32 (nDiv ((at' i).num 2) ((at' i).num 3))
      w := (List.range 3).map fun i => (at' i).getD 3 0
      attrs := t.flatMap fun v => v.drop 4
      front := front }

/-- The pieces of a triangle; `k` numbers the free values that it may use. -/
def frontEnd (d : List Byte) (key k : Nat) (t : List Vtx) : List Packet :=
  if viewCulled t then []
  else
    let ps := clipTri t
    (List.range ps.length).filterMap fun i => setupPiece d key i (k + 6 * i) (ps.getD i [])

/-- The least and the greatest of a list of integers. -/
def minInt (l : List Int) : Int := l.foldl min (l.getD 0 0)
/-- The greatest of a list of integers. -/
def maxInt (l : List Int) : Int := l.foldl max (l.getD 0 0)

/-- The pitches along one axis that a range of screen coordinates meets. -/
def pitchRange (lo hi : Int) (size : Nat) : List Nat :=
  let a := (max 0 (lo / 16384)).toNat
  let last := min (((size - 1) / 64 : Nat) : Int) (hi / 16384)
  if last < (a : Int) then [] else (List.range (last.toNat + 1 - a)).map (a + ·)

/-- The pitches whose rectangles a piece's bounding box meets, by rows. -/
def Packet.pitches (p : Packet) (d : List Byte) : List (Nat × Nat) :=
  (pitchRange (minInt p.ys) (maxInt p.ys) (pdHeight d)).flatMap fun py =>
    (pitchRange (minInt p.xs) (maxInt p.xs) (pdWidth d)).map fun px => (px, py)

/-- The owner of a pitch (R375). -/
def pitchOwner (owners : List Byte) (x : Nat × Nat) : Nat := (owners.getD (16 * (x.2 % 16) + x.1 % 16) 0).toNat % 64

/-- The packets of a piece: one to each owner that it meets (R384). -/
def Packet.copies (p : Packet) (d owners : List Byte) : List Packet :=
  (nub ((p.pitches d).map (pitchOwner owners))).map fun o => { p with owner := o }

/-! ## Mesh output (R381, R382) -/

/-- The market and token of a mesh block. -/
def Block.meshOf (b : Block) : Option (Nat × Nat) :=
  match b.kind with
  | .rmesh m tok => some (m, tok)
  | _ => none

/-- One lane's triangle. -/
def MeshOut.append (o : MeshOut) (v : Word) : MeshOut :=
  if v.toNat / 2 ^ 24 ≠ 0 || 256 ≤ o.tris.length then { o with dropped := o.dropped + 1 }
  else { o with tris := o.tris ++ [(v.toNat % 256, v.toNat / 256 % 256, v.toNat / 65536 % 256)] }

/-- mout (R381). -/
def execMout (h : Hdr) (a : Opnd) (s : State) : Host.Outcome State Fault Refusal :=
  issue h (fun c => { uses := [.r a], bad := c.blk.meshOf.isNone || !a.isVec })
    (fun c => .ok (if c.blk.mesh.fin then c.s
      else c.s.modBlock c.q.blk fun b =>
        { b with mesh := List.foldl (fun o l => o.append (c.rd l.1 l.2 a)) b.mesh (c.act.filter fun l => !l.2.helper) })) s

/-- The result word of mfin (R382). -/
def mfinWord (dropped accepted : Nat) : Word := BitVec.ofNat 32 (min 511 dropped * 512 + min 511 accepted)

/-- Vertex v of a mesh block's pad. -/
def Block.vertex (b : Block) (attr v : Nat) : Vtx :=
  (List.range (4 + attr)).map fun i => BitVec.ofNat 32 (b.pad.num (64 + v * (16 + 4 * attr) + 4 * i) 4)

/-- The accepted triangles with their primitive indices. -/
def MeshOut.accepted (o : MeshOut) (nv : Nat) : List (Nat × (Nat × Nat × Nat)) :=
  ((List.range o.tris.length).zip o.tris).filter fun x => x.2.1 < nv && x.2.2.1 < nv && x.2.2.2 < nv

/-- The packets of a mesh block in the order they are sent. -/
def Block.packets (b : Block) (p : Pass) (tok nv k : Nat) : List Packet :=
  let attr := pdAttr p.desc
  (b.mesh.accepted nv).flatMap fun x =>
    let v (i : Nat) : Vtx := b.vertex attr i
    (frontEnd p.desc (tok * 256 + x.1) (k + 64 * x.1) [v x.2.1, v x.2.2.1, v x.2.2.2]).flatMap fun q => q.copies p.desc p.owners

/-- The mesh output goes to the owners, and the done markers follow (R382 to R384). -/
def State.sendMesh (s : State) (st : Nat) (b : Block) (m tok nv : Nat) : State :=
  match s.livePass m with
  | none => s
  | some p =>
    let ps : List Packet := b.packets p tok nv s.free
    let s := { s with prims := s.prims ++ ps.map (fun x => PrimMsg.packet m x), free := s.free + 64 * 256 }
    s.sendDones m tok st fun x => (ps.filter fun y => y.owner = x).length

/-- mfin.mesh (R382). -/
def execMfinMesh (h : Hdr) (d a : Opnd) (s : State) : Host.Outcome State Fault Refusal :=
  issue h (fun c => { uses := [.w1 d, .r a], bad := c.blk.meshOf.isNone || !(d.isVec || d.isSca || d = .zero) })
    (fun c => match c.real, c.blk.meshOf with
      | some (l, ln), some (m, tok) =>
        if c.blk.mesh.fin then .ok (c.writeAll c.s d [0x80000000])
        else
          let nv := min (c.rd l ln a).toNat 256
          let n := nv * (16 + 4 * c.s.passAttr m)
          if c.blk.kern.pad < 64 + n then .raise [(l, 0x26)] 0
          else if hitsBad c.blk.padBad 64 n then .raise [(l, 0x2B)] 0
          else
            let k := (c.blk.mesh.accepted nv).length
            let s := (c.s.modBlock c.q.blk fun b => { b with mesh := { b.mesh with fin := true, count := k } }).sendMesh
              c.q.stall c.blk m tok nv
            .ok (c.writeAll s d [mfinWord (c.blk.mesh.dropped + (c.blk.mesh.tris.length - k)) k])
      | _, _ => .ok c.s) s

/-- The market and draw of a task block. -/
def Block.taskOf (b : Block) : Option (Nat × Nat) :=
  match b.kind with
  | .rtask m draw => some (m, draw)
  | _ => none

/-- mfin.task (R382). -/
def execMfinTask (h : Hdr) (d a : Opnd) (s : State) : Host.Outcome State Fault Refusal :=
  issue h (fun c => { uses := [.w1 d, .r a], bad := c.blk.taskOf.isNone || !(d.isVec || d.isSca || d = .zero) })
    (fun c => match c.real, c.blk.taskOf with
      | some (l, ln), some (m, draw) =>
        if c.blk.mesh.fin then .ok (c.writeAll c.s d [0x80000000])
        else
          let n := min (c.rd l ln a).toNat 1024
          let s := c.s.modBlock c.q.blk fun b => { b with mesh := { b.mesh with fin := true, count := n } }
          let s := s.modPass m fun p =>
            { p with draws := updAt p.draws draw fun x => { x with tasks := x.tasks.put c.blk.index n } }
          .ok (c.writeAll s d [mfinWord 0 n])
      | _, _ => .ok c.s) s

/-- The market of a pixel block. -/
def Block.pixelOf (b : Block) : Option Nat :=
  match b.kind with
  | .rpixel m => some m
  | _ => none

/-- Whether an output is discarded (R392). -/
def pxoDiscards (d : List Byte) (n : Nat) : Bool := if n = 4 then pdFlag d 0 else (pdTarget d n).fmt = 0

/-- A thread's output replaces an earlier one to the same target. -/
def Lane.output (ln : Lane) (x : Pxo) : Lane := { ln with pxo := (ln.pxo.filter fun y => y.n ≠ x.n) ++ [x] }

/-- pxo (R392). -/
def execPxo (h : Hdr) (n : Fin 5) (a : Opnd) (s : State) : Host.Outcome State Fault Refusal :=
  let k := if n.val = 4 then 1 else 4
  issue h (fun c => { uses := [⟨a, k, 1, false⟩], bad := c.blk.pixelOf.isNone || !a.isVec })
    (fun c =>
      let off : Bool := match c.blk.pixelOf with
        | some m => match c.s.pass? m with
          | some p => pxoDiscards p.desc n.val
          | none => true
        | none => true
      .ok (if off then c.s
        else c.s.modSquad c.q fun q => c.act.foldl (fun q l => if l.2.helper then q
          else q.modLane l.1 fun ln => ln.output ⟨n.val, (List.range k).map fun i => c.rdAt l.2 a i⟩) q)) s

/-- pkill (R393): as exit, with the thread's outputs discarded. -/
def execPkill (h : Hdr) (s : State) : Host.Outcome State Fault Refusal :=
  issue h (fun _ => { uses := [], all := true }) (fun c => .over (c.endActive true)) s

/-! ## The entries of a pass (R371, R374, R377, R378) -/

/-- A raster entry ends; the first that ends after an abort reports it (R387). -/
def State.rasterEntryEnds (s : State) (p : Pass) (id : Nat) : State :=
  match p.aborted with
  | some c =>
    if p.told then s.entryEnds p.dealer id 0 0
    else (s.modPass p.market fun p => { p with told := true }).entryEnds p.dealer id 0x0400 c
  | none => s.entryEnds p.dealer id 0 0

/-- PASS (R374): the members hold the descriptor, the owner table and the pixel card. -/
def execPass (st i : Nat) (s : State) : Host.Outcome State Fault Refusal :=
  .next (match (s.stall st).startable i 0x10 with
    | none => s
    | some e =>
      let d := sliceBytes e.bytes 64 256
      let m := pdMarket d
      let p : Pass :=
        { market := m, dealer := st, queue := e.q, entry := e.id, prio := e.prio, desc := d
          owners := sliceBytes e.bytes 320 256, pcard := sliceBytes e.bytes 576 64
          draws := [], groups := [], endSent := false, aborted := none, told := false
          members := (s.members m).map fun x => (x, Member.reset) }
      State.entryEnds { s with passes := s.passes ++ [p] } st e.id 0 0)

/-- The pass that a raster entry belongs to, once it has started. -/
def State.passOf (s : State) (e : Entry) : Option Pass :=
  match e.market with
  | none => none
  | some m => s.passes.find? fun p => p.market = m

/-- Make a launch of a pass (R378): of class graphics, at the priority of the dealer's queue; its blocks have the indices from
lo to hi − 1. A launch that is refused contributes nothing. -/
def State.passLaunch (s : State) (st : Nat) (p : Pass) (src : LaunchSrc) (card : List Byte) (lo hi : Nat) : State :=
  let id := s.nextId
  let o : Origin := ⟨id, src, true, 7, 0xFF, 0, 0, 0⟩
  let s := (State.makeLaunch { s with nextId := id + 1 } st o card none).modStall st fun t => t.modLaunch id fun l =>
    { l with grid := hi, next := lo, ended := lo, prio := p.prio }
  match (s.stall st).launch? id with
  | some l =>
    if l.status.isSome then
      (s.dropUnplaced st l).modStall st fun t => t.modLaunch id fun l => { l with next := hi, ended := hi }
    else s
  | none => s

/-- What a DRAW's task launch waits for, if it does. -/
def State.drawCode (s : State) (st : Nat) (e : Entry) : Option Nat :=
  if sliceNum e.bytes 24 8 = 0 || sliceNum e.bytes 32 4 = 0 then none else s.cardCode st (sliceBytes e.bytes 128 64) none

/-- A DRAW starts: it is numbered, its task blocks are launched, or its group count is broadcast. -/
def State.startDraw (s : State) (st : Nat) (p : Pass) (e : Entry) : State :=
  let n := p.draws.length
  let count := sliceNum e.bytes 32 4
  let tasked : Bool := sliceNum e.bytes 24 8 ≠ 0
  let none' : Bool := !tasked || count = 0
  let d : Draw :=
    { arg := BitVec.ofNat 64 (sliceNum e.bytes 40 8), mcard := sliceBytes e.bytes 64 64
      tcard := if tasked then some (sliceBytes e.bytes 128 64) else none
      count := count, entry := e.id, tasks := [], tasksOver := 0, dealt := 0
      total := if none' then some count else none }
  let s := (s.setEntry st e.id fun e => { e with st := .running }).modPass p.market fun p => { p with draws := p.draws ++ [d] }
  if none' then s.primAll p.market fun x => .drawStart p.market n count x
  else s.passLaunch st p (.rtask p.market n) (sliceBytes e.bytes 128 64) 0 count

/-- Whether the done markers of every group of a draw have been sent (R371). -/
def Pass.drawDone (p : Pass) (entry : Nat) : Bool :=
  p.aborted.isSome || (List.range p.draws.length).any fun n => match p.draws[n]? with
    | some d => d.entry = entry && d.total = some d.dealt && p.groups.all fun g => g.token / 2 ^ 24 ≠ n || g.culled
    | none => false

/-- DRAW (R371, R377): it starts, and once its last group's done markers are sent it is complete. -/
def execDraw (st i : Nat) (s : State) : Host.Outcome State Fault Refusal :=
  .next (match (s.stall st).entries[i]? with
    | none => s
    | some e => if e.ty ≠ 0x11 then s
      else match s.passOf e with
        | none => s
        | some p =>
          if e.st = .running then (if p.drawDone e.id then s.rasterEntryEnds p e.id else s)
          else match (s.stall st).startable i 0x11 with
            | none => s
            | some e =>
              if p.aborted.isSome then s.rasterEntryEnds p e.id else match s.drawCode st e with
              | some c => s.askFor st c
              | none => s.startDraw st p e)

/-- Whether a member has done its part: every block ended, every result applied, every write performed (R371). -/
def State.memberDone (s : State) (p : Pass) (x : Nat × Member) : Bool :=
  let t := s.stall x.1
  !(t.launches.any fun l => l.ofPass p.market) && t.writtenTo x.2.mark && (p.aborted.isSome ||
    (x.2.ended = some x.2.fdraw && x.2.packets = [] && x.2.blocks = [] && x.2.shaded = []))

/-- Whether every draw of a pass has been dealt. -/
def Pass.dealt (p : Pass) : Bool := p.draws.all fun d => d.total = some d.dealt

/-- PASSEND (R371, R374, R384): PASS-END is broadcast once every draw is dealt; the entry ends when every member is done, and the pass
closes when the entry is complete. -/
def execPassend (st i : Nat) (s : State) : Host.Outcome State Fault Refusal :=
  .next (match (s.stall st).entries[i]? with
    | none => s
    | some e => if e.ty ≠ 0x12 then s
      else match s.passOf e with
        | none => s
        | some p =>
          if e.st = .running then
            let draws : Bool := (s.stall st).entries.any fun x => x.q = e.q && x.ty = 0x11 && x.id < e.id && !x.over
            if !p.endSent && p.aborted.isNone then
              (if p.dealt then (s.primAll p.market fun x => .passEnd p.market p.draws.length x).modPass p.market fun p =>
                { p with endSent := true } else s)
            else if !draws && p.members.all (s.memberDone p) then
              s.rasterEntryEnds p e.id
            else s
          else match (s.stall st).startable i 0x12 with
            | none => s
            | some e => s.setEntry st e.id fun e => { e with st := .running })

/-! ## Dealing (R379) -/

/-- The groups of a draw whose numbers are fixed: all, or the children of the first tasks that have declared (R377). -/
def Draw.fixed (d : Draw) : Nat :=
  match d.total with
  | some n => n
  | none => min (2 ^ 24) (((d.tasks.zip (List.range d.tasks.length)).takeWhile fun x => x.1.1 = x.2).foldl (fun n x => n + x.1.2) 0)

/-- The next group of a pass to deal: the first draw that is not wholly dealt, and its next group if it is fixed. -/
def Pass.nextGroup (p : Pass) : Option (Nat × Draw × Nat) :=
  match (List.range p.draws.length).find? fun n => match p.draws[n]? with
    | some d => d.total ≠ some d.dealt
    | none => false with
  | none => none
  | some n => match p.draws[n]? with
    | some d => if d.dealt < d.fixed then some (n, d, d.dealt) else none
    | none => none

/-- The member with the fewest of the pass's groups not yet culled; ties go to the lower rank. -/
def State.pickMember (s : State) (p : Pass) : Option Nat :=
  minBy (fun x => (p.groups.filter fun g => g.stall = x && !g.culled).length * 64 + x) (s.members p.market)

/-- GROUP_DEAL (R379): the dealer deals the next group of one of its passes. -/
def execGroupDeal (st : Nat) (s : State) : Host.Outcome State Fault Refusal :=
  .next (match s.passes.find? fun p => p.dealer = st && p.aborted.isNone && p.groups.length < 64 && p.nextGroup.isSome with
    | none => s
    | some p => match p.nextGroup, s.pickMember p with
      | some (n, d, g), some x =>
        if s.cardWaits x d.mcard none then s.askCard x d.mcard none
        else
        let tok := n * 2 ^ 24 + g
        let s := s.modPass p.market fun p =>
          { p with groups := p.groups ++ [⟨tok, x, s.nextId, false, s.members p.market⟩]
                   draws := updAt p.draws n fun d => { d with dealt := d.dealt + 1 } }
        s.passLaunch x p (.rmesh p.market tok) d.mcard g (g + 1)
      | _, _ => s)

/-! ## Messages on the primitive channel (R384, R385) -/

/-- Update a member of a pass. -/
def State.modMember (s : State) (m x : Nat) (f : Member → Member) : State :=
  s.modPass m fun p => { p with members := p.members.map fun y => (y.1, if y.1 = x then f y.2 else y.2) }

/-- A message leaves the mesh. -/
def State.dropPrim (s : State) (i : Nat) : State := { s with prims := s.prims.eraseIdx i }

/-- DRAW_START: the owner learns a draw's group count. -/
def execDrawStart (i : Nat) (s : State) : Host.Outcome State Fault Refusal :=
  .next (match s.prims[i]? with
    | some (.drawStart m draw count dst) => (s.dropPrim i).modMember m dst fun x => { x with starts := x.starts.put draw count }
    | _ => s)

/-- PRIMITIVE_PACKET: the owner holds the packet. -/
def execPrimitivePacket (i : Nat) (s : State) : Host.Outcome State Fault Refusal :=
  .next (match s.prims[i]? with
    | some (.packet m p) => (s.dropPrim i).modMember m p.owner fun x => { x with packets := x.packets ++ [p] }
    | _ => s)

/-- DONE: the owner learns how many packets of a group it was sent. -/
def execDone (i : Nat) (s : State) : Host.Outcome State Fault Refusal :=
  .next (match s.prims[i]? with
    | some (.done m tok n dst _) => (s.dropPrim i).modMember m dst fun x => { x with dones := x.dones ++ [(tok, n)] }
    | _ => s)

/-- PASS_END: the owner learns the number of draws. -/
def execPassEnd (i : Nat) (s : State) : Host.Outcome State Fault Refusal :=
  .next (match s.prims[i]? with
    | some (.passEnd m n dst) => (s.dropPrim i).modMember m dst fun x => { x with ended := some n }
    | _ => s)

/-- A member has rasterised a group. -/
def Group.reported (g : Group) (tok src : Nat) : Group :=
  if g.token = tok then { g with waiting := g.waiting.erase src } else g

/-- GROUP_RETIRE (R379): a member's report; the group retires with the last one. -/
def execGroupRetire (i : Nat) (s : State) : Host.Outcome State Fault Refusal :=
  .next (match s.prims[i]? with
    | some (.retired m tok src) => (s.dropPrim i).modPass m fun p =>
        { p with groups := (p.groups.map fun g => g.reported tok src).filter fun g => g.waiting ≠ [] }
    | _ => s)

/-! ## Abort of a pass (R387) -/

/-- Whether a member of a pass is down. -/
def State.memberDown (s : State) (p : Pass) : Bool := (s.members p.market).any fun x => s.siteState x = 3

/-- Stop everything that a pass has under way at a member; what its back end has written is still performed. -/
def State.clearMember (s : State) (p : Pass) (x : Nat) : State :=
  let ls := (s.stall x).launches.filter fun l => l.ofPass p.market
  (ls.foldl (fun s l => s.abortLaunch x l.id 0x0400 0) s).modMember p.market x fun y => { Member.reset with mark := y.mark }

/-- PASS_ABORT (R387): a member is down, or an access of the pass has failed: every block of the pass stops. -/
def execPassAbort (st : Nat) (s : State) : Host.Outcome State Fault Refusal :=
  .next (match s.passes.find? fun p => p.dealer = st && (p.aborted.isSome || s.memberDown p) with
    | none => s
    | some p =>
      let s := s.failPass p.market 0
      let s := (s.members p.market).foldl (fun s x => s.clearMember p x) s
      s.modPass p.market fun p => { p with groups := [] })

end Sys2Proof.Machine
end

