-- ==== Sys2Proof/Machine/Rays.lean ====
section
/-! DEFINITION. Beams and rays: nodes, exact tests, splitting, result merges and the ray stack (chapter 15, R404 to R432). -/

set_option Elab.async false

namespace Sys2Proof.Machine

open Sys2Proof

/-! ## Exact vectors

Every finite binary32 value is a whole number of units of 2^-149, so the tests are exact in integers. -/

/-- Three components. -/
structure V3 where
  x : Int
  y : Int
  z : Int
deriving DecidableEq, Repr

/-- Sum. -/
def V3.plus (a b : V3) : V3 := ⟨a.x + b.x, a.y + b.y, a.z + b.z⟩
/-- Difference. -/
def V3.minus (a b : V3) : V3 := ⟨a.x - b.x, a.y - b.y, a.z - b.z⟩
/-- Multiple. -/
def V3.times (k : Int) (a : V3) : V3 := ⟨k * a.x, k * a.y, k * a.z⟩
/-- Inner product. -/
def V3.dot (a b : V3) : Int := a.x * b.x + a.y * b.y + a.z * b.z
/-- Vector product. -/
def V3.cross (a b : V3) : V3 := ⟨a.y * b.z - a.z * b.y, a.z * b.x - a.x * b.z, a.x * b.y - a.y * b.x⟩
/-- The zero vector. -/
def V3.zero : V3 := ⟨0, 0, 0⟩

/-- A finite value in units of 2^-149. -/
def unitInt : Num → Int
  | .fin g n d => sgn g (n * 2 ^ 149 / d)
  | _ => 0

/-- A whole number of k-th powers of the unit, as a value. -/
def unitNum (i : Int) (k : Nat) : Num := .ofInt i (2 ^ (149 * k))

/-- Three values as a vector of units. -/
def vecOf (t : List Num) : V3 := ⟨unitInt (t.getD 0 .zero), unitInt (t.getD 1 .zero), unitInt (t.getD 2 .zero)⟩

/-- A value rounded into binary32. -/
def rnd32 (m : RMode) (v : Num) : Word := BitVec.ofNat 32 (FF.f32.ofNum m false 0 v).1

/-! ## Nodes and records (R404 to R407) -/

/-- A box: its child word and its bounds. -/
structure RBox where
  child : Word
  lo : List Num
  hi : List Num
deriving DecidableEq, Repr

/-- A triangle record. -/
structure RTri where
  v0 : V3
  v1 : V3
  v2 : V3
  prim : Word
deriving DecidableEq, Repr

/-- Word k of bytes. -/
def wordAt (bs : List Byte) (k : Nat) : Word := BitVec.ofNat 32 (sliceNum bs (4 * k) 4)

/-- KIND of a child word (R405). -/
def childKind (w : Word) : Nat := w.toNat / 2 ^ 30

/-- Whether a child word is malformed (R407). -/
def childBad (w : Word) : Bool :=
  childKind w = 3 || (childKind w = 0 && w ≠ 0) || (childKind w ≠ 2 && w.toNat / 2 ^ 28 % 4 ≠ 0)

/-- Box i of a node, or none for an empty child. -/
def nodeBox (bs : List Byte) (i : Nat) : Option RBox :=
  let w := wordAt bs (24 + i)
  if childKind w = 0 then none
  else
    let v (k : Nat) : Num := f32Num (wordAt bs (6 * i + k))
    some ⟨w, [v 0, v 1, v 2], [v 3, v 4, v 5]⟩

/-- The boxes of a node, or the cause of a malformed one. -/
def nodeBoxes (bs : List Byte) : Except Nat (List (Option RBox)) :=
  let boxes := (List.range 4).map (nodeBox bs)
  if (List.range 4).any (fun i => childBad (wordAt bs (24 + i))) || sliceNum bs 112 16 ≠ 0
      || boxes.any (fun b => match b with
        | none => false
        | some b => (b.lo ++ b.hi).any Num.isNan) then .error 0x61
  else .ok boxes

/-- A triangle of a record, or the cause of a malformed one. -/
def recordTri (bs : List Byte) : Except Nat RTri :=
  let v (k : Nat) : Num := f32Num (wordAt bs k)
  if sliceNum bs 40 8 ≠ 0 || (List.range 9).any (fun k => !(v k).finite) then .error 0x61
  else .ok ⟨vecOf [v 0, v 1, v 2], vecOf [v 3, v 4, v 5], vecOf [v 6, v 7, v 8], wordAt bs 9⟩

/-- The node at an address. -/
def Ctx.node (c : Ctx) (l : Nat) (va : DWord) : Except Nat (List (Option RBox)) :=
  match c.plainRead c.sq.sup va 128 128 l with
  | .error e => .error e
  | .ok bs => nodeBoxes bs

/-- The triangle record at an address: three reads of 16 bytes, since a record may lie across two pages. -/
def Ctx.triangle (c : Ctx) (l : Nat) (va : DWord) : Except Nat RTri :=
  let bs := (List.range 3).foldl (fun (acc : Except Nat (List Byte)) i => match acc with
    | .error e => .error e
    | .ok bs => (c.plainRead c.sq.sup (va + BitVec.ofNat 64 (16 * i)) 16 16 l).map fun x => bs ++ x) (.ok [])
  match bs with
  | .error e => .error e
  | .ok bs => recordTri bs

/-- The node reads of a word. -/
def Ctx.nodeReads (c : Ctx) (b : Opnd) : List URead := c.act.map fun l => (c.rd64 l.2 b, 128, 128, l.1)

/-- The triangle reads of a word. -/
def Ctx.triReads (c : Ctx) (b : Opnd) : List URead :=
  c.act.flatMap fun l => (List.range 3).map fun i => (c.rd64 l.2 b + BitVec.ofNat 64 (16 * i), 16, 16, l.1)

/-! ## Rays (R408 to R410) -/

/-- A ray that is not void. -/
structure Ray where
  o : V3
  dir : V3
  tmin : Num
  tmax : Num
deriving DecidableEq, Repr

/-- A ray of values, or none where it is void (R408). -/
def rayOf (o dir : List Num) (tmin tmax : Num) : Option Ray :=
  if (o ++ dir).any (fun v => !v.finite) || tmin.isNan || tmax.isNan || vecOf dir = V3.zero || tmax.lt tmin then none
  else some ⟨vecOf o, vecOf dir, tmin, tmax⟩

/-- The ray in registers a to a + 7 of a lane. -/
def Ctx.ray (c : Ctx) (ln : Lane) (a : Opnd) : Option Ray :=
  let v (k : Nat) : Num := f32Num (c.rdAt ln a k)
  rayOf [v 0, v 1, v 2] [v 4, v 5, v 6] (v 3) (v 7)

/-- One axis of the box test: the interval that the slab leaves, or none on a miss (R409). -/
def slab (o dir : Int) (lo hi : Num) (iv : Option (Num × Num)) : Option (Num × Num) :=
  match iv with
  | none => none
  | some (a, b) =>
    let o' := unitNum o 1
    if dir = 0 then (if o'.lt lo || hi.lt o' then none else some (a, b))
    else
      let t1 := nDiv (nSub lo o') (unitNum dir 1)
      let t2 := nDiv (nSub hi o') (unitNum dir 1)
      some (a.greater (t1.lesser t2), b.lesser (t1.greater t2))

/-- Whether a box has a minimum above its maximum (R407). -/
def RBox.inverted (b : RBox) : Bool := (List.range 3).any fun k => (b.hi.getD k .zero).lt (b.lo.getD k .zero)

/-- The box test: the entry, exactly, or none on a miss (R409). An entry of zero is an exact number and has no sign (log 21). -/
def Ray.box (r : Ray) (b : RBox) : Option Num :=
  let at' (k : Nat) (o d : Int) (iv : Option (Num × Num)) := slab o d (b.lo.getD k .zero) (b.hi.getD k .zero) iv
  if b.inverted then none
  else match at' 2 r.o.z r.dir.z (at' 1 r.o.y r.dir.y (at' 0 r.o.x r.dir.x (some (r.tmin, r.tmax)))) with
    | none => none
    | some (a, e) => if e.lt a then none else some (if a.isZero then .zero else a)

/-- A hit of a triangle: t, u and v over one positive denominator (R410). -/
structure RHit where
  t : Int
  u : Int
  v : Int
  den : Nat
deriving DecidableEq, Repr

/-- The triangle test (R410). -/
def Ray.tri (r : Ray) (x : RTri) : Option RHit :=
  let e1 := x.v1.minus x.v0
  let e2 := x.v2.minus x.v0
  let s := r.o.minus x.v0
  let p := r.dir.cross e2
  let q := s.cross e1
  let det := e1.dot p
  let g : Int := if det < 0 then -1 else 1
  let h : RHit := ⟨g * e2.dot q, g * s.dot p, g * r.dir.dot q, det.natAbs⟩
  let t := Num.ofInt h.t h.den
  if det = 0 || h.u < 0 || h.v < 0 || (h.den : Int) < h.u + h.v || t.lt r.tmin || r.tmax.lt t then none else some h

/-! ## Beams (R411 to R413) -/

/-- A beam: its registers and the fields of its CTL. -/
structure Beam where
  regs : List Word
  x0 : Nat
  y0 : Nat
  x1 : Nat
  y1 : Nat
  cone : Bool
  depth : Nat
  root : Nat
deriving DecidableEq, Repr

/-- The beam of sixteen words, or the cause of its CTL (R411). -/
def beamOf (regs : List Word) : Except Nat Beam :=
  let ctl := (regs.getD 3 0).toNat
  let f (lo n : Nat) : Nat := ctl / 2 ^ lo % 2 ^ n
  let b : Beam := ⟨regs, f 0 3, f 3 3, f 6 3, f 9 3, f 12 1 = 1, f 13 3, f 16 10⟩
  if 2 ^ 26 ≤ ctl || b.x1 < b.x0 || b.y1 < b.y0 || b.depth = 7 then .error 0x61 else .ok b

/-- The beam in registers a to a + 15 of a lane. -/
def Ctx.beam (c : Ctx) (ln : Lane) (a : Opnd) : Except Nat Beam := beamOf ((List.range 16).map (c.rdAt ln a))

/-- A register of a beam as a value. -/
def Beam.val (b : Beam) (k : Nat) : Num := f32Num (b.regs.getD k 0)

/-- Component k of the direction of grid ray (i, j) (R412): an exact sum rounded once; a zero sum is +0. -/
def Beam.dirAt (b : Beam) (i j k : Nat) : Word :=
  let v := nAdd (nAdd (b.val (4 + k)) (nMul (nNat i) (b.val (8 + k)))) (nMul (nNat j) (b.val (12 + k)))
  rne32 (if v.isZero then .zero else v)

/-- The direction of grid ray (i, j). -/
def Beam.dir (b : Beam) (i j : Nat) : List Word := (List.range 3).map (b.dirAt i j)

/-- The values of a direction. -/
def Beam.dirVals (b : Beam) (i j : Nat) : List Num := (b.dir i j).map f32Num

/-- Apex values. -/
def Beam.apex (b : Beam) : List Num := [b.val 0, b.val 1, b.val 2]

/-- Ray (i, j), or none where it is void. -/
def Beam.ray (b : Beam) (i j : Nat) : Option Ray := rayOf b.apex (b.dirVals i j) (b.val 7) (b.val 11)

/-- The corner coordinates in the order c00, c10, c01, c11 (R413). -/
def Beam.corners (b : Beam) : List (Nat × Nat) := [(b.x0, b.y0), (b.x1, b.y0), (b.x0, b.y1), (b.x1, b.y1)]

/-- The grid rays. -/
def Beam.grid (b : Beam) : List (Nat × Nat) :=
  (List.range (b.y1 + 1 - b.y0)).flatMap fun j => (List.range (b.x1 + 1 - b.x0)).map fun i => (b.x0 + i, b.y0 + j)

/-- Whether a beam is unresolved (R412). -/
def Beam.unresolved (b : Beam) : Bool :=
  [0, 1, 2, 4, 5, 6, 8, 9, 10, 12, 13, 14].any (fun k => !(b.val k).finite) || (b.val 7).isNan || (b.val 11).isNan
    || b.grid.any fun g => (b.dirVals g.1 g.2).any fun v => !v.finite

/-- Whether every corner direction is finite. -/
def Beam.cornersFinite (b : Beam) : Bool := b.corners.all fun g => (b.dirVals g.1 g.2).all Num.finite

/-- Corner directions in units. -/
def Beam.cdirs (b : Beam) : List V3 := b.corners.map fun g => vecOf (b.dirVals g.1 g.2)

/-- S (R413). -/
def Beam.sum (b : Beam) : V3 := b.cdirs.foldl V3.plus V3.zero

/-- The normals of the edge planes (R413). -/
def Beam.planes (b : Beam) : List V3 :=
  let c (k : Nat) : V3 := b.cdirs.getD k .zero
  [(c 0).cross (c 2), (c 3).cross (c 1), (c 1).cross (c 0), (c 2).cross (c 3)].filterMap fun n =>
    if n.dot b.sum = 0 then none else some (if n.dot b.sum < 0 then V3.times (-1) n else n)

/-! ## Boxes against beams (R414) -/

/-- A bound rounded outward to BF16. -/
def bfBound (m : RMode) (v : Num) : Num := FF.bf16.read (FF.bf16.ofNum m false 0 v).1

/-- A box rounded outward. -/
def RBox.grown (b : RBox) : RBox := { b with lo := b.lo.map (bfBound .rdn), hi := b.hi.map (bfBound .rup) }

/-- Whether every bound is finite. -/
def RBox.finite (b : RBox) : Bool := (b.lo ++ b.hi).all Num.finite

/-- One component's part of the greatest n · p over the corners of a box; a zero component gives nothing. -/
def topPart (n : Int) (lo hi : Num) : Num :=
  if n = 0 then .zero else nMul (unitNum n 2) (if 0 < n then hi else lo)

/-- Whether a box lies outside an edge plane through the apex. -/
def outsidePlane (apex : V3) (b : RBox) (n : V3) : Bool :=
  let part (k : Nat) (m : Int) : Num := topPart m (b.lo.getD k .zero) (b.hi.getD k .zero)
  let h := f32Num (rnd32 .rdn (unitNum (n.dot apex) 3))
  (nAdd (nAdd (part 0 n.x) (part 1 n.y)) (part 2 n.z)).lt h

/-- i · |i|: the order of signed roots. -/
def sgnSq (i : Int) : Int := i * (i.natAbs : Int)

/-- Whether p / √a < q / √b, for positive a and b. -/
def ltRoot (p a q b : Int) : Bool := sgnSq p * b < sgnSq q * a

/-- The corner direction at the largest angle from S; one that is zero has no angle. -/
def Beam.widest (b : Beam) : Option V3 :=
  (b.cdirs.filter (· ≠ V3.zero)).foldl (fun best c => match best with
    | none => some c
    | some m => if ltRoot (b.sum.dot c) (c.dot c) (b.sum.dot m) (m.dot m) then some c else best) none

/-- Whether the angle between s and w exceeds that between s and c by more than arcsin √(r / |w|²), exactly, for r < |w|²; the
sum is then below π. With X and Y the squares of |s × w| and |s × c|, the comparisons of sines and cosines are comparisons of
squares. -/
def angleBeyond (s w c : V3) (r : Int) : Bool :=
  let p := s.dot w
  let q := s.dot c
  let sq := s.dot s
  let x := sq * w.dot w - p * p
  let y := sq * c.dot c - q * q
  let m := q * q * x + p * p * y - sq * sq * r * c.dot c
  ltRoot p (w.dot w) q (c.dot c) && ((p * q < 0 && x * y < p * q * (p * q)) || sgnSq (2 * p * q) * (x * y) < sgnSq m)

/-- The cone test (R414), on doubled coordinates. -/
def Beam.coneOutside (b : Beam) (x : RBox) : Bool :=
  let lo := vecOf x.lo
  let hi := vecOf x.hi
  let w := (lo.plus hi).minus (V3.times 2 (vecOf b.apex))
  let d := hi.minus lo
  match b.widest with
  | none => false
  | some c => x.finite && d.dot d < w.dot w && b.sum ≠ V3.zero && angleBeyond b.sum w c (d.dot d)

/-- Whether bmbox enters a box: an inverted box never (R407), an unresolved beam every other (R412). -/
def Beam.enters (b : Beam) (x : RBox) : Bool :=
  !x.inverted && (b.unresolved
    || !(if b.cone then b.coneOutside x.grown else b.planes.any (outsidePlane (vecOf b.apex) x.grown)))

/-- The order key of an entered box: S · (m − apex) doubled, or none where it is not finite (R427). -/
def Beam.key (b : Beam) (x : RBox) : Option Int :=
  let g := x.grown
  if g.finite && b.cornersFinite && b.apex.all Num.finite then
    some (b.sum.dot (((vecOf g.lo).plus (vecOf g.hi)).minus (V3.times 2 (vecOf b.apex))))
  else none

/-! ## Triangles against beams (R415) -/

/-- Whether the triangle's plane lies before or beyond the interval of every corner. -/
def Beam.planeMisses (b : Beam) (x : RTri) : Bool :=
  let n := (x.v1.minus x.v0).cross (x.v2.minus x.v0)
  let top := n.dot (x.v0.minus (vecOf b.apex))
  let ds := b.cdirs.map n.dot
  let ts := ds.map fun d => Num.ofInt (if d < 0 then -top else top) d.natAbs
  (ds.all (fun d => 0 < d) || ds.all (fun d => d < 0))
    && (ts.all (fun t => t.lt (b.val 7)) || ts.all (fun t => (b.val 11).lt t))

/-- The class of a triangle, and its corner hits where it is all. -/
def Beam.classify (b : Beam) (x : RTri) : Nat × List RHit :=
  let hits := b.corners.map fun g => match b.ray g.1 g.2 with
    | none => none
    | some r => r.tri x
  let behind (n : V3) : Bool := [x.v0, x.v1, x.v2].all fun v => n.dot (v.minus (vecOf b.apex)) < 0
  if b.unresolved then (2, [])
  else if hits.all Option.isSome then (1, hits.filterMap id)
  else if (x.v1.minus x.v0).cross (x.v2.minus x.v0) = V3.zero || b.planes.any behind || b.planeMisses x
      || (b.x0 = b.x1 && b.y0 = b.y1) then (0, [])
  else (2, [])

/-- The least t of hits. -/
def leastT : List RHit → Option (Int × Nat)
  | [] => none
  | h :: t => match leastT t with
    | none => some (h.t, h.den)
    | some (a, d) => if h.t * (d : Int) < a * (h.den : Int) then some (h.t, h.den) else some (a, d)

/-- The greatest t of hits. -/
def greatestT (hs : List RHit) : Option (Int × Nat) :=
  (leastT (hs.map fun h => { h with t := -h.t })).map fun x => (-x.1, x.2)

/-! ## The words that test (R425 to R428) -/

/-- The order of boxes: those hit by a key, then the rest by index. -/
def boxOrder (hit : Nat → Bool) (before : Nat → Nat → Bool) : List Nat :=
  let ins (i : Nat) (l : List Nat) : List Nat := (l.takeWhile fun j => !before i j) ++ [i] ++ (l.dropWhile fun j => !before i j)
  (((List.range 4).filter hit).foldl (fun l i => ins i l) []) ++ (List.range 4).filter fun i => !hit i

/-- The word of R425, and the child words in order. -/
def boxWords (hit : Nat → Bool) (order : List Nat) (child : Nat → Word) : List Word :=
  let n := ((List.range 4).filter hit).length
  let mask := (((List.range 4).filter hit).map fun i => 2 ^ i).foldl (· + ·) 0
  let ord := ((List.range 4).map fun j => order.getD j 0 * 4 ^ j).foldl (· + ·) 0
  BitVec.ofNat 32 (mask + 16 * n + 256 * ord) :: order.map fun i => if hit i then child i else 0

/-- +∞ and −∞. -/
def posInf : Word := 0x7F800000
/-- −∞. -/
def negInf : Word := 0xFF800000

/-- What rbox writes (R425). -/
def rboxOut (r : Option Ray) (bs : List (Option RBox)) : List Word :=
  let es := bs.map fun b => match r, b with
    | some r, some b => (r.box b).map (rnd32 .rdn)
    | _, _ => none
  let e (i : Nat) : Word := (es.getD i none).getD posInf
  let hit (i : Nat) : Bool := (es.getD i none).isSome
  let order := boxOrder hit fun i j => (f32Num (e i)).lt (f32Num (e j))
  boxWords hit order (fun i => ((bs.getD i none).map (·.child)).getD 0) ++ order.map e

/-- What bmbox writes (R427). -/
def bmboxOut (b : Beam) (bs : List (Option RBox)) : List Word :=
  let hit (i : Nat) : Bool := match bs.getD i none with
    | none => false
    | some x => b.enters x
  let key (i : Nat) : Option Int := match bs.getD i none with
    | none => none
    | some x => b.key x
  let before (i j : Nat) : Bool := match key i, key j with
    | some a, some c => a < c
    | none, some _ => true
    | _, none => false
  boxWords hit (boxOrder hit before) fun i => ((bs.getD i none).map (·.child)).getD 0

/-- What rtri writes (R410). -/
def rtriOut (h : Option RHit) (prim : Word) : List Word :=
  match h with
  | none => [posInf, 0, 0, 0xFFFFFFFF]
  | some h => [rne32 (.ofInt h.t h.den), rne32 (.ofInt h.u h.den), rne32 (.ofInt h.v h.den), prim]

/-- What bmtri writes (R428). -/
def bmtriOut (b : Beam) (x : RTri) : List Word :=
  let (code, hs) := b.classify x
  match leastT hs, greatestT hs with
  | some lo, some hi => [BitVec.ofNat 32 code, rnd32 .rdn (.ofInt lo.1 lo.2), rnd32 .rup (.ofInt hi.1 hi.2), x.prim]
  | _, _ => [BitVec.ofNat 32 code, negInf, posInf, x.prim]

/-- A vector or a scalar register. -/
def vecOrSca (a : Opnd) : Bool := a.isVec || a.isSca

/-- rbox (R425). -/
def execRbox (h : Hdr) (d a b : Opnd) (s : State) : Host.Outcome State Fault Refusal :=
  issue h (fun _ => { uses := [⟨d, 9, 4, true⟩, ⟨a, 8, 4, false⟩, .r2 b], bad := !d.isVec || !a.isVec || !vecOrSca b })
    (fun c =>
      if !c.readsDone then c.holdBehind
      else c.touched (c.nodeReads b) (c.perLaneVar d 9 fun l ln => helperZero ln 9 (match c.node l (c.rd64 ln b) with
        | .error e => .error e
        | .ok n => .ok { ws := rboxOut (c.ray ln a) n }))) s

/-- The test of rtri in a lane: the hit, and its words. -/
def Ctx.testTri (c : Ctx) (l : Nat) (ln : Lane) (a b : Opnd) : Except Nat (Option RHit × List Word) :=
  match c.triangle l (c.rd64 ln b) with
  | .error e => .error e
  | .ok x =>
    let hit := (c.ray ln a).bind fun r => r.tri x
    .ok (hit, rtriOut hit x.prim)

/-- rtri (R426). -/
def execRtri (h : Hdr) (d a b : Opnd) (s : State) : Host.Outcome State Fault Refusal :=
  issue h (fun _ => { uses := [⟨d, 4, 4, true⟩, ⟨a, 8, 4, false⟩, .r2 b], bad := !d.isVec || !a.isVec || !vecOrSca b })
    (fun c =>
      if !c.readsDone then c.holdBehind
      else c.touched (c.triReads b)
        (c.perLaneVar d 4 fun l ln => helperZero ln 4 ((c.testTri l ln a b).map fun x => { ws := x.2 }))) s

/-- The slot of a lane of rtri.w: checked as an atomic (R254, R426), with the management page's 0x22 (R249) and a lost line's 0x2A;
no watchpoint meets it (R459). -/
def Ctx.slotAcc (c : Ctx) (l : Nat) (ln : Lane) (sl : Opnd) : MAcc :=
  let va := c.rd64 ln sl
  ⟨l, ln, va, match c.s.translate c.q.stall c.sq.sup va .atomic 32 l with
    | .error e => .error e
    | .ok t => match t.place with
      | .mgmt _ => .error 0x22
      | .dev pa => if c.lostAt pa 32 then .error 0x2A else .ok t
      | _ => .ok t⟩

/-- The test of rtri.w in a lane with the checks in their order. -/
def Ctx.testMerge (c : Ctx) (l : Nat) (ln : Lane) (a b sl : Opnd) : Except Nat (Option RHit × List Word) :=
  if (c.rd64 ln b).toNat % 16 ≠ 0 || (c.rd64 ln sl).toNat % 32 ≠ 0 then .error 0x20
  else match c.testTri l ln a b with
    | .error e => .error e
    | .ok r => match (c.slotAcc l ln sl).tr with
      | .error e => .error e
      | .ok _ => .ok r

/-- The merge of a lane that hit (R421). -/
def Ctx.mergeLane (c : Ctx) (l : Nat) (ln : Lane) (a b sl : Opnd) : Option AtLane :=
  if ln.helper then none
  else match c.testTri l ln a b, (c.slotAcc l ln sl).tr with
    | .ok (some _, ws), .ok t => some ⟨l, l, 0, t.place, c.rd64 ln sl, c.rd64 ln b, 0, ws, true⟩
    | _, _ => none

/-- rtri.w (R426): the merges enter the store queue. -/
def execRtriW (h : Hdr) (d a b sl : Opnd) (s : State) : Host.Outcome State Fault Refusal :=
  issue h (fun _ => { uses := [⟨d, 4, 4, true⟩, ⟨a, 8, 4, false⟩, .r2 b, .r2 sl],
                      bad := !(d.isVec || d = .zero) || !a.isVec || !vecOrSca b || !vecOrSca sl })
    (fun c =>
      if !c.readsDone then c.holdBehind
      else
        let rs := runLanes c.fpc c.act fun l ln =>
          helperZero ln 4 ((c.testMerge l ln a b sl).map fun x => { ws := x.2 })
        if readCauses rs ≠ [] then
          .raise (readCauses rs) (match Tab.find? c.act (primaryOf (readCauses rs)).2 with
            | some ln => c.rd64 ln sl
            | none => 0)
        else
          let s := c.s.modSquad c.q fun q => q.dropLanes (helperCauses rs)
          let s := s.flightOf c.q d 4 (flightVals d rs)
          let ms := c.act.filterMap fun l => c.mergeLane l.1 l.2 a b sl
          let s := s.keepAll c.q (c.act.map fun l => c.slotAcc l.1 l.2 sl)
          c.touched (c.triReads b) (.ok (if ms.isEmpty then s else s.enqueue c.q (SqEnt.plain (.merge ms))))) s

/-- bmbox (R427). -/
def execBmbox (h : Hdr) (d a b : Opnd) (s : State) : Host.Outcome State Fault Refusal :=
  issue h (fun _ => { uses := [⟨d, 5, 4, true⟩, ⟨a, 16, 4, false⟩, .r2 b], bad := !d.isVec || !a.isVec || !vecOrSca b })
    (fun c =>
      if !c.readsDone then c.holdBehind
      else c.touched (c.nodeReads b)
        (c.perLaneVar d 5 fun l ln => helperZero ln 5 (match c.node l (c.rd64 ln b), c.beam ln a with
        | .error e, _ => .error e
        | _, .error e => .error e
        | .ok n, .ok x => .ok { ws := bmboxOut x n }))) s

/-- bmtri (R428). -/
def execBmtri (h : Hdr) (d a b : Opnd) (s : State) : Host.Outcome State Fault Refusal :=
  issue h (fun _ => { uses := [⟨d, 4, 4, true⟩, ⟨a, 16, 4, false⟩, .r2 b], bad := !d.isVec || !a.isVec || !vecOrSca b })
    (fun c =>
      if !c.readsDone then c.holdBehind
      else c.touched (c.triReads b)
        (c.perLaneVar d 4 fun l ln => helperZero ln 4 (match c.triangle l (c.rd64 ln b), c.beam ln a with
        | .error e, _ => .error e
        | _, .error e => .error e
        | .ok t, .ok x => .ok { ws := bmtriOut x t }))) s

/-! ## The ray stack (R422, R430, R431) -/

/-- Push an entry on a lane's stack: with eight held, the oldest spills; a helper's is dropped (R424, R430). -/
def Block.pushRay (b : Block) (ln : Lane) (e : DWord) : Except Nat (Block × Lane) :=
  if ln.rstack.length < 8 then .ok (b, { ln with rstack := e :: ln.rstack })
  else
    let ln' := { ln with rstack := e :: ln.rstack.dropLast }
    if ln.helper then .ok (b, ln')
    else match spillEntry b ln.tid (ln.rstack.getLastD 0) with
      | none => .error 0x26
      | some b' => .ok (b', ln')

/-- Pop a lane's newest entry; zero where the stack is empty (R424, R431). -/
def Block.popRay (b : Block) (ln : Lane) : Except Nat (Block × Lane × DWord) :=
  match ln.rstack with
  | e :: t => .ok (b, { ln with rstack := t }, e)
  | [] =>
    let a := stackArea b.ksp ln.tid
    let n := b.pad.num a 4
    if ln.helper then .ok (b, ln, 0)
    else if !stackHeaderOk b ln.tid || (b.pad.rd (a + 7)).getLsbD 7 then .error 0x26
    else if n = 0 then .ok (b, ln, 0)
    else if b.kern.pad < a + 8 * n + 8 then .error 0x26
    else .ok (b.writePad a (leBytes 4 (n - 1)), ln, BitVec.ofNat 64 (b.pad.num (a + 8 * n) 8))

/-- A block with a lane of a squad replaced. -/
def Block.putLane (b : Block) (slot l : Nat) (ln : Lane) : Block := b.modSquad slot fun q => q.modLane l fun _ => ln

/-- A word that acts on each active lane in turn, in the state its predecessors left; any cause undoes all of it (R11). -/
def Ctx.eachLane (c : Ctx) (f : State → Nat → Lane → Except Nat State) : Res :=
  let r := c.act.foldl (fun (acc : State × List (Nat × Lane × Nat)) l => match f acc.1 l.1 l.2 with
    | .ok s => (s, acc.2)
    | .error e => (acc.1, acc.2 ++ [(l.1, l.2, e)])) (c.s, [])
  let cs := r.2.filterMap fun x => if x.2.1.helper then none else some (x.1, x.2.2)
  if cs ≠ [] then .raise cs 0
  else .ok (r.1.modSquad c.q fun q => q.dropLanes (r.2.filterMap fun x => if x.2.1.helper then some x.1 else none))

/-- A change of the block and one lane of the issuing squad. -/
def Ctx.blockLane (c : Ctx) (f : Block → Lane → Except Nat (Block × Lane)) : Res :=
  c.eachLane fun s l ln => match s.block? c.q.blk with
    | none => .ok s
    | some b => (f b ln).map fun x => s.modBlock c.q.blk fun _ => x.1.putLane c.q.slot l x.2

/-- kpush (R430). -/
def execKpush (h : Hdr) (a : Opnd) (s : State) : Host.Outcome State Fault Refusal :=
  issue h (fun _ => { uses := [.r2 a], bad := !vecOrSca a }) (fun c => c.blockLane fun b ln => b.pushRay ln (c.rd64 ln a)) s

/-- kpop (R431). -/
def execKpop (h : Hdr) (d : Opnd) (s : State) : Host.Outcome State Fault Refusal :=
  issue h (fun _ => { uses := [.w2 d], bad := !d.isVec })
    (fun c => c.blockLane fun b ln => (b.popRay ln).map fun x => (x.1, x.2.1.write d (wordsOf true x.2.2))) s

/-! ## Splitting (R416 to R419, R429) -/

/-- The halves of a range (R416). -/
def halves (a b : Nat) : List (Nat × Nat) :=
  let w := b + 1 - a
  if 2 ≤ w then [(a, a + (w + 1) / 2 - 1), (a + (w + 1) / 2, b)] else [(a, b)]

/-- A child: its number and its rectangle. -/
structure BChild where
  k : Nat
  x0 : Nat
  y0 : Nat
  x1 : Nat
  y1 : Nat
deriving DecidableEq, Repr

/-- The children in ascending k. -/
def Beam.children (b : Beam) : List BChild :=
  let xs := halves b.x0 b.x1
  let ys := halves b.y0 b.y1
  (List.range ys.length).flatMap fun j => (List.range xs.length).map fun i =>
    let x := xs.getD i (0, 0)
    let y := ys.getD j (0, 0)
    ⟨i + 2 * j, x.1, y.1, x.2, y.2⟩

/-- Whether a child holds one ray. -/
def BChild.single (x : BChild) : Bool := x.x0 = x.x1 && x.y0 = x.y1

/-- A child's CTL. -/
def Beam.ctl (b : Beam) (root : Nat) (x : BChild) : Word :=
  BitVec.ofNat 32 (x.x0 + 8 * x.y0 + 64 * x.x1 + 512 * x.y1 + (if b.cone then 4096 else 0) + 8192 * (b.depth + 1) + 65536 * root)

/-- The ray form of grid ray (i, j) (R416). -/
def Beam.rayForm (b : Beam) (i j : Nat) : List Word :=
  let r (k : Nat) : Word := b.regs.getD k 0
  [r 0, r 1, r 2, r 7] ++ b.dir i j ++ [r 11, BitVec.ofNat 32 (8 * j + i), 0, 0, 0, 0, 0, 0, r 15]

/-- The sixteen registers of a child. -/
def Beam.childRegs (b : Beam) (root : Nat) (x : BChild) : List Word :=
  if x.single then b.rayForm x.x0 x.y0 else updAt b.regs 3 fun _ => b.ctl root x

/-- The thread indices of a block that are taken: those of present, held and filed threads (R417). -/
def Core.tids (k : Core) (pos : Nat) : List Nat :=
  (match Tab.find? k.blocks pos with
    | none => []
    | some b => b.squads.flatMap fun q => q.2.lanes.map fun l => l.2.tid)
    ++ (k.recs.filter fun r => r.pos = pos).map (·.tid)

/-- The lowest free thread index from T. -/
def Core.freeTid (k : Core) (pos t : Nat) : Option Nat :=
  let used := k.tids pos
  ((List.range (1024 - t)).map (t + ·)).find? fun n => !used.contains n

/-- Whether a query can take another live thread (R417). -/
def Core.queryRoom (k : Core) (key : Nat) : Bool :=
  match Tab.find? k.queries key with
  | some e => e.count < 64
  | none => k.queries.length < 64

/-- A spawned thread is counted in its query. -/
def Core.countQuery (k : Core) (pos key : Nat) : Core :=
  { k with queries := k.queries.put key ⟨pos, (match Tab.find? k.queries key with
      | some e => e.count
      | none => 0) + 1⟩ }

/-- The spawn record (R418). -/
def Ctx.spawnRec (c : Ctx) (s : State) (l : Nat) (ln : Lane) (d : Nat) (a : Nat) (x : BChild) (root tid : Nat) (b : Beam) : Rec where
  pos := c.q.pos
  role := c.sq.role
  pc := c.sq.pc + 8
  tid := tid
  lane := l
  live := (a + 16) / 4
  pred := ln.p
  helper := false
  bar := none
  spawn := true
  passed := false
  atWait := false
  rsk := 0
  rnd :=
    let r := ln.rnd ^^^ BitVec.ofNat 32 (tid * 0x9E3779B9)
    if r = 0 then 0x9E3779B9 else r
  stamp := s.cyc c.q.stall c.q.core % 2 ^ 32
  regs := putWords (Tab.set 0 (ln.v.filter fun v => v.1 < a) d
    (BitVec.ofNat 32 (0x80000000 + x.k + (if x.single then 4 else 0)))) a (b.childRegs root x)
  root := some root
  src := c.q.slot
  srcId := s.nextId
  spill := []
  unit := s.nextId * 16 + l / 4
  pxo := []

/-- Whether a child may be spawned now, and its thread index (R417). -/
def Ctx.spawnTid (c : Ctx) (s : State) (ln : Lane) (a root : Nat) : Option Nat :=
  let k := s.core c.q.stall c.q.core
  let room := (s.stall c.q.stall).hasRoom c.q.core [(c.q.pos, c.sq.role, c.sq.pc + 8)] (32 + 16 * ((a + 16) / 4))
  if c.blk.kern.quad || c.sq.inBody || ln.helper || !k.queryRoom (c.q.pos * 1024 + root) || !room then none
  else match k.freeTid c.q.pos c.blk.threads with
    | none => none
    | some t => if stackHeaderOk c.blk t then some t else none

/-- Spawn a child: its stack area's header is zeroed, and its record is filed (R418). -/
def Ctx.spawn (c : Ctx) (s : State) (l : Nat) (ln : Lane) (d a : Nat) (x : BChild) (root tid : Nat) (b : Beam) : State :=
  let r := c.spawnRec s l ln d a x root tid b
  let s := s.modBlock c.q.blk fun k =>
    { (k.writePad (stackArea k.ksp tid) (leBytes 8 0)) with live := k.live + 1 }
  { ((s.addRecs c.q.stall c.q.core [r]).modCore c.q.stall c.q.core fun k => k.countQuery c.q.pos (c.q.pos * 1024 + root)) with
    nextId := s.nextId + 1 }

/-- Spawn what can be: the children pushed instead. -/
def Ctx.spawnAll (c : Ctx) (l : Nat) (ln : Lane) (d a root : Nat) (b : Beam) : State → List BChild → State × List BChild
  | s, [] => (s, [])
  | s, x :: xs =>
    match c.spawnTid s ln a root with
    | some tid => c.spawnAll l ln d a root b (c.spawn s l ln d a x root tid b) xs
    | none =>
      let (s', ps) := c.spawnAll l ln d a root b s xs
      (s', x :: ps)

/-- Push children in descending k (R419). -/
def Beam.pushAll (b : Beam) (root : Nat) (cw : Word) (blk : Block) (ln : Lane) (ps : List BChild) : Except Nat (Block × Lane) :=
  ps.reverse.foldl (fun acc x => match acc with
    | .error e => .error e
    | .ok (k, ln) => k.pushRay ln (pair64 cw (b.ctl root x))) (.ok (blk, ln))

/-- Split a beam of several rays in a lane (R429). -/
def Ctx.splitBeam (c : Ctx) (s : State) (l : Nat) (ln : Lane) (d : Opnd) (a : Nat) (cw : Word) (b : Beam) : Except Nat State :=
  let root := if b.depth = 0 then ln.tid else b.root
  let dn := match d with
    | .vec k => k.val
    | _ => 0
  let kids := b.children
  let (s', ps) := c.spawnAll l ln dn a root b s kids
  match s'.block? c.q.blk with
  | none => .ok s'
  | some blk => (b.pushAll root cw blk ln ps).map fun x =>
      let pushed := (ps.map fun y => 2 ^ y.k).foldl (· + ·) 0
      let all := (kids.map fun y => 2 ^ y.k).foldl (· + ·) 0
      s'.modBlock c.q.blk fun _ => x.1.putLane c.q.slot l
        (x.2.write d [BitVec.ofNat 32 ((all - pushed) + 16 * pushed + 256 * kids.length)])

/-- bmsplit in a lane (R429). -/
def Ctx.splitLane (c : Ctx) (d a cw : Opnd) (s : State) (l : Nat) (ln : Lane) : Except Nat State :=
  let put (f : Lane → Lane) : State := s.modSquad c.q fun q => q.modLane l f
  if ln.helper then .ok (put fun x => x.write d [0])
  else match c.beam ln a with
    | .error e => .error e
    | .ok b =>
      if b.x0 = b.x1 && b.y0 = b.y1 then
        .ok (put fun x => (x.write a (b.rayForm b.x0 b.y0)).write d [0x40000000])
      else if b.depth = 6 then .error 0x62
      else c.splitBeam s l ln d (match a with
        | .vec k => k.val
        | _ => 0) (c.rd l ln cw) b

/-- Whether bmsplit's destination is a vector register below its beam. -/
def splitDest (d a : Opnd) : Bool :=
  match d, a with
  | .vec i, .vec j => i.val < j.val
  | _, _ => false

/-- bmsplit (R429): it waits for the results in flight, marked or not (R78). -/
def execBmsplit (h : Hdr) (d a b : Opnd) (s : State) : Host.Outcome State Fault Refusal :=
  issue { h with s := true } (fun _ => { uses := [.w1 d, ⟨a, 16, 4, false⟩, .r b], bad := !splitDest d a || !vecOrSca b })
    (fun c => c.eachLane (c.splitLane d a b)) s

end Sys2Proof.Machine
end

