-- ==== Sys2Proof/Machine/Attest.lean ====
section
/-! DEFINITION. Firmware images and attestation (R465 to R467): SPDM 1.2 as its public standard, DSP0274, has it (PRESUMED, log 7). -/

set_option Elab.async false

namespace Sys2Proof.Machine

open Sys2Proof

/-! ## Images (R465) -/

/-- The signed part of an image: header, body and digest come before a signature of 114 bytes (log 7). -/
def imageBody (img : List Byte) : List Byte := img.take (img.length - 178)
/-- The digest of an image. -/
def imageDigest (img : List Byte) : List Byte := sliceBytes img (img.length - 178) 64
/-- The signature of an image. -/
def imageSig (img : List Byte) : List Byte := img.drop (img.length - 114)

/-- Whether an image verifies and its version is not below a floor; a slot that holds no image holds the factory's (log 7). -/
def imageOk (img : List Byte) (floor : Word) : Bool :=
  (img = [] || (178 ≤ img.length && imageDigest img = shake256 (imageBody img)
    && Config.ed448Valid (imageDigest img) (imageSig img))) && (floor = 0 || floor ≤ Config.imageVersion img)

/-- The firmware slots of a site: kind 0 the DMC's, 1 the finaliser, 2 the scheduler's. -/
def State.firmOf (s : State) (site kind : Nat) : Firm := Tab.get Firm.reset s.firm (site * 4 + kind)

/-! ## Measurements (R467) -/

/-- A measurement block: its index, the kind of its value, and the value. -/
def measBlock (i : Nat) (kind : Byte) (v : List Byte) : List Byte :=
  [BitVec.ofNat 8 i, 1] ++ leBytes 2 (v.length + 3) ++ [kind] ++ leBytes 2 v.length ++ v

/-- A measured value of a stall by its index: for each firmware the digests of both slots and the active slot; the rollback floor; the site
table entry. -/
def State.measured (s : State) (st i : Nat) : List Byte :=
  let site := s.siteOf st
  if i = 10 then leBytes 4 (Tab.get 0 s.floors site).toNat
  else if i = 11 then leBytes 4 (Tab.get 0 s.site st).toNat
  else
    let f := s.firmOf site ((i - 1) / 3)
    match (i - 1) % 3 with
    | 0 => imageDigest f.a
    | 1 => imageDigest f.b
    | _ => [if f.bActive then 1 else 0]

/-- The kind of a measured value: a digest of mutable firmware, raw configuration of the firmware, or its raw security version. -/
def measKind (i : Nat) : Byte := if i = 10 then 0x87 else if i = 11 then 0x82 else if (i - 1) % 3 = 2 then 0x83 else 0x01

/-- A measurement block of a function: a stall's own, or, of function 64, the values of all stalls in order. -/
def State.measure (s : State) (fn i : Nat) : List Byte :=
  measBlock i (measKind i) (if fn < 64 then s.measured fn i else (List.range 64).flatMap fun st => s.measured st i)

/-- The number of measurements. -/
def measCount : Nat := 11

/-- All measurement blocks of a function. -/
def State.measures (s : State) (fn : Nat) : List Byte := (List.range measCount).flatMap fun i => s.measure fn (i + 1)

/-! ## SPDM (R467) -/

/-- The key pair of a function: of its stall's die, or of the package. -/
def State.keyOf (s : State) (fn : Nat) : KeyPair := Tab.get KeyPair.reset s.keys (if fn < 64 then s.siteOf fn else 72)

/-- The connection of a function. -/
def State.conn (s : State) (fn : Nat) : Spdm := Tab.get Spdm.reset s.spdm fn

/-- An answer, and the connection behind it. -/
def State.says (s : State) (fn : Nat) (bs : List Byte) (c : Spdm) : State := { s with answer := .data bs, spdm := s.spdm.put fn c }

/-- An ERROR message. -/
def spdmError (code data : Byte) : List Byte := [0x12, 0x7F, code, data]

/-- ASCII text as bytes. -/
def textBytes (t : String) : List Byte := t.toList.map fun c => BitVec.ofNat 8 c.toNat

/-- What a signature signs: the prefix of the version, the context, and the digest of the messages. -/
def signedBytes (context : String) (m : List Byte) : List Byte :=
  (List.replicate 4 (textBytes "dmtf-spdm-v1.2.*")).flatten ++ List.replicate (36 - context.length) 0 ++ textBytes context ++ sha3 m

/-- A nonce of 32 bytes that the spec leaves open (log 6). -/
def freeNonce (k : Nat) : List Byte := (List.range 4).flatMap fun i => leBytes 8 (Config.freeWord (k + i)).toNat

/-- The certificate chain of a function. -/
def State.chain (s : State) (fn : Nat) : List Byte := Config.certChain (s.keyOf fn).shown

/-- GET_VERSION: a new connection; version 1.2. -/
def State.spdmVersion (s : State) (fn : Nat) (req : List Byte) : State :=
  let a : List Byte := [0x10, 0x04, 0, 0, 0, 1, 0x00, 0x12]
  s.says fn a ⟨1, req ++ a, [], []⟩

/-- GET_CAPABILITIES: certificates, challenges and signed measurements. -/
def State.spdmCaps (s : State) (fn : Nat) (req : List Byte) (c : Spdm) : State :=
  let a : List Byte := [0x12, 0x61, 0, 0, 0, 0, 0, 0] ++ leBytes 4 0x16 ++ leBytes 4 0x10000 ++ leBytes 4 0x10000
  s.says fn a { c with stage := 2, opening := c.opening ++ req ++ a }

/-- NEGOTIATE_ALGORITHMS: EdDSA Ed448 and SHA3-512, which the requester must support. -/
def State.spdmAlgs (s : State) (fn : Nat) (req : List Byte) (c : Spdm) : State :=
  if (sliceNum req 8 4).testBit 11 && (sliceNum req 12 4).testBit 5 then
    let spec := sliceNum req 6 1 % 2
    let a : List Byte := [0x12, 0x63, 0, 0] ++ leBytes 2 36 ++ [BitVec.ofNat 8 spec, 0] ++ leBytes 4 (spec * 0x40) ++ leBytes 4 0x800
      ++ leBytes 4 0x20 ++ List.replicate 16 0
    s.says fn a { c with stage := 3, opening := c.opening ++ req ++ a }
  else s.says fn (spdmError 0x01 0) c

/-- GET_DIGESTS: the digest of the chain in slot 0. -/
def State.spdmDigests (s : State) (fn : Nat) (req : List Byte) (c : Spdm) : State :=
  let a : List Byte := [0x12, 0x01, 0, 1] ++ sha3 (s.chain fn)
  s.says fn a { c with certs := c.certs ++ req ++ a, meas := [] }

/-- GET_CERTIFICATE: a portion of the chain in slot 0. -/
def State.spdmCert (s : State) (fn : Nat) (req : List Byte) (c : Spdm) : State :=
  let ch := s.chain fn
  let off := sliceNum req 4 2
  if sliceNum req 2 1 ≠ 0 || ch.length ≤ off then s.says fn (spdmError 0x01 0) c
  else
    let n := min (sliceNum req 6 2) (ch.length - off)
    let a : List Byte := [0x12, 0x02, 0, 0] ++ leBytes 2 n ++ leBytes 2 (ch.length - off - n) ++ (ch.drop off).take n
    s.says fn a { c with certs := c.certs ++ req ++ a, meas := [] }

/-- CHALLENGE: the digest of the chain, a nonce, a digest of the measurements where it is asked for, and the signature of all messages of
the connection so far. -/
def State.spdmChallenge (s : State) (fn : Nat) (req : List Byte) (c : Spdm) : State :=
  let kind := sliceNum req 3 1
  if sliceNum req 2 1 ≠ 0 || !([0, 1, 0xFF].contains kind) then s.says fn (spdmError 0x01 0) c
  else
    let a : List Byte := [0x12, 0x03, 0, 1] ++ sha3 (s.chain fn) ++ freeNonce s.free
      ++ (if kind = 0 then [] else sha3 (s.measures fn)) ++ [0, 0]
    let sig := Config.ed448Sign (s.keyOf fn).secret (signedBytes "responder-challenge_auth signing" (c.opening ++ c.certs ++ req ++ a))
    State.says { s with free := s.free + 4 } fn (a ++ sig) { c with certs := [], meas := [] }

/-- GET_MEASUREMENTS: the count, one block or all, a nonce, and where it is asked for the signature of the measurements so far. -/
def State.spdmMeas (s : State) (fn : Nat) (req : List Byte) (c : Spdm) : State :=
  let signed : Bool := (sliceNum req 2 1).testBit 0
  let op := sliceNum req 3 1
  if measCount < op && op ≠ 0xFF || signed && sliceNum req 36 1 ≠ 0 then s.says fn (spdmError 0x01 0) c
  else
    let record := if op = 0 then [] else if op = 0xFF then s.measures fn else s.measure fn op
    let count := if op = 0 then 0 else if op = 0xFF then measCount else 1
    let a : List Byte := [0x12, 0x60, BitVec.ofNat 8 (if op = 0 then measCount else 0), 0, BitVec.ofNat 8 count]
      ++ leBytes 3 record.length ++ record ++ freeNonce s.free ++ [0, 0]
    let s : State := { s with free := s.free + 4 }
    if signed then
      let sig := Config.ed448Sign (s.keyOf fn).secret (signedBytes "responder-measurements signing" (c.opening ++ c.meas ++ req ++ a))
      s.says fn (a ++ sig) { c with meas := [] }
    else s.says fn a { c with meas := c.meas ++ req ++ a }

/-- The bytes of a request by its code and its first parameter, if the part supports it: at least so many must come. -/
def spdmBytes (code p1 : Nat) : Option Nat :=
  match code with
  | 0x84 => some 4
  | 0xE1 => some 20
  | 0xE3 => some 32
  | 0x81 => some 4
  | 0x82 => some 8
  | 0x83 => some 36
  | 0xE0 => some (if p1 % 2 = 1 then 37 else 4)
  | _ => none

/-- SPDM_REQUEST (R467): a stall's function answers for its site, function 64 for the package: the seven requests that the part supports,
the three opening ones in their order. -/
def execSpdmRequest (fn : Nat) (req : List Byte) (s : State) : Host.Outcome State Fault Refusal :=
  let code := sliceNum req 1 1
  let c := s.conn fn
  .next (if 64 < fn then { s with answer := .none }
    else match spdmBytes code (sliceNum req 2 1) with
      | none => s.says fn (spdmError 0x07 (BitVec.ofNat 8 code)) c
      | some n =>
        if req.length < n then s.says fn (spdmError 0x01 0) c
        else if sliceNum req 0 1 ≠ (if code = 0x84 then 0x10 else 0x12) then s.says fn (spdmError 0x41 0) c
        else match code, c.stage with
          | 0x84, _ => s.spdmVersion fn req
          | 0xE1, 1 => s.spdmCaps fn req c
          | 0xE3, 2 => s.spdmAlgs fn req c
          | 0x81, 3 => s.spdmDigests fn req c
          | 0x82, 3 => s.spdmCert fn req c
          | 0x83, 3 => s.spdmChallenge fn req c
          | 0xE0, 3 => s.spdmMeas fn req c
          | _, _ => s.says fn (spdmError 0x04 0) c)

end Sys2Proof.Machine
end

