-- ==== Sys2Proof/Machine/Service.lean ====
section
/-! DEFINITION. Boot and the service flows: retirement of cores, moves of stalls, links, firmware, attestation and power
(chapter 17, R465 to R477; R13 to R20). -/

set_option Elab.async false

namespace Sys2Proof.Machine

open Sys2Proof

/-! ## Firmware (R465, R466) -/

/-- FIRMWARE_UPDATE (R466): the image goes into the inactive slot and is verified there; one that does not verify or is too old is
refused, and with it a switch to what stood in the slot before. -/
def execFirmwareUpdate (site kind : Nat) (img : List Byte) (s : State) : Host.Outcome State Fault Refusal :=
  .next (if 72 ≤ site || 3 ≤ kind || img = [] then s
    else
      let f := s.firmOf site kind
      let s' := { s with firm := s.firm.put (site * 4 + kind) (if f.bActive then { f with a := img } else { f with b := img }) }
      if !imageOk img (Tab.get 0 s.floors site) then { s' with pendFirm := s.pendFirm.erase (site, kind) }
      else if s.pendFirm.contains (site, kind) then s'
      else { s' with pendFirm := s.pendFirm ++ [(site, kind)] })

/-- FIRMWARE_SWITCH (R466): the DMC's between two requests, the finaliser's at once, the scheduler's when no fetched entry of
the stall is incomplete. -/
def execFirmwareSwitch (site kind : Nat) (s : State) : Host.Outcome State Fault Refusal :=
  let busy : Bool := kind = 2 && match s.stallAt site with
    | none => false
    | some st => !((s.stall st).entries.all fun e => decide (e.st = .complete))
  .next (if !s.pendFirm.contains (site, kind) || busy then s
    else
      let f := s.firmOf site kind
      { s with firm := s.firm.put (site * 4 + kind) { f with bActive := !f.bActive }, pendFirm := s.pendFirm.erase (site, kind) })

/-- ROLLBACK_FLOOR_RAISE (R466): it never falls. -/
def execRollbackFloorRaise (site : Nat) (v : Word) (s : State) : Host.Outcome State Fault Refusal :=
  .next (if site < 72 && Tab.get 0 s.floors site < v then { s with floors := Tab.set 0 s.floors site v } else s)

/-! ## Boot (R13 to R16, R20, R465) -/

/-- The firmware of a site at boot: each runs its active slot, else the other; none where neither passes (R465). -/
def State.bootFirm (s : State) (site : Nat) : Option State :=
  (List.range 3).foldl (fun r k => match r with
    | none => none
    | some s =>
      let f := s.firmOf site k
      let floor := Tab.get 0 s.floors site
      let ok (b : Bool) : Bool := imageOk (if b then f.b else f.a) floor
      if ok f.bActive then some s
      else if ok (!f.bActive) then some { s with firm := s.firm.put (site * 4 + k) { f with bActive := !f.bActive } }
      else none) (some s)

/-- The edges of the mesh (R14). -/
def allEdges : List Nat := List.range 127

/-- The spare that a stall without a site takes: the fewest hops from site (0, row), then the lower number (R16). -/
def State.spareFor (s : State) (row : Nat) (free : List Nat) : Option Nat :=
  let known := s.reach (9 * row) 72
  minBy (fun x : Nat × Nat => x.2 * 128 + x.1) (known.filter fun x => free.contains x.1) |>.map (·.1)

/-- Give the stalls of a row their sites: the working sites in column order (R16). -/
def rowSites (good : Nat → Bool) (row : Nat) : List (Nat × Nat) :=
  let sites := ((List.range 9).map fun c => 9 * row + c).filter good
  (List.range 8).filterMap fun x => sites[x]?.map fun n => (8 * row + x, n)

/-- The site of each stall at boot (R16): stalls without a site of their row take their spares in ascending number (log 52). -/
def State.bootSites (s : State) (good : Nat → Bool) : List (Nat × Nat) :=
  let placed := (List.range 8).flatMap (rowSites good)
  (List.range 64).foldl (fun acc st =>
    if acc.any fun x => x.1 = st then acc
    else
      let free := (List.range 72).filter fun n => good n && !acc.any fun x => x.2 = n
      match s.spareFor (st / 8) free with
      | none => acc
      | some n => acc ++ [(st, n)]) placed

/-- BOOT (R13 to R16, R20): from the sites and edges that failed their tests, the maps, the site table and every stall's
routes. It runs once, before the site table is written. -/
def execBoot (bad : List Nat) (badEdges : List Nat) (s : State) : Host.Outcome State Fault Refusal :=
  if s.site ≠ [] then .next s
  else
    let (failed, s) := (List.range 72).foldl (fun (acc : List Nat × State) n => match acc.2.bootFirm n with
      | none => (acc.1 ++ [n], acc.2)
      | some s' => (acc.1, s')) (bad, s)
    let good (n : Nat) : Bool := !failed.contains n
    let fwd := ((List.range 72).filter good).foldl (fun m n => setMapBit m n true) ((0 : DWord), (0 : DWord))
    let edge := (allEdges.filter fun e => !badEdges.contains e).foldl (fun m e => setMapBit m e true) ((0 : DWord), (0 : DWord))
    let s : State := { s with fwd := fwd, edge := edge }
    let sites := s.bootSites good
    let s : State := { s with site := sites.foldl (fun t x => Tab.set 0 t x.1 (BitVec.ofNat 32 (2 ^ 14 + x.2))) [] }
    .next (sites.foldl (fun s x => s.fillRoutes x.1 false) s)

/-! ## Links (R468) -/

/-- Rewrite the default routes of every mapped stall (R20). -/
def State.refillAll (s : State) : State :=
  (List.range 64).foldl (fun s st => if s.siteState st = 1 || s.siteState st = 2 then s.fillRoutes st true else s) s

/-- LANE_RECALIBRATION (R468): each lane that fails is repaired onto the edge's redundant lane; with none left the edge runs
at half width, and reports it once. -/
def execLaneRecalibration (edge : Nat) (bad : List Nat) (s : State) : Host.Outcome State Fault Refusal :=
  .next (if 127 ≤ edge || !mapBit s.edge edge then s
    else
      let e0 := Tab.get (⟨1, false⟩ : EdgeSt) s.edges edge
      let n := (nub bad).length
      let half := e0.half || e0.spares ≤ n
      { s with
        edges := Tab.set (⟨1, false⟩ : EdgeSt) s.edges edge ⟨e0.spares - n, half⟩
        evlog := if half && !e0.half then s.evlog ++ [.halfWidth edge] else s.evlog })

/-- Rewrite the entries of every stall's route table that a test of the stall and the waypoints picks (R468, R474); `was` is the package
before, and a waypoint may have a new name. -/
def State.mendRoutes (s was : State) (ren : Nat → Nat) (due : Nat → List Nat → Bool) : State :=
  { s with stalls := s.stalls.map fun t => (t.1, { t.2 with routes := t.2.routes.map fun r =>
      (r.1, match routePoints r.2 with
        | none => r.2
        | some ws => if due t.1 ws then s.mendRoute was t.1 ren r.2 else r.2) }) }

/-- EDGE_FAILURE (R468): the edge-map bit clears; the routes that cross the edge and the default routes are rewritten. -/
def execEdgeFailure (edge : Nat) (s : State) : Host.Outcome State Fault Refusal :=
  .next (if edge < 127 then
      State.refillAll (State.mendRoutes { s with edge := setMapBit s.edge edge false } s id fun st ws =>
        crossesEdge edge (s.siteOf st :: ws)
          || (s.reaches st ws).any fun d => crossesEdge edge [ws.getLast?.getD (s.siteOf st), s.siteOf d])
    else s)

/-! ## Retiring a core (R470 to R473) -/

/-- The CRT entry that step 1 of R471 writes. -/
def retireEntry (e : DWord) (spare : Nat) : DWord :=
  let v := (field e 63 48 + 1) % 65536 * 2 ^ 48
  BitVec.ofNat 64 (if spare = 0x3F then v + field e 5 0 else v + 0xC000 + spare)

/-- DMC_RETIRE_SWAP (R471): a retiring core with no resident block, whose entry still names it. A swap that R23 refuses writes
nothing. -/
def execDmcRetireSwap (st : Nat) (s : State) : Host.Outcome State Fault Refusal :=
  let t := s.stall st
  let due (c : Nat) : Bool :=
    let k := t.core c
    let e := Tab.get 0 t.crt (field (k.retst.zeroExtend 64) 13 8)
    field (k.retst.zeroExtend 64) 31 30 = 1 && !k.off && k.blocks.isEmpty && e.getLsbD 15 && field e 5 0 = c
  .next (match (List.range 54).find? due with
    | none => s
    | some c =>
      let r : DWord := (t.core c).retst.zeroExtend 64
      let e := Tab.get 0 t.crt (field r 13 8)
      (s.crtSwap st (field r 13 8) e (retireEntry e (field r 21 16))).2)

/-- Whether the blocks of a retiring core hold up the clearing of MIG by the DMC: some are still resident, a saved one holds
mailboxes, or one that does is back on the spare and its supervisor clears MIG (R473). -/
def State.retireHeld (s : State) (st l : Nat) : Bool :=
  let t := s.stall st
  let spare := (t.core (field (Tab.get 0 t.crt l) 5 0)).retst.zeroExtend 64
  (match t.retiring l with
    | none => false
    | some c => !(t.core c).blocks.isEmpty)
  || t.saved.any (fun v => v.lcore = some l && match t.launch? v.launch with
    | some x => decide (x.kern.mbox ≠ [])
    | none => false)
  || (field spare 31 30 = 2 && field spare 13 8 = l)

/-- After retirement the physical core is powered off, and no later write to the CRT places it in service (R473). -/
def State.powerOff (s : State) (st l : Nat) : State :=
  let t := s.stall st
  match t.retiring l with
  | none => s
  | some c =>
    let e := Tab.get 0 t.crt l
    if (t.core c).blocks.isEmpty && !(e.getLsbD 15 && field e 5 0 = c) then
      { (s.modCore st c fun k => { k with off := true }) with retired := s.retired ++ [st * 64 + c] }
    else s

/-- Whether the DMC may clear MIG of a logical core: a core of it retires whose swap is done (R473). -/
def State.migOurs (s : State) (st l : Nat) : Bool :=
  match (s.stall st).retiring l with
  | none => false
  | some c => field (Tab.get 0 (s.stall st).crt l) 5 0 ≠ c && !s.retireHeld st l

/-- MIG_CLEAR (R327, R473): the DMC clears MIG of a retired logical core where no block with mailboxes will; then, MIG clear, the held
messages go to the core that the entry names, and the retired core is powered off. -/
def execMigClear (st core : Nat) (s : State) : Host.Outcome State Fault Refusal :=
  let e := Tab.get 0 (s.stall st).crt core
  .next (if !e.getLsbD 14 then (s.releaseHeld st core).powerOff st core
    else if !s.migOurs st core then s
    else
      let new := BitVec.ofNat 64 ((field e 63 48 + 1) % 65536 * 2 ^ 48 + e.toNat % 2 ^ 48 - 2 ^ 14)
      (((s.noteMgmt st (8 * core) 8).modStall st fun t => { t with crt := t.crt.put core new }).releaseHeld st core).powerOff st core)

/-! ## Moving a stall (R474, R475) -/

/-- A key of a table that counts in units of a site, moved from one site to another. -/
def moveKey (u old new a : Nat) : Nat := if a / u = old then a % u + new * u else a

/-- The keys of a table moved to a new site; what stood there is gone. -/
def moveKeys {α : Type} (u old new : Nat) (t : Tab α) : Tab α :=
  let rest := t.filter fun x => x.1 / u ≠ old && x.1 / u ≠ new
  rest.filter (fun x => x.1 < new * u) ++ (t.filter fun x => x.1 / u = old).map (fun x => (x.1 % u + new * u, x.2))
    ++ rest.filter fun x => new * u ≤ x.1

/-- The bytes of a site, and its lines. -/
def siteBytes : Nat := 2 ^ 41
/-- The lines of a site. -/
def siteLines : Nat := 2 ^ 35

/-- A line of the old site at the new one. -/
def moveLine (o n l : Nat) : Nat := moveKey siteLines o n l

/-- A place at the old site is a place at the new one. -/
def Place.move (o n : Nat) : Place → Place
  | .dev pa => .dev (moveKey siteBytes o n pa)
  | p => p

/-- A lane's part of an atomic at the new site. -/
def AtLane.move (o n : Nat) (l : AtLane) : AtLane := { l with place := l.place.move o n }

/-- An entry of a store queue at the new site. -/
def SqOp.move (o n : Nat) : SqOp → SqOp
  | .store p bs => .store (p.move o n) bs
  | .atomic op ls => .atomic op (ls.map (AtLane.move o n))
  | .scs w ls => .scs w (ls.map (AtLane.move o n))
  | .merge ls => .merge (ls.map (AtLane.move o n))
  | .cwb p => .cwb (p.move o n)
  | .cinv p dc => .cinv (p.move o n) dc
  | .fence ar => .fence ar

/-- A watch slot at the new site. -/
def Watch.move (o n : Nat) (w : Watch) : Watch := { w with tgt := match w.tgt with
  | .dev l => .dev (moveLine o n l)
  | x => x }

/-- What a lane names at the new site. -/
def Lane.move (o n : Nat) (ln : Lane) : Lane :=
  { ln with resv := ln.resv.map fun r => { r with line := moveLine o n r.line } }

/-- What a squad names at the new site. -/
def Squad.move (o n : Nat) (q : Squad) : Squad :=
  { (q.mapLanes fun _ ln => ln.move o n) with
    w0 := q.w0.move o n
    w1 := q.w1.move o n
    flight := q.flight.map fun f => { f with reads := f.reads.map fun r => { r with place := r.place.move o n } }
    sq := q.sq.map fun e => { e with op := e.op.move o n } }

/-- What a core names at the new site. -/
def Core.move (o n : Nat) (c : Core) : Core :=
  { c with
    l1 := moveKeys siteLines o n c.l1
    pf := c.pf.map (moveLine o n)
    icache := moveKeys siteBytes o n c.icache
    blocks := c.blocks.map fun b => (b.1, { b.2 with squads := b.2.squads.map fun q => (q.1, q.2.move o n) }) }

/-- What a stall names at the new site. -/
def Stall.move (o n : Nat) (t : Stall) : Stall :=
  { t with
    dc := moveKeys siteLines o n t.dc
    ptab := t.ptab.map fun p => (p.1, { p.2 with line := moveLine o n p.2.line })
    preq := t.preq.map fun p => { p with line := moveLine o n p.line }
    pwait := t.pwait.map fun p => (moveLine o n p.1, p.2)
    marked := moveKeys siteLines o n t.marked
    wbuf := t.wbuf.map fun w => { w with pa := moveKey siteBytes o n w.pa }
    far := t.far.map fun f => { f with lanes := f.lanes.map (AtLane.move o n) }
    cores := t.cores.map fun c => (c.1, c.2.move o n) }

/-- A message that names a line of the old site is forwarded: it names the line at the new one (R474, step 4). -/
def Msg.move (o n : Nat) : Msg → Msg
  | .trans l w r d h => .trans (moveLine o n l) w r d h
  | .token l k own data d all src dst h => .token (moveLine o n l) k own data d all src dst h
  | .activate r l k d => .activate r (moveLine o n l) k d
  | m => m

/-- Every line of the old site is at the new one, whoever names it. -/
def State.moveLines (s : State) (o n : Nat) : State :=
  { s with
    mem := moveKeys siteBytes o n s.mem
    lost := moveKeys siteLines o n s.lost
    home := moveKeys siteLines o n s.home
    inbound := s.inbound.map fun w => (moveKey siteBytes o n w.1, w.2)
    moved := []
    net := s.net.map (Msg.move o n)
    stalls := s.stalls.map fun t => (t.1, t.2.move o n) }

/-- Step 2 of R474: every block of the stall is saved. -/
def State.saveForMove (s : State) (st : Nat) : State :=
  ((s.stall st).blocks st).foldl (fun s x => s.evictOne x.1) s

/-- Step 3: the die cache sends every token home. -/
def State.tokensHome (s : State) (st : Nat) : State :=
  ((s.stall st).dc.filter fun x => decide (1 ≤ x.2.t)).foldl (fun s x => s.dcSendAll st x.1 true (s.homeStall x.1) true) s

/-- Step 4: a line whose home holds all 64 tokens moves; for any other the home asks. -/
def State.moveHome (s : State) (st : Nat) : State :=
  (s.home.filter fun x => decide (x.1 / siteLines = s.siteOf st) && !s.moved.contains x.1).foldl (fun s x =>
    if (s.homeLine x.1).t = 64 then State.served { s with moved := s.moved ++ [x.1] } st x.1 true
    else s.askPersistent st x.1 .home) s

/-- Whether a site is a working spare. -/
def State.spareSite (s : State) (n : Nat) : Bool := n < 72 && mapBit s.fwd n && (s.stallAt n).isNone

/-- STALL_MOVE (R474, R475): each occurrence carries the move to a spare site as far as it goes now: the entry migrates and the
blocks are saved; the tokens go home and the lines move; then routes are rewritten and the entry names the new site. -/
def execStallMove (st site : Nat) (s : State) : Host.Outcome State Fault Refusal :=
  .next (if !s.spareSite site then s
    else if s.siteState st = 1 then
      State.saveForMove ((s.setSite st 2 (s.siteOf st)).modStall st fun t => { t with pausePlace := true }) st
    else if s.siteState st ≠ 2 then s
    else if !((s.stall st).blocks st).isEmpty then s.saveForMove st
    else
      let s := (s.tokensHome st).moveHome st
      let o := s.siteOf st
      if s.home.any fun x => decide (x.1 / siteLines = o) && !s.moved.contains x.1 then s
      else
        let s' := (s.moveLines o site).setSite st 1 site
        ((s'.mendRoutes s (fun w => if w = o then site else w) fun _ ws => ws.contains o).refillAll).modStall st fun t =>
          { t with pausePlace := false })

/-! ## Power (R476, R477) -/

/-- POWER_CAP_SET (R477): 4,000 to 21,800 W. -/
def execPowerCapSet (w : Nat) (s : State) : Host.Outcome State Fault Refusal :=
  .next (if 4000 ≤ w && w ≤ 21800 then { s with powerCap := w } else s)

/-- POWER_STEP_CHANGE (R476, R477): no step is faster than FLOOR allows. -/
def execPowerStepChange (st step : Nat) (s : State) : Host.Outcome State Fault Refusal :=
  .next (if step < 4 && field (s.stall st).pwr 1 0 ≤ step then
      s.modStall st fun t => { t with pwr := (t.pwr &&& ~~~0xF0) ||| BitVec.ofNat 64 (step * 16) }
    else s)

end Sys2Proof.Machine
end

