-- ==== Sys2Proof/Machine/Shade.lean ====
section
/-! DEFINITION. Rasterisation, pixel blocks and the back end (chapter 14, R385, R388 to R395). -/

set_option Elab.async false

namespace Sys2Proof.Machine

open Sys2Proof

/-! ## Memory of targets -/

/-- Write bytes within a line as a user-mode access of the stall. -/
def State.userStore (s : State) (st va : Nat) (bs : List Byte) : Except Nat State :=
  match s.translate st false (BitVec.ofNat 64 va) .write 1 0 with
  | .error c => .error c
  | .ok t =>
    if leafKind t.ent.leaf = 2 then .error 0x22
    else
      let s := s.unitTouch st false (BitVec.ofNat 64 va) .write bs.length 0
      .ok (match t.place with
        | .dev pa => s.bufferBytes st none pa bs
        | .mgmt off => s.mgmtStore st off bs
        | p => { (s.modStall st fun t => { t with posted := t.posted ++ [⟨s.nextId, none, p, bs⟩] }) with nextId := s.nextId + 1 })

/-- Read bytes as a user-mode access of the stall: the bytes and the machine after. -/
def State.userFetch (s : State) (st va n : Nat) : Except Nat (List Byte × State) :=
  (s.userRead st .read va n).map fun bs => (bs, s.userTouch st .read va n)

/-- Where sample k of a pixel lies in a plane of a pass (R373). -/
def planeAddr (d : List Byte) (base pitch z x y k : Nat) : Nat := base + k * pitch * pdHeight d + y * pitch + x * z

/-! ## Depth and stencil (R391) -/

/-- Apply a stencil operation to a sample. -/
def State.stencilAct (s : State) (st : Nat) (d : List Byte) (a code old : Nat) : Except Nat State :=
  if !pdFlag d 6 || code = 0 then .ok s
  else s.userStore st a (leBytes 1 (stencilWrite (pf d 44 1) old (stencilOp code (pf d 42 1) old)))

/-- The tests of one covered sample: the machine after, and whether the sample passes. A disabled stencil test applies no
operation (log 20). -/
def State.testSample (s : State) (st : Nat) (d : List Byte) (x y k : Nat) (depth : Word) : Except Nat (State × Bool) :=
  let sa := planeAddr d (pf d 56 8) (pf d 68 4) 1 x y k
  let da := planeAddr d (pf d 48 8) (pf d 64 4) 4 x y k
  let m := pf d 43 1
  let stored : Except Nat (Nat × State) := if pdFlag d 6 then (s.userFetch st sa 1).map fun x => (leNat x.1, x.2) else .ok (0, s)
  match stored with
  | .error c => .error c
  | .ok (sv, s) =>
    let a := pf d 42 1 &&& m
    let b := sv &&& m
    if pdFlag d 6 && !testFn (pf d 41 1) (a < b) (a = b) then
      (s.stencilAct st d sa (pf d 45 1) sv).map fun s => (s, false)
    else
      let depthOk : Except Nat (Bool × State) := if pdFlag d 4 then
          (s.userFetch st da 4).map fun x => (depthPass (pf d 40 1) (f32Num depth) (f32Num (BitVec.ofNat 32 (leNat x.1))), x.2)
        else .ok (true, s)
      match depthOk with
      | .error c => .error c
      | .ok (false, s) => (s.stencilAct st d sa (pf d 46 1) sv).map fun s => (s, false)
      | .ok (true, s) =>
        match s.stencilAct st d sa (pf d 47 1) sv with
        | .error c => .error c
        | .ok s =>
          if pdFlag d 5 then (s.userStore st da (leBytes 4 depth.toNat)).map fun s => (s, true) else .ok (s, true)

/-! ## Coverage and depth (R388, R389) -/

/-- The sample positions, in sixteenths of a pixel. -/
def samplePos (n k : Nat) : Nat × Nat :=
  match n with
  | 1 => (8, 8)
  | 2 => [(4, 4), (12, 12)].getD k (0, 0)
  | 4 => [(6, 2), (14, 6), (2, 10), (10, 14)].getD k (0, 0)
  | _ => [(9, 5), (7, 11), (13, 9), (5, 3), (3, 13), (1, 7), (11, 15), (15, 1)].getD k (0, 0)

/-- E of the edge from vertex i to vertex j at a point. -/
def edgeFn (p : Packet) (i j : Nat) (x y : Int) : Int :=
  (p.xs.getD j 0 - p.xs.getD i 0) * (y - p.ys.getD i 0) - (p.ys.getD j 0 - p.ys.getD i 0) * (x - p.xs.getD i 0)

/-- Whether a point lies inside an edge, by the top-left rule. -/
def edgeIn (p : Packet) (i j : Nat) (x y : Int) : Bool :=
  let e := edgeFn p i j x y
  let xa := p.xs.getD i 0
  let ya := p.ys.getD i 0
  let xb := p.xs.getD j 0
  let yb := p.ys.getD j 0
  0 < e || (e = 0 && ((ya = yb && xa < xb) || yb < ya))

/-- Whether a piece covers a point, its vertices taken in the order of positive area. -/
def Packet.covers (p : Packet) (x y : Int) : Bool :=
  let (b, c) := if 0 < area2 p.xs p.ys then (1, 2) else (2, 1)
  edgeIn p 0 b x y && edgeIn p b c x y && edgeIn p c 0 x y

/-- A barycentric at a point: the signed area of the sub-triangle opposite vertex i, over A. -/
def Packet.bary (p : Packet) (i : Nat) (x y : Int) : Num :=
  let a := area2 p.xs p.ys
  let e := match i with
    | 0 => edgeFn p 1 2 x y
    | 1 => edgeFn p 2 0 x y
    | _ => edgeFn p 0 1 x y
  Num.ofInt (if a < 0 then -e else e) a.natAbs

/-- The depth at a point. -/
def Packet.depthAt (p : Packet) (x y : Int) : Word :=
  rne32 ((List.range 3).foldl (fun acc i => nAdd acc (nMul (p.bary i x y) (f32Num (p.zn.getD i 0)))) .zero)

/-- A point of a pixel in 2^-8 pixels. -/
def pointOf (pix sixteenths : Nat) : Int := ((pix * 256 + sixteenths * 16 : Nat) : Int)

/-- The covered samples of a pixel, with their depths: none where the sample is not covered. -/
def Packet.samples (p : Packet) (d : List Byte) (x y : Nat) : List (Option Word) :=
  (List.range (pdSamples d)).map fun k =>
    let (sx, sy) := samplePos (pdSamples d) k
    let px := pointOf x sx
    let py := pointOf y sy
    if x < pdWidth d && y < pdHeight d && p.covers px py then
      let z := p.depthAt px py
      if below0 (f32Num z) || (nNat 1).lt (f32Num z) then none else some z
    else none

/-- The perspective weights l1 and l2 at a pixel's centre: where the quotient does not exist they are not stated, and are free
(log 20). -/
def Packet.weights (p : Packet) (x y k : Nat) : Word × Word :=
  let cx := pointOf x 8
  let cy := pointOf y 8
  let q (i : Nat) : Num := nDiv (p.bary i cx cy) (f32Num (p.w.getD i 0))
  let sum := nAdd (nAdd (q 0) (q 1)) (q 2)
  let bad : Bool := sum.isZero || sum.isInf || sum.isNan
  if bad then (lo32 (Config.freeWord k), hi32 (Config.freeWord k)) else (rne32 (nDiv (q 1) sum), rne32 (nDiv (q 2) sum))

/-! ## Rasterising a piece (R390, R391) -/

/-- A pixel of a quad after coverage and the early tests: position, mask, and a depth per sample. -/
structure Frag where
  x : Nat
  y : Nat
  mask : Nat
  depths : List Word
deriving DecidableEq, Repr

/-- Run the early tests of a pixel's samples. -/
def State.earlyTests (s : State) (st : Nat) (d : List Byte) (x y : Nat) : List (Nat × Option Word) → Except Nat (State × Nat)
  | [] => .ok (s, 0)
  | (_, none) :: t => s.earlyTests st d x y t
  | (k, some z) :: t =>
    if pdFlag d 0 then
      match s.testSample st d x y k z with
      | .error c => .error c
      | .ok (s, pass) => match s.earlyTests st d x y t with
        | .error c => .error c
        | .ok (s, m) => .ok (s, m + if pass then 2 ^ k else 0)
    else match s.earlyTests st d x y t with
      | .error c => .error c
      | .ok (s, m) => .ok (s, m + 2 ^ k)

/-- One pixel of a piece. -/
def State.rasterPixel (s : State) (st : Nat) (d : List Byte) (p : Packet) (x y : Nat) : Except Nat (State × Frag) :=
  let zs := p.samples d x y
  match s.earlyTests st d x y ((List.range zs.length).zip zs) with
  | .error c => .error c
  | .ok (s, m) => .ok (s, ⟨x, y, m, zs.map fun z => z.getD 0⟩)

/-- The four pixels of a quad, positions 0 to 3. -/
def State.rasterQuad (s : State) (st : Nat) (d : List Byte) (p : Packet) (x y : Nat) : Except Nat (State × List Frag) :=
  [(x, y), (x + 1, y), (x, y + 1), (x + 1, y + 1)].foldl (fun r (q : Nat × Nat) => match r with
    | .error c => .error c
    | .ok (s, fs) => match s.rasterPixel st d p q.1 q.2 with
      | .error c => .error c
      | .ok (s, f) => .ok (s, fs ++ [f])) (.ok (s, []))

/-- The quads of a pitch that a piece's bounding box reaches, by rows. -/
def Packet.quads (p : Packet) (pitch : Nat × Nat) : List (Nat × Nat) :=
  let near (lo hi : Int) (q : Nat) : Bool := lo ≤ ((256 * (q + 2) : Nat) : Int) && ((256 * q : Nat) : Int) ≤ hi
  ((List.range 32).filter fun j => near (minInt p.ys) (maxInt p.ys) (64 * pitch.2 + 2 * j)).flatMap fun j =>
    ((List.range 32).filter fun i => near (minInt p.xs) (maxInt p.xs) (64 * pitch.1 + 2 * i)).map fun i =>
      (64 * pitch.1 + 2 * i, 64 * pitch.2 + 2 * j)

/-- A piece rasterised in one pitch: its quads that have a covered pixel. -/
def State.rasterPitch (s : State) (st : Nat) (d : List Byte) (p : Packet) (pitch : Nat × Nat) : Except Nat (State × List (List Frag)) :=
  (p.quads pitch).foldl (fun r q => match r with
    | .error c => .error c
    | .ok (s, qs) => match s.rasterQuad st d p q.1 q.2 with
      | .error c => .error c
      | .ok (s, fs) => .ok (s, if fs.any fun f => f.mask ≠ 0 then qs ++ [fs] else qs)) (.ok (s, []))

/-- A quad of a group: its pitch, the number of its piece in the group, and its pixels. -/
structure Quad where
  pitch : Nat × Nat
  piece : Nat
  frags : List Frag
deriving DecidableEq, Repr

/-- Rasterise the pieces of a group in key order, on the pitches that the member owns. -/
def State.rasterGroup (s : State) (st : Nat) (p : Pass) (ps : List Packet) : Except Nat (State × List Quad) :=
  ((List.range ps.length).zip ps).foldl (fun r (x : Nat × Packet) =>
    ((x.2.pitches p.desc).filter fun y => pitchOwner p.owners y = st).foldl (fun r y => match r with
      | .error c => .error c
      | .ok (s, qs) => match s.rasterPitch st p.desc x.2 y with
        | .error c => .error c
        | .ok (s, fs) => .ok (s, qs ++ fs.map fun f => ⟨y, x.1, f⟩)) r) (.ok (s, []))

/-! ## Pixel blocks (R390) -/

/-- Cut a list into runs of at most n. -/
def chunksOf {α : Type} (n : Nat) : Nat → List α → List (List α)
  | 0, _ => []
  | fuel + 1, l => if l.isEmpty then [] else l.take n :: chunksOf n fuel (l.drop n)

/-- The quads of each block: of one pitch, from 64 consecutive pieces at most, and within the card's threads. A block's quads are
of one group (log 20). -/
def blockQuads (threads : Nat) (qs : List Quad) : List (List Quad) :=
  let keys := nub (qs.map fun q => (q.piece / 64, q.pitch))
  keys.flatMap fun k =>
    let mine := qs.filter fun q => (q.piece / 64, q.pitch) = k
    chunksOf (max 1 (threads / 4)) mine.length mine

/-- The registers of a pixel thread (R390). -/
def fragRegs (d : List Byte) (p : Packet) (j : Nat) (f : Frag) (k : Nat) : List Word :=
  let (l1, l2) := p.weights f.x f.y k
  let w (n : Nat) : Word := BitVec.ofNat 32 n
  [w f.x, w f.y, l1, l2, w (12 * pdAttr d * j), w f.mask, w ((if p.front then 1 else 0) + p.key / 2 ^ 32 % 2 ^ 24 * 256),
   p.depthAt (pointOf f.x 8) (pointOf f.y 8)]

/-- A pixel block of some quads: `ps` are the pieces of the group, and `k` numbers its free values. -/
def pixBlockOf (d : List Byte) (ps : List Packet) (index k : Nat) (qs : List Quad) : PixBlock :=
  let base := (match qs with
    | [] => 0
    | q :: _ => q.piece) / 64 * 64
  let last := (qs.map fun q => q.piece - base).foldl max 0
  { index := index
    attrs := (List.range (last + 1)).flatMap fun j => match ps[base + j]? with
      | some p => p.attrs.flatMap fun w => leBytes 4 w.toNat
      | none => []
    threads := (List.range qs.length).flatMap fun n => match qs[n]? with
      | none => []
      | some q => match ps[q.piece]? with
        | none => []
        | some p => (List.range 4).map fun i =>
          let f := q.frags.getD i ⟨0, 0, 0, []⟩
          (f.mask = 0, fragRegs d p (q.piece - base) f (k + 4 * n + i)) }

/-- The results that a block's threads owe the back end. -/
def shadedOf (ps : List Packet) (launch index : Nat) (qs : List Quad) : List Shaded :=
  (List.range qs.length).flatMap fun n => match qs[n]? with
    | none => []
    | some q => match ps[q.piece]? with
      | none => []
      | some p => (List.range 4).filterMap fun i =>
        let f := q.frags.getD i ⟨0, 0, 0, []⟩
        if f.mask = 0 then none
        else some ⟨p.key, f.x, f.y, f.mask, f.depths, (launch, index), 4 * n + i, false, none⟩

/-- Insert a result behind those of its key and below. -/
def addShaded (l : List Shaded) (x : Shaded) : List Shaded := insertBy (·.key) x l

/-- Form one pixel block at a member: its results are owed, and its launch is made from PCARD. -/
def State.formBlock (s : State) (st : Nat) (p : Pass) (ps : List Packet) (qs : List Quad) : State :=
  match s.livePass p.market with
  | none => s
  | some p' =>
    let index := (Tab.get Member.reset p'.members st).formed
    let y := pixBlockOf p.desc ps index s.free qs
    let s := State.modMember { s with free := s.free + 4 * qs.length } p.market st fun x =>
      { x with formed := index + 1, blocks := x.blocks ++ [y], shaded := (shadedOf ps s.nextId index qs).foldl addShaded x.shaded }
    s.passLaunch st p (.rpixel p.market) p.pcard index (index + 1)

/-! ## The frontier (R385) -/

/-- The frontier moves over draws whose groups are all released. -/
def Member.skipDraws (m : Member) : Nat → Member
  | 0 => m
  | n + 1 => match Tab.find? m.starts m.fdraw with
    | some c => if c ≤ m.fgroup then Member.skipDraws { m with fdraw := m.fdraw + 1, fgroup := 0 } n else m
    | none => m

/-- The token at the frontier, if its group is complete: its DONE and all its packets are there. -/
def Member.ready (m : Member) : Option Nat :=
  let tok := m.fdraw * 2 ^ 24 + m.fgroup
  match Tab.find? m.starts m.fdraw, m.dones.find? fun d => d.1 = tok with
  | some c, some d =>
    if m.fgroup < c && (m.packets.filter fun p => p.key / 256 = tok).length = d.2 then some tok else none
  | _, _ => none

/-- The packets of a group, in key order, and pieces of one triangle in fan order (R383). -/
def Member.groupPackets (m : Member) (tok : Nat) : List Packet :=
  (m.packets.filter fun p => p.key / 256 = tok).foldl (fun l p => insertBy (fun x => x.key * 8 + x.piece) p l) []

/-- Release one group at a member: it is rasterised, its blocks are formed, and the dealer hears of it. Where a read of a target waits
for a token, or PCARD's image does, the group is not released yet (R271). -/
def State.releaseGroup (s : State) (st : Nat) (p : Pass) (m : Member) (tok : Nat) : State :=
  let ps := m.groupPackets tok
  let before := s
  let s := s.modMember p.market st fun x =>
    { x with packets := x.packets.filter (fun y => y.key / 256 ≠ tok), dones := x.dones.filter (fun d => d.1 ≠ tok),
             fdraw := m.fdraw, fgroup := m.fgroup + 1 }
  match s.rasterGroup st p ps with
  | .error c => if isWait c then before.askFor st c else s.failPass p.market c
  | .ok (s, qs) => if s.cardWaits st p.pcard none then before.askCard st p.pcard none else
    let s := s.modMember p.market st fun x => { x with mark := s.nextId }
    let s := (blockQuads (lcThreads p.pcard) qs).foldl (fun s b => s.formBlock st p ps b) s
    { s with prims := s.prims ++ [.retired p.market tok st] }

/-- FRONTIER_RELEASE (R385): the group at the frontier of one of the stall's passes is released, or the frontier passes the end
of a draw. -/
def execFrontierRelease (st : Nat) (s : State) : Host.Outcome State Fault Refusal :=
  let moved (p : Pass) : Option Member := match p.aborted, Tab.find? p.members st with
    | none, some m =>
      let m' := m.skipDraws (m.starts.length + 1)
      if m'.fdraw ≠ m.fdraw || m'.ready.isSome then some m' else none
    | _, _ => none
  .next (match s.passes.find? fun p => (moved p).isSome with
    | none => s
    | some p => match moved p with
      | none => s
      | some m => match m.ready with
        | some tok => s.releaseGroup st p m tok
        | none => s.modMember p.market st fun x => { x with fdraw := m.fdraw, fgroup := m.fgroup })

/-! ## The back end (R394, R395) -/

/-- A depth given by pxo, clamped to [0, 1]; of a NaN the clamp is not stated, and is a free value (log 20). -/
def clampDepth (w : Word) (k : Nat) : Word :=
  let v := f32Num w
  if v.isNan then lo32 (Config.freeWord k) else if below0 v then 0 else if (nNat 1).lt v then one32 else w

/-- An output to a target. -/
def outOf (os : List Pxo) (n : Nat) : Option (List Word) := (os.find? fun o => o.n = n).map (·.vals)

/-- One target of one sample. -/
def State.applyTarget (s : State) (st : Nat) (d : List Byte) (x y k i : Nat) (o : List Word) : Except Nat State :=
  let t := pdTarget d i
  let z := pixBytes t.fmt
  let a := planeAddr d t.base t.pitch z x y k
  match s.userFetch st a z with
  | .error c => .error c
  | .ok (bs, s) =>
    let old := leNat bs
    let dv := pixDecode t.fmt old
    let num (l : List Word) (j : Nat) : Num := f32Num (l.getD j 0)
    let v := if t.blend % 2 = 0 then o
      else (List.range 4).map fun j => blendChannel (t.blend / 2) (t.fact % 16) (t.fact / 16) (num o 3) (num dv 3) (num o j) (num dv j)
    s.userStore st a (leBytes z (pixWrite t.fmt t.wmask old v))

/-- One sample of a thread's result. -/
def State.applySample (s : State) (st : Nat) (d : List Byte) (r : Shaded) (os : List Pxo) (k : Nat) : Except Nat State :=
  let z := match outOf os 4 with
    | some (w :: _) => clampDepth w s.free
    | _ => r.depths.getD k 0
  let s := { s with free := s.free + 1 }
  let tested : Except Nat (State × Bool) := if pdFlag d 0 then .ok (s, true) else s.testSample st d r.x r.y k z
  match tested with
  | .error c => .error c
  | .ok (s, false) => .ok s
  | .ok (s, true) => (List.range 4).foldl (fun acc i => match acc with
    | .error c => .error c
    | .ok s => match outOf os i with
      | some o => if (pdTarget d i).fmt = 0 then .ok s else s.applyTarget st d r.x r.y k i o
      | none => .ok s) (.ok s)

/-- A thread's result applied, sample by sample. -/
def State.applyShaded (s : State) (st : Nat) (d : List Byte) (r : Shaded) : Except Nat State :=
  match r.outs with
  | none => .ok s
  | some os => ((List.range (pdSamples d)).filter fun k => r.mask.testBit k).foldl (fun acc k => match acc with
    | .error c => .error c
    | .ok s => s.applySample st d r os k) (.ok s)

/-- BACK_END_APPLY (R394): the result with the lowest key is applied, once its thread has ended and the lines it reads are there. -/
def execBackEndApply (st : Nat) (s : State) : Host.Outcome State Fault Refusal :=
  let head (p : Pass) : Option Shaded := match p.aborted, Tab.find? p.members st with
    | none, some m => match m.shaded with
      | r :: _ => if r.ready then some r else none
      | [] => none
    | _, _ => none
  .next (match s.passes.find? fun p => (head p).isSome with
    | none => s
    | some p => match head p with
      | none => s
      | some r =>
        match (s.modMember p.market st fun x => { x with shaded := x.shaded.drop 1 }).applyShaded st p.desc r with
        | .error c => if isWait c then s.askFor st c
          else State.failPass (s.modMember p.market st fun x => { x with shaded := x.shaded.drop 1 }) p.market c
        | .ok s => s.modMember p.market st fun x => { x with mark := s.nextId })

end Sys2Proof.Machine
end

