-- ==== Sys2Proof/Machine/Bc.lean ====
section
/-! DEFINITION. The texels of BC1 to BC7 blocks (R397). The formats are those of their published specifications, which the spec names and does
not hold (PRESUMED, log 7). -/

set_option Elab.async false

namespace Sys2Proof.Machine

open Sys2Proof

/-- n bits of a block from bit lo on. -/
def blockBits (b lo n : Nat) : Nat := b / 2 ^ lo % 2 ^ n

/-- A fraction as a channel: rne(n / d, f32). -/
def fracWord (n d : Nat) : Word := rne32 (.fin false n d)

/-! ## BC1 to BC5 -/

/-- A channel of a 5:6:5 colour, and its greatest code. -/
def bcChannel (c ch : Nat) : Nat × Nat :=
  match ch with
  | 0 => (c / 2048, 31)
  | 1 => (c / 32 % 64, 63)
  | _ => (c % 32, 31)

/-- The weights of a colour block's two end colours for an index, and their sum; of no weight at all the sum is 1. -/
def bcMix (four : Bool) (k : Nat) : Nat × Nat × Nat :=
  match k with
  | 0 => (1, 0, 1)
  | 1 => (0, 1, 1)
  | 2 => if four then (2, 1, 3) else (1, 1, 2)
  | _ => if four then (1, 2, 3) else (0, 0, 1)

/-- The colour of texel i of an 8-byte colour block: four colours, always or where the first end is the greater; else three, and
transparent black. -/
def bcColour (b : Nat) (always : Bool) (i : Nat) : List Word :=
  let c0 := blockBits b 0 16
  let c1 := blockBits b 16 16
  let k := blockBits b (32 + 2 * i) 2
  let four : Bool := always || c1 < c0
  let (w0, w1, d) := bcMix four k
  (List.range 3).map (fun ch =>
    let (a0, m) := bcChannel c0 ch
    fracWord (w0 * a0 + w1 * (bcChannel c1 ch).1) (d * m)) ++ [if !four && k = 3 then 0 else one32]

/-- The value of texel i of an 8-byte block of one channel: eight steps between its ends, or six with 0 and 1. -/
def bcRamp (b i : Nat) : Word :=
  let r0 := blockBits b 0 8
  let r1 := blockBits b 8 8
  let k := blockBits b (16 + 3 * i) 3
  if k = 0 then fracWord r0 255
  else if k = 1 then fracWord r1 255
  else if r1 < r0 then fracWord ((8 - k) * r0 + (k - 1) * r1) (7 * 255)
  else if k < 6 then fracWord ((6 - k) * r0 + (k - 1) * r1) (5 * 255)
  else if k = 6 then 0
  else one32

/-! ## The partitions of BC6H and BC7 -/

/-- The two-subset partitions: two bits to a texel, texel 0 lowest. -/
def bcPairs : List Nat :=
  [0x50505050, 0x40404040, 0x54545454, 0x54505040, 0x50404000, 0x55545450, 0x55545040, 0x54504000,
     0x50400000, 0x55555450, 0x55544000, 0x54400000, 0x55555440, 0x55550000, 0x55555500, 0x55000000,
     0x55150100, 0x00004054, 0x15010000, 0x00405054, 0x00004050, 0x15050100, 0x05010000, 0x40505054,
     0x00404050, 0x05010100, 0x14141414, 0x05141450, 0x01155440, 0x00555500, 0x15014054, 0x05414150]
    ++ [0x44444444, 0x55005500, 0x11441144, 0x05055050, 0x05500550, 0x11114444, 0x41144114, 0x44111144,
     0x15055054, 0x01055040, 0x05041050, 0x05455150, 0x14414114, 0x50050550, 0x41411414, 0x00141400,
     0x00041504, 0x00105410, 0x10541000, 0x04150400, 0x50410514, 0x41051450, 0x05415014, 0x14054150,
     0x41050514, 0x41505014, 0x40011554, 0x54150140, 0x50505500, 0x00555050, 0x15151010, 0x54540404]

/-- The three-subset partitions. -/
def bcTriples : List Nat :=
  [0xAA685050, 0x6A5A5040, 0x5A5A4200, 0x5450A0A8, 0xA5A50000, 0xA0A05050, 0x5555A0A0, 0x5A5A5050,
     0xAA550000, 0xAA555500, 0xAAAA5500, 0x90909090, 0x94949494, 0xA4A4A4A4, 0xA9A59450, 0x2A0A4250,
     0xA5945040, 0x0A425054, 0xA5A5A500, 0x55A0A0A0, 0xA8A85454, 0x6A6A4040, 0xA4A45000, 0x1A1A0500,
     0x0050A4A4, 0xAAA59090, 0x14696914, 0x69691400, 0xA08585A0, 0xAA821414, 0x50A4A450, 0x6A5A0200]
    ++ [0xA9A58000, 0x5090A0A8, 0xA8A09050, 0x24242424, 0x00AA5500, 0x24924924, 0x24499224, 0x50A50A50,
     0x500AA550, 0xAAAA4444, 0x66660000, 0xA5A0A5A0, 0x50A050A0, 0x69286928, 0x44AAAA44, 0x66666600,
     0xAA444444, 0x54A854A8, 0x95809580, 0x96969600, 0xA85454A8, 0x80959580, 0xAA141414, 0x96960000,
     0xAAAA1414, 0xA05050A0, 0xA0A5A5A0, 0x96000000, 0x40804080, 0xA9A8A9A8, 0xAAAAAA44, 0x2A4A5254]

/-- The anchor texel of the second subset of a two-subset partition. -/
def bcPairAnchor : List Nat :=
  [15, 15, 15, 15, 15, 15, 15, 15, 15, 15, 15, 15, 15, 15, 15, 15,
     15, 2, 8, 2, 2, 8, 8, 15, 2, 8, 2, 2, 8, 8, 2, 2]
    ++ [15, 15, 6, 8, 2, 8, 15, 15, 2, 8, 2, 2, 2, 15, 15, 6,
     6, 2, 6, 8, 15, 15, 2, 2, 15, 15, 15, 15, 15, 2, 2, 15]

/-- The anchor texel of the second subset of a three-subset partition. -/
def bcTripleAnchor1 : List Nat :=
  [3, 3, 15, 15, 8, 3, 15, 15, 8, 8, 6, 6, 6, 5, 3, 3,
     3, 3, 8, 15, 3, 3, 6, 10, 5, 8, 8, 6, 8, 5, 15, 15]
    ++ [8, 15, 3, 5, 6, 10, 8, 15, 15, 3, 15, 5, 15, 15, 15, 15,
     3, 15, 5, 5, 5, 8, 5, 10, 5, 10, 8, 13, 15, 12, 3, 3]

/-- The anchor texel of the third subset. -/
def bcTripleAnchor2 : List Nat :=
  [15, 8, 8, 3, 15, 15, 3, 8, 15, 15, 15, 15, 15, 15, 15, 8,
     15, 8, 15, 3, 15, 8, 15, 8, 3, 15, 6, 10, 15, 15, 10, 8]
    ++ [15, 3, 15, 10, 10, 8, 9, 10, 6, 15, 8, 15, 3, 6, 6, 8,
     15, 3, 15, 15, 15, 15, 15, 15, 15, 15, 15, 15, 3, 15, 15, 8]

/-- The subset of a texel. -/
def bcSubset (subsets part i : Nat) : Nat :=
  match subsets with
  | 1 => 0
  | 2 => blockBits (bcPairs.getD part 0) (2 * i) 2
  | _ => blockBits (bcTriples.getD part 0) (2 * i) 2

/-- The anchor texels: their indices have one bit fewer. -/
def bcAnchors (subsets part : Nat) : List Nat :=
  match subsets with
  | 1 => [0]
  | 2 => [0, bcPairAnchor.getD part 0]
  | _ => [0, bcTripleAnchor1.getD part 0, bcTripleAnchor2.getD part 0]

/-- The index of texel i among indices of n bits that begin at bit `lo`. -/
def bcIndex (b lo n : Nat) (anchors : List Nat) (i : Nat) : Nat :=
  blockBits b (lo + n * i - (anchors.filter fun a => a < i).length) (if anchors.contains i then n - 1 else n)

/-- The weight, in 64ths, of an index of n bits. -/
def bcWeight (n k : Nat) : Nat :=
  (match n with
  | 2 => [0, 21, 43, 64]
  | 3 => [0, 9, 18, 27, 37, 46, 55, 64]
  | _ => [0, 4, 9, 13, 17, 21, 26, 30, 34, 38, 43, 47, 51, 55, 60, 64]).getD k 0

/-- Two ends mixed by a weight. -/
def bcLerp (a b w : Nat) : Nat := ((64 - w) * a + w * b + 32) / 64

/-! ## BC7 -/

/-- A mode of BC7. -/
structure Bc7Mode where
  subsets : Nat
  part : Nat
  rot : Nat
  sel : Nat
  colour : Nat
  alpha : Nat
  /-- One more low bit for each end, or for each subset. -/
  endBits : Nat
  setBits : Nat
  index : Nat
  index2 : Nat
deriving DecidableEq, Repr

/-- The eight modes. -/
def bc7Modes : List Bc7Mode :=
  [⟨3, 4, 0, 0, 4, 0, 1, 0, 3, 0⟩, ⟨2, 6, 0, 0, 6, 0, 0, 1, 3, 0⟩, ⟨3, 6, 0, 0, 5, 0, 0, 0, 2, 0⟩, ⟨2, 6, 0, 0, 7, 0, 1, 0, 2, 0⟩,
   ⟨1, 0, 2, 1, 5, 6, 0, 0, 2, 3⟩, ⟨1, 0, 2, 0, 7, 8, 0, 0, 2, 2⟩, ⟨1, 0, 0, 0, 7, 7, 1, 0, 4, 0⟩, ⟨2, 6, 0, 0, 5, 5, 1, 0, 2, 0⟩]

/-- A code of w bits, 4 to 8, widened to 8 by its own high bits. -/
def widen8 (w v : Nat) : Nat := v * 2 ^ (8 - w) + v / 2 ^ (2 * w - 8)

/-- A channel of an end of a mode whose colour bits begin at bit `lo`: 8 bits. -/
def Bc7Mode.endAt (m : Bc7Mode) (b lo e ch : Nat) : Nat :=
  let n := 2 * m.subsets
  let w := if ch = 3 then m.alpha else m.colour
  let v := blockBits b (if ch = 3 then lo + 3 * m.colour * n + m.alpha * e else lo + m.colour * (ch * n + e)) w
  let p := lo + (3 * m.colour + m.alpha) * n
  if ch = 3 && m.alpha = 0 then 255
  else if m.endBits = 1 then widen8 (w + 1) (2 * v + blockBits b (p + e) 1)
  else if m.setBits = 1 then widen8 (w + 1) (2 * v + blockBits b (p + e / 2) 1)
  else widen8 w v

/-- Texel i of a BC7 block; a block of no mode is transparent black. -/
def bc7Texel (b i : Nat) : List Word :=
  match (List.range 8).find? fun k => b.testBit k with
  | none => [0, 0, 0, 0]
  | some mode =>
    let m := bc7Modes.getD mode ⟨1, 0, 0, 0, 7, 7, 1, 0, 4, 0⟩
    let p0 := mode + 1
    let part := blockBits b p0 m.part
    let rot := blockBits b (p0 + m.part) m.rot
    let sel := blockBits b (p0 + m.part + m.rot) m.sel
    let lo := p0 + m.part + m.rot + m.sel
    let n := 2 * m.subsets
    let x := lo + (3 * m.colour + m.alpha) * n + m.endBits * n + m.setBits * m.subsets
    let first := bcWeight m.index (bcIndex b x m.index (bcAnchors m.subsets part) i)
    let second := if m.index2 = 0 then first
      else bcWeight m.index2 (bcIndex b (x + 16 * m.index - 1) m.index2 [0] i)
    let s := bcSubset m.subsets part i
    let mix (ch w : Nat) : Nat := bcLerp (m.endAt b lo (2 * s) ch) (m.endAt b lo (2 * s + 1) ch) w
    let (cw, aw) := if sel = 1 then (second, first) else (first, second)
    let v := [mix 0 cw, mix 1 cw, mix 2 cw, mix 3 aw]
    (List.range 4).map fun ch =>
      fracWord (v.getD (if rot = 0 then ch else if ch = 3 then rot - 1 else if ch = rot - 1 then 3 else ch) 0) 255

/-! ## BC6H, unsigned -/

/-- A mode of BC6H: the bits of the base, those of the other ends by channel, whether those are differences, the subsets, and where the
bits of the ends stand after the mode: end, channel, lowest bit and number of bits of each run. -/
structure Bc6Mode where
  base : Nat
  rest : List Nat
  diff : Bool
  subsets : Nat
  runs : List (Nat × Nat × Nat × Nat)
deriving DecidableEq, Repr

/-- Mode 00. -/
def bc6M00 : Bc6Mode := ⟨10, [5, 5, 5], true, 2,
  [(2, 1, 4, 1), (2, 2, 4, 1), (3, 2, 4, 1), (0, 0, 0, 10), (0, 1, 0, 10), (0, 2, 0, 10), (1, 0, 0, 5), (3, 1, 4, 1), (2, 1, 0, 4),
   (1, 1, 0, 5), (3, 2, 0, 1), (3, 1, 0, 4), (1, 2, 0, 5), (3, 2, 1, 1), (2, 2, 0, 4), (2, 0, 0, 5), (3, 2, 2, 1), (3, 0, 0, 5),
   (3, 2, 3, 1)]⟩
/-- Mode 01. -/
def bc6M01 : Bc6Mode := ⟨7, [6, 6, 6], true, 2,
  [(2, 1, 5, 1), (3, 1, 4, 1), (3, 1, 5, 1), (0, 0, 0, 7), (3, 2, 0, 1), (3, 2, 1, 1), (2, 2, 4, 1), (0, 1, 0, 7), (2, 2, 5, 1),
   (3, 2, 2, 1), (2, 1, 4, 1), (0, 2, 0, 7), (3, 2, 3, 1), (3, 2, 5, 1), (3, 2, 4, 1), (1, 0, 0, 6), (2, 1, 0, 4), (1, 1, 0, 6),
   (3, 1, 0, 4), (1, 2, 0, 6), (2, 2, 0, 4), (2, 0, 0, 6), (3, 0, 0, 6)]⟩
/-- Mode 00010. -/
def bc6M00010 : Bc6Mode := ⟨11, [5, 4, 4], true, 2,
  [(0, 0, 0, 10), (0, 1, 0, 10), (0, 2, 0, 10), (1, 0, 0, 5), (0, 0, 10, 1), (2, 1, 0, 4), (1, 1, 0, 4), (0, 1, 10, 1), (3, 2, 0, 1),
   (3, 1, 0, 4), (1, 2, 0, 4), (0, 2, 10, 1), (3, 2, 1, 1), (2, 2, 0, 4), (2, 0, 0, 5), (3, 2, 2, 1), (3, 0, 0, 5), (3, 2, 3, 1)]⟩
/-- Mode 00110. -/
def bc6M00110 : Bc6Mode := ⟨11, [4, 5, 4], true, 2,
  [(0, 0, 0, 10), (0, 1, 0, 10), (0, 2, 0, 10), (1, 0, 0, 4), (0, 0, 10, 1), (3, 1, 4, 1), (2, 1, 0, 4), (1, 1, 0, 5), (0, 1, 10, 1),
   (3, 1, 0, 4), (1, 2, 0, 4), (0, 2, 10, 1), (3, 2, 1, 1), (2, 2, 0, 4), (2, 0, 0, 4), (3, 2, 0, 1), (3, 2, 2, 1), (3, 0, 0, 4),
   (2, 1, 4, 1), (3, 2, 3, 1)]⟩
/-- Mode 01010. -/
def bc6M01010 : Bc6Mode := ⟨11, [4, 4, 5], true, 2,
  [(0, 0, 0, 10), (0, 1, 0, 10), (0, 2, 0, 10), (1, 0, 0, 4), (0, 0, 10, 1), (2, 2, 4, 1), (2, 1, 0, 4), (1, 1, 0, 4), (0, 1, 10, 1),
   (3, 2, 0, 1), (3, 1, 0, 4), (1, 2, 0, 5), (0, 2, 10, 1), (2, 2, 0, 4), (2, 0, 0, 4), (3, 2, 1, 1), (3, 2, 2, 1), (3, 0, 0, 4),
   (3, 2, 4, 1), (3, 2, 3, 1)]⟩
/-- Mode 01110. -/
def bc6M01110 : Bc6Mode := ⟨9, [5, 5, 5], true, 2,
  [(0, 0, 0, 9), (2, 2, 4, 1), (0, 1, 0, 9), (2, 1, 4, 1), (0, 2, 0, 9), (3, 2, 4, 1), (1, 0, 0, 5), (3, 1, 4, 1), (2, 1, 0, 4),
   (1, 1, 0, 5), (3, 2, 0, 1), (3, 1, 0, 4), (1, 2, 0, 5), (3, 2, 1, 1), (2, 2, 0, 4), (2, 0, 0, 5), (3, 2, 2, 1), (3, 0, 0, 5),
   (3, 2, 3, 1)]⟩
/-- Mode 10010. -/
def bc6M10010 : Bc6Mode := ⟨8, [6, 5, 5], true, 2,
  [(0, 0, 0, 8), (3, 1, 4, 1), (2, 2, 4, 1), (0, 1, 0, 8), (3, 2, 2, 1), (2, 1, 4, 1), (0, 2, 0, 8), (3, 2, 3, 1), (3, 2, 4, 1),
   (1, 0, 0, 6), (2, 1, 0, 4), (1, 1, 0, 5), (3, 2, 0, 1), (3, 1, 0, 4), (1, 2, 0, 5), (3, 2, 1, 1), (2, 2, 0, 4), (2, 0, 0, 6),
   (3, 0, 0, 6)]⟩
/-- Mode 10110. -/
def bc6M10110 : Bc6Mode := ⟨8, [5, 6, 5], true, 2,
  [(0, 0, 0, 8), (3, 2, 0, 1), (2, 2, 4, 1), (0, 1, 0, 8), (2, 1, 5, 1), (2, 1, 4, 1), (0, 2, 0, 8), (3, 1, 5, 1), (3, 2, 4, 1),
   (1, 0, 0, 5), (3, 1, 4, 1), (2, 1, 0, 4), (1, 1, 0, 6), (3, 1, 0, 4), (1, 2, 0, 5), (3, 2, 1, 1), (2, 2, 0, 4), (2, 0, 0, 5),
   (3, 2, 2, 1), (3, 0, 0, 5), (3, 2, 3, 1)]⟩
/-- Mode 11010. -/
def bc6M11010 : Bc6Mode := ⟨8, [5, 5, 6], true, 2,
  [(0, 0, 0, 8), (3, 2, 1, 1), (2, 2, 4, 1), (0, 1, 0, 8), (2, 2, 5, 1), (2, 1, 4, 1), (0, 2, 0, 8), (3, 2, 5, 1), (3, 2, 4, 1),
   (1, 0, 0, 5), (3, 1, 4, 1), (2, 1, 0, 4), (1, 1, 0, 5), (3, 2, 0, 1), (3, 1, 0, 4), (1, 2, 0, 6), (2, 2, 0, 4), (2, 0, 0, 5),
   (3, 2, 2, 1), (3, 0, 0, 5), (3, 2, 3, 1)]⟩
/-- Mode 11110. -/
def bc6M11110 : Bc6Mode := ⟨6, [6, 6, 6], false, 2,
  [(0, 0, 0, 6), (3, 1, 4, 1), (3, 2, 0, 1), (3, 2, 1, 1), (2, 2, 4, 1), (0, 1, 0, 6), (2, 1, 5, 1), (2, 2, 5, 1), (3, 2, 2, 1),
   (2, 1, 4, 1), (0, 2, 0, 6), (3, 1, 5, 1), (3, 2, 3, 1), (3, 2, 5, 1), (3, 2, 4, 1), (1, 0, 0, 6), (2, 1, 0, 4), (1, 1, 0, 6),
   (3, 1, 0, 4), (1, 2, 0, 6), (2, 2, 0, 4), (2, 0, 0, 6), (3, 0, 0, 6)]⟩
/-- Mode 00011. -/
def bc6M00011 : Bc6Mode := ⟨10, [10, 10, 10], false, 1,
  [(0, 0, 0, 10), (0, 1, 0, 10), (0, 2, 0, 10), (1, 0, 0, 10), (1, 1, 0, 10), (1, 2, 0, 10)]⟩
/-- Mode 00111. -/
def bc6M00111 : Bc6Mode := ⟨11, [9, 9, 9], true, 1,
  [(0, 0, 0, 10), (0, 1, 0, 10), (0, 2, 0, 10), (1, 0, 0, 9), (0, 0, 10, 1), (1, 1, 0, 9), (0, 1, 10, 1), (1, 2, 0, 9), (0, 2, 10, 1)]⟩
/-- Mode 01011. -/
def bc6M01011 : Bc6Mode := ⟨12, [8, 8, 8], true, 1,
  [(0, 0, 0, 10), (0, 1, 0, 10), (0, 2, 0, 10), (1, 0, 0, 8), (0, 0, 11, 1), (0, 0, 10, 1), (1, 1, 0, 8), (0, 1, 11, 1), (0, 1, 10, 1),
   (1, 2, 0, 8), (0, 2, 11, 1), (0, 2, 10, 1)]⟩
/-- Mode 01111. -/
def bc6M01111 : Bc6Mode := ⟨16, [4, 4, 4], true, 1,
  [(0, 0, 0, 10), (0, 1, 0, 10), (0, 2, 0, 10), (1, 0, 0, 4), (0, 0, 15, 1), (0, 0, 14, 1), (0, 0, 13, 1), (0, 0, 12, 1), (0, 0, 11, 1),
   (0, 0, 10, 1), (1, 1, 0, 4), (0, 1, 15, 1), (0, 1, 14, 1), (0, 1, 13, 1), (0, 1, 12, 1), (0, 1, 11, 1), (0, 1, 10, 1), (1, 2, 0, 4),
   (0, 2, 15, 1), (0, 2, 14, 1), (0, 2, 13, 1), (0, 2, 12, 1), (0, 2, 11, 1), (0, 2, 10, 1)]⟩

/-- The mode of a block: two bits, or five. -/
def bc6Mode (b : Nat) : Option Bc6Mode :=
  if blockBits b 0 2 < 2 then (if b % 2 = 0 then some bc6M00 else some bc6M01)
  else match blockBits b 0 5 with
  | 0b00010 => some bc6M00010
  | 0b00110 => some bc6M00110
  | 0b01010 => some bc6M01010
  | 0b01110 => some bc6M01110
  | 0b10010 => some bc6M10010
  | 0b10110 => some bc6M10110
  | 0b11010 => some bc6M11010
  | 0b11110 => some bc6M11110
  | 0b00011 => some bc6M00011
  | 0b00111 => some bc6M00111
  | 0b01011 => some bc6M01011
  | 0b01111 => some bc6M01111
  | _ => none

/-- The bits of an end's channel. -/
def Bc6Mode.raw (m : Bc6Mode) (b e ch : Nat) : Nat :=
  (m.runs.foldl (fun (acc : Nat × Nat) r =>
    (acc.1 + r.2.2.2, if r.1 = e && r.2.1 = ch then acc.2 + blockBits b acc.1 r.2.2.2 * 2 ^ r.2.2.1 else acc.2))
    (if m.base = 7 || (m.base = 10 && m.subsets = 2) then 2 else 5, 0)).2

/-- An end's channel, and its value on the scale of 16 bits. -/
def Bc6Mode.endAt (m : Bc6Mode) (b e ch : Nat) : Nat :=
  let r := m.raw b e ch
  let w := m.rest.getD ch 0
  let v := if e = 0 || !m.diff then r
    else (m.raw b 0 ch + 2 ^ m.base + r - (if 2 ^ (w - 1) ≤ r then 2 ^ w else 0)) % 2 ^ m.base
  if 15 ≤ m.base || v = 0 then v else if v = 2 ^ m.base - 1 then 0xFFFF else (v * 2 ^ 16 + 0x8000) / 2 ^ m.base

/-- Texel i of a BC6H block; one of no mode is black. -/
def bc6Texel (b i : Nat) : List Word :=
  match bc6Mode b with
  | none => [0, 0, 0, one32]
  | some m =>
    let part := if m.subsets = 2 then blockBits b 77 5 else 0
    let (lo, n) := if m.subsets = 2 then (82, 3) else (65, 4)
    let w := bcWeight n (bcIndex b lo n (bcAnchors m.subsets part) i)
    let s := bcSubset m.subsets part i
    (List.range 3).map (fun ch => halfRead (bcLerp (m.endAt b (2 * s) ch) (m.endAt b (2 * s + 1) ch) w * 31 / 64)) ++ [one32]

/-! ## Texels -/

/-- Texel (x, y) of a block of a BC format (R397). -/
def bcTexel (fmt b x y : Nat) : List Word :=
  let i := 4 * y + x
  match fmt with
  | 0x11 => bcColour b false i
  | 0x12 => (bcColour (b / 2 ^ 64) true i).take 3 ++ [fracWord (blockBits b (4 * i) 4) 15]
  | 0x13 => (bcColour (b / 2 ^ 64) true i).take 3 ++ [bcRamp (b % 2 ^ 64) i]
  | 0x14 => [bcRamp b i, 0, 0, one32]
  | 0x15 => [bcRamp (b % 2 ^ 64) i, bcRamp (b / 2 ^ 64) i, 0, one32]
  | 0x16 => bc6Texel b i
  | _ => bc7Texel b i

end Sys2Proof.Machine
end

