-- ==== Sys2Proof/Machine/Astc.lean ====
section
/-! DEFINITION. The texels of ASTC blocks under the LDR profile (R397). The format is that of its published specification, which the spec names
and does not hold (PRESUMED, log 7). -/

set_option Elab.async false

namespace Sys2Proof.Machine

open Sys2Proof

/-! ## Integer sequences -/

/-- How the values of a sequence are held: bits alone (0), a digit of three (3) or of five (5) above bits; and how many bits. -/
abbrev Ise := Nat × Nat

/-- The bits of a sequence of n values. -/
def Ise.size (r : Ise) (n : Nat) : Nat :=
  (match r.1 with
  | 3 => (8 * n + 4) / 5
  | 5 => (7 * n + 2) / 3
  | _ => 0) + n * r.2

/-- The five digits of three that a code of 8 bits holds. -/
def tritDigits (t : Nat) : List Nat :=
  let f (lo n : Nat) : Nat := blockBits t lo n
  let (c, t3, t4) : Nat × Nat × Nat :=
    if f 2 3 = 7 then (f 5 3 * 4 + f 0 2, 2, 2)
    else if f 5 2 = 3 then (f 0 5, f 7 1, 2) else (f 0 5, f 5 2, f 7 1)
  let b (i : Nat) : Nat := blockBits c i 1
  (if c % 4 = 3 then [b 3 * 2 + b 2 * (1 - b 3), b 4, 2]
  else if c / 4 % 4 = 3 then [c % 4, 2, 2]
  else [b 1 * 2 + b 0 * (1 - b 1), c / 4 % 4, b 4]) ++ [t3, t4]

/-- The three digits of five that a code of 7 bits holds. -/
def quintDigits (q : Nat) : List Nat :=
  let f (lo n : Nat) : Nat := blockBits q lo n
  if f 1 2 = 3 && f 5 2 = 0 then [4, 4, f 0 1 * 4 + f 4 1 * (1 - f 0 1) * 2 + f 3 1 * (1 - f 0 1)]
  else
    let (c, q2) : Nat × Nat := if f 1 2 = 3 then (f 3 2 * 8 + (3 - f 5 2) * 2 + f 0 1, 4) else (f 0 5, f 5 2)
    if c % 8 = 5 then [c / 8 % 4, 4, q2] else [c % 8, c / 8 % 4, q2]

/-- Value i of a sequence: its digit and its bits. The digits of a group stand among its bits. -/
def Ise.value (r : Ise) (v i : Nat) : Nat × Nat :=
  let b := r.2
  match r.1 with
  | 3 =>
    let g := i / 5 * (8 + 5 * b)
    let at' (o n : Nat) : Nat := blockBits v (g + o) n
    let t := at' b 2 + at' (2 * b + 2) 2 * 4 + at' (3 * b + 4) 1 * 16 + at' (4 * b + 5) 2 * 32 + at' (5 * b + 7) 1 * 128
    ((tritDigits t).getD (i % 5) 0, at' ([0, b + 2, 2 * b + 4, 3 * b + 5, 4 * b + 7].getD (i % 5) 0) b)
  | 5 =>
    let g := i / 3 * (7 + 3 * b)
    let at' (o n : Nat) : Nat := blockBits v (g + o) n
    let q := at' b 3 + at' (2 * b + 3) 2 * 8 + at' (3 * b + 5) 2 * 32
    ((quintDigits q).getD (i % 3) 0, at' ([0, b + 3, 2 * b + 5].getD (i % 3) 0) b)
  | _ => (0, blockBits v (b * i) b)

/-- The bits of a value laid out by a pattern, the highest place first: place k > 0 is bit k, place 0 is clear. -/
def spread (m : Nat) (places : List Nat) : Nat := places.foldl (fun v k => v * 2 + (if k = 0 then 0 else blockBits m k 1)) 0

/-- A code of n bits repeated downward to w bits. -/
def replicateBits (n w v : Nat) : Nat := (List.range w).foldl (fun acc i => acc * 2 + (if v.testBit (n - 1 - i % n) then 1 else 0)) 0

/-- A digit and bits unquantised: a step for each digit plus the spread bits, all turned over where bit 0 is set; the top bit of the turn is
kept and two low bits are dropped. -/
def unquant (w step digit m : Nat) (places : List Nat) : Nat :=
  let turn := if m % 2 = 1 then 2 ^ w - 1 else 0
  let t := (digit * step + spread m places) ^^^ turn
  t / 4 ||| (turn &&& 2 ^ (w - 2))

/-- A colour value, 0 to 255. -/
def Ise.colour (r : Ise) (x : Nat × Nat) : Nat :=
  match r with
  | (3, 1) => unquant 9 204 x.1 x.2 []
  | (3, 2) => unquant 9 93 x.1 x.2 [1, 0, 0, 0, 1, 0, 1, 1, 0]
  | (3, 3) => unquant 9 44 x.1 x.2 [2, 1, 0, 0, 0, 2, 1, 2, 1]
  | (3, 4) => unquant 9 22 x.1 x.2 [3, 2, 1, 0, 0, 0, 3, 2, 1]
  | (3, 5) => unquant 9 11 x.1 x.2 [4, 3, 2, 1, 0, 0, 0, 4, 3]
  | (3, _) => unquant 9 5 x.1 x.2 [5, 4, 3, 2, 1, 0, 0, 0, 5]
  | (5, 1) => unquant 9 113 x.1 x.2 []
  | (5, 2) => unquant 9 54 x.1 x.2 [1, 0, 0, 0, 0, 1, 1, 0, 0]
  | (5, 3) => unquant 9 26 x.1 x.2 [2, 1, 0, 0, 0, 0, 2, 1, 2]
  | (5, 4) => unquant 9 13 x.1 x.2 [3, 2, 1, 0, 0, 0, 0, 3, 2]
  | (5, _) => unquant 9 6 x.1 x.2 [4, 3, 2, 1, 0, 0, 0, 0, 4]
  | (_, n) => replicateBits n 8 x.2

/-- A weight, 0 to 64. -/
def Ise.weight (r : Ise) (x : Nat × Nat) : Nat :=
  let w := match r with
    | (3, 0) => [0, 32, 63].getD x.1 0
    | (5, 0) => [0, 16, 32, 47, 63].getD x.1 0
    | (3, 1) => unquant 7 50 x.1 x.2 []
    | (3, 2) => unquant 7 23 x.1 x.2 [1, 0, 0, 0, 1, 0, 1]
    | (3, _) => unquant 7 11 x.1 x.2 [2, 1, 0, 0, 0, 2, 1]
    | (5, 1) => unquant 7 28 x.1 x.2 []
    | (5, _) => unquant 7 13 x.1 x.2 [1, 0, 0, 0, 0, 1, 0]
    | (_, n) => replicateBits n 6 x.2
  if 32 < w then w + 1 else w

/-! ## The block mode -/

/-- What the block mode says: the weight grid, how weights are held, and whether there are two planes. -/
structure AstcMode where
  width : Nat
  height : Nat
  range : Ise
  dual : Bool
deriving DecidableEq, Repr

/-- How weights are held, by the range code, with or without the high-precision bit. -/
def weightRange (high : Bool) (r : Nat) : Ise :=
  (if high then [(5, 1), (3, 2), (0, 4), (5, 2), (3, 3), (0, 5)] else [(0, 1), (3, 0), (0, 2), (5, 0), (3, 1), (0, 3)]).getD (r - 2) (0, 1)

/-- The grid of a block mode, its range code, and whether the bits 9 and 10 belong to the grid instead. -/
def astcGrid (b : Nat) : Option (Nat × Nat × Nat × Bool) :=
  let a := blockBits b 5 2
  let h := blockBits b 7 2
  if blockBits b 0 2 ≠ 0 then
    let r := blockBits b 0 2 * 2 + blockBits b 4 1
    match blockBits b 2 2 with
    | 0 => some (h + 4, a + 2, r, false)
    | 1 => some (h + 8, a + 2, r, false)
    | 2 => some (a + 2, h + 8, r, false)
    | _ => if h < 2 then some (a + 2, h + 6, r, false) else some (h - 2 + 2, a + 2, r, false)
  else if blockBits b 2 2 = 0 then none
  else
    let r := blockBits b 2 2 * 2 + blockBits b 4 1
    match h with
    | 0 => some (12, a + 2, r, false)
    | 1 => some (a + 2, 12, r, false)
    | 2 => some (a + 6, blockBits b 9 2 + 6, r, true)
    | _ => if a = 0 then some (6, 10, r, false) else if a = 1 then some (10, 6, r, false) else none

/-- The block mode, where it is a valid one for blocks of bw × bh texels. -/
def astcMode (b bw bh : Nat) : Option AstcMode :=
  match astcGrid b with
  | none => none
  | some (w, h, r, taken) =>
    let range := weightRange (!taken && b.testBit 9) r
    let dual : Bool := !taken && b.testBit 10
    let n := if dual then 2 * w * h else w * h
    if r < 2 || bw < w || bh < h || 64 < n || range.size n < 24 || 96 < range.size n then none else some ⟨w, h, range, dual⟩

/-! ## Weights -/

/-- The block read from its last bit backward. -/
def astcReversed (b : Nat) : Nat := (List.range 128).foldl (fun v i => v * 2 + (if b.testBit i then 1 else 0)) 0

/-- The number of weights. -/
def AstcMode.count (m : AstcMode) : Nat := if m.dual then 2 * m.width * m.height else m.width * m.height

/-- A weight of the grid in a plane. -/
def AstcMode.gridWeight (m : AstcMode) (b plane k : Nat) : Nat :=
  let v := astcReversed b % 2 ^ m.range.size m.count
  m.range.weight (m.range.value v (if m.dual then 2 * k + plane else k))

/-- The weight of a texel in a plane: the grid's four nearest, mixed. -/
def AstcMode.weightAt (m : AstcMode) (b bw bh plane x y : Nat) : Nat :=
  let scaled (dim at' grid : Nat) : Nat := ((1024 + dim / 2) / (dim - 1) * at' * (grid - 1) + 32) / 64
  let gs := scaled bw x m.width
  let gt := scaled bh y m.height
  let fs := gs % 16
  let ft := gt % 16
  let w11 := (fs * ft + 8) / 16
  let k := gs / 16 + gt / 16 * m.width
  let g (i w : Nat) : Nat := if w = 0 then 0 else m.gridWeight b plane i * w
  (g k (16 + w11 - fs - ft) + g (k + 1) (fs - w11) + g (k + m.width) (ft - w11) + g (k + m.width + 1) w11 + 8) / 16

/-! ## Partitions -/

/-- The hash of a partition's number, modulo 2^32. -/
def astcHash (p : BitVec 32) : BitVec 32 :=
  let p := p ^^^ (p >>> 15)
  let p := p - (p <<< 17)
  let p := p + (p <<< 7)
  let p := p + (p <<< 4)
  let p := p ^^^ (p >>> 5)
  let p := p + (p <<< 16)
  let p := p ^^^ (p >>> 7)
  let p := p ^^^ (p >>> 3)
  let p := p ^^^ (p <<< 6)
  p ^^^ (p >>> 17)

/-- The partition of a texel. -/
def astcPartition (seed parts bw bh x y : Nat) : Nat :=
  if parts = 1 then 0
  else
    let small : Bool := bw * bh < 31
    let x := if small then 2 * x else x
    let y := if small then 2 * y else y
    let r := (astcHash (BitVec.ofNat 32 (seed + (parts - 1) * 1024))).toNat
    let byPlace := if seed.testBit 1 then 4 else 5
    let byCount := if parts = 3 then 6 else 5
    let (sx, sy) := if seed.testBit 0 then (byPlace, byCount) else (byCount, byPlace)
    let s (lo sh : Nat) : Nat := (blockBits r lo 4) ^ 2 / 2 ^ sh
    let a := (s 0 sx * x + s 4 sy * y + r / 2 ^ 14) % 64
    let b := (s 8 sx * x + s 12 sy * y + r / 2 ^ 10) % 64
    let c := if parts < 3 then 0 else (s 16 sx * x + s 20 sy * y + r / 2 ^ 6) % 64
    let d := if parts < 4 then 0 else (s 24 sx * x + s 28 sy * y + r / 2 ^ 2) % 64
    if b ≤ a && c ≤ a && d ≤ a then 0 else if c ≤ b && d ≤ b then 1 else if d ≤ c then 2 else 3

/-! ## Colours -/

/-- How colour values may be held, the widest range last. -/
def colourRanges : List Ise :=
  [(3, 1), (0, 3), (5, 1), (3, 2), (0, 4), (5, 2), (3, 3), (0, 5), (5, 3), (3, 4), (0, 6), (5, 4), (3, 5), (0, 7), (5, 5), (3, 6), (0, 8)]

/-- An offset of 6 bits with its sign, and the base that takes the offset's top bit. -/
def signOffset (off base : Nat) : Int × Nat :=
  let o := off / 2 % 64
  (if 32 ≤ o then (o : Int) - 64 else o, base / 2 + (if 128 ≤ off then 128 else 0))

/-- Clamped to 8 bits. -/
def clamp8 (v : Int) : Nat := min 255 v.toNat

/-- Blue contraction of a colour. -/
def contracted (c : List Int) : List Int :=
  [(c.getD 0 0 + c.getD 2 0) / 2, (c.getD 1 0 + c.getD 2 0) / 2, c.getD 2 0, c.getD 3 0]

/-- The two ends of a partition from its values by its mode; none for a mode of high dynamic range. -/
def astcEnds (mode : Nat) (v : List Nat) : Option (List Nat × List Nat) :=
  let n (i : Nat) : Int := ((v.getD i 0 : Nat) : Int)
  let o (i : Nat) : Int := (signOffset (v.getD (i + 1) 0) (v.getD i 0)).1
  let base (i : Nat) : Int := (((signOffset (v.getD (i + 1) 0) (v.getD i 0)).2 : Nat) : Int)
  let ends (a b : List Int) : Option (List Nat × List Nat) := some (a.map clamp8, b.map clamp8)
  let scaled (i : Nat) : Int := ((v.getD i 0 * v.getD 3 0 / 256 : Nat) : Int)
  let direct (a0 a1 : Int) : Option (List Nat × List Nat) :=
    let e := [n 0, n 2, n 4, a0]
    let f := [n 1, n 3, n 5, a1]
    if n 0 + n 2 + n 4 ≤ n 1 + n 3 + n 5 then ends e f else ends (contracted f) (contracted e)
  let based (a0 a1 : Int) : Option (List Nat × List Nat) :=
    let e := [base 0, base 2, base 4, a0]
    let f := [base 0 + o 0, base 2 + o 2, base 4 + o 4, a1]
    if 0 ≤ o 0 + o 2 + o 4 then ends e f else ends (contracted f) (contracted e)
  match mode with
  | 0 => ends [n 0, n 0, n 0, 255] [n 1, n 1, n 1, 255]
  | 1 =>
    let l0 : Int := ((v.getD 0 0 / 4 + v.getD 1 0 / 64 * 64 : Nat) : Int)
    let l1 := l0 + ((v.getD 1 0 % 64 : Nat) : Int)
    ends [l0, l0, l0, 255] [l1, l1, l1, 255]
  | 4 => ends [n 0, n 0, n 0, n 2] [n 1, n 1, n 1, n 3]
  | 5 => ends [base 0, base 0, base 0, base 2] [base 0 + o 0, base 0 + o 0, base 0 + o 0, base 2 + o 2]
  | 6 => ends [scaled 0, scaled 1, scaled 2, 255] [n 0, n 1, n 2, 255]
  | 8 => direct 255 255
  | 9 => based 255 255
  | 10 => ends [scaled 0, scaled 1, scaled 2, n 4] [n 0, n 1, n 2, n 5]
  | 12 => direct (n 6) (n 7)
  | 13 => based (base 6) (base 6 + o 6)
  | _ => none

/-- The end modes of a block's partitions, the first bit of its colour values, and the bits that modes take below the weights. -/
def astcCems (b parts below : Nat) : List Nat × Nat × Nat :=
  if parts = 1 then ([blockBits b 13 4], 17, 0)
  else if blockBits b 23 2 = 0 then (List.replicate parts (blockBits b 25 4), 29, 0)
  else
    let extra := 3 * parts - 4
    let v := blockBits b 23 6 + blockBits b (below - extra) extra * 64
    ((List.range parts).map fun i =>
      (blockBits v 0 2 - 1 + blockBits v (2 + i) 1) * 4 + blockBits v (2 + parts + 2 * i) 2, 29, extra)

/-! ## Texels -/

/-- A channel of 16 bits as the format gives it: 1 for its greatest code, else the 65,536th part toward zero in binary16. -/
def unit16 (c : Nat) : Word :=
  if c = 65535 then one32
  else
    let s := c.log2 - 10
    fracWord (c / 2 ^ s * 2 ^ s) 65536

/-- The colour of a block that is in error. -/
def astcError : List Word := [one32, 0, one32, one32]

/-- A block of one colour: its extent must be empty or all ones. -/
def astcVoid (b : Nat) : List Word :=
  let c (i : Nat) : Nat := blockBits b (12 + 13 * i) 13
  let none' : Bool := (List.range 4).all fun i => c i = 8191
  if b.testBit 9 || blockBits b 10 2 ≠ 3 || (!none' && (c 1 ≤ c 0 || c 3 ≤ c 2)) then astcError
  else (List.range 4).map fun i => unit16 (blockBits b (64 + 16 * i) 16)

/-- Texel (x, y) of a block of bw × bh texels that is not of one colour. -/
def astcCoded (b bw bh x y : Nat) : List Word :=
  match astcMode b bw bh with
  | none => astcError
  | some m =>
    let parts := blockBits b 11 2 + 1
    let below := 128 - m.range.size m.count
    let (cems, start, extra) := astcCems b parts below
    let plane := if m.dual then 2 else 0
    let room := below - (extra + plane + start)
    let counts := cems.map fun c => c / 4 * 2 + 2
    let n := counts.foldl (· + ·) 0
    match (colourRanges.filter fun r => r.size n ≤ room).getLast? with
    | none => astcError
    | some r =>
      if (m.dual && parts = 4) || 18 < n || below < extra + plane + start then astcError
      else
        let v := blockBits b start room
        let p := astcPartition (blockBits b 13 10) parts bw bh x y
        let first := (counts.take p).foldl (· + ·) 0
        let vals := (List.range (counts.getD p 0)).map fun i => r.colour (r.value v (first + i))
        match astcEnds (cems.getD p 0) vals with
        | none => astcError
        | some (e, f) => (List.range 4).map fun ch =>
          let second : Bool := m.dual && blockBits b (below - extra - 2) 2 = ch
          let w := m.weightAt b bw bh (if second then 1 else 0) x y
          unit16 (((64 - w) * (e.getD ch 0 * 257) + w * (f.getD ch 0 * 257) + 32) / 64)

/-- Texel (x, y) of an ASTC block of bw × bh texels (R397). -/
def astcTexel (bw bh b x y : Nat) : List Word :=
  if blockBits b 0 9 = 0x1FC then astcVoid b else astcCoded b bw bh x y

end Sys2Proof.Machine
end

