-- ==== Sys2Proof/Machine/Texture.lean ====
section
/-! DEFINITION. Textures: descriptors, addressing, filtering and the texture instructions (chapter 14, R396 to R402). -/

set_option Elab.async false

namespace Sys2Proof.Machine

open Sys2Proof

/-! ## Descriptors (R396, R397) -/

/-- A descriptor: its 64 bytes. -/
abbrev TexD := List Byte

/-- W. -/
def txW (d : TexD) : Nat := sliceNum d 8 2
/-- H. -/
def txH (d : TexD) : Nat := sliceNum d 10 2
/-- LAYERS. -/
def txLayers (d : TexD) : Nat := sliceNum d 12 2
/-- LEVELS. -/
def txLevels (d : TexD) : Nat := sliceNum d 14 1
/-- FMT. -/
def txFmt (d : TexD) : Nat := sliceNum d 15 1
/-- A bit field of FILT, ADDR or another byte. -/
def txBits (d : TexD) (byte hi lo : Nat) : Nat := sliceNum d byte 1 / 2 ^ lo % 2 ^ (hi + 1 - lo)
/-- ANISO. -/
def txAniso (d : TexD) : Nat := sliceNum d 34 1
/-- BIAS, in 256ths. -/
def txBias (d : TexD) : Int := (BitVec.ofNat 16 (sliceNum d 36 2)).toInt
/-- MINLOD. -/
def txMin (d : TexD) : Nat := sliceNum d 38 2
/-- MAXLOD. -/
def txMax (d : TexD) : Nat := sliceNum d 40 2

/-- The block of a texture format: width, height and bytes (R397). -/
def texBlock (fmt : Nat) : Option (Nat × Nat × Nat) :=
  if 1 ≤ fmt && fmt ≤ 8 then some (1, 1, pixBytes fmt)
  else if 0x11 ≤ fmt && fmt ≤ 0x17 then some (4, 4, [8, 16, 16, 8, 16, 16, 16].getD (fmt - 0x11) 16)
  else if 0x20 ≤ fmt && fmt ≤ 0x2D then
    let (w, h) := [(4, 4), (5, 4), (5, 5), (6, 5), (6, 6), (8, 5), (8, 6), (8, 8), (10, 5), (10, 6), (10, 8), (10, 10), (12, 10),
      (12, 12)].getD (fmt - 0x20) (4, 4)
    some (w, h, 16)
  else none

/-- Whether every field of a descriptor lies within R396 and R397. -/
def texOk (d : TexD) : Bool :=
  sliceNum d 0 8 % 256 = 0 && 1 ≤ txW d && txW d ≤ 16384 && 1 ≤ txH d && txH d ≤ 16384 && 1 ≤ txLayers d && txLayers d ≤ 2048
    && 1 ≤ txLevels d && txLevels d ≤ (max (txW d) (txH d)).log2 + 1 && (texBlock (txFmt d)).isSome
    && sliceNum d 16 16 = 0 && txBits d 32 3 2 ≠ 3 && txBits d 32 7 4 = 0 && txBits d 33 5 4 ≠ 3 && txBits d 33 7 6 = 0
    && [1, 2, 4, 8, 16].contains (txAniso d) && sliceNum d 35 1 = 0 && -4096 ≤ txBias d && txBias d ≤ 4096
    && txMin d ≤ txMax d && txMax d ≤ 3840 && sliceNum d 42 22 = 0

/-- The size of level i. -/
def txDims (d : TexD) (i : Nat) : Nat × Nat := (max 1 (txW d / 2 ^ i), max 1 (txH d / 2 ^ i))

/-- The block of a descriptor's format. -/
def txBlock (d : TexD) : Nat × Nat × Nat := (texBlock (txFmt d)).getD (1, 1, 1)

/-- The row pitch of level i. -/
def txPitch (d : TexD) (i : Nat) : Nat :=
  let (bw, _, bb) := txBlock d
  256 * (((((txDims d i).1 + bw - 1) / bw) * bb + 255) / 256)

/-- Bytes of level i. -/
def txSize (d : TexD) (i : Nat) : Nat := txPitch d i * (((txDims d i).2 + (txBlock d).2.1 - 1) / (txBlock d).2.1)

/-- The sizes of the levels below i together. -/
def txBelow (d : TexD) (i : Nat) : Nat := ((List.range i).map (txSize d)).foldl (· + ·) 0

/-- Read the descriptor at an address: its cause, or the descriptor. -/
def Ctx.texDesc (c : Ctx) (va : DWord) : Except Nat TexD :=
  match c.plainRead c.sq.sup va 64 64 0 with
  | .error e => .error e
  | .ok d => if texOk d then .ok d else .error 0x60

/-! ## Texels -/

/-- The address of the block that holds a texel. -/
def texelAddr (d : TexD) (lv x y layer : Nat) : DWord :=
  let (bw, bh, bb) := txBlock d
  BitVec.ofNat 64 (sliceNum d 0 8 + layer * txBelow d (txLevels d) + txBelow d lv + y / bh * txPitch d lv + x / bw * bb)

/-- A texel in range, decoded: red, green, blue, alpha. -/
def Ctx.texel (c : Ctx) (d : TexD) (lv x y layer : Nat) : Except Nat (List Word) :=
  let (bw, bh, bb) := txBlock d
  match c.plainRead c.sq.sup (texelAddr d lv x y layer) bb 1 0 with
  | .error e => .error e
  | .ok bs =>
    .ok (if txFmt d ≤ 8 then pixDecode (txFmt d) (leNat bs)
      else if txFmt d < 0x20 then bcTexel (txFmt d) (leNat bs) (x % bw) (y % bh)
      else astcTexel bw bh (leNat bs) (x % bw) (y % bh))

/-- An integer coordinate mapped by its mode, or none out of range under border (R398). -/
def mapCoord (mode : Nat) (i : Int) (n : Nat) : Option Nat :=
  match mode with
  | 0 => some (i % (n : Int)).toNat
  | 1 =>
    let m := (i % ((2 * n : Nat) : Int)).toNat
    some (if m < n then m else 2 * n - 1 - m)
  | 2 => some (min i.toNat (n - 1))
  | _ => if 0 ≤ i && i < (n : Int) then some i.toNat else none

/-- BORDER's colour. -/
def borderOf (d : TexD) : List Word :=
  match txBits d 33 5 4 with
  | 0 => [0, 0, 0, 0]
  | 1 => [0, 0, 0, one32]
  | _ => [one32, one32, one32, one32]

/-- Integer coordinates of a level mapped by the descriptor's modes, or none where the border's colour stands for the texel. -/
def mapTexel (d : TexD) (lv : Nat) (x y : Int) : Option (Nat × Nat) :=
  let (w, h) := txDims d lv
  match mapCoord (txBits d 33 1 0) x w, mapCoord (txBits d 33 3 2) y h with
  | some i, some j => some (i, j)
  | _, _ => none

/-- The texel at integer coordinates of a level. -/
def Ctx.texelAt (c : Ctx) (d : TexD) (lv : Nat) (x y : Int) (layer : Nat) : Except Nat (List Word) :=
  match mapTexel d lv x y with
  | some p => c.texel d lv p.1 p.2 layer
  | none => .ok (borderOf d)

/-- The read of the texel at integer coordinates. -/
def texelRead (d : TexD) (lv : Nat) (x y : Int) (layer : Nat) : List URead :=
  match mapTexel d lv x y with
  | some p => [(texelAddr d lv p.1 p.2 layer, (txBlock d).2.2, 1, 0)]
  | none => []

/-! ## Coordinates as exact fractions (R398, R399) -/

/-- A fraction: a signed numerator over a positive denominator. -/
abbrev Q := Int × Nat

/-- Sum. -/
def Q.plus (a b : Q) : Q := (a.1 * (b.2 : Int) + b.1 * (a.2 : Int), a.2 * b.2)
/-- Product. -/
def Q.times (a b : Q) : Q := (a.1 * b.1, a.2 * b.2)
/-- Negation. -/
def Q.minus (a : Q) : Q := (-a.1, a.2)
/-- Floor. -/
def Q.floor (a : Q) : Int := a.1 / (a.2 : Int)
/-- A natural number. -/
def Q.nat (n : Nat) : Q := ((n : Int), 1)
/-- Order. -/
def Q.lt (a b : Q) : Bool := a.1 * (b.2 : Int) < b.1 * (a.2 : Int)
/-- The fraction as a number. -/
def Q.num (a : Q) : Num := Num.ofInt a.1 a.2

/-- 2^20, to which coordinates are clamped. -/
def coordLimit : Nat := 2 ^ 20

/-- A texture coordinate as it is read (R398). -/
def readCoord (w : Word) : Q :=
  let lim (neg : Bool) : Q := if neg then (-(coordLimit : Int), 1) else ((coordLimit : Int), 1)
  match f32Num w with
  | .nan _ => (0, 1)
  | .inf neg => lim neg
  | .fin neg n d => if coordLimit * d < n then lim neg else (sgn neg n, d)

/-- An array layer (R398): rne to an integer, clamped. -/
def readLayer (d : TexD) (w : Word) : Nat :=
  let (i, n) := readCoord w
  let m := (roundInt .rne 0 (i < 0) i.natAbs n).1
  if i < 0 then 0 else min m (txLayers d - 1)

/-- A difference rounded to binary32 (R399). -/
def rneDiff (a b : Q) : Q :=
  match f32Num (rne32 (Q.num (a.plus b.minus))) with
  | .fin neg n d => (sgn neg n, d)
  | _ => (0, 1)

/-- The seven fraction bits of floor(128 log2 x) for x = n / d from 1 to below 2. -/
def logBits : Nat → Nat → Nat → Nat
  | 0, _, _ => 0
  | k + 1, n, d =>
    if 2 * (d * d) ≤ n * n then 2 ^ k + logBits k (n * n) (2 * (d * d)) else logBits k (n * n) (d * d)

/-- floor(256 log2 ρ) for ρ² = n / d > 0. -/
def lod256 (n d : Nat) : Int :=
  let e := floorLog2 n d
  let (a, b) := if 0 ≤ e then (n, d * 2 ^ e.toNat) else (n * 2 ^ (-e).toNat, d)
  e * 128 + (logBits 7 a b : Nat)

/-- λ′ in 256ths (R399): none stands for −∞. -/
def clampLod (d : TexD) (q : Option Int) (bias : Int) : Nat :=
  match q with
  | none => txMin d
  | some q => (max (txMin d : Int) (min (txMax d : Int) (q + bias))).toNat

/-- Derivatives of the coordinates along an axis. -/
abbrev Deriv := Q × Q

/-- The coordinate value at a quad position: of the present lane there, else of the reading lane (R399). -/
def Ctx.quadVal (c : Ctx) (l : Nat) (ln : Lane) (a : Opnd) (k pos : Nat) : Q :=
  match Tab.find? c.present (l / 4 * 4 + pos) with
  | some m => readCoord (c.rdAt m a k)
  | none => readCoord (c.rdAt ln a k)

/-- ∂x and ∂y of u and v in a lane (R399). -/
def Ctx.derivs (c : Ctx) (l : Nat) (ln : Lane) (a : Opnd) : Deriv × Deriv :=
  let k := l % 4
  let dx (i : Nat) : Q := rneDiff (c.quadVal l ln a i (k ||| 1)) (c.quadVal l ln a i (k &&& 2))
  let dy (i : Nat) : Q := rneDiff (c.quadVal l ln a i (k ||| 2)) (c.quadVal l ln a i (k &&& 1))
  ((dx 0, dx 1), (dy 0, dy 1))

/-- ρ² along an axis. -/
def rhoSq (d : TexD) (v : Deriv) : Q :=
  let a := v.1.times (.nat (txW d))
  let b := v.2.times (.nat (txH d))
  (a.times a).plus (b.times b)

/-! ## Sampling (R398 to R401) -/

/-- A tap: its coordinates and the number of taps, each of whose weight is its inverse. -/
structure Tap where
  u : Q
  v : Q
  n : Nat
deriving DecidableEq, Repr

/-- The least N with N² ≥ a / b, at most a bound (R400). -/
def ceilRoot (a b : Q) : Nat → Nat
  | 0 => 1
  | k + 1 => if (b.times (.nat (k * k))).lt a then k + 1 else ceilRoot a b k

/-- The taps of an implicit sample and λ′ (R399, R400). -/
def implicitTaps (d : TexD) (u v : Q) (x y : Deriv) : List Tap × Nat :=
  let px := rhoSq d x
  let py := rhoSq d y
  let xMajor := !px.lt py
  let (big, small) := if xMajor then (px, py) else (py, px)
  let n := if txAniso d = 1 || txBits d 32 1 1 = 0 then 1
    else if small.1 = 0 then txAniso d else ceilRoot big small (txAniso d)
  let q := if big.1 = 0 then none else some (lod256 big.1.natAbs (big.2 * n * n))
  let m := if xMajor then x else y
  ((List.range n).map fun (i : Nat) =>
    let w : Q := (2 * (i : Int) + 1 - (n : Int), 2 * n)
    (⟨u.plus (w.times m.1), v.plus (w.times m.2), n⟩ : Tap), clampLod d q (txBias d))

/-- The filter and the levels with their weights in 256ths (R399). -/
def levelsOf (d : TexD) (lod : Nat) : Bool × List (Nat × Nat) :=
  let top := txLevels d - 1
  if lod = 0 then (txBits d 32 0 0 = 1, [(0, 256)])
  else
    let lin : Bool := txBits d 32 1 1 = 1
    match txBits d 32 3 2 with
    | 0 => (lin, [(0, 256)])
    | 1 => (lin, [(min ((lod + 128) / 256) top, 256)])
    | _ => if top ≤ lod / 256 then (lin, [(top, 256)]) else (lin, [(lod / 256, 256 - lod % 256), (lod / 256 + 1, lod % 256)])

/-- The texel positions of a tap at a level, with their weights in 2^-16ths (R398). -/
def tapPoints (d : TexD) (lin : Bool) (lv : Nat) (t : Tap) : List (Int × Int × Nat) :=
  let (w, h) := txDims d lv
  let uw := t.u.times (.nat w)
  let vh := t.v.times (.nat h)
  if lin then
    let s := uw.plus (-1, 2)
    let r := vh.plus (-1, 2)
    let i := s.floor
    let j := r.floor
    let a := (Q.floor ((s.plus (-i, 1)).times (.nat 256))).toNat
    let b := (Q.floor ((r.plus (-j, 1)).times (.nat 256))).toNat
    [(i, j, (256 - a) * (256 - b)), (i + 1, j, a * (256 - b)), (i, j + 1, (256 - a) * b), (i + 1, j + 1, a * b)]
  else [(uw.floor, vh.floor, 65536)]

/-- The weighted texels of a sample: a weight over a denominator, and the texel; a weight of zero is no term (R401). -/
def Ctx.sampleTerms (c : Ctx) (d : TexD) (taps : List Tap) (lod layer : Nat) : Except Nat (List (Nat × Nat × List Word)) :=
  let (lin, lvs) := levelsOf d lod
  taps.foldl (fun acc t => lvs.foldl (fun acc lv => (tapPoints d lin lv.1 t).foldl (fun acc p => match acc with
    | .error e => .error e
    | .ok ts => match c.texelAt d lv.1 p.1 p.2.1 layer with
      | .error e => .error e
      | .ok tx => .ok (if lv.2 * p.2.2 = 0 then ts else ts ++ [(lv.2 * p.2.2, 2 ^ 24 * t.n, tx)])) acc) acc) (.ok [])

/-- One channel of the sum (R401). -/
def sumChannel (ts : List (Nat × Nat × List Word)) (ch : Nat) : Word :=
  rne32 (window56 (ts.map fun t => nMul (.fin false t.1 t.2.1) (f32Num (t.2.2.getD ch 0)))).1

/-- The reads of a sample. -/
def sampleReads (d : TexD) (taps : List Tap) (lod layer : Nat) : List URead :=
  let (lin, lvs) := levelsOf d lod
  taps.flatMap fun t => lvs.flatMap fun lv => (tapPoints d lin lv.1 t).flatMap fun p => texelRead d lv.1 p.1 p.2.1 layer

/-- A filtered sample. -/
def Ctx.sample (c : Ctx) (d : TexD) (taps : List Tap) (lod layer : Nat) : Except Nat LaneOut :=
  match c.sampleTerms d taps lod layer with
  | .error e => .error e
  | .ok ts => .ok { ws := (List.range 4).map (sumChannel ts) }

/-- λ′ of an explicit level of detail (R399). -/
def explicitLod (d : TexD) (w : Word) : Nat := clampLod d (some (Q.floor ((readCoord w).times (.nat 256)))) 0

/-! ## The instructions (R402) -/

/-- What is common to the texture words: the operands, the wait for earlier reads, the result in flight, and the reads that a lane
makes of its texture. -/
def texWord (h : Hdr) (arr : Bool) (d a b : Opnd) (more : List Use) (f : Ctx → TexD → Nat → Lane → Except Nat LaneOut)
    (g : Ctx → TexD → Nat → Lane → List URead) (s : State) : Host.Outcome State Fault Refusal :=
  issue h (fun _ => { uses := [⟨d, 4, 4, true⟩, ⟨a, if arr then 3 else 2, 1, false⟩, .r2 b] ++ more,
                      bad := !d.isVec || !a.isVec || !(b.isSca || b = .argl) })
    (fun c =>
      if !c.readsDone then c.holdBehind
      else c.touched (c.act.flatMap fun l => (c.rd64 l.2 b, 64, 64, l.1) :: (match c.texDesc (c.rd64 l.2 b) with
        | .error _ => []
        | .ok t => g c t l.1 l.2))
        (c.perLaneVar d 4 fun l ln => helperZero ln 4 (match c.texDesc (c.rd64 ln b) with
        | .error e => .error e
        | .ok t => f c t l ln))) s

/-- The layer of a lane. -/
def Ctx.layerOf (c : Ctx) (arr : Bool) (t : TexD) (ln : Lane) (a : Opnd) : Nat := if arr then readLayer t (c.rdAt ln a 2) else 0

/-- The taps of tex and λ′ (R399, R402): implicit derivatives in a quad-locked launch, else level of detail 0. -/
def Ctx.texTaps (c : Ctx) (t : TexD) (l : Nat) (ln : Lane) (a : Opnd) : List Tap × Nat :=
  let u := readCoord (c.rdAt ln a 0)
  let v := readCoord (c.rdAt ln a 1)
  if c.blk.kern.quad then
    let (x, y) := c.derivs l ln a
    implicitTaps t u v x y
  else ([⟨u, v, 1⟩], explicitLod t 0)

/-- tex (R399 to R402). -/
def execTex (h : Hdr) (arr : Bool) (d a b : Opnd) (s : State) : Host.Outcome State Fault Refusal :=
  texWord h arr d a b []
    (fun c t l ln => c.sample t (c.texTaps t l ln a).1 (c.texTaps t l ln a).2 (c.layerOf arr t ln a))
    (fun c t l ln => sampleReads t (c.texTaps t l ln a).1 (c.texTaps t l ln a).2 (c.layerOf arr t ln a)) s

/-- The texel that texf names: level, coordinates and layer, or none where any index is out of range. -/
def Ctx.texfAt (c : Ctx) (arr : Bool) (a lv : Opnd) (t : TexD) (l : Nat) (ln : Lane) : Option (Nat × Nat × Nat × Nat) :=
  let x := (c.rdAt ln a 0).toNat
  let y := (c.rdAt ln a 1).toNat
  let layer := if arr then (c.rdAt ln a 2).toNat else 0
  let n := (c.rd l ln lv).toNat
  if txLevels t ≤ n || txLayers t ≤ layer || (txDims t n).1 ≤ x || (txDims t n).2 ≤ y then none else some (n, x, y, layer)

/-- texf (R402): one texel by integer coordinates; zeros where any index is out of range. -/
def execTexf (h : Hdr) (arr : Bool) (d a b lv : Opnd) (s : State) : Host.Outcome State Fault Refusal :=
  texWord h arr d a b [.r lv]
    (fun c t l ln => match c.texfAt arr a lv t l ln with
      | none => .ok { ws := [0, 0, 0, 0] }
      | some (n, x, y, layer) => (c.texel t n x y layer).map fun ws => { ws := ws.map fun w => rne32 (f32Num w) })
    (fun c t l ln => match c.texfAt arr a lv t l ln with
      | none => []
      | some (n, x, y, layer) => [(texelAddr t n x y layer, (txBlock t).2.2, 1, 0)]) s

/-- The level of texg, as MIP nearest chooses it, and the four texels of its footprint (R398, R402). -/
def Ctx.texgAt (c : Ctx) (a lam : Opnd) (t : TexD) (l : Nat) (ln : Lane) : Nat × List (Int × Int) :=
  let lod := explicitLod t (c.rd l ln lam)
  let lv := if lod = 0 then 0 else min ((lod + 128) / 256) (txLevels t - 1)
  let (w, hh) := txDims t lv
  let i := Q.floor (((readCoord (c.rdAt ln a 0)).times (.nat w)).plus (-1, 2))
  let j := Q.floor (((readCoord (c.rdAt ln a 1)).times (.nat hh)).plus (-1, 2))
  (lv, [(i, j + 1), (i + 1, j + 1), (i + 1, j), (i, j)])

/-- texg (R402): one channel of the four texels of a bilinear footprint. -/
def execTexg (h : Hdr) (arr : Bool) (ch : Fin 4) (d a b lam : Opnd) (s : State) : Host.Outcome State Fault Refusal :=
  texWord h arr d a b [.r lam]
    (fun c t l ln =>
      let (lv, ps) := c.texgAt a lam t l ln
      ps.foldl (fun (acc : Except Nat LaneOut) (p : Int × Int) => match acc with
        | .error e => .error e
        | .ok o => (c.texelAt t lv p.1 p.2 (c.layerOf arr t ln a)).map fun ws =>
            { ws := o.ws ++ [rne32 (f32Num (ws.getD ch.val 0))] }) (.ok { ws := [] }))
    (fun c t l ln =>
      let (lv, ps) := c.texgAt a lam t l ln
      ps.flatMap fun p => texelRead t lv p.1 p.2 (c.layerOf arr t ln a)) s

/-- texl (R399, R402): a sample at an explicit level of detail. -/
def execTexl (h : Hdr) (arr : Bool) (d a b lam : Opnd) (s : State) : Host.Outcome State Fault Refusal :=
  let tap (c : Ctx) (ln : Lane) : List Tap := [⟨readCoord (c.rdAt ln a 0), readCoord (c.rdAt ln a 1), 1⟩]
  texWord h arr d a b [.r lam]
    (fun c t l ln => c.sample t (tap c ln) (explicitLod t (c.rd l ln lam)) (c.layerOf arr t ln a))
    (fun c t l ln => sampleReads t (tap c ln) (explicitLod t (c.rd l ln lam)) (c.layerOf arr t ln a)) s

end Sys2Proof.Machine
end

