-- ==== Sys2Proof/Machine/Dispatch.lean ====
section
/-! DEFINITION. The dispatch of every instruction and event to its meaning. -/

namespace Sys2Proof.Machine

/-- One instruction or event: its meaning, arm by arm. -/
def exec (i : Instr) (s : State) : Host.Outcome State Fault Refusal :=
  match i with
  | .add h ty sat d a b => Sys2Proof.Machine.execAdd h ty sat d a b s
  | .sub h ty sat d a b => Sys2Proof.Machine.execSub h ty sat d a b s
  | .mul h ty sat d a b => Sys2Proof.Machine.execMul h ty sat d a b s
  | .mulhi h ty d a b => Sys2Proof.Machine.execMulhi h ty d a b s
  | .mad h ty sat d a b c => Sys2Proof.Machine.execMad h ty sat d a b c s
  | .div h ty sat d a b => Sys2Proof.Machine.execDiv h ty sat d a b s
  | .rem h ty d a b => Sys2Proof.Machine.execRem h ty d a b s
  | .min h ty d a b => Sys2Proof.Machine.execMin h ty d a b s
  | .max h ty d a b => Sys2Proof.Machine.execMax h ty d a b s
  | .abs h ty sat d a => Sys2Proof.Machine.execAbs h ty sat d a s
  | .neg h ty sat d a => Sys2Proof.Machine.execNeg h ty sat d a s
  | .and h ty d a b => Sys2Proof.Machine.execAnd h ty d a b s
  | .or h ty d a b => Sys2Proof.Machine.execOr h ty d a b s
  | .xor h ty d a b => Sys2Proof.Machine.execXor h ty d a b s
  | .not h ty d a => Sys2Proof.Machine.execNot h ty d a s
  | .andn h ty d a b => Sys2Proof.Machine.execAndn h ty d a b s
  | .shl h ty d a b => Sys2Proof.Machine.execShl h ty d a b s
  | .shr h ty d a b => Sys2Proof.Machine.execShr h ty d a b s
  | .sar h ty d a b => Sys2Proof.Machine.execSar h ty d a b s
  | .rot h ty d a b => Sys2Proof.Machine.execRot h ty d a b s
  | .clz h ty d a => Sys2Proof.Machine.execClz h ty d a s
  | .popc h ty d a => Sys2Proof.Machine.execPopc h ty d a s
  | .brev h ty d a => Sys2Proof.Machine.execBrev h ty d a s
  | .bfx h ty d a spec => Sys2Proof.Machine.execBfx h ty d a spec s
  | .bfi h ty d a b spec => Sys2Proof.Machine.execBfi h ty d a b spec s
  | .sel h ty d a b p => Sys2Proof.Machine.execSel h ty d a b p s
  | .cmp h cond ty pd a b => Sys2Proof.Machine.execCmp h cond ty pd a b s
  | .lea h sh nat d a b => Sys2Proof.Machine.execLea h sh nat d a b s
  | .mov h ty d a => Sys2Proof.Machine.execMov h ty d a s
  | .movi h ty d imm => Sys2Proof.Machine.execMovi h ty d imm s
  | .movh h nat d imm => Sys2Proof.Machine.execMovh h nat d imm s
  | .pset h op pd => Sys2Proof.Machine.execPset h op pd s
  | .fadd h ft e d a b => Sys2Proof.Machine.execFadd h ft e d a b s
  | .fsub h ft e d a b => Sys2Proof.Machine.execFsub h ft e d a b s
  | .fmul h ft e d a b => Sys2Proof.Machine.execFmul h ft e d a b s
  | .ffma h ft e d a b c => Sys2Proof.Machine.execFfma h ft e d a b c s
  | .fmin h ft e d a b => Sys2Proof.Machine.execFmin h ft e d a b s
  | .fmax h ft e d a b => Sys2Proof.Machine.execFmax h ft e d a b s
  | .fcmp h cond ft e pd a b => Sys2Proof.Machine.execFcmp h cond ft e pd a b s
  | .fsel h ft e d a b c => Sys2Proof.Machine.execFsel h ft e d a b c s
  | .frnd h ft nx e d a => Sys2Proof.Machine.execFrnd h ft nx e d a s
  | .fdiv h ft e d a b => Sys2Proof.Machine.execFdiv h ft e d a b s
  | .fsqrt h ft e d a => Sys2Proof.Machine.execFsqrt h ft e d a s
  | .fdot2 h bf e d a b c => Sys2Proof.Machine.execFdot2 h bf e d a b c s
  | .cvt h e dst src d a c => Sys2Proof.Machine.execCvt h e dst src d a c s
  | .pack h e dst src d a b => Sys2Proof.Machine.execPack h e dst src d a b s
  | .unpack h src dst d a => Sys2Proof.Machine.execUnpack h src dst d a s
  | .frcp h d a => Sys2Proof.Machine.execFrcp h d a s
  | .frsq h d a => Sys2Proof.Machine.execFrsq h d a s
  | .fexp2 h d a => Sys2Proof.Machine.execFexp2 h d a s
  | .flog2 h d a => Sys2Proof.Machine.execFlog2 h d a s
  | .fsinp h d a => Sys2Proof.Machine.execFsinp h d a s
  | .fcosp h d a => Sys2Proof.Machine.execFcosp h d a s
  | .wfu h d a => Sys2Proof.Machine.execWfu h d a s
  | .wfm h d a => Sys2Proof.Machine.execWfm h d a s
  | .rseed h d a => Sys2Proof.Machine.execRseed h d a s
  | .shfl h var nat d a b => Sys2Proof.Machine.execShfl h var nat d a b s
  | .redux h op ty e d a => Sys2Proof.Machine.execRedux h op ty e d a s
  | .scan h excl op ty e d a => Sys2Proof.Machine.execScan h excl op ty e d a s
  | .ballot h d p => Sys2Proof.Machine.execBallot h d p s
  | .vote h var pd p => Sys2Proof.Machine.execVote h var pd p s
  | .qx h var nat d a => Sys2Proof.Machine.execQx h var nat d a s
  | .qbc h nat d a b => Sys2Proof.Machine.execQbc h nat d a b s
  | .pairWord mk sa sb => Sys2Proof.Machine.execPairWord mk sa sb s
  | .bra h off live => Sys2Proof.Machine.execBra h off live s
  | .jmp h a tag live => Sys2Proof.Machine.execJmp h a tag live s
  | .call h link off live => Sys2Proof.Machine.execCall h link off live s
  | .calli h d a tag live => Sys2Proof.Machine.execCalli h d a tag live s
  | .ret h a live => Sys2Proof.Machine.execRet h a live s
  | .land h tag => Sys2Proof.Machine.execLand h tag s
  | .reform mk live => Sys2Proof.Machine.execReform mk live s
  | .loop mk ctr count len => Sys2Proof.Machine.execLoop mk ctr count len s
  | .loopEndTest q => Sys2Proof.Machine.execLoopEndTest q s
  | .brk h code => Sys2Proof.Machine.execBrk h code s
  | .exit h => Sys2Proof.Machine.execExit h s
  | .yield h => Sys2Proof.Machine.execYield h s
  | .nop h => Sys2Proof.Machine.execNop h s
  | .ld h sz hint m d a => Sys2Proof.Machine.execLd h sz hint m d a s
  | .st h sz hint m a b => Sys2Proof.Machine.execSt h sz hint m a b s
  | .atom h op m d a b => Sys2Proof.Machine.execAtom h op m d a b s
  | .red h op m a b => Sys2Proof.Machine.execRed h op m a b s
  | .lrs h wide m d a => Sys2Proof.Machine.execLrs h wide m d a s
  | .scs h wide m d a b => Sys2Proof.Machine.execScs h wide m d a b s
  | .cpf h var off a => Sys2Proof.Machine.execCpf h var off a s
  | .cwb h off a => Sys2Proof.Machine.execCwb h off a s
  | .cinv h dc off a => Sys2Proof.Machine.execCinv h dc off a s
  | .pld h sz off d a => Sys2Proof.Machine.execPld h sz off d a s
  | .pst h sz off a b => Sys2Proof.Machine.execPst h sz off a b s
  | .patom h op off d a b => Sys2Proof.Machine.execPatom h op off d a b s
  | .ald h wide off d a => Sys2Proof.Machine.execAld h wide off d a s
  | .ast h wide off a b => Sys2Proof.Machine.execAst h wide off a b s
  | .cpy h a => Sys2Proof.Machine.execCpy h a s
  | .twany h d m => Sys2Proof.Machine.execTwany h d m s
  | .twall h m => Sys2Proof.Machine.execTwall h m s
  | .tfirst h d m => Sys2Proof.Machine.execTfirst h d m s
  | .tclr h m => Sys2Proof.Machine.execTclr h m s
  | .watch h kind slot a => Sys2Proof.Machine.execWatch h kind slot a s
  | .wait h d a => Sys2Proof.Machine.execWait h d a s
  | .waitReturn q => Sys2Proof.Machine.execWaitReturn q s
  | .waitTimeout q => Sys2Proof.Machine.execWaitTimeout q s
  | .bar mk n => Sys2Proof.Machine.execBar mk n s
  | .parr h d a b => Sys2Proof.Machine.execParr h d a b s
  | .pwait h d a b => Sys2Proof.Machine.execPwait h d a b s
  | .menq h d a => Sys2Proof.Machine.execMenq h d a s
  | .mstat h d sel => Sys2Proof.Machine.execMstat h d sel s
  | .send h d a b => Sys2Proof.Machine.execSend h d a b s
  | .mbadv h mb d b => Sys2Proof.Machine.execMbadv h mb d b s
  | .coll h a => Sys2Proof.Machine.execColl h a s
  | .tspawn h a => Sys2Proof.Machine.execTspawn h a s
  | .tnext h d => Sys2Proof.Machine.execTnext h d s
  | .tdone h d b => Sys2Proof.Machine.execTdone h d b s
  | .qput h d a stage => Sys2Proof.Machine.execQput h d a stage s
  | .qget h d => Sys2Proof.Machine.execQget h d s
  | .arm h a => Sys2Proof.Machine.execArm h a s
  | .launch h a => Sys2Proof.Machine.execLaunch h a s
  | .tex h arr d a b => Sys2Proof.Machine.execTex h arr d a b s
  | .texf h arr d a b c => Sys2Proof.Machine.execTexf h arr d a b c s
  | .texg h arr ch d a b c => Sys2Proof.Machine.execTexg h arr ch d a b c s
  | .texl h arr d a b c => Sys2Proof.Machine.execTexl h arr d a b c s
  | .mout h a => Sys2Proof.Machine.execMout h a s
  | .mfinMesh h d a => Sys2Proof.Machine.execMfinMesh h d a s
  | .mfinTask h d a => Sys2Proof.Machine.execMfinTask h d a s
  | .pxo h n a => Sys2Proof.Machine.execPxo h n a s
  | .pkill h => Sys2Proof.Machine.execPkill h s
  | .rbox h d a b => Sys2Proof.Machine.execRbox h d a b s
  | .rtri h d a b => Sys2Proof.Machine.execRtri h d a b s
  | .rtriW h d a b c => Sys2Proof.Machine.execRtriW h d a b c s
  | .bmbox h d a b => Sys2Proof.Machine.execBmbox h d a b s
  | .bmtri h d a b => Sys2Proof.Machine.execBmtri h d a b s
  | .bmsplit h d a b => Sys2Proof.Machine.execBmsplit h d a b s
  | .kpush h a => Sys2Proof.Machine.execKpush h a s
  | .kpop h d => Sys2Proof.Machine.execKpop h d s
  | .fence h kind obs => Sys2Proof.Machine.execFence h kind obs s
  | .trap h imm => Sys2Proof.Machine.execTrap h imm s
  | .sret h act => Sys2Proof.Machine.execSret h act s
  | .mfc h d idx => Sys2Proof.Machine.execMfc h d idx s
  | .mtc h idx a => Sys2Proof.Machine.execMtc h idx a s
  | .fpcWrite h a => Sys2Proof.Machine.execFpcWrite h a s
  | .mqbWrite h a => Sys2Proof.Machine.execMqbWrite h a s
  | .cyc h d => Sys2Proof.Machine.execCyc h d s
  | .halt h a => Sys2Proof.Machine.execHalt h a s
  | .iflush h scope => Sys2Proof.Machine.execIflush h scope s
  | .resultReturn q k => Sys2Proof.Machine.execResultReturn q k s
  | .binDraw st core => Sys2Proof.Machine.execBinDraw st core s
  | .drawReloadComplete q => Sys2Proof.Machine.execDrawReloadComplete q s
  | .forcedFiling st core => Sys2Proof.Machine.execForcedFiling st core s
  | .heldGroupAge q => Sys2Proof.Machine.execHeldGroupAge q s
  | .crateSpillReturn st core => Sys2Proof.Machine.execCrateSpillReturn st core s
  | .mwload b => Sys2Proof.Machine.execMwload b s
  | .mswap b => Sys2Proof.Machine.execMswap b s
  | .mstream b => Sys2Proof.Machine.execMstream b s
  | .mscale b => Sys2Proof.Machine.execMscale b s
  | .mzero b => Sys2Proof.Machine.execMzero b s
  | .mtag b => Sys2Proof.Machine.execMtag b s
  | .mgang b => Sys2Proof.Machine.execMgang b s
  | .matrixCommandComplete b k => Sys2Proof.Machine.execMatrixCommandComplete b k s
  | .ringUnderrunTimeout b => Sys2Proof.Machine.execRingUnderrunTimeout b s
  | .copyComplete st core k => Sys2Proof.Machine.execCopyComplete st core k s
  | .copyFault st core k => Sys2Proof.Machine.execCopyFault st core k s
  | .collectiveRendezvous grp => Sys2Proof.Machine.execCollectiveRendezvous grp s
  | .collectiveComplete st k => Sys2Proof.Machine.execCollectiveComplete st k s
  | .storeDrain q => Sys2Proof.Machine.execStoreDrain q s
  | .bufferedWritePerform st k => Sys2Proof.Machine.execBufferedWritePerform st k s
  | .dcLocalRead st line => Sys2Proof.Machine.execDcLocalRead st line s
  | .dcLocalWrite st line => Sys2Proof.Machine.execDcLocalWrite st line s
  | .dcEviction st line => Sys2Proof.Machine.execDcEviction st line s
  | .transientRequestAtCache k => Sys2Proof.Machine.execTransientRequestAtCache k s
  | .transientRequestAtHome k => Sys2Proof.Machine.execTransientRequestAtHome k s
  | .tokenMessageAtCache k => Sys2Proof.Machine.execTokenMessageAtCache k s
  | .tokenMessageAtHome k => Sys2Proof.Machine.execTokenMessageAtHome k s
  | .missTimerExpire st line => Sys2Proof.Machine.execMissTimerExpire st line s
  | .activate k => Sys2Proof.Machine.execActivate k s
  | .deactivate k => Sys2Proof.Machine.execDeactivate k s
  | .acknowledge k => Sys2Proof.Machine.execAcknowledge k s
  | .farAtomic st k => Sys2Proof.Machine.execFarAtomic st k s
  | .protectedDeferralEnd st line => Sys2Proof.Machine.execProtectedDeferralEnd st line s
  | .messageArrival k => Sys2Proof.Machine.execMessageArrival k s
  | .messageAck k => Sys2Proof.Machine.execMessageAck k s
  | .returnedMessage k => Sys2Proof.Machine.execReturnedMessage k s
  | .migrationForward k => Sys2Proof.Machine.execMigrationForward k s
  | .fire st k => Sys2Proof.Machine.execFire st k s
  | .queueFetch st => Sys2Proof.Machine.execQueueFetch st s
  | .launchEntry st k => Sys2Proof.Machine.execLaunchEntry st k s
  | .mlaunch st k => Sys2Proof.Machine.execMlaunch st k s
  | .signal st k => Sys2Proof.Machine.execSignal st k s
  | .waitmem st k => Sys2Proof.Machine.execWaitmem st k s
  | .waitmemReread st k => Sys2Proof.Machine.execWaitmemReread st k s
  | .copyEntry st k => Sys2Proof.Machine.execCopyEntry st k s
  | .reply st k => Sys2Proof.Machine.execReply st k s
  | .nopEntry st k => Sys2Proof.Machine.execNopEntry st k s
  | .pass st k => Sys2Proof.Machine.execPass st k s
  | .draw st k => Sys2Proof.Machine.execDraw st k s
  | .passend st k => Sys2Proof.Machine.execPassend st k s
  | .launchComplete st k => Sys2Proof.Machine.execLaunchComplete st k s
  | .recordRelease st => Sys2Proof.Machine.execRecordRelease st s
  | .doorbellWrite st q v => Sys2Proof.Machine.execDoorbellWrite st q v s
  | .queueDescriptorWrite st q off v => Sys2Proof.Machine.execQueueDescriptorWrite st q off v s
  | .queueAbort st q => Sys2Proof.Machine.execQueueAbort st q s
  | .completionConsWrite st v => Sys2Proof.Machine.execCompletionConsWrite st v s
  | .blockPlace st core => Sys2Proof.Machine.execBlockPlace st core s
  | .eviction st => Sys2Proof.Machine.execEviction st s
  | .pipelineReassign st k => Sys2Proof.Machine.execPipelineReassign st k s
  | .pipelineDrain st k => Sys2Proof.Machine.execPipelineDrain st k s
  | .groupDeal st => Sys2Proof.Machine.execGroupDeal st s
  | .drawStart k => Sys2Proof.Machine.execDrawStart k s
  | .primitivePacket k => Sys2Proof.Machine.execPrimitivePacket k s
  | .done k => Sys2Proof.Machine.execDone k s
  | .passEnd k => Sys2Proof.Machine.execPassEnd k s
  | .groupRetire k => Sys2Proof.Machine.execGroupRetire k s
  | .frontierRelease st => Sys2Proof.Machine.execFrontierRelease st s
  | .backEndApply st => Sys2Proof.Machine.execBackEndApply st s
  | .passAbort st => Sys2Proof.Machine.execPassAbort st s
  | .haltComplete b => Sys2Proof.Machine.execHaltComplete b s
  | .asyncCauseDelivery b => Sys2Proof.Machine.execAsyncCauseDelivery b s
  | .jobFault b => Sys2Proof.Machine.execJobFault b s
  | .blockSave b => Sys2Proof.Machine.execBlockSave b s
  | .saveTimeout b => Sys2Proof.Machine.execSaveTimeout b s
  | .blockRestore st slot core => Sys2Proof.Machine.execBlockRestore st slot core s
  | .singleStep q => Sys2Proof.Machine.execSingleStep q s
  | .crtCas st k old new => Sys2Proof.Machine.execCrtCas st k old new s
  | .trootWrite st v => Sys2Proof.Machine.execTrootWrite st v s
  | .tshootWrite st off v => Sys2Proof.Machine.execTshootWrite st off v s
  | .shootdownComplete st => Sys2Proof.Machine.execShootdownComplete st s
  | .exportRevoke st k off v => Sys2Proof.Machine.execExportRevoke st k off v s
  | .revocationComplete st => Sys2Proof.Machine.execRevocationComplete st s
  | .exptWrite st v => Sys2Proof.Machine.execExptWrite st v s
  | .stockWrite st v => Sys2Proof.Machine.execStockWrite st v s
  | .codeaWrite st v => Sys2Proof.Machine.execCodeaWrite st v s
  | .cspillWrite st v => Sys2Proof.Machine.execCspillWrite st v s
  | .mspillWrite st v => Sys2Proof.Machine.execMspillWrite st v s
  | .rspillWrite st v => Sys2Proof.Machine.execRspillWrite st v s
  | .saveaWrite st v => Sys2Proof.Machine.execSaveaWrite st v s
  | .marketTableWrite k mask ctl => Sys2Proof.Machine.execMarketTableWrite k mask ctl s
  | .collGroupWrite st k off v => Sys2Proof.Machine.execCollGroupWrite st k off v s
  | .registerWrite st off v => Sys2Proof.Machine.execRegisterWrite st off v s
  | .finaliserRun st k => Sys2Proof.Machine.execFinaliserRun st k s
  | .dmcRetireSwap st => Sys2Proof.Machine.execDmcRetireSwap st s
  | .migClear st core => Sys2Proof.Machine.execMigClear st core s
  | .firmwareSwitch site kind => Sys2Proof.Machine.execFirmwareSwitch site kind s
  | .l1Eviction st core line => Sys2Proof.Machine.execL1Eviction st core line s
  | .postedWriteComplete st k => Sys2Proof.Machine.execPostedWriteComplete st k s
  | .hostRead io pa n => Sys2Proof.Machine.execHostRead io pa n s
  | .hostWrite pa bs => Sys2Proof.Machine.execHostWrite pa bs s
  | .uncorrectableError e => Sys2Proof.Machine.execUncorrectableError e s
  | .correctableError st core pad user => Sys2Proof.Machine.execCorrectableError st core pad user s
  | .ceWindowEnd st => Sys2Proof.Machine.execCeWindowEnd st s
  | .stallMove st site => Sys2Proof.Machine.execStallMove st site s
  | .laneRecalibration edge bad => Sys2Proof.Machine.execLaneRecalibration edge bad s
  | .edgeFailure edge => Sys2Proof.Machine.execEdgeFailure edge s
  | .firmwareUpdate site kind img => Sys2Proof.Machine.execFirmwareUpdate site kind img s
  | .rollbackFloorRaise site v => Sys2Proof.Machine.execRollbackFloorRaise site v s
  | .spdmRequest fn req => Sys2Proof.Machine.execSpdmRequest fn req s
  | .powerCapSet w => Sys2Proof.Machine.execPowerCapSet w s
  | .powerStepChange st step => Sys2Proof.Machine.execPowerStepChange st step s
  | .boot bad badEdges => Sys2Proof.Machine.execBoot bad badEdges s
  | .stallLost st => Sys2Proof.Machine.execStallLost st s
  | .hostPortLinkFailure p => Sys2Proof.Machine.execHostPortLinkFailure p s
  | .hostPortLinkRestore p => Sys2Proof.Machine.execHostPortLinkRestore p s
  | .scalePortFailure p => Sys2Proof.Machine.execScalePortFailure p s
  | .scalePortRestore p => Sys2Proof.Machine.execScalePortRestore p s
  | .switchPlaneSetup pkg => Sys2Proof.Machine.execSwitchPlaneSetup pkg s
  | .externalPeerAccess pa wr n => Sys2Proof.Machine.execExternalPeerAccess pa wr n s
  | .stallReset st => Sys2Proof.Machine.execStallReset st s

end Sys2Proof.Machine
end

