-- ==== Sys2Proof/Machine/Auto.lean ====
section
/-! DEFINITION. Which squad an issue slot issues (R157 to R159, R357), the fetch and issue of its word (R62, R82), and the order
in which the machine takes its turns where the agenda names none (log 1). -/

set_option Elab.async false

namespace Sys2Proof.Machine

open Sys2Proof

/-! ## The next word of a squad -/

/-- A fetch or decode cause of the issuing squad (R82). -/
def State.fetchCause (s : State) (code : Nat) : State :=
  match Ctx.of s (Hdr.plain false) with
  | none => s
  | some c => c.unpark.raiseAll code

/-- Skip n free choices. -/
def State.skipFree (s : State) (n : Nat) : State := { s with free := s.free + n }

/-- The word that a squad fetches next and the state that has fetched it, or the cause of a failed fetch. -/
def State.fetchNext (s : State) (q : Sel) : Except Nat (DWord × State) :=
  match s.block? q.blk, s.squad? q with
  | some b, some sq => match s.fetch q b.kern sq.sup sq.pc 0 with
    | .error c => .error c
    | .ok w => .ok (w, { (s.keepCode q b.kern sq.sup sq.pc w).skipFree 2 with cur := q })
  | _, _ => .error 0x21

/-- The word that a squad would issue next. -/
def State.nextWord (s : State) (q : Sel) : Option DWord :=
  match s.fetchNext q with
  | .error _ => none
  | .ok (w, _) => some w

/-- The free choices that one word may use beyond those it has counted itself. -/
def wordChoices : Nat := 128

/-- The outcome of a word with the free choices it used behind it. -/
def afterWord : Host.Outcome State Fault Refusal → Host.Outcome State Fault Refusal
  | .next s => .next (s.skipFree wordChoices)
  | o => o

/-- A fetched word takes effect for the issuing squad. A word that does not decode raises its cause at once; a word at a switch
marker waits for its results before its operands are checked (R77, log 54). -/
def State.issueFetched (s : State) (w : DWord) : Host.Outcome State Fault Refusal :=
  match decode w with
  | .error c => .next (s.fetchCause c)
  | .ok i => afterWord (exec i s)

/-- A squad issues its next word: fetch, decode, and the word's meaning (R62, R82). A word whose fetch waits for a token has not
issued (R271). -/
def State.issueWord (s : State) (q : Sel) : Host.Outcome State Fault Refusal :=
  match s.fetchNext q with
  | .error c => .next (if isWait c then s.askFor q.stall c else (State.fetchCause { s with cur := q } c).skipFree 2)
  | .ok (w, s') => s'.issueFetched w

/-- Two squads issue one word, fetched once (R158, R159): the first squad's instance, then the second's where the squad is still
resident. -/
def State.issuePair (s : State) (a b : Sel) : Host.Outcome State Fault Refusal :=
  match s.fetchNext a with
  | .error _ => s.issueWord a
  | .ok (w, s') => match s'.issueFetched w with
    | .next s'' => if (s''.squad? b).isSome then State.issueFetched { s'' with cur := b } w else .next s''
    | o => o

/-! ## Readiness (R157) and rank (R357) -/

/-- Whether a parked squad that asks again for what it waits for would now go on. -/
def State.wouldGo (s : State) (q : Sel) : Bool :=
  match s.issueWord q with
  | .next s' => (match s'.squad? q with
    | none => true
    | some sq => sq.park ≠ .tags && sq.park ≠ .pwait)
  | _ => false

/-- Whether a squad's park lets it issue. A word that holds its issue slot asks again. -/
def State.parkOver (s : State) (q : Sel) (sq : Squad) : Bool :=
  match sq.park with
  | .none | .slot _ => true
  | .marker => !sq.awaited
  | .tags | .pwait => s.wouldGo q
  | _ => false

/-- Whether a squad of a block that comes to a halt issues a word still (R435): in the clock of a word's cause, and later within the
skid's bounds where a free choice has it so (log 6). A halt that no word made starts at a word boundary (R436). -/
def State.maySkid (s : State) (q : Sel) (b : Block) (sq : Squad) : Bool :=
  let now := s.cyc q.stall q.core
  b.halt.phase = .halting && !sq.hr.stopped && !sq.sup && !sq.hr.mute && sq.park = .none && sq.hr.skid.toNat < 6
    && ((now = b.halt.saveFrom && (b.halt.flane ≠ 0x7F || b.halt.psq = 0xFF))
      || (now ≤ b.halt.saveFrom + (if b.halt.psq = 0xFF then 96 else 48) && Config.freeBool s.free))

/-- Whether a block issues words: it runs, and no cause without a word is due at this word boundary (R436, R437). -/
def Block.issues (b : Block) : Bool := b.halt.phase = .run && b.halt.pendJob.isEmpty && b.halt.pendAsync.isEmpty

/-- Whether a resident squad is ready (R157, R435, R445, R459). -/
def State.isReady (s : State) (q : Sel) : Bool :=
  match s.block? q.blk, s.squad? q with
  | some b, some sq =>
    !sq.issuing.isEmpty && !sq.stepped
      && ((b.issues && !sq.hr.stopped) || (b.halt.phase = .inSup && sq.sup) || s.maySkid q b sq) && s.parkOver q sq
  | _, _ => false

/-- The squads of an issue slot of a core (R43). -/
def State.slotSquads (s : State) (st core islot : Nat) : List Sel :=
  (s.core st core).blocks.flatMap fun b =>
    (b.2.squads.filter fun x => x.1 % 4 = islot).map fun x => ⟨st, core, b.1, x.1⟩

/-- Whether a list of keys goes before another. -/
def keysBefore : List Nat → List Nat → Bool
  | a :: s, b :: t => a < b || (a = b && keysBefore s t)
  | _, _ => false

/-- The keys of a ready squad, in order (R357): starved squads first, and of those the longest starved; priority; graphics before
compute; the clock in which it became ready; block position and squad slot. -/
def State.rank (s : State) (q : Sel) : List Nat :=
  match s.block? q.blk, s.squad? q with
  | some b, some sq =>
    let now := s.cyc q.stall q.core
    let since := sq.ready.getD now
    let idle := max since sq.issued
    let (prio, gfx) : Nat × Bool := match (s.stall q.stall).launch? b.launch with
      | some l => (l.prio, l.graphics)
      | none => (0, false)
    (if idle + 256 ≤ now then [0, idle] else [1, 0]) ++ [7 - prio, if gfx then 0 else 1, since, q.pos, q.slot]
  | _, _ => []

/-- The squad of a list that ranks first. -/
def State.rankFirst (s : State) : List Sel → Option Sel
  | [] => none
  | q :: t => match s.rankFirst t with
    | none => some q
    | some r => if keysBefore (s.rank r) (s.rank q) then some r else some q

/-- Whether a squad's word holds its issue slot (R157). -/
def State.holdsSlot (s : State) (q : Sel) : Bool :=
  match s.squad? q with
  | some sq => (match sq.park with
    | .slot _ => true
    | _ => false)
  | none => false

/-- The squad that an issue slot issues: the one whose word occupies the slot already, else the first of the ranking (R157, R357). -/
def State.pick (s : State) (st core islot : Nat) : Option Sel :=
  let ready := (s.slotSquads st core islot).filter s.isReady
  match ready.find? s.holdsSlot with
  | some q => some q
  | none => s.rankFirst ready

/-! ## Paired issue (R158, R159) -/

/-- Whether an instruction writes a scalar register. -/
def writesSca (i : Instr) : Bool :=
  match (finInt i <|> finFp i) <|> finMem i with
  | some u => u.uses.any fun x => x.w && x.o.isSca
  | none => false

/-- Whether a word may issue for two squads together: a pair word, or a full-form word of the ranges of R158 that writes no
scalar register. A word that does not decode writes nothing. -/
def mayPair (w : DWord) : Bool :=
  let opc := field w 61 54
  let sca : Bool := match decode w with
    | .ok i => writesSca i
    | .error _ => false
  w.getLsbD 62 || ((opc < 0x50 || (0x70 ≤ opc && opc ≤ 0x78)) && !sca)

/-- Whether no quad has a present lane in both squads. -/
def quadsApart (a b : Squad) : Bool :=
  !(a.issuing.any fun x => b.issuing.any fun y => decide (x.1 / 4 = y.1 / 4))

/-- Whether a squad has held groups. -/
def Squad.holds (q : Squad) : Bool := q.lanes.any fun l => match l.2.at' with
  | .held _ => true
  | _ => false

/-- The squad that issues with the chosen one: the lowest slot that qualifies (R158). -/
def State.partner (s : State) (q : Sel) : Option Sel :=
  match s.block? q.blk, s.squad? q, s.nextWord q with
  | some b, some sq, some w =>
    if sq.holds || !mayPair w || (w.getLsbD 63 && sq.flight.any Flight.named) then none
    else
      (List.find? (fun (x : Nat × Squad) => x.1 ≠ q.slot && x.1 % 4 = q.slot % 4 && x.2.role = sq.role && x.2.pc = sq.pc
          && x.2.sup = sq.sup && !x.2.holds && quadsApart sq x.2 && !(w.getLsbD 63 && x.2.flight.any Flight.named)
          && s.isReady { q with slot := x.1 }) b.squads).map fun x => { q with slot := x.1 }
  | _, _, _ => none

/-- An issue slot starts a word: of one squad, or of two, the lower slot first (R157, R159). -/
def State.slotTurn (s : State) (st core islot : Nat) : Host.Outcome State Fault Refusal :=
  match s.pick st core islot with
  | none => .next s
  | some q => match s.partner q with
    | none => s.issueWord q
    | some p => if p.slot < q.slot then s.issuePair p q else s.issuePair q p

/-! ## The clock -/

/-- Squads that are ready keep the clock in which they became so (R357). -/
def State.noteReady (s : State) (st : Nat) : State :=
  ((s.stall st).squads st).foldl (fun s' x =>
    let r := if s.isReady x.1 then some (x.2.ready.getD (s.stall st).clock) else none
    if x.2.ready = r then s' else s'.modSquad x.1 fun q => { q with ready := r }) s

/-- The writes of control registers that a core's words made in the clock take effect (R156). -/
def Core.crLand (c : Core) : Core :=
  { c with blocks := c.blocks.map fun b => (b.1, if b.2.crw.isEmpty then b.2 else b.2.crLand) }

/-- The clock of a die advances, and with it the time on the oscillator of its DMC: a clock is 1/2.1, 1/1.8, 1/1.5 or 1/1.2 ns long
(R469, R476). -/
def State.tickTurn (s : State) (st n : Nat) : State :=
  (s.noteReady st).modStall st fun t => { t with
    clock := t.clock + n, osc := t.osc + n * (420 / (7 - field t.pwr 7 4)), cores := t.cores.map fun c => (c.1, c.2.crLand) }

/-! ## Turns -/

/-- The words are no events: they issue from an issue slot only. -/
def isWord (i : Instr) : Bool := (encode i).isSome

/-- One turn (log 1). -/
def State.runTurn (s : State) : Turn → Host.Outcome State Fault Refusal
  | .slot st core islot => s.slotTurn st core islot
  | .event i => if isWord i then .next s else exec i s
  | .tick st n => .next (s.tickTurn st n)

/-! ## The turns of one clock, where nothing else is asked for (log 1) -/

/-- The numbers below n, the greatest first. -/
def downFrom : Nat → List Nat
  | 0 => []
  | n + 1 => n :: downFrom n

/-- The lines that a squad's loads may read now. -/
def Squad.readLines (q : Squad) : List (Nat × Bool) :=
  nub (q.flight.flatMap fun f => f.reads.filterMap fun r => match r.place with
    | .dev pa => if q.mayRead f r then some (pa / 64, match r.resv with
      | some (_, true) => true
      | _ => false) else none
    | _ => none)

/-- The line that the head of a squad's store queue waits for. -/
def Squad.headLine (q : Squad) : Option Nat :=
  match q.sq with
  | [] => none
  | e :: _ =>
    let first (ls : List AtLane) : Option Nat := match ls with
      | l :: _ => if l.far then none else some l.place.line
      | [] => none
    match e.op with
    | .atomic _ ls => first ls
    | .scs _ ls => first ls
    | _ => none

/-- What a squad may do next besides issuing a word. -/
def squadEvents (q : Sel) (x : Squad) : List Instr :=
  (if x.stepped then [Instr.singleStep q] else [])
  ++ (if x.dueLoop.isSome then [.loopEndTest q] else [])
  ++ (if x.point.isSome then [.heldGroupAge q] else [])
  ++ (match x.park with
    | .wait _ _ _ _ => [.waitReturn q, .waitTimeout q]
    | .reload => [.drawReloadComplete q]
    | _ => [])
  ++ (x.readLines.map fun l => if l.2 then .dcLocalWrite q.stall l.1 else .dcLocalRead q.stall l.1)
  ++ (x.headLine.toList.map fun l => .dcLocalWrite q.stall l)
  ++ (if x.sq.isEmpty then [] else [.storeDrain q])
  ++ ((List.range x.flight.length).map fun i => .resultReturn q i)

/-- What a block may do next, besides dispatching matrix commands. -/
def blockEvents (b : BSel) (k : Block) : List Instr :=
  (match k.halt.phase with
    | .run => (if k.halt.pendJob.isEmpty then [] else [Instr.jobFault b])
        ++ (if k.halt.pendAsync.isEmpty then [] else [.asyncCauseDelivery b])
    | .halting | .toSup => [.haltComplete b]
    | .saving => [.blockSave b, .saveTimeout b]
    | _ => [])
  ++ (if k.eng.mqh = k.eng.mqt then [] else [.ringUnderrunTimeout b])
  ++ ((downFrom k.eng.run.length).map fun i => .matrixCommandComplete b i)
  ++ k.squads.flatMap fun x => squadEvents ⟨b.stall, b.core, b.pos, x.1⟩ x.2

/-- The dispatch of a matrix command, whichever the oldest one is (R220). -/
def dispatchEvents (b : BSel) (k : Block) : List Instr :=
  if k.eng.mqh = k.eng.mqt then [] else [.mwload b, .mswap b, .mstream b, .mscale b, .mzero b, .mtag b, .mgang b]

/-- What the jobs of an ended block may do next. -/
def leftEvents (b : BSel) (k : Block) : List Instr :=
  (if k.halt.pendJob.isEmpty then [] else [Instr.jobFault b]) ++ (downFrom k.eng.run.length).map fun i => .matrixCommandComplete b i

/-- What a core may do next. -/
def coreEvents (st core : Nat) (c : Core) : List Instr :=
  (c.blocks.flatMap fun b => blockEvents ⟨st, core, b.1⟩ b.2) ++ (c.left.flatMap fun b => leftEvents ⟨st, core, b.1⟩ b.2)
  ++ ((downFrom c.copies.length).flatMap fun i => [.copyComplete st core i, .copyFault st core i])
  ++ (c.pf.map fun l => .dcLocalRead st l)
  ++ (if c.recs.isEmpty then [] else [.crateSpillReturn st core, .forcedFiling st core])

/-- How an entry of a queue goes on. -/
def entryEvents (st i : Nat) (e : Entry) : List Instr :=
  match e.ty with
  | 1 => [.launchEntry st i]
  | 2 => [.mlaunch st i]
  | 3 => [.signal st i]
  | 4 => [.waitmem st i, .waitmemReread st i]
  | 5 => [.copyEntry st i]
  | 6 => [.reply st i]
  | 0x10 => [.pass st i]
  | 0x11 => [.draw st i]
  | 0x12 => [.passend st i]
  | _ => []

/-- Placement: the next launch's block starts, is restored, or has others evicted for it; evictions under way go on. -/
def placeEvents (st : Nat) (t : Stall) : List Instr :=
  match t.nextLaunch with
  | none => if t.evicting.isEmpty then [] else [.eviction st]
  | some l =>
    (match t.restorePicks l with
      | some ((v, c) :: _) => [.blockRestore st v.cslot c]
      | _ => [])
    ++ (match t.picks l with
      | some (c :: _) => [.blockPlace st c]
      | _ => [])
    ++ [.eviction st]

/-- What a stall's units may do next. -/
def stallEvents (s : State) (st : Nat) (t : Stall) : List Instr :=
  (t.cores.flatMap fun c => coreEvents st c.1 c.2)
  ++ ((nub (t.wbuf.map fun w => w.pa / 64)).map fun l => .dcLocalWrite st l) ++ (t.want.map fun l => .dcLocalRead st l.1)
  ++ ((downFrom t.posted.length).map fun i => .postedWriteComplete st i)
  ++ ((downFrom t.far.length).map fun i => .farAtomic st i)
  ++ (t.dc.filterMap fun l => if l.2.miss = .none then none else some (.missTimerExpire st l.1))
  ++ ((nub (t.ptab.map fun e => e.2.line)).filter (fun l => 1 ≤ (s.dcLine st l).t || s.homeStall l = st)).map (.protectedDeferralEnd st)
  ++ (if t.shoots.isEmpty then [] else [.shootdownComplete st, .shootdownComplete st])
  ++ (if t.revokes.isEmpty then [] else [.revocationComplete st, .revocationComplete st])
  ++ ((downFrom t.fires.length).map fun i => .fire st i)
  ++ ((downFrom t.colls.length).flatMap fun i => match t.colls[i]? with
    | some j => [.collectiveRendezvous j.grp, .collectiveComplete st i]
    | none => [])
  ++ ((nub ((t.migbuf.map (·.dcore)) ++ (List.range 48).filter fun l =>
      (Tab.get 0 t.crt l).getLsbD 14 || (t.retiring l).isSome)).map fun l => .migClear st l)
  ++ (if (List.range 48).any (fun l => (t.retiring l).isSome) then [.dmcRetireSwap st] else [])
  ++ (t.queues.filterMap fun q => if q.2.abort then some (.queueAbort st q.1) else none)
  ++ (if t.qdesc.isEmpty then [] else .queueFetch st :: (List.range (t.entries.length + 1)).map (.nopEntry st))
  ++ ((List.range t.entries.length).flatMap fun i => match t.entries[i]? with
    | some e => entryEvents st i e
    | none => [])
  ++ ((downFrom t.launches.length).flatMap fun i => match t.launches[i]? with
    | some l => if l.fin then [.finaliserRun st i, .launchComplete st i] else [.launchComplete st i]
    | none => [])
  ++ (if t.heldRecs.isEmpty then [] else [.recordRelease st])
  ++ ((List.range t.pipes.length).flatMap fun i => [.pipelineDrain st i, .pipelineReassign st i])
  ++ (if s.passes.isEmpty then [] else [.passAbort st, .groupDeal st, .frontierRelease st, .backEndApply st])
  ++ placeEvents st t

/-- Where a message on the mesh arrives. -/
def msgEvent (i : Nat) : Msg → Instr
  | .trans _ _ _ _ home => if home then .transientRequestAtHome i else .transientRequestAtCache i
  | .token _ _ _ _ _ _ _ _ home => if home then .tokenMessageAtHome i else .tokenMessageAtCache i
  | .activate _ _ _ _ => .activate i
  | .deactivate _ _ => .deactivate i
  | .ack _ _ _ => .acknowledge i
  | .send _ => .messageArrival i
  | .sendAck _ => .messageAck i
  | .ret _ => .returnedMessage i

/-- Where a message on the primitive channel arrives. -/
def primEvent (i : Nat) : PrimMsg → Instr
  | .drawStart _ _ _ _ => .drawStart i
  | .packet _ _ => .primitivePacket i
  | .done _ _ _ _ _ => .done i
  | .passEnd _ _ _ => .passEnd i
  | .retired _ _ _ => .groupRetire i

/-- The stalls that are in service. -/
def State.alive (s : State) : List (Nat × Stall) := s.stalls.filter fun t => s.siteState t.1 ≠ 3

/-- Every event that may be due now. The messages go last to first, so that none changes the place of one still to come. -/
def State.dueEvents (s : State) : List Instr :=
  ((downFrom s.net.length).filterMap fun i => (s.net[i]?).map (msgEvent i))
  ++ ((List.range s.prims.length).filterMap fun i => ((s.prims)[s.prims.length - 1 - i]?).map (primEvent (s.prims.length - 1 - i)))
  ++ (s.alive.flatMap fun t => stallEvents s t.1 t.2)
  ++ s.pendFirm.map fun f => .firmwareSwitch f.1 f.2

/-- The turns of a core: a word of each issue slot with squads; then the matrix commands of its blocks dispatch (R309); then its bins
are drawn, after the filings of the clock (R167, R170). -/
def coreTurns (st core : Nat) (c : Core) : List Turn :=
  (((List.range 4).filter fun i => c.blocks.any fun b => b.2.squads.any fun q => q.1 % 4 = i).map fun i => .slot st core i)
  ++ (c.blocks.flatMap fun b => dispatchEvents ⟨st, core, b.1⟩ b.2).map .event
  ++ (if c.blocks.isEmpty then [] else [.event (.binDraw st core)])

/-- The turns of one clock: every event that may be due, then each core's words, dispatches and draws, then each die's clock. -/
def State.clockTurns (s : State) : List Turn :=
  s.dueEvents.map .event ++ (s.alive.flatMap fun t => t.2.cores.flatMap fun c => coreTurns t.1 c.1 c.2) ++ s.alive.map fun t => .tick t.1 1

end Sys2Proof.Machine
end

