-- ==== Sys2Proof/Machine/Step.lean ====
section
/-! DEFINITION. One step of the machine: the next turn of the agenda, or the first of the turns of a new clock (log 1); and the
placing of an instruction where the next step fetches it. -/

set_option Elab.async false

namespace Sys2Proof.Machine

open Sys2Proof

/-- One step. -/
def step (s : State) : Host.Outcome State Fault Refusal :=
  match s.agenda with
  | t :: rest => State.runTurn { s with agenda := rest } t
  | [] => match s.clockTurns with
    | [] => .next s
    | t :: rest => State.runTurn { s with agenda := rest } t

/-! ## Placing an instruction (log 4) -/

/-- The squad that the next step issues, and the place in device memory of its next word. -/
def State.nextFetch (s : State) : Option (Sel × Nat) :=
  match s.agenda with
  | .slot st core islot :: _ => (match s.pick st core islot with
    | none => none
    | some q => match s.block? q.blk, s.squad? q with
      | some b, some sq => (match s.codeAt st b.kern sq.sup sq.pc 0 with
        | .ok (.dev pa) => if s.lostAny pa 8 || !s.readableAt st pa 8 then none else some (q, pa)
        | _ => none)
      | _, _ => none)
  | _ => none

/-- Store a word where a core of a stall fetches it: in memory, with no buffered write and no cached copy over it. -/
def State.storeWord (s : State) (q : Sel) (pa w : Nat) : State :=
  { (s.modStall q.stall fun t => { (t.modCore q.core fun c => { c with icache := c.icache.del pa }) with
      wbuf := t.wbuf.filter fun x => x.pa + x.bytes.length ≤ pa || pa + 8 ≤ x.pa }) with
    mem := s.mem.wrs pa (leBytes 8 w) }

/-- The kernel of the placed program: one squad of 16 threads with 192 registers each, 64 KiB of pad, 16 KiB of accumulator
memory, and code in place at 0x2_0000. -/
def placedKern : Kern where
  width := 16
  quad := false
  roles := [⟨1, 192, 0⟩]
  pad := 65536
  am := 16384
  bage := 256
  routes := 0
  mqBase := 0
  mqEnt := 0
  stages := 0
  mbox := []
  words := 1
  entry := 0
  kaddr := 0x20000
  area := none

/-- Its launch: one block of 16 threads. -/
def placedLaunch (id : Nat) : Launch :=
  { (Origin.launch ⟨id, .device 0, false, 7, 0xFF, 0, 0, 0⟩ placedKern [] false) with grid := 1, bshape := 16, gang := 1, next := 1 }

/-- Page tables that map the first 16 GiB of stall 0's memory where user code may read, write and run them: the root table at
0x1_0000 and one leaf of level 2 at 0x1_1000. -/
def placedTables (s : State) : Mem :=
  (s.mem.wrs (s.localPa 0 0x10000) (leBytes 8 0x11001)).wrs (s.localPa 0 0x11000) (leBytes 8 0x1E3)

/-- Give a stall's die cache a token of a line and its data, the other tokens lying at the home (R270, R271): the stall can read it. -/
def State.prime (s : State) (st line : Nat) : State :=
  if s.readable st line then s
  else State.putDc (State.putHome { s with stalls := s.stalls.map fun t => (t.1, { t.2 with dc := t.2.dc.del line }) } line ⟨63, true, none⟩)
    st line { DcLine.empty with t := 1, v := true }

/-- The lines that the one-word program is fetched by: its page tables and its code. -/
def placedLines (s : State) : List Nat := [0x10000, 0x11000, 0x20100].map fun a => s.localPa 0 a / 64

/-- Load the one-word program and select its squad. -/
def State.placeProgram (s : State) : State :=
  let l := placedLaunch s.nextId
  let b := l.block 0 0 none .grid (s.stall 0).clock s.nextId
  { ((placedLines s).foldl (fun s l => s.prime 0 l) s).modStall 0 fun t =>
      { (t.modCore 0 fun c => { c with blocks := [(0, b)] }) with
        troot := 0x10001, tlb := [], launches := t.launches ++ [l] } with
    mem := placedTables s
    lost := []
    agenda := .slot 0 0 0 :: s.agenda
    nextId := s.nextId + 1 }

/-- The state with an instruction where the next step fetches it. The word of 64 bits is numbered as the opcode table numbers
it; bits above `nbits` are zero. Where no squad is about to issue, a program is loaded and its squad selected first. -/
def State.withFetchWord (s : State) (nbits w : Nat) : State :=
  match s.nextFetch with
  | some (q, pa) => s.storeWord q pa (w % 2 ^ nbits)
  | none =>
    let s' := s.placeProgram
    s'.storeWord ⟨0, 0, 0, 0⟩ (s'.localPa 0 0x20100) (w % 2 ^ nbits)

end Sys2Proof.Machine
end

