-- ==== Sys2Proof/Safety.lean ====
section
/-! DEFINITION. The terms that claims use: what a reader observes of the machine, when a word issues, what a register word
leaves behind, and the rules' own formulas for results. -/

set_option Elab.async false

namespace Sys2Proof.Machine

open Sys2Proof

/-! ## What is observed -/

/-- A lane of a squad. -/
def State.lane? (s : State) (q : Sel) (l : Nat) : Option Lane :=
  match s.squad? q with
  | none => none
  | some sq => Tab.find? sq.lanes l

/-- A lane but for where it stands in its squad: its registers, predicates, random state, stack and the rest. -/
def Lane.body (ln : Lane) : Lane := { ln with at' := .issue }

/-- A lane's body in a state. -/
def State.body? (s : State) (q : Sel) (l : Nat) : Option Lane := (s.lane? q l).map Lane.body

/-- The scalar file that a squad's words name, in its mode (R446). -/
def State.scaFile (s : State) (q : Sel) (sup : Bool) : Tab Word :=
  if sup then Tab.get [] (s.core q.stall q.core).supFile q.islot
  else match s.squad? q with
    | none => []
    | some sq => sq.sca

/-- Every byte of every memory reads as before. -/
def SameMemory (s t : State) : Prop :=
  ∀ a, t.mem.rd a = s.mem.rd a ∧ t.hostMem.rd a = s.hostMem.rd a ∧ t.extMem.rd a = s.extMem.rd a

/-- What a word that touches its own squad's registers leaves alone in a block: all but its squads and FPC. -/
def Block.besides (b : Block) : Block := { b with squads := [], fpc := .of 0 }

/-- What such a word leaves alone in its squad: all but the lanes, the scalar file, and the bookkeeping of issue (the PC, the
point of a transfer, the clocks, and the skid count). -/
def Squad.besides (q : Squad) : Squad :=
  { q with pc := 0, lanes := [], sca := [], point := none, issued := 0, stepped := false, hr := { q.hr with skid := 0 } }

/-! ## When a word issues -/

/-- What a word sees once it has passed its switch marker (R77). -/
def Ctx.start (c : Ctx) (marked : Bool) : Ctx := (if marked then c.clearFlight else c).unpark

/-- The squad of `State.cur` issues a word with this guard and these operands, and the word has no cause of its decode: what
its effect sees is `c`. A marked word has waited for its results. -/
def Issues (s : State) (h : Hdr) (u : Ctx → WordUse) (c : Ctx) : Prop :=
  ∃ c₀, Ctx.of s h = some c₀ ∧ (h.s = true → c₀.sq.awaited = false) ∧ c = c₀.start h.s
    ∧ (u c).cause c h.s = none ∧ c.awaits (u c) = false

/-- A table's keys rise strictly. -/
def Rising {α : Type} (t : Tab α) : Prop := (Tab.keys t).Pairwise (· < ·)

/-- The tables of squads and of lanes are in order, as every run keeps them. -/
def Ordered (s : State) : Prop :=
  (∀ b k, s.block? b = some k → Rising k.squads) ∧ ∀ q sq, s.squad? q = some sq → Rising sq.lanes

/-- The lanes that a register word acts for: every active lane, or the acting lane where its destination is scalar (R116). -/
def Ctx.actors (c : Ctx) (d : Opnd) : List (Nat × Lane) := if d.isSca then c.acting.toList else c.act

/-- The checks of a word's operands as the finaliser tabulates them. -/
def FinUse.word (u : FinUse) : WordUse := { uses := u.uses, reduce := u.reduce, bad := u.bad, priv := u.priv, all := u.all }

/-! ## What a register word leaves behind -/

/-- A register word: its guard, its destination, and what each of its lanes writes, or its cause. -/
structure LaneWord where
  h : Hdr
  d : Opnd
  out : Ctx → Nat → Lane → Except Nat LaneOut

/-- No lane but a helper meets a cause: neither one of the word, nor an exception whose enable is set (R111). -/
def LaneWord.quiet (w : LaneWord) (c : Ctx) : Prop :=
  ∀ l ln, (l, ln) ∈ c.actors w.d → ln.helper = false → ∃ o, w.out c l ln = .ok o ∧ fpCause c.fpc o.fl = none

/-- The exceptions that the lanes of a word met, helper lanes apart (R53, R111). -/
def LaneWord.flags (w : LaneWord) (c : Ctx) : Fl :=
  (c.actors w.d).foldl (fun f x => match w.out c x.1 x.2 with
    | .ok o => if x.2.helper then f else f.or o.fl
    | .error _ => f) Fl.none

/-- The scalar file after a register word: the words of the acting lane where the destination is scalar. -/
def LaneWord.scaAfter (w : LaneWord) (c : Ctx) : Tab Word :=
  match w.d, c.acting with
  | .sca k, some (l, ln) => (match trapped c.fpc (w.out c l ln) with
    | .ok o => putWords (c.s.scaFile c.q c.sq.sup) k.val o.ws
    | .error _ => c.s.scaFile c.q c.sq.sup)
  | _, _ => c.s.scaFile c.q c.sq.sup

/-- FPC with the flags of a word that completes later (R112): they are set in the clock of its completion, which is free (log 45). -/
def Ctx.owedFpc (c : Ctx) (f : Fl) : Fpc :=
  if f = Fl.none then c.blk.fpc
  else c.blk.fpc.owe (c.s.cyc c.q.stall c.q.core) (c.s.completion c.q.blk) (flBits f)

/-- The machine after a register word: each lane that acts has the word's results in its registers, predicates and random
state, and every other lane is as before; a helper lane may have left (R53); the scalar file has the result where the
destination is scalar; FPC owes the sticky flags until the word completes; nothing else of the squad, its block, any other block or squad, or
any memory changes. -/
structure RegEffect (w : LaneWord) (c : Ctx) (t : State) : Prop where
  acted : ∀ l ln o, (l, ln) ∈ c.actors w.d → ln.helper = false → w.out c l ln = .ok o →
    t.body? c.q l = some (ln.apply w.d o).body
  kept : ∀ l ln, Tab.find? c.sq.lanes l = some ln → ln.helper = false → (∀ x, (l, x) ∉ c.actors w.d) →
    t.body? c.q l = some ln.body
  helpers : ∀ l ln ln', Tab.find? c.sq.lanes l = some ln → ln.helper = true → t.body? c.q l = some ln' →
    ln' = ln.body ∨ ∃ o, (l, ln) ∈ c.actors w.d ∧ w.out c l ln = .ok o ∧ ln' = (ln.apply w.d o).body
  scalars : t.scaFile c.q c.sq.sup = w.scaAfter c ∧ t.scaFile c.q (!c.sq.sup) = c.s.scaFile c.q (!c.sq.sup)
  squad : (t.squad? c.q).map Squad.besides = some c.sq.besides
  block : (t.block? c.q.blk).map Block.besides = some c.blk.besides
  fpc : (t.block? c.q.blk).map (·.fpc) = some (c.owedFpc (w.flags c))
  squads : ∀ n, n ≠ c.q.slot → t.squad? { c.q with slot := n } = c.s.squad? { c.q with slot := n }
  blocks : ∀ b, b ≠ c.q.blk → t.block? b = c.s.block? b
  memory : SameMemory c.s t

/-- What a word leaves in its destination that acts once for the squad (R64, R204): its words go to every active lane's vector register, once to
a scalar register if a lane is active, and nowhere where the destination is zero; no other register changes. -/
structure DestEffect (d : Opnd) (ws : List Word) (c : Ctx) (t : State) : Prop where
  vector : ∀ k, d = .vec k → ∀ l ln, (l, ln) ∈ c.act → t.body? c.q l = some (ln.write d ws).body
  rest : ∀ l ln, Tab.find? c.sq.lanes l = some ln → (d.isVec = false ∨ ∀ x, (l, x) ∉ c.act) → t.body? c.q l = some ln.body
  scalars : t.scaFile c.q c.sq.sup = match d with
    | .sca k => if c.act = [] then c.s.scaFile c.q c.sq.sup else putWords (c.s.scaFile c.q c.sq.sup) k.val ws
    | _ => c.s.scaFile c.q c.sq.sup

/-- A lane, but for its reservation unless `r`: a line that a word takes for its reads may drop another line from a die cache,
and with it a reservation (R288, log 25). -/
def Lane.kept (r : Bool) (ln : Lane) : Lane := if r then ln else { ln with resv := none }
/-- A squad, but for the reservations of its lanes unless `r`. -/
def Squad.kept (r : Bool) (q : Squad) : Squad := if r then q else { q with lanes := q.lanes.map fun x => (x.1, x.2.kept false) }
/-- A block, but for the reservations of its lanes unless `r`. -/
def Block.kept (r : Bool) (b : Block) : Block :=
  if r then b else { b with squads := b.squads.map fun x => (x.1, x.2.kept false) }

/-- The machine after a word whose result stays in flight (R77): the result is last in flight, with the values each lane
will write and the flags it will set; no register changes yet, and nothing else of the squad, its block, any other block or
squad (but their reservations unless `r`), or any memory; a helper lane may have left. -/
structure FlightEffect (w : LaneWord) (n : Nat) (r : Bool) (c : Ctx) (t : State) : Prop where
  lanes : ∀ l ln, Tab.find? c.sq.lanes l = some ln → ln.helper = false →
    (t.body? c.q l).map (Lane.kept r) = some (ln.body.kept r)
  flight : ∃ f, (t.squad? c.q).map (·.flight) = some (c.sq.flight ++ [f]) ∧ f.dst = Use.regs ⟨w.d, n, 1, true⟩ ∧ f.reads = []
    ∧ f.perf = true ∧ f.ret = false ∧ f.fl = w.flags c
    ∧ ∀ l ln o k j, (l, ln) ∈ c.actors w.d → ln.helper = false → w.out c l ln = .ok o → w.d = .vec k → j < o.ws.length →
        (l, k.val + j, o.ws.getD j 0) ∈ f.vals
  scalars : ∀ m, t.scaFile c.q m = c.s.scaFile c.q m
  squad : (t.squad? c.q).map (fun x => { x.besides with flight := [] }) = some { c.sq.besides with flight := [] }
  block : (t.block? c.q.blk).map (fun b => (b.besides, b.fpc)) = some (c.blk.besides, c.blk.fpc)
  squads : ∀ n, n ≠ c.q.slot → (t.squad? { c.q with slot := n }).map (Squad.kept r)
    = (c.s.squad? { c.q with slot := n }).map (Squad.kept r)
  blocks : ∀ b, b ≠ c.q.blk → (t.block? b).map (Block.kept r) = (c.s.block? b).map (Block.kept r)
  memory : SameMemory c.s t

/-! ## The rules' formulas for the words of the integer group -/

/-- N of a type. -/
def tyBits (ty : ITy) : Nat := if ty.wide then 64 else 32

/-- The words of a natural number taken modulo 2^N. -/
def natWords (ty : ITy) (v : Nat) : List Word :=
  if ty.wide then [BitVec.ofNat 32 v, BitVec.ofNat 32 (v / 2 ^ 32)] else [BitVec.ofNat 32 v]

/-- The words of an exact value taken modulo 2^N (R123). -/
def exactWords (ty : ITy) (v : Int) : List Word := natWords ty (v % 2 ^ tyBits ty).toNat

/-- The limits of a type (R101). -/
def lowest (ty : ITy) : Int := if ty.signed then -2 ^ (tyBits ty - 1) else 0
/-- The highest value of a type (R101). -/
def highest (ty : ITy) : Int := if ty.signed then 2 ^ (tyBits ty - 1) - 1 else 2 ^ tyBits ty - 1

/-- SAT on an exact value (R123). -/
def satTo (ty : ITy) (sat : Bool) (v : Int) : Int := if sat then min (max v (lowest ty)) (highest ty) else v

/-- The low N bits of an operand as a natural number. -/
def Ctx.natSrc (c : Ctx) (ty : ITy) (l : Nat) (ln : Lane) (o : Opnd) : Nat := (c.rdW ty.wide l ln o).toNat

/-- The last source, a register or the extended immediate, as a natural number below 2^N (R122). -/
def Ctx.natLast (c : Ctx) (ty : ITy) (l : Nat) (ln : Lane) : RI → Nat
  | .reg o => c.natSrc ty l ln o
  | .imm v => if ty.signed then ((v.toInt % 2 ^ tyBits ty).toNat) else v.toNat

/-- A natural number below 2^N as the type reads it (R101). -/
def readAs (ty : ITy) (v : Nat) : Int := if ty.signed && 2 ^ (tyBits ty - 1) ≤ v then (v : Int) - 2 ^ tyBits ty else v

/-- A source as the type reads it. -/
def Ctx.src (c : Ctx) (ty : ITy) (l : Nat) (ln : Lane) (o : Opnd) : Int := readAs ty (c.natSrc ty l ln o)
/-- The last source as the type reads it. -/
def Ctx.last (c : Ctx) (ty : ITy) (l : Nat) (ln : Lane) (o : RI) : Int := readAs ty (c.natLast ty l ln o)
/-- A 32-bit last source: a register, or the immediate zero-extended. -/
def Ctx.cnt (c : Ctx) (l : Nat) (ln : Lane) : RI → Nat
  | .reg o => (c.rd l ln o).toNat
  | .imm v => v.toNat

/-- R123's table of exact values. -/
def arithWord? : Instr → Option LaneWord
  | .add h ty sat d a b => some ⟨h, d, fun c l ln => .ok { ws := exactWords ty (satTo ty sat (c.src ty l ln a + c.last ty l ln b)) }⟩
  | .sub h ty sat d a b => some ⟨h, d, fun c l ln => .ok { ws := exactWords ty (satTo ty sat (c.src ty l ln a - c.last ty l ln b)) }⟩
  | .mul h ty sat d a b => some ⟨h, d, fun c l ln => .ok { ws := exactWords ty (satTo ty sat (c.src ty l ln a * c.last ty l ln b)) }⟩
  | .mulhi h ty d a b => some ⟨h, d, fun c l ln => .ok { ws := exactWords ty (c.src ty l ln a * c.last ty l ln b / 2 ^ tyBits ty) }⟩
  | .mad h ty sat d a b e => some ⟨h, d, fun c l ln =>
      .ok { ws := exactWords ty (satTo ty sat (c.src ty l ln a * c.src ty l ln b + c.last ty l ln e)) }⟩
  | .min h ty d a b => some ⟨h, d, fun c l ln => .ok { ws := exactWords ty (min (c.src ty l ln a) (c.last ty l ln b)) }⟩
  | .max h ty d a b => some ⟨h, d, fun c l ln => .ok { ws := exactWords ty (max (c.src ty l ln a) (c.last ty l ln b)) }⟩
  | .abs h ty sat d a => some ⟨h, d, fun c l ln => .ok { ws := exactWords ty (satTo ty sat (c.src ty l ln a).natAbs) }⟩
  | .neg h ty sat d a => some ⟨h, d, fun c l ln => .ok { ws := exactWords ty (satTo ty sat (-(c.src ty l ln a))) }⟩
  | _ => none

/-- R124's quotient and remainder, and the cause of a zero divisor. -/
def divWord? : Instr → Option LaneWord
  | .div h ty sat d a b => some ⟨h, d, fun c l ln =>
      if c.last ty l ln b = 0 then .error 0x10
      else
        let q := Int.tdiv (c.src ty l ln a) (c.last ty l ln b)
        .ok { ws := exactWords ty (if sat then min q (highest ty) else q) }⟩
  | .rem h ty d a b => some ⟨h, d, fun c l ln =>
      let x := c.src ty l ln a
      let y := c.last ty l ln b
      if y = 0 then .error 0x10 else .ok { ws := exactWords ty (x - y * Int.tdiv x y) }⟩
  | _ => none

/-- R125's logic and shifts, R126's counts and R127's fields, on natural numbers below 2^N. -/
def bitWord? : Instr → Option LaneWord
  | .and h ty d a b => some ⟨h, d, fun c l ln => .ok { ws := natWords ty (c.natSrc ty l ln a &&& c.natLast ty l ln b) }⟩
  | .or h ty d a b => some ⟨h, d, fun c l ln => .ok { ws := natWords ty (c.natSrc ty l ln a ||| c.natLast ty l ln b) }⟩
  | .xor h ty d a b => some ⟨h, d, fun c l ln => .ok { ws := natWords ty (c.natSrc ty l ln a ^^^ c.natLast ty l ln b) }⟩
  | .not h ty d a => some ⟨h, d, fun c l ln => .ok { ws := natWords ty (2 ^ tyBits ty - 1 - c.natSrc ty l ln a) }⟩
  | .andn h ty d a b => some ⟨h, d, fun c l ln =>
      .ok { ws := natWords ty (c.natSrc ty l ln a &&& (2 ^ tyBits ty - 1 - c.natLast ty l ln b)) }⟩
  | .shl h ty d a b => some ⟨h, d, fun c l ln =>
      .ok { ws := natWords ty (if tyBits ty ≤ c.cnt l ln b then 0 else c.natSrc ty l ln a * 2 ^ c.cnt l ln b % 2 ^ tyBits ty) }⟩
  | .shr h ty d a b => some ⟨h, d, fun c l ln =>
      .ok { ws := natWords ty (if tyBits ty ≤ c.cnt l ln b then 0 else c.natSrc ty l ln a / 2 ^ c.cnt l ln b) }⟩
  | .sar h ty d a b => some ⟨h, d, fun c l ln =>
      let x := c.natSrc ty l ln a
      let v : Int := if 2 ^ (tyBits ty - 1) ≤ x then (x : Int) - 2 ^ tyBits ty else x
      .ok { ws := exactWords ty (v / 2 ^ min (c.cnt l ln b) (tyBits ty - 1)) }⟩
  | .rot h ty d a b => some ⟨h, d, fun c l ln =>
      let x := c.natSrc ty l ln a
      let k := c.cnt l ln b % tyBits ty
      .ok { ws := natWords ty (x * 2 ^ k % 2 ^ tyBits ty + x / 2 ^ (tyBits ty - k)) }⟩
  | .clz h ty d a => some ⟨h, d, fun c l ln =>
      let x := c.natSrc ty l ln a
      .ok { ws := [BitVec.ofNat 32 (if x = 0 then tyBits ty else tyBits ty - 1 - x.log2)] }⟩
  | .popc h ty d a => some ⟨h, d, fun c l ln =>
      .ok { ws := [BitVec.ofNat 32 ((List.range (tyBits ty)).filter (c.natSrc ty l ln a).testBit).length] }⟩
  | .brev h ty d a => some ⟨h, d, fun c l ln =>
      .ok { ws := natWords ty (((List.range (tyBits ty)).map fun i =>
        if (c.natSrc ty l ln a).testBit i then 2 ^ (tyBits ty - 1 - i) else 0).sum) }⟩
  | .bfx h ty d a b => some ⟨h, d, fun c l ln =>
      let pos := c.cnt l ln b % 256
      let w0 := c.cnt l ln b / 256 % 256
      let w := if tyBits ty ≤ pos then 0 else min w0 (tyBits ty - pos)
      let f := c.natSrc ty l ln a / 2 ^ pos % 2 ^ w
      .ok { ws := exactWords ty (if w = 0 then 0 else if ty.signed && 2 ^ (w - 1) ≤ f then (f : Int) - 2 ^ w else f) }⟩
  | .bfi h ty d a b e => some ⟨h, d, fun c l ln =>
      let pos := c.cnt l ln e % 256
      let w0 := c.cnt l ln e / 256 % 256
      let w := if tyBits ty ≤ pos then 0 else min w0 (tyBits ty - pos)
      let x := c.natSrc ty l ln b
      .ok { ws := natWords ty (x - x / 2 ^ pos % 2 ^ w * 2 ^ pos + c.natSrc ty l ln a % 2 ^ w * 2 ^ pos) }⟩
  | _ => none

/-- R128 to R130: cmp, sel and pset. -/
def predWord? : Instr → Option LaneWord
  | .cmp h cond ty pd a b => some ⟨h, .zero, fun c l ln =>
      let x := c.src ty l ln a
      let y := c.last ty l ln b
      .ok { ps := [(pd, match cond with
        | .eq => decide (x = y)
        | .ne => decide (x ≠ y)
        | .lt => decide (x < y)
        | .le => decide (x ≤ y)
        | .gt => decide (x > y)
        | .ge => decide (x ≥ y))] }⟩
  | .sel h ty d a b p => some ⟨h, d, fun c l ln =>
      .ok { ws := natWords ty (if ln.spec p then c.natSrc ty l ln a else c.natSrc ty l ln b) }⟩
  | .pset h op pd => some ⟨h, .zero, fun c l ln =>
      .ok { ps := [(pd, match op with
        | .nz ty a => decide (c.natSrc ty l ln a ≠ 0)
        | .mask a => (c.rd64 ln a).getLsbD l
        | .and p q => ln.spec p && ln.spec q
        | .or p q => ln.spec p || ln.spec q
        | .xor p q => Bool.xor (ln.spec p) (ln.spec q)
        | .andn p q => ln.spec p && !ln.spec q)] }⟩
  | _ => none

/-- R131: addresses and moves. -/
def moveWord? : Instr → Option LaneWord
  | .lea h sh nat d a b => some ⟨h, d, fun c l ln =>
      let y : Int := match b with
        | .reg o => if nat then (c.rd l ln o).toNat else (c.rd l ln o).toInt
        | .imm v => if nat then v.toNat else v.toInt
      .ok { ws := exactWords .i64 ((c.rd64 ln a).toNat + y * 2 ^ sh.toNat) }⟩
  | .mov h ty d a => some ⟨h, d, fun c l ln => .ok { ws := natWords ty (c.natSrc ty l ln a) }⟩
  | .movi h ty d imm => some ⟨h, d, fun c l ln => .ok { ws := natWords ty (c.natLast ty l ln (.imm imm)) }⟩
  | .movh h _ d imm => some ⟨h, d, fun c l ln =>
      .ok { ws := [BitVec.ofNat 32 (imm.toNat * 2 ^ 12 + (c.rd l ln d).toNat % 2 ^ 12)] }⟩
  | _ => none

/-! ## The words of the floating-point group, conversions, cross-lane words and reads of status -/

/-- The words of a rounded result. -/
def ftWords (ft : FTy) (v : Nat) : List Word := wordsOf (ft = .f64) (BitVec.ofNat 64 v)

/-- A rounded word's result in a lane: `f` under the mode in effect, with the lane's stepped random state (R102, R106). -/
def roundedOut (ft : FTy) (e : Ext) (c : Ctx) (ln : Lane) (f : Rnd → Nat × Fl) : Except Nat LaneOut :=
  let m := rounding c.fpc e ln.rnd
  let r := f ⟨m.1, e.sat, m.2.1⟩
  .ok { ws := ftWords ft r.1, rnd := m.2.2, fl := r.2 }

/-- R133's rounded arithmetic. -/
def fpWord? : Instr → Option LaneWord
  | .fadd h ft e d a b => some ⟨h, d, fun c l ln => roundedOut ft e c ln fun r =>
      fAdd ft.ff r (c.rdF ft l ln a e.na e.aa) (c.rdF ft l ln b e.nb e.ab)⟩
  | .fsub h ft e d a b => some ⟨h, d, fun c l ln => roundedOut ft e c ln fun r =>
      fSub ft.ff r (c.rdF ft l ln a e.na e.aa) (c.rdF ft l ln b e.nb e.ab)⟩
  | .fmul h ft e d a b => some ⟨h, d, fun c l ln => roundedOut ft e c ln fun r =>
      fMul ft.ff r (c.rdF ft l ln a e.na e.aa) (c.rdF ft l ln b e.nb e.ab)⟩
  | .ffma h ft e d a b x => some ⟨h, d, fun c l ln => roundedOut ft e c ln fun r =>
      fFma ft.ff r (c.rdF ft l ln a e.na e.aa) (c.rdF ft l ln b e.nb e.ab) (c.rdF ft l ln x e.nc e.ac)⟩
  | .fdiv h ft e d a b => some ⟨h, d, fun c l ln => roundedOut ft e c ln fun r =>
      fDiv ft.ff r (c.rdF ft l ln a e.na e.aa) (c.rdF ft l ln b e.nb e.ab)⟩
  | .fsqrt h ft e d a => some ⟨h, d, fun c l ln => roundedOut ft e c ln fun r => fSqrt ft.ff r (c.rdF ft l ln a e.na e.aa)⟩
  | _ => none

/-- R134 to R137: minimum, maximum, compare, select, round to integral and the two-element dot product. -/
def fpPickWord? : Instr → Option LaneWord
  | .fmin h ft e d a b => some ⟨h, d, fun c l ln => roundedOut ft e c ln fun _ =>
      fPick ft.ff false (c.rdF ft l ln a e.na e.aa) (c.rdF ft l ln b e.nb e.ab)⟩
  | .fmax h ft e d a b => some ⟨h, d, fun c l ln => roundedOut ft e c ln fun _ =>
      fPick ft.ff true (c.rdF ft l ln a e.na e.aa) (c.rdF ft l ln b e.nb e.ab)⟩
  | .fcmp h cond ft e pd a b => some ⟨h, .zero, fun c l ln =>
      let r := fCmp cond (c.rdF ft l ln a e.na e.aa) (c.rdF ft l ln b e.nb e.ab)
      .ok { ps := [(pd, r.1)], fl := r.2 }⟩
  | .fsel h ft e d a b x => some ⟨h, d, fun c l ln => roundedOut ft e c ln fun _ =>
      (fSel ft.ff (c.rdF ft l ln a e.na e.aa) (c.rdF ft l ln b e.nb e.ab) (c.rdF ft l ln x e.nc e.ac), Fl.none)⟩
  | .frnd h ft nx e d a => some ⟨h, d, fun c l ln => roundedOut ft e c ln fun r =>
      fRnd ft.ff r.mode nx (c.rdF ft l ln a e.na e.aa)⟩
  | .fdot2 h bf e d a b x => some ⟨h, d, fun c l ln =>
      let ff : FF := if bf then .bf16 else .f16
      let el (o : Opnd) (na aa : Bool) (k : Nat) : Num :=
        Num.modified na aa (ff.read ((c.rd l ln o).toNat / 2 ^ (16 * k) % 2 ^ 16))
      roundedOut .f32 e c ln fun r =>
        fDot2 r (el a e.na e.aa 0) (el b e.nb e.ab 0) (el a e.na e.aa 1) (el b e.nb e.ab 1) (c.rdF .f32 l ln x e.nc e.ac)⟩
  | _ => none

/-- R141 to R147: conversions, packing, the random state and Welford's steps. -/
def convWord? : Instr → Option LaneWord
  | .cvt h e dst src d a x => some ⟨h, d, fun c l ln =>
      if dst = .mx8 then .ok (cvtToMx c e ln a)
      else if src = .mx8 then .ok (cvtFromMx c e l ln a x)
      else
        let rs := roundings e (if convertRounds dst src then 1 else 0) ln.rnd
        let r := convert dst src ⟨(rounding c.fpc e ln.rnd).1, e.sat, rs.1.getD 0 0⟩ (c.rdW src.wide l ln a).toNat
        .ok { ws := wordsOf dst.wide (dst.fill r.1), rnd := rs.2, fl := r.2 }⟩
  | .pack h e dst src d a b => some ⟨h, d, fun c l ln =>
      let n := if dst.byteWide then 4 else 2
      let rs := roundings e n ln.rnd
      let el (i : Nat) : Nat × Fl := convert dst (PSrc.code src) ⟨(rounding c.fpc e ln.rnd).1, e.sat, rs.1.getD i 0⟩
        (if dst.byteWide then c.rdAt ln a i else if i = 0 then c.rd l ln a else c.rd l ln b).toNat
      .ok { ws := [BitVec.ofNat 32 (((List.range n).map fun i => (el i).1 * 2 ^ (dst.width * i)).sum)], rnd := rs.2,
            fl := ((List.range n).map fun i => (el i).2).foldl Fl.or Fl.none }⟩
  | .unpack h src dst d a => some ⟨h, d, fun c l ln =>
      let n := if src.byteWide then 4 else 2
      let el (i : Nat) : Nat × Fl := convert (PSrc.code dst) src ⟨.rne, false, 0⟩ ((c.rd l ln a).toNat / 2 ^ (src.width * i) % 2 ^ src.width)
      .ok { ws := (List.range n).map fun i => BitVec.ofNat 32 (el i).1,
            fl := Fl.inv ((List.range n).any fun i => (el i).2.nv) }⟩
  | .rseed h d a => some ⟨h, d, fun c l ln => .ok { ws := [ln.rnd], rnd := some (c.rd l ln a) }⟩
  | .wfu h d a => some ⟨h, d, fun c l ln =>
      let x (i : Nat) : Nat := (c.rdAt ln d i).toNat
      let r := welfordUpdate (x 0) (x 1) (x 2) (c.rd l ln a).toNat
      .ok { ws := [BitVec.ofNat 32 r.1, BitVec.ofNat 32 r.2.1, BitVec.ofNat 32 r.2.2.1], fl := r.2.2.2 }⟩
  | .wfm h d a => some ⟨h, d, fun c _ ln =>
      let x (o : Opnd) (i : Nat) : Nat := (c.rdAt ln o i).toNat
      let r := welfordMerge (x d 0) (x d 1) (x d 2) (x a 0) (x a 1) (x a 2)
      .ok { ws := [BitVec.ofNat 32 r.1, BitVec.ofNat 32 r.2.1, BitVec.ofNat 32 r.2.2.1], fl := r.2.2.2 }⟩
  | _ => none

/-- The value of an operand in the lane that another lane reads from, where that lane is present (R149, R153). -/
def Ctx.peer (c : Ctx) (a : Opnd) (l : Nat) (ln : Lane) (j : Int) : Word :=
  match (c.present.find? fun x => (x.1 : Int) = j) with
  | some x => c.rd x.1 x.2 a
  | none => c.rd l ln a

/-- R149 to R153: shuffles, reductions, scans, ballots, votes and quad words. -/
def crossWord? : Instr → Option LaneWord
  | .shfl h v _ d a b => some ⟨h, d, fun c l ln =>
      let n := c.cnt l ln b
      let j : Int := match v with
        | .idx => n
        | .up => (l : Int) - n
        | .down => l + n
        | .xor => (l ^^^ n : Nat)
      .ok { ws := [if 0 ≤ j ∧ j < c.blk.kern.width then c.peer a l ln j else c.rd l ln a] }⟩
  | .redux h op ty e d a => some ⟨h, d, fun c _ _ =>
      let r := reduceVals op ty e.sat (c.redMode e) (c.act.map fun x => c.rd x.1 x.2 a)
      .ok { ws := [r.1], fl := r.2 }⟩
  | .scan h excl op ty e d a => some ⟨h, d, fun c l _ =>
      let r := reduceVals op ty e.sat (c.redMode e)
        ((c.act.filter fun x => decide (x.1 < l) || (!excl && decide (x.1 = l))).map fun x => c.rd x.1 x.2 a)
      .ok { ws := [r.1], fl := r.2 }⟩
  | .ballot h d p => some ⟨h, d, fun c _ _ =>
      let m : Nat := (c.act.map fun x => if x.2.spec p then 2 ^ x.1 else 0).sum
      .ok { ws := natWords .n64 m }⟩
  | .vote h v pd p => some ⟨h, .zero, fun c _ _ =>
      let all : Bool := c.act.all fun x => x.2.spec p
      let none' : Bool := c.act.all fun x => !x.2.spec p
      .ok { ps := [(pd, match v with
        | .all => all
        | .any => !none'
        | .uni => all || none')] }⟩
  | .qx h var _ d a => some ⟨h, d, fun c l ln =>
      let k : Nat := match var with
        | .h => 1
        | .v => 2
        | .diag => 3
      .ok { ws := [c.peer a l ln ((l ^^^ k : Nat) : Int)] }⟩
  | .qbc h _ d a b => some ⟨h, d, fun c l ln =>
      let k : Nat := match b with
        | .reg o => (c.rd l ln o).toNat % 4
        | .imm k => k.val
      .ok { ws := [c.peer a l ln ((4 * (l / 4) + k : Nat) : Int)] }⟩
  | _ => none

/-- R154, R155 and R248: mfc and mstat. -/
def statusWord? : Instr → Option LaneWord
  | .mfc h d idx => some ⟨h, d, fun c _ ln => .ok { ws := wordsOf (crWide idx.toNat) (c.cr ln idx.toNat) }⟩
  | .mstat h d sel => some ⟨h, d, fun c _ _ => .ok { ws := [c.s.mxStatus c.q.blk c.blk sel.val] }⟩
  | _ => none

/-- R138's special functions of a binary32 value. -/
def specialWord? : Instr → Option LaneWord
  | .frcp h d a => some ⟨h, d, fun c l ln => specialOut (frcp (c.rd l ln a).toNat)⟩
  | .frsq h d a => some ⟨h, d, fun c l ln => specialOut (frsq (c.rd l ln a).toNat)⟩
  | .fexp2 h d a => some ⟨h, d, fun c l ln => specialOut (fexp2 (c.rd l ln a).toNat)⟩
  | .flog2 h d a => some ⟨h, d, fun c l ln => specialOut (flog2 (c.rd l ln a).toNat)⟩
  | .fsinp h d a => some ⟨h, d, fun c l ln => specialOut (fsinp (c.rd l ln a).toNat)⟩
  | .fcosp h d a => some ⟨h, d, fun c l ln => specialOut (fcosp (c.rd l ln a).toNat)⟩
  | _ => none
where
  /-- One word and its flags. -/
  specialOut (r : Nat × Fl) : Except Nat LaneOut := .ok { ws := [BitVec.ofNat 32 r.1], fl := r.2 }

/-- A lane's result where its descriptor, node or triangle and its beam can be read. -/
def readOut {α : Type} (ln : Lane) (n : Nat) (x : Except Nat α) (f : α → Except Nat LaneOut) : Except Nat LaneOut :=
  helperZero ln n (match x with
    | .error e => .error e
    | .ok v => f v)

/-- R402's texture words: the descriptor read, then the sample, the texel, the gather of a channel. -/
def texWord? : Instr → Option LaneWord
  | .tex h arr d a b => some ⟨h, d, fun c l ln => readOut ln 4 (c.texDesc (c.rd64 ln b)) fun t =>
      if c.blk.kern.quad then
        let x := implicitTaps t (readCoord (c.rdAt ln a 0)) (readCoord (c.rdAt ln a 1)) (c.derivs l ln a).1 (c.derivs l ln a).2
        c.sample t x.1 x.2 (c.layerOf arr t ln a)
      else c.sample t [⟨readCoord (c.rdAt ln a 0), readCoord (c.rdAt ln a 1), 1⟩] (explicitLod t 0) (c.layerOf arr t ln a)⟩
  | .texl h arr d a b lam => some ⟨h, d, fun c l ln => readOut ln 4 (c.texDesc (c.rd64 ln b)) fun t =>
      c.sample t [⟨readCoord (c.rdAt ln a 0), readCoord (c.rdAt ln a 1), 1⟩] (explicitLod t (c.rd l ln lam)) (c.layerOf arr t ln a)⟩
  | .texf h arr d a b lv => some ⟨h, d, fun c l ln => readOut ln 4 (c.texDesc (c.rd64 ln b)) fun t =>
      let x := (c.rdAt ln a 0).toNat
      let y := (c.rdAt ln a 1).toNat
      let layer := if arr then (c.rdAt ln a 2).toNat else 0
      let n := (c.rd l ln lv).toNat
      if txLevels t ≤ n ∨ txLayers t ≤ layer ∨ (txDims t n).1 ≤ x ∨ (txDims t n).2 ≤ y then .ok { ws := [0, 0, 0, 0] }
      else (c.texel t n x y layer).map fun ws => { ws := ws.map fun w => rne32 (f32Num w) }⟩
  | .texg h arr ch d a b lam => some ⟨h, d, fun c l ln => readOut ln 4 (c.texDesc (c.rd64 ln b)) fun t =>
      let lod := explicitLod t (c.rd l ln lam)
      let lv := if lod = 0 then 0 else min ((lod + 128) / 256) (txLevels t - 1)
      let i := Q.floor (((readCoord (c.rdAt ln a 0)).times (.nat (txDims t lv).1)).plus (-1, 2))
      let j := Q.floor (((readCoord (c.rdAt ln a 1)).times (.nat (txDims t lv).2)).plus (-1, 2))
      let one (p q : Int) : Except Nat Word :=
        (c.texelAt t lv p q (c.layerOf arr t ln a)).map fun ws => rne32 (f32Num (ws.getD ch.val 0))
      match one i (j + 1), one (i + 1) (j + 1), one (i + 1) j, one i j with
      | .ok w0, .ok w1, .ok w2, .ok w3 => .ok { ws := [w0, w1, w2, w3] }
      | .error e, _, _, _ => .error e
      | _, .error e, _, _ => .error e
      | _, _, .error e, _ => .error e
      | _, _, _, .error e => .error e⟩
  | _ => none

/-- The box, triangle and beam tests of chapter 15 that only answer. -/
def rayWord? : Instr → Option (LaneWord × Nat)
  | .rbox h d a b => some (⟨h, d, fun c l ln => readOut ln 9 (c.node l (c.rd64 ln b)) fun n =>
      .ok { ws := rboxOut (c.ray ln a) n }⟩, 9)
  | .rtri h d a b => some (⟨h, d, fun c l ln => helperZero ln 4 ((c.testTri l ln a b).map fun x => { ws := x.2 })⟩, 4)
  | .bmbox h d a b => some (⟨h, d, fun c l ln => readOut ln 5 (c.node l (c.rd64 ln b)) fun n =>
      (c.beam ln a).map fun x => { ws := bmboxOut x n }⟩, 5)
  | .bmtri h d a b => some (⟨h, d, fun c l ln => readOut ln 4 (c.triangle l (c.rd64 ln b)) fun t =>
      (c.beam ln a).map fun x => { ws := bmtriOut x t }⟩, 4)
  | _ => none

/-- The guard of a word; a word without one acts for every present lane. bmsplit waits for its results marked or not (R78). -/
def hdrOf : Instr → Hdr
  | .add h _ _ _ _ _ | .sub h _ _ _ _ _ | .mul h _ _ _ _ _ | .mulhi h _ _ _ _ | .mad h _ _ _ _ _ _ | .div h _ _ _ _ _
  | .rem h _ _ _ _ | .min h _ _ _ _ | .max h _ _ _ _ | .abs h _ _ _ _ | .neg h _ _ _ _ | .and h _ _ _ _ | .or h _ _ _ _
  | .xor h _ _ _ _ | .not h _ _ _ | .andn h _ _ _ _ | .shl h _ _ _ _ | .shr h _ _ _ _ | .sar h _ _ _ _ | .rot h _ _ _ _
  | .clz h _ _ _ | .popc h _ _ _ | .brev h _ _ _ | .bfx h _ _ _ _ | .bfi h _ _ _ _ _ | .sel h _ _ _ _ _ | .cmp h _ _ _ _ _
  | .lea h _ _ _ _ _ | .mov h _ _ _ | .movi h _ _ _ | .movh h _ _ _ | .pset h _ _ => h
  | .fadd h _ _ _ _ _ | .fsub h _ _ _ _ _ | .fmul h _ _ _ _ _ | .ffma h _ _ _ _ _ _ | .fmin h _ _ _ _ _ | .fmax h _ _ _ _ _
  | .fcmp h _ _ _ _ _ _ | .fsel h _ _ _ _ _ _ | .frnd h _ _ _ _ _ | .fdiv h _ _ _ _ _ | .fsqrt h _ _ _ _ | .fdot2 h _ _ _ _ _ _
  | .cvt h _ _ _ _ _ _ | .pack h _ _ _ _ _ _ | .unpack h _ _ _ _ | .frcp h _ _ | .frsq h _ _ | .fexp2 h _ _ | .flog2 h _ _
  | .fsinp h _ _ | .fcosp h _ _ | .wfu h _ _ | .wfm h _ _ | .rseed h _ _ | .shfl h _ _ _ _ _ | .redux h _ _ _ _ _
  | .scan h _ _ _ _ _ _ | .ballot h _ _ | .vote h _ _ _ | .qx h _ _ _ _ | .qbc h _ _ _ _ => h
  | .bra h _ _ | .jmp h _ _ _ | .call h _ _ _ | .calli h _ _ _ _ | .ret h _ _ | .land h _ | .brk h _ | .exit h | .yield h
  | .nop h => h
  | .ld h _ _ _ _ _ | .st h _ _ _ _ _ | .atom h _ _ _ _ _ | .red h _ _ _ _ | .lrs h _ _ _ _ | .scs h _ _ _ _ _ | .cpf h _ _ _
  | .cwb h _ _ | .cinv h _ _ _ | .pld h _ _ _ _ | .pst h _ _ _ _ | .patom h _ _ _ _ _ | .ald h _ _ _ _ | .ast h _ _ _ _
  | .cpy h _ | .twany h _ _ | .twall h _ | .tfirst h _ _ | .tclr h _ | .watch h _ _ _ | .wait h _ _ | .parr h _ _ _
  | .pwait h _ _ _ | .fence h _ _ => h
  | .menq h _ _ | .mstat h _ _ | .send h _ _ _ | .mbadv h _ _ _ | .coll h _ | .tspawn h _ | .tnext h _ | .tdone h _ _
  | .qput h _ _ _ | .qget h _ | .arm h _ | .launch h _ | .tex h _ _ _ _ | .texf h _ _ _ _ _ | .texg h _ _ _ _ _ _
  | .texl h _ _ _ _ _ | .mout h _ | .mfinMesh h _ _ | .mfinTask h _ _ | .pxo h _ _ | .pkill h | .rbox h _ _ _ | .rtri h _ _ _
  | .rtriW h _ _ _ _ | .bmbox h _ _ _ | .bmtri h _ _ _ | .kpush h _ | .kpop h _ | .trap h _ | .sret h _ | .mfc h _ _
  | .mtc h _ _ | .fpcWrite h _ | .mqbWrite h _ | .cyc h _ | .halt h _ | .iflush h _ => h
  | .bmsplit h _ _ _ => { h with s := true }
  | .pairWord m _ _ => Machine.Hdr.plain m
  | .reform m _ => Machine.Hdr.plain m
  | .loop m _ _ _ => Machine.Hdr.plain m
  | .bar m _ => Machine.Hdr.plain m
  | _ => Machine.Hdr.plain false

/-- The operands of a word and the further decode causes of its entry. -/
def useOf (i : Instr) (c : Ctx) : WordUse :=
  match i with
  | .mfc _ d idx => { uses := [.ww (crWide idx.toNat) d], reduce := true, priv := crPriv idx.toNat,
                      bad := !crAssigned idx.toNat || (idx.toNat = 0x007 && d.isSca) }
  | .mtc _ idx a => { uses := [.rw' (crWide idx.toNat) a], priv := crPriv idx.toNat, bad := !crAssigned idx.toNat }
  | .fpcWrite _ a => { uses := [.r a] }
  | .mqbWrite _ a => { uses := [.r a] }
  | .mstat _ d _ => { uses := [.w1 d], reduce := true }
  | .pairWord _ sa sb => { uses := slotUses sa ++ slotUses sb, reduce := true, pairing := pairClash sa sb,
                           bad := slotBad sa || slotBad sb || mixes (slotUses sa) || mixes (slotUses sb) }
  | .bra _ _ live => { uses := [], bad := liveBad c live, all := true }
  | .jmp _ a _ live => { uses := [.r2 a], bad := liveBad c live || !targetOk a, all := true }
  | .ret _ a live => { uses := [.r2 a], bad := liveBad c live || !targetOk a, all := true }
  | .call _ d _ live => { uses := [.w2 d], bad := liveBad c live || !(d.isVec || d = .zero), all := true }
  | .calli _ d a _ live => { uses := [.w2 d, .r2 a], bad := liveBad c live || !targetOk a || !(d.isVec || d = .zero), all := true }
  | .reform _ live => { uses := [], bad := liveBad c live, all := true }
  | .loop _ ctr count len => { uses := match count with
                                 | .imm _ => []
                                 | .reg a => [.r a],
                               bad := loopBad c ctr count len, loop := loopTooLong c len }
  | .patom _ op _ d a b => { uses := [.ww op.wide d, .r a, casUse op.wide op.isCas b] }
  | .parr _ d a b => { uses := [.w1 d, .r a] ++ riUse false b }
  | .pwait _ d a b => { uses := [.w1 d, .r a] ++ riUse false b }
  | .twany _ d m => { uses := [.w1 d] ++ m.uses, bad := m.isVec }
  | .tfirst _ d m => { uses := [.w1 d] ++ m.uses, bad := m.isVec }
  | .menq _ d a => { uses := [.w1 d, ⟨a, 4, 4, false⟩], bad := !a.isVec && !a.isSca }
  | .mbadv _ mb d b => { uses := .w1 d :: riUse false b, bad := (c.blk.kern.box mb.toNat).isNone, reduce := true }
  | .tnext _ d => { uses := [.w2 d], bad := c.blk.taskId.isNone || !(d.isVec || d.isSca || d = .zero) }
  | .tdone _ d b => { uses := .w1 d :: riUse false b,
                      bad := c.blk.taskId.isNone || !(d.isVec || d.isSca || d = .zero) || (match b with
                        | .reg o => !o.isSca
                        | .imm _ => false) }
  | .qput _ d a stage =>
    if c.blk.kern.stages ≠ 0 && c.blk.kern.stages ≤ stage.toNat then { uses := [] }
    else { uses := [.w1 d, ⟨a, 4, 4, false⟩], bad := c.blk.kern.stages = 0 || !a.isSca || !(d.isVec || d.isSca || d = .zero) }
  | .qget _ d => { uses := [⟨d, 5, 8, true⟩], bad := c.blk.kern.stages = 0 || !d.isSca }
  | .mout _ a => { uses := [.r a], bad := c.blk.meshOf.isNone || !a.isVec }
  | .mfinMesh _ d a => { uses := [.w1 d, .r a], bad := c.blk.meshOf.isNone || !(d.isVec || d.isSca || d = .zero) }
  | .mfinTask _ d a => { uses := [.w1 d, .r a], bad := c.blk.taskOf.isNone || !(d.isVec || d.isSca || d = .zero) }
  | .pxo _ n a => { uses := [⟨a, if n.val = 4 then 1 else 4, 1, false⟩], bad := c.blk.pixelOf.isNone || !a.isVec }
  | .rbox _ d a b => { uses := [⟨d, 9, 4, true⟩, ⟨a, 8, 4, false⟩, .r2 b], bad := !d.isVec || !a.isVec || !vecOrSca b }
  | .rtri _ d a b => { uses := [⟨d, 4, 4, true⟩, ⟨a, 8, 4, false⟩, .r2 b], bad := !d.isVec || !a.isVec || !vecOrSca b }
  | .rtriW _ d a b sl => { uses := [⟨d, 4, 4, true⟩, ⟨a, 8, 4, false⟩, .r2 b, .r2 sl],
                           bad := !(d.isVec || d = .zero) || !a.isVec || !vecOrSca b || !vecOrSca sl }
  | .bmbox _ d a b => { uses := [⟨d, 5, 4, true⟩, ⟨a, 16, 4, false⟩, .r2 b], bad := !d.isVec || !a.isVec || !vecOrSca b }
  | .bmtri _ d a b => { uses := [⟨d, 4, 4, true⟩, ⟨a, 16, 4, false⟩, .r2 b], bad := !d.isVec || !a.isVec || !vecOrSca b }
  | .bmsplit _ d a b => { uses := [.w1 d, ⟨a, 16, 4, false⟩, .r b], bad := !splitDest d a || !vecOrSca b }
  | .kpush _ a => { uses := [.r2 a], bad := !vecOrSca a }
  | i => ((finInt i <|> finFp i) <|> (finMem i <|> finUnit [] i)).elim { uses := [] } FinUse.word

/-- The squad of `State.cur` issues the word `i`, with no cause of its decode: what its effect sees is `c`. -/
def Runs (s : State) (i : Instr) (c : Ctx) : Prop := Issues s (hdrOf i) (useOf i) c

/-- The machine once a word's effect `t` has taken place and its squad goes on past the word. -/
def Ctx.past (c : Ctx) (t : State) : State := t.wordDone c.q true

/-- The machine once a word's effect `t` has set the PC itself. -/
def Ctx.moved (c : Ctx) (t : State) : State := t.wordDone c.q false

/-! ## Register words together -/

/-- The fixed-latency words that write registers and predicates. -/
def regWord? (i : Instr) : Option LaneWord :=
  arithWord? i <|> divWord? i <|> bitWord? i <|> predWord? i <|> moveWord? i <|> fpWord? i <|> fpPickWord? i <|> convWord? i
    <|> crossWord? i <|> statusWord? i

/-- The cause of a lane: that of the word, or the lowest exception met whose enable is set (R111). -/
def LaneWord.causeOf (w : LaneWord) (c : Ctx) (l : Nat) (ln : Lane) : Option Nat :=
  match w.out c l ln with
  | .error e => some e
  | .ok o => fpCause c.fpc o.fl

/-- The causes that a register word raises: those of its lanes that are no helpers (R53). -/
def LaneWord.causes (w : LaneWord) (c : Ctx) : List (Nat × Nat) :=
  (c.actors w.d).filterMap fun x => if x.2.helper then none else (w.causeOf c x.1 x.2).map fun e => (x.1, e)

/-! ## The pair word -/

/-- A lane after one slot of a pair word. -/
def slotLane (c : Ctx) (x : Slot) (l : Nat) (ln tgt : Lane) : Lane :=
  if slotActs x ln then tgt.apply (slotD x) (slotOut c x l ln) else tgt

/-- The lanes that a slot acts for. -/
def slotActors (c : Ctx) (x : Slot) : List (Nat × Lane) :=
  let act := c.present.filter fun y => slotActs x y.2
  if x.rop = .nop then [] else Ctx.actors { c with act := act } (slotD x)

/-- A scalar file after one slot. -/
def slotSca (c : Ctx) (x : Slot) (t : Tab Word) : Tab Word :=
  match slotD x, slotActors c x with
  | .sca k, (l, ln) :: _ => putWords t k.val (slotOut c x l ln).ws
  | _, _ => t

/-- The exceptions of a slot's lanes, helper lanes apart. -/
def slotFlags (c : Ctx) (x : Slot) : Fl :=
  (slotActors c x).foldl (fun f y => if y.2.helper then f else f.or (slotOut c x y.1 y.2).fl) Fl.none

/-! ## Transfers -/

/-- A transfer of control: the target of a lane, what must stand there, where the link goes, LIVE, and whether it is direct. -/
structure Transfer where
  target : Ctx → Nat → Lane → DWord
  check : Ctx → Nat → Lane → Option Nat
  link : Option Opnd
  live : Nat
  direct : Bool

/-- R178 and R179: the five transfer words. -/
def transfer? : Instr → Option Transfer
  | .bra _ off live => some ⟨fun c _ _ => directTarget c.sq.pc off,
      fun c _ _ => targetCause c (directTarget c.sq.pc off) false none 0, none, live.val, true⟩
  | .call _ d off live => some ⟨fun c _ _ => directTarget c.sq.pc off,
      fun c _ _ => targetCause c (directTarget c.sq.pc off) true none 0, some d, live.val, true⟩
  | .jmp _ a tag live => some ⟨fun c _ ln => c.rd64 ln a,
      fun c l ln => targetCause c (c.rd64 ln a) true (some tag) l, none, live.val, false⟩
  | .calli _ d a tag live => some ⟨fun c _ ln => c.rd64 ln a,
      fun c l ln => targetCause c (c.rd64 ln a) true (some tag) l, some d, live.val, false⟩
  | .ret _ a live => some ⟨fun c _ ln => c.rd64 ln a,
      fun c l ln => targetCause c (c.rd64 ln a) false none l, none, live.val, false⟩
  | _ => none

/-- A lane after the link PC + 8 is written. -/
def Transfer.linked (x : Transfer) (c : Ctx) (ln : Lane) : Lane :=
  match x.link with
  | none => ln
  | some d => ln.write d [lo32 (c.sq.pc + 8), hi32 (c.sq.pc + 8)]

/-! ## Filing -/

/-- What a record of the crate says of its thread (R162), but for its place, its age and its ray stack. -/
def Rec.thread (r : Rec) : Nat × Nat × DWord × Nat × Nat × Nat × BitVec 7 × Word × Tab Word × Bool × Option Nat :=
  (r.pos, r.role, r.pc, r.tid, r.lane, r.live, r.pred, r.rnd, r.regs, r.helper, r.bar)

/-- What the record of a lane says that is filed at a PC with a LIVE: its thread, its lane, its predicates, its random state and its
registers below 4 * LIVE (R161, R162). -/
def Ctx.filed (c : Ctx) (pc : DWord) (live : Nat) (x : Nat × Lane) :
    Nat × Nat × DWord × Nat × Nat × Nat × BitVec 7 × Word × Tab Word × Bool × Option Nat :=
  (c.q.pos, c.sq.role, pc, x.2.tid, x.1, live, x.2.p, x.2.rnd, x.2.v.filter fun v => v.1 < 4 * live, x.2.helper, none)

/-- The records of the core, each as what it says of its thread. -/
def State.threads (s : State) (q : Sel) := ((s.core q.stall q.core).recs).map Rec.thread

/-! ## The frame of a word that puts something in flight or in its store queue -/

/-- What stays: each lane that is no helper; the scalar files, and all of the squad but what `blank` hides; all of the block but
its squads; every other squad and block; every byte of memory; and, where `r`, every reservation. -/
structure SquadFrame (blank : Squad → Squad) (r : Bool) (c : Ctx) (t : State) : Prop where
  lanes : ∀ l ln, Tab.find? c.sq.lanes l = some ln → ln.helper = false →
    (t.body? c.q l).map (Lane.kept r) = some (ln.body.kept r)
  scalars : ∀ m, t.scaFile c.q m = c.s.scaFile c.q m
  squad : (t.squad? c.q).map (fun x => blank x.besides) = some (blank c.sq.besides)
  block : (t.block? c.q.blk).map (fun b => (b.besides, b.fpc)) = some (c.blk.besides, c.blk.fpc)
  squads : ∀ n, n ≠ c.q.slot → (t.squad? { c.q with slot := n }).map (Squad.kept r)
    = (c.s.squad? { c.q with slot := n }).map (Squad.kept r)
  blocks : ∀ b, b ≠ c.q.blk → (t.block? b).map (Block.kept r) = (c.s.block? b).map (Block.kept r)
  memory : SameMemory c.s t

/-- Without the results in flight. -/
def noFlight (q : Squad) : Squad := { q with flight := [] }
/-- Without the store queue. -/
def noQueue (q : Squad) : Squad := { q with sq := [] }
/-- Without either. -/
def noPending (q : Squad) : Squad := { q with flight := [], sq := [] }

/-- What a queue holds, but for the order numbers. -/
def queued (q : Squad) : List SqEnt := q.sq.map fun e => { e with id := 0 }

/-- The squad issues a word with this guard: what its checks see is `c`. -/
def Reaches (s : State) (h : Hdr) (c : Ctx) : Prop :=
  ∃ c₀, Ctx.of s h = some c₀ ∧ (h.s = true → c₀.sq.awaited = false) ∧ c = c₀.start h.s

/-! ## Pad and accumulator memory -/

/-- An access to pad or accumulator memory (R184, R185): which memory, its size, whether it reads, whether its operands make it
squad-uniform, and its address operands. -/
structure PadAcc where
  am : Bool
  z : Nat
  reads : Bool
  uniform : Bool
  a : Opnd
  off : BitVec 12

/-- The seven words of R190, R191, R210 and R211. -/
def padAcc? : Instr → Option PadAcc
  | .pld _ sz off d a => some ⟨false, sz.spec.1, true, a.uniform && destUniform d, a, off⟩
  | .ald _ wide off d a => some ⟨true, if wide then 8 else 4, true, a.uniform && destUniform d, a, off⟩
  | .pst _ sz off a b => some ⟨false, sz.size, decide (sz.size < 8), a.uniform && b.uniform, a, off⟩
  | .ast _ wide off a b => some ⟨true, if wide then 8 else 4, !wide, a.uniform && b.uniform, a, off⟩
  | .patom _ op off d a b => some ⟨false, if op.wide then 8 else 4, true, a.uniform && b.uniform && destUniform d, a, off⟩
  | .parr _ d a b => some ⟨false, 4, true, a.uniform && riUniform b && destUniform d, a, 0⟩
  | .pwait _ d a b => some ⟨false, 4, true, a.uniform && riUniform b && destUniform d, a, 0⟩
  | _ => none

/-- The lanes that act. -/
def PadAcc.lanes (p : PadAcc) (c : Ctx) : List (Nat × Lane) := c.accLanes p.uniform
/-- A lane's offset, exact (R185). -/
def PadAcc.addr (p : PadAcc) (c : Ctx) (l : Nat) (ln : Lane) : Int := (c.rd l ln p.a).toNat + p.off.toInt * p.z
/-- The memory. -/
def PadAcc.mem (p : PadAcc) (c : Ctx) : Mem := if p.am then c.blk.am else c.blk.pad
/-- The allotment. -/
def PadAcc.size (p : PadAcc) (c : Ctx) : Nat := if p.am then c.blk.kern.am else c.blk.kern.pad
/-- The granules in error. -/
def PadAcc.bad (p : PadAcc) (c : Ctx) : List Nat := if p.am then c.blk.amBad else c.blk.padBad

/-- The cause of a lane (R185, R189): alignment, then the allotment, then a granule in error that the access reads. -/
def PadAcc.cause (p : PadAcc) (c : Ctx) (l : Nat) (ln : Lane) : Option Nat :=
  let a := p.addr c l ln
  if a % p.z ≠ 0 then some 0x20
  else if a < 0 ∨ (p.size c : Int) < a + p.z then some (if p.am then 0x27 else 0x26)
  else if p.reads ∧ ∃ g ∈ p.bad c, (8 * g : Int) < a + p.z ∧ a < 8 * g + 8 then some 0x2B
  else none

/-- The causes that the word raises: those of lanes that are no helpers. -/
def PadAcc.causes (p : PadAcc) (c : Ctx) : List (Nat × Nat) :=
  (p.lanes c).filterMap fun x => if x.2.helper then none else (p.cause c x.1 x.2).map fun e => (x.1, e)

/-- The offset of a lane's access, where it passed. -/
def PadAcc.at (p : PadAcc) (c : Ctx) (x : Nat × Lane) : Access :=
  (x.1, x.2, match p.cause c x.1 x.2 with
    | none => some (p.addr c x.1 x.2).toNat
    | some _ => none)

/-- What a lane's access reads: little-endian bytes, and zero where a helper's access was not performed. -/
def PadAcc.value (p : PadAcc) (c : Ctx) (x : Nat × Lane) : Nat :=
  match p.cause c x.1 x.2 with
  | none => (p.mem c).num (p.addr c x.1 x.2).toNat p.z
  | some _ => 0

/-- R210: one arrival of an amount at a barrier word: bits 15-0 count, bits 30-16 hold the number expected, bit 31 the phase. -/
def arrived (w amount : Nat) : Nat :=
  let expected := w / 2 ^ 16 % 2 ^ 15
  let phase := w / 2 ^ 31
  let count := w % 2 ^ 16
  if expected ≤ count + amount then (1 - phase) * 2 ^ 31 + expected * 2 ^ 16
  else phase * 2 ^ 31 + expected * 2 ^ 16 + (count + amount)

/-! ## Memory words -/

/-- The accesses that a memory word checks (R268, R269, R286, R288): their lanes, addresses and translations. -/
def memAccs? : Instr → Option (Ctx → List MAcc)
  | .ld _ sz _ m d a => some fun c => c.memAccs (c.accLanes (addrUniform a && destUniform d)) a m.off sz.spec.1 .load false
  | .st _ sz _ m a b => some fun c => c.memAccs (c.writers (addrUniform a && b.scaOrZero)) a m.off sz.size .store false
  | .atom _ op m d a b => some fun c => c.memAccs (c.writers (addrUniform a && b.isSca && destUniform d)) a m.off op.size .atomic
      (op.wide && op.isCas)
  | .red _ op m a b => some fun c => c.memAccs (c.writers (addrUniform a && b.isSca)) a m.off op.size .atomic false
  | .lrs _ wide m _ a => some fun c => c.memAccs c.act a m.off (if wide then 8 else 4) .lrs false
  | .scs _ wide m _ a _ => some fun c => c.memAccs (c.writers false) a m.off (if wide then 8 else 4) .scs false
  | .cwb _ off a => some fun c => lineAccs c off a
  | .cinv _ _ off a => some fun c => lineAccs c off a
  | _ => none
where
  /-- The lines of cwb and cinv: checked as reads of one byte. -/
  lineAccs (c : Ctx) (off : BitVec 12) (a : Opnd) : List MAcc :=
    c.act.map fun l => ⟨l.1, l.2, c.memVa l.2 a off 64, c.memLane l.1 (c.memVa l.2 a off 64) 1 .line false⟩

/-- The observers that an access of a word names as it is performed: all of them where it meets the management page (R249). -/
def obsWith (ps : List (MAcc × Tr)) (named : Option (BitVec 6)) : Option (BitVec 6) := if anyMgmt ps then some 0x3F else named

/-- The masks of an order: for the release and for the acquire (R268, R300, R301). -/
def relOf (m : MemX) : Option (BitVec 6) := if m.ord.releases then some m.obs else none
/-- The mask of the acquire. -/
def acqOf (m : MemX) : Option (BitVec 6) := if m.ord.acquires then some m.obs else none

/-- What atom, red and scs leave: their lanes queued, in ascending lane order, and where a destination holds the
result, one result in flight that those entries supply. -/
structure QueueEffect (d : Opnd) (n : Nat) (ops : List SqOp) (rel acq : Option (BitVec 6)) (c : Ctx) (t : State) :
    Prop where
  result : ∃ fid, (t.squad? c.q).map queued = some (queued c.sq ++ ops.map fun o =>
      { SqEnt.plain o with pc := c.sq.pc, rel := rel, acq := acq, flight := fid })
    ∧ (destRegs d n = [] → fid = none ∧ (t.squad? c.q).map (·.flight) = some c.sq.flight)
    ∧ (destRegs d n ≠ [] → ∃ f, fid = some f.id ∧ (t.squad? c.q).map (·.flight) = some (c.sq.flight ++ [f])
        ∧ f.dst = destRegs d n ∧ f.byQueue = true ∧ f.reads = [] ∧ f.perf = ops.isEmpty ∧ f.ret = false)
  frame : SquadFrame noPending false c t

/-! ## Tokens -/

/-- The stall that a message of the token protocol goes to. -/
def Msg.dest : Msg → Nat
  | .trans _ _ _ d _ => d
  | .token _ _ _ _ _ _ _ d _ => d
  | .activate _ _ _ d => d
  | .deactivate _ d => d
  | _ => 0

/-- The tokens of a line that a message carries. -/
def Msg.tokens (line : Nat) : Msg → Nat
  | .token l n _ _ _ _ _ _ _ => if l = line then n else 0
  | _ => 0

/-- A message that carries the owner token carries a token (R271). -/
def Msg.ownOk : Msg → Bool
  | .token _ n own _ _ _ _ _ _ => !own || 1 ≤ n
  | _ => true

/-- Tokens are where the rules put them (R270, R271): messages go to the 64 stalls, no other die cache holds a token, and the owner token
counts among those of its holder. -/
def TokenForm (s : State) : Prop :=
  (∀ x ∈ s.net, x.dest < 64 ∧ x.ownOk = true)
  ∧ ∀ st line, let x := s.dcLine st line; (64 ≤ st → x.t = 0) ∧ (x.o = true → 1 ≤ x.t)

/-- The tokens of a line: those of the 64 die caches, of its home, and of messages on their way (R270). -/
def State.tokensOf (s : State) (line : Nat) : Nat :=
  ((List.range 64).map fun st => (s.dcLine st line).t).sum + (s.homeLine line).t + (s.net.map (Msg.tokens line)).sum

end Sys2Proof.Machine
end

