-- ==== Sys2Proof/Certificates/Slice0/Obligations.lean ====
section
/-! DEFINITION. What is claimed of the model, for the provers. -/

set_option Elab.async false

open Sys2Proof Sys2Proof.Machine

/-! ## Words that write registers -/

/-- R123, R124: add, sub, mul, mulhi, mad, min, max, abs and neg write the exact value of R123's table, clamped under SAT and taken modulo
2^N, in every active lane, or once to a scalar destination; div and rem write the truncated quotient and the remainder of the
dividend's sign where no lane's divisor is 0; and they change nothing else. -/
def Obligations.IntegerArithmeticWritesTheExactValue : Prop :=
  (∀ (s : State) (i : Instr) (w : LaneWord) (c : Ctx), arithWord? i = some w → Runs s i c → Ordered s →
      ∃ t, exec i s = .next t ∧ RegEffect w c t)
  ∧ (∀ (s : State) (i : Instr) (w : LaneWord) (c : Ctx), divWord? i = some w → Runs s i c → Ordered s → w.quiet c →
      ∃ t, exec i s = .next t ∧ RegEffect w c t)

/-- R125 to R131: logic, shifts, rotates, counts and bit fields write their formula; cmp and pset write their predicate; sel, lea, mov, movi
and movh write their register. -/
def Obligations.BitPredicateAndMoveWordsWriteTheirFormulas : Prop :=
  (∀ (s : State) (i : Instr) (w : LaneWord) (c : Ctx), bitWord? i = some w → Runs s i c → Ordered s →
      ∃ t, exec i s = .next t ∧ RegEffect w c t)
  ∧ (∀ (s : State) (i : Instr) (w : LaneWord) (c : Ctx), (predWord? i = some w ∨ moveWord? i = some w) → Runs s i c →
      Ordered s → ∃ t, exec i s = .next t ∧ RegEffect w c t)

/-- R133 to R137, R141 to R147: fadd, fsub, fmul, ffma, fdiv and fsqrt write their rounded result where no exception met is enabled; and so
do fmin, fmax, fcmp, fsel, frnd, fdot2, cvt, pack, unpack, rseed, wfu and wfm with theirs. The model's choices stand in these results where
the spec is open: the rounding of conversions to integers (log 5), the sign of an exact zero sum and its rounding (log 9), the random state of a
seed of zero and the draws that rounding takes (log 49), and the sources, the flags and the NaNs of wfu and wfm (log 55). -/
def Obligations.FloatWordsAndConversionsWriteTheirResult : Prop :=
  (∀ (s : State) (i : Instr) (w : LaneWord) (c : Ctx), fpWord? i = some w → Runs s i c → Ordered s → w.quiet c →
      ∃ t, exec i s = .next t ∧ RegEffect w c t)
  ∧ ((∀ (s : State) (i : Instr) (w : LaneWord) (c : Ctx), fpPickWord? i = some w → Runs s i c → Ordered s → w.quiet c →
        ∃ t, exec i s = .next t ∧ RegEffect w c t)
    ∧ (∀ (s : State) (i : Instr) (w : LaneWord) (c : Ctx), convWord? i = some w → Runs s i c → Ordered s → w.quiet c →
        ∃ t, exec i s = .next t ∧ RegEffect w c t))

/-- R149 to R155, R248: shfl, redux, scan, ballot, vote, qx and qbc write their result; mfc writes the control register it names, mstat the
status of the matrix engine. -/
def Obligations.CrossLaneAndStatusWordsWriteTheirResult : Prop :=
  (∀ (s : State) (i : Instr) (w : LaneWord) (c : Ctx), crossWord? i = some w → Runs s i c → Ordered s → w.quiet c →
      ∃ t, exec i s = .next t ∧ RegEffect w c t)
  ∧ (∀ (s : State) (i : Instr) (w : LaneWord) (c : Ctx), statusWord? i = some w → Runs s i c → Ordered s →
      ∃ t, exec i s = .next t ∧ RegEffect w c t)

/-- R111, R124, R434: a register word some of whose lanes meet a cause takes those causes, one for each such lane, and writes
nothing: the state before it is the state that takes the causes. -/
def Obligations.RegisterWordsTakeTheirCauses : Prop :=
  ∀ (s : State) (i : Instr) (w : LaneWord) (c : Ctx), regWord? i = some w → Runs s i c → w.causes c ≠ [] →
    exec i s = .next (c.s.takeCauses c.q (w.causes c) c.sq.pc 0)

/-- R138, R402, R425 to R428: the special functions put their results in flight where no exception met is enabled; the texture words, and
the box, triangle and beam tests that only answer, once the squad's earlier reads are performed and where no lane's read fails or
waits for a line. That a texture or ray word reads at its issue, behind the squad's earlier reads, and puts a result in flight whose values
are fixed then is the model's choice (log 21), and so is the wait for a line's token (log 25). -/
def Obligations.SpecialTextureAndRayWordsPutTheirResultInFlight : Prop :=
  (∀ (s : State) (i : Instr) (w : LaneWord) (c : Ctx), specialWord? i = some w → Runs s i c → Ordered s → w.quiet c →
      ∃ t, exec i s = .next t ∧ FlightEffect w 1 true c t)
  ∧ (∀ (s : State) (i : Instr) (w : LaneWord) (n : Nat) (c : Ctx), ((texWord? i = some w ∧ n = 4) ∨ rayWord? i = some (w, n)) →
      Runs s i c → Ordered s → c.readsDone = true → w.quiet c → (∀ l ln e, (l, ln) ∈ c.actors w.d → w.out c l ln = .error e → isWait e = false) →
      ∃ t, exec i s = .next t ∧ FlightEffect w n false c t)

/-- R73 to R76: a pair word applies slot A and then slot B, each to its own active lanes, and both read the registers as they
stood before the word. -/
def Obligations.PairWordAppliesBothSlots : Prop :=
  ∀ (s : State) (m : Bool) (sa sb : Slot) (c : Ctx), Runs s (.pairWord m sa sb) c → Ordered s →
    (∀ x l ln, (x = sa ∨ x = sb) → (l, ln) ∈ slotActors c x → fpCause c.fpc (slotOut c x l ln).fl = none) →
    ∃ t, exec (.pairWord m sa sb) s = .next t
      ∧ (∀ l ln, (l, ln) ∈ c.present → ln.helper = false →
          t.body? c.q l = some (slotLane c sb l ln (slotLane c sa l ln ln)).body)
      ∧ t.scaFile c.q c.sq.sup = slotSca c sb (slotSca c sa (c.s.scaFile c.q c.sq.sup))
      ∧ (t.squad? c.q).map Squad.besides = some c.sq.besides
      ∧ (t.block? c.q.blk).map (fun b => (b.besides, b.fpc))
          = some (c.blk.besides, c.owedFpc ((slotFlags c sa).or (slotFlags c sb)))
      ∧ SameMemory c.s t

/-! ## Control registers -/

/-- R110, R112, R154 to R156 and R463: mtc writes the register it names and no other (KSP keeps its unassigned bits zero, a 1
in a sticky bit of MXS clears it, CAUSE takes its code, and every other register but the loop counters and EPC ignores the write); the writes
of KSP and MXS, which all squads of a block share, take effect as the clock ends, in the order of the issue slots, so that every word of the
clock sees the value before it; mtc to FPC writes FPC for its issue slot; cyc writes the core's cycle counter. Such a write replaces the mode and the enables and
clears the flags written as 1: the writer's issue slot sees it at once, the other slots of the core from the next clock; and flags that
are owed to a later clock are set in that clock, after a write in between. -/
def Obligations.ControlRegisterWordsWriteWhatTheyName : Prop :=
  (∀ (s : State) (h : Hdr) (idx : BitVec 12) (a : Opnd) (c : Ctx) (v : DWord), Runs s (.mtc h idx a) c →
    c.mtcVal (crWide idx.toNat) a = some v →
    exec (.mtc h idx a) s = .next (c.past (
      if idx = 0x002 then c.s.modBlock c.q.blk fun b => b.crLater c.q.islot 0x002 (lo32 v &&& 0x1F &&& b.eng.mxs)
      else if idx = 0x004 then c.s.modBlock c.q.blk fun b => b.crLater c.q.islot 0x004 (lo32 v)
      else if idx = 0x00C then c.s.modSquad c.q fun x => { x with lc := Tab.set 0 x.lc 0 (lo32 v) }
      else if idx = 0x00D then c.s.modSquad c.q fun x => { x with lc := Tab.set 0 x.lc 1 (lo32 v) }
      else if idx = 0x00E then c.s.modSquad c.q fun x => { x with lc := Tab.set 0 x.lc 2 (lo32 v) }
      else if idx = 0x020 then c.s.modSquad c.q fun x =>
        { x with hr := { x.hr with cause := (x.hr.cause &&& ~~~0x7F) ||| (lo32 v &&& 0x7F) } }
      else if idx = 0x021 then c.s.modSquad c.q fun x => { x with hr := { x.hr with epc := v } }
      else if idx = 0x022 then c.s.modSquad c.q fun x => { x with hr := { x.hr with flane := lo32 v &&& 0x7F } }
      else c.s)))
  ∧ (∀ (b : Block) (i j : Nat) (v w : Word), b.crw = [] →
      (b.crLater i 0x002 v).crLand = { b with eng := { b.eng with mxs := b.eng.mxs &&& ~~~v } }
      ∧ (b.crLater i 0x004 v).crLand = { b with ksp := v &&& 0xFF07FFF8 }
      ∧ (i < j → ((b.crLater i 0x004 v).crLater j 0x004 w).crLand = { b with ksp := w &&& 0xFF07FFF8 }
        ∧ ((b.crLater j 0x004 w).crLater i 0x004 v).crLand = { b with ksp := w &&& 0xFF07FFF8 }))
  ∧ (∀ (s : State) (st n core pos : Nat) (rest : List Turn) (b : Block), s.agenda = .tick st n :: rest → pos < 16 →
      s.block? ⟨st, core, pos⟩ = some b → ∃ t, step s = .next t ∧ (t.stall st).clock = (s.stall st).clock + n
        ∧ (t.block? ⟨st, core, pos⟩).map (fun x => (x.ksp, x.eng.mxs, x.crw)) = some (b.crLand.ksp, b.crLand.eng.mxs, []))
  ∧ (∀ (s : State) (h : Hdr) (a : Opnd) (c : Ctx) (v : DWord), Runs s (.fpcWrite h a) c → c.mtcVal false a = some v →
      exec (.fpcWrite h a) s = .next (c.past (c.s.modBlock c.q.blk fun b =>
        { b with fpc := b.fpc.write (c.s.stall c.q.stall).clock c.q.islot (lo32 v) })))
  ∧ (∀ (s : State) (h : Hdr) (idx : BitVec 12) (a : Opnd) (i : Instr) (c : Ctx),
      (i = .mtc h idx a ∨ i = .fpcWrite h a ∨ i = .mqbWrite h a) → Runs s i c → c.act = [] → exec i s = .next (c.past c.s))
  ∧ (∀ (s : State) (h : Hdr) (d : Opnd) (c : Ctx), Runs s (.cyc h d) c → c.real ≠ none →
      exec (.cyc h d) s = .next (c.past (c.writeAll c.s d (wordsOf true (BitVec.ofNat 64 (c.s.stall c.q.stall).clock)))))
  ∧ (∀ (f : Fpc) (now slot : Nat) (v : Word), f.due = [] → f.wr = [] →
      let g := f.write now slot v
      let new := (v &&& 0x00031F00) ||| (f.val &&& 0x1F &&& ~~~v)
      g.view now slot = new ∧ (∀ k, k ≠ slot → g.view now k = f.val) ∧ ∀ m k, now < m → g.view m k = new)
  ∧ (∀ (f : Fpc) (now at' slot k m : Nat) (bits v : Word), f.due = [] → f.wr = [] → now ≤ m →
      ((f.owe now at' bits).view m k = if at' ≤ m then f.val ||| bits else f.val)
      ∧ ∀ w, now ≤ w → w < at' → w < m → at' ≤ m →
          ((f.owe now at' bits).write w slot v).view m k = ((v &&& 0x00031F00) ||| (f.val &&& 0x1F &&& ~~~v)) ||| bits)

/-- R213, R214 and R216: mtc to MQB resets the queue to empty at its new place, as its clock ends (R156), once nothing queued and nothing
dispatched is left; until then it keeps its issue slot; an entry count outside 8 to 256 raises 0x42 and a queue beyond the pad 0x26 in the acting lane, which
leaves its quad instead where it is a helper (R53); in a block that holds no engine the write is ignored. -/
def Obligations.QueueBaseWriteWaitsAndResets : Prop :=
  ∀ (s : State) (h : Hdr) (a : Opnd) (c : Ctx) (v : DWord) (l : Nat) (ln : Lane), Runs s (.mqbWrite h a) c →
    c.mtcVal false a = some v → c.acting = some (l, ln) →
    let ent := field v 31 23
    let base := 16 * field v 18 4
    let cause (e : Nat) : State :=
      if ln.helper then c.past (c.s.modSquad c.q fun q => q.dropLanes [l]) else c.s.takeCauses c.q [(l, e)] c.sq.pc 0
    (c.blk.kern.mqEnt = 0 → exec (.mqbWrite h a) s = .next (c.past c.s))
    ∧ (c.blk.kern.mqEnt ≠ 0 → (ent < 8 ∨ 256 < ent) → exec (.mqbWrite h a) s = .next (cause 0x42))
    ∧ (c.blk.kern.mqEnt ≠ 0 → 8 ≤ ent → ent ≤ 256 →
      (c.blk.kern.pad < base + 16 * ent → exec (.mqbWrite h a) s = .next (cause 0x26))
      ∧ (base + 16 * ent ≤ c.blk.kern.pad →
        (c.blk.eng.mqh = c.blk.eng.mqt ∧ c.blk.eng.run = [] →
          exec (.mqbWrite h a) s = .next (c.past (c.s.modBlock c.q.blk fun b => b.crLater c.q.islot 0x010 (lo32 v)))
          ∧ ∀ (b : Block) (i : Nat) (x : Word), b.crw = [] → (b.crLater i 0x010 x).crLand
              = { b with eng := { b.eng with mqb := x &&& 0xFF87FFF0, mqh := 0, mqt := 0, queued := [] } })
        ∧ (c.blk.eng.mqh ≠ c.blk.eng.mqt ∨ c.blk.eng.run ≠ [] →
          exec (.mqbWrite h a) s = .next (c.park (.slot false)))))

/-! ## Control flow -/

/-- R160, R178, R179, R81: where every present lane is active and goes to one target that passes its check, outside loops and with no lane
held, bra, jmp, call, calli and ret set the PC to the target and write the link PC + 8 in every lane, and change no other
register and no memory; a transfer with no active lane goes on at PC + 8 and writes no link; one some of whose active lanes have
a bad target takes the causes of those lanes, and no lane moves; and one with a lane whose target word cannot be read yet, for want
of a token of its line, asks for the line and keeps its issue slot (log 25). -/
def Obligations.TransfersSetThePcAndTheLink : Prop :=
  (∀ (s : State) (i : Instr) (x : Transfer) (c : Ctx) (p : DWord), transfer? i = some x → Runs s i c → Ordered s →
      c.act = c.present → c.present ≠ [] → c.sq.loops = [] → c.sq.sup = false → (∀ y ∈ c.sq.lanes, y.2.at' = .issue) →
      (∀ l ln, (l, ln) ∈ c.act → x.check c l ln = none ∧ x.target c l ln = p) →
      ∃ t, exec i s = .next t
        ∧ (t.squad? c.q).map (fun q => (q.pc, q.point)) = some (p, some (x.live, true))
        ∧ (∀ l ln, (l, ln) ∈ c.act → t.body? c.q l = some (x.linked c ln).body)
        ∧ (∀ m, t.scaFile c.q m = c.s.scaFile c.q m)
        ∧ (t.squad? c.q).map Squad.besides = some c.sq.besides
        ∧ (t.block? c.q.blk).map (fun b => (b.besides, b.fpc)) = some (c.blk.besides, c.blk.fpc)
        ∧ (∀ b, b ≠ c.q.blk → t.block? b = c.s.block? b) ∧ SameMemory c.s t)
  ∧ ((∀ (s : State) (i : Instr) (x : Transfer) (c : Ctx), transfer? i = some x → Runs s i c → Ordered s →
        c.act = [] → c.present ≠ [] → c.sq.loops = [] → c.sq.sup = false → (∀ y ∈ c.sq.lanes, y.2.at' = .issue) →
        ∃ t, exec i s = .next t
          ∧ (t.squad? c.q).map (fun q => (q.pc, q.point)) = some (c.sq.pc + 8, none)
          ∧ (∀ l ln, (l, ln) ∈ c.present → t.body? c.q l = some ln.body) ∧ SameMemory c.s t)
    ∧ (∀ (s : State) (i : Instr) (x : Transfer) (c : Ctx), transfer? i = some x → Runs s i c →
        let cs := c.act.filterMap fun y =>
          if y.2.helper && !(x.check c y.1 y.2).any isWait then none else (x.check c y.1 y.2).map fun e => (y.1, e)
        cs ≠ [] → exec i s = .next (if anyWaits cs then c.await (cs.map (·.2)) else c.s.takeCauses c.q cs c.sq.pc 0)))

/-- R160, R161, R171, R173, R176: a transfer that not every present lane takes, of a squad that is not quad-locked. Outside loop bodies,
with no lane held before, one group goes on in place: of a direct branch the larger, and the one at PC + 8 on a tie; of another transfer
the one of the lower PC; the other is filed where there is room, a record for each of its lanes with its PC, its thread and its registers,
and else both are held, and the lower PC issues. Inside a loop body the groups are held so whatever the room, and lanes that leave the
body wait for its end. A transfer first files the groups that the squad holds. -/
def Obligations.DivergentTransfersFileOrHoldTheirGroups : Prop :=
  ∀ (s : State) (i : Instr) (x : Transfer) (c : Ctx) (p : DWord), transfer? i = some x → Runs s i c → Ordered s →
    c.blk.kern.quad = false → c.sq.sup = false → (∀ l ln, (l, ln) ∈ c.act → x.check c l ln = none ∧ x.target c l ln = p) →
    c.act ≠ [] →
    let taken (l : Nat) : Bool := c.act.any fun y => y.1 = l
    let after (y : Nat × Lane) : Nat × Lane := (y.1, if taken y.1 then x.linked c y.2 else y.2)
    let there := c.act.map after
    let here := c.present.filter fun y => !taken y.1
    let stays (t : State) (ys : List (Nat × Lane)) : Prop :=
      ∀ y, y ∈ ys → ∃ ln, t.lane? c.q y.1 = some ln ∧ ln.at' = .issue ∧ ln.body = y.2.body
    let held (t : State) (ys : List (Nat × Lane)) (pc : DWord) (left : List Nat) : Prop :=
      ∀ y, y ∈ ys → ∃ ln h, t.lane? c.q y.1 = some ln ∧ ln.at' = .held h ∧ ln.body = y.2.body
        ∧ (h.pc, h.live, h.bar, h.left) = (pc, x.live, none, left)
    -- two groups, outside loop bodies
    (here ≠ [] → p ≠ c.sq.pc + 8 → c.sq.loops = [] → (∀ y ∈ c.sq.lanes, y.2.at' = .issue) →
      let goes : Bool := if x.direct then decide (here.length < there.length) else decide (p.toNat < (c.sq.pc + 8).toNat)
      let filed := if goes then here else there
      let kept := if goes then there else here
      let pcs : DWord × DWord := if goes then (p, c.sq.pc + 8) else (c.sq.pc + 8, p)
      let g : FGroup := ⟨filed.map (·.1), pcs.2, x.live, none, false, filed.map fun y => (y.1, y.2, y.2.helper)⟩
      (c.s.roomFor c.q c.sq.role [g] = true → ∃ t, exec i s = .next t ∧ SameMemory c.s t
        ∧ (t.squad? c.q).map (fun q => (q.pc, q.point)) = some (pcs.1, some (x.live, true)) ∧ stays t kept
        ∧ (∀ y, y ∈ filed → t.lane? c.q y.1 = none)
        ∧ t.threads c.q = c.s.threads c.q ++ filed.map (c.filed pcs.2 x.live))
      ∧ (c.s.roomFor c.q c.sq.role [g] = false → ∃ t, exec i s = .next t ∧ SameMemory c.s t ∧ t.threads c.q = c.s.threads c.q
        ∧ (p.toNat < (c.sq.pc + 8).toNat → (t.squad? c.q).map (·.pc) = some p ∧ stays t there ∧ held t here (c.sq.pc + 8) [])
        ∧ ((c.sq.pc + 8).toNat < p.toNat → (t.squad? c.q).map (·.pc) = some (c.sq.pc + 8) ∧ stays t here ∧ held t there p [])))
    -- inside the body of a loop
    ∧ (∀ m, c.present ≠ [] → here ≠ [] → p ≠ c.sq.pc + 8 → c.sq.loops = [m] → (∀ y ∈ c.sq.lanes, y.2.at' = .issue) →
      (∀ y ∈ c.present, y.1 ∈ m.entered) → c.sq.pc + 8 ≠ m.endPc →
      (m.holds p = true → ∃ t, exec i s = .next t ∧ SameMemory c.s t ∧ t.threads c.q = c.s.threads c.q
        ∧ (p.toNat < (c.sq.pc + 8).toNat → (t.squad? c.q).map (·.pc) = some p ∧ stays t there ∧ held t here (c.sq.pc + 8) [])
        ∧ ((c.sq.pc + 8).toNat < p.toNat → (t.squad? c.q).map (·.pc) = some (c.sq.pc + 8) ∧ stays t here ∧ held t there p []))
      ∧ (m.holds p = false → ∃ t, exec i s = .next t ∧ SameMemory c.s t ∧ t.threads c.q = c.s.threads c.q
        ∧ (t.squad? c.q).map (·.pc) = some (c.sq.pc + 8) ∧ stays t here ∧ ∀ y, y ∈ there → ∃ ln h, t.lane? c.q y.1 = some ln
            ∧ ln.at' = .held h ∧ ln.body = y.2.body ∧ (h.pc, h.left) = (p, [m.ctr])))
    -- with a group held before
    ∧ (∀ h, c.act = c.present → c.sq.loops = [] → h.bar = none → h.left = [] → h.pc ≠ p →
      (∀ y ∈ c.sq.lanes, y.2.at' = .issue ∨ y.2.at' = .held h) → (∃ y ∈ c.sq.lanes, y.2.at' = .held h) →
      let ys := c.sq.lanes.filter fun y => y.2.at' = .held h
      let g : FGroup := ⟨ys.map (·.1), h.pc, h.live, none, false, ys.map fun y => (y.1, y.2, y.2.helper)⟩
      (c.s.roomFor c.q c.sq.role [g] = true → ∃ t, exec i s = .next t ∧ (t.squad? c.q).map (·.pc) = some p ∧ stays t there
        ∧ (∀ y, y ∈ ys → t.lane? c.q y.1 = none) ∧ t.threads c.q = c.s.threads c.q ++ ys.map (c.filed h.pc h.live))
      ∧ (c.s.roomFor c.q c.sq.role [g] = false → ∃ t, exec i s = .next t ∧ (t.squad? c.q).map (·.pc) = some p ∧ stays t there
        ∧ (∀ y, y ∈ ys → (t.lane? c.q y.1).map (·.at') = some (.held h)) ∧ t.threads c.q = c.s.threads c.q))

/-- R174, R180, R181 and R183: nop and land only go on; yield ranks the squad as just ready; a loop with a count of zero skips its
body, and any other sets the counter and starts the body; a reform inside a loop body only goes on (inside one is a squad of which an issuing lane has entered an active loop: log 37). -/
def Obligations.PlainControlWordsGoOn : Prop :=
  (∀ (s : State) (h : Hdr) (c : Ctx), Runs s (.nop h) c → exec (.nop h) s = .next (c.past c.s))
  ∧ (∀ (s : State) (h : Hdr) (tag : BitVec 12) (c : Ctx), Runs s (.land h tag) c → exec (.land h tag) s = .next (c.past c.s))
  ∧ (∀ (s : State) (h : Hdr) (c : Ctx), Runs s (.yield h) c → c.act ≠ [] → exec (.yield h) s =
      .next (c.past (c.s.modSquad c.q fun q => { q with ready := some (c.s.stall c.q.stall).clock })))
  ∧ (∀ (s : State) (m : Bool) (k : Fin 3) (n : LoopCount) (len : BitVec 10) (c : Ctx), Runs s (.loop m k n len) c →
      (c.loopCount n = 0 → exec (.loop m k n len) s = .next (c.moved (c.s.modSquad c.q fun q =>
        { q with pc := q.pc + 8 + BitVec.ofNat 64 (8 * len.toNat), point := none }.fallEnd)))
      ∧ (c.loopCount n ≠ 0 → exec (.loop m k n len) s = .next (c.moved (c.s.modSquad c.q fun q =>
        { q with pc := q.pc + 8, point := none, lc := Tab.set 0 q.lc k.val (BitVec.ofNat 32 (c.loopCount n)),
                 loops := ⟨q.pc + 8, len.toNat, k.val, c.present.map (·.1)⟩ :: q.loops }))))
  ∧ (∀ (s : State) (m : Bool) (live : Live) (c : Ctx), Runs s (.reform m live) c → c.sq.inBody = true →
      exec (.reform m live) s = .next (c.past c.s))

/-- R181, R161, R162: a reform of a squad that is full (of W lanes, or in a quad-locked launch of W / 4 quads), that an aged bin drew, or
that is alone in its role, with no lane held, files nothing and goes on at PC + 8; and where the crate has room it files its present lanes
otherwise, in a quad-locked launch those of quads that hold a thread: the squad has none of them left, and the crate of the core gains one
record for each, with PC + 8, its lane, its thread, its predicates and random state, and its registers below 4 * LIVE. R182, R52, R393: exit
and pkill take place whatever the squad holds: no active lane is left in the squad, but in a quad-locked launch as a helper; the other
threads go on with their registers as they are, and the block has as many threads fewer as the word ended. -/
def Obligations.ReformFilesAndExitEndsTheLanes : Prop :=
  (∀ (s : State) (m : Bool) (live : Live) (c : Ctx), Runs s (.reform m live) c → Ordered s → c.sq.loops = [] → c.sq.sup = false →
      (∀ y ∈ c.sq.lanes, y.2.at' = .issue) →
      let quad := c.blk.kern.quad
      let filed := if quad then c.present.filter fun y => c.present.any fun z => z.1 / 4 = y.1 / 4 && !z.2.helper else c.present
      let g : FGroup := { own := c.present.map (·.1), pc := c.sq.pc + 8, live := live.val, bar := none, atWait := false,
                          lanes := filed.map fun y => (y.1, y.2, y.2.helper) }
      let pass := c.sq.full c.blk.kern.width quad || c.sq.agedDraw || !c.s.othersOf c.q c.sq.role
      (pass = true → ∃ t, exec (.reform m live) s = .next t ∧ SameMemory c.s t
        ∧ (t.squad? c.q).map (fun q => (q.pc, q.agedDraw)) = some (c.sq.pc + 8, false) ∧ (∀ l, t.body? c.q l = c.s.body? c.q l)
        ∧ (t.core c.q.stall c.q.core).recs = (c.s.core c.q.stall c.q.core).recs)
      ∧ (pass = false → filed ≠ [] → c.s.roomFor c.q c.sq.role [g] = true → ∃ t, exec (.reform m live) s = .next t ∧ SameMemory c.s t
        ∧ (∀ l, t.lane? c.q l = none)
        ∧ t.threads c.q = c.s.threads c.q ++ filed.map (c.filed (c.sq.pc + 8) live.val)))
  ∧ (∀ (s : State) (i : Instr) (h : Hdr) (c : Ctx), (i = .exit h ∨ i = .pkill h) → Runs s i c → Ordered s →
      let ends := c.act.filter fun y => !y.2.helper
      let others := c.present.filter fun y => !y.2.helper && !c.act.any fun z => z.1 = y.1
      ∃ t, exec i s = .next t
        ∧ (∀ l ln ln', (l, ln) ∈ c.act → t.lane? c.q l = some ln' → c.blk.kern.quad = true ∧ ln'.helper = true)
        ∧ (∀ l ln, (l, ln) ∈ others → t.body? c.q l = some ln.body)
        ∧ (others ≠ [] → (t.block? c.q.blk).map (·.live) = some (c.blk.live - ends.length)))

/-! ## Causes -/

/-- R78, R81, R82: a word with a cause of its decode raises it in every present lane, and has no other effect. -/
def Obligations.DecodeCausesStopEveryPresentLane : Prop :=
  ∀ (s : State) (i : Instr) (c : Ctx) (e : Nat), (encode i).isSome = true → Reaches s (hdrOf i) c →
    (useOf i c).cause c (hdrOf i).s = some e →
    exec i s = .next (c.s.takeCauses c.q (c.present.map fun x => (x.1, e)) c.sq.pc 0)

/-- R434, R435, R438 to R441: a cause that a word of a running block raises in user mode halts the block: the primary cause is
the one of the least rank, then the least code; its lane is the lowest that raised it; the squad stops with EPC, its code and
lane; and no memory changes. -/
def Obligations.TakingACauseHaltsTheBlock : Prop :=
  ∀ (s : State) (q : Sel) (cs : List (Nat × Nat)) (epc va : DWord) (b : Block) (x : Squad),
    q.pos < 16 → s.block? q.blk = some b → s.squad? q = some x → b.halt.phase = .run → x.sup = false → cs ≠ [] →
    (∀ y ∈ cs, y.1 < 64 ∧ y.2 < 128) →
    ∃ l e, (l, e) ∈ cs ∧ (∀ y ∈ cs, causeRank e < causeRank y.2 ∨ (causeRank e = causeRank y.2 ∧ e < y.2) ∨ (e = y.2 ∧ l ≤ y.1))
      ∧ (∀ t, t = s.takeCauses q cs epc va →
        (t.block? q.blk).map (fun k => (k.halt.phase, k.halt.psq, k.halt.cause, k.halt.flane)) = some (.halting, q.slot, e, l)
        ∧ (t.squad? q).map (fun y => (y.hr.epc, y.hr.stopped, y.hr.cause.toNat % 128, y.hr.flane.toNat, y.hr.va))
            = some (epc, true, e, l, va)
        ∧ SameMemory s t)

/-! ## Pad and accumulator memory -/

/-- R185, R187, R189, R190: an access that is misaligned raises 0x20, one beyond the allotment 0x26 or 0x27, and one that reads a granule in
error 0x2B, in each lane it fails for, and nothing is read or written; pld and ald read the little-endian bytes at issue, extended
as the size says, and put them in flight for each lane; pst and ast write each lane's bytes in ascending lane order, helper lanes
apart. -/
def Obligations.PadAccessesAreCheckedReadAndWritten : Prop :=
  (∀ (s : State) (i : Instr) (p : PadAcc) (c : Ctx), padAcc? i = some p → Runs s i c → p.causes c ≠ [] →
      exec i s = .next (c.s.takeCauses c.q (p.causes c) c.sq.pc 0))
  ∧ ((∀ (s : State) (h : Hdr) (sz : PldSz) (off : BitVec 12) (d a : Opnd) (p : PadAcc) (c : Ctx),
      padAcc? (.pld h sz off d a) = some p → Runs s (.pld h sz off d a) c → p.causes c = [] →
      exec (.pld h sz off d a) s = .next (c.past (c.s.flightOf c.q d (if p.z = 8 then 2 else 1)
        ((p.lanes c).flatMap fun x => destVals d x.1 (extendWords p.z sz.spec.2 (p.value c x))))))
    ∧ (∀ (s : State) (h : Hdr) (wide : Bool) (off : BitVec 12) (d a : Opnd) (p : PadAcc) (c : Ctx),
      padAcc? (.ald h wide off d a) = some p → Runs s (.ald h wide off d a) c → p.causes c = [] →
      exec (.ald h wide off d a) s = .next (c.past (c.s.flightOf c.q d (if wide then 2 else 1)
        ((p.lanes c).flatMap fun x => destVals d x.1 (extendWords p.z false (p.value c x)))))))
  ∧ ((∀ (s : State) (h : Hdr) (sz : PstSz) (off : BitVec 12) (a b : Opnd) (p : PadAcc) (c : Ctx),
      padAcc? (.pst h sz off a b) = some p → Runs s (.pst h sz off a b) c → p.causes c = [] →
      exec (.pst h sz off a b) s = .next (c.past (((p.lanes c).filter fun x => !x.2.helper).foldl (fun s x =>
        s.modBlock c.q.blk fun k => k.writePad (p.addr c x.1 x.2).toNat (leBytes p.z (c.rdW (p.z = 8) x.1 x.2 b).toNat)) c.s)))
    ∧ (∀ (s : State) (h : Hdr) (wide : Bool) (off : BitVec 12) (a b : Opnd) (p : PadAcc) (c : Ctx),
      padAcc? (.ast h wide off a b) = some p → Runs s (.ast h wide off a b) c → p.causes c = [] →
      exec (.ast h wide off a b) s = .next (c.past (((p.lanes c).filter fun x => !x.2.helper).foldl (fun s x =>
        s.modBlock c.q.blk fun k => k.writeAm (p.addr c x.1 x.2).toNat (leBytes p.z (c.rdW (p.z = 8) x.1 x.2 b).toNat)) c.s))))

/-- R191, R192, R210, R211: patom and parr read, compute and write lane by lane in ascending order, and put the old values in flight; pwait
reads its words where bit 31 of each differs from its lane's phase, and parks otherwise. -/
def Obligations.PadAtomicsActLaneByLaneAndPhaseWaitsPark : Prop :=
  ((∀ (s : State) (h : Hdr) (op : PatOp) (off : BitVec 12) (d a b : Opnd) (p : PadAcc) (c : Ctx),
      padAcc? (.patom h op off d a b) = some p → Runs s (.patom h op off d a b) c → p.causes c = [] →
      let f (l : Nat) (ln : Lane) (old : Nat) : Nat :=
        let v := c.casVals op.wide op.isCas l ln b
        (op.apply (BitVec.ofNat 64 old) v.1 v.2).toNat
      let r := c.padUpdate p.z f ((p.lanes c).map (p.at c))
      exec (.patom h op off d a b) s = .next (c.past (r.1.flightOf c.q d (if op.wide then 2 else 1)
        (r.2.flatMap fun x => destVals d x.1 (extendWords p.z false x.2)))))
    ∧ (∀ (s : State) (h : Hdr) (d a : Opnd) (b : RI) (p : PadAcc) (c : Ctx),
      padAcc? (.parr h d a b) = some p → Runs s (.parr h d a b) c → p.causes c = [] →
      let r := c.padUpdate 4 (fun l ln old => arrived old ((c.rdN l ln b).toNat % 2 ^ 16)) ((p.lanes c).map (p.at c))
      exec (.parr h d a b) s = .next (c.past (r.1.flightOf c.q d 1 (r.2.flatMap fun x => destVals d x.1 (extendWords 4 false x.2))))))
  ∧ (∀ (s : State) (h : Hdr) (d a : Opnd) (b : RI) (p : PadAcc) (c : Ctx), padAcc? (.pwait h d a b) = some p →
      Runs s (.pwait h d a b) c → p.causes c = [] → c.act ≠ [] →
      let passes := ∀ x ∈ p.lanes c, p.cause c x.1 x.2 = none → p.value c x / 2 ^ 31 ≠ (c.rdN x.1 x.2 b).toNat % 2
      (passes → exec (.pwait h d a b) s = .next (c.past (c.s.flightOf c.q d 1
        ((p.lanes c).flatMap fun x => destVals d x.1 [BitVec.ofNat 32 (p.value c x)]))))
      ∧ (¬ passes → exec (.pwait h d a b) s = .next (c.s.modSquad c.q fun q => { q with park := .pwait })))

/-! ## Tags, watches, waits and barriers -/

/-- R204: twany, twall, tfirst and tclr on a mask: the lowest done tag, or the wait for one; the wait for all; the lowest done tag or 64;
done tags cleared. R205, R207: watch arms a slot on its line with the hit bit clear, or disarms it, and takes the cause of its
address in the acting lane, or in a helper loses that lane (R53), or keeps its issue slot while its address cannot be translated for want
of a line, which it asks for (log 25); wait returns 0x10 where no slot is armed, and else the hit bits where one is set, of an armed slot
or not, clearing them, and parks where none is set. What such a word answers goes to every active lane's vector register, once to a scalar
register, and nowhere where its destination is zero. -/
def Obligations.TagsWatchesAndWaitsFollowTheirTables : Prop :=
  (∀ (s : State) (i : Instr) (c : Ctx) (d : Opnd) (w : Word), Runs s i c → Ordered s →
    DestEffect d [w] c (c.past (c.writeAll c.s d [w])))
  ∧ (∀ (s : State) (h : Hdr) (d : Opnd) (m : TMask) (c : Ctx) (x : Nat × Lane), c.acting = some x →
      let mask := c.tmask x.2 m
      let done := c.blk.tagsDone &&& mask
      let first := ((List.range 64).find? fun t => done.getLsbD t).getD 64
      (Runs s (.twany h d m) c → (mask = 0 ∨ done ≠ 0) →
        exec (.twany h d m) s = .next (c.past (c.writeAll c.s d [BitVec.ofNat 32 first])))
      ∧ (Runs s (.twany h d m) c → mask ≠ 0 ∧ done = 0 →
        exec (.twany h d m) s = .next (c.s.modSquad c.q fun q => { q with park := .tags }))
      ∧ (Runs s (.twall h m) c → done = mask → exec (.twall h m) s = .next (c.past c.s))
      ∧ (Runs s (.twall h m) c → done ≠ mask → exec (.twall h m) s = .next (c.s.modSquad c.q fun q => { q with park := .tags }))
      ∧ (Runs s (.tfirst h d m) c → exec (.tfirst h d m) s = .next (c.past (c.writeAll c.s d [BitVec.ofNat 32 first])))
      ∧ (Runs s (.tclr h m) c →
        exec (.tclr h m) s = .next (c.past (c.s.modBlock c.q.blk fun b => { b with tagsDone := b.tagsDone &&& ~~~mask }))))
  ∧ ((∀ (s : State) (h : Hdr) (slot : Bool) (a : Opnd) (c : Ctx) (x : Nat × Lane), c.acting = some x →
      (Runs s (.watch h .pad slot a) c → (c.rd x.1 x.2 a).toNat < c.blk.kern.pad →
        exec (.watch h .pad slot a) s = .next (c.past (c.s.modSquad c.q fun q =>
          q.setWatch slot ⟨true, false, .pad ((c.rd x.1 x.2 a).toNat / 64), BitVec.ofNat 64 (c.rd x.1 x.2 a).toNat⟩)))
      ∧ (Runs s (.watch h .pad slot a) c → c.blk.kern.pad ≤ (c.rd x.1 x.2 a).toNat →
        exec (.watch h .pad slot a) s = .next (if x.2.helper then c.past (c.s.modSquad c.q fun q => q.dropLanes [x.1])
          else c.s.takeCauses c.q [(x.1, 0x26)] c.sq.pc 0))
      ∧ (∀ (e : Nat), Runs s (.watch h .global slot a) c →
        c.s.translate c.q.stall c.sq.sup (c.rd64 x.2 a) .read 1 0 = .error e →
        exec (.watch h .global slot a) s = .next (if isWait e then c.await [e]
          else if x.2.helper then c.past (c.s.modSquad c.q fun q => q.dropLanes [x.1])
          else c.s.takeCauses c.q [(x.1, e)] c.sq.pc (c.rd64 x.2 a)))
      ∧ (Runs s (.watch h .off slot a) c → exec (.watch h .off slot a) s = .next (c.past (c.s.modSquad c.q fun q =>
          q.setWatch slot { (if slot then q.w1 else q.w0) with armed := false })))
      ∧ (∀ (t : Tr), Runs s (.watch h .global slot a) c →
        c.s.translate c.q.stall c.sq.sup (c.rd64 x.2 a) .read 1 0 = .ok t →
        ∃ u, exec (.watch h .global slot a) s = .next u
          ∧ (u.squad? c.q).map (fun q => if slot then q.w1 else q.w0)
              = some ⟨true, false, c.s.watchLine c.q.stall t.place, c.rd64 x.2 a⟩ ∧ SameMemory c.s u))
    ∧ (∀ (s : State) (h : Hdr) (d : Opnd) (a : RI) (c : Ctx) (x : Nat × Lane), Runs s (.wait h d a) c → c.act.head? = some x →
      (c.sq.w0.armed = false ∧ c.sq.w1.armed = false → exec (.wait h d a) s = .next (c.past (c.writeAll c.s d [0x10])))
      ∧ ((c.sq.w0.armed = true ∨ c.sq.w1.armed = true) ∧ c.sq.hits ≠ 0 → exec (.wait h d a) s = .next (c.past (c.writeAll (c.s.modSquad c.q fun q => q.clearHits c.sq.hits) d
          [BitVec.ofNat 32 c.sq.hits])))
      ∧ ((c.sq.w0.armed = true ∨ c.sq.w1.armed = true) ∧ c.sq.hits = 0 → ∃ dl, exec (.wait h d a) s =
          .next (c.s.modSquad c.q fun q => { q with park := .wait h d dl false })
          ∧ (dl = none ↔ (c.rdN x.1 x.2 a).toNat = 0)
          ∧ ∀ n, dl = some n → n = (c.s.stall c.q.stall).clock + (c.rdN x.1 x.2 a).toNat)))

/-- R208: bar counts the threads of the issuing group, helper lanes apart; where others of the block are still to arrive it
holds them at PC + 8; the last arrival returns the count to 0 and flips the phase. -/
def Obligations.BarriersCountArrivals : Prop :=
  ∀ (s : State) (m : Bool) (n : BitVec 4) (c : Ctx), Runs s (.bar m n) c → Ordered s →
    let k := (c.present.filter fun x => !x.2.helper).length
    let old := Tab.get ⟨0, false⟩ c.blk.bars n.toNat
    c.blk.bars = [(n.toNat, old)] ∨ c.blk.bars = [] → 0 < k → c.sq.sup = false →
    ∃ t, exec (.bar m n) s = .next t ∧ SameMemory c.s t
      ∧ (old.count + k < c.blk.live →
          (t.block? c.q.blk).map (fun b => Tab.get ⟨0, false⟩ b.bars n.toNat) = some { old with count := old.count + k }
          ∧ ∀ l ln, (l, ln) ∈ c.present → ∃ ln' hd, t.lane? c.q l = some ln' ∧ ln'.at' = .held hd ∧ hd.pc = c.sq.pc + 8
              ∧ hd.bar = some n.toNat)
      ∧ (c.blk.live ≤ old.count + k →
          (t.block? c.q.blk).map (fun b => Tab.get ⟨0, false⟩ b.bars n.toNat) = some ⟨0, !old.phase⟩)

/-! ## Memory -/

/-- R250, R252, R254: an access of a misaligned address raises 0x20, then one whose bits 63:52 are not zero 0x21; an access that
passes has a leaf that grants it: IR for a read or lrs, W for a write, X for a fetch, IR and W for an atomic, and in user mode
U; and no atomic or lrs meets a replicated or host leaf. That an atomic needs U in user mode, and that its cause without a permission is 0x23,
are read from the rules (logs 28 and 43). -/
def Obligations.AccessesNeedTheirPermission : Prop :=
  ∀ (s : State) (st : Nat) (sup : Bool) (va : DWord) (acc : Acc) (z k : Nat),
    (va.toNat % z ≠ 0 → s.translate st sup va acc z k = .error 0x20)
    ∧ (va.toNat % z = 0 → 2 ^ 52 ≤ va.toNat → s.translate st sup va acc z k = .error 0x21)
    ∧ (∀ t, s.translate st sup va acc z k = .ok t →
        let e := t.ent.leaf
        (sup = false → e.getLsbD 8 = true)
        ∧ (acc = .read ∨ acc = .lrs ∨ acc = .atomic → e.getLsbD 5 = true) ∧ (acc = .write ∨ acc = .atomic → e.getLsbD 6 = true)
        ∧ (acc = .fetch → e.getLsbD 7 = true) ∧ (acc = .atomic ∨ acc = .lrs → field e 4 2 ≠ 2 ∧ field e 4 2 ≠ 4))
    ∧ (∀ t, s.entryFor st va k = .ok t → va.toNat % z = 0 → field t.leaf 4 2 ≠ 3 → t.leaf.getLsbD 8 = false → sup = false →
        ∃ e, s.translate st sup va acc z k = .error e
          ∧ e = (match acc with
            | .write => 0x22
            | .fetch => 0x24
            | _ => 0x23))

/-- R268, R269, R286, R444: a memory word some of whose lanes fail their check takes those causes, with the virtual address of
the primary lane's access, and has no other effect; one with a lane whose translation waits for a token of a line (R258) asks for the
lines that its lanes wait for and keeps its issue slot (log 25). -/
def Obligations.MemoryWordsTakeTheirCauses : Prop :=
  ∀ (s : State) (i : Instr) (f : Ctx → List MAcc) (c : Ctx), memAccs? i = some f → Runs s i c → memCauses (f c) ≠ [] →
    exec i s = .next (if anyWaits (memCauses (f c)) then c.await ((memCauses (f c)).map (·.2))
      else c.s.takeCauses c.q (memCauses (f c)) c.sq.pc (causeVa (f c) (memCauses (f c))))

/-- R267, R268, R77, R288, R289: ld and lrs whose accesses pass put one result in flight that reads each lane's bytes, extended as the size
says, into that lane's registers, in the word's order and for its observers; the reads of lrs will reserve. R295: st appends one entry for each lane, in ascending lane order, to the squad's store queue: the place
and the little-endian bytes; no byte of memory changes yet. -/
def Obligations.LoadsGoInFlightAndStoresAreQueued : Prop :=
  ((∀ (s : State) (h : Hdr) (sz : LdSz) (hint : Hint) (m : MemX) (d a : Opnd) (f : Ctx → List MAcc) (c : Ctx),
        memAccs? (.ld h sz hint m d a) = some f → Runs s (.ld h sz hint m d a) c → Ordered s → memCauses (f c) = [] →
        ∃ t x, exec (.ld h sz hint m d a) s = .next t
          ∧ (t.squad? c.q).map (·.flight) = some (c.sq.flight ++ [x])
          ∧ x.dst = destRegs d (regsOf sz.spec.1) ∧ x.perf = false ∧ x.ret = false ∧ x.byQueue = false
          ∧ x.reads = (placed (f c)).map (fun p => ⟨(destSlot d p.1.lane).1, p.1.lane, (destSlot d p.1.lane).2, p.2.place, sz.spec.1,
              if sz.spec.2 then .sign else .zero, none⟩)
          ∧ (x.acq = true ↔ m.ord.acquires = true ∨ anyMgmt (placed (f c)) = true)
          ∧ (anyMgmt (placed (f c)) = false → x.obs = m.obs)
          ∧ SquadFrame noFlight false c t)
    ∧ (∀ (s : State) (h : Hdr) (wide : Bool) (m : MemX) (d a : Opnd) (f : Ctx → List MAcc) (c : Ctx),
        memAccs? (.lrs h wide m d a) = some f → Runs s (.lrs h wide m d a) c → Ordered s → memCauses (f c) = [] →
        ∃ t x con, exec (.lrs h wide m d a) s = .next t
          ∧ (t.squad? c.q).map (·.flight) = some (c.sq.flight ++ [x])
          ∧ x.dst = destRegs d (if wide then 2 else 1) ∧ x.perf = false ∧ x.ret = false ∧ x.noFill = true
          ∧ x.reads = (placed (f c)).map (fun p => ⟨(destSlot d p.1.lane).1, p.1.lane, (destSlot d p.1.lane).2, p.2.place,
              if wide then 8 else 4, .zero, some (p.1.va, con)⟩)
          ∧ x.acq = m.ord.acquires ∧ x.obs = m.obs
          ∧ SquadFrame noFlight false c t))
  ∧ (∀ (s : State) (h : Hdr) (sz : StSz) (hint : Hint) (m : MemX) (a b : Opnd) (f : Ctx → List MAcc) (c : Ctx),
      memAccs? (.st h sz hint m a b) = some f → Runs s (.st h sz hint m a b) c → Ordered s → memCauses (f c) = [] →
      ∃ t, exec (.st h sz hint m a b) s = .next t
        ∧ (t.squad? c.q).map queued = some (queued c.sq ++ (placed (f c)).map fun p =>
            { SqEnt.plain (.store p.2.place (c.memBytes p.1.lane p.1.ln b sz.size)) with
              pc := c.sq.pc, rel := obsWith [p] (relOf m), acq := obsWith [p] none })
        ∧ SquadFrame noQueue false c t)

/-- R284 to R288 and R290: atom, red and scs whose accesses pass queue one entry of their lanes, in ascending lane order, and atom and scs
put the result that the entry will supply in flight; a red acts at the home and returns nothing. A lane of an atom acts at the home where a
far leaf grants its access, but for an entry of the CRT, and so do the lanes that share a line with one (log 28). -/
def Obligations.AtomicsEnterTheStoreQueue : Prop :=
  (∀ (s : State) (h : Hdr) (op : AtomOp) (m : MemX) (d a b : Opnd) (f : Ctx → List MAcc) (c : Ctx),
    memAccs? (.atom h op m d a b) = some f → Runs s (.atom h op m d a b) c → Ordered s → memCauses (f c) = [] →
    let own := (placed (f c)).map fun p => c.atLane op.wide op.isCas d b (p.2.far && p.2.place.key.1 ≠ 1) p
    let sameLine (x y : AtLane) : Bool := x.place.key.1 = y.place.key.1 && x.place.line = y.place.line
    let lanes := own.map fun x => { x with far := own.any fun y => sameLine x y && y.far }
    ∃ t, exec (.atom h op m d a b) s = .next t ∧ QueueEffect d (if op.wide then 2 else 1)
      (if own.isEmpty then [] else [.atomic op lanes])
      (obsWith (placed (f c)) (relOf m)) (obsWith (placed (f c)) (acqOf m)) c t)
  ∧ (∀ (s : State) (h : Hdr) (op : AtomOp) (m : MemX) (a b : Opnd) (f : Ctx → List MAcc) (c : Ctx),
    memAccs? (.red h op m a b) = some f → Runs s (.red h op m a b) c → Ordered s → memCauses (f c) = [] →
    ∃ t, exec (.red h op m a b) s = .next t ∧ QueueEffect .zero 0
      (if (placed (f c)).isEmpty then [] else [.atomic op ((placed (f c)).map (c.atLane op.wide false .zero b true))])
      (relOf m) none c t)
  ∧ (∀ (s : State) (h : Hdr) (wide : Bool) (m : MemX) (d a b : Opnd) (f : Ctx → List MAcc) (c : Ctx),
    memAccs? (.scs h wide m d a b) = some f → Runs s (.scs h wide m d a b) c → Ordered s → memCauses (f c) = [] →
    ∃ t, exec (.scs h wide m d a b) s = .next t ∧ QueueEffect d 1
      (if (placed (f c)).isEmpty then [] else [.scs wide ((placed (f c)).map (c.atLane wide false d b false))])
      (relOf m) none c t)

/-- R269, R306, R307: cwb and cinv queue one entry for each distinct line, and cpf takes no cause and changes no register, queue
or memory, and keeps its issue slot, asking for their lines, while translations of its lanes wait for a token (log 25); a fence queues its release, or puts its acquire among the loads. -/
def Obligations.LineWordsAndFencesQueueTheirWork : Prop :=
  (∀ (s : State) (i : Instr) (h : Hdr) (off : BitVec 12) (a : Opnd) (dc : Bool) (f : Ctx → List MAcc) (c : Ctx),
    (i = .cwb h off a ∨ i = .cinv h dc off a) → memAccs? i = some f → Runs s i c → Ordered s → memCauses (f c) = [] →
    ∃ t, exec i s = .next t
      ∧ (t.squad? c.q).map queued = some (queued c.sq ++ (distinctPlaces (placed (f c))).map fun p =>
          { SqEnt.plain (if i = .cwb h off a then .cwb p else .cinv p dc) with pc := c.sq.pc })
      ∧ SquadFrame noQueue false c t)
  ∧ (∀ (s : State) (h : Hdr) (var : CpfVar) (off : BitVec 12) (a : Opnd) (c : Ctx), Runs s (.cpf h var off a) c → Ordered s →
    let waits := c.act.filterMap fun x => match c.s.translate c.q.stall c.sq.sup (c.memVa x.2 a off 64) .read 1 x.1 with
      | .ok _ => none
      | .error e => if isWait e then some e else none
    (waits ≠ [] → exec (.cpf h var off a) s = .next (c.await waits)) ∧ (waits = [] → ∃ t, exec (.cpf h var off a) s = .next t ∧ SameMemory c.s t
      ∧ (t.squad? c.q).map (fun x => (x.flight, x.sq, x.sca)) = some (c.sq.flight, c.sq.sq, c.sq.sca)
      ∧ ∀ l ln, Tab.find? c.sq.lanes l = some ln → ∃ ln', t.lane? c.q l = some ln' ∧ (ln'.v, ln'.p, ln'.rnd, ln'.rstack)
          = (ln.v, ln.p, ln.rnd, ln.rstack)))
  ∧ (∀ (s : State) (h : Hdr) (obs : BitVec 6) (c : Ctx), c.act ≠ [] → Ordered s →
    (Runs s (.fence h .rel obs) c → ∃ t, exec (.fence h .rel obs) s = .next t
      ∧ (t.squad? c.q).map queued = some (queued c.sq ++ [{ SqEnt.plain (.fence false) with pc := c.sq.pc, rel := some obs }])
      ∧ SquadFrame noQueue true c t)
    ∧ (Runs s (.fence h .ar obs) c → ∃ t, exec (.fence h .ar obs) s = .next t
      ∧ (t.squad? c.q).map queued = some (queued c.sq ++ [{ SqEnt.plain (.fence true) with pc := c.sq.pc, rel := some obs, acq := some obs }])
      ∧ SquadFrame noQueue true c t)
    ∧ (Runs s (.fence h .acq obs) c → ∃ t x, exec (.fence h .acq obs) s = .next t
      ∧ (t.squad? c.q).map (·.flight) = some (c.sq.flight ++ [x]) ∧ x.dst = [] ∧ x.reads = [] ∧ x.acq = true ∧ x.obs = obs
      ∧ x.perf = false ∧ SquadFrame noFlight true c t))

/-! ## Words that act on units -/

/-- R64, R491: a word that acts once for the squad, or for its lanes, has no effect where no lane that is no helper is active. -/
def Obligations.WordsWithoutAnActiveThreadGoOn : Prop :=
  ∀ (s : State) (i : Instr) (h : Hdr) (d a b : Opnd) (r : RI) (imm : BitVec 16) (code : BitVec 12) (act : Fin 6) (k : Bool)
    (c : Ctx),
    i ∈ [.brk h code, .trap h imm, .sret h act, .halt h a, .iflush h k, .coll h a, .launch h a, .tspawn h a, .arm h a,
      .menq h d a, .send h d a b, .tnext h d, .tdone h d r, .qget h d, .mfinMesh h d a, .mfinTask h d a, .cyc h d] →
    Runs s i c → (∀ x ∈ c.act, x.2.helper = true) → exec i s = .next (c.past c.s)

/-- R452: with the system-call ring on, trap parks its squad and posts a record of KIND 0 with CAUSE 0x70, its PC, its immediate and
s0 to s5, and neither halts its block nor touches another squad; with the ring off its launch is aborted (R448, R449). R462: halt of a word
with an unassigned bit set raises 0x02; it has no effect where the position is empty or its block is not running, and else halts that
block with 0x71 and FLANE 0x7F. R464: iflush keeps its issue slot until the squad's stores have left its queue, and then empties the
instruction caches of its core, or of all, and of no other core of its stall. R447: in an entry that a cause of a block without a gang
made, sret 0 and 1 let every squad of the block go on at its EPC in user mode, the primary squad at EPC + 8 for action 1, and the block
runs again with no cause; 2 and 5 start its save, after which it stays stopped or returns to its launch, or abort the launch with AUX
0x78 where its image does not fit; 3 aborts the launch with CAUSE.CODE; 4 leaves the block halted and posts a record of KIND 1. R492: in
an entry that a REPLY to the squad's own call made, sret 0 and 1 let the squad go on at its EPC in user mode with s4 to s7 of the
supervisor's file in s0 to s3. -/
def Obligations.SystemWordsCallHaltFlushAndReturn : Prop :=
  (∀ (s : State) (h : Hdr) (c : Ctx) (l : Nat) (ln : Lane), c.real = some (l, ln) →
    (∀ imm, Runs s (.trap h imm) c →
      (ringOn (c.s.stall c.q.stall).scring = true →
        ∃ t bytes, exec (.trap h imm) s = .next t ∧ SameMemory c.s t
          ∧ (t.squad? c.q).map (·.park) = some (.call none)
          ∧ (∀ n, n ≠ c.q.slot → t.squad? { c.q with slot := n } = c.s.squad? { c.q with slot := n })
          ∧ (t.block? c.q.blk).map (·.halt) = some c.blk.halt
          ∧ (t.stall c.q.stall).heldRecs = (c.s.stall c.q.stall).heldRecs
              ++ [⟨true, bytes, none, some ⟨0, 0, c.blk.launch, c.blk.index, c.q.slot, bytes⟩⟩]
          ∧ sliceNum bytes 0 1 = 0 ∧ sliceNum bytes 1 1 = 0x70 ∧ sliceNum bytes 10 2 = imm.toNat
          ∧ sliceNum bytes 12 8 = c.sq.pc.toNat ∧ (∀ k, k < 6 → sliceNum bytes (20 + 4 * k) 4 = (c.sca k).toNat))
      ∧ (ringOn (c.s.stall c.q.stall).scring = false →
        exec (.trap h imm) s = .next (c.moved (c.s.abortLaunch c.q.stall c.blk.launch 0x0400 0x70))))
    ∧ (∀ a, Runs s (.halt h a) c →
        let v := (c.rd l ln a).toNat
        let b : BSel := ⟨c.q.stall, v % 64, v / 256 % 16⟩
        (v &&& 0xFFFFF0C0 ≠ 0 → exec (.halt h a) s = .next (c.s.takeCauses c.q [(l, 0x02)] c.sq.pc 0))
        ∧ (v &&& 0xFFFFF0C0 = 0 → c.s.block? b = none → exec (.halt h a) s = .next (c.past c.s))
        ∧ (∀ k, v &&& 0xFFFFF0C0 = 0 → c.s.block? b = some k → k.halt.phase ≠ .run → exec (.halt h a) s = .next (c.past c.s))
        ∧ (∀ k, v &&& 0xFFFFF0C0 = 0 → c.s.block? b = some k → k.halt.phase = .run → ∃ t, exec (.halt h a) s = .next t
            ∧ (t.block? b).map (fun x => (x.halt.phase, x.halt.cause, x.halt.flane)) = some (.halting, 0x71, 0x7F)
            ∧ SameMemory c.s t))
    ∧ (∀ all, Runs s (.iflush h all) c →
        (c.sq.sq ≠ [] → exec (.iflush h all) s = .next (c.park (.slot false)))
        ∧ (c.sq.sq = [] → ∃ t, exec (.iflush h all) s = .next t ∧ SameMemory c.s t
          ∧ ∀ k, (t.core c.q.stall k).icache = if all || k = c.q.core then [] else (c.s.core c.q.stall k).icache)))
  ∧ (∀ (s : State) (h : Hdr) (act : Fin 6) (c : Ctx) (k : Block), Runs s (.sret h act) c → Ordered s → c.real ≠ none →
    (c.sq.hr.reply = none → c.s.gangOf c.q.blk = [(c.q.blk, k)] → k.halt.reply = none → k.halt.job = none →
      (∀ x ∈ k.eng.run, x.failed = false) → (∀ x ∈ k.squads, x.2.lanes ≠ [] ∧ x.2.hr.reply = none) →
      (act.val < 2 → ∃ t, exec (.sret h act) s = .next t ∧ SameMemory c.s t
        ∧ (t.block? c.q.blk).map (fun b => (b.halt.phase, b.halt.cause)) = some (.run, 0)
        ∧ ∀ n x, Tab.find? k.squads n = some x →
            let pc := x.hr.epc + (if act.val = 1 ∧ n = k.halt.psq then 8 else 0)
            (n ≠ c.q.slot ∨ ((∃ l ln, Tab.find? x.lanes l = some ln ∧ Tab.get ln.at' x.hr.ats l = .issue)
              ∧ ∀ m ∈ x.hr.loops, m.endPc ≠ pc)) →
            (t.squad? { c.q with slot := n }).map (fun y => (y.pc, y.sup, y.hr.stopped)) = some (pc, false, false))
      ∧ (act.val = 2 ∨ act.val = 5 →
        (c.s.saveFits c.q.blk k = true → ∃ t, exec (.sret h act) s = .next t ∧ SameMemory c.s t
          ∧ (t.block? c.q.blk).map (fun b => (b.halt.phase, b.halt.toSave, b.halt.stay, b.halt.owe))
              = some (.saving, true, decide (act.val = 2), decide (act.val = 2)))
        ∧ (c.s.saveFits c.q.blk k = false →
          exec (.sret h act) s = .next (c.moved (c.s.abortLaunch c.q.stall k.launch 0x0400 0x78))))
      ∧ (act.val = 3 → exec (.sret h act) s = .next (c.moved (c.s.abortLaunch c.q.stall k.launch 0x0400 (c.sq.hr.cause.toNat % 128))))
      ∧ (act.val = 4 → k.halt.phase = .inSup → ∃ t bytes, exec (.sret h act) s = .next t ∧ SameMemory c.s t
        ∧ (t.block? c.q.blk).map (·.halt.phase) = some .halted
        ∧ (t.stall c.q.stall).heldRecs = (c.s.stall c.q.stall).heldRecs
            ++ [⟨true, bytes, none, some ⟨0, 1, k.launch, k.index, k.halt.psq, bytes⟩⟩]
        ∧ sliceNum bytes 0 1 = 1))
    ∧ (∀ rseq, c.sq.hr.reply = some rseq → act.val < 2 →
        (∃ l ln, Tab.find? c.sq.lanes l = some ln ∧ Tab.get ln.at' c.sq.hr.ats l = .issue) →
        (∀ m ∈ c.sq.hr.loops, m.endPc ≠ c.sq.hr.epc) →
        ∃ t, exec (.sret h act) s = .next t ∧ SameMemory c.s t
          ∧ (t.squad? c.q).map (fun y => (y.pc, y.sup, y.park)) = some (c.sq.hr.epc, false, .none)
          ∧ ∀ i, i < 4 → (t.squad? c.q).map (fun y => Tab.get 0 y.sca i) = some (c.sca (4 + i))))

/-- R201, R193, R194, R309: a cpy whose descriptor passes its checks makes its tag busy, queues the copy on its core, and enters its card in
the footprint table of the stall, behind the cards of earlier clocks and those of its clock that go before it, by core and issue slot; the
card reads the source's region and writes the destination's. A busy tag raises 0x44, a bad descriptor 0x43, an extent beyond an allotment
its range cause; with the footprint table or the core's copy unit full it keeps its issue slot. R491, R53: an acting lane that is a helper
queues nothing. R310: while a card that entered earlier stands in the table and writes a byte that the copy's card reads or writes, or reads
one that it writes, the copy neither makes an access nor ends. -/
def Obligations.CopyWordsQueueTheirCopy : Prop :=
  (∀ (s : State) (h : Hdr) (a : Opnd) (c : Ctx) (l : Nat) (ln : Lane), Runs s (.cpy h a) c → c.acting = some (l, ln) →
    let ws := (List.range 8).map fun k => c.rdAt ln a k
    let d := CopyD.ofWords ws
    let se := c.s.copyEnd c.q.blk d.srcKind d.srcPeer
    let de := c.s.copyEnd c.q.blk d.dstKind d.dstPeer
    let bad := d.bad c.blk.gangSize (se = de)
    let range := (c.s.endRange se d.src d.srcExt).or (c.s.endRange de d.dst d.dstExt)
    let room := (c.s.stall c.q.stall).cardRoom && decide ((c.s.core c.q.stall c.q.core).copies.length < 64)
    (ln.helper = true → exec (.cpy h a) s = .next (c.past c.s)) ∧ (ln.helper = false →
    (bad = true → exec (.cpy h a) s = .next (c.s.takeCauses c.q [(l, 0x43)] c.sq.pc 0))
    ∧ (∀ e, bad = false → range = some e → exec (.cpy h a) s = .next (c.s.takeCauses c.q [(l, e)] c.sq.pc 0))
    ∧ (bad = false → range = none → c.blk.tagsBusy.getLsbD d.tag = true →
        exec (.cpy h a) s = .next (c.s.takeCauses c.q [(l, 0x44)] c.sq.pc 0))
    ∧ (bad = false → range = none → c.blk.tagsBusy.getLsbD d.tag = false → room = false →
        exec (.cpy h a) s = .next (c.park (.slot false)))
    ∧ (bad = false → range = none → c.blk.tagsBusy.getLsbD d.tag = false → room = true →
        ∃ t id front back, exec (.cpy h a) s = .next t
          ∧ (t.core c.q.stall c.q.core).copies = (c.s.core c.q.stall c.q.core).copies
              ++ [⟨some c.q.pos, c.q.slot, ws, c.sq.pc, id, id, none, c.sq.sup, 0, d.seed, []⟩]
          ∧ (c.s.stall c.q.stall).cards = front ++ back
          ∧ (let now := (c.s.stall c.q.stall).clock
            let place := c.q.core * 8 + c.q.islot
            (t.stall c.q.stall).cards
                = front ++ ⟨id, now, place, [c.s.endRegion se d.src d.srcExt], [c.s.endRegion de d.dst d.dstExt]⟩ :: back
            ∧ (∀ x ∈ front, x.clock < now ∨ (x.clock = now ∧ x.place ≤ place))
            ∧ ∀ x, back.head? = some x → now < x.clock ∨ (x.clock = now ∧ place < x.place))
          ∧ (t.block? c.q.blk).map (fun b => (b.tagsBusy.getLsbD d.tag, b.tagsDone.getLsbD d.tag)) = some (true, false)
          ∧ SameMemory c.s t)))
  ∧ (∀ (s : State) (st core i : Nat) (j : CopyJob) (front back : List Card) (k x : Card),
    (s.core st core).copies[i]? = some j → (s.stall st).cards = front ++ k :: back → k.id = j.card → (∀ y ∈ front, y.id ≠ j.card) →
    x ∈ front →
    let share (r q : Region) : Prop := r.space = q.space ∧ r.owner = q.owner
      ∧ ∃ a, r.base ≤ a ∧ a < r.base + r.len ∧ q.base ≤ a ∧ a < q.base + q.len
    ((∃ r ∈ x.writes, ∃ q ∈ k.reads ++ k.writes, share r q) ∨ (∃ r ∈ x.reads, ∃ q ∈ k.writes, share r q)) →
    exec (.copyComplete st core i) s = .next s ∧ exec (.copyFault st core i) s = .next s)

/-- R334 to R336, R189: a coll whose card passes its checks takes its tag and the next CSEQ of its group, and joins the stall's
collectives in order; a card that is misaligned raises 0x20, one beyond the pad 0x26, one that lies in a granule in error 0x2B (R189), one
that breaks R339 0x52, and a busy tag 0x44, in this order, in which R434's ranks place the 0x2B (log 60); with the footprint table full it
keeps its issue slot. -/
def Obligations.CollectiveWordsJoinTheirGroup : Prop :=
  ∀ (s : State) (h : Hdr) (a : Opnd) (c : Ctx) (l : Nat) (ln : Lane), Runs s (.coll h a) c → c.real = some (l, ln) →
    let off := (c.rd l ln a).toNat
    let t := c.s.stall c.q.stall
    let bytes := c.blk.pad.rds off 64
    let cd := CollCard.of bytes
    let rb := cd.bytes (cd.reads (t.grpSize cd.group))
    let wb := cd.bytes (cd.writes (t.grpSize cd.group) (t.grpRank cd.group c.q.stall))
    let beyond := c.blk.kern.pad < off + 64 ∨ collBeyond cd.src c.blk.kern.pad rb = true ∨ collBeyond cd.dst c.blk.kern.pad wb = true
    let bad := hitsBad c.blk.padBad off 64
    (off % 64 ≠ 0 → exec (.coll h a) s = .next (c.s.takeCauses c.q [(l, 0x20)] c.sq.pc 0))
    ∧ (off % 64 = 0 → beyond → exec (.coll h a) s = .next (c.s.takeCauses c.q [(l, 0x26)] c.sq.pc 0))
    ∧ (off % 64 = 0 → ¬ beyond → bad = true → exec (.coll h a) s = .next (c.s.takeCauses c.q [(l, 0x2B)] c.sq.pc 0))
    ∧ (off % 64 = 0 → ¬ beyond → bad = false → cd.bad t c.q.stall = true →
        exec (.coll h a) s = .next (c.s.takeCauses c.q [(l, 0x52)] c.sq.pc 0))
    ∧ (off % 64 = 0 → ¬ beyond → bad = false → cd.bad t c.q.stall = false → c.blk.tagsBusy.getLsbD cd.tag = true →
        exec (.coll h a) s = .next (c.s.takeCauses c.q [(l, 0x44)] c.sq.pc 0))
    ∧ (off % 64 = 0 → ¬ beyond → bad = false → cd.bad t c.q.stall = false → c.blk.tagsBusy.getLsbD cd.tag = false →
        t.cardRoom = false → exec (.coll h a) s = .next (c.park (.slot false)))
    ∧ (off % 64 = 0 → ¬ beyond → bad = false → cd.bad t c.q.stall = false →
        c.blk.tagsBusy.getLsbD cd.tag = false → t.cardRoom = true →
        ∃ u id, exec (.coll h a) s = .next u
          ∧ (u.stall c.q.stall).colls = t.colls ++ [⟨cd.group, t.grp cd.group 16 4, c.q.core, c.q.pos, c.q.slot, c.blk.launch,
              c.blk.index, bytes, off, c.sq.pc, id, id, [], none⟩]
          ∧ (u.stall c.q.stall).grp cd.group 16 4 = (t.grp cd.group 16 4 + 1) % 2 ^ 32
          ∧ (u.block? c.q.blk).map (fun b => (b.tagsBusy.getLsbD cd.tag, b.tagsDone.getLsbD cd.tag)) = some (true, false) ∧ SameMemory c.s u)

/-- R365, R370, R368: tspawn and launch read their card as their thread would and make its launch, with the task or the place in
the device queue it takes; they take the causes of their operands, the 0x02 of tspawn before its 0x20 as R434 ranks them (log 60), and of the
read, and keep their issue slot where the pool holds 8 tasks, or the queue 256 launches, or the card or its image waits for a token of a
line, which they ask for (log 25). arm writes its entry of the armed-card table, or
clears its valid bit, and raises 0x02 for an unassigned bit. -/
def Obligations.LaunchWordsMakeTheirLaunch : Prop :=
  (∀ (s : State) (h : Hdr) (a : Opnd) (c : Ctx) (l : Nat) (ln : Lane), Runs s (.launch h a) c → c.real = some (l, ln) →
    let va := pair64 (c.rdAt ln a 0) (c.rdAt ln a 1)
    let done := pair64 (c.rdAt ln a 2) (c.rdAt ln a 3)
    (va.toNat % 64 ≠ 0 → exec (.launch h a) s = .next (c.s.takeCauses c.q [(l, 0x20)] c.sq.pc va))
    ∧ (va.toNat % 64 = 0 → done.toNat % 4 ≠ 0 → exec (.launch h a) s = .next (c.s.takeCauses c.q [(l, 0x20)] c.sq.pc done))
    ∧ (∀ e, va.toNat % 64 = 0 → done.toNat % 4 = 0 → c.cardRead va = .error e →
      exec (.launch h a) s = .next (if isWait e then c.await [e] else c.s.takeCauses c.q [(l, e)] c.sq.pc va))
    ∧ (∀ card, va.toNat % 64 = 0 → done.toNat % 4 = 0 → c.cardRead va = .ok card →
      (256 ≤ (c.s.stall c.q.stall).devq → exec (.launch h a) s = .next (c.park (.slot false)))
      ∧ (∀ e, (c.s.stall c.q.stall).devq < 256 → c.s.cardCode c.q.stall card none = some e →
        exec (.launch h a) s = .next (c.await [e]))
      ∧ ((c.s.stall c.q.stall).devq < 256 → c.s.cardCode c.q.stall card none = none →
        let u := (c.s.readTouch c.q false va 64 64 0).modStall c.q.stall fun t => { t with devq := t.devq + 1 }
        exec (.launch h a) s = .next (c.past (State.makeLaunch { u with nextId := u.nextId + 1 } c.q.stall
          (c.origin (.device done)) card none)))))
  ∧ (∀ (s : State) (h : Hdr) (a : Opnd) (c : Ctx) (l : Nat) (ln : Lane), Runs s (.tspawn h a) c → c.real = some (l, ln) →
    let w (k : Nat) := c.rdAt ln a k
    let va := pair64 (w 0) (w 1)
    let done := pair64 (w 5) (w 6)
    let bad := (w 3).toNat ≤ (w 2).toNat ∨ w 4 = 0 ∨ 2 ^ 20 < (w 4).toNat ∨ w 7 ≠ 0
    (bad → exec (.tspawn h a) s = .next (c.s.takeCauses c.q [(l, 0x02)] c.sq.pc 0))
    ∧ (¬ bad → va.toNat % 64 ≠ 0 → exec (.tspawn h a) s = .next (c.s.takeCauses c.q [(l, 0x20)] c.sq.pc va))
    ∧ (¬ bad → va.toNat % 64 = 0 → done.toNat % 4 ≠ 0 → exec (.tspawn h a) s = .next (c.s.takeCauses c.q [(l, 0x20)] c.sq.pc done))
    ∧ (∀ e, ¬ bad → va.toNat % 64 = 0 → done.toNat % 4 = 0 → c.cardRead va = .error e →
      exec (.tspawn h a) s = .next (if isWait e then c.await [e] else c.s.takeCauses c.q [(l, e)] c.sq.pc va))
    ∧ (∀ card, ¬ bad → va.toNat % 64 = 0 → done.toNat % 4 = 0 → c.cardRead va = .ok card →
      (8 ≤ ((c.s.stall c.q.stall).pool (c.q.core / 9)).length → exec (.tspawn h a) s = .next (c.park (.slot false)))
      ∧ (∀ e, ((c.s.stall c.q.stall).pool (c.q.core / 9)).length < 8 → c.s.cardCode c.q.stall card none = some e →
        exec (.tspawn h a) s = .next (c.await [e]))
      ∧ (((c.s.stall c.q.stall).pool (c.q.core / 9)).length < 8 → c.s.cardCode c.q.stall card none = none →
        let t : Task := ⟨c.s.nextId, c.q.core / 9, (w 2).toNat, (w 3).toNat, (w 4).toNat, done, 0,
          [((w 2).toNat, (w 3).toNat)], [], c.s.nextId, false⟩
        let u := (c.s.readTouch c.q false va 64 64 0).modStall c.q.stall fun x => { x with tasks := x.tasks ++ [t] }
        exec (.tspawn h a) s = .next (c.past (State.makeLaunch { u with nextId := u.nextId + 1 } c.q.stall
          (c.origin (.task c.s.nextId)) card none)))))
  ∧ (∀ (s : State) (h : Hdr) (a : Opnd) (c : Ctx) (l : Nat) (ln : Lane), Runs s (.arm h a) c → c.real = some (l, ln) →
    let bad := (c.rdAt ln a 2) &&& 0x7FFF0000 ≠ 0 ∨ c.rdAt ln a 3 ≠ 0
    let e := 16 * ((c.rdAt ln a 2).toNat % 256)
    (bad → exec (.arm h a) s = .next (c.s.takeCauses c.q [(l, 0x02)] c.sq.pc 0))
    ∧ (¬ bad → ∃ t, exec (.arm h a) s = .next t ∧ SameMemory c.s t
      ∧ ((c.rdAt ln a 2).getLsbD 31 = true → (t.stall c.q.stall).armt.rd (e + 10) = 0)
      ∧ ((c.rdAt ln a 2).getLsbD 31 = false → (t.stall c.q.stall).armt.num e 8 = (pair64 (c.rdAt ln a 0) (c.rdAt ln a 1)).toNat
          ∧ (t.stall c.q.stall).armt.num (e + 8) 1 = (c.rdAt ln a 2).toNat / 256 % 256
          ∧ (t.stall c.q.stall).armt.rd (e + 10) = 1)))

/-- R360: tnext hands its slot a chunk of at most GRAIN indices: of the range it holds; else of the unheld range with the lowest start; else
of the upper half of the held range with the most grains, ties to the lowest block index and slot, whose holder keeps the lower half;
else it answers (0, 0). R366: tdone adds its count once the squad's accesses are performed, and answers 1 to the caller that first reaches
the size of the range, with DONE written, and 0 to every other. The model's choices: the answer is fixed at issue, and tdone keeps its issue
slot until then, or waits for the answer of a qget before it, which leaves the slot to others (R364, log 40); while DONE cannot be translated
for want of a line it asks for the line and keeps its slot (log 25); and where the task has gone they answer (0, 0) and 0 (log 61). -/
def Obligations.TaskWordsHandOutAndCount : Prop :=
  (∀ (s : State) (h : Hdr) (d : Opnd) (c : Ctx) (id : Nat), Runs s (.tnext h d) c → c.real ≠ none → c.blk.kind = .task id →
    let mine (y : Hold) : Bool := y.index = c.blk.index && y.slot = c.q.slot
    let gives (lo n : Nat) (t : Task) : Prop := exec (.tnext h d) s = .next (c.past (c.writeAll
      (c.s.modStall c.q.stall fun x => { x with tasks := x.tasks.map fun y => if y.id = id then t else y }) d
      [BitVec.ofNat 32 lo, BitVec.ofNat 32 n]))
    ((c.s.stall c.q.stall).tasks.find? (fun x => x.id = id) = none →
      exec (.tnext h d) s = .next (c.past (c.writeAll c.s d [0, 0])))
    ∧ ∀ t, (c.s.stall c.q.stall).tasks.find? (fun x => x.id = id) = some t →
      let grains (y : Hold) : Nat := (y.hi - y.lo + t.grain - 1) / t.grain
      let after (held : List Hold) (lo hi : Nat) : List Hold :=
        held.filter (fun y => !mine y) ++ [⟨c.blk.index, c.q.slot, lo + min t.grain (hi - lo), hi⟩]
      (∀ y, t.held.find? mine = some y → y.lo < y.hi →
        gives y.lo (min t.grain (y.hi - y.lo)) { t with held := after t.held y.lo y.hi })
      ∧ ((∀ y, t.held.find? mine = some y → y.hi ≤ y.lo) →
        (∀ lo hi, (lo, hi) ∈ t.unheld → (∀ y ∈ t.unheld, y = (lo, hi) ∨ lo < y.1) →
          gives lo (min t.grain (hi - lo)) { t with unheld := t.unheld.erase (lo, hi), held := after t.held lo hi })
        ∧ (t.unheld = [] → (∀ y ∈ t.held, y.index < 2 ^ 32 ∧ y.slot < 64 ∧ grains y ≤ 2 ^ 33) →
          (∀ v, v ∈ t.held → 2 ≤ grains v →
            (∀ y ∈ t.held, y = v ∨ grains y < grains v ∨ (grains y = grains v ∧ (v.index < y.index ∨ (v.index = y.index ∧ v.slot < y.slot)))) →
            let m := v.lo + (grains v + 1) / 2 * t.grain
            let kept := t.held.filter (fun y => !(y.index = v.index && y.slot = v.slot)) ++ [⟨v.index, v.slot, v.lo, m⟩]
            gives m (min t.grain (v.hi - m)) { t with held := after kept m v.hi })
          ∧ ((∀ y ∈ t.held, grains y < 2) → gives 0 0 t))))
  ∧ (∀ (s : State) (h : Hdr) (d : Opnd) (b : RI) (c : Ctx) (l : Nat) (ln : Lane) (id : Nat), Runs s (.tdone h d b) c →
    c.real = some (l, ln) → c.blk.kind = .task id →
    (c.s.squadQuiet c.q = false → exec (.tdone h d b) s = .next (c.park (if c.sq.asks = [] then .slot false else .answer)))
    ∧ (c.s.squadQuiet c.q = true → (c.s.stall c.q.stall).tasks.find? (fun x => x.id = id) = none →
      exec (.tdone h d b) s = .next (c.past (c.writeAll c.s d [0])))
    ∧ ∀ t, c.s.squadQuiet c.q = true → (c.s.stall c.q.stall).tasks.find? (fun x => x.id = id) = some t →
      let n := t.count + (c.rdN l ln b).toNat
      let first := t.finished = false ∧ t.hi - t.lo ≤ n
      let counted (done : Bool) : State := c.s.modStall c.q.stall fun x => { x with tasks := x.tasks.map fun y =>
        if y.id = id then { y with count := n, finished := y.finished || done } else y }
      (∀ e, first → c.s.wordCode c.q.stall t.done = some e → exec (.tdone h d b) s = .next (c.await [e]))
      ∧ (first → c.s.wordCode c.q.stall t.done = none → exec (.tdone h d b) s = .next (c.past (c.writeAll
          ((counted true).writeDone c.q.stall t.done (c.origin (.task id)).eseq 1) d [1])))
      ∧ (¬ first → exec (.tdone h d b) s = .next (c.past (c.writeAll (counted false) d [0]))))

/-- R367, R364, R300: qput answers 0 where its pipeline is drained or the stage queue holds 256 items, and else appends or hands over its
four words and answers 1; as a release it comes once the squad's reads are performed and its stores have left its queue, and keeps its issue
slot till then, or leaves it to others behind a qget that waits (log 40); a stage beyond the header's raises 0x02; qget takes the oldest item
of its block's stage, answers CLOSED where the pipeline is drained, and else waits with its registers outstanding. -/
def Obligations.QueueWordsPutAndGetItems : Prop :=
  (∀ (s : State) (h : Hdr) (d a : Opnd) (stage : BitVec 3) (c : Ctx) (l : Nat) (ln : Lane) (p : Pipe), Runs s (.qput h d a stage) c →
    c.real = some (l, ln) → c.pipe = some p → c.blk.kern.stages ≠ 0 →
    let quiet := c.sq.sq = [] ∧ (∀ x ∈ c.sq.flight, x.perf = true) ∧ c.sq.asks = []
    (c.blk.kern.stages ≤ stage.toNat →
        exec (.qput h d a stage) s = .next (c.s.takeCauses c.q (c.present.map fun x => (x.1, 0x02)) c.sq.pc 0))
    ∧ (stage.toNat < c.blk.kern.stages → ¬ quiet →
        exec (.qput h d a stage) s = .next (c.park (if c.sq.asks = [] then .slot false else .answer)))
    ∧ (stage.toNat < c.blk.kern.stages → quiet → p.drained = true ∨ 256 ≤ (p.queues.getD stage.toNat []).length →
        exec (.qput h d a stage) s = .next (c.past (c.writeAll c.s d [0])))
    ∧ (stage.toNat < c.blk.kern.stages → quiet → p.drained = false → (p.queues.getD stage.toNat []).length < 256 →
        exec (.qput h d a stage) s = .next (c.past (c.writeAll (c.s.putItem c.q.stall c.blk.launch stage.toNat
          [c.rdAt ln a 0, c.rdAt ln a 1, c.rdAt ln a 2, c.rdAt ln a 3]) d [1]))))
  ∧ (∀ (s : State) (h : Hdr) (k : Fin 48) (c : Ctx) (p : Pipe), Runs s (.qget h (.sca k)) c → c.real ≠ none → c.pipe = some p →
    c.sq.sup = false → k.val % 8 = 0 → (∀ x, x ∈ (c.s.stall c.q.stall).pipes → x.launch = p.launch → x = p) →
    ∃ t, exec (.qget h (.sca k)) s = .next t ∧ SameMemory c.s t
      ∧ (p.drained = true → (t.squad? c.q).map (fun x => Tab.get 0 x.sca (k.val + 4)) = some 0x80000000)
      ∧ (p.drained = false → ∀ item rest, p.queues.getD (p.stageNow c.blk.index) [] = item :: rest → item.length = 4 →
          (t.squad? c.q).map (fun x => (List.range 5).map fun i => Tab.get 0 x.sca (k.val + i))
            = some (item ++ [BitVec.ofNat 32 (p.stageNow c.blk.index)]))
      ∧ (p.drained = false → p.queues.getD (p.stageNow c.blk.index) [] = [] →
          ∃ x, (t.squad? c.q).map (·.asks) = some (c.sq.asks ++ [x]) ∧ x.reg = k.val ∧ x.stage = p.stageNow c.blk.index))

/-- R214 to R218, R247: a menq whose record passes its checks and finds room writes the 16 bytes of the record at its slot of the
queue in pad, little-endian, advances the tail and answers the command's number; a full queue raises 0x40 (R247), and one that is absent
(R213); a record that fails a check raises that check's cause, MGANG outside a gang 0x42 (R239), and MTAG of a busy tag 0x44. While an
earlier word of the clock moves the queue (R216) it keeps its issue slot (log 56). -/
def Obligations.MatrixEnqueueAppendsItsRecord : Prop :=
  ∀ (s : State) (h : Hdr) (d a : Opnd) (c : Ctx) (l : Nat) (ln : Lane), Runs s (.menq h d a) c → c.real = some (l, ln) →
    let r : BitVec 128 := BitVec.ofNat 128 (leNat ((List.range 4).flatMap fun k => leBytes 4 (c.rdAt ln a k).toNat))
    (c.blk.kern.mqEnt = 0 → exec (.menq h d a) s = .next (c.s.takeCauses c.q [(l, 0x40)] c.sq.pc 0))
    ∧ (∀ e, c.blk.kern.mqEnt ≠ 0 → c.blk.mCheck r = some e → exec (.menq h d a) s = .next (c.s.takeCauses c.q [(l, e)] c.sq.pc 0))
    ∧ (c.blk.kern.mqEnt ≠ 0 → c.blk.mCheck r = none → c.blk.mqbMoves = true → exec (.menq h d a) s = .next (c.park (.slot false)))
    ∧ (c.blk.kern.mqEnt ≠ 0 → c.blk.mCheck r = none → c.blk.mqbMoves = false → mCmd r = 7 → c.blk.gang < 2 →
        exec (.menq h d a) s = .next (c.s.takeCauses c.q [(l, 0x42)] c.sq.pc 0))
    ∧ (c.blk.kern.mqEnt ≠ 0 → c.blk.mCheck r = none → c.blk.mqbMoves = false → mCmd r = 6 → c.blk.tagsBusy.getLsbD (mf r 21 16) = true →
        exec (.menq h d a) s = .next (c.s.takeCauses c.q [(l, 0x44)] c.sq.pc 0))
    ∧ (c.blk.kern.mqEnt ≠ 0 → c.blk.mCheck r = none → c.blk.mqbMoves = false → (mCmd r = 7 → 2 ≤ c.blk.gang) →
        (mCmd r = 6 → c.blk.tagsBusy.getLsbD (mf r 21 16) = false) → c.blk.eng.full = true →
        exec (.menq h d a) s = .next (c.s.takeCauses c.q [(l, 0x40)] c.sq.pc 0))
    ∧ (c.blk.kern.mqEnt ≠ 0 → c.blk.mCheck r = none → c.blk.mqbMoves = false → (mCmd r = 7 → 2 ≤ c.blk.gang) →
        (mCmd r = 6 → c.blk.tagsBusy.getLsbD (mf r 21 16) = false) → c.blk.eng.full = false →
        let s' := c.s.modBlock c.q.blk fun b =>
          let x := b.writePad (b.eng.slot (mqIdx b.eng.mqt)) (leBytes 16 r.toNat)
          let y := if mCmd r = 6 then x.tagTake (mf r 21 16) else x
          { y with eng := { y.eng with mqt := y.eng.after y.eng.mqt, queued := y.eng.queued ++ [(c.q.slot, c.s.nextId)] } }
        exec (.menq h d a) s = .next (c.past (c.writeAll { s' with nextId := s'.nextId + 1 } d [c.blk.eng.mqt])))

/-- R329 to R332: a send whose descriptor passes takes a return credit and the next sequence number of its destination, and puts
its message on the mesh; without a credit it keeps its issue slot while messages are in flight or other sends hold a credit, and else
raises 0x50; with REL it keeps its issue slot and its credit until the squad's accesses are performed, or waits for the answer of a qget
before it, which leaves the slot to others (R364, log 40). mbadv advances HEAD by at most the entries that wait. The destination receives
the sequence number of the message, or the count consumed: in every active lane, or once in a scalar register, or nowhere where it is zero. -/
def Obligations.MessageWordsSendAndAdvance : Prop :=
  (∀ (s : State) (h : Hdr) (d a b : Opnd) (c : Ctx) (l : Nat) (ln : Lane), Runs s (.send h d a b) c → c.real = some (l, ln) →
    let x := c.rd64 ln a
    let held := (c.blk.squads.filter fun y => y.1 ≠ c.q.slot && y.2.park = .slot true).length
    let credit := (s.squad? s.cur).map (·.park) = some (.slot true) ∨ (held : Int) < c.blk.credits
    Ordered s →
    (∀ e, c.sendCause x = some e → exec (.send h d a b) s = .next (c.s.takeCauses c.q [(l, e)] c.sq.pc 0))
    ∧ (c.sendCause x = none → ¬ credit → c.blk.inflight ≠ 0 ∨ held ≠ 0 →
        exec (.send h d a b) s = .next (c.park (.slot false)))
    ∧ (c.sendCause x = none → ¬ credit → c.blk.inflight = 0 → held = 0 →
        exec (.send h d a b) s = .next (c.s.takeCauses c.q [(l, 0x50)] c.sq.pc 0))
    ∧ (c.sendCause x = none → credit → x.getLsbD 31 = true → c.s.squadQuiet c.q = false →
        exec (.send h d a b) s = .next (c.park (if c.sq.asks = [] then .slot true else .answer)))
    ∧ (c.sendCause x = none → credit → (x.getLsbD 31 = true → c.s.squadQuiet c.q = true) →
        let m := c.message x ((c.rd l ln b).zeroExtend 64) 0
        let seq := Tab.get 0 (c.s.stall c.q.stall).sendSeq m.dstKey
        ∃ t, exec (.send h d a b) s = .next t ∧ SameMemory c.s t ∧ DestEffect d [BitVec.ofNat 32 seq] c t
          ∧ t.net = c.s.net ++ [.send { m with seq := seq }]
          ∧ (t.stall c.q.stall).sendSeq = Tab.set 0 (c.s.stall c.q.stall).sendSeq m.dstKey ((seq + 1) % 65536)
          ∧ (t.block? c.q.blk).map (·.inflight) = some (c.blk.inflight + 1)))
  ∧ (∀ (s : State) (h : Hdr) (mb : BitVec 4) (d : Opnd) (b : RI) (c : Ctx) (l : Nat) (ln : Lane) (dcl : MboxDecl),
    Runs s (.mbadv h mb d b) c → c.act.head? = some (l, ln) → c.blk.kern.box mb.toNat = some dcl →
    Ordered s →
    let k := min (c.rdN l ln b).toNat (c.blk.tail mb.toNat - c.blk.mboxHead dcl).toNat
    let t := c.past (c.writeAll (c.s.modBlock c.q.blk fun x =>
      x.writePad dcl.base (leBytes 4 ((c.blk.mboxHead dcl).toNat + k))) d [BitVec.ofNat 32 k])
    exec (.mbadv h mb d b) s = .next t ∧ DestEffect d [BitVec.ofNat 32 k] c t)

/-! ## Rays, mesh blocks and pixels -/

/-- R426, R421: rtri.w whose lanes pass their checks puts the tests' results in flight, and queues one merge for each lane that hit and is no
helper. R422, R430, R431: kpush and kpop act on the entries that each active lane holds; with eight held, kpush writes the oldest
behind those of the thread's area in pad, and with none kpop takes the newest of the area, or 0 where it is empty; 0x26 where
the area has no room for it. -/
def Obligations.RayMergesAreQueuedAndTheStackPushesAndPops : Prop :=
  (∀ (s : State) (h : Hdr) (d a b sl : Opnd) (c : Ctx), Runs s (.rtriW h d a b sl) c → Ordered s → c.readsDone = true →
      (∀ l ln, (l, ln) ∈ c.act → ∃ r, c.testMerge l ln a b sl = .ok r) →
      let ms := c.act.filterMap fun x => c.mergeLane x.1 x.2 a b sl
      ∃ t, exec (.rtriW h d a b sl) s = .next t
        ∧ (t.squad? c.q).map queued = some (queued c.sq ++ if ms = [] then [] else [{ SqEnt.plain (.merge ms) with pc := c.sq.pc }])
        ∧ (d = .zero → (t.squad? c.q).map (·.flight) = some c.sq.flight)
        ∧ (∀ k, d = .vec k → ∃ f, (t.squad? c.q).map (·.flight) = some (c.sq.flight ++ [f]) ∧ f.dst = destRegs d 4
            ∧ ∀ l ln r j, (l, ln) ∈ c.act → c.testMerge l ln a b sl = .ok r → j < 4 → (l, k.val + j, r.2.getD j 0) ∈ f.vals)
        ∧ SquadFrame noPending false c t)
  ∧ ((∀ (s : State) (h : Hdr) (a : Opnd) (c : Ctx), Runs s (.kpush h a) c → Ordered s → (∀ l ln, (l, ln) ∈ c.act → ln.rstack.length < 8) →
      ∃ t, exec (.kpush h a) s = .next t ∧ SameMemory c.s t
        ∧ ∀ l ln, (l, ln) ∈ c.act → t.body? c.q l = some (Lane.body { ln with rstack := c.rd64 ln a :: ln.rstack }))
    ∧ (∀ (s : State) (h : Hdr) (d : Opnd) (c : Ctx), Runs s (.kpop h d) c → Ordered s → (∀ l ln, (l, ln) ∈ c.act → ln.rstack ≠ []) →
      ∃ t, exec (.kpop h d) s = .next t ∧ SameMemory c.s t
        ∧ ∀ l ln e r, (l, ln) ∈ c.act → ln.rstack = e :: r →
            t.body? c.q l = some (Lane.write { ln with rstack := r } d [lo32 e, hi32 e]).body)
    ∧ (∀ (s : State) (h : Hdr) (a : Opnd) (c : Ctx) (l : Nat) (ln : Lane), Runs s (.kpush h a) c → Ordered s → c.act = [(l, ln)] →
      ln.helper = false → ln.rstack.length = 8 →
      let area := stackArea c.blk.ksp ln.tid
      let n := c.blk.pad.num area 4
      let room := n + 2 ≤ field (c.blk.ksp.zeroExtend 64) 31 24 ∧ area + 8 * (n + 2) ≤ c.blk.kern.pad
      (¬ room → exec (.kpush h a) s = .next (c.s.takeCauses c.q [(l, 0x26)] c.sq.pc 0))
      ∧ (room → ∃ t, exec (.kpush h a) s = .next t ∧ SameMemory c.s t
          ∧ t.body? c.q l = some (Lane.body { ln with rstack := c.rd64 ln a :: ln.rstack.dropLast })
          ∧ (t.block? c.q.blk).map (fun b => (b.pad.num area 4, b.pad.num (area + 8 * (n + 1)) 8))
              = some (n + 1, (ln.rstack.getLastD 0).toNat)))
    ∧ (∀ (s : State) (h : Hdr) (d : Opnd) (c : Ctx) (l : Nat) (ln : Lane), Runs s (.kpop h d) c → Ordered s → c.act = [(l, ln)] →
      ln.helper = false → ln.rstack = [] →
      let area := stackArea c.blk.ksp ln.tid
      let n := c.blk.pad.num area 4
      let lost := (c.blk.pad.rd (area + 7)).getLsbD 7
      (lost = true ∨ c.blk.kern.pad < area + 8 → exec (.kpop h d) s = .next (c.s.takeCauses c.q [(l, 0x26)] c.sq.pc 0))
      ∧ (lost = false → area + 8 ≤ c.blk.kern.pad → n = 0 → ∃ t, exec (.kpop h d) s = .next t
          ∧ t.body? c.q l = some (ln.write d [0, 0]).body)
      ∧ (lost = false → n ≠ 0 → area + 8 * n + 8 ≤ c.blk.kern.pad → ∃ t, exec (.kpop h d) s = .next t
          ∧ t.body? c.q l = some (ln.write d (wordsOf true (BitVec.ofNat 64 (c.blk.pad.num (area + 8 * n) 8)))).body
          ∧ (t.block? c.q.blk).map (fun b => b.pad.num area 4) = some (n - 1))))

/-- R416, R417, R419, R429: bmsplit of beams of one ray writes the ray form and 0x4000_0000 in each lane; a beam of several rays at depth
6 raises 0x62; and one inside a loop body, where nothing spawns (R417), pushes every child so that the lowest pops first, with the
masks and the number of its children in d. Inside a loop body is read as: an issuing lane has entered an active loop (log 37). -/
def Obligations.BeamSplitsPushOrWriteTheirRays : Prop :=
  (∀ (s : State) (h : Hdr) (d a b : Opnd) (c : Ctx) (x : Nat → Beam), Runs s (.bmsplit h d a b) c → Ordered s →
    (∀ l ln, (l, ln) ∈ c.act → ln.helper = false ∧ c.beam ln a = .ok (x l) ∧ (x l).x0 = (x l).x1 ∧ (x l).y0 = (x l).y1) →
    ∃ t, exec (.bmsplit h d a b) s = .next t ∧ SameMemory c.s t ∧ ∀ l ln, (l, ln) ∈ c.act →
      t.body? c.q l = some ((ln.write a ((x l).rayForm (x l).x0 (x l).y0)).write d [0x40000000]).body)
  ∧ (∀ (s : State) (h : Hdr) (d a b : Opnd) (c : Ctx) (l : Nat) (ln : Lane) (x : Beam), Runs s (.bmsplit h d a b) c → Ordered s →
    c.act = [(l, ln)] → ln.helper = false → c.beam ln a = .ok x → (x.x0 ≠ x.x1 ∨ x.y0 ≠ x.y1) →
    (x.depth = 6 → exec (.bmsplit h d a b) s = .next (c.s.takeCauses c.q [(l, 0x62)] c.sq.pc 0))
    ∧ (x.depth ≠ 6 → c.sq.inBody = true → ln.rstack.length + x.children.length ≤ 8 →
      let root := if x.depth = 0 then ln.tid else x.root
      let mask := (x.children.map fun y => 2 ^ y.k).foldl (· + ·) 0
      ∃ t, exec (.bmsplit h d a b) s = .next t ∧ SameMemory c.s t
        ∧ t.body? c.q l = some (Lane.write { ln with rstack := x.children.map (fun y => pair64 (c.rd l ln b) (x.ctl root y)) ++ ln.rstack }
            d [BitVec.ofNat 32 (16 * mask + 256 * x.children.length)]).body))

/-- R381, R382, R392, R53: mout appends each lane's triangle in ascending lane order and counts what it drops; mfin.mesh counts the vertices
it takes, drops and counts triangles that name others, sends the rest on and answers the two counts, the one clamped to 511
as R382 says and the dropped ones too (log 62); mfin.task declares its
children; after an mfin, both answer bit 31 alone and mout does nothing. pxo records the output of each active lane that is no
helper, in place of an earlier one to the same target; an output to an unused target, and a depth output under EARLY, is discarded. -/
def Obligations.MeshAndPixelWordsCollectTheirOutputs : Prop :=
  ((∀ (s : State) (h : Hdr) (a : Opnd) (c : Ctx), Runs s (.mout h a) c →
      let add (o : MeshOut) (x : Nat × Lane) : MeshOut :=
        let v := (c.rd x.1 x.2 a).toNat
        if 2 ^ 24 ≤ v ∨ 256 ≤ o.tris.length then { o with dropped := o.dropped + 1 }
        else { o with tris := o.tris ++ [(v % 256, v / 256 % 256, v / 65536 % 256)] }
      (c.blk.mesh.fin = true → exec (.mout h a) s = .next (c.past c.s))
      ∧ (c.blk.mesh.fin = false → exec (.mout h a) s = .next (c.past (c.s.modBlock c.q.blk fun b =>
          { b with mesh := (c.act.filter fun x => !x.2.helper).foldl add b.mesh }))))
    ∧ (∀ (s : State) (h : Hdr) (d a : Opnd) (c : Ctx) (l : Nat) (ln : Lane) (m tok : Nat), Runs s (.mfinMesh h d a) c →
      c.real = some (l, ln) → c.blk.kind = .rmesh m tok →
      let nv := min (c.rd l ln a).toNat 256
      let n := nv * (16 + 4 * c.s.passAttr m)
      (c.blk.mesh.fin = true → exec (.mfinMesh h d a) s = .next (c.past (c.writeAll c.s d [0x80000000])))
      ∧ (c.blk.mesh.fin = false → c.blk.kern.pad < 64 + n →
          exec (.mfinMesh h d a) s = .next (c.s.takeCauses c.q [(l, 0x26)] c.sq.pc 0))
      ∧ (c.blk.mesh.fin = false → 64 + n ≤ c.blk.kern.pad → hitsBad c.blk.padBad 64 n = false →
          let k := (c.blk.mesh.tris.filter fun x => decide (x.1 < nv ∧ x.2.1 < nv ∧ x.2.2 < nv)).length
          exec (.mfinMesh h d a) s = .next (c.past (c.writeAll
            ((c.s.modBlock c.q.blk fun b => { b with mesh := { b.mesh with fin := true, count := k } }).sendMesh c.q.stall c.blk m tok nv)
            d [BitVec.ofNat 32 (min 511 (c.blk.mesh.dropped + (c.blk.mesh.tris.length - k)) * 512 + min 511 k)]))))
    ∧ (∀ (s : State) (h : Hdr) (d a : Opnd) (c : Ctx) (l : Nat) (ln : Lane) (m draw : Nat), Runs s (.mfinTask h d a) c →
      c.real = some (l, ln) → c.blk.kind = .rtask m draw →
      let n := min (c.rd l ln a).toNat 1024
      (c.blk.mesh.fin = true → exec (.mfinTask h d a) s = .next (c.past (c.writeAll c.s d [0x80000000])))
      ∧ (c.blk.mesh.fin = false → exec (.mfinTask h d a) s = .next (c.past (c.writeAll
          ((c.s.modBlock c.q.blk fun b => { b with mesh := { b.mesh with fin := true, count := n } }).modPass m fun p =>
            { p with draws := updAt p.draws draw fun x => { x with tasks := x.tasks.put c.blk.index n } })
          d [BitVec.ofNat 32 (min 511 n)])))))
  ∧ (∀ (s : State) (h : Hdr) (n : Fin 5) (a : Opnd) (c : Ctx) (m : Nat) (p : Pass), Runs s (.pxo h n a) c → Ordered s →
      c.blk.kind = .rpixel m → c.s.pass? m = some p →
      ∃ t, exec (.pxo h n a) s = .next t ∧ SameMemory c.s t
        ∧ (pxoDiscards p.desc n.val = true → t = c.past c.s)
        ∧ (pxoDiscards p.desc n.val = false → ∀ l ln, (l, ln) ∈ c.act → ln.helper = false →
            t.body? c.q l = some { ln with
              pxo := (ln.pxo.filter fun y => y.n ≠ n.val) ++ [⟨n.val, (List.range (if n.val = 4 then 1 else 4)).map fun i => c.rdAt ln a i⟩],
              at' := .issue }))

/-! ## Events of squads -/

/-- R77, R206, R207, R459: a result in flight whose values are fixed is written to its registers and its flags set, and one that names no
register is over; a parked
wait of a running block returns the hit bits, with bit 3 after a stop and bit 2 at its deadline; a stepped squad of a block that runs or comes
to a halt takes 0x72 at the PC it goes on at, which is no word of the skid. The lanes of that cause are the model's choice (log 22): those
that would issue next, or all where none would. -/
def Obligations.ResultsWaitsAndStepsReturn : Prop :=
  (∀ (s : State) (q : Sel) (i : Nat) (b : Block) (sq : Squad) (f : Flight), s.block? q.blk = some b → s.squad? q = some sq →
    (∀ x ∈ sq.flight, x.perf = true) → sq.flight[i]? = some f → (∀ g ∈ sq.flight, g.id = f.id → g = f) → f.ret = false → sq.lanes ≠ [] →
    ∃ t, exec (.resultReturn q i) s = .next t ∧ SameMemory s t
      ∧ (t.squad? q).map (·.flight) = some (if f.dst = [] then sq.flight.filter fun g => g.id ≠ f.id
          else sq.flight.map fun g => if g.id = f.id then { g with ret := true } else g)
      ∧ (t.block? q.blk).map (·.fpc) = some (if f.fl = Fl.none then b.fpc else b.fpc.set (s.stall q.stall).clock (flBits f.fl))
      ∧ ∀ l k v ln, (l, k, v) ∈ f.vals → (∀ y ∈ f.vals, y.1 = l → y.2.1 = k → y.2.2 = v) → l ≠ 64 →
          Tab.find? sq.lanes l = some ln → (t.lane? q l).map (fun x => Tab.get 0 x.v k) = some v)
  ∧ (∀ (s : State) (q : Sel) (b : Block) (sq : Squad) (h : Hdr) (d : Opnd) (dl : Option Nat) (stop : Bool) (i : Instr),
    q.pos < 16 → s.block? q.blk = some b → s.squad? q = some sq → Rising sq.lanes → b.halt.phase = .run → sq.park = .wait h d dl stop →
    sq.loops = [] → (∀ y ∈ sq.lanes, y.2.at' = .issue) →
    let late := i = .waitTimeout q ∧ ∃ n, dl = some n ∧ n ≤ (s.stall q.stall).clock
    let bits : Nat := sq.hits + if stop then 8 else 0
    (i = .waitReturn q ∨ i = .waitTimeout q) →
    (bits = 0 ∧ ¬ late → exec i s = .next s)
    ∧ (∀ r, (¬ late ∧ r = bits) ∨ (late ∧ r = bits + 4) → r ≠ 0 →
        ∃ t, exec i s = .next t ∧ SameMemory s t
          ∧ (t.squad? q).map (fun x => (x.pc, x.park, x.hits)) = some (sq.pc + 8, .none, 0)
          ∧ ∀ k l ln, d = .vec k → Tab.find? sq.lanes l = some ln →
              t.body? q l = some (if ln.spec ⟨h.neg, h.pn⟩ then (ln.write d [BitVec.ofNat 32 r]).body else ln.body)))
  ∧ (∀ (s : State) (q : Sel) (b : Block) (sq : Squad), s.block? q.blk = some b → s.squad? q = some sq →
    let due := sq.stepped = true ∧ sq.lanes ≠ [] ∧ (b.halt.phase = .run ∨ b.halt.phase = .halting)
    (¬ due → exec (.singleStep q) s = .next s)
    ∧ (due → exec (.singleStep q) s = .next
        ((s.modSquad q fun x => { x with stepped := false }).takeCausesAt q
          ((if sq.issuing.isEmpty then sq.lanes else sq.issuing).map fun l => (l.1, 0x72)) sq.pc 0 false)))

/-- R175, R172, R58, R164, R167 to R169: at a loop body's end the counter falls and the body starts again, or the loop ends; a group
held for BAGE issues at a taken branch and the issuing group is held; and neither happens in a squad that may not go on, in a block that is
halted or stopped (R435). Forced filing files a squad's lanes; a spilled record whose bytes can be read returns with what they hold, and else
asks for their lines (log 58); a draw starts a squad from the first W records of its bin, and the squad is ready once its reload is done. -/
def Obligations.LoopsFilingsAndDrawsMoveThreads : Prop :=
  (∀ (s : State) (q : Sel) (b : Block) (sq : Squad), s.block? q.blk = some b → s.squad? q = some sq → b.letsGo sq = false →
    exec (.loopEndTest q) s = .next s ∧ exec (.heldGroupAge q) s = .next s)
  ∧ (∀ (s : State) (q : Sel) (b : Block) (sq : Squad) (l : Loop) (rest : List Loop), s.block? q.blk = some b → s.squad? q = some sq →
    b.letsGo sq = true → sq.loops = l :: rest → sq.lanes ≠ [] → (∀ y ∈ sq.lanes, y.2.at' = .atEnd l.ctr) →
    ∃ t, exec (.loopEndTest q) s = .next t ∧ SameMemory s t
      ∧ (1 < (Tab.get 0 sq.lc l.ctr).toNat →
          (t.squad? q).map (fun x => (x.pc, x.loops, Tab.get 0 x.lc l.ctr, x.lanes.all fun y => y.2.at' = .issue))
            = some (l.first, sq.loops, Tab.get 0 sq.lc l.ctr - 1, true))
      ∧ ((Tab.get 0 sq.lc l.ctr).toNat ≤ 1 → rest = [] →
          (t.squad? q).map (fun x => (x.pc, x.loops, Tab.get 0 x.lc l.ctr, x.lanes.all fun y => y.2.at' = .issue))
            = some (l.first + BitVec.ofNat 64 (8 * l.len), [], 0, true)))
  ∧ (∀ (s : State) (q : Sel) (b : Block) (sq : Squad) (live : Nat) (h : Held), s.block? q.blk = some b → s.squad? q = some sq →
    sq.point = some (live, true) → sq.agedHeld b.kern.bage (s.stall q.stall).clock = some h → sq.issuing ≠ [] → h.pc ≠ sq.pc →
    b.letsGo sq = true → sq.protected (s.stall q.stall).clock = false →
    ∃ t, exec (.heldGroupAge q) s = .next t ∧ SameMemory s t ∧ (t.squad? q).map (·.pc) = some h.pc
      ∧ ∀ l ln, Tab.find? sq.lanes l = some ln →
          (ln.at' = .issue → ∃ ln' x, t.lane? q l = some ln' ∧ ln'.at' = .held x ∧ x.pc = sq.pc ∧ x.live = live)
          ∧ (ln.at' = .held h → ∃ ln', t.lane? q l = some ln' ∧ ln'.at' = .issue))
  ∧ (∀ (s : State) (st core pos slot live : Nat) (taken : Bool) (b : Block) (sq : Squad), pos < 16 → (s.core st core).blocks = [(pos, b)] →
    sq.stepped = false → b.kern.roles.length = 1 → s.forcedSlot ⟨st, core, pos⟩ 0 = some slot → s.squad? ⟨st, core, pos, slot⟩ = some sq →
    sq.park = .none → sq.point = some (live, taken) → sq.loops = [] → sq.sup = false → sq.protected (s.stall st).clock = false →
    (∀ f ∈ sq.flight, f.ret = true) → sq.lanes ≠ [] → (∀ y ∈ sq.lanes, y.2.at' = .issue) →
    (b.kern.quad = true → ∀ y ∈ sq.lanes, ∃ z ∈ sq.lanes, z.1 / 4 = y.1 / 4 ∧ z.2.helper = false) →
    s.roomFor ⟨st, core, pos, slot⟩ 0 [⟨sq.lanes.map (·.1), sq.pc, live, none, false, sq.lanes.map fun y => (y.1, y.2, y.2.helper)⟩] = true →
    ∃ t, exec (.forcedFiling st core) s = .next t ∧ SameMemory s t ∧ (∀ l, t.lane? ⟨st, core, pos, slot⟩ l = none)
      ∧ (t.core st core).recs.length = (s.core st core).recs.length + sq.lanes.length)
  ∧ (∀ (s : State) (st core : Nat) (r : Rec), (s.core st core).recs.filter (·.spilled) = [r] → r.size ≤ (s.core st core).crateFree →
    (s.shareReady st core [r] = true → ∃ t, exec (.crateSpillReturn st core) s = .next t ∧ SameMemory s t
      ∧ (t.core st core).recs = (s.core st core).recs.map fun x => if x = r then s.readBack st core r else x)
    ∧ (s.shareReady st core [r] = false → exec (.crateSpillReturn st core) s = .next (s.shareAsk st core [r])))
  ∧ (∀ (s : State) (st core pos slot : Nat) (b : Block) (more : List Nat) (pc : DWord) (aged : Bool),
    pos < 16 → (s.core st core).blocks = [(pos, b)] → b.halt.phase = .run → b.kern.roles.length = 1 → b.kern.quad = false →
    b.emptySlots 0 = slot :: more → (s.core st core).pickBin (s.stall st).clock b pos 0 = some (pc, aged) →
    let bin := (s.core st core).recs.filter fun r => r.pos = pos ∧ r.role = 0 ∧ r.pc = pc
    let taken := bin.take b.kern.width
    s.shareReady st core taken = true → (taken.map (·.lane)).Nodup → (∀ r ∈ taken, r.lane < b.kern.width) →
    ∃ t sq, exec (.binDraw st core) s = .next t ∧ SameMemory s t ∧ t.squad? ⟨st, core, pos, slot⟩ = some sq
      ∧ (sq.pc, sq.park, sq.sca, sq.lc, sq.flight, sq.w0, sq.w1) = (pc, .reload, [], [], [], .off, .off)
      ∧ sq.lanes.length = taken.length
      ∧ ∀ r ∈ taken, let x := s.readBack st core r
          (Tab.find? sq.lanes r.lane).map (fun ln => (ln.tid, ln.v, ln.p, ln.rnd)) = some (r.tid, x.regs, x.pred, x.rnd))
  ∧ (∀ (s : State) (q : Sel) (b : Block) (sq : Squad), s.block? q.blk = some b → s.squad? q = some sq → sq.park = .reload →
    sq.issuing ≠ [] → (b.reloadReady sq = true →
      ∃ t, exec (.drawReloadComplete q) s = .next t ∧ SameMemory s t ∧ (t.squad? q).map (fun x => (x.pc, x.park)) = some (sq.pc, .none))
    ∧ (b.reloadReady sq = false → exec (.drawReloadComplete q) s = .next s))

/-! ## Events of the matrix engine, the copy unit and the collectives -/

/-- R219 to R224, R226, R227, R229, R236 to R242: the oldest queued command alone dispatches, only under its own event, at most one in a
clock, and while its units and the footprint table have room. A cause of its dispatch, a ring that fails, and a wait of 2,097,152 clocks
leave it undispatched and give the block a job fault; a ring with no slot, and a gang that has not met, leave it waiting; a gang whose
commands disagree gives every member a job fault of 0x42, and a source whose ring fails that member alone. A command that reads its ring waits
for the acquires before its menq (R299). MSWAP exchanges the planes, MGANG joins or leaves every member of the gang, and
every other command starts to run with the slot of its ring claimed, a gang's stream in each of its up to 8 members. A MTAG whose earlier commands have
completed makes its tag done and leaves the engine; until then it does nothing; and while the block is saved, those that failed hold it
no longer (log 50). -/
def Obligations.MatrixCommandsDispatchInOrder : Prop :=
  (∀ (s : State) (p : BSel) (b : Block) (r : BitVec 128) (k : Nat) (i : Instr), s.block? p = some b → b.mHead = some r →
      b.engineRuns = true →
      (k, i) ∈ [(1, Instr.mwload p), (2, .mswap p), (3, .mstream p), (4, .mscale p), (5, .mzero p), (6, .mtag p), (7, .mgang p)] →
      let clock := (s.stall p.stall).clock
      (1 ≤ mCmd r → mCmd r ≤ 7 → mCmd r ≠ k → exec i s = .next s)
      ∧ (mCmd r = k → b.eng.unitsFree r = false ∨ b.headClear r = false ∨ b.eng.dispatched = some clock → exec i s = .next s)
      ∧ (mCmd r = k → b.eng.unitsFree r = true → b.headClear r = true → b.eng.dispatched ≠ some clock →
        (∀ e, b.dispatchCause r = some e → exec i s = .next (s.modBlock p fun x => x.refuseHead clock e))
        ∧ (b.dispatchCause r = none → s.engineRoom p b r = false → exec i s = .next s)
        ∧ (b.dispatchCause r = none → s.engineRoom p b r = true →
          (k = 2 → ∃ t, exec i s = .next t ∧ SameMemory s t
            ∧ (t.block? p).map (fun x => (x.eng.active, x.eng.shadow, x.eng.act1, x.eng.mqh, x.eng.run))
              = some (b.eng.shadow, b.eng.active, !b.eng.act1, b.eng.after b.eng.mqh, b.eng.run))
          ∧ (k = 4 ∨ k = 5 ∨ k = 6 → ∃ t c, exec i s = .next t ∧ SameMemory s t
              ∧ (t.block? p).map (fun x => (x.eng.run, x.eng.mqh)) = some (b.eng.run ++ [c], b.eng.after b.eng.mqh)
              ∧ (c.rec', c.unit, c.claims, c.failed) = (r, mUnit r, [], false))
          ∧ (k = 1 ∨ (k = 3 ∧ mGang r = false) →
              (b.ringAt r = .wait → ∃ t, exec i s = .next t ∧ SameMemory s t
                ∧ (t.block? p).map (fun x => (x.eng.run, x.eng.mqh)) = some (b.eng.run, b.eng.mqh))
              ∧ (∀ e, b.ringAt r = .bad e → exec i s = .next (s.modBlock p fun x => x.refuseHead clock e))
              ∧ (∀ n a z, b.ringAt r = .slot n a z → ∃ t c, exec i s = .next t ∧ SameMemory s t
                ∧ (t.block? p).map (fun x => (x.eng.run, x.eng.mqh)) = some (b.eng.run ++ [c], b.eng.after b.eng.mqh)
                ∧ (c.rec', c.unit, c.claims, c.failed) = (r, mUnit r, [(mRing r, n, a)], false)))
          ∧ (k = 7 ∨ (k = 3 ∧ mGang r = true) →
              (s.rendezvous p b = none → ∃ t, exec i s = .next t ∧ SameMemory s t
                ∧ (t.block? p).map (fun x => (x.eng.run, x.eng.mqh)) = some (b.eng.run, b.eng.mqh))
              ∧ (s.rendezvous p b = some false → exec i s =
                  .next ((s.gangBlocks p b).foldl (fun s m => s.modBlock m.1 fun x => x.refuseHead clock 0x42) s))
              ∧ (∀ ms, s.gangBlocks p b = ms → (p, b) ∈ ms → (ms.map (·.1)).Nodup → s.rendezvous p b = some true →
                ((∀ m r', m ∈ ms → m.2.presents clock = some r' → m.2.ringCause r' = none) →
                  ∃ t, exec i s = .next t ∧ SameMemory s t ∧ ∀ m ∈ ms, ∃ r' x, m.2.presents clock = some r' ∧ t.block? m.1 = some x
                    ∧ x.eng.mqh = m.2.eng.after m.2.eng.mqh ∧ (k = 7 → x.eng.joined = r'.getLsbD 8)
                    ∧ (k = 3 → ∃ c, x.eng.run = m.2.eng.run ++ [c] ∧ c.rec' = r'))
                ∧ (∀ m r' e, m ∈ ms → m.2.presents clock = some r' → m.2.ringCause r' = some e →
                  (∀ n r2, n ∈ ms → n ≠ m → n.2.presents clock = some r2 → n.2.ringCause r2 = none) →
                  exec i s = .next (s.modBlock m.1 fun x => x.refuseHead clock e))))))
      ∧ (∀ n, b.eng.waitedAt clock = some n →
        exec (.ringUnderrunTimeout p) s = .next (if 2097152 ≤ n then s.modBlock p fun x => x.refuseHead clock 0x41 else s)))
  ∧ (∀ (s : State) (p : BSel) (b : Block) (c : MCmd) (i : Nat), s.block? p = some b → b.eng.run[i]? = some c → c.failed = false →
      b.squads ≠ [] → (∀ x ∈ b.squads, x.2.lanes ≠ []) → c.unit = 2 →
      let before := ∀ x ∈ b.eng.run.take i, x.failed = true ∧ b.halt.phase = .saving
      (mCmd c.rec' = 6 → before →
        ∃ t k, exec (.matrixCommandComplete p i) s = .next t ∧ SameMemory s t ∧ t.block? p = some k
          ∧ k.eng.run = b.eng.run.eraseIdx i ∧ k.pad = b.pad ∧ k.am = b.am
          ∧ k.tagsDone.getLsbD (mf c.rec' 21 16) = true ∧ k.tagsBusy.getLsbD (mf c.rec' 21 16) = false)
      ∧ (¬ before → exec (.matrixCommandComplete p i) s = .next s))

/-- R202, R203, R345: a copy that its card and its squad let run makes every write, leaves its core and the footprint table, and completes
its tag, or ends its queue entry with status 0; one that meets a cause makes the writes before the failing element and leaves the block
a job fault with that element's number, or ends its entry with 0x0400 and the cause; one that may not run does nothing; and one that waits
for a token of a line copies the elements before that one and asks for the line (log 25). R197: a copy of one row of 32-bit words from the
block's pad to its pad copies their bytes and no others. R337: the members of an entry's collectives read their sources; then, of those that
can be settled, the one of the lowest CSEQ is, and its destinations are written at that point (log 32): with a member's entry cleared, now or
since it was aborted, or members that disagree, every member ends with status 0x52 and ABORT; with a data access that fails, that member's
block has a job fault and the others end so; else, with every destination in a pad, every member ends with status 0. R338: a finished
collective writes its record and completes its tag, after those before it of its group. -/
def Obligations.CopiesAndCollectivesEnd : Prop :=
  (∀ (s : State) (st core i : Nat) (j : CopyJob), (s.core st core).copies[i]? = some j →
    let d := CopyD.ofWords j.desc
    let r := s.copyNow st core j
    let left (n : Nat) : State := (s.copyMade st core j n r.outs).dropCopy st core i
    (s.copyReady st core j = false → exec (.copyComplete st core i) s = .next s ∧ exec (.copyFault st core i) s = .next s)
    ∧ (s.copyReady st core j = true → r.fail = none → exec (.copyFault st core i) s = .next s
      ∧ (∀ p, j.pos = some p → exec (.copyComplete st core i) s = .next
          ((((left d.total).leaveCard st j.card).modBlock ⟨st, core, p⟩ fun k => k.tagDone d.tag).reap ⟨st, core, p⟩))
      ∧ (∀ p b, j.pos = some p → d.srcKind ≠ 0 → d.dstKind ≠ 0 → s.block? ⟨st, core, p⟩ = some b → b.squads ≠ [] →
          (∀ x ∈ b.squads, x.2.lanes ≠ []) → ∃ t, exec (.copyComplete st core i) s = .next t ∧ SameMemory s t
            ∧ (t.core st core).copies = (s.core st core).copies.eraseIdx i ∧ (∀ x ∈ (t.stall st).cards, x.id ≠ j.card)
            ∧ (t.block? ⟨st, core, p⟩).map (fun k => (k.tagsDone.getLsbD d.tag, k.tagsBusy.getLsbD d.tag)) = some (true, false))
      ∧ (∀ e, j.pos = none → j.entry = some e → exec (.copyComplete st core i) s = .next
          (((left d.total).leaveCard st j.card).entryEnds st e 0 0)))
    ∧ (∀ e k, s.copyReady st core j = true → r.fail = some (e, k) →
      (isWait e = false → exec (.copyComplete st core i) s = .next s)
      ∧ (isWait e = true → exec (.copyFault st core i) s = .next s
        ∧ exec (.copyComplete st core i) s = .next (((if k = j.made then s else (s.copyMade st core j k r.outs).modCore st core fun c =>
            { c with copies := updAt c.copies i fun j => { j with made := k, rnd := r.rnd, zeros := r.zeros } })).askFor st e))
      ∧ (∀ p, isWait e = false → j.pos = some p → exec (.copyFault st core i) s = .next
          ((left k).modBlock ⟨st, core, p⟩ fun x => { x with halt := { x.halt with
            pendJob := x.halt.pendJob ++ [⟨e, 1, d.tag, 0, 0, k, j.pc, j.card⟩] } }))
      ∧ (∀ q, isWait e = false → j.pos = none → j.entry = some q → exec (.copyFault st core i) s = .next
          (((left k).leaveCard st j.card).entryEnds st q 0x0400 e)))
    ∧ (∀ p b n, s.copyReady st core j = true → j.made = 0 → j.pos = some p → s.block? ⟨st, core, p⟩ = some b → b.padBad = [] → b.squads ≠ [] →
        (∀ x ∈ b.squads, x.2.lanes ≠ []) → d.srcKind = 1 → d.dstKind = 1 → d.n = [n, 1, 1, 1] → 0 < n → d.sfmt = .n32 → d.dfmt = .n32 →
        d.zb = false → ∃ t k, exec (.copyComplete st core i) s = .next t ∧ t.block? ⟨st, core, p⟩ = some k
          ∧ (∀ a, a < 4 * n → k.pad.rd (d.dst + a) = b.pad.rd (d.src + a))
          ∧ ∀ a, a < d.dst ∨ d.dst + 4 * n ≤ a → k.pad.rd a = b.pad.rd a))
  ∧ (∀ (s : State) (g st : Nat) (j : CollJob),
    let s' := s.collAdvance g
    SameMemory s s' ∧ ((s'.collPending g).filter s'.collReady = [] → exec (.collectiveRendezvous g) s = .next s')
    ∧ (minBy (fun x => x.2.cseq) ((s'.collPending g).filter s'.collReady) = some (st, j) →
      let peers := s'.collPeers st j
      let broken := ∃ m ∈ bitsOf ((s'.stall st).grpMask j.grp),
        (s'.stall m).grpValid j.grp = false ∨ (j.grp, j.cseq) ∈ (s'.stall m).dead
      let agree := ∀ m ∈ peers, (CollCard.of m.2.card).key = (CollCard.of j.card).key
      let ends (t : State) (m : Nat × CollJob) (r : Nat × Nat) : Prop := { m.2 with result := some r } ∈ (t.stall m.1).colls
      ∃ t, exec (.collectiveRendezvous g) s = .next t
        ∧ (broken → SameMemory s' t ∧ ∀ m ∈ peers, ends t m (0x52, 32))
        ∧ (¬ broken → (s'.stall st).grp j.grp 8 2 = 1 →
          (¬ agree → SameMemory s' t ∧ ∀ m ∈ peers, ends t m (0x52, 32))
          ∧ (agree → (∃ m ∈ peers, s'.collCause m.1 m.2 ≠ none) → SameMemory s' t ∧ ∀ m ∈ peers,
              (s'.collCause m.1 m.2 = none → ends t m (0x52, 32))
              ∧ ∀ e b, s'.collCause m.1 m.2 = some e → s'.block? ⟨m.1, m.2.core, m.2.pos⟩ = some b →
                  m.2 ∉ (t.stall m.1).colls ∧ (t.block? ⟨m.1, m.2.core, m.2.pos⟩).map (·.halt.pendJob)
                    = some (b.halt.pendJob ++ [⟨e, 3, (CollCard.of m.2.card).tag, 0, 0, 0, m.2.pc, m.2.cardId⟩]))
          ∧ (agree → (∀ m ∈ peers, s'.collCause m.1 m.2 = none ∧ field (CollCard.of m.2.card).dst 55 52 = 1) →
              ∀ m ∈ peers, ∃ flags, ends t m (0, flags)))))
  ∧ (∀ (s : State) (st i : Nat) (j : CollJob), (s.stall st).colls[i]? = some j →
    (j.result = none → exec (.collectiveComplete st i) s = .next s)
    ∧ ((∃ x ∈ (s.stall st).colls.take i, x.grp = j.grp) → exec (.collectiveComplete st i) s = .next s)
    ∧ (∀ status flags b, j.result = some (status, flags) → (∀ x ∈ (s.stall st).colls.take i, x.grp ≠ j.grp) →
      s.block? ⟨st, j.core, j.pos⟩ = some b → b.squads ≠ [] → (∀ x ∈ b.squads, x.2.lanes ≠ []) →
      let tag := (CollCard.of j.card).tag
      ∃ t, exec (.collectiveComplete st i) s = .next t ∧ SameMemory s t ∧ (t.stall st).colls = (s.stall st).colls.eraseIdx i
        ∧ (t.block? ⟨st, j.core, j.pos⟩).map (fun k => (k.tagsDone.getLsbD tag, k.tagsBusy.getLsbD tag)) = some (true, false)
        ∧ (t.block? ⟨st, j.core, j.pos⟩).map (fun k => k.pad.rds (j.off + 32) 16) = some (leBytes 2 status ++ leBytes 1 flags ++ [0]
            ++ leBytes 4 j.cseq ++ leBytes 4 ((s.stall st).grpSize j.grp) ++ leBytes 4 ((s.stall st).grpRank j.grp st))))

/-! ## Events of the token protocol and of the memory queues -/

/-- R263, R274, R275, R291: what each event of a line does: waiting accesses are served under their tokens or the line misses and a
request goes to its home; a line that came for a unit stays until the unit has read it, or asks for it no more (log 25); an eviction and a write request send every token, a read request one token of an owner that holds
several; tokens that arrive are added, and go home where nothing wants them; a protected line defers. -/
def Obligations.TokensMoveWithTheirMessages : Prop :=
  (∀ (s : State) (st line : Nat), let x := s.dcLine st line
    let room := (s.stall st).dc.length + (s.stall st).hro.length < dieCacheLines
    let wanted := (s.stall st).wanted line
    (s.wantsRead st line = false → wanted = false → Tab.find? (s.stall st).want line = none → exec (.dcLocalRead st line) s = .next s)
    ∧ (s.wantsRead st line = false → wanted = false → Tab.find? (s.stall st).want line ≠ none → exec (.dcLocalRead st line) s
        = .next ((s.modStall st fun t => { t with want := t.want.del line }).settleMiss st line))
    ∧ (s.wantsRead st line = false → wanted = true → 1 ≤ x.t → x.v = true → exec (.dcLocalRead st line) s = .next s)
    ∧ (s.wantsRead st line = true → 1 ≤ x.t → x.v = true →
        exec (.dcLocalRead st line) s = .next ((s.serveLine st line).settleMiss st line))
    ∧ (s.wantsRead st line = true ∨ wanted = true → (x.t = 0 ∨ x.v = false) → (x.miss = .read ∨ x.miss = .write) →
        exec (.dcLocalRead st line) s = .next s)
    ∧ (s.wantsRead st line = true ∨ wanted = true → (x.t = 0 ∨ x.v = false) → x.miss = .none → room → ∃ t, exec (.dcLocalRead st line) s = .next t
        ∧ SameMemory s t ∧ (t.dcLine st line).miss = .read ∧ t.net = s.net ++ [.trans line false st (s.homeStall line) true])
    ∧ (s.wantsWrite st line = true → x.t = 64 →
        exec (.dcLocalWrite st line) s = .next ((s.serveLine st line).settleMiss st line))
    ∧ (s.wantsWrite st line = true → x.t ≠ 64 → x.miss = .write → exec (.dcLocalWrite st line) s = .next s)
    ∧ (s.wantsWrite st line = true → x.t ≠ 64 → x.miss ≠ .write → room → ∃ t, exec (.dcLocalWrite st line) s = .next t
        ∧ SameMemory s t ∧ (t.dcLine st line).miss = .write ∧ t.net = s.net ++ [.trans line true st (s.homeStall line) true])
    ∧ (s.wantsWrite st line = false → exec (.dcLocalWrite st line) s = .next s)
    ∧ (1 ≤ x.t → x.miss = .none → s.lineProtected st line = false → ∃ t, exec (.dcEviction st line) s = .next t ∧ SameMemory s t
        ∧ t.dcLine st line = { x with t := 0, o := false, v := false, d := false }
        ∧ t.net = s.net ++ [.token line x.t x.o x.o x.d true st (s.homeStall line) true])
    ∧ (x.t = 0 ∨ x.miss ≠ .none ∨ s.lineProtected st line = true → exec (.dcEviction st line) s = .next s)
    ∧ ∀ core, ∃ t, exec (.l1Eviction st core line) s = .next t ∧ SameMemory s t
        ∧ ∀ m, Tab.find? (t.core st core).l1 m = (if m = line then none else Tab.find? (s.core st core).l1 m)
          ∧ Tab.find? (t.core st core).l1h m = if m = line then none else Tab.find? (s.core st core).l1h m)
  ∧ (∀ (s : State) (i line e dst : Nat) (w : Bool), s.net[i]? = some (.trans line w e dst false) →
    let x := s.dcLine dst line
    (s.lineProtected dst line = true → exec (.transientRequestAtCache i) s = .next s)
    ∧ (s.lineProtected dst line = false →
      ((w = true ∧ x.t ≠ 0) ∨ (w = false ∧ x.o = true ∧ x.t = 1) → ∃ t, exec (.transientRequestAtCache i) s = .next t ∧ SameMemory s t
        ∧ t.dcLine dst line = { x with t := 0, o := false, v := false, d := false }
        ∧ t.net = s.net.eraseIdx i ++ [.token line x.t x.o x.v x.d false dst e false])
      ∧ (w = false → x.o = true → 2 ≤ x.t → ∃ t, exec (.transientRequestAtCache i) s = .next t ∧ SameMemory s t
        ∧ t.dcLine dst line = { x with t := x.t - 1 }
        ∧ t.net = s.net.eraseIdx i ++ [.token line 1 false true false false dst e false])
      ∧ (x.t = 0 ∨ (w = false ∧ x.o = false) →
          exec (.transientRequestAtCache i) s = .next { s with net := s.net.eraseIdx i })))
  ∧ (∀ (s : State) (i line e dst : Nat) (w : Bool), s.net[i]? = some (.trans line w e dst true) →
    let h := s.homeLine line
    (w = false → h.o = true → 2 ≤ h.t → ∃ t, exec (.transientRequestAtHome i) s = .next t ∧ SameMemory s t
        ∧ t.homeLine line = { h with t := h.t - 1, hint := match h.hint with
            | some v => some (setBit v e true)
            | none => if h.t = 64 then some (BitVec.ofNat 64 (2 ^ e)) else none }
        ∧ t.net = s.net.eraseIdx i ++ [.token line 1 false true false false (s.homeStall line) e false])
    ∧ (w = false → h.o = false → ∃ t, exec (.transientRequestAtHome i) s = .next t ∧ SameMemory s t ∧ t.home = s.home
        ∧ t.net = s.net.eraseIdx i ++ ((bitsOf h.sharers).filter (· ≠ e)).map fun x => Msg.trans line false e x false)
    ∧ (w = true → (h.t = 0 → h.o = false) → ∃ t, exec (.transientRequestAtHome i) s = .next t ∧ SameMemory s t
        ∧ t.homeLine line = ⟨0, false, some (BitVec.ofNat 64 (2 ^ e))⟩
        ∧ t.net = s.net.eraseIdx i ++ (if h.t = 0 then [] else [.token line h.t h.o h.o false false (s.homeStall line) e false])
            ++ ((bitsOf h.sharers).filter (· ≠ e)).map fun x => Msg.trans line true e x false))
  ∧ (∀ (s : State) (i line n src dst : Nat) (own data d all : Bool), s.net[i]? = some (.token line n own data d all src dst false) →
    (s.stall dst).claimed line dst = false →
    let x := s.dcLine dst line
    let y : DcLine := { x with t := x.t + n, v := x.v || data, o := x.o || own, d := if own then d else x.d }
    (y.satisfied = true → exec (.tokenMessageAtCache i) s
      = .next ((({ s with net := s.net.eraseIdx i } : State).putDc dst line y |>.serveLine dst line).missDone dst line))
    ∧ (x.miss = .none → x.t ≠ 0 → ∃ t, exec (.tokenMessageAtCache i) s = .next t ∧ SameMemory s t ∧ t.net = s.net.eraseIdx i
        ∧ t.dcLine dst line = y)
    ∧ (x.miss = .none → x.t = 0 → n ≠ 0 → ∃ t, exec (.tokenMessageAtCache i) s = .next t ∧ SameMemory s t ∧ (t.dcLine dst line).t = 0
        ∧ t.net = s.net.eraseIdx i ++ [.token line n (x.o || own) (x.o || own) (if own then d else x.d) true dst (s.homeStall line) true]))
  ∧ (∀ (s : State) (i line n src dst : Nat) (own data d all : Bool), s.net[i]? = some (.token line n own data d all src dst true) →
    (s.stall (s.homeStall line)).active line = none → (s.homeLine line).t + n ≠ 64 →
    ∃ t, exec (.tokenMessageAtHome i) s = .next t ∧ SameMemory s t ∧ t.net = s.net.eraseIdx i
      ∧ (t.homeLine line).t = (s.homeLine line).t + n ∧ (t.homeLine line).o = ((s.homeLine line).o || own))

/-- R271: no agent creates or destroys a token. No event of a line, of its messages, of the persistent requests, of the memory queues or
of the loads changes how many tokens of any line the die caches, its home and the messages hold together, wherever tokens are where the
rules put them. -/
def Obligations.TokensAreConserved : Prop :=
  ∀ (s : State) (i : Instr) (m n : Nat) (q : Sel), TokenForm s →
    i ∈ [.dcLocalRead n m, .dcLocalWrite n m, .dcEviction n m, .l1Eviction n m m, .transientRequestAtCache m, .transientRequestAtHome m,
      .tokenMessageAtCache m, .tokenMessageAtHome m, .missTimerExpire n m, .activate m, .deactivate m, .acknowledge m,
      .protectedDeferralEnd n m, .farAtomic n m, .storeDrain q, .bufferedWritePerform n m, .postedWriteComplete n m, .resultReturn q m] →
    ∃ t, exec i s = .next t ∧ ∀ line, t.tokensOf line = s.tokensOf line

/-- R276 to R278, R281, R283, R291, R293, R295: an expired miss asks for a persistent request; activations and deactivations set and clear
their table entry and are acknowledged; a protection ends after its clocks; a far operation acts at a home that holds every token, its old
value goes to the result of the squad that issued it, and the entry leaves its store queue with its last lane; what it waits behind, and that
its home recalls the tokens by a persistent request, is log 41; a store leaves its queue for the stall write buffer, and the oldest write to a
line there is performed under every token; a posted write is performed at its memory, one of this package's own under the home's tokens. -/
def Obligations.RequestsPersistAndWritesDrain : Prop :=
  (∀ (s : State) (st line : Nat), let x := s.dcLine st line
    let due := x.miss ≠ .none ∧ x.satisfied = false ∧ x.esc = false ∧ x.timer + 512 ≤ (s.stall st).clock
    let kind := if x.miss = .write then PKind.write else .read
    (¬ due → exec (.missTimerExpire st line) s = .next s)
    ∧ (due → (s.stall st).preq = none → (s.stall st).pwait = [] → (s.stall st).marked = [] → ∃ t,
        exec (.missTimerExpire st line) s = .next t ∧ SameMemory s t
        ∧ (t.stall st).preq.map (fun p => (p.line, p.kind, p.actAcks)) = some (line, kind, 64)
        ∧ t.net = s.net ++ (List.range 64).map fun n => .activate st line kind n))
  ∧ (∀ (s : State) (i e line dst : Nat) (k : PKind), s.net[i]? = some (.activate e line k dst) → s.lineProtected dst line = true →
    s.homeStall line ≠ dst → ∃ t, exec (.activate i) s = .next t ∧ SameMemory s t ∧ Tab.find? (t.stall dst).ptab e = some ⟨line, k⟩
      ∧ t.net = s.net.eraseIdx i ++ [.ack e false dst])
  ∧ (∀ (s : State) (i e dst line : Nat) (k : PKind), s.net[i]? = some (.deactivate e dst) → (s.stall dst).ptab = [(e, ⟨line, k⟩)] →
    (s.stall dst).pwait = [] → ∃ t, exec (.deactivate i) s = .next t ∧ SameMemory s t ∧ Tab.find? (t.stall dst).ptab e = none
      ∧ t.net = s.net.eraseIdx i ++ [.ack e true dst])
  ∧ (∀ (s : State) (i e src : Nat) (p : PReq), s.net[i]? = some (.ack e false src) → (s.stall e).preq = some p → p.performed = false →
    p.deact = false → ∃ t, exec (.acknowledge i) s = .next t ∧ SameMemory s t ∧ t.net = s.net.eraseIdx i
      ∧ (t.stall e).preq = some { p with actAcks := p.actAcks - 1 })
  ∧ (∀ (s : State) (st line : Nat),
    (s.lineProtected st line = true → exec (.protectedDeferralEnd st line) s = .next s)
    ∧ (s.lineProtected st line = false → (s.stall st).active line = none → ∃ t, exec (.protectedDeferralEnd st line) s = .next t
        ∧ SameMemory s t ∧ ∀ q l ln r, q.stall = st → s.lane? q l = some ln → ln.resv = some r →
          ∃ ln', t.lane? q l = some ln' ∧ ln'.resv = some (if r.line = line then { r with prot := none } else r)))
  ∧ (∀ (s : State) (st i pa : Nat) (f : FarOp) (op : AtomOp) (l : AtLane), (s.stall st).far[i]? = some f → f.op = some op → f.lanes = [l] →
    l.place = .dev pa →
    (s.farReady f = true → s.squad? f.q = none → s.lostAny pa op.size = false → s.exportsAt pa op.size = [] → ∃ t, exec (.farAtomic st i) s = .next t
        ∧ t.mem = s.mem.wrs pa (leBytes op.size (op.apply (BitVec.ofNat 64 (s.mem.num pa op.size)) l.b l.cmp).toNat))
    ∧ (∀ sq e rest fid g, s.farReady f = true → s.lostAny pa op.size = false → s.exportsAt pa op.size = [] → s.squad? f.q = some sq →
      sq.lanes ≠ [] → sq.sq = e :: rest → e.id = f.sqid → e.op = .atomic op [l] → e.acq = none → e.flight = some fid → sq.flight = [g] →
      g.id = fid → g.dst ≠ [] →
      let old := BitVec.ofNat 64 (s.mem.num pa op.size)
      ∃ t x, exec (.farAtomic st i) s = .next t ∧ t.mem = s.mem.wrs pa (leBytes op.size (op.apply old l.b l.cmp).toNat)
        ∧ (t.squad? f.q).map (fun y => (y.sq, y.flight)) = some (rest, [x]) ∧ x.perf = true ∧ x.dst = g.dst
        ∧ x.vals = g.vals ++ (if op.wide then [(l.lane, l.reg, lo32 old), (l.lane, l.reg + 1, hi32 old)] else [(l.lane, l.reg, lo32 old)]))
    ∧ (s.farReady f = false → ((s.homeLine (pa / 64)).t = 64 ∨ s.farBehind f = true) → exec (.farAtomic st i) s = .next s)
    ∧ (s.farReady f = false → (s.homeLine (pa / 64)).t ≠ 64 → s.farBehind f = false →
        exec (.farAtomic st i) s = .next (s.askPersistent st (pa / 64) .home)))
  ∧ (∀ (s : State) (q : Sel) (sq : Squad) (e : SqEnt) (rest : List SqEnt) (pa : Nat) (bs : List Byte), s.squad? q = some sq →
    sq.lanes ≠ [] → sq.sq = e :: rest → e.op = .store (.dev pa) bs → e.rel = none → e.acq = none → sq.asked e.id = false →
    (∀ f ∈ sq.flight, f.perf = true ∨ f.byQueue = true ∨ e.id ≤ f.id) →
    ∃ t, exec (.storeDrain q) s = .next t ∧ SameMemory s t ∧ (t.squad? q).map (·.sq) = some rest
      ∧ (t.stall q.stall).wbuf = (s.stall q.stall).wbuf ++ [⟨e.id, s.nextId, some q, pa, bs⟩])
  ∧ (∀ (s : State) (st i : Nat) (w : BufW), (s.stall st).wbuf[i]? = some w →
    (oldestOfLine (s.stall st).wbuf i = true → (s.dcLine st (w.pa / 64)).t = 64 →
        s.exportsAt w.pa w.bytes.length = [] → ∃ t, exec (.bufferedWritePerform st i) s = .next t
        ∧ t.mem = s.mem.wrs w.pa w.bytes ∧ (t.stall st).wbuf = (s.stall st).wbuf.eraseIdx i)
    ∧ (oldestOfLine (s.stall st).wbuf i = false ∨ (s.dcLine st (w.pa / 64)).t ≠ 64 → exec (.bufferedWritePerform st i) s = .next s))
  ∧ (∀ (s : State) (st i a : Nat) (p : Posted), (s.stall st).posted[i]? = some p →
    (∀ hro, p.place = .host a hro → ∃ t, exec (.postedWriteComplete st i) s = .next t ∧ t.mem = s.mem
        ∧ t.hostMem = s.hostMem.wrs a p.bytes ∧ (t.stall st).posted = (s.stall st).posted.eraseIdx i)
    ∧ (∀ hro, p.place = .ext a hro →
      let own := s.pkg.getLsbD 9 && a / 2 ^ 50 % 512 = s.ownPackage
      (own = false → ∃ t, exec (.postedWriteComplete st i) s = .next t ∧ t.mem = s.mem
        ∧ t.extMem = s.extMem.wrs a p.bytes ∧ (t.stall st).posted = (s.stall st).posted.eraseIdx i)
      ∧ (own = true → (s.homeLine (a % 2 ^ 48 / 64)).t ≠ 64 → exec (.postedWriteComplete st i) s
          = .next (s.askPersistent (s.homeStall (a % 2 ^ 48 / 64)) (a % 2 ^ 48 / 64) .home))
      ∧ (own = true → a % 64 + p.bytes.length ≤ 64 → (s.homeLine (a % 2 ^ 48 / 64)).t = 64 →
        s.exportsAt (a % 2 ^ 48) p.bytes.length = [] → ∃ t, exec (.postedWriteComplete st i) s = .next t ∧ t.mem = s.mem.wrs (a % 2 ^ 48) p.bytes ∧ t.extMem = s.extMem
          ∧ (t.stall st).posted = (s.stall st).posted.eraseIdx i)))

/-! ## Events of messages, queues and launches -/

/-- R321, R322, R324 to R328, R369, R472: the next message of a source is appended to its mailbox, little-endian, and acknowledged, one that
fires its arm tag's launch too, or goes back with the reason; an early one is held; the acknowledgement and the return give the credit back,
the return through mailbox 15; a fire launches its armed card, one at an entry that is off leaves a record of status 0x0500, and one whose card
cannot be read a record of status 0x0400 with the cause (log 17); while its card or its image waits for a line, it asks for the line (log 25). -/
def Obligations.MessagesArriveInOrder : Prop :=
  (∀ (s : State) (i : Nat) (m : NiMsg), s.net[i]? = some (.send m) → (s.stall m.dstall).early = [] →
    let t := s.stall m.dstall
    let e := Tab.get 0 t.crt m.dcore
    let seen (u : State) : Prop := Tab.get 0 (u.stall m.dstall).expected m.srcKey = (m.seq + 1) % 65536
    (m.seq ≠ t.expects m → ∃ u, exec (.messageArrival i) s = .next u ∧ SameMemory s u ∧ u.net = s.net.eraseIdx i
        ∧ (u.stall m.dstall).early = [m])
    ∧ (m.seq = t.expects m → e.getLsbD 14 = true → t.migbuf.length < 64 → ∃ u, exec (.migrationForward i) s = .next u ∧ SameMemory s u
        ∧ (u.stall m.dstall).migbuf = t.migbuf ++ [m] ∧ seen u)
    ∧ (e.getLsbD 14 = false → exec (.migrationForward i) s = .next s)
    ∧ (m.seq = t.expects m → e.getLsbD 14 = false → t.migbuf = [] →
      (e.getLsbD 15 = false ∨ (t.core (field e 5 0)).holder = none → ∃ u, exec (.messageArrival i) s = .next u ∧ SameMemory s u
          ∧ u.net = s.net.eraseIdx i ++ [.ret { m with ret := true, reason := 3 }] ∧ seen u)
      ∧ (∀ pos b, e.getLsbD 15 = true → (t.core (field e 5 0)).holder = some (pos, b) →
        (b.kern.box m.mb = none → ∃ u, exec (.messageArrival i) s = .next u ∧ SameMemory s u
            ∧ u.net = s.net.eraseIdx i ++ [.ret { m with ret := true, reason := 2 }] ∧ seen u)
        ∧ (∀ d, b.kern.box m.mb = some d → b.mboxFull d = true → ∃ u, exec (.messageArrival i) s = .next u ∧ SameMemory s u
            ∧ u.net = s.net.eraseIdx i ++ [.ret { m with ret := true, reason := 1 }] ∧ seen u)
        ∧ (∀ d, b.kern.box m.mb = some d → b.mboxFull d = false → s.block? ⟨m.dstall, field e 5 0, pos⟩ = some b →
            ∃ u, exec (.messageArrival i) s = .next u ∧ SameMemory s u ∧ u.net = s.net.eraseIdx i ++ [.sendAck m] ∧ seen u
              ∧ (u.block? ⟨m.dstall, field e 5 0, pos⟩).map (fun x => (x.pad, x.tail d.num))
                  = some (((b.pad.wrs (d.base + 64 + 16 * d.ent + 256 * ((b.tail d.num).toNat % d.ent)) m.payload).wrs
                      (d.base + 64 + 16 * ((b.tail d.num).toNat % d.ent)) m.header).wrs (d.base + 4)
                      (leBytes 4 (b.tail d.num + 1).toNat), b.tail d.num + 1)
              ∧ ∃ x, u.block? ⟨m.dstall, field e 5 0, pos⟩ = some x
                ∧ (let off := d.base + 64 + 16 * d.ent + 256 * ((b.tail d.num).toNat % d.ent)
                  (u.stall m.dstall).fires = t.fires ++ if m.fire then [⟨field e 5 0, m.armtag, m.mb, off, m.seq, x.pad.rds off 256⟩]
                    else [])))))
  ∧ (∀ (s : State) (i : Nat) (m : NiMsg) (b : Block), s.block? ⟨m.sstall, m.spcore, m.spos⟩ = some b → b.launch = m.slaunch →
    b.index = m.sindex →
    (s.net[i]? = some (.sendAck m) → ∃ u, exec (.messageAck i) s = .next u ∧ SameMemory s u ∧ u.net = s.net.eraseIdx i
        ∧ u.block? ⟨m.sstall, m.spcore, m.spos⟩ = some { b with inflight := b.inflight - 1 })
    ∧ (∀ d, s.net[i]? = some (.ret m) → b.kern.box 15 = some d → ∃ u, exec (.returnedMessage i) s = .next u ∧ SameMemory s u
        ∧ u.net = s.net.eraseIdx i
        ∧ (u.block? ⟨m.sstall, m.spcore, m.spos⟩).map (fun x => (x.inflight, x.tail d.num)) = some (b.inflight - 1, b.tail d.num + 1)))
  ∧ (∀ (s : State) (st i : Nat) (f : Fire), (s.stall st).fires[i]? = some f →
    let t := s.stall st
    let e := 16 * f.tag
    let u := s.modStall st fun t => { t with fires := t.fires.eraseIdx i }
    let v := (u.userTouch st .read (t.armt.num e 8) 64).modStall st fun t => t.countFire f.tag
    (t.armt.num (e + 10) 1 % 2 = 0 → exec (.fire st i) s =
        .next (u.deviceRecord st (BitVec.ofNat 32 f.seq) 0x0500 (f.tag + 256 * f.mb)))
    ∧ (t.armt.num (e + 10) 1 % 2 = 1 →
      (∀ c, s.userRead st .read (t.armt.num e 8) 64 = .error c →
        exec (.fire st i) s = .next (if isWait c then s.askFor st c
          else (u.modStall st fun t => t.countFire f.tag).deviceRecord st (BitVec.ofNat 32 f.seq) 0x0400 c))
      ∧ (∀ card, s.userRead st .read (t.armt.num e 8) 64 = .ok card →
        exec (.fire st i) s = .next (if s.cardWaits st card (some f.off) then s.askCard st card (some f.off)
          else State.makeLaunch { v with nextId := v.nextId + 1 } st
            ⟨v.nextId, .fire f.core f.off f.payload, false, t.armt.num (e + 9) 1 % 8, 0xFF, 0, BitVec.ofNat 32 f.seq, 0⟩
            card (some f.off)))))

/-- R344, R345, R346, R348, R353 to R355: QUEUE_FETCH reads what its queues need, then takes the next entry of the best eligible queue,
whose FETCHED it writes, or stops a queue whose entry is malformed; an entry starts once those before it have: a LAUNCH, and an MLAUNCH
that has its market, make their launches, a NOP ends, a COPY queues its copy; a SIGNAL writes its VALUE after everything before it, what
an abort has left of the queue too, and ends when that is performed; a WAITMEM ends when its word has reached VALUE and else reads again.
An MLAUNCH sets BUSY at its fetch, or later as soon as it is clear. What a line is still to come for waits and asks for the line (R271,
R274, log 25); the place of a COPY's card among those of its clock is log 59. -/
def Obligations.QueueEntriesAreFetchedAndRun : Prop :=
  (∀ (r : State) (st : Nat), r.pendFirm.contains (r.siteOf st, 2) = true → exec (.queueFetch st) r = .next r)
  ∧ (∀ (r : State) (st : Nat), r.pendFirm.contains (r.siteOf st, 2) = false →
    let s := (r.stall st).queues.foldl (fun s x => s.queueReads st x.1) r
    (s.pickQueue st = none → exec (.queueFetch st) r = .next s)
    ∧ (∀ q, s.pickQueue st = some q →
      let t := s.stall st
      let n := (t.queue q).fetched + 1
      let e := s.entryBytes st q n
      let u := s.modStall st fun t => { t with queues := t.queues.put q { t.queue q with lastFetch := t.clock } }
      let far := t.qd q 16 4 < (BitVec.ofNat 32 (t.qd q 24 4) - (t.queue q).fetched).toNat
      (far → exec (.queueFetch st) r = .next (u.stopQueue st q n 0 0))
      ∧ (¬ far → entryFormOk e n (t.qd q 20 1) = false →
          exec (.queueFetch st) r = .next (u.stopQueue st q n (sliceNum e 4 1) 0))
      ∧ (∀ aux, ¬ far → entryFormOk e n (t.qd q 20 1) = true → s.entryCheck st q e = .error aux →
          exec (.queueFetch st) r = .next (if isWait aux then s.askFor st aux else u.stopQueue st q n (sliceNum e 4 1) aux))
      ∧ (∀ x, ¬ far → entryFormOk e n (t.qd q 20 1) = true → s.entryCheck st q e = .ok x →
          ∃ v, exec (.queueFetch st) r = .next v ∧ ((v.stall st).queue q).fetched = n
            ∧ v.mem = s.mem ∧ v.seenBytes st (s.queueBlock st q) 4 = leBytes 4 n.toNat
            ∧ (sliceNum e 4 1 = 2 → s.busy (sliceNum e 24 1) = false → v.busy (sliceNum e 24 1) = true)
            ∧ (sliceNum e 4 1 = 0x10 → v.busy (pdMarket x) = true ∧ ((v.stall st).queue q).openPass = some (pdMarket x))
            ∧ (sliceNum e 4 1 = 0x12 → ((v.stall st).queue q).openPass = none)
            ∧ ∃ y, (v.stall st).entries = t.entries ++ [y]
              ∧ (y.q, y.seq, y.ty, y.st, y.bytes) = (q, n, sliceNum e 4 1, .fetched, e ++ x)
              ∧ (sliceNum e 4 1 = 2 → y.market = if s.busy (sliceNum e 24 1) then none else some (sliceNum e 24 1)))))
  ∧ (∀ (s : State) (st q : Nat), (s.stall st).qd q 22 1 % 2 = 1 →
    let b := s.queueBlock st q
    (((s.stall st).queue q).starts = true → s.readableAt st b 16 = false → s.queueReads st q = s.askAt st b 16)
    ∧ (((s.stall st).queue q).starts = true → s.readableAt st b 16 = true →
      let v := s.queueReads st q
      ((v.stall st).queue q).fetched = s.blockWord st q 0 ∧ ((v.stall st).queue q).completed = s.blockWord st q 4
        ∧ ((v.stall st).queue q).starts = false ∧ v.seenByte st (b + 12) = 0))
  ∧ (∀ (s : State) (st i : Nat) (e : Entry), (s.stall st).entries[i]? = some e →
    let start := s.setEntry st e.id fun e => { e with st := .running }
    let m := sliceNum e.bytes 24 1
    let words := (List.range 8).map fun i => BitVec.ofNat 32 (sliceNum e.bytes (16 + 4 * i) 4)
    let value := BitVec.ofNat 32 (sliceNum e.bytes 24 4)
    ((s.stall st).mayStart e = true →
      (e.ty = 1 → exec (.launchEntry st i) s = .next (if s.cardWaits st e.card none then s.askCard st e.card none
          else start.makeLaunch st ⟨e.id, .queue e.id, e.cls = 0, e.prio, e.q, 1, e.seq, 0⟩ e.card none))
      ∧ (e.ty = 2 → e.market = none → s.busy m = true → exec (.mlaunch st i) s = .next s)
      ∧ (∀ x, e.ty = 2 → e.market = some m → (s.members m).find? (fun x => s.cardWaits x e.card none) = some x →
          exec (.mlaunch st i) s = .next (s.askCard x e.card none))
      ∧ (e.ty = 2 → e.market = some m → (∀ x ∈ s.members m, s.cardWaits x e.card none = false) → let ms := s.members m
          exec (.mlaunch st i) s = .next ((List.range ms.length).foldl (fun u rank =>
            u.makeLaunch (ms.getD rank 0) ⟨e.id, .market st e.id, e.cls = 0, e.prio, e.q, 2, e.seq, mktWord m ms.length rank⟩ e.card none)
              start))
      ∧ (e.ty = 5 → (CopyD.ofWords words).bad 1 true = true → exec (.copyEntry st i) s = .next (s.entryEnds st e.id 0x0400 0x43))
      ∧ (e.ty = 5 → (CopyD.ofWords words).bad 1 true = false → let c := (s.stall st).copyCore
          ((s.stall st).cardRoom = false ∨ 64 ≤ (s.core st c).copies.length → exec (.copyEntry st i) s = .next s)
          ∧ ((s.stall st).cardRoom = true → (s.core st c).copies.length < 64 → ∃ u j, exec (.copyEntry st i) s = .next u
            ∧ SameMemory s u ∧ (u.core st c).copies = (s.core st c).copies ++ [j] ∧ j.entry = some e.id ∧ j.pos = none
            ∧ j.desc = words ∧ ∃ front back y, (s.stall st).cards = front ++ back ∧ (u.stall st).cards = front ++ y :: back
              ∧ y.id = j.card ∧ y.place = cardPlace c 4)))
    ∧ (e.ty = 2 → e.st = .fetched → e.market = none → s.busy m = false → exec (.mlaunch st i) s =
        exec (.mlaunch st i) ((s.setBusy m true).setEntry st e.id fun e => { e with market := some m }))
    ∧ ((s.stall st).mayStart e = false → exec (.launchEntry st i) s = .next s ∧ exec (.copyEntry st i) s = .next s
        ∧ (e.market.isSome → exec (.mlaunch st i) s = .next s))
    ∧ (exec (.nopEntry st i) s = .next (if e.ty = 7 then s.entryEnds st e.id 0 0 else s))
    ∧ (e.ty = 3 →
      let written := (s.stall st).writtenTo e.upto = true ∧ s.owes st e.q = false
      (e.st = .fetched → exec (.signal st i) s = .next (if (s.stall st).firstOpen e then
          s.setEntry st e.id fun e => { e with st := .running, upto := s.nextId } else s))
      ∧ (e.st = .running → ¬ written → exec (.signal st i) s = .next s)
      ∧ (∀ id u, e.st = .running → written →
          s.userWrite st (BitVec.ofNat 64 (sliceNum e.bytes 16 8)) value = .ok (id, u) →
          exec (.signal st i) s = .next (u.setEntry st e.id fun e => { e with st := .waiting, upto := id + 1 }))
      ∧ (∀ c, e.st = .running → written →
          s.userWrite st (BitVec.ofNat 64 (sliceNum e.bytes 16 8)) value = .error c →
          exec (.signal st i) s = .next (if isWait c then s.askFor st c else s.entryEnds st e.id 0x0400 c))
      ∧ (e.st = .waiting → exec (.signal st i) s =
          .next (if (s.stall st).writtenTo e.upto then s.entryEnds st e.id 0 0 else s)))
    ∧ (e.ty = 4 →
      let read := s.waitRead st e
      let u := s.waitTouch st (sliceNum e.bytes 16 8)
      let ends := (u.stallAcquire st e.obs).entryEnds st e.id 0 0
      let again := u.setEntry st e.id fun e => { e with st := .waiting, upto := (u.stall st).clock }
      (∀ c, read = .error c → let fails := if isWait c then s.askFor st c else s.entryEnds st e.id 0x0400 c
        (e.st = .fetched → exec (.waitmem st i) s = .next fails)
        ∧ (e.st = .waiting → exec (.waitmemReread st i) s =
            .next (if e.upto + 1024 ≤ (s.stall st).clock then fails else s)))
      ∧ (∀ w, read = .ok w →
        (e.st = .fetched → exec (.waitmem st i) s = .next (if (w - value).toNat < 2 ^ 31 then ends else again))
        ∧ (e.st = .waiting → ((w - value).toNat < 2 ^ 31 ∨ e.upto + 1024 ≤ (s.stall st).clock) →
            exec (.waitmemReread st i) s = .next (if (w - value).toNat < 2 ^ 31 then ends else again))
        ∧ (e.st = .waiting → 2 ^ 31 ≤ (w - value).toNat → (s.stall st).clock < e.upto + 1024 →
            exec (.waitmemReread st i) s = .next s))))

/-- R352, R356, R358, R362, R363, R346 to R349, R450: a launch all of whose blocks have ended and whose writes are done closes, once
what its DONE word needs is there; the next launch's next block takes the core of R356, or victims are named and saved for it; a pipeline
is reassigned after 4,096 clocks and drained when nothing is left; held records are written where their ring has room; a doorbell, a
consumed word and a descriptor word are written, ABORT clearing EN and being kept for QUEUE_ABORT, which ends it; a REPLY to a record
that has vanished since its fetch ends without error (log 63: R450 names malformed replies only), one of KIND 2 ends, and one to a halted
block resumes it. -/
def Obligations.SchedulerPlacesClosesAndReplies : Prop :=
  (∀ (s : State) (st i : Nat) (l : Launch), (s.stall st).launches[i]? = some l →
    (l.complete (s.stall st) = false → exec (.launchComplete st i) s = .next s)
    ∧ (l.complete (s.stall st) = true → exec (.launchComplete st i) s = .next (match s.doneCode st l with
        | some c => s.askFor st c
        | none => s.closeLaunch st l))
    ∧ (∀ e, l.complete (s.stall st) = true → l.src = .queue e → exec (.launchComplete st i) s =
        .next ((s.dropLaunch st l.id).entryEnds st e (l.status.getD (0, 0)).1 (l.status.getD (0, 0)).2)))
  ∧ (∀ (s : State) (st core : Nat) (l : Launch), let t := s.stall st
    t.nextLaunch = some l → t.pausePlace = false →
    (l.evicted = [] → t.evictsFor l.id l.next = false → t.slotsFor (max 1 l.gang) = true → ∀ c cs, t.picks l = some (c :: cs) →
      exec (.blockPlace st c) s = .next (s.placeMany st l l.next (c :: cs))
      ∧ (t.evicting = [] → exec (.eviction st) s = .next s) ∧ (core ≠ c → exec (.blockPlace st core) s = .next s))
    ∧ (t.evictsFor l.id l.next = true → exec (.blockPlace st core) s = .next s)
    ∧ (l.evicted = [] → t.savesOn = true → t.slotsFor (max 1 l.gang) = true → t.picks l = none → t.evicting = [] →
      ∀ v vs, s.victims st l = some (v :: vs) →
      let names := (v :: vs).filterMap fun b => (s.block? b).map fun k => (k.launch, k.index)
      exec (.eviction st) s = .next ((s.modStall st fun t => { t with evicting := t.evicting ++ [⟨l.id, l.next, names⟩] }).evictionsGo st)))
  ∧ (∀ (s : State) (st i : Nat) (p : Pipe), (s.stall st).pipes[i]? = some p →
    ((s.stall st).clock < p.since + 4096 → exec (.pipelineReassign st i) s = .next s)
    ∧ (p.since + 4096 ≤ (s.stall st).clock → (s.stall st).pipes = [p] → ∃ u, exec (.pipelineReassign st i) s = .next u ∧ SameMemory s u
        ∧ (u.stall st).pipes = [{ (p.reassign ((s.stall st).pipeBlocks st p.launch)) with since := (s.stall st).clock }])
    ∧ (p.drained = false → (s.stall st).pipeDrained st p = true → (s.stall st).pipes = [p] → ∃ u,
        exec (.pipelineDrain st i) s = .next u ∧ SameMemory s u ∧ (u.stall st).pipes = [{ p with drained := true }]))
  ∧ (∀ (s : State) (st : Nat), ((s.stall st).heldRecs = [] → exec (.recordRelease st) s = .next s)
    ∧ ∀ r, (s.stall st).heldRecs = [r] → r.syscall = false → r.entry = none → ringOn (s.stall st).cring = true →
        ringRoom (s.stall st).cring (s.stall st).crseq (s.stall st).ccons = true →
        let n := (s.stall st).crseq + 1
        ∃ u, exec (.recordRelease st) s = .next u ∧ (u.stall st).heldRecs = [] ∧ (u.stall st).crseq = n
          ∧ u.hostMem = s.hostMem.wrs (ringBase (s.stall st).cring + 32 * (n.toNat % 2 ^ ringLog (s.stall st).cring))
              (leBytes 4 n.toNat ++ r.bytes))
  ∧ (∀ (s : State) (st q off : Nat) (v : DWord),
    (q < 64 → ∃ u, exec (.doorbellWrite st q v) s = .next u ∧ SameMemory s u ∧ (u.stall st).qd q 24 4 = v.toNat % 2 ^ 32)
    ∧ (∃ u, exec (.completionConsWrite st v) s = .next u ∧ SameMemory s u ∧ (u.stall st).ccons = lo32 v)
    ∧ (q < 64 → off < 32 → off % 8 = 0 → exec (.queueDescriptorWrite st q off v) s =
        .next ((s.noteMgmt st (0x2000 + 32 * q + off) 8).writeQdesc st (32 * q + off) v))
    ∧ (((s.stall st).queue q).abort = false → exec (.queueAbort st q) s = .next s)
    ∧ (((s.stall st).queue q).abort = true → (s.stall st).open' q = [] → s.passes = [] → q < 64 → ∃ u,
        exec (.queueAbort st q) s = .next u ∧ SameMemory s u ∧ ((u.stall st).queue q).abort = false
        ∧ ((u.stall st).queue q).openPass = none ∧ (u.stall st).qd q 22 1 = (s.stall st).qd q 22 1)
    ∧ (q < 64 → v.getLsbD 49 = true → ∃ u, exec (.queueDescriptorWrite st q 16 v) s = .next u ∧ SameMemory s u
        ∧ ((u.stall st).queue q).abort = true ∧ (u.stall st).qd q 22 1 % 2 = 0))
  ∧ (∀ (s : State) (st i : Nat) (e : Entry), (s.stall st).startable i 6 = some e →
    let found := (s.stall st).outRecs.find? fun r => r.rseq.toNat = sliceNum e.bytes 16 4
    (found = none → exec (.reply st i) s = .next (s.entryEnds st e.id 0 0))
    ∧ (∀ r, found = some r → r.kind ≠ 2 → s.supWaits st = true → exec (.reply st i) s = .next (s.askSup st))
    ∧ (∀ r, found = some r → r.kind = 2 → exec (.reply st i) s = .next ((s.answered st r.rseq.toNat).entryEnds st e.id 0 0))
    ∧ (∀ r b k, found = some r → r.kind = 1 → s.findBlock st r.launch r.index = some (b, k) → k.halt.phase = .halted →
        (s.stall st).supOn = false →
        (sliceNum e.bytes 20 1 = 0 → exec (.reply st i) s =
          .next (((s.resumeGang b false).answered st r.rseq.toNat).entryEnds st e.id 0 0))
        ∧ (sliceNum e.bytes 20 1 = 1 → exec (.reply st i) s =
          .next (((s.resumeGang b true).answered st r.rseq.toNat).entryEnds st e.id 0 0))
        ∧ (sliceNum e.bytes 20 1 = 2 → exec (.reply st i) s = .next ((s.saveGang b true true false).entryEnds st e.id 0 0))
        ∧ (sliceNum e.bytes 20 1 = 3 → exec (.reply st i) s =
          .next (((s.abortLaunch st k.launch 0x0400 k.halt.cause).answered st r.rseq.toNat).entryEnds st e.id 0 0))
        ∧ (sliceNum e.bytes 20 1 = 5 → exec (.reply st i) s =
          .next (((s.saveGang b false false false).answered st r.rseq.toNat).entryEnds st e.id 0 0))))

/-- R371, R374, R377, R379, R384, R385, R387, R394: a PASS opens its pass, a DRAW starts and ends once its groups are culled, a PASSEND
tells the members and ends once they are done, an aborted pass's writes performed too; a group goes to the member with the fewest; each
raster message reaches its member; a group retires with its last report; the frontier moves in order, a finished result is applied, and an
abort clears the pass. What waits for a line of device memory asks for it (R274, log 25). -/
def Obligations.RasterPassesRunInOrder : Prop :=
  (∀ (s : State) (st i : Nat) (e : Entry), (s.stall st).startable i 0x10 = some e → ∃ p,
    exec (.pass st i) s = .next (State.entryEnds { s with passes := s.passes ++ [p] } st e.id 0 0)
    ∧ (p.market, p.dealer, p.queue, p.entry, p.prio) = (pdMarket (sliceBytes e.bytes 64 256), st, e.q, e.id, e.prio)
    ∧ p.desc = sliceBytes e.bytes 64 256 ∧ p.owners = sliceBytes e.bytes 320 256 ∧ p.pcard = sliceBytes e.bytes 576 64
    ∧ p.draws = [] ∧ p.groups = [] ∧ p.aborted = none ∧ p.members.map (·.1) = s.members p.market)
  ∧ (∀ (s : State) (st i : Nat) (e : Entry) (p : Pass), (s.stall st).entries[i]? = some e → s.passOf e = some p →
    (e.ty = 0x11 → e.st = .running →
      exec (.draw st i) s = .next (if p.drawDone e.id then s.rasterEntryEnds p e.id else s))
    ∧ (e.ty = 0x11 → e.st ≠ .running → (s.stall st).startable i 0x11 = some e →
      exec (.draw st i) s = .next (if p.aborted.isSome then s.rasterEntryEnds p e.id
        else match s.drawCode st e with
          | some c => s.askFor st c
          | none => s.startDraw st p e))
    ∧ (e.ty = 0x12 → e.st ≠ .running → (s.stall st).startable i 0x12 = some e →
      exec (.passend st i) s = .next (s.setEntry st e.id fun e => { e with st := .running }))
    ∧ (e.ty = 0x12 → e.st = .running → p.endSent = false → p.aborted = none →
      (p.dealt = false → exec (.passend st i) s = .next s)
      ∧ (p.dealt = true → s.passes = [p] → exec (.passend st i) s = .next { s with
          prims := s.prims ++ (s.members p.market).map fun x => .passEnd p.market p.draws.length x
          passes := [{ p with endSent := true }] }))
    ∧ (e.ty = 0x12 → e.st = .running → p.endSent = true ∨ p.aborted.isSome = true →
      (∀ x ∈ (s.stall st).entries, x.q = e.q → x.ty = 0x11 → x.id < e.id → x.over = true) → p.members.all (s.memberDone p) = true →
      exec (.passend st i) s = .next (s.rasterEntryEnds p e.id)))
  ∧ (∀ (s : State) (st x n g : Nat) (p : Pass) (d : Draw), s.passes = [p] → p.dealer = st → p.aborted = none → p.groups.length < 64 →
    p.nextGroup = some (n, d, g) → s.pickMember p = some x →
    (s.cardWaits x d.mcard none = true → exec (.groupDeal st) s = .next (s.askCard x d.mcard none))
    ∧ (s.cardWaits x d.mcard none = false → ∃ u, exec (.groupDeal st) s = .next u ∧ SameMemory s u
      ∧ u.passes.map (fun p => p.groups.map fun y => (y.token, y.stall))
          = [p.groups.map (fun y => (y.token, y.stall)) ++ [(n * 2 ^ 24 + g, x)]]))
  ∧ (∀ (s : State) (i m : Nat) (p : Pass) (dst : Nat) (x : Member), s.passes = [p] → p.market = m → Tab.find? p.members dst = some x →
    let got (t : State) (y : Member) := t.prims = s.prims.eraseIdx i ∧ (t.passes.map fun p => Tab.find? p.members dst) = [some y]
    (∀ d n, s.prims[i]? = some (.drawStart m d n dst) → ∃ t, exec (.drawStart i) s = .next t ∧ SameMemory s t
        ∧ got t { x with starts := x.starts.put d n })
    ∧ (∀ k, s.prims[i]? = some (.packet m k) → k.owner = dst → ∃ t, exec (.primitivePacket i) s = .next t ∧ SameMemory s t
        ∧ got t { x with packets := x.packets ++ [k] })
    ∧ (∀ tok n src, s.prims[i]? = some (.done m tok n dst src) → ∃ t, exec (.done i) s = .next t ∧ SameMemory s t
        ∧ got t { x with dones := x.dones ++ [(tok, n)] })
    ∧ (∀ n, s.prims[i]? = some (.passEnd m n dst) → ∃ t, exec (.passEnd i) s = .next t ∧ SameMemory s t
        ∧ got t { x with ended := some n })
    ∧ (∀ tok g, s.prims[i]? = some (.retired m tok dst) → p.groups = [g] → g.token = tok → ∃ t, exec (.groupRetire i) s = .next t
        ∧ SameMemory s t ∧ t.passes.map (·.groups)
          = [if g.waiting.erase dst = [] then [] else [{ g with waiting := g.waiting.erase dst }]]))
  ∧ (∀ (s : State) (st : Nat) (p : Pass) (m : Member), s.passes = [p] → p.aborted = none → Tab.find? p.members st = some m →
    let m' := m.skipDraws (m.starts.length + 1)
    (∀ tok, m'.ready = some tok → exec (.frontierRelease st) s = .next (s.releaseGroup st p m' tok))
    ∧ (m'.ready = none → m'.fdraw = m.fdraw → exec (.frontierRelease st) s = .next s)
    ∧ (m'.ready = none → m'.fdraw ≠ m.fdraw → exec (.frontierRelease st) s =
        .next (s.modMember p.market st fun x => { x with fdraw := m'.fdraw, fgroup := m'.fgroup }))
    ∧ (∀ r rest, m.shaded = r :: rest →
      (r.ready = false → exec (.backEndApply st) s = .next s)
      ∧ (r.ready = true →
        let u := s.modMember p.market st fun x => { x with shaded := x.shaded.drop 1 }
        (∀ e, u.applyShaded st p.desc r = .error e → exec (.backEndApply st) s = .next (if isWait e then s.askFor st e else u.failPass p.market e))
        ∧ (∀ v, u.applyShaded st p.desc r = .ok v →
            exec (.backEndApply st) s = .next (v.modMember p.market st fun x => { x with mark := v.nextId }))))
    ∧ (s.memberDown p = false → exec (.passAbort st) s = .next s))
  ∧ (∀ (s : State) (st : Nat) (p : Pass), s.passes = [p] → p.dealer = st → p.aborted.isSome = true ∨ s.memberDown p = true →
    ∃ u, exec (.passAbort st) s = .next u ∧ u.passes.map (fun x => (x.market, x.aborted.isSome, x.groups)) = [(p.market, true, [])])

/-! ## Halts, saves and restores -/

/-- R435 to R437, R444, R445, R449, R453, R457: a halt is complete when its blocks are at rest; its record is written to the block's slot,
little-endian, and the block waits for the host, or waits, halted, for the supervisor's file and the image's header and then enters the
supervisor at its entry with the block's context; an asynchronous cause and a job's fault halt a running block, and a job's fault whose
block has ended aborts the launch (log 57); a block that is saving and at rest is saved and leaves its core; every copy and collective of a
save that has lasted 42,000 clocks stops; a saved block comes back where R457 puts it, once its image can be read (log 25). -/
def Obligations.HaltsCompleteAndBlocksAreSaved : Prop :=
  (∀ (s : State) (b : BSel) (k : Block), s.gangOf b = [(b, k)] → s.block? b = some k → k.halt.phase = .halting → k.halt.psq ≠ 0xFF →
    (k.quiet (s.stall b.stall) b = false ∨ k.settled = false → exec (.haltComplete b) s = .next s)
    ∧ (k.quiet (s.stall b.stall) b = true → k.settled = true → k.halt.toSave = false → k.halt.nest = false →
      ∀ i, k.cslot = some i → ringOn (s.stall b.stall).scring = true → causeClass k.halt.cause ≠ .fatal →
        ∃ t, exec (.haltComplete b) s = .next t ∧ t.mem = s.mem
          ∧ (t.block? b).map (fun x => (x.halt.cause, x.halt.halts)) = some (k.halt.cause, (k.halt.halts + 1) % 2 ^ 32)
          ∧ (let a := s.localPa b.stall (slotAddr (s.stall b.stall).savea i)
            t.seenBytes b.stall (a + 8) 3 = [BitVec.ofNat 8 k.halt.cause, BitVec.ofNat 8 k.halt.psq, BitVec.ofNat 8 k.halt.flane]
            ∧ leNat (t.seenBytes b.stall (a + 12) 4) = (k.halt.halts + 1) % 2 ^ 32)
          ∧ (causeClass k.halt.cause ≠ .sup ∨ (s.stall b.stall).supOn = false →
            (t.block? b).map (fun x => x.halt.phase) = some .halted
            ∧ (t.stall b.stall).heldRecs.length = (s.stall b.stall).heldRecs.length + 1)))
  ∧ (∀ (s : State) (b : BSel) (k : Block), s.block? b = some k → k.halt.phase = .toSup → k.halt.nest = false →
    causeClass k.halt.cause = .sup →
    (s.supWaits b.stall = true → exec (.haltComplete b) s = .next (s.askSup b.stall))
    ∧ (s.supWaits b.stall = false → let u := s.supRead b.stall
      ∀ e, u.haltWay b k = .supervisor e →
        ((u.core b.stall b.core).supFree (k.halt.psq % 4) = false → exec (.haltComplete b) s = .next u)
        ∧ ((u.core b.stall b.core).supFree (k.halt.psq % 4) = true → ∀ sq, Tab.find? k.squads k.halt.psq = some sq → sq.sup = false →
          ∃ t, exec (.haltComplete b) s = .next t ∧ (t.block? b).map (fun x => x.halt.phase) = some .inSup
            ∧ (t.squad? ⟨b.stall, b.core, b.pos, k.halt.psq⟩).map (fun x => (x.sup, x.pc)) = some (true, e))))
  ∧ (∀ (s : State) (b : BSel) (k : Block), s.block? b = some k →
    (∀ c cs, k.halt.phase = .run → k.halt.pendJob = [] → k.halt.pendAsync = c :: cs → exec (.asyncCauseDelivery b) s =
        .next ((s.modBlock b fun k => { k with halt := { k.halt with pendAsync := cs } }).haltBlock b c))
    ∧ (k.halt.phase ≠ .run ∨ k.halt.pendAsync = [] → exec (.asyncCauseDelivery b) s = .next s)
    ∧ (∀ j js, b.pos < 16 → k.halt.phase = .run → k.halt.pendJob = j :: js → exec (.jobFault b) s =
        .next ((s.modBlock b Block.takeJob).haltBlock b j.cause))
    ∧ (b.pos < 16 → k.halt.phase ≠ .run ∨ k.halt.pendJob = [] → exec (.jobFault b) s = .next s)
    ∧ (∀ j js, 16 ≤ b.pos → k.halt.pendJob = j :: js → exec (.jobFault b) s = .next (s.abortLaunch b.stall k.launch 0x0400 j.cause)))
  ∧ (∀ (s : State) (b : BSel) (k : Block), s.gangOf b = [(b, k)] → s.block? b = some k →
    (k.halt.phase ≠ .saving → exec (.blockSave b) s = .next s ∧ exec (.saveTimeout b) s = .next s)
    ∧ (k.halt.phase = .saving → k.halt.pendJob ≠ [] → exec (.blockSave b) s = .next (s.abandonSave b))
    ∧ (k.halt.phase = .saving → k.halt.pendJob = [] → s.saveReady b k = false → exec (.blockSave b) s = .next s)
    ∧ (∀ i, b.pos < 16 → k.halt.phase = .saving → k.halt.pendJob = [] → s.saveReady b k = true → k.cslot = some i → ∃ t,
        exec (.blockSave b) s = .next t ∧ t.block? b = none
        ∧ (t.stall b.stall).saved.map (fun v => (v.launch, v.index, v.cslot))
            = (s.stall b.stall).saved.map (fun v => (v.launch, v.index, v.cslot)) ++ [(k.launch, k.index, i)])
    ∧ ((s.stall b.stall).clock < k.halt.saveFrom + 42000 → exec (.saveTimeout b) s = .next s)
    ∧ (k.halt.phase = .saving → k.halt.saveFrom + 42000 ≤ (s.stall b.stall).clock → ∃ t, exec (.saveTimeout b) s = .next t
        ∧ (t.core b.stall b.core).copies.all (fun j => j.pos ≠ some b.pos) = true
        ∧ (t.stall b.stall).colls.all (fun j => j.core ≠ b.core || j.pos ≠ b.pos || j.result.isSome) = true))
  ∧ (∀ (s : State) (st slot core : Nat) (l : Launch) (ps : List (Saved × Nat)), (s.stall st).nextLaunch = some l →
    (s.stall st).pausePlace = false → (∀ i, l.evicted.head? = some i → (s.stall st).evictsFor l.id i = false) →
    (s.stall st).restorePicks l = some ps →
    exec (.blockRestore st slot core) s = .next (if ps.any fun x => x.1.cslot = slot && x.2 = core then
      (if ps.all fun x => s.imageReady st l.kern x.1 then ps.foldl (fun s x => (s.restoreOne st l x.1 x.2).imageRead st l.kern x.1) s
        else ps.foldl (fun s x => s.imageAsk st l.kern x.1) s) else s))

/-! ## The management page and the tables -/

/-- R23, R28, R29, R33, R35, R93, R164, R251, R258, R260, R325, R333, R376, R443, R7: what each register write of the supervisor and the
host does, and when it is ignored; a watch of its line sees it either way (R206). A write of an export entry is buffered and counts when it
is performed (R295). The finaliser's reads wait for their lines and ask for them (log 25). -/
def Obligations.RegisterWritesTakeEffectOrAreIgnored : Prop :=
  (∀ (s : State) (st : Nat) (v : DWord), let t := s.stall st
    let sets (i : Instr) (off : Nat) : Prop := ∃ u, exec i s = .next u ∧ SameMemory s u ∧ u.mgmtWord st off = v
    let kept (i : Instr) (off : Nat) : Prop := exec i s = .next (s.noteMgmt st off 8)
    ((t.blocks st).isEmpty = true → sets (.cspillWrite st v) 0x400)
    ∧ ((t.blocks st).isEmpty = false → kept (.cspillWrite st v) 0x400 ∧ kept (.saveaWrite st v) 0x468)
    ∧ ((t.blocks st).isEmpty = true → t.saved = [] → sets (.saveaWrite st v) 0x468)
    ∧ (s.passes = [] → sets (.rspillWrite st v) 0x458)
    ∧ (t.early = [] → sets (.mspillWrite st v) 0x4A8) ∧ (t.early ≠ [] → kept (.mspillWrite st v) 0x4A8)
    ∧ (field v 63 53 ≤ 1024 → t.launches = [] → ∃ u, exec (.codeaWrite st v) s = .next u ∧ u.mgmtWord st 0x4B0 = v ∧ (u.stall st).code = [])
    ∧ (1024 < field v 63 53 → kept (.codeaWrite st v) 0x4B0)
    ∧ (12 < field v 3 0 → kept (.stockWrite st v) 0x410)
    ∧ (field v 3 0 ≤ 12 → ∃ u, exec (.stockWrite st v) s = .next u ∧ u.mgmtWord st 0x410 = v
        ∧ ∀ a, let base := s.localPa st stockBase
            let ways := (field t.stock 3 0 * 32 * 2 ^ 20, field v 3 0 * 32 * 2 ^ 20)
            u.mem.rd a = if base + min ways.1 ways.2 ≤ a ∧ a < base + max ways.1 ways.2 then 0 else s.mem.rd a)
    ∧ (128 < field v 63 56 → kept (.exptWrite st v) 0x4A0)
    ∧ (sets (.registerWrite st 0x440 v) 0x440) ∧ (sets (.registerWrite st 0x460 v) 0x460)
    ∧ kept (.registerWrite st 0x430 v) 0x430)
  ∧ (∀ (s : State) (st : Nat) (v : DWord), (s.stall st).shoots = [] → (s.stall st).revokes = [] →
    (∃ u p, exec (.trootWrite st v) s = .next u ∧ SameMemory s u ∧ (u.stall st).troot = (s.stall st).troot
      ∧ exec (.shootdownComplete st) u = .next p ∧ SameMemory s p ∧ (p.stall st).tlb = []
      ∧ ((p.stall st).drained (s.nextId + 1) = true → ∃ x, exec (.shootdownComplete st) p = .next x
          ∧ x.mgmtWord st 0x408 = v ∧ (x.stall st).tlb = [] ∧ (x.stall st).shoots = []))
    ∧ (∃ u, exec (.tshootWrite st 0x420 v) s = .next u ∧ SameMemory s u ∧ u.mgmtWord st 0x420 = v)
    ∧ (∃ u, exec (.tshootWrite st 0x428 v) s = .next u ∧ SameMemory s u ∧ (u.mgmtWord st 0x428).getLsbD 63 = true
      ∧ ∀ off w, exec (.tshootWrite st off w) u = .next (if off = 0x420 ∨ off = 0x428 then u.noteMgmt st off 8 else u))
    ∧ (field v 63 56 ≤ 128 → ∃ u p, exec (.exptWrite st v) s = .next u ∧ SameMemory s u ∧ (u.stall st).expt = (s.stall st).expt
      ∧ exec (.revocationComplete st) u = .next p ∧ SameMemory s p ∧ (p.stall st).sharers = []
      ∧ ((∀ n < 64, (p.stall n).drained (s.nextId + 1) = true) → ∃ x, exec (.revocationComplete st) p = .next x
          ∧ x.mgmtWord st 0x4A0 = v ∧ (x.stall st).revokes = [])))
  ∧ (∀ (s : State) (st : Nat) (x : Shoot) (rest : List Shoot), (s.stall st).shoots = x :: rest →
    (x.purged = false → ∃ u, exec (.shootdownComplete st) s = .next u ∧ SameMemory s u
        ∧ (u.stall st).tlb = (s.stall st).tlb.filter (fun e => !x.meets e)
        ∧ (u.stall st).shoots = { x with purged := true, upto := s.nextId } :: rest)
    ∧ (x.purged = true → (s.stall st).drained x.upto = false → exec (.shootdownComplete st) s = .next s)
    ∧ (x.purged = true → (s.stall st).drained x.upto = true → ∃ u, exec (.shootdownComplete st) s = .next u ∧ SameMemory s u
        ∧ (u.stall st).shoots = rest ∧ (u.stall st).troot = x.troot.getD (s.stall st).troot))
  ∧ (∀ (s : State) (st i off : Nat) (v : DWord), off < 32 → off % 8 = 0 →
    let ex := (s.stall st).expt
    let a := s.localPa st (field ex 40 16 * 65536 + 32 * i)
    s.stallAt (s.siteOf st) = some st → field ex 40 16 * 65536 + 65536 * field ex 63 56 ≤ 2 ^ 41 →
    (2048 * field ex 63 56 ≤ i → exec (.exportRevoke st i off v) s = .next s)
    -- the write is buffered, and counts when it is performed
    ∧ (i < 2048 * field ex 63 56 → ∃ u, exec (.exportRevoke st i off v) s = .next u ∧ SameMemory s u
        ∧ u.seenBytes st (a + off) 8 = leBytes 8 v.toNat)
    ∧ (i < 2048 * field ex 63 56 → off ≠ 8 → s.mem.num (a + 12) 1 / 8 % 2 = 0 →
        (s.performWriteOf (some st) (a + off) (leBytes 8 v.toNat)).mem = s.mem.wrs (a + off) (leBytes 8 v.toNat))
    ∧ (i < 2048 * field ex 63 56 → s.mem.num (a + 13) 1 = 255 → field v 47 40 = 0 →
        let u := s.performWriteOf (some st) (a + 8) (leBytes 8 v.toNat)
        u.mem.num (a + 13) 1 = 255 ∧ u.mem.num (a + 12) 1 / 4 % 4 = 2))
  ∧ (∀ (s : State) (st i : Nat) (old new : DWord), let cur := Tab.get 0 (s.stall st).crt i
    let ok := i < 48 ∧ old = cur ∧ field new 63 48 = (field cur 63 48 + 1) % 65536 ∧ field new 5 0 < 54 ∧ field new 5 0 / 9 = i / 8
      ∧ (∀ k, k < 48 → k ≠ i → (Tab.get 0 (s.stall st).crt k).getLsbD 15 = true → field (Tab.get 0 (s.stall st).crt k) 5 0 ≠ field new 5 0)
      ∧ (new.getLsbD 15 = true → st * 64 + field new 5 0 ∉ s.retired)
    ∃ u, exec (.crtCas st i old new) s = .next u ∧ SameMemory s u
      ∧ (ok → ∀ k, Tab.get 0 (u.stall st).crt k = if k = i then new else Tab.get 0 (s.stall st).crt k) ∧ (¬ ok → u = s))
  ∧ (∀ (s : State) (i : Nat) (mask : DWord) (ctl : Word), let old := Tab.get ((0 : DWord), (0 : Word)) s.market i
    (16 ≤ i ∨ old.2.getLsbD 30 = true → exec (.marketTableWrite i mask ctl) s = .next s)
    ∧ (ctl.getLsbD 31 = true → mask = 0 → exec (.marketTableWrite i mask ctl) s = .next s)
    ∧ (i < 16 → old.2.getLsbD 30 = false → (ctl.getLsbD 31 = true → mask ≠ 0 ∧ s.fifthMarket i mask = false) → ∃ u,
        exec (.marketTableWrite i mask ctl) s = .next u ∧ SameMemory s u ∧
        let e := Tab.get ((0 : DWord), (0 : Word)) u.market i
        e.1 = mask ∧ e.2.getLsbD 31 = ctl.getLsbD 31 ∧ e.2.getLsbD 30 = false
        ∧ (e.2.extractLsb' 16 8) = (old.2.extractLsb' 16 8) + 1))
  ∧ (∀ (s : State) (st i off : Nat) (v : DWord),
    (i < 64 → off < 32 → off % 8 = 0 → exec (.collGroupWrite st i off v) s =
        .next ((s.noteMgmt st (0x1000 + 32 * i + off) 8).writeColl st (32 * i + off) v))
    ∧ (64 ≤ i → exec (.collGroupWrite st i off v) s = .next s))
  ∧ (∀ (s : State) (st i : Nat) (l : Launch), (s.stall st).launches[i]? = some l →
    (l.fin = false → exec (.finaliserRun st i) s = .next s)
    ∧ (∀ c, l.fin = true → s.kheadAt st l.kern.kaddr = .error c →
        exec (.finaliserRun st i) s = .next (if isWait c then s.askFor st c else s.launchRefused st l.id 0x0209))
    ∧ (∀ h img, l.fin = true → s.kheadAt st l.kern.kaddr = .ok h → s.imageAt st l.kern.kaddr h = .ok img →
      let u := s.imageTouch st l.kern.kaddr.toNat (khSize h) (pagesOf (khSize h))
      (∀ e, (u.stall st).codeFind (shake256 img) (u.finVersion st) = some e →
        exec (.finaliserRun st i) s = .next (u.launchArea st l.id e.addr))
      ∧ (∀ c, (u.stall st).codeFind (shake256 img) (u.finVersion st) = none → finalise h img = .error c →
        exec (.finaliserRun st i) s = .next (u.launchRefused st l.id (0x0100 + c)))
      ∧ (∀ native a t, (u.stall st).codeFind (shake256 img) (u.finVersion st) = none → finalise h img = .ok native →
        ((u.stall st).codeMoves (u.finVersion st) native.length).all (fun e => u.readableAt st (u.localPa st e.addr) e.size) = true →
        u.storeCode st (shake256 img) (u.finVersion st) native = (some a, t) →
        exec (.finaliserRun st i) s = .next (t.launchArea st l.id a))))

/-! ## The package: boot, links, errors, power and what reaches it from outside -/

/-- R25, R189, R264 to R266, R293, R318, R319, R340, R469: a host read answers the bytes, and of a lost line none of them; a host or peer
write reaches a line once its home holds every token; an uncorrectable error loses its line or its granule; the
counter of correctable errors rises, and one past its limit gives the block 0x2C; a pad error keeps its clock, and a window's end clears
the counter; ports and planes go down and up. -/
def Obligations.OutsideAccessesAndErrorsAreHandled : Prop :=
  (∀ (s : State) (io : Bool) (pa n : Nat),
    (s.devRange pa n = false → exec (.hostRead io pa n) s = .next { s with answer := .none }
      ∧ exec (.externalPeerAccess pa [] n) s = .next { s with answer := .none })
    ∧ (s.devRange pa n = true → s.lostLines pa n = [] → exec (.hostRead io pa n) s = .next { s with answer := .data (s.mem.rds pa n) }
      ∧ exec (.externalPeerAccess pa [] n) s = .next { s with answer := .data (s.mem.rds pa n) })
    ∧ (s.devRange pa n = true → s.lostLines pa n ≠ [] →
      (∃ t, exec (.hostRead true pa n) s = .next t ∧ t.answer = .abort ∧ SameMemory s t)
      ∧ (∃ t bs, exec (.hostRead false pa n) s = .next t ∧ t.answer = .poison bs ∧ SameMemory s t
          ∧ ∀ i, i < n → (pa + i) / 64 ∈ s.lostLines pa n → bs[i]? = some 0)
      ∧ exec (.externalPeerAccess pa [] n) s = .next { s with answer := .abort }))
  ∧ (∀ (s : State) (pa : Nat) (bs : List Byte) (i : Instr), (i = .hostWrite pa bs ∨ ∃ n, i = .externalPeerAccess pa bs n) → bs ≠ [] →
    (s.devRange pa bs.length = false → exec i s = .next s)
    ∧ (s.devRange pa bs.length = true → pa % 64 + bs.length ≤ 64 → s.inbound = [] → (s.homeLine (pa / 64)).t = 64 →
        s.exportsAt pa bs.length = [] → ∃ t, exec i s = .next t ∧ t.mem = s.mem.wrs pa bs ∧ t.inbound = [])
    ∧ (s.devRange pa bs.length = true → pa % 64 + bs.length ≤ 64 → s.inbound = [] → (s.homeLine (pa / 64)).t ≠ 64 → ∃ t,
        exec i s = .next t ∧ SameMemory s t ∧ t.inbound = [(pa, bs)]))
  ∧ (∀ (s : State) (pa g : Nat) (b : BSel) (k : Block), s.block? b = some k →
    (s.devRange (pa / 64 * 64) 64 = true → ∃ t, exec (.uncorrectableError (.mem pa)) s = .next t ∧ SameMemory s t
      ∧ (Tab.find? t.lost (pa / 64)).isSome = true)
    ∧ (8 * g + 8 ≤ k.kern.pad → ∃ t, exec (.uncorrectableError (.pad b g)) s = .next t ∧ SameMemory s t
      ∧ (t.block? b).map (fun x => x.padBad.contains g) = some true)
    ∧ (8 * g + 8 ≤ k.kern.am → ∃ t, exec (.uncorrectableError (.am b g)) s = .next t ∧ SameMemory s t
      ∧ (t.block? b).map (fun x => x.amBad.contains g) = some true))
  ∧ (∀ (s : State) (st core p : Nat) (k : Block), (s.core st core).off = false → s.block? ⟨st, core, p⟩ = some k →
    let t := s.stall st
    let limit := field (t.ceRest.zeroExtend 64) 15 0
    (limit = 0 ∨ (t.ceCount + 1).toNat ≠ limit + 1 → ∃ u, exec (.correctableError st core false (some p)) s = .next u
      ∧ SameMemory s u ∧ (u.stall st).ceCount = t.ceCount + 1 ∧ (u.block? ⟨st, core, p⟩).map (·.halt) = some k.halt)
    ∧ (limit ≠ 0 → (t.ceCount + 1).toNat = limit + 1 → ∃ u, exec (.correctableError st core false (some p)) s = .next u
      ∧ (u.block? ⟨st, core, p⟩).map (·.halt.pendAsync) = some (k.halt.pendAsync ++ [0x2C]))
    ∧ (limit = 0 → (t.core core).ceTimes = [] → ∃ u, exec (.correctableError st core true (some p)) s = .next u
      ∧ (u.core st core).ceTimes = [t.osc] ∧ (u.core st core).retst = (t.core core).retst)
    ∧ (∃ u, exec (.ceWindowEnd st) s = .next u ∧ SameMemory s u ∧ (u.stall st).ceCount = 0))
  ∧ (∀ (s : State) (p pkg : Nat),
    (p < s.hostUp.length → (∃ t, exec (.hostPortLinkFailure p) s = .next t ∧ SameMemory s t ∧ t.hostUp[p]? = some false)
      ∧ (∃ t, exec (.hostPortLinkRestore p) s = .next t ∧ SameMemory s t ∧ t.hostUp[p]? = some true))
    ∧ (p < 32 → ∃ t, exec (.scalePortFailure p) s = .next t ∧ SameMemory s t ∧ ∀ q, q ∈ t.scaleDown ↔ q = p ∨ q ∈ s.scaleDown)
    ∧ (∃ t, exec (.scalePortRestore p) s = .next t ∧ SameMemory s t ∧ ∀ q, q ∈ t.scaleDown ↔ q ≠ p ∧ q ∈ s.scaleDown)
    ∧ (pkg < 512 → ∃ t, exec (.switchPlaneSetup pkg) s = .next t ∧ SameMemory s t ∧ t.mgmtWord 0 0x430 = BitVec.ofNat 64 (512 + pkg))
    ∧ (512 ≤ pkg → exec (.switchPlaneSetup pkg) s = .next s))

/-- R13 to R17, R20, R327, R465 to R468, R471, R473 to R477: boot where no site fails gives stall n the site 9 (n / 8) + n mod 8, and runs once; a
firmware image goes into the inactive slot, and one that verifies is switched to; the floor never falls; an attestation request is answered, in the
message formats that log 7 presumes; a failed lane takes the redundant one, which leaves the edge at half width once none is left, and a
failed edge leaves the map; a retiring core is swapped for its spare or out of service, by a swap that R23 accepts, and MIG clears after the
swap; a move of a stall with no block marks the entry as migrating and pauses placement (log 19); the cap and the step stay in their ranges; a lost stall's entry reads 0b11. -/
def Obligations.PackageServicesFollowTheirRules : Prop :=
  (∀ (s : State) (bad edges : List Nat), (s.site ≠ [] → exec (.boot bad edges) s = .next s)
    ∧ (s.site = [] → s.firm = [] → s.floors = [] → bad = [] → ∃ t, exec (.boot bad edges) s = .next t ∧ SameMemory s t
        ∧ ∀ st, st < 64 → Tab.get 0 t.site st = BitVec.ofNat 32 (2 ^ 14 + (9 * (st / 8) + st % 8))))
  ∧ (∀ (s : State) (site kind : Nat) (img : List Byte) (v : Word), site < 72 → kind < 3 → img ≠ [] →
    let f := s.firmOf site kind
    (∃ t, exec (.firmwareUpdate site kind img) s = .next t ∧ SameMemory s t
      ∧ t.firmOf site kind = (if f.bActive then { f with a := img } else { f with b := img })
      ∧ if imageOk img (Tab.get 0 s.floors site) = true then (site, kind) ∈ t.pendFirm
        else t.pendFirm = s.pendFirm.erase (site, kind))
    ∧ ((site, kind) ∉ s.pendFirm → exec (.firmwareSwitch site kind) s = .next s)
    ∧ ((site, kind) ∈ s.pendFirm → kind ≠ 2 → ∃ t, exec (.firmwareSwitch site kind) s = .next t ∧ SameMemory s t
      ∧ t.firmOf site kind = { f with bActive := !f.bActive } ∧ t.pendFirm = s.pendFirm.erase (site, kind))
    ∧ ∃ t, exec (.rollbackFloorRaise site v) s = .next t ∧ SameMemory s t
        ∧ (Tab.get 0 t.floors site).toNat = max (Tab.get 0 s.floors site).toNat v.toNat)
  ∧ (∀ (s : State) (fn : Nat) (req : List Byte), (64 < fn → ∃ t, exec (.spdmRequest fn req) s = .next t ∧ SameMemory s t ∧ t.answer = .none)
    ∧ (fn ≤ 64 → ∃ t bs, exec (.spdmRequest fn req) s = .next t ∧ SameMemory s t ∧ t.answer = .data bs
      ∧ let c := s.conn fn
        let code := sliceNum req 1 1
        let op := sliceNum req 3 1
        (spdmBytes code (sliceNum req 2 1) = none → bs = [0x12, 0x7F, 0x07, BitVec.ofNat 8 code] ∧ t.conn fn = c)
        ∧ (4 ≤ req.length → code = 0x84 → sliceNum req 0 1 = 0x10 → bs = [0x10, 0x04, 0, 0, 0, 1, 0x00, 0x12] ∧ (t.conn fn).stage = 1)
        ∧ (4 ≤ req.length → code = 0xE0 → sliceNum req 0 1 = 0x12 → sliceNum req 2 1 = 0 → 1 ≤ op → op ≤ 11 →
          (c.stage = 3 → let r := s.measure fn op; bs.take (8 + r.length) = [0x12, 0x60, 0, 0, 1] ++ leBytes 3 r.length ++ r)
          ∧ (c.stage ≠ 3 → bs = [0x12, 0x7F, 0x04, 0]))
        ∧ (36 ≤ req.length → code = 0x83 → sliceNum req 0 1 = 0x12 → sliceNum req 2 1 = 0 → op = 0 → c.stage = 3 → ∃ m,
          bs = m ++ Config.ed448Sign (s.keyOf fn).secret
            (signedBytes "responder-challenge_auth signing" (c.opening ++ c.certs ++ req ++ m)))))
  ∧ (∀ (s : State) (e : Nat) (bad : List Nat), e < 127 → mapBit s.edge e = true → let x := Tab.get (⟨1, false⟩ : EdgeSt) s.edges e
    (∃ t, exec (.laneRecalibration e bad) s = .next t ∧ SameMemory s t
      ∧ Tab.get (⟨1, false⟩ : EdgeSt) t.edges e = ⟨x.spares - (nub bad).length, x.half || decide (x.spares ≤ (nub bad).length)⟩)
    ∧ (∃ t, exec (.edgeFailure e) s = .next t ∧ SameMemory s t ∧ mapBit t.edge e = false))
  ∧ (∀ (s : State) (st core site w step : Nat), let t := s.stall st
    ((∀ c, c < 54 → field ((t.core c).retst.zeroExtend 64) 31 30 ≠ 1) → exec (.dmcRetireSwap st) s = .next s)
    ∧ (∀ c l sp, c < 54 → (t.core c).retst = BitVec.ofNat 32 (2 ^ 30 + sp * 2 ^ 16 + l * 2 ^ 8 + c) → l < 48 → sp < 64 →
        (∀ d, d < 54 → d ≠ c → field ((t.core d).retst.zeroExtend 64) 31 30 ≠ 1) → (t.core c).off = false → (t.core c).blocks = [] →
        field (Tab.get 0 t.crt l) 5 0 = c → (Tab.get 0 t.crt l).getLsbD 15 = true →
        let new : DWord := BitVec.ofNat 64 ((field (Tab.get 0 t.crt l) 63 48 + 1) % 65536 * 2 ^ 48 + if sp = 63 then c else 0xC000 + sp)
        (s.crtOk st l (Tab.get 0 t.crt l) new = true → ∃ u, exec (.dmcRetireSwap st) s = .next u ∧ SameMemory s u
          ∧ Tab.get 0 (u.stall st).crt l = new)
        ∧ (s.crtOk st l (Tab.get 0 t.crt l) new = false → exec (.dmcRetireSwap st) s = .next s))
    ∧ ((Tab.get 0 t.crt core).getLsbD 14 = true → (s.retireHeld st core = true ∨ t.retiring core = none
          ∨ t.retiring core = some (field (Tab.get 0 t.crt core) 5 0)) → exec (.migClear st core) s = .next s)
    ∧ (∀ c, (Tab.get 0 t.crt core).getLsbD 14 = true → t.retiring core = some c → c ≠ field (Tab.get 0 t.crt core) 5 0 →
        s.retireHeld st core = false → t.migbuf = [] → ∃ u, exec (.migClear st core) s = .next u ∧ SameMemory s u
        ∧ (Tab.get 0 (u.stall st).crt core).getLsbD 14 = false
        ∧ (Tab.get 0 (u.stall st).crt core).getLsbD 15 = (Tab.get 0 t.crt core).getLsbD 15
        ∧ field (Tab.get 0 (u.stall st).crt core) 63 48 = (field (Tab.get 0 t.crt core) 63 48 + 1) % 65536
        ∧ field (Tab.get 0 (u.stall st).crt core) 5 0 = field (Tab.get 0 t.crt core) 5 0)
    ∧ (s.spareSite site = false → exec (.stallMove st site) s = .next s)
    ∧ (s.spareSite site = true → s.siteState st = 1 → (t.blocks st).isEmpty = true → ∃ u, exec (.stallMove st site) s = .next u ∧ SameMemory s u
        ∧ u.siteState st = 2 ∧ u.siteOf st = s.siteOf st ∧ (u.stall st).pausePlace = true)
    ∧ (∃ u, exec (.powerCapSet w) s = .next u ∧ SameMemory s u ∧ u.powerCap = if 4000 ≤ w ∧ w ≤ 21800 then w else s.powerCap)
    ∧ (∃ u, exec (.powerStepChange st step) s = .next u ∧ SameMemory s u
        ∧ field (u.stall st).pwr 7 4 = if step < 4 ∧ field t.pwr 1 0 ≤ step then step else field t.pwr 7 4)
    ∧ (s.siteState st = 1 ∨ s.siteState st = 2 → ∃ u, exec (.stallLost st) s = .next u ∧ SameMemory s u ∧ u.siteState st = 3)
    ∧ (∃ u, exec (.stallReset st) s = .next u
        ∧ (∀ c, c < 54 → u.core st c = { Core.reset with off := s.retired.contains (st * 64 + c) }) ∧ (u.stall st).launches = [] ∧ (u.stall st).entries = []
        ∧ (u.stall st).dc = t.dc
        ∧ ∀ a, s.localPa st stockBase ≤ a → a < s.localPa st stockBase + t.stockSize → u.mem.rd a = 0))

/-! ## Encoding -/

/-- R62 to R76, R79 and the examples of chapters 02, 03, 08, 15: words written out from the spec's encodings decode to the instruction
they stand for; an unassigned opcode is refused by 0x01, a reserved field by 0x02. -/
def Obligations.SpecWordsDecodeAsWritten : Prop :=
  let h : Hdr := ⟨false, false, 7⟩
  decode 0x075C3060000009B9 = .ok (.movi h .n32 (.vec 6) 0x9B9)
  ∧ decode 0x079C10600009E377 = .ok (.movh h false (.vec 6) 0x9E377)
  ∧ decode 0x08DC008020304200 = .ok (.ffma h .f32 ⟨false, false, true, false, false, false, false, false, false, 0⟩ (.vec 8) (.vec 2)
      (.vec 3) (.vec 4))
  ∧ decode 0x1C1E008020000400 = .ok (.ld h .b32 .none ⟨4, 0, .plain⟩ (.vec 8) (.vec 2))
  ∧ decode 0x1C1E008020000425 = .ok (.ld h .b32 .none ⟨4, 9, .acq⟩ (.vec 8) (.vec 2))
  ∧ decode 0x255C000C80000000 = .ok (.cpy h (.sca 8))
  ∧ decode 0x281C0F0C00000000 = .ok (.menq h .zero (.sca 0))
  ∧ decode 0x381C01008C200000 = .ok (.rbox h (.vec 16) (.vec 8) (.sca 2))
  ∧ decode 0x385C1140804C6000 = .ok (.rtriW h (.vec 20) (.vec 8) (.vec 4) (.sca 6))
  ∧ decode 0x391C028300C00000 = .ok (.bmsplit h (.vec 40) (.vec 48) (.vec 12))
  ∧ decode 0x430080A0320281C0 = .ok (.pairWord false ⟨.add, 0, false, false, 4, 5⟩ ⟨.fmul, 0, false, false, 10, 7⟩)
  ∧ decode 0x0B1C000000000000 = .error 0x01 ∧ decode 0x003C001000000000 = .error 0x02 ∧ decode 0x001C001000000001 = .error 0x02

/-- R62 to R76: decoding and encoding agree. Every well-formed instruction that has a word comes back from it with every operand,
and every word that decodes is the word of the well-formed instruction it decodes to. -/
def Obligations.EncodedInstructionsDecodeBack : Prop :=
  ∀ (i : Instr) (w : DWord), (i.wf = true ∧ encode i = some w) ↔ decode w = .ok i

/-! ## Reset and the step -/

/-- R18, R21, R22, R28, R35, R93, R251, R260, R261, R275, R318, R325, R347, R376, R442, R443, R448, R469, R470, R476: the values the
spec gives for reset; and that the three memories are in their canonical form and the tables of squads and lanes in order (logs 1 and 2)
holds of the machine after reset. -/
def Obligations.ResetLeavesTheSpecValues : Prop :=
  (∀ st, st < 64 → let t := State.reset.stall st
    (∀ l, l < 48 → Tab.get 0 t.crt l = BitVec.ofNat 64 (2 ^ 15 + (9 * (l / 8) + l % 8)))
    ∧ t.mscq = 0xFFFFFFFFFFFFFFFF ∧ t.mspill = 0xD000000BF3000001
    ∧ (t.cspill, t.troot, t.stock, t.rspill, t.svec, t.savea, t.pwr, t.expt, t.codea) = (0, 0, 0, 0, 0, 0, 0, 0, 0)
    ∧ (t.tshootVa, t.tshootN, t.cring, t.crseq, t.ccons, t.scring, t.scrseq, t.sccons) = (0, 0, 0, 0, 0, 0, 0, 0)
    ∧ Tab.get 0 t.routes 0 = 0x8000000000000000 ∧ (∀ i, 0 < i → Tab.get 0 t.routes i = 0)
    ∧ (∀ c, (State.reset.core st c).retst = 0 ∧ (State.reset.core st c).blocks = []))
  ∧ (∀ n, Tab.get 0 State.reset.site n = 0) ∧ (∀ m, (Tab.get (0, 0) State.reset.market m).2 = 0) ∧ State.reset.pkg = 0
  ∧ (∀ line, (State.reset.homeLine line).t = 64 ∧ (State.reset.homeLine line).o = true)
  ∧ (Memory.wf State.reset.mem = true ∧ Memory.wf State.reset.hostMem = true ∧ Memory.wf State.reset.extMem = true) ∧ Ordered State.reset

/-- A step that starts with the turn of an issue slot runs the word of the squad picked: where the eight bytes at the place of its
PC, little-endian, decode to an instruction, the step is exec of it, in the state with the squad selected, every memory as it was, the
agenda moved on, the word kept in the instruction cache and its line's token taken (where the die cache held the token, every block is
as it was too); the step only counts free choices behind it. A failed fetch or a word that does not decode takes its cause in every
present lane, and a fetch that waits for a token asks for its line (log 25). Where two squads issue together, the word is fetched once and
the lower slot's instance is first. The agenda is the model's (log 1), and so is what the step does without one: it takes the first of the turns due in this clock. -/
def Obligations.StepIssuesTheDecodedWord : Prop :=
  (∀ (s : State) (st core islot : Nat) (rest : List Turn) (q : Sel) (b : Block) (sq : Squad) (c : Ctx),
    s.agenda = .slot st core islot :: rest →
    let u : State := { s with agenda := rest }
    u.pick st core islot = some q → u.partner q = none → u.block? q.blk = some b → u.squad? q = some sq →
    Ctx.of { u with cur := q } (Hdr.plain false) = some c →
    let causes (c : Ctx) (e : Nat) : State := c.unpark.s.takeCauses q (c.unpark.present.map fun x => (x.1, e)) sq.pc 0
    -- the word: in device memory, where no instruction cache holds it
    (∀ pa, u.codeAt q.stall b.kern sq.sup sq.pc 0 = .ok (.dev pa) → Tab.find? (u.core q.stall q.core).icache pa = none →
      u.fetch q b.kern sq.sup sq.pc 0 = (if u.lostSeen q.stall pa 8 then .error 0x2A
          else if u.readableAt q.stall pa 8 then .ok (u.codeWord q.stall (.dev pa)) else .error (u.missCode q.stall pa 8))
      ∧ ((∀ x ∈ (u.stall q.stall).wbuf, x.pa + x.bytes.length ≤ pa ∨ pa + 8 ≤ x.pa) →
          u.codeWord q.stall (.dev pa) = BitVec.ofNat 64 (s.mem.num pa 8)))
    ∧ (∀ e, u.codeAt q.stall b.kern sq.sup sq.pc 0 = .error e → u.fetch q b.kern sq.sup sq.pc 0 = .error e)
    -- a fetch that waits, and one that fails
    ∧ (∀ e, u.fetch q b.kern sq.sup sq.pc 0 = .error e →
        step s = .next (if isWait e then u.askFor q.stall e else (causes c e).skipFree 2))
    -- the word's meaning
    ∧ (∀ w, u.fetch q b.kern sq.sup sq.pc 0 = .ok w →
      ∃ v : State, (v.cur, v.agenda) = (q, rest) ∧ SameMemory s v
        ∧ ((∀ pa, u.codeAt q.stall b.kern sq.sup sq.pc 0 = .ok (.dev pa) → ∀ l ∈ linesOf pa 8,
            1 ≤ (u.dcLine q.stall l).t ∧ (u.dcLine q.stall l).v = true) → ∀ p, v.block? p = s.block? p)
        ∧ (∀ i, decode w = .ok i → step s = afterWord (exec i v))
        ∧ (∀ e, decode w = .error e → ∃ k, Ctx.of v (Hdr.plain false) = some k ∧ k.q = q ∧ step s = .next (causes k e))))
  ∧ (∀ (s : State) (st core islot : Nat) (rest : List Turn) (q p : Sel), s.agenda = .slot st core islot :: rest →
    let u : State := { s with agenda := rest }
    u.pick st core islot = some q → u.partner q = some p →
    let first := if p.slot < q.slot then p else q
    let second := if p.slot < q.slot then q else p
    ∀ w v, u.fetchNext first = .ok (w, v) → ∀ v', v.issueFetched w = .next v' →
      step s = (if (v'.squad? second).isSome then State.issueFetched { v' with cur := second } w else .next v'))
  ∧ (∀ (s : State), s.agenda = [] →
    (s.clockTurns = [] → step s = .next s) ∧ ∀ t r, s.clockTurns = t :: r → step s = step { s with agenda := t :: r })

/-- Every step keeps the canonical form of device memory, host memory and external memory (the form is the model's, log 2). -/
def Obligations.StepKeepsTheMemoryForm : Prop :=
  ∀ (s t : State), Memory.wf s.mem = true → Memory.wf s.hostMem = true → Memory.wf s.extMem = true → step s = .next t →
    Memory.wf t.mem = true ∧ Memory.wf t.hostMem = true ∧ Memory.wf t.extMem = true

/-- Every step keeps the tables of squads and of lanes in order (the form of the tables is the model's, log 1). -/
def Obligations.StepKeepsTheTablesOrdered : Prop := ∀ (s t : State), Ordered s → step s = .next t → Ordered t

/-! ## Rules stated whole -/

/-- R81: sret, halt and iflush raise 0x08 in user mode; mfc and mtc do so for the registers of supervisor mode, and for no other. -/
def Obligations.PrivilegedWordsRaisePrivilege : Prop :=
  (∀ (s : State) (i : Instr) (h : Hdr) (act : Fin 6) (k : Fin 48) (all : Bool) (c : Ctx),
    i ∈ [.sret h act, .halt h (.sca k), .iflush h all] → Reaches s h c → c.sq.sup = false →
    exec i s = .next (c.s.takeCauses c.q (c.present.map fun x => (x.1, 0x08)) c.sq.pc 0))
  ∧ (∀ (s : State) (i : Instr) (h : Hdr) (idx : BitVec 12) (a : Opnd) (c : Ctx), i ∈ [.mfc h a idx, .mtc h idx a] → Reaches s h c →
    c.sq.sup = false →
    (idx ∈ [0x020, 0x021, 0x022, 0x023, 0x100, 0x101] → (useOf i c).uses.any (Use.bad c.budget) = false →
      exec i s = .next (c.s.takeCauses c.q (c.present.map fun x => (x.1, 0x08)) c.sq.pc 0))
    ∧ (idx ∉ [0x020, 0x021, 0x022, 0x023, 0x100, 0x101] → (useOf i c).cause c h.s ≠ some 0x08))
  ∧ (∀ (i : Instr) (h : Hdr) (a : Opnd) (c : Ctx), i ∈ [.fpcWrite h a, .mqbWrite h a] → (useOf i c).cause c h.s ≠ some 0x08)

/-- R461: brk halts its block with 0x71 in every active lane, its EPC stands behind the word, and its code changes nothing. -/
def Obligations.BreakpointsHaltBehindTheWord : Prop :=
  ∀ (s : State) (h : Hdr) (code code' : BitVec 12) (c : Ctx), Runs s (.brk h code) c → c.real ≠ none → c.blk.halt.phase = .run →
    c.sq.sup = false →
    exec (.brk h code) s = exec (.brk h code') s
    ∧ exec (.brk h code) s = .next (c.moved (c.s.takeCauses c.q ((c.act.filter fun x => !x.2.helper).map fun x => (x.1, 0x71))
        (c.sq.pc + 8) 0))
    ∧ ∃ t, exec (.brk h code) s = .next t ∧ SameMemory c.s t
      ∧ (t.block? c.q.blk).map (fun b => (b.halt.phase, b.halt.psq, b.halt.cause)) = some (.halting, c.q.slot, 0x71)
      ∧ (t.squad? c.q).map (fun x => (x.hr.epc, x.hr.stopped, x.hr.cause.toNat % 128)) = some (c.sq.pc + 8, true, 0x71)

/-- R227, R237: a record of MSWAP is its command alone, and one of MZERO names 1 to 1,024 rows and holds no other bit; MSWAP exchanges
the whole state of the two planes; MZERO, once it completes, has written zero to all 64 entries of its rows and to no other byte of AM. -/
def Obligations.MatrixSwapAndZeroFollowTheirRules : Prop :=
  (∀ (b : Block) (r : BitVec 128),
    (mCmd r = 2 → (b.mCheck r ≠ some 0x42 ↔ r = 2))
    ∧ (mCmd r = 5 → (b.mCheck r ≠ some 0x42 ↔
        1 ≤ mf r 42 32 ∧ mf r 42 32 ≤ 1024 ∧ mf r 15 8 = 0 ∧ mf r 31 26 = 0 ∧ mf r 127 43 = 0)))
  ∧ (∀ (s : State) (p : BSel) (b : Block) (r : BitVec 128), s.block? p = some b → b.mHead = some r → mCmd r = 2 →
    b.engineRuns = true → b.eng.unitsFree r = true → b.eng.dispatched ≠ some (s.cyc p.stall p.core) → b.dispatchCause r = none →
    s.engineRoom p b r = true → ∃ t, exec (.mswap p) s = .next t ∧ SameMemory s t
      ∧ (t.block? p).map (fun x => (x.eng.active, x.eng.shadow)) = some (b.eng.shadow, b.eng.active))
  ∧ (∀ (s : State) (p : BSel) (b : Block) (c : MCmd) (i : Nat), s.block? p = some b → b.eng.run[i]? = some c → c.failed = false →
    b.squads ≠ [] → (∀ x ∈ b.squads, x.2.lanes ≠ []) → mCmd c.rec' = 5 → c.unit = 1 → p.pos < 16 → s.cmdMay p b i c = true → c.read = false →
    c.claims = [] → ∃ t k, exec (.matrixCommandComplete p i) s = .next t ∧ SameMemory s t ∧ t.block? p = some k
      ∧ k.eng.run = b.eng.run.eraseIdx i ∧ k.pad = b.pad
      ∧ ∀ a, k.am.rd a = if mf c.rec' 25 16 * 256 ≤ a ∧ a < (mf c.rec' 25 16 + mf c.rec' 42 32) * 256 then 0 else b.am.rd a)
end

