-- ==== Sys2Proof/Laws/Issue.lean ====
section
/-! SUPPORT. Every word of the table issues through the one shared operation, with the guard of `hdrOf` and the checks of
`useOf`. -/

set_option Elab.async false

namespace Sys2Proof.Machine

open Sys2Proof

theorem execAdd_issue h ty sat d a b (s : State) :
    ∃ body, execAdd h ty sat d a b s = issue (hdrOf (.add h ty sat d a b)) (useOf (.add h ty sat d a b)) body s := by
  unfold execAdd arithWord binWord intWord
  exact ⟨_, rfl⟩

theorem execSub_issue h ty sat d a b (s : State) :
    ∃ body, execSub h ty sat d a b s = issue (hdrOf (.sub h ty sat d a b)) (useOf (.sub h ty sat d a b)) body s := by
  unfold execSub arithWord binWord intWord
  exact ⟨_, rfl⟩

theorem execMul_issue h ty sat d a b (s : State) :
    ∃ body, execMul h ty sat d a b s = issue (hdrOf (.mul h ty sat d a b)) (useOf (.mul h ty sat d a b)) body s := by
  unfold execMul arithWord binWord intWord
  exact ⟨_, rfl⟩

theorem execMulhi_issue h ty d a b (s : State) :
    ∃ body, execMulhi h ty d a b s = issue (hdrOf (.mulhi h ty d a b)) (useOf (.mulhi h ty d a b)) body s := by
  unfold execMulhi arithWord binWord intWord
  exact ⟨_, rfl⟩

theorem execMad_issue h ty sat d a b c (s : State) :
    ∃ body, execMad h ty sat d a b c s = issue (hdrOf (.mad h ty sat d a b c)) (useOf (.mad h ty sat d a b c)) body s := by
  unfold execMad intWord
  exact ⟨_, rfl⟩

theorem execDiv_issue h ty sat d a b (s : State) :
    ∃ body, execDiv h ty sat d a b s = issue (hdrOf (.div h ty sat d a b)) (useOf (.div h ty sat d a b)) body s := by
  unfold execDiv intWord
  exact ⟨_, rfl⟩

theorem execRem_issue h ty d a b (s : State) :
    ∃ body, execRem h ty d a b s = issue (hdrOf (.rem h ty d a b)) (useOf (.rem h ty d a b)) body s := by
  unfold execRem intWord
  exact ⟨_, rfl⟩

theorem execMin_issue h ty d a b (s : State) :
    ∃ body, execMin h ty d a b s = issue (hdrOf (.min h ty d a b)) (useOf (.min h ty d a b)) body s := by
  unfold execMin arithWord binWord intWord
  exact ⟨_, rfl⟩

theorem execMax_issue h ty d a b (s : State) :
    ∃ body, execMax h ty d a b s = issue (hdrOf (.max h ty d a b)) (useOf (.max h ty d a b)) body s := by
  unfold execMax arithWord binWord intWord
  exact ⟨_, rfl⟩

theorem execAbs_issue h ty sat d a (s : State) :
    ∃ body, execAbs h ty sat d a s = issue (hdrOf (.abs h ty sat d a)) (useOf (.abs h ty sat d a)) body s := by
  unfold execAbs unWord intWord
  exact ⟨_, rfl⟩

theorem execNeg_issue h ty sat d a (s : State) :
    ∃ body, execNeg h ty sat d a s = issue (hdrOf (.neg h ty sat d a)) (useOf (.neg h ty sat d a)) body s := by
  unfold execNeg unWord intWord
  exact ⟨_, rfl⟩

theorem execAnd_issue h ty d a b (s : State) :
    ∃ body, execAnd h ty d a b s = issue (hdrOf (.and h ty d a b)) (useOf (.and h ty d a b)) body s := by
  unfold execAnd binWord intWord
  exact ⟨_, rfl⟩

theorem execOr_issue h ty d a b (s : State) :
    ∃ body, execOr h ty d a b s = issue (hdrOf (.or h ty d a b)) (useOf (.or h ty d a b)) body s := by
  unfold execOr binWord intWord
  exact ⟨_, rfl⟩

theorem execXor_issue h ty d a b (s : State) :
    ∃ body, execXor h ty d a b s = issue (hdrOf (.xor h ty d a b)) (useOf (.xor h ty d a b)) body s := by
  unfold execXor binWord intWord
  exact ⟨_, rfl⟩

theorem execNot_issue h ty d a (s : State) :
    ∃ body, execNot h ty d a s = issue (hdrOf (.not h ty d a)) (useOf (.not h ty d a)) body s := by
  unfold execNot unWord intWord
  exact ⟨_, rfl⟩

theorem execAndn_issue h ty d a b (s : State) :
    ∃ body, execAndn h ty d a b s = issue (hdrOf (.andn h ty d a b)) (useOf (.andn h ty d a b)) body s := by
  unfold execAndn binWord intWord
  exact ⟨_, rfl⟩

theorem execShl_issue h ty d a b (s : State) :
    ∃ body, execShl h ty d a b s = issue (hdrOf (.shl h ty d a b)) (useOf (.shl h ty d a b)) body s := by
  unfold execShl shiftWord intWord
  exact ⟨_, rfl⟩

theorem execShr_issue h ty d a b (s : State) :
    ∃ body, execShr h ty d a b s = issue (hdrOf (.shr h ty d a b)) (useOf (.shr h ty d a b)) body s := by
  unfold execShr shiftWord intWord
  exact ⟨_, rfl⟩

theorem execSar_issue h ty d a b (s : State) :
    ∃ body, execSar h ty d a b s = issue (hdrOf (.sar h ty d a b)) (useOf (.sar h ty d a b)) body s := by
  unfold execSar shiftWord intWord
  exact ⟨_, rfl⟩

theorem execRot_issue h ty d a b (s : State) :
    ∃ body, execRot h ty d a b s = issue (hdrOf (.rot h ty d a b)) (useOf (.rot h ty d a b)) body s := by
  unfold execRot shiftWord intWord
  exact ⟨_, rfl⟩

theorem execClz_issue h ty d a (s : State) :
    ∃ body, execClz h ty d a s = issue (hdrOf (.clz h ty d a)) (useOf (.clz h ty d a)) body s := by
  unfold execClz countWord intWord
  exact ⟨_, rfl⟩

theorem execPopc_issue h ty d a (s : State) :
    ∃ body, execPopc h ty d a s = issue (hdrOf (.popc h ty d a)) (useOf (.popc h ty d a)) body s := by
  unfold execPopc countWord intWord
  exact ⟨_, rfl⟩

theorem execBrev_issue h ty d a (s : State) :
    ∃ body, execBrev h ty d a s = issue (hdrOf (.brev h ty d a)) (useOf (.brev h ty d a)) body s := by
  unfold execBrev unWord intWord
  exact ⟨_, rfl⟩

theorem execBfx_issue h ty d a spec (s : State) :
    ∃ body, execBfx h ty d a spec s = issue (hdrOf (.bfx h ty d a spec)) (useOf (.bfx h ty d a spec)) body s := by
  unfold execBfx shiftWord intWord
  exact ⟨_, rfl⟩

theorem execBfi_issue h ty d a b spec (s : State) :
    ∃ body, execBfi h ty d a b spec s = issue (hdrOf (.bfi h ty d a b spec)) (useOf (.bfi h ty d a b spec)) body s := by
  unfold execBfi intWord
  exact ⟨_, rfl⟩

theorem execSel_issue h ty d a b p (s : State) :
    ∃ body, execSel h ty d a b p s = issue (hdrOf (.sel h ty d a b p)) (useOf (.sel h ty d a b p)) body s := by
  unfold execSel intWord
  exact ⟨_, rfl⟩

theorem execCmp_issue h cond ty pd a b (s : State) :
    ∃ body, execCmp h cond ty pd a b s = issue (hdrOf (.cmp h cond ty pd a b)) (useOf (.cmp h cond ty pd a b)) body s := by
  unfold execCmp intWord
  exact ⟨_, rfl⟩

theorem execLea_issue h sh nat d a b (s : State) :
    ∃ body, execLea h sh nat d a b s = issue (hdrOf (.lea h sh nat d a b)) (useOf (.lea h sh nat d a b)) body s := by
  unfold execLea intWord
  exact ⟨_, rfl⟩

theorem execMov_issue h ty d a (s : State) :
    ∃ body, execMov h ty d a s = issue (hdrOf (.mov h ty d a)) (useOf (.mov h ty d a)) body s := by
  unfold execMov unWord intWord
  exact ⟨_, rfl⟩

theorem execMovi_issue h ty d imm (s : State) :
    ∃ body, execMovi h ty d imm s = issue (hdrOf (.movi h ty d imm)) (useOf (.movi h ty d imm)) body s := by
  unfold execMovi intWord
  exact ⟨_, rfl⟩

theorem execMovh_issue h nat d imm (s : State) :
    ∃ body, execMovh h nat d imm s = issue (hdrOf (.movh h nat d imm)) (useOf (.movh h nat d imm)) body s := by
  unfold execMovh intWord
  exact ⟨_, rfl⟩

theorem execPset_issue h op pd (s : State) :
    ∃ body, execPset h op pd s = issue (hdrOf (.pset h op pd)) (useOf (.pset h op pd)) body s := by
  unfold execPset intWord
  exact ⟨_, rfl⟩

theorem execFadd_issue h ft e d a b (s : State) :
    ∃ body, execFadd h ft e d a b s = issue (hdrOf (.fadd h ft e d a b)) (useOf (.fadd h ft e d a b)) body s := by
  unfold execFadd
  exact ⟨_, rfl⟩

theorem execFsub_issue h ft e d a b (s : State) :
    ∃ body, execFsub h ft e d a b s = issue (hdrOf (.fsub h ft e d a b)) (useOf (.fsub h ft e d a b)) body s := by
  unfold execFsub
  exact ⟨_, rfl⟩

theorem execFmul_issue h ft e d a b (s : State) :
    ∃ body, execFmul h ft e d a b s = issue (hdrOf (.fmul h ft e d a b)) (useOf (.fmul h ft e d a b)) body s := by
  unfold execFmul
  exact ⟨_, rfl⟩

theorem execFfma_issue h ft e d a b c (s : State) :
    ∃ body, execFfma h ft e d a b c s = issue (hdrOf (.ffma h ft e d a b c)) (useOf (.ffma h ft e d a b c)) body s := by
  unfold execFfma
  exact ⟨_, rfl⟩

theorem execFmin_issue h ft e d a b (s : State) :
    ∃ body, execFmin h ft e d a b s = issue (hdrOf (.fmin h ft e d a b)) (useOf (.fmin h ft e d a b)) body s := by
  unfold execFmin
  exact ⟨_, rfl⟩

theorem execFmax_issue h ft e d a b (s : State) :
    ∃ body, execFmax h ft e d a b s = issue (hdrOf (.fmax h ft e d a b)) (useOf (.fmax h ft e d a b)) body s := by
  unfold execFmax
  exact ⟨_, rfl⟩

theorem execFcmp_issue h cond ft e pd a b (s : State) :
    ∃ body, execFcmp h cond ft e pd a b s = issue (hdrOf (.fcmp h cond ft e pd a b)) (useOf (.fcmp h cond ft e pd a b)) body s := by
  unfold execFcmp
  exact ⟨_, rfl⟩

theorem execFsel_issue h ft e d a b c (s : State) :
    ∃ body, execFsel h ft e d a b c s = issue (hdrOf (.fsel h ft e d a b c)) (useOf (.fsel h ft e d a b c)) body s := by
  unfold execFsel
  exact ⟨_, rfl⟩

theorem execFrnd_issue h ft nx e d a (s : State) :
    ∃ body, execFrnd h ft nx e d a s = issue (hdrOf (.frnd h ft nx e d a)) (useOf (.frnd h ft nx e d a)) body s := by
  unfold execFrnd
  exact ⟨_, rfl⟩

theorem execFdiv_issue h ft e d a b (s : State) :
    ∃ body, execFdiv h ft e d a b s = issue (hdrOf (.fdiv h ft e d a b)) (useOf (.fdiv h ft e d a b)) body s := by
  unfold execFdiv
  exact ⟨_, rfl⟩

theorem execFsqrt_issue h ft e d a (s : State) :
    ∃ body, execFsqrt h ft e d a s = issue (hdrOf (.fsqrt h ft e d a)) (useOf (.fsqrt h ft e d a)) body s := by
  unfold execFsqrt
  exact ⟨_, rfl⟩

theorem execFdot2_issue h bf e d a b c (s : State) :
    ∃ body, execFdot2 h bf e d a b c s = issue (hdrOf (.fdot2 h bf e d a b c)) (useOf (.fdot2 h bf e d a b c)) body s := by
  unfold execFdot2
  exact ⟨_, rfl⟩

theorem execCvt_issue h e dst src d a c (s : State) :
    ∃ body, execCvt h e dst src d a c s = issue (hdrOf (.cvt h e dst src d a c)) (useOf (.cvt h e dst src d a c)) body s := by
  unfold execCvt
  exact ⟨_, rfl⟩

theorem execPack_issue h e dst src d a b (s : State) :
    ∃ body, execPack h e dst src d a b s = issue (hdrOf (.pack h e dst src d a b)) (useOf (.pack h e dst src d a b)) body s := by
  unfold execPack
  exact ⟨_, rfl⟩

theorem execUnpack_issue h src dst d a (s : State) :
    ∃ body, execUnpack h src dst d a s = issue (hdrOf (.unpack h src dst d a)) (useOf (.unpack h src dst d a)) body s := by
  unfold execUnpack
  exact ⟨_, rfl⟩

theorem execFrcp_issue h d a (s : State) :
    ∃ body, execFrcp h d a s = issue (hdrOf (.frcp h d a)) (useOf (.frcp h d a)) body s := by
  unfold execFrcp
  exact ⟨_, rfl⟩

theorem execFrsq_issue h d a (s : State) :
    ∃ body, execFrsq h d a s = issue (hdrOf (.frsq h d a)) (useOf (.frsq h d a)) body s := by
  unfold execFrsq
  exact ⟨_, rfl⟩

theorem execFexp2_issue h d a (s : State) :
    ∃ body, execFexp2 h d a s = issue (hdrOf (.fexp2 h d a)) (useOf (.fexp2 h d a)) body s := by
  unfold execFexp2
  exact ⟨_, rfl⟩

theorem execFlog2_issue h d a (s : State) :
    ∃ body, execFlog2 h d a s = issue (hdrOf (.flog2 h d a)) (useOf (.flog2 h d a)) body s := by
  unfold execFlog2
  exact ⟨_, rfl⟩

theorem execFsinp_issue h d a (s : State) :
    ∃ body, execFsinp h d a s = issue (hdrOf (.fsinp h d a)) (useOf (.fsinp h d a)) body s := by
  unfold execFsinp
  exact ⟨_, rfl⟩

theorem execFcosp_issue h d a (s : State) :
    ∃ body, execFcosp h d a s = issue (hdrOf (.fcosp h d a)) (useOf (.fcosp h d a)) body s := by
  unfold execFcosp
  exact ⟨_, rfl⟩

theorem execWfu_issue h d a (s : State) :
    ∃ body, execWfu h d a s = issue (hdrOf (.wfu h d a)) (useOf (.wfu h d a)) body s := by
  unfold execWfu
  exact ⟨_, rfl⟩

theorem execWfm_issue h d a (s : State) :
    ∃ body, execWfm h d a s = issue (hdrOf (.wfm h d a)) (useOf (.wfm h d a)) body s := by
  unfold execWfm
  exact ⟨_, rfl⟩

theorem execRseed_issue h d a (s : State) :
    ∃ body, execRseed h d a s = issue (hdrOf (.rseed h d a)) (useOf (.rseed h d a)) body s := by
  unfold execRseed
  exact ⟨_, rfl⟩

theorem execShfl_issue h var nat d a b (s : State) :
    ∃ body, execShfl h var nat d a b s = issue (hdrOf (.shfl h var nat d a b)) (useOf (.shfl h var nat d a b)) body s := by
  unfold execShfl
  exact ⟨_, rfl⟩

theorem execRedux_issue h op ty e d a (s : State) :
    ∃ body, execRedux h op ty e d a s = issue (hdrOf (.redux h op ty e d a)) (useOf (.redux h op ty e d a)) body s := by
  unfold execRedux
  exact ⟨_, rfl⟩

theorem execScan_issue h excl op ty e d a (s : State) :
    ∃ body, execScan h excl op ty e d a s = issue (hdrOf (.scan h excl op ty e d a)) (useOf (.scan h excl op ty e d a)) body s := by
  unfold execScan
  exact ⟨_, rfl⟩

theorem execBallot_issue h d p (s : State) :
    ∃ body, execBallot h d p s = issue (hdrOf (.ballot h d p)) (useOf (.ballot h d p)) body s := by
  unfold execBallot
  exact ⟨_, rfl⟩

theorem execVote_issue h var pd p (s : State) :
    ∃ body, execVote h var pd p s = issue (hdrOf (.vote h var pd p)) (useOf (.vote h var pd p)) body s := by
  unfold execVote
  exact ⟨_, rfl⟩

theorem execQx_issue h var nat d a (s : State) :
    ∃ body, execQx h var nat d a s = issue (hdrOf (.qx h var nat d a)) (useOf (.qx h var nat d a)) body s := by
  unfold execQx
  exact ⟨_, rfl⟩

theorem execQbc_issue h nat d a b (s : State) :
    ∃ body, execQbc h nat d a b s = issue (hdrOf (.qbc h nat d a b)) (useOf (.qbc h nat d a b)) body s := by
  unfold execQbc
  exact ⟨_, rfl⟩

theorem execPairWord_issue mk sa sb (s : State) :
    ∃ body, execPairWord mk sa sb s = issue (hdrOf (.pairWord mk sa sb)) (useOf (.pairWord mk sa sb)) body s := by
  unfold execPairWord
  exact ⟨_, rfl⟩

theorem execBra_issue h off live (s : State) :
    ∃ body, execBra h off live s = issue (hdrOf (.bra h off live)) (useOf (.bra h off live)) body s := by
  unfold execBra
  exact ⟨_, rfl⟩

theorem execJmp_issue h a tag live (s : State) :
    ∃ body, execJmp h a tag live s = issue (hdrOf (.jmp h a tag live)) (useOf (.jmp h a tag live)) body s := by
  unfold execJmp
  exact ⟨_, rfl⟩

theorem execCall_issue h link off live (s : State) :
    ∃ body, execCall h link off live s = issue (hdrOf (.call h link off live)) (useOf (.call h link off live)) body s := by
  unfold execCall
  exact ⟨_, rfl⟩

theorem execCalli_issue h d a tag live (s : State) :
    ∃ body, execCalli h d a tag live s = issue (hdrOf (.calli h d a tag live)) (useOf (.calli h d a tag live)) body s := by
  unfold execCalli
  exact ⟨_, rfl⟩

theorem execRet_issue h a live (s : State) :
    ∃ body, execRet h a live s = issue (hdrOf (.ret h a live)) (useOf (.ret h a live)) body s := by
  unfold execRet
  exact ⟨_, rfl⟩

theorem execLand_issue h tag (s : State) :
    ∃ body, execLand h tag s = issue (hdrOf (.land h tag)) (useOf (.land h tag)) body s := by
  unfold execLand
  exact ⟨_, rfl⟩

theorem execReform_issue mk live (s : State) :
    ∃ body, execReform mk live s = issue (hdrOf (.reform mk live)) (useOf (.reform mk live)) body s := by
  unfold execReform
  exact ⟨_, rfl⟩

theorem execLoop_issue mk ctr count len (s : State) :
    ∃ body, execLoop mk ctr count len s = issue (hdrOf (.loop mk ctr count len)) (useOf (.loop mk ctr count len)) body s := by
  unfold execLoop
  exact ⟨_, rfl⟩

theorem execBrk_issue h code (s : State) :
    ∃ body, execBrk h code s = issue (hdrOf (.brk h code)) (useOf (.brk h code)) body s := by
  unfold execBrk
  exact ⟨_, rfl⟩

theorem execExit_issue h (s : State) :
    ∃ body, execExit h s = issue (hdrOf (.exit h)) (useOf (.exit h)) body s := by
  unfold execExit
  exact ⟨_, rfl⟩

theorem execYield_issue h (s : State) :
    ∃ body, execYield h s = issue (hdrOf (.yield h)) (useOf (.yield h)) body s := by
  unfold execYield
  exact ⟨_, rfl⟩

theorem execNop_issue h (s : State) :
    ∃ body, execNop h s = issue (hdrOf (.nop h)) (useOf (.nop h)) body s := by
  unfold execNop
  exact ⟨_, rfl⟩

theorem execLd_issue h sz hint m d a (s : State) :
    ∃ body, execLd h sz hint m d a s = issue (hdrOf (.ld h sz hint m d a)) (useOf (.ld h sz hint m d a)) body s := by
  unfold execLd
  exact ⟨_, rfl⟩

theorem execSt_issue h sz hint m a b (s : State) :
    ∃ body, execSt h sz hint m a b s = issue (hdrOf (.st h sz hint m a b)) (useOf (.st h sz hint m a b)) body s := by
  unfold execSt
  exact ⟨_, rfl⟩

theorem execAtom_issue h op m d a b (s : State) :
    ∃ body, execAtom h op m d a b s = issue (hdrOf (.atom h op m d a b)) (useOf (.atom h op m d a b)) body s := by
  unfold execAtom
  exact ⟨_, rfl⟩

theorem execRed_issue h op m a b (s : State) :
    ∃ body, execRed h op m a b s = issue (hdrOf (.red h op m a b)) (useOf (.red h op m a b)) body s := by
  unfold execRed
  exact ⟨_, rfl⟩

theorem execLrs_issue h wide m d a (s : State) :
    ∃ body, execLrs h wide m d a s = issue (hdrOf (.lrs h wide m d a)) (useOf (.lrs h wide m d a)) body s := by
  unfold execLrs
  exact ⟨_, rfl⟩

theorem execScs_issue h wide m d a b (s : State) :
    ∃ body, execScs h wide m d a b s = issue (hdrOf (.scs h wide m d a b)) (useOf (.scs h wide m d a b)) body s := by
  unfold execScs
  exact ⟨_, rfl⟩

theorem execCpf_issue h var off a (s : State) :
    ∃ body, execCpf h var off a s = issue (hdrOf (.cpf h var off a)) (useOf (.cpf h var off a)) body s := by
  unfold execCpf
  exact ⟨_, rfl⟩

theorem execCwb_issue h off a (s : State) :
    ∃ body, execCwb h off a s = issue (hdrOf (.cwb h off a)) (useOf (.cwb h off a)) body s := by
  unfold execCwb
  exact ⟨_, rfl⟩

theorem execCinv_issue h dc off a (s : State) :
    ∃ body, execCinv h dc off a s = issue (hdrOf (.cinv h dc off a)) (useOf (.cinv h dc off a)) body s := by
  unfold execCinv
  exact ⟨_, rfl⟩

theorem execPld_issue h sz off d a (s : State) :
    ∃ body, execPld h sz off d a s = issue (hdrOf (.pld h sz off d a)) (useOf (.pld h sz off d a)) body s := by
  unfold execPld
  exact ⟨_, rfl⟩

theorem execPst_issue h sz off a b (s : State) :
    ∃ body, execPst h sz off a b s = issue (hdrOf (.pst h sz off a b)) (useOf (.pst h sz off a b)) body s := by
  unfold execPst
  exact ⟨_, rfl⟩

theorem execPatom_issue h op off d a b (s : State) :
    ∃ body, execPatom h op off d a b s = issue (hdrOf (.patom h op off d a b)) (useOf (.patom h op off d a b)) body s := by
  unfold execPatom
  exact ⟨_, rfl⟩

theorem execAld_issue h wide off d a (s : State) :
    ∃ body, execAld h wide off d a s = issue (hdrOf (.ald h wide off d a)) (useOf (.ald h wide off d a)) body s := by
  unfold execAld
  cases wide <;> exact ⟨_, rfl⟩

theorem execAst_issue h wide off a b (s : State) :
    ∃ body, execAst h wide off a b s = issue (hdrOf (.ast h wide off a b)) (useOf (.ast h wide off a b)) body s := by
  unfold execAst
  cases wide <;> exact ⟨_, rfl⟩

theorem execCpy_issue h a (s : State) :
    ∃ body, execCpy h a s = issue (hdrOf (.cpy h a)) (useOf (.cpy h a)) body s := by
  unfold execCpy
  exact ⟨_, rfl⟩

theorem execTwany_issue h d m (s : State) :
    ∃ body, execTwany h d m s = issue (hdrOf (.twany h d m)) (useOf (.twany h d m)) body s := by
  unfold execTwany
  exact ⟨_, rfl⟩

theorem execTwall_issue h m (s : State) :
    ∃ body, execTwall h m s = issue (hdrOf (.twall h m)) (useOf (.twall h m)) body s := by
  unfold execTwall
  exact ⟨_, rfl⟩

theorem execTfirst_issue h d m (s : State) :
    ∃ body, execTfirst h d m s = issue (hdrOf (.tfirst h d m)) (useOf (.tfirst h d m)) body s := by
  unfold execTfirst
  exact ⟨_, rfl⟩

theorem execTclr_issue h m (s : State) :
    ∃ body, execTclr h m s = issue (hdrOf (.tclr h m)) (useOf (.tclr h m)) body s := by
  unfold execTclr
  exact ⟨_, rfl⟩

theorem execWatch_issue h kind slot a (s : State) :
    ∃ body, execWatch h kind slot a s = issue (hdrOf (.watch h kind slot a)) (useOf (.watch h kind slot a)) body s := by
  unfold execWatch
  cases kind <;> exact ⟨_, rfl⟩

theorem execWait_issue h d a (s : State) :
    ∃ body, execWait h d a s = issue (hdrOf (.wait h d a)) (useOf (.wait h d a)) body s := by
  unfold execWait
  exact ⟨_, rfl⟩

theorem execBar_issue mk n (s : State) :
    ∃ body, execBar mk n s = issue (hdrOf (.bar mk n)) (useOf (.bar mk n)) body s := by
  unfold execBar
  exact ⟨_, rfl⟩

theorem execParr_issue h d a b (s : State) :
    ∃ body, execParr h d a b s = issue (hdrOf (.parr h d a b)) (useOf (.parr h d a b)) body s := by
  unfold execParr
  exact ⟨_, rfl⟩

theorem execPwait_issue h d a b (s : State) :
    ∃ body, execPwait h d a b s = issue (hdrOf (.pwait h d a b)) (useOf (.pwait h d a b)) body s := by
  unfold execPwait
  exact ⟨_, rfl⟩

theorem execMenq_issue h d a (s : State) :
    ∃ body, execMenq h d a s = issue (hdrOf (.menq h d a)) (useOf (.menq h d a)) body s := by
  unfold execMenq
  exact ⟨_, rfl⟩

theorem execMstat_issue h d sel (s : State) :
    ∃ body, execMstat h d sel s = issue (hdrOf (.mstat h d sel)) (useOf (.mstat h d sel)) body s := by
  unfold execMstat
  exact ⟨_, rfl⟩

theorem execSend_issue h d a b (s : State) :
    ∃ body, execSend h d a b s = issue (hdrOf (.send h d a b)) (useOf (.send h d a b)) body s := by
  unfold execSend
  exact ⟨_, rfl⟩

theorem execMbadv_issue h mb d b (s : State) :
    ∃ body, execMbadv h mb d b s = issue (hdrOf (.mbadv h mb d b)) (useOf (.mbadv h mb d b)) body s := by
  unfold execMbadv
  exact ⟨_, rfl⟩

theorem execColl_issue h a (s : State) :
    ∃ body, execColl h a s = issue (hdrOf (.coll h a)) (useOf (.coll h a)) body s := by
  unfold execColl
  exact ⟨_, rfl⟩

theorem execTspawn_issue h a (s : State) :
    ∃ body, execTspawn h a s = issue (hdrOf (.tspawn h a)) (useOf (.tspawn h a)) body s := by
  unfold execTspawn
  exact ⟨_, rfl⟩

theorem execTnext_issue h d (s : State) :
    ∃ body, execTnext h d s = issue (hdrOf (.tnext h d)) (useOf (.tnext h d)) body s := by
  unfold execTnext
  exact ⟨_, rfl⟩

theorem execTdone_issue h d b (s : State) :
    ∃ body, execTdone h d b s = issue (hdrOf (.tdone h d b)) (useOf (.tdone h d b)) body s := by
  unfold execTdone
  exact ⟨_, rfl⟩

theorem execQput_issue h d a stage (s : State) :
    ∃ body, execQput h d a stage s = issue (hdrOf (.qput h d a stage)) (useOf (.qput h d a stage)) body s := by
  unfold execQput
  exact ⟨_, rfl⟩

theorem execQget_issue h d (s : State) :
    ∃ body, execQget h d s = issue (hdrOf (.qget h d)) (useOf (.qget h d)) body s := by
  unfold execQget
  exact ⟨_, rfl⟩

theorem execArm_issue h a (s : State) :
    ∃ body, execArm h a s = issue (hdrOf (.arm h a)) (useOf (.arm h a)) body s := by
  unfold execArm
  exact ⟨_, rfl⟩

theorem execLaunch_issue h a (s : State) :
    ∃ body, execLaunch h a s = issue (hdrOf (.launch h a)) (useOf (.launch h a)) body s := by
  unfold execLaunch
  exact ⟨_, rfl⟩

theorem execTex_issue h arr d a b (s : State) :
    ∃ body, execTex h arr d a b s = issue (hdrOf (.tex h arr d a b)) (useOf (.tex h arr d a b)) body s := by
  unfold execTex
  exact ⟨_, rfl⟩

theorem execTexf_issue h arr d a b c (s : State) :
    ∃ body, execTexf h arr d a b c s = issue (hdrOf (.texf h arr d a b c)) (useOf (.texf h arr d a b c)) body s := by
  unfold execTexf
  exact ⟨_, rfl⟩

theorem execTexg_issue h arr ch d a b c (s : State) :
    ∃ body, execTexg h arr ch d a b c s = issue (hdrOf (.texg h arr ch d a b c)) (useOf (.texg h arr ch d a b c)) body s := by
  unfold execTexg
  exact ⟨_, rfl⟩

theorem execTexl_issue h arr d a b c (s : State) :
    ∃ body, execTexl h arr d a b c s = issue (hdrOf (.texl h arr d a b c)) (useOf (.texl h arr d a b c)) body s := by
  unfold execTexl
  exact ⟨_, rfl⟩

theorem execMout_issue h a (s : State) :
    ∃ body, execMout h a s = issue (hdrOf (.mout h a)) (useOf (.mout h a)) body s := by
  unfold execMout
  exact ⟨_, rfl⟩

theorem execMfinMesh_issue h d a (s : State) :
    ∃ body, execMfinMesh h d a s = issue (hdrOf (.mfinMesh h d a)) (useOf (.mfinMesh h d a)) body s := by
  unfold execMfinMesh
  exact ⟨_, rfl⟩

theorem execMfinTask_issue h d a (s : State) :
    ∃ body, execMfinTask h d a s = issue (hdrOf (.mfinTask h d a)) (useOf (.mfinTask h d a)) body s := by
  unfold execMfinTask
  exact ⟨_, rfl⟩

theorem execPxo_issue h n a (s : State) :
    ∃ body, execPxo h n a s = issue (hdrOf (.pxo h n a)) (useOf (.pxo h n a)) body s := by
  unfold execPxo
  exact ⟨_, rfl⟩

theorem execPkill_issue h (s : State) :
    ∃ body, execPkill h s = issue (hdrOf (.pkill h)) (useOf (.pkill h)) body s := by
  unfold execPkill
  exact ⟨_, rfl⟩

theorem execRbox_issue h d a b (s : State) :
    ∃ body, execRbox h d a b s = issue (hdrOf (.rbox h d a b)) (useOf (.rbox h d a b)) body s := by
  unfold execRbox
  exact ⟨_, rfl⟩

theorem execRtri_issue h d a b (s : State) :
    ∃ body, execRtri h d a b s = issue (hdrOf (.rtri h d a b)) (useOf (.rtri h d a b)) body s := by
  unfold execRtri
  exact ⟨_, rfl⟩

theorem execRtriW_issue h d a b c (s : State) :
    ∃ body, execRtriW h d a b c s = issue (hdrOf (.rtriW h d a b c)) (useOf (.rtriW h d a b c)) body s := by
  unfold execRtriW
  exact ⟨_, rfl⟩

theorem execBmbox_issue h d a b (s : State) :
    ∃ body, execBmbox h d a b s = issue (hdrOf (.bmbox h d a b)) (useOf (.bmbox h d a b)) body s := by
  unfold execBmbox
  exact ⟨_, rfl⟩

theorem execBmtri_issue h d a b (s : State) :
    ∃ body, execBmtri h d a b s = issue (hdrOf (.bmtri h d a b)) (useOf (.bmtri h d a b)) body s := by
  unfold execBmtri
  exact ⟨_, rfl⟩

theorem execBmsplit_issue h d a b (s : State) :
    ∃ body, execBmsplit h d a b s = issue (hdrOf (.bmsplit h d a b)) (useOf (.bmsplit h d a b)) body s := by
  unfold execBmsplit
  exact ⟨_, rfl⟩

theorem execKpush_issue h a (s : State) :
    ∃ body, execKpush h a s = issue (hdrOf (.kpush h a)) (useOf (.kpush h a)) body s := by
  unfold execKpush
  exact ⟨_, rfl⟩

theorem execKpop_issue h d (s : State) :
    ∃ body, execKpop h d s = issue (hdrOf (.kpop h d)) (useOf (.kpop h d)) body s := by
  unfold execKpop
  exact ⟨_, rfl⟩

theorem execFence_issue h kind obs (s : State) :
    ∃ body, execFence h kind obs s = issue (hdrOf (.fence h kind obs)) (useOf (.fence h kind obs)) body s := by
  unfold execFence
  exact ⟨_, rfl⟩

theorem execTrap_issue h imm (s : State) :
    ∃ body, execTrap h imm s = issue (hdrOf (.trap h imm)) (useOf (.trap h imm)) body s := by
  unfold execTrap
  exact ⟨_, rfl⟩

theorem execSret_issue h act (s : State) :
    ∃ body, execSret h act s = issue (hdrOf (.sret h act)) (useOf (.sret h act)) body s := by
  unfold execSret
  exact ⟨_, rfl⟩

theorem execMfc_issue h d idx (s : State) :
    ∃ body, execMfc h d idx s = issue (hdrOf (.mfc h d idx)) (useOf (.mfc h d idx)) body s := by
  unfold execMfc
  exact ⟨_, rfl⟩

theorem execMtc_issue h idx a (s : State) :
    ∃ body, execMtc h idx a s = issue (hdrOf (.mtc h idx a)) (useOf (.mtc h idx a)) body s := by
  unfold execMtc
  exact ⟨_, rfl⟩

theorem execFpcWrite_issue h a (s : State) :
    ∃ body, execFpcWrite h a s = issue (hdrOf (.fpcWrite h a)) (useOf (.fpcWrite h a)) body s := by
  unfold execFpcWrite
  exact ⟨_, rfl⟩

theorem execMqbWrite_issue h a (s : State) :
    ∃ body, execMqbWrite h a s = issue (hdrOf (.mqbWrite h a)) (useOf (.mqbWrite h a)) body s := by
  unfold execMqbWrite
  exact ⟨_, rfl⟩

theorem execCyc_issue h d (s : State) :
    ∃ body, execCyc h d s = issue (hdrOf (.cyc h d)) (useOf (.cyc h d)) body s := by
  unfold execCyc
  exact ⟨_, rfl⟩

theorem execHalt_issue h a (s : State) :
    ∃ body, execHalt h a s = issue (hdrOf (.halt h a)) (useOf (.halt h a)) body s := by
  unfold execHalt
  exact ⟨_, rfl⟩

theorem execIflush_issue h scope (s : State) :
    ∃ body, execIflush h scope s = issue (hdrOf (.iflush h scope)) (useOf (.iflush h scope)) body s := by
  unfold execIflush
  exact ⟨_, rfl⟩

/-- Every word issues through `issue`. -/
theorem exec_issue (i : Instr) (hw : (encode i).isSome = true) (s : State) :
    ∃ body, exec i s = issue (hdrOf i) (useOf i) body s := by
  cases i with
  | add h ty sat d a b => exact execAdd_issue h ty sat d a b s
  | sub h ty sat d a b => exact execSub_issue h ty sat d a b s
  | mul h ty sat d a b => exact execMul_issue h ty sat d a b s
  | mulhi h ty d a b => exact execMulhi_issue h ty d a b s
  | mad h ty sat d a b c => exact execMad_issue h ty sat d a b c s
  | div h ty sat d a b => exact execDiv_issue h ty sat d a b s
  | rem h ty d a b => exact execRem_issue h ty d a b s
  | min h ty d a b => exact execMin_issue h ty d a b s
  | max h ty d a b => exact execMax_issue h ty d a b s
  | abs h ty sat d a => exact execAbs_issue h ty sat d a s
  | neg h ty sat d a => exact execNeg_issue h ty sat d a s
  | and h ty d a b => exact execAnd_issue h ty d a b s
  | or h ty d a b => exact execOr_issue h ty d a b s
  | xor h ty d a b => exact execXor_issue h ty d a b s
  | not h ty d a => exact execNot_issue h ty d a s
  | andn h ty d a b => exact execAndn_issue h ty d a b s
  | shl h ty d a b => exact execShl_issue h ty d a b s
  | shr h ty d a b => exact execShr_issue h ty d a b s
  | sar h ty d a b => exact execSar_issue h ty d a b s
  | rot h ty d a b => exact execRot_issue h ty d a b s
  | clz h ty d a => exact execClz_issue h ty d a s
  | popc h ty d a => exact execPopc_issue h ty d a s
  | brev h ty d a => exact execBrev_issue h ty d a s
  | bfx h ty d a spec => exact execBfx_issue h ty d a spec s
  | bfi h ty d a b spec => exact execBfi_issue h ty d a b spec s
  | sel h ty d a b p => exact execSel_issue h ty d a b p s
  | cmp h cond ty pd a b => exact execCmp_issue h cond ty pd a b s
  | lea h sh nat d a b => exact execLea_issue h sh nat d a b s
  | mov h ty d a => exact execMov_issue h ty d a s
  | movi h ty d imm => exact execMovi_issue h ty d imm s
  | movh h nat d imm => exact execMovh_issue h nat d imm s
  | pset h op pd => exact execPset_issue h op pd s
  | fadd h ft e d a b => exact execFadd_issue h ft e d a b s
  | fsub h ft e d a b => exact execFsub_issue h ft e d a b s
  | fmul h ft e d a b => exact execFmul_issue h ft e d a b s
  | ffma h ft e d a b c => exact execFfma_issue h ft e d a b c s
  | fmin h ft e d a b => exact execFmin_issue h ft e d a b s
  | fmax h ft e d a b => exact execFmax_issue h ft e d a b s
  | fcmp h cond ft e pd a b => exact execFcmp_issue h cond ft e pd a b s
  | fsel h ft e d a b c => exact execFsel_issue h ft e d a b c s
  | frnd h ft nx e d a => exact execFrnd_issue h ft nx e d a s
  | fdiv h ft e d a b => exact execFdiv_issue h ft e d a b s
  | fsqrt h ft e d a => exact execFsqrt_issue h ft e d a s
  | fdot2 h bf e d a b c => exact execFdot2_issue h bf e d a b c s
  | cvt h e dst src d a c => exact execCvt_issue h e dst src d a c s
  | pack h e dst src d a b => exact execPack_issue h e dst src d a b s
  | unpack h src dst d a => exact execUnpack_issue h src dst d a s
  | frcp h d a => exact execFrcp_issue h d a s
  | frsq h d a => exact execFrsq_issue h d a s
  | fexp2 h d a => exact execFexp2_issue h d a s
  | flog2 h d a => exact execFlog2_issue h d a s
  | fsinp h d a => exact execFsinp_issue h d a s
  | fcosp h d a => exact execFcosp_issue h d a s
  | wfu h d a => exact execWfu_issue h d a s
  | wfm h d a => exact execWfm_issue h d a s
  | rseed h d a => exact execRseed_issue h d a s
  | shfl h var nat d a b => exact execShfl_issue h var nat d a b s
  | redux h op ty e d a => exact execRedux_issue h op ty e d a s
  | scan h excl op ty e d a => exact execScan_issue h excl op ty e d a s
  | ballot h d p => exact execBallot_issue h d p s
  | vote h var pd p => exact execVote_issue h var pd p s
  | qx h var nat d a => exact execQx_issue h var nat d a s
  | qbc h nat d a b => exact execQbc_issue h nat d a b s
  | pairWord mk sa sb => exact execPairWord_issue mk sa sb s
  | bra h off live => exact execBra_issue h off live s
  | jmp h a tag live => exact execJmp_issue h a tag live s
  | call h link off live => exact execCall_issue h link off live s
  | calli h d a tag live => exact execCalli_issue h d a tag live s
  | ret h a live => exact execRet_issue h a live s
  | land h tag => exact execLand_issue h tag s
  | reform mk live => exact execReform_issue mk live s
  | loop mk ctr count len => exact execLoop_issue mk ctr count len s
  | loopEndTest _ => cases hw
  | brk h code => exact execBrk_issue h code s
  | exit h => exact execExit_issue h s
  | yield h => exact execYield_issue h s
  | nop h => exact execNop_issue h s
  | ld h sz hint m d a => exact execLd_issue h sz hint m d a s
  | st h sz hint m a b => exact execSt_issue h sz hint m a b s
  | atom h op m d a b => exact execAtom_issue h op m d a b s
  | red h op m a b => exact execRed_issue h op m a b s
  | lrs h wide m d a => exact execLrs_issue h wide m d a s
  | scs h wide m d a b => exact execScs_issue h wide m d a b s
  | cpf h var off a => exact execCpf_issue h var off a s
  | cwb h off a => exact execCwb_issue h off a s
  | cinv h dc off a => exact execCinv_issue h dc off a s
  | pld h sz off d a => exact execPld_issue h sz off d a s
  | pst h sz off a b => exact execPst_issue h sz off a b s
  | patom h op off d a b => exact execPatom_issue h op off d a b s
  | ald h wide off d a => exact execAld_issue h wide off d a s
  | ast h wide off a b => exact execAst_issue h wide off a b s
  | cpy h a => exact execCpy_issue h a s
  | twany h d m => exact execTwany_issue h d m s
  | twall h m => exact execTwall_issue h m s
  | tfirst h d m => exact execTfirst_issue h d m s
  | tclr h m => exact execTclr_issue h m s
  | watch h kind slot a => exact execWatch_issue h kind slot a s
  | wait h d a => exact execWait_issue h d a s
  | waitReturn _ => cases hw
  | waitTimeout _ => cases hw
  | bar mk n => exact execBar_issue mk n s
  | parr h d a b => exact execParr_issue h d a b s
  | pwait h d a b => exact execPwait_issue h d a b s
  | menq h d a => exact execMenq_issue h d a s
  | mstat h d sel => exact execMstat_issue h d sel s
  | send h d a b => exact execSend_issue h d a b s
  | mbadv h mb d b => exact execMbadv_issue h mb d b s
  | coll h a => exact execColl_issue h a s
  | tspawn h a => exact execTspawn_issue h a s
  | tnext h d => exact execTnext_issue h d s
  | tdone h d b => exact execTdone_issue h d b s
  | qput h d a stage => exact execQput_issue h d a stage s
  | qget h d => exact execQget_issue h d s
  | arm h a => exact execArm_issue h a s
  | launch h a => exact execLaunch_issue h a s
  | tex h arr d a b => exact execTex_issue h arr d a b s
  | texf h arr d a b c => exact execTexf_issue h arr d a b c s
  | texg h arr ch d a b c => exact execTexg_issue h arr ch d a b c s
  | texl h arr d a b c => exact execTexl_issue h arr d a b c s
  | mout h a => exact execMout_issue h a s
  | mfinMesh h d a => exact execMfinMesh_issue h d a s
  | mfinTask h d a => exact execMfinTask_issue h d a s
  | pxo h n a => exact execPxo_issue h n a s
  | pkill h => exact execPkill_issue h s
  | rbox h d a b => exact execRbox_issue h d a b s
  | rtri h d a b => exact execRtri_issue h d a b s
  | rtriW h d a b c => exact execRtriW_issue h d a b c s
  | bmbox h d a b => exact execBmbox_issue h d a b s
  | bmtri h d a b => exact execBmtri_issue h d a b s
  | bmsplit h d a b => exact execBmsplit_issue h d a b s
  | kpush h a => exact execKpush_issue h a s
  | kpop h d => exact execKpop_issue h d s
  | fence h kind obs => exact execFence_issue h kind obs s
  | trap h imm => exact execTrap_issue h imm s
  | sret h act => exact execSret_issue h act s
  | mfc h d idx => exact execMfc_issue h d idx s
  | mtc h idx a => exact execMtc_issue h idx a s
  | fpcWrite h a => exact execFpcWrite_issue h a s
  | mqbWrite h a => exact execMqbWrite_issue h a s
  | cyc h d => exact execCyc_issue h d s
  | halt h a => exact execHalt_issue h a s
  | iflush h scope => exact execIflush_issue h scope s
  | resultReturn _ _ => cases hw
  | binDraw _ _ => cases hw
  | drawReloadComplete _ => cases hw
  | forcedFiling _ _ => cases hw
  | heldGroupAge _ => cases hw
  | crateSpillReturn _ _ => cases hw
  | mwload _ => cases hw
  | mswap _ => cases hw
  | mstream _ => cases hw
  | mscale _ => cases hw
  | mzero _ => cases hw
  | mtag _ => cases hw
  | mgang _ => cases hw
  | matrixCommandComplete _ _ => cases hw
  | ringUnderrunTimeout _ => cases hw
  | copyComplete _ _ _ => cases hw
  | copyFault _ _ _ => cases hw
  | collectiveRendezvous _ => cases hw
  | collectiveComplete _ _ => cases hw
  | storeDrain _ => cases hw
  | bufferedWritePerform _ _ => cases hw
  | dcLocalRead _ _ => cases hw
  | dcLocalWrite _ _ => cases hw
  | dcEviction _ _ => cases hw
  | transientRequestAtCache _ => cases hw
  | transientRequestAtHome _ => cases hw
  | tokenMessageAtCache _ => cases hw
  | tokenMessageAtHome _ => cases hw
  | missTimerExpire _ _ => cases hw
  | activate _ => cases hw
  | deactivate _ => cases hw
  | acknowledge _ => cases hw
  | farAtomic _ _ => cases hw
  | protectedDeferralEnd _ _ => cases hw
  | messageArrival _ => cases hw
  | messageAck _ => cases hw
  | returnedMessage _ => cases hw
  | migrationForward _ => cases hw
  | fire _ _ => cases hw
  | queueFetch _ => cases hw
  | launchEntry _ _ => cases hw
  | mlaunch _ _ => cases hw
  | signal _ _ => cases hw
  | waitmem _ _ => cases hw
  | waitmemReread _ _ => cases hw
  | copyEntry _ _ => cases hw
  | reply _ _ => cases hw
  | nopEntry _ _ => cases hw
  | pass _ _ => cases hw
  | draw _ _ => cases hw
  | passend _ _ => cases hw
  | launchComplete _ _ => cases hw
  | recordRelease _ => cases hw
  | doorbellWrite _ _ _ => cases hw
  | queueDescriptorWrite _ _ _ _ => cases hw
  | queueAbort _ _ => cases hw
  | completionConsWrite _ _ => cases hw
  | blockPlace _ _ => cases hw
  | eviction _ => cases hw
  | pipelineReassign _ _ => cases hw
  | pipelineDrain _ _ => cases hw
  | groupDeal _ => cases hw
  | drawStart _ => cases hw
  | primitivePacket _ => cases hw
  | done _ => cases hw
  | passEnd _ => cases hw
  | groupRetire _ => cases hw
  | frontierRelease _ => cases hw
  | backEndApply _ => cases hw
  | passAbort _ => cases hw
  | haltComplete _ => cases hw
  | asyncCauseDelivery _ => cases hw
  | jobFault _ => cases hw
  | blockSave _ => cases hw
  | saveTimeout _ => cases hw
  | blockRestore _ _ _ => cases hw
  | singleStep _ => cases hw
  | crtCas _ _ _ _ => cases hw
  | trootWrite _ _ => cases hw
  | tshootWrite _ _ _ => cases hw
  | shootdownComplete _ => cases hw
  | exportRevoke _ _ _ _ => cases hw
  | revocationComplete _ => cases hw
  | exptWrite _ _ => cases hw
  | stockWrite _ _ => cases hw
  | codeaWrite _ _ => cases hw
  | cspillWrite _ _ => cases hw
  | mspillWrite _ _ => cases hw
  | rspillWrite _ _ => cases hw
  | saveaWrite _ _ => cases hw
  | marketTableWrite _ _ _ => cases hw
  | collGroupWrite _ _ _ _ => cases hw
  | registerWrite _ _ _ => cases hw
  | finaliserRun _ _ => cases hw
  | dmcRetireSwap _ => cases hw
  | migClear _ _ => cases hw
  | firmwareSwitch _ _ => cases hw
  | l1Eviction _ _ _ => cases hw
  | postedWriteComplete _ _ => cases hw
  | hostRead _ _ _ => cases hw
  | hostWrite _ _ => cases hw
  | uncorrectableError _ => cases hw
  | correctableError _ _ _ _ => cases hw
  | ceWindowEnd _ => cases hw
  | stallMove _ _ => cases hw
  | laneRecalibration _ _ => cases hw
  | edgeFailure _ => cases hw
  | firmwareUpdate _ _ _ => cases hw
  | rollbackFloorRaise _ _ => cases hw
  | spdmRequest _ _ => cases hw
  | powerCapSet _ => cases hw
  | powerStepChange _ _ => cases hw
  | boot _ _ => cases hw
  | stallLost _ => cases hw
  | hostPortLinkFailure _ => cases hw
  | hostPortLinkRestore _ => cases hw
  | scalePortFailure _ => cases hw
  | scalePortRestore _ => cases hw
  | switchPlaneSetup _ => cases hw
  | externalPeerAccess _ _ _ => cases hw
  | stallReset _ => cases hw

end Sys2Proof.Machine
end

