-- ==== Sys2Proof/Laws/Tables.lean ====
section
/-! SUPPORT. What the table operations do, and that the memory operations keep the canonical form. -/

set_option Elab.async false

namespace Sys2Proof

/-! ## Reading after writing a table -/

@[simp] theorem Tab.find?_nil {α : Type} (n : Nat) : Tab.find? ([] : Tab α) n = none := rfl

@[simp] theorem Tab.find?_put {α : Type} (t : Tab α) (n : Nat) (v : α) : Tab.find? (Tab.put t n v) n = some v := by
  induction t with
  | nil => simp [Tab.put, Tab.find?]
  | cons x t ih =>
    obtain ⟨k, w⟩ := x
    simp only [Tab.put]
    split
    · simp [Tab.find?]
    · split
      · simp [Tab.find?]
      · rename_i h
        simp [Tab.find?, Ne.symm h, ih]

theorem Tab.find?_put_ne {α : Type} (t : Tab α) {n m : Nat} (v : α) (h : m ≠ n) :
    Tab.find? (Tab.put t n v) m = Tab.find? t m := by
  induction t with
  | nil => simp [Tab.put, Tab.find?, Ne.symm h]
  | cons x t ih =>
    obtain ⟨k, w⟩ := x
    simp only [Tab.put]
    split
    · simp [Tab.find?, Ne.symm h]
    · split
      · rename_i h'
        subst h'
        simp [Tab.find?, Ne.symm h]
      · simp [Tab.find?, ih]

@[simp] theorem Tab.get_put {α : Type} (d : α) (t : Tab α) (n : Nat) (v : α) : Tab.get d (Tab.put t n v) n = v := by
  simp [Tab.get]

theorem Tab.get_put_ne {α : Type} (d : α) (t : Tab α) {n m : Nat} (v : α) (h : m ≠ n) :
    Tab.get d (Tab.put t n v) m = Tab.get d t m := by
  simp [Tab.get, Tab.find?_put_ne t v h]

@[simp] theorem Tab.find?_del {α : Type} (t : Tab α) (n : Nat) : Tab.find? (Tab.del t n) n = none := by
  induction t with
  | nil => rfl
  | cons x t ih =>
    obtain ⟨k, w⟩ := x
    simp only [Tab.del]
    split
    · exact ih
    · rename_i h
      simp [Tab.find?, h, ih]

theorem Tab.find?_del_ne {α : Type} (t : Tab α) {n m : Nat} (h : m ≠ n) : Tab.find? (Tab.del t n) m = Tab.find? t m := by
  induction t with
  | nil => rfl
  | cons x t ih =>
    obtain ⟨k, w⟩ := x
    simp only [Tab.del]
    split
    · rename_i h'
      subst h'
      simp [Tab.find?, ih, Ne.symm h]
    · simp [Tab.find?, ih]

@[simp] theorem Tab.get_set {α : Type} [DecidableEq α] (d : α) (t : Tab α) (n : Nat) (v : α) :
    Tab.get d (Tab.set d t n v) n = v := by
  simp only [Tab.set]
  split
  · simp [Tab.get, *]
  · simp

theorem Tab.get_set_ne {α : Type} [DecidableEq α] (d : α) (t : Tab α) {n m : Nat} (v : α) (h : m ≠ n) :
    Tab.get d (Tab.set d t n v) m = Tab.get d t m := by
  simp only [Tab.set]
  split
  · simp [Tab.get, Tab.find?_del_ne t h]
  · exact Tab.get_put_ne d t v h

/-! ## The canonical form -/

theorem Tab.wfFrom_le {α : Type} [DecidableEq α] {d : α} {t : Tab α} {lo lo' : Nat} (h : lo' ≤ lo)
    (w : Tab.wfFrom d lo t = true) : Tab.wfFrom d lo' t = true := by
  cases t with
  | nil => rfl
  | cons x t =>
    obtain ⟨k, v⟩ := x
    simp only [Tab.wfFrom, Bool.and_eq_true, decide_eq_true_eq] at *
    exact ⟨⟨by omega, w.1.2⟩, w.2⟩

theorem Tab.wfFrom_put {α : Type} [DecidableEq α] {d : α} {t : Tab α} {lo n : Nat} {v : α} (hn : lo ≤ n) (hv : v ≠ d)
    (w : Tab.wfFrom d lo t = true) : Tab.wfFrom d lo (Tab.put t n v) = true := by
  induction t generalizing lo with
  | nil => simp [Tab.put, Tab.wfFrom, hn, hv]
  | cons x t ih =>
    obtain ⟨k, u⟩ := x
    simp only [Tab.wfFrom, Bool.and_eq_true, decide_eq_true_eq] at w
    simp only [Tab.put]
    split
    · simp only [Tab.wfFrom, Bool.and_eq_true, decide_eq_true_eq]
      exact ⟨⟨hn, hv⟩, ⟨by omega, w.1.2⟩, w.2⟩
    · split
      · rename_i h
        subst h
        simp only [Tab.wfFrom, Bool.and_eq_true, decide_eq_true_eq]
        exact ⟨⟨hn, hv⟩, w.2⟩
      · simp only [Tab.wfFrom, Bool.and_eq_true, decide_eq_true_eq]
        exact ⟨w.1, ih (by omega) w.2⟩

theorem Tab.wfFrom_del {α : Type} [DecidableEq α] {d : α} {t : Tab α} {lo n : Nat}
    (w : Tab.wfFrom d lo t = true) : Tab.wfFrom d lo (Tab.del t n) = true := by
  induction t generalizing lo with
  | nil => rfl
  | cons x t ih =>
    obtain ⟨k, u⟩ := x
    simp only [Tab.wfFrom, Bool.and_eq_true, decide_eq_true_eq] at w
    simp only [Tab.del]
    split
    · exact ih (Tab.wfFrom_le (by omega) w.2)
    · simp only [Tab.wfFrom, Bool.and_eq_true, decide_eq_true_eq]
      exact ⟨w.1, ih w.2⟩

theorem Tab.wf_set {α : Type} [DecidableEq α] {d : α} {t : Tab α} {n : Nat} {v : α} (w : Tab.wf d t = true) :
    Tab.wf d (Tab.set d t n v) = true := by
  simp only [Tab.set]
  split
  · exact Tab.wfFrom_del w
  · exact Tab.wfFrom_put (Nat.zero_le n) (by assumption) w

theorem Tab.wfFrom_filter {α : Type} [DecidableEq α] {d : α} {t : Tab α} {lo : Nat} (p : Nat × α → Bool)
    (w : Tab.wfFrom d lo t = true) : Tab.wfFrom d lo (List.filter p t) = true := by
  induction t generalizing lo with
  | nil => rfl
  | cons x t ih =>
    obtain ⟨k, u⟩ := x
    simp only [Tab.wfFrom, Bool.and_eq_true, decide_eq_true_eq] at w
    simp only [List.filter]
    split
    · simp only [Tab.wfFrom, Bool.and_eq_true, decide_eq_true_eq]
      exact ⟨w.1, ih w.2⟩
    · exact ih (Tab.wfFrom_le (by omega) w.2)

/-! ## Tables whose values are updated in place -/

theorem Tab.find?_map {α β : Type} (t : Tab α) (f : Nat → α → β) (n : Nat) :
    Tab.find? (List.map (fun x => (x.1, f x.1 x.2)) t) n = (Tab.find? t n).map (f n) := by
  induction t with
  | nil => rfl
  | cons x t ih =>
    obtain ⟨k, u⟩ := x
    by_cases h : k = n
    · subst h; simp [Tab.find?]
    · simp only [List.map_cons, Tab.find?, h, if_false]
      exact ih

theorem Tab.mem_of_find? {α : Type} {t : Tab α} {n : Nat} {v : α} (h : Tab.find? t n = some v) : (n, v) ∈ t := by
  induction t with
  | nil => simp at h
  | cons x t ih =>
    obtain ⟨k, u⟩ := x
    by_cases e : k = n
    · subst e; simp [Tab.find?] at h; simp [h]
    · simp [Tab.find?, e] at h; simp [ih h]

theorem Tab.find?_of_mem {α : Type} {t : Tab α} {n : Nat} {v : α} (nd : (Tab.keys t).Nodup) (h : (n, v) ∈ t) :
    Tab.find? t n = some v := by
  induction t with
  | nil => simp at h
  | cons x t ih =>
    obtain ⟨k, u⟩ := x
    simp only [Tab.keys, List.map_cons, List.nodup_cons] at nd
    by_cases e : k = n
    · subst e
      rcases List.mem_cons.1 h with h | h
      · injection h with _ h; simp [Tab.find?, h]
      · exact absurd (List.mem_map_of_mem h) nd.1
    · rcases List.mem_cons.1 h with h | h
      · injection h with h _; exact absurd h.symm e
      · simp [Tab.find?, e, ih nd.2 h]

/-! ## Memory -/

namespace Machine

@[simp] theorem Mem.rd_wr (m : Mem) (a : Nat) (b : Byte) : (m.wr a b).rd a = b := by simp [Mem.rd, Mem.wr]

theorem Mem.rd_wr_ne (m : Mem) {a x : Nat} (b : Byte) (h : x ≠ a) : (m.wr a b).rd x = m.rd x :=
  Tab.get_set_ne 0 m b h

theorem Mem.wf_wr {m : Mem} (a : Nat) (b : Byte) (w : Memory.wf m = true) : Memory.wf (m.wr a b) = true := Tab.wf_set w

theorem Mem.wf_wrs {m : Mem} (a : Nat) (bs : List Byte) (w : Memory.wf m = true) : Memory.wf (m.wrs a bs) = true := by
  induction bs generalizing m a with
  | nil => exact w
  | cons b bs ih => exact ih (a + 1) (Mem.wf_wr a b w)

/-- A write leaves every byte outside its range alone. -/
theorem Mem.rd_wrs_out (m : Mem) (a : Nat) (bs : List Byte) {x : Nat} (h : x < a ∨ a + bs.length ≤ x) :
    (m.wrs a bs).rd x = m.rd x := by
  induction bs generalizing m a with
  | nil => rfl
  | cons b bs ih =>
    simp only [List.length_cons] at h
    simp only [Mem.wrs]
    rw [ih _ _ (by omega), Mem.rd_wr_ne _ _ (by omega)]

/-- A byte that was written is read back. -/
theorem Mem.rd_wrs_in (m : Mem) (a : Nat) (bs : List Byte) {i : Nat} (h : i < bs.length) :
    (m.wrs a bs).rd (a + i) = bs[i] := by
  induction bs generalizing m a i with
  | nil => simp at h
  | cons b bs ih =>
    cases i with
    | zero => simp only [Mem.wrs, Nat.add_zero]; rw [Mem.rd_wrs_out _ _ _ (by omega)]; simp
    | succ i =>
      simp only [List.length_cons] at h
      simp only [Mem.wrs, List.getElem_cons_succ]
      have := ih (m.wr a b) (a + 1) (i := i) (by omega)
      rw [show a + (i + 1) = a + 1 + i by omega]
      exact this

/-- Bytes that were written are read back. -/
theorem Mem.rds_wrs (m : Mem) (a : Nat) (bs : List Byte) : (m.wrs a bs).rds a bs.length = bs := by
  induction bs generalizing m a with
  | nil => rfl
  | cons b bs ih =>
    simp only [List.length_cons, Mem.rds, Mem.wrs]
    rw [ih, Mem.rd_wrs_out _ _ _ (by omega), Mem.rd_wr]

theorem leBytes_length (n v : Nat) : (leBytes n v).length = n := by
  induction n generalizing v with
  | zero => rfl
  | succ n ih => simp [leBytes, ih]

/-- A value's bytes give back the value modulo their range. -/
theorem leNat_leBytes (n v : Nat) : leNat (leBytes n v) = v % 256 ^ n := by
  induction n generalizing v with
  | zero => simp [leBytes, leNat, Nat.mod_one]
  | succ n ih =>
    rw [show 256 ^ (n + 1) = 256 * 256 ^ n by rw [Nat.pow_succ, Nat.mul_comm], Nat.mod_mul]
    simp only [leBytes, leNat, ih, BitVec.toNat_ofNat]

end Machine

end Sys2Proof
end

