-- ==== Sys2Proof/Laws/State.lean ====
section
/-! SUPPORT. What each update of the state leaves alone, field by field, and what it reads back as. -/

set_option Elab.async false

namespace Sys2Proof.Machine

/-! ## A stall, a core, a block or a squad updated: the other fields of the machine -/

@[simp] theorem putStall_agenda (s : State) (n : Nat) (t : Stall) : (s.putStall n t).agenda = s.agenda := rfl
@[simp] theorem modStall_agenda (s : State) (n : Nat) (g : Stall → Stall) : (s.modStall n g).agenda = s.agenda := rfl
@[simp] theorem modCore_agenda (s : State) (a b : Nat) (g : Core → Core) : (s.modCore a b g).agenda = s.agenda := rfl
@[simp] theorem modBlock_agenda (s : State) (b : BSel) (g : Block → Block) : (s.modBlock b g).agenda = s.agenda := rfl
@[simp] theorem modSquad_agenda (s : State) (q : Sel) (g : Squad → Squad) : (s.modSquad q g).agenda = s.agenda := rfl
@[simp] theorem putStall_cur (s : State) (n : Nat) (t : Stall) : (s.putStall n t).cur = s.cur := rfl
@[simp] theorem modStall_cur (s : State) (n : Nat) (g : Stall → Stall) : (s.modStall n g).cur = s.cur := rfl
@[simp] theorem modCore_cur (s : State) (a b : Nat) (g : Core → Core) : (s.modCore a b g).cur = s.cur := rfl
@[simp] theorem modBlock_cur (s : State) (b : BSel) (g : Block → Block) : (s.modBlock b g).cur = s.cur := rfl
@[simp] theorem modSquad_cur (s : State) (q : Sel) (g : Squad → Squad) : (s.modSquad q g).cur = s.cur := rfl
@[simp] theorem putStall_free (s : State) (n : Nat) (t : Stall) : (s.putStall n t).free = s.free := rfl
@[simp] theorem modStall_free (s : State) (n : Nat) (g : Stall → Stall) : (s.modStall n g).free = s.free := rfl
@[simp] theorem modCore_free (s : State) (a b : Nat) (g : Core → Core) : (s.modCore a b g).free = s.free := rfl
@[simp] theorem modBlock_free (s : State) (b : BSel) (g : Block → Block) : (s.modBlock b g).free = s.free := rfl
@[simp] theorem modSquad_free (s : State) (q : Sel) (g : Squad → Squad) : (s.modSquad q g).free = s.free := rfl
@[simp] theorem putStall_answer (s : State) (n : Nat) (t : Stall) : (s.putStall n t).answer = s.answer := rfl
@[simp] theorem modStall_answer (s : State) (n : Nat) (g : Stall → Stall) : (s.modStall n g).answer = s.answer := rfl
@[simp] theorem modCore_answer (s : State) (a b : Nat) (g : Core → Core) : (s.modCore a b g).answer = s.answer := rfl
@[simp] theorem modBlock_answer (s : State) (b : BSel) (g : Block → Block) : (s.modBlock b g).answer = s.answer := rfl
@[simp] theorem modSquad_answer (s : State) (q : Sel) (g : Squad → Squad) : (s.modSquad q g).answer = s.answer := rfl
@[simp] theorem putStall_site (s : State) (n : Nat) (t : Stall) : (s.putStall n t).site = s.site := rfl
@[simp] theorem modStall_site (s : State) (n : Nat) (g : Stall → Stall) : (s.modStall n g).site = s.site := rfl
@[simp] theorem modCore_site (s : State) (a b : Nat) (g : Core → Core) : (s.modCore a b g).site = s.site := rfl
@[simp] theorem modBlock_site (s : State) (b : BSel) (g : Block → Block) : (s.modBlock b g).site = s.site := rfl
@[simp] theorem modSquad_site (s : State) (q : Sel) (g : Squad → Squad) : (s.modSquad q g).site = s.site := rfl
@[simp] theorem putStall_fwd (s : State) (n : Nat) (t : Stall) : (s.putStall n t).fwd = s.fwd := rfl
@[simp] theorem modStall_fwd (s : State) (n : Nat) (g : Stall → Stall) : (s.modStall n g).fwd = s.fwd := rfl
@[simp] theorem modCore_fwd (s : State) (a b : Nat) (g : Core → Core) : (s.modCore a b g).fwd = s.fwd := rfl
@[simp] theorem modBlock_fwd (s : State) (b : BSel) (g : Block → Block) : (s.modBlock b g).fwd = s.fwd := rfl
@[simp] theorem modSquad_fwd (s : State) (q : Sel) (g : Squad → Squad) : (s.modSquad q g).fwd = s.fwd := rfl
@[simp] theorem putStall_edge (s : State) (n : Nat) (t : Stall) : (s.putStall n t).edge = s.edge := rfl
@[simp] theorem modStall_edge (s : State) (n : Nat) (g : Stall → Stall) : (s.modStall n g).edge = s.edge := rfl
@[simp] theorem modCore_edge (s : State) (a b : Nat) (g : Core → Core) : (s.modCore a b g).edge = s.edge := rfl
@[simp] theorem modBlock_edge (s : State) (b : BSel) (g : Block → Block) : (s.modBlock b g).edge = s.edge := rfl
@[simp] theorem modSquad_edge (s : State) (q : Sel) (g : Squad → Squad) : (s.modSquad q g).edge = s.edge := rfl
@[simp] theorem putStall_market (s : State) (n : Nat) (t : Stall) : (s.putStall n t).market = s.market := rfl
@[simp] theorem modStall_market (s : State) (n : Nat) (g : Stall → Stall) : (s.modStall n g).market = s.market := rfl
@[simp] theorem modCore_market (s : State) (a b : Nat) (g : Core → Core) : (s.modCore a b g).market = s.market := rfl
@[simp] theorem modBlock_market (s : State) (b : BSel) (g : Block → Block) : (s.modBlock b g).market = s.market := rfl
@[simp] theorem modSquad_market (s : State) (q : Sel) (g : Squad → Squad) : (s.modSquad q g).market = s.market := rfl
@[simp] theorem putStall_pkg (s : State) (n : Nat) (t : Stall) : (s.putStall n t).pkg = s.pkg := rfl
@[simp] theorem modStall_pkg (s : State) (n : Nat) (g : Stall → Stall) : (s.modStall n g).pkg = s.pkg := rfl
@[simp] theorem modCore_pkg (s : State) (a b : Nat) (g : Core → Core) : (s.modCore a b g).pkg = s.pkg := rfl
@[simp] theorem modBlock_pkg (s : State) (b : BSel) (g : Block → Block) : (s.modBlock b g).pkg = s.pkg := rfl
@[simp] theorem modSquad_pkg (s : State) (q : Sel) (g : Squad → Squad) : (s.modSquad q g).pkg = s.pkg := rfl
@[simp] theorem putStall_hostUp (s : State) (n : Nat) (t : Stall) : (s.putStall n t).hostUp = s.hostUp := rfl
@[simp] theorem modStall_hostUp (s : State) (n : Nat) (g : Stall → Stall) : (s.modStall n g).hostUp = s.hostUp := rfl
@[simp] theorem modCore_hostUp (s : State) (a b : Nat) (g : Core → Core) : (s.modCore a b g).hostUp = s.hostUp := rfl
@[simp] theorem modBlock_hostUp (s : State) (b : BSel) (g : Block → Block) : (s.modBlock b g).hostUp = s.hostUp := rfl
@[simp] theorem modSquad_hostUp (s : State) (q : Sel) (g : Squad → Squad) : (s.modSquad q g).hostUp = s.hostUp := rfl
@[simp] theorem putStall_scaleDown (s : State) (n : Nat) (t : Stall) : (s.putStall n t).scaleDown = s.scaleDown := rfl
@[simp] theorem modStall_scaleDown (s : State) (n : Nat) (g : Stall → Stall) : (s.modStall n g).scaleDown = s.scaleDown := rfl
@[simp] theorem modCore_scaleDown (s : State) (a b : Nat) (g : Core → Core) : (s.modCore a b g).scaleDown = s.scaleDown := rfl
@[simp] theorem modBlock_scaleDown (s : State) (b : BSel) (g : Block → Block) : (s.modBlock b g).scaleDown = s.scaleDown := rfl
@[simp] theorem modSquad_scaleDown (s : State) (q : Sel) (g : Squad → Squad) : (s.modSquad q g).scaleDown = s.scaleDown := rfl
@[simp] theorem putStall_firm (s : State) (n : Nat) (t : Stall) : (s.putStall n t).firm = s.firm := rfl
@[simp] theorem modStall_firm (s : State) (n : Nat) (g : Stall → Stall) : (s.modStall n g).firm = s.firm := rfl
@[simp] theorem modCore_firm (s : State) (a b : Nat) (g : Core → Core) : (s.modCore a b g).firm = s.firm := rfl
@[simp] theorem modBlock_firm (s : State) (b : BSel) (g : Block → Block) : (s.modBlock b g).firm = s.firm := rfl
@[simp] theorem modSquad_firm (s : State) (q : Sel) (g : Squad → Squad) : (s.modSquad q g).firm = s.firm := rfl
@[simp] theorem putStall_floors (s : State) (n : Nat) (t : Stall) : (s.putStall n t).floors = s.floors := rfl
@[simp] theorem modStall_floors (s : State) (n : Nat) (g : Stall → Stall) : (s.modStall n g).floors = s.floors := rfl
@[simp] theorem modCore_floors (s : State) (a b : Nat) (g : Core → Core) : (s.modCore a b g).floors = s.floors := rfl
@[simp] theorem modBlock_floors (s : State) (b : BSel) (g : Block → Block) : (s.modBlock b g).floors = s.floors := rfl
@[simp] theorem modSquad_floors (s : State) (q : Sel) (g : Squad → Squad) : (s.modSquad q g).floors = s.floors := rfl
@[simp] theorem putStall_pendFirm (s : State) (n : Nat) (t : Stall) : (s.putStall n t).pendFirm = s.pendFirm := rfl
@[simp] theorem modStall_pendFirm (s : State) (n : Nat) (g : Stall → Stall) : (s.modStall n g).pendFirm = s.pendFirm := rfl
@[simp] theorem modCore_pendFirm (s : State) (a b : Nat) (g : Core → Core) : (s.modCore a b g).pendFirm = s.pendFirm := rfl
@[simp] theorem modBlock_pendFirm (s : State) (b : BSel) (g : Block → Block) : (s.modBlock b g).pendFirm = s.pendFirm := rfl
@[simp] theorem modSquad_pendFirm (s : State) (q : Sel) (g : Squad → Squad) : (s.modSquad q g).pendFirm = s.pendFirm := rfl
@[simp] theorem putStall_keys (s : State) (n : Nat) (t : Stall) : (s.putStall n t).keys = s.keys := rfl
@[simp] theorem modStall_keys (s : State) (n : Nat) (g : Stall → Stall) : (s.modStall n g).keys = s.keys := rfl
@[simp] theorem modCore_keys (s : State) (a b : Nat) (g : Core → Core) : (s.modCore a b g).keys = s.keys := rfl
@[simp] theorem modBlock_keys (s : State) (b : BSel) (g : Block → Block) : (s.modBlock b g).keys = s.keys := rfl
@[simp] theorem modSquad_keys (s : State) (q : Sel) (g : Squad → Squad) : (s.modSquad q g).keys = s.keys := rfl
@[simp] theorem putStall_spdm (s : State) (n : Nat) (t : Stall) : (s.putStall n t).spdm = s.spdm := rfl
@[simp] theorem modStall_spdm (s : State) (n : Nat) (g : Stall → Stall) : (s.modStall n g).spdm = s.spdm := rfl
@[simp] theorem modCore_spdm (s : State) (a b : Nat) (g : Core → Core) : (s.modCore a b g).spdm = s.spdm := rfl
@[simp] theorem modBlock_spdm (s : State) (b : BSel) (g : Block → Block) : (s.modBlock b g).spdm = s.spdm := rfl
@[simp] theorem modSquad_spdm (s : State) (q : Sel) (g : Squad → Squad) : (s.modSquad q g).spdm = s.spdm := rfl
@[simp] theorem putStall_edges (s : State) (n : Nat) (t : Stall) : (s.putStall n t).edges = s.edges := rfl
@[simp] theorem modStall_edges (s : State) (n : Nat) (g : Stall → Stall) : (s.modStall n g).edges = s.edges := rfl
@[simp] theorem modCore_edges (s : State) (a b : Nat) (g : Core → Core) : (s.modCore a b g).edges = s.edges := rfl
@[simp] theorem modBlock_edges (s : State) (b : BSel) (g : Block → Block) : (s.modBlock b g).edges = s.edges := rfl
@[simp] theorem modSquad_edges (s : State) (q : Sel) (g : Squad → Squad) : (s.modSquad q g).edges = s.edges := rfl
@[simp] theorem putStall_evlog (s : State) (n : Nat) (t : Stall) : (s.putStall n t).evlog = s.evlog := rfl
@[simp] theorem modStall_evlog (s : State) (n : Nat) (g : Stall → Stall) : (s.modStall n g).evlog = s.evlog := rfl
@[simp] theorem modCore_evlog (s : State) (a b : Nat) (g : Core → Core) : (s.modCore a b g).evlog = s.evlog := rfl
@[simp] theorem modBlock_evlog (s : State) (b : BSel) (g : Block → Block) : (s.modBlock b g).evlog = s.evlog := rfl
@[simp] theorem modSquad_evlog (s : State) (q : Sel) (g : Squad → Squad) : (s.modSquad q g).evlog = s.evlog := rfl
@[simp] theorem putStall_powerCap (s : State) (n : Nat) (t : Stall) : (s.putStall n t).powerCap = s.powerCap := rfl
@[simp] theorem modStall_powerCap (s : State) (n : Nat) (g : Stall → Stall) : (s.modStall n g).powerCap = s.powerCap := rfl
@[simp] theorem modCore_powerCap (s : State) (a b : Nat) (g : Core → Core) : (s.modCore a b g).powerCap = s.powerCap := rfl
@[simp] theorem modBlock_powerCap (s : State) (b : BSel) (g : Block → Block) : (s.modBlock b g).powerCap = s.powerCap := rfl
@[simp] theorem modSquad_powerCap (s : State) (q : Sel) (g : Squad → Squad) : (s.modSquad q g).powerCap = s.powerCap := rfl
@[simp] theorem putStall_retired (s : State) (n : Nat) (t : Stall) : (s.putStall n t).retired = s.retired := rfl
@[simp] theorem modStall_retired (s : State) (n : Nat) (g : Stall → Stall) : (s.modStall n g).retired = s.retired := rfl
@[simp] theorem modCore_retired (s : State) (a b : Nat) (g : Core → Core) : (s.modCore a b g).retired = s.retired := rfl
@[simp] theorem modBlock_retired (s : State) (b : BSel) (g : Block → Block) : (s.modBlock b g).retired = s.retired := rfl
@[simp] theorem modSquad_retired (s : State) (q : Sel) (g : Squad → Squad) : (s.modSquad q g).retired = s.retired := rfl
@[simp] theorem putStall_mem (s : State) (n : Nat) (t : Stall) : (s.putStall n t).mem = s.mem := rfl
@[simp] theorem modStall_mem (s : State) (n : Nat) (g : Stall → Stall) : (s.modStall n g).mem = s.mem := rfl
@[simp] theorem modCore_mem (s : State) (a b : Nat) (g : Core → Core) : (s.modCore a b g).mem = s.mem := rfl
@[simp] theorem modBlock_mem (s : State) (b : BSel) (g : Block → Block) : (s.modBlock b g).mem = s.mem := rfl
@[simp] theorem modSquad_mem (s : State) (q : Sel) (g : Squad → Squad) : (s.modSquad q g).mem = s.mem := rfl
@[simp] theorem putStall_lost (s : State) (n : Nat) (t : Stall) : (s.putStall n t).lost = s.lost := rfl
@[simp] theorem modStall_lost (s : State) (n : Nat) (g : Stall → Stall) : (s.modStall n g).lost = s.lost := rfl
@[simp] theorem modCore_lost (s : State) (a b : Nat) (g : Core → Core) : (s.modCore a b g).lost = s.lost := rfl
@[simp] theorem modBlock_lost (s : State) (b : BSel) (g : Block → Block) : (s.modBlock b g).lost = s.lost := rfl
@[simp] theorem modSquad_lost (s : State) (q : Sel) (g : Squad → Squad) : (s.modSquad q g).lost = s.lost := rfl
@[simp] theorem putStall_hostMem (s : State) (n : Nat) (t : Stall) : (s.putStall n t).hostMem = s.hostMem := rfl
@[simp] theorem modStall_hostMem (s : State) (n : Nat) (g : Stall → Stall) : (s.modStall n g).hostMem = s.hostMem := rfl
@[simp] theorem modCore_hostMem (s : State) (a b : Nat) (g : Core → Core) : (s.modCore a b g).hostMem = s.hostMem := rfl
@[simp] theorem modBlock_hostMem (s : State) (b : BSel) (g : Block → Block) : (s.modBlock b g).hostMem = s.hostMem := rfl
@[simp] theorem modSquad_hostMem (s : State) (q : Sel) (g : Squad → Squad) : (s.modSquad q g).hostMem = s.hostMem := rfl
@[simp] theorem putStall_extMem (s : State) (n : Nat) (t : Stall) : (s.putStall n t).extMem = s.extMem := rfl
@[simp] theorem modStall_extMem (s : State) (n : Nat) (g : Stall → Stall) : (s.modStall n g).extMem = s.extMem := rfl
@[simp] theorem modCore_extMem (s : State) (a b : Nat) (g : Core → Core) : (s.modCore a b g).extMem = s.extMem := rfl
@[simp] theorem modBlock_extMem (s : State) (b : BSel) (g : Block → Block) : (s.modBlock b g).extMem = s.extMem := rfl
@[simp] theorem modSquad_extMem (s : State) (q : Sel) (g : Squad → Squad) : (s.modSquad q g).extMem = s.extMem := rfl
@[simp] theorem putStall_home (s : State) (n : Nat) (t : Stall) : (s.putStall n t).home = s.home := rfl
@[simp] theorem modStall_home (s : State) (n : Nat) (g : Stall → Stall) : (s.modStall n g).home = s.home := rfl
@[simp] theorem modCore_home (s : State) (a b : Nat) (g : Core → Core) : (s.modCore a b g).home = s.home := rfl
@[simp] theorem modBlock_home (s : State) (b : BSel) (g : Block → Block) : (s.modBlock b g).home = s.home := rfl
@[simp] theorem modSquad_home (s : State) (q : Sel) (g : Squad → Squad) : (s.modSquad q g).home = s.home := rfl
@[simp] theorem putStall_inbound (s : State) (n : Nat) (t : Stall) : (s.putStall n t).inbound = s.inbound := rfl
@[simp] theorem modStall_inbound (s : State) (n : Nat) (g : Stall → Stall) : (s.modStall n g).inbound = s.inbound := rfl
@[simp] theorem modCore_inbound (s : State) (a b : Nat) (g : Core → Core) : (s.modCore a b g).inbound = s.inbound := rfl
@[simp] theorem modBlock_inbound (s : State) (b : BSel) (g : Block → Block) : (s.modBlock b g).inbound = s.inbound := rfl
@[simp] theorem modSquad_inbound (s : State) (q : Sel) (g : Squad → Squad) : (s.modSquad q g).inbound = s.inbound := rfl
@[simp] theorem putStall_moved (s : State) (n : Nat) (t : Stall) : (s.putStall n t).moved = s.moved := rfl
@[simp] theorem modStall_moved (s : State) (n : Nat) (g : Stall → Stall) : (s.modStall n g).moved = s.moved := rfl
@[simp] theorem modCore_moved (s : State) (a b : Nat) (g : Core → Core) : (s.modCore a b g).moved = s.moved := rfl
@[simp] theorem modBlock_moved (s : State) (b : BSel) (g : Block → Block) : (s.modBlock b g).moved = s.moved := rfl
@[simp] theorem modSquad_moved (s : State) (q : Sel) (g : Squad → Squad) : (s.modSquad q g).moved = s.moved := rfl
@[simp] theorem putStall_net (s : State) (n : Nat) (t : Stall) : (s.putStall n t).net = s.net := rfl
@[simp] theorem modStall_net (s : State) (n : Nat) (g : Stall → Stall) : (s.modStall n g).net = s.net := rfl
@[simp] theorem modCore_net (s : State) (a b : Nat) (g : Core → Core) : (s.modCore a b g).net = s.net := rfl
@[simp] theorem modBlock_net (s : State) (b : BSel) (g : Block → Block) : (s.modBlock b g).net = s.net := rfl
@[simp] theorem modSquad_net (s : State) (q : Sel) (g : Squad → Squad) : (s.modSquad q g).net = s.net := rfl
@[simp] theorem putStall_prims (s : State) (n : Nat) (t : Stall) : (s.putStall n t).prims = s.prims := rfl
@[simp] theorem modStall_prims (s : State) (n : Nat) (g : Stall → Stall) : (s.modStall n g).prims = s.prims := rfl
@[simp] theorem modCore_prims (s : State) (a b : Nat) (g : Core → Core) : (s.modCore a b g).prims = s.prims := rfl
@[simp] theorem modBlock_prims (s : State) (b : BSel) (g : Block → Block) : (s.modBlock b g).prims = s.prims := rfl
@[simp] theorem modSquad_prims (s : State) (q : Sel) (g : Squad → Squad) : (s.modSquad q g).prims = s.prims := rfl
@[simp] theorem putStall_passes (s : State) (n : Nat) (t : Stall) : (s.putStall n t).passes = s.passes := rfl
@[simp] theorem modStall_passes (s : State) (n : Nat) (g : Stall → Stall) : (s.modStall n g).passes = s.passes := rfl
@[simp] theorem modCore_passes (s : State) (a b : Nat) (g : Core → Core) : (s.modCore a b g).passes = s.passes := rfl
@[simp] theorem modBlock_passes (s : State) (b : BSel) (g : Block → Block) : (s.modBlock b g).passes = s.passes := rfl
@[simp] theorem modSquad_passes (s : State) (q : Sel) (g : Squad → Squad) : (s.modSquad q g).passes = s.passes := rfl
@[simp] theorem putStall_nextId (s : State) (n : Nat) (t : Stall) : (s.putStall n t).nextId = s.nextId := rfl
@[simp] theorem modStall_nextId (s : State) (n : Nat) (g : Stall → Stall) : (s.modStall n g).nextId = s.nextId := rfl
@[simp] theorem modCore_nextId (s : State) (a b : Nat) (g : Core → Core) : (s.modCore a b g).nextId = s.nextId := rfl
@[simp] theorem modBlock_nextId (s : State) (b : BSel) (g : Block → Block) : (s.modBlock b g).nextId = s.nextId := rfl
@[simp] theorem modSquad_nextId (s : State) (q : Sel) (g : Squad → Squad) : (s.modSquad q g).nextId = s.nextId := rfl

/-! ## A core updated: the other fields of its stall -/

@[simp] theorem Stall.modCore_clock (t : Stall) (c : Nat) (g : Core → Core) : (t.modCore c g).clock = t.clock := rfl
@[simp] theorem Stall.modCore_crt (t : Stall) (c : Nat) (g : Core → Core) : (t.modCore c g).crt = t.crt := rfl
@[simp] theorem Stall.modCore_cspill (t : Stall) (c : Nat) (g : Core → Core) : (t.modCore c g).cspill = t.cspill := rfl
@[simp] theorem Stall.modCore_troot (t : Stall) (c : Nat) (g : Core → Core) : (t.modCore c g).troot = t.troot := rfl
@[simp] theorem Stall.modCore_stock (t : Stall) (c : Nat) (g : Core → Core) : (t.modCore c g).stock = t.stock := rfl
@[simp] theorem Stall.modCore_mscq (t : Stall) (c : Nat) (g : Core → Core) : (t.modCore c g).mscq = t.mscq := rfl
@[simp] theorem Stall.modCore_tshootVa (t : Stall) (c : Nat) (g : Core → Core) : (t.modCore c g).tshootVa = t.tshootVa := rfl
@[simp] theorem Stall.modCore_tshootN (t : Stall) (c : Nat) (g : Core → Core) : (t.modCore c g).tshootN = t.tshootN := rfl
@[simp] theorem Stall.modCore_cring (t : Stall) (c : Nat) (g : Core → Core) : (t.modCore c g).cring = t.cring := rfl
@[simp] theorem Stall.modCore_crseq (t : Stall) (c : Nat) (g : Core → Core) : (t.modCore c g).crseq = t.crseq := rfl
@[simp] theorem Stall.modCore_ccons (t : Stall) (c : Nat) (g : Core → Core) : (t.modCore c g).ccons = t.ccons := rfl
@[simp] theorem Stall.modCore_rspill (t : Stall) (c : Nat) (g : Core → Core) : (t.modCore c g).rspill = t.rspill := rfl
@[simp] theorem Stall.modCore_svec (t : Stall) (c : Nat) (g : Core → Core) : (t.modCore c g).svec = t.svec := rfl
@[simp] theorem Stall.modCore_savea (t : Stall) (c : Nat) (g : Core → Core) : (t.modCore c g).savea = t.savea := rfl
@[simp] theorem Stall.modCore_scring (t : Stall) (c : Nat) (g : Core → Core) : (t.modCore c g).scring = t.scring := rfl
@[simp] theorem Stall.modCore_scrseq (t : Stall) (c : Nat) (g : Core → Core) : (t.modCore c g).scrseq = t.scrseq := rfl
@[simp] theorem Stall.modCore_sccons (t : Stall) (c : Nat) (g : Core → Core) : (t.modCore c g).sccons = t.sccons := rfl
@[simp] theorem Stall.modCore_ceCount (t : Stall) (c : Nat) (g : Core → Core) : (t.modCore c g).ceCount = t.ceCount := rfl
@[simp] theorem Stall.modCore_osc (t : Stall) (c : Nat) (g : Core → Core) : (t.modCore c g).osc = t.osc := rfl
@[simp] theorem Stall.modCore_ceRest (t : Stall) (c : Nat) (g : Core → Core) : (t.modCore c g).ceRest = t.ceRest := rfl
@[simp] theorem Stall.modCore_pwr (t : Stall) (c : Nat) (g : Core → Core) : (t.modCore c g).pwr = t.pwr := rfl
@[simp] theorem Stall.modCore_expt (t : Stall) (c : Nat) (g : Core → Core) : (t.modCore c g).expt = t.expt := rfl
@[simp] theorem Stall.modCore_mspill (t : Stall) (c : Nat) (g : Core → Core) : (t.modCore c g).mspill = t.mspill := rfl
@[simp] theorem Stall.modCore_codea (t : Stall) (c : Nat) (g : Core → Core) : (t.modCore c g).codea = t.codea := rfl
@[simp] theorem Stall.modCore_routes (t : Stall) (c : Nat) (g : Core → Core) : (t.modCore c g).routes = t.routes := rfl
@[simp] theorem Stall.modCore_defRoutes (t : Stall) (c : Nat) (g : Core → Core) : (t.modCore c g).defRoutes = t.defRoutes := rfl
@[simp] theorem Stall.modCore_coll (t : Stall) (c : Nat) (g : Core → Core) : (t.modCore c g).coll = t.coll := rfl
@[simp] theorem Stall.modCore_qdesc (t : Stall) (c : Nat) (g : Core → Core) : (t.modCore c g).qdesc = t.qdesc := rfl
@[simp] theorem Stall.modCore_armt (t : Stall) (c : Nat) (g : Core → Core) : (t.modCore c g).armt = t.armt := rfl
@[simp] theorem Stall.modCore_impt (t : Stall) (c : Nat) (g : Core → Core) : (t.modCore c g).impt = t.impt := rfl
@[simp] theorem Stall.modCore_repl (t : Stall) (c : Nat) (g : Core → Core) : (t.modCore c g).repl = t.repl := rfl
@[simp] theorem Stall.modCore_dc (t : Stall) (c : Nat) (g : Core → Core) : (t.modCore c g).dc = t.dc := rfl
@[simp] theorem Stall.modCore_ptab (t : Stall) (c : Nat) (g : Core → Core) : (t.modCore c g).ptab = t.ptab := rfl
@[simp] theorem Stall.modCore_preq (t : Stall) (c : Nat) (g : Core → Core) : (t.modCore c g).preq = t.preq := rfl
@[simp] theorem Stall.modCore_pwait (t : Stall) (c : Nat) (g : Core → Core) : (t.modCore c g).pwait = t.pwait := rfl
@[simp] theorem Stall.modCore_want (t : Stall) (c : Nat) (g : Core → Core) : (t.modCore c g).want = t.want := rfl
@[simp] theorem Stall.modCore_marked (t : Stall) (c : Nat) (g : Core → Core) : (t.modCore c g).marked = t.marked := rfl
@[simp] theorem Stall.modCore_wbuf (t : Stall) (c : Nat) (g : Core → Core) : (t.modCore c g).wbuf = t.wbuf := rfl
@[simp] theorem Stall.modCore_posted (t : Stall) (c : Nat) (g : Core → Core) : (t.modCore c g).posted = t.posted := rfl
@[simp] theorem Stall.modCore_hro (t : Stall) (c : Nat) (g : Core → Core) : (t.modCore c g).hro = t.hro := rfl
@[simp] theorem Stall.modCore_far (t : Stall) (c : Nat) (g : Core → Core) : (t.modCore c g).far = t.far := rfl
@[simp] theorem Stall.modCore_cards (t : Stall) (c : Nat) (g : Core → Core) : (t.modCore c g).cards = t.cards := rfl
@[simp] theorem Stall.modCore_tlb (t : Stall) (c : Nat) (g : Core → Core) : (t.modCore c g).tlb = t.tlb := rfl
@[simp] theorem Stall.modCore_shoots (t : Stall) (c : Nat) (g : Core → Core) : (t.modCore c g).shoots = t.shoots := rfl
@[simp] theorem Stall.modCore_revokes (t : Stall) (c : Nat) (g : Core → Core) : (t.modCore c g).revokes = t.revokes := rfl
@[simp] theorem Stall.modCore_sharers (t : Stall) (c : Nat) (g : Core → Core) : (t.modCore c g).sharers = t.sharers := rfl
@[simp] theorem Stall.modCore_sendSeq (t : Stall) (c : Nat) (g : Core → Core) : (t.modCore c g).sendSeq = t.sendSeq := rfl
@[simp] theorem Stall.modCore_expected (t : Stall) (c : Nat) (g : Core → Core) : (t.modCore c g).expected = t.expected := rfl
@[simp] theorem Stall.modCore_early (t : Stall) (c : Nat) (g : Core → Core) : (t.modCore c g).early = t.early := rfl
@[simp] theorem Stall.modCore_migbuf (t : Stall) (c : Nat) (g : Core → Core) : (t.modCore c g).migbuf = t.migbuf := rfl
@[simp] theorem Stall.modCore_fires (t : Stall) (c : Nat) (g : Core → Core) : (t.modCore c g).fires = t.fires := rfl
@[simp] theorem Stall.modCore_colls (t : Stall) (c : Nat) (g : Core → Core) : (t.modCore c g).colls = t.colls := rfl
@[simp] theorem Stall.modCore_dead (t : Stall) (c : Nat) (g : Core → Core) : (t.modCore c g).dead = t.dead := rfl
@[simp] theorem Stall.modCore_queues (t : Stall) (c : Nat) (g : Core → Core) : (t.modCore c g).queues = t.queues := rfl
@[simp] theorem Stall.modCore_entries (t : Stall) (c : Nat) (g : Core → Core) : (t.modCore c g).entries = t.entries := rfl
@[simp] theorem Stall.modCore_launches (t : Stall) (c : Nat) (g : Core → Core) : (t.modCore c g).launches = t.launches := rfl
@[simp] theorem Stall.modCore_devq (t : Stall) (c : Nat) (g : Core → Core) : (t.modCore c g).devq = t.devq := rfl
@[simp] theorem Stall.modCore_tasks (t : Stall) (c : Nat) (g : Core → Core) : (t.modCore c g).tasks = t.tasks := rfl
@[simp] theorem Stall.modCore_pipes (t : Stall) (c : Nat) (g : Core → Core) : (t.modCore c g).pipes = t.pipes := rfl
@[simp] theorem Stall.modCore_heldRecs (t : Stall) (c : Nat) (g : Core → Core) : (t.modCore c g).heldRecs = t.heldRecs := rfl
@[simp] theorem Stall.modCore_outRecs (t : Stall) (c : Nat) (g : Core → Core) : (t.modCore c g).outRecs = t.outRecs := rfl
@[simp] theorem Stall.modCore_saved (t : Stall) (c : Nat) (g : Core → Core) : (t.modCore c g).saved = t.saved := rfl
@[simp] theorem Stall.modCore_evicting (t : Stall) (c : Nat) (g : Core → Core) : (t.modCore c g).evicting = t.evicting := rfl
@[simp] theorem Stall.modCore_slots (t : Stall) (c : Nat) (g : Core → Core) : (t.modCore c g).slots = t.slots := rfl
@[simp] theorem Stall.modCore_pausePlace (t : Stall) (c : Nat) (g : Core → Core) : (t.modCore c g).pausePlace = t.pausePlace := rfl
@[simp] theorem Stall.modCore_code (t : Stall) (c : Nat) (g : Core → Core) : (t.modCore c g).code = t.code := rfl
@[simp] theorem Stall.modCore_launched (t : Stall) (c : Nat) (g : Core → Core) : (t.modCore c g).launched = t.launched := rfl

/-! ## A block put back: the other fields of its core -/

@[simp] theorem Core.putBlock_recs (k : Core) (n : Nat) (b : Block) : (k.putBlock n b).recs = k.recs := by
  unfold Core.putBlock; split <;> rfl
@[simp] theorem Core.putBlock_l1 (k : Core) (n : Nat) (b : Block) : (k.putBlock n b).l1 = k.l1 := by
  unfold Core.putBlock; split <;> rfl
@[simp] theorem Core.putBlock_l1h (k : Core) (n : Nat) (b : Block) : (k.putBlock n b).l1h = k.l1h := by
  unfold Core.putBlock; split <;> rfl
@[simp] theorem Core.putBlock_pf (k : Core) (n : Nat) (b : Block) : (k.putBlock n b).pf = k.pf := by
  unfold Core.putBlock; split <;> rfl
@[simp] theorem Core.putBlock_icache (k : Core) (n : Nat) (b : Block) : (k.putBlock n b).icache = k.icache := by
  unfold Core.putBlock; split <;> rfl
@[simp] theorem Core.putBlock_copies (k : Core) (n : Nat) (b : Block) : (k.putBlock n b).copies = k.copies := by
  unfold Core.putBlock; split <;> rfl
@[simp] theorem Core.putBlock_retst (k : Core) (n : Nat) (b : Block) : (k.putBlock n b).retst = k.retst := by
  unfold Core.putBlock; split <;> rfl
@[simp] theorem Core.putBlock_supFile (k : Core) (n : Nat) (b : Block) : (k.putBlock n b).supFile = k.supFile := by
  unfold Core.putBlock; split <;> rfl
@[simp] theorem Core.putBlock_supOwner (k : Core) (n : Nat) (b : Block) : (k.putBlock n b).supOwner = k.supOwner := by
  unfold Core.putBlock; split <;> rfl
@[simp] theorem Core.putBlock_queries (k : Core) (n : Nat) (b : Block) : (k.putBlock n b).queries = k.queries := by
  unfold Core.putBlock; split <;> rfl
@[simp] theorem Core.putBlock_off (k : Core) (n : Nat) (b : Block) : (k.putBlock n b).off = k.off := by
  unfold Core.putBlock; split <;> rfl
@[simp] theorem Core.putBlock_ceTimes (k : Core) (n : Nat) (b : Block) : (k.putBlock n b).ceTimes = k.ceTimes := by
  unfold Core.putBlock; split <;> rfl

/-! ## A squad updated: the other fields of its block -/

@[simp] theorem Block.modSquad_launch (b : Block) (n : Nat) (g : Squad → Squad) : (b.modSquad n g).launch = b.launch := by
  unfold Block.modSquad; split <;> rfl
@[simp] theorem Block.modSquad_index (b : Block) (n : Nat) (g : Squad → Squad) : (b.modSquad n g).index = b.index := by
  unfold Block.modSquad; split <;> rfl
@[simp] theorem Block.modSquad_arg (b : Block) (n : Nat) (g : Squad → Squad) : (b.modSquad n g).arg = b.arg := by
  unfold Block.modSquad; split <;> rfl
@[simp] theorem Block.modSquad_threads (b : Block) (n : Nat) (g : Squad → Squad) : (b.modSquad n g).threads = b.threads := by
  unfold Block.modSquad; split <;> rfl
@[simp] theorem Block.modSquad_kern (b : Block) (n : Nat) (g : Squad → Squad) : (b.modSquad n g).kern = b.kern := by
  unfold Block.modSquad; split <;> rfl
@[simp] theorem Block.modSquad_gang (b : Block) (n : Nat) (g : Squad → Squad) : (b.modSquad n g).gang = b.gang := by
  unfold Block.modSquad; split <;> rfl
@[simp] theorem Block.modSquad_lcore (b : Block) (n : Nat) (g : Squad → Squad) : (b.modSquad n g).lcore = b.lcore := by
  unfold Block.modSquad; split <;> rfl
@[simp] theorem Block.modSquad_cslot (b : Block) (n : Nat) (g : Squad → Squad) : (b.modSquad n g).cslot = b.cslot := by
  unfold Block.modSquad; split <;> rfl
@[simp] theorem Block.modSquad_pad (b : Block) (n : Nat) (g : Squad → Squad) : (b.modSquad n g).pad = b.pad := by
  unfold Block.modSquad; split <;> rfl
@[simp] theorem Block.modSquad_am (b : Block) (n : Nat) (g : Squad → Squad) : (b.modSquad n g).am = b.am := by
  unfold Block.modSquad; split <;> rfl
@[simp] theorem Block.modSquad_padBad (b : Block) (n : Nat) (g : Squad → Squad) : (b.modSquad n g).padBad = b.padBad := by
  unfold Block.modSquad; split <;> rfl
@[simp] theorem Block.modSquad_amBad (b : Block) (n : Nat) (g : Squad → Squad) : (b.modSquad n g).amBad = b.amBad := by
  unfold Block.modSquad; split <;> rfl
@[simp] theorem Block.modSquad_fpc (b : Block) (n : Nat) (g : Squad → Squad) : (b.modSquad n g).fpc = b.fpc := by
  unfold Block.modSquad; split <;> rfl
@[simp] theorem Block.modSquad_tagsDone (b : Block) (n : Nat) (g : Squad → Squad) : (b.modSquad n g).tagsDone = b.tagsDone := by
  unfold Block.modSquad; split <;> rfl
@[simp] theorem Block.modSquad_tagsBusy (b : Block) (n : Nat) (g : Squad → Squad) : (b.modSquad n g).tagsBusy = b.tagsBusy := by
  unfold Block.modSquad; split <;> rfl
@[simp] theorem Block.modSquad_ksp (b : Block) (n : Nat) (g : Squad → Squad) : (b.modSquad n g).ksp = b.ksp := by
  unfold Block.modSquad; split <;> rfl
@[simp] theorem Block.modSquad_crw (b : Block) (n : Nat) (g : Squad → Squad) : (b.modSquad n g).crw = b.crw := by
  unfold Block.modSquad; split <;> rfl
@[simp] theorem Block.modSquad_bars (b : Block) (n : Nat) (g : Squad → Squad) : (b.modSquad n g).bars = b.bars := by
  unfold Block.modSquad; split <;> rfl
@[simp] theorem Block.modSquad_eng (b : Block) (n : Nat) (g : Squad → Squad) : (b.modSquad n g).eng = b.eng := by
  unfold Block.modSquad; split <;> rfl
@[simp] theorem Block.modSquad_tails (b : Block) (n : Nat) (g : Squad → Squad) : (b.modSquad n g).tails = b.tails := by
  unfold Block.modSquad; split <;> rfl
@[simp] theorem Block.modSquad_inflight (b : Block) (n : Nat) (g : Squad → Squad) : (b.modSquad n g).inflight = b.inflight := by
  unfold Block.modSquad; split <;> rfl
@[simp] theorem Block.modSquad_live (b : Block) (n : Nat) (g : Squad → Squad) : (b.modSquad n g).live = b.live := by
  unfold Block.modSquad; split <;> rfl
@[simp] theorem Block.modSquad_halt (b : Block) (n : Nat) (g : Squad → Squad) : (b.modSquad n g).halt = b.halt := by
  unfold Block.modSquad; split <;> rfl
@[simp] theorem Block.modSquad_kind (b : Block) (n : Nat) (g : Squad → Squad) : (b.modSquad n g).kind = b.kind := by
  unfold Block.modSquad; split <;> rfl
@[simp] theorem Block.modSquad_mesh (b : Block) (n : Nat) (g : Squad → Squad) : (b.modSquad n g).mesh = b.mesh := by
  unfold Block.modSquad; split <;> rfl
@[simp] theorem Block.modSquad_stamp (b : Block) (n : Nat) (g : Squad → Squad) : (b.modSquad n g).stamp = b.stamp := by
  unfold Block.modSquad; split <;> rfl

/-! ## Lanes updated: the other fields of their squad -/

@[simp] theorem Squad.modLane_role (q : Squad) (l : Nat) (g : Lane → Lane) : (q.modLane l g).role = q.role := by
  unfold Squad.modLane; split <;> rfl
@[simp] theorem Squad.mapLanes_role (q : Squad) (g : Nat → Lane → Lane) : (q.mapLanes g).role = q.role := rfl
@[simp] theorem Squad.modLane_pc (q : Squad) (l : Nat) (g : Lane → Lane) : (q.modLane l g).pc = q.pc := by
  unfold Squad.modLane; split <;> rfl
@[simp] theorem Squad.mapLanes_pc (q : Squad) (g : Nat → Lane → Lane) : (q.mapLanes g).pc = q.pc := rfl
@[simp] theorem Squad.modLane_sca (q : Squad) (l : Nat) (g : Lane → Lane) : (q.modLane l g).sca = q.sca := by
  unfold Squad.modLane; split <;> rfl
@[simp] theorem Squad.mapLanes_sca (q : Squad) (g : Nat → Lane → Lane) : (q.mapLanes g).sca = q.sca := rfl
@[simp] theorem Squad.modLane_lc (q : Squad) (l : Nat) (g : Lane → Lane) : (q.modLane l g).lc = q.lc := by
  unfold Squad.modLane; split <;> rfl
@[simp] theorem Squad.mapLanes_lc (q : Squad) (g : Nat → Lane → Lane) : (q.mapLanes g).lc = q.lc := rfl
@[simp] theorem Squad.modLane_loops (q : Squad) (l : Nat) (g : Lane → Lane) : (q.modLane l g).loops = q.loops := by
  unfold Squad.modLane; split <;> rfl
@[simp] theorem Squad.mapLanes_loops (q : Squad) (g : Nat → Lane → Lane) : (q.mapLanes g).loops = q.loops := rfl
@[simp] theorem Squad.modLane_w0 (q : Squad) (l : Nat) (g : Lane → Lane) : (q.modLane l g).w0 = q.w0 := by
  unfold Squad.modLane; split <;> rfl
@[simp] theorem Squad.mapLanes_w0 (q : Squad) (g : Nat → Lane → Lane) : (q.mapLanes g).w0 = q.w0 := rfl
@[simp] theorem Squad.modLane_w1 (q : Squad) (l : Nat) (g : Lane → Lane) : (q.modLane l g).w1 = q.w1 := by
  unfold Squad.modLane; split <;> rfl
@[simp] theorem Squad.mapLanes_w1 (q : Squad) (g : Nat → Lane → Lane) : (q.mapLanes g).w1 = q.w1 := rfl
@[simp] theorem Squad.modLane_flight (q : Squad) (l : Nat) (g : Lane → Lane) : (q.modLane l g).flight = q.flight := by
  unfold Squad.modLane; split <;> rfl
@[simp] theorem Squad.mapLanes_flight (q : Squad) (g : Nat → Lane → Lane) : (q.mapLanes g).flight = q.flight := rfl
@[simp] theorem Squad.modLane_sq (q : Squad) (l : Nat) (g : Lane → Lane) : (q.modLane l g).sq = q.sq := by
  unfold Squad.modLane; split <;> rfl
@[simp] theorem Squad.mapLanes_sq (q : Squad) (g : Nat → Lane → Lane) : (q.mapLanes g).sq = q.sq := rfl
@[simp] theorem Squad.modLane_park (q : Squad) (l : Nat) (g : Lane → Lane) : (q.modLane l g).park = q.park := by
  unfold Squad.modLane; split <;> rfl
@[simp] theorem Squad.mapLanes_park (q : Squad) (g : Nat → Lane → Lane) : (q.mapLanes g).park = q.park := rfl
@[simp] theorem Squad.modLane_agedDraw (q : Squad) (l : Nat) (g : Lane → Lane) : (q.modLane l g).agedDraw = q.agedDraw := by
  unfold Squad.modLane; split <;> rfl
@[simp] theorem Squad.mapLanes_agedDraw (q : Squad) (g : Nat → Lane → Lane) : (q.mapLanes g).agedDraw = q.agedDraw := rfl
@[simp] theorem Squad.modLane_point (q : Squad) (l : Nat) (g : Lane → Lane) : (q.modLane l g).point = q.point := by
  unfold Squad.modLane; split <;> rfl
@[simp] theorem Squad.mapLanes_point (q : Squad) (g : Nat → Lane → Lane) : (q.mapLanes g).point = q.point := rfl
@[simp] theorem Squad.modLane_reload (q : Squad) (l : Nat) (g : Lane → Lane) : (q.modLane l g).reload = q.reload := by
  unfold Squad.modLane; split <;> rfl
@[simp] theorem Squad.mapLanes_reload (q : Squad) (g : Nat → Lane → Lane) : (q.mapLanes g).reload = q.reload := rfl
@[simp] theorem Squad.modLane_asks (q : Squad) (l : Nat) (g : Lane → Lane) : (q.modLane l g).asks = q.asks := by
  unfold Squad.modLane; split <;> rfl
@[simp] theorem Squad.mapLanes_asks (q : Squad) (g : Nat → Lane → Lane) : (q.mapLanes g).asks = q.asks := rfl
@[simp] theorem Squad.modLane_since (q : Squad) (l : Nat) (g : Lane → Lane) : (q.modLane l g).since = q.since := by
  unfold Squad.modLane; split <;> rfl
@[simp] theorem Squad.mapLanes_since (q : Squad) (g : Nat → Lane → Lane) : (q.mapLanes g).since = q.since := rfl
@[simp] theorem Squad.modLane_ready (q : Squad) (l : Nat) (g : Lane → Lane) : (q.modLane l g).ready = q.ready := by
  unfold Squad.modLane; split <;> rfl
@[simp] theorem Squad.mapLanes_ready (q : Squad) (g : Nat → Lane → Lane) : (q.mapLanes g).ready = q.ready := rfl
@[simp] theorem Squad.modLane_issued (q : Squad) (l : Nat) (g : Lane → Lane) : (q.modLane l g).issued = q.issued := by
  unfold Squad.modLane; split <;> rfl
@[simp] theorem Squad.mapLanes_issued (q : Squad) (g : Nat → Lane → Lane) : (q.mapLanes g).issued = q.issued := rfl
@[simp] theorem Squad.modLane_hr (q : Squad) (l : Nat) (g : Lane → Lane) : (q.modLane l g).hr = q.hr := by
  unfold Squad.modLane; split <;> rfl
@[simp] theorem Squad.mapLanes_hr (q : Squad) (g : Nat → Lane → Lane) : (q.mapLanes g).hr = q.hr := rfl
@[simp] theorem Squad.modLane_sup (q : Squad) (l : Nat) (g : Lane → Lane) : (q.modLane l g).sup = q.sup := by
  unfold Squad.modLane; split <;> rfl
@[simp] theorem Squad.mapLanes_sup (q : Squad) (g : Nat → Lane → Lane) : (q.mapLanes g).sup = q.sup := rfl
@[simp] theorem Squad.modLane_step (q : Squad) (l : Nat) (g : Lane → Lane) : (q.modLane l g).step = q.step := by
  unfold Squad.modLane; split <;> rfl
@[simp] theorem Squad.mapLanes_step (q : Squad) (g : Nat → Lane → Lane) : (q.mapLanes g).step = q.step := rfl
@[simp] theorem Squad.modLane_stepped (q : Squad) (l : Nat) (g : Lane → Lane) : (q.modLane l g).stepped = q.stepped := by
  unfold Squad.modLane; split <;> rfl
@[simp] theorem Squad.mapLanes_stepped (q : Squad) (g : Nat → Lane → Lane) : (q.mapLanes g).stepped = q.stepped := rfl
@[simp] theorem Squad.modLane_dbg (q : Squad) (l : Nat) (g : Lane → Lane) : (q.modLane l g).dbg = q.dbg := by
  unfold Squad.modLane; split <;> rfl
@[simp] theorem Squad.mapLanes_dbg (q : Squad) (g : Nat → Lane → Lane) : (q.mapLanes g).dbg = q.dbg := rfl
@[simp] theorem Squad.modLane_wp0 (q : Squad) (l : Nat) (g : Lane → Lane) : (q.modLane l g).wp0 = q.wp0 := by
  unfold Squad.modLane; split <;> rfl
@[simp] theorem Squad.mapLanes_wp0 (q : Squad) (g : Nat → Lane → Lane) : (q.mapLanes g).wp0 = q.wp0 := rfl
@[simp] theorem Squad.modLane_wp1 (q : Squad) (l : Nat) (g : Lane → Lane) : (q.modLane l g).wp1 = q.wp1 := by
  unfold Squad.modLane; split <;> rfl
@[simp] theorem Squad.mapLanes_wp1 (q : Squad) (g : Nat → Lane → Lane) : (q.mapLanes g).wp1 = q.wp1 := rfl

end Sys2Proof.Machine
end

