-- ==== Sys2Proof/Laws/Select.lean ====
section
/-! SUPPORT. What stalls, cores, blocks, squads and lanes read as after one of them is updated. -/

set_option Elab.async false

namespace Sys2Proof.Machine

open Sys2Proof

/-! ## Stalls -/

@[simp] theorem stall_putStall (s : State) (n : Nat) (t : Stall) : (s.putStall n t).stall n = t := by
  simp [State.putStall, State.stall]

theorem stall_putStall_ne (s : State) {n m : Nat} (t : Stall) (h : m ≠ n) : (s.putStall n t).stall m = s.stall m := by
  simp [State.putStall, State.stall, Tab.get_put_ne _ _ _ h]

@[simp] theorem stall_modStall (s : State) (n : Nat) (f : Stall → Stall) : (s.modStall n f).stall n = f (s.stall n) := by
  simp [State.modStall]

theorem stall_modStall_ne (s : State) {n m : Nat} (f : Stall → Stall) (h : m ≠ n) : (s.modStall n f).stall m = s.stall m :=
  stall_putStall_ne s _ h

/-! ## Cores -/

@[simp] theorem Stall.core_modCore (t : Stall) (c : Nat) (f : Core → Core) : (t.modCore c f).core c = f (t.core c) := by
  simp [Stall.modCore, Stall.core]

theorem Stall.core_modCore_ne (t : Stall) {c k : Nat} (f : Core → Core) (h : k ≠ c) : (t.modCore c f).core k = t.core k := by
  simp [Stall.modCore, Stall.core, Tab.get_put_ne _ _ _ h]

@[simp] theorem core_modCore (s : State) (st c : Nat) (f : Core → Core) : (s.modCore st c f).core st c = f (s.core st c) := by
  simp [State.modCore, State.core]

theorem core_modCore_ne (s : State) {st c st' c' : Nat} (f : Core → Core) (h : st' ≠ st ∨ c' ≠ c) :
    (s.modCore st c f).core st' c' = s.core st' c' := by
  by_cases e : st' = st
  · subst e
    have h' : c' ≠ c := h.resolve_left (by simp)
    simp [State.modCore, State.core, Stall.core_modCore_ne _ _ h']
  · simp [State.modCore, State.core, stall_modStall_ne _ _ e]

theorem core_modStall_ne (s : State) {n m c : Nat} (f : Stall → Stall) (h : m ≠ n) : (s.modStall n f).core m c = s.core m c := by
  simp [State.core, stall_modStall_ne _ _ h]

/-! ## Blocks -/

theorem BSel.ext_iff' (a b : BSel) : a = b ↔ a.stall = b.stall ∧ a.core = b.core ∧ a.pos = b.pos := by
  cases a; cases b; simp

@[simp] theorem Core.block?_putBlock (k : Core) (p : Nat) (b : Block) : (k.putBlock p b).block? p = some b := by
  unfold Core.block? Core.putBlock
  split <;> simp

theorem Core.block?_putBlock_ne (k : Core) {p p' : Nat} (b : Block) (h : p' ≠ p) : (k.putBlock p b).block? p' = k.block? p' := by
  unfold Core.block? Core.putBlock
  split <;> split <;> simp [Tab.find?_put_ne _ _ h]

@[simp] theorem block?_modBlock (s : State) (b : BSel) (f : Block → Block) :
    (s.modBlock b f).block? b = (s.block? b).map f := by
  simp only [State.modBlock, State.block?, core_modCore]
  cases h : (s.core b.stall b.core).block? b.pos <;> simp [h]

theorem block?_modBlock_ne (s : State) {b b' : BSel} (f : Block → Block) (h : b' ≠ b) :
    (s.modBlock b f).block? b' = s.block? b' := by
  simp only [State.modBlock, State.block?]
  by_cases e : b'.stall = b.stall ∧ b'.core = b.core
  · have hp : b'.pos ≠ b.pos := fun hp => h ((BSel.ext_iff' _ _).2 ⟨e.1, e.2, hp⟩)
    rw [e.1, e.2, core_modCore]
    cases hf : (s.core b.stall b.core).block? b.pos <;> simp [Core.block?_putBlock_ne _ _ hp]
  · rw [core_modCore_ne]
    by_cases e1 : b'.stall = b.stall
    · exact .inr fun e2 => e ⟨e1, e2⟩
    · exact .inl e1

/-- A core update that keeps the blocks leaves every block as it is. -/
theorem block?_modCore (s : State) (st c : Nat) (f : Core → Core) (b : BSel) (h : ∀ k, (f k).blocks = k.blocks ∧ (f k).left = k.left) :
    (s.modCore st c f).block? b = s.block? b := by
  simp only [State.block?]
  by_cases e : b.stall = st ∧ b.core = c
  · obtain ⟨rfl, rfl⟩ := e
    simp [Core.block?, h]
  · rw [core_modCore_ne]
    by_cases e1 : b.stall = st
    · exact .inr fun e2 => e ⟨e1, e2⟩
    · exact .inl e1

/-! ## Squads -/

@[simp] theorem Block.find?_modSquad (b : Block) (n : Nat) (f : Squad → Squad) :
    Tab.find? (b.modSquad n f).squads n = (Tab.find? b.squads n).map f := by
  unfold Block.modSquad
  cases h : Tab.find? b.squads n <;> simp [h]

theorem Block.find?_modSquad_ne (b : Block) {n m : Nat} (f : Squad → Squad) (h : m ≠ n) :
    Tab.find? (b.modSquad n f).squads m = Tab.find? b.squads m := by
  unfold Block.modSquad
  cases e : Tab.find? b.squads n <;> simp [Tab.find?_put_ne _ _ h]

@[simp] theorem block?_modSquad (s : State) (q : Sel) (f : Squad → Squad) :
    (s.modSquad q f).block? q.blk = (s.block? q.blk).map fun b => b.modSquad q.slot f := by
  simp [State.modSquad]

theorem block?_modSquad_ne (s : State) {q : Sel} {b : BSel} (f : Squad → Squad) (h : b ≠ q.blk) :
    (s.modSquad q f).block? b = s.block? b := block?_modBlock_ne s _ h

@[simp] theorem squad?_modSquad (s : State) (q : Sel) (f : Squad → Squad) :
    (s.modSquad q f).squad? q = (s.squad? q).map f := by
  simp only [State.squad?, block?_modSquad]
  cases h : s.block? q.blk <;> simp

theorem squad?_modSquad_slot (s : State) {q : Sel} {n : Nat} (f : Squad → Squad) (h : n ≠ q.slot) :
    (s.modSquad q f).squad? { q with slot := n } = s.squad? { q with slot := n } := by
  simp only [State.squad?]
  have e : (Sel.blk { q with slot := n }) = q.blk := rfl
  rw [e, block?_modSquad]
  cases s.block? q.blk with
  | none => rfl
  | some b => simp [Block.find?_modSquad_ne _ _ h]

@[simp] theorem squad?_modBlock_keep (s : State) (q : Sel) (f : Block → Block) (h : ∀ b, (f b).squads = b.squads) :
    (s.modBlock q.blk f).squad? q = s.squad? q := by
  simp only [State.squad?, block?_modBlock]
  cases s.block? q.blk <;> simp [h]

theorem squad?_modCore (s : State) (st c : Nat) (f : Core → Core) (q : Sel) (h : ∀ k, (f k).blocks = k.blocks ∧ (f k).left = k.left) :
    (s.modCore st c f).squad? q = s.squad? q := by
  simp only [State.squad?, block?_modCore s st c f q.blk h]

/-! ## Lanes -/

@[simp] theorem Squad.find?_modLane (q : Squad) (l : Nat) (f : Lane → Lane) :
    Tab.find? (q.modLane l f).lanes l = (Tab.find? q.lanes l).map f := by
  unfold Squad.modLane
  cases h : Tab.find? q.lanes l <;> simp [h]

theorem Squad.find?_modLane_ne (q : Squad) {l m : Nat} (f : Lane → Lane) (h : m ≠ l) :
    Tab.find? (q.modLane l f).lanes m = Tab.find? q.lanes m := by
  unfold Squad.modLane
  cases e : Tab.find? q.lanes l <;> simp [Tab.find?_put_ne _ _ h]

@[simp] theorem Squad.find?_mapLanes (q : Squad) (f : Nat → Lane → Lane) (l : Nat) :
    Tab.find? (q.mapLanes f).lanes l = (Tab.find? q.lanes l).map (f l) := Tab.find?_map q.lanes f l

theorem lane?_eq {s : State} {q : Sel} {sq : Squad} (h : s.squad? q = some sq) (l : Nat) :
    s.lane? q l = Tab.find? sq.lanes l := by simp [State.lane?, h]

@[simp] theorem Lane.body_body (ln : Lane) : ln.body.body = ln.body := rfl

/-! ## Clocks -/

@[simp] theorem modCore_cyc (s : State) (a b : Nat) (g : Core → Core) (st c : Nat) : (s.modCore a b g).cyc st c = s.cyc st c := by
  unfold State.cyc State.modCore
  by_cases e : st = a
  · subst e; simp
  · simp [stall_modStall_ne _ _ e]

@[simp] theorem modBlock_cyc (s : State) (b : BSel) (g : Block → Block) (st c : Nat) : (s.modBlock b g).cyc st c = s.cyc st c :=
  modCore_cyc ..

@[simp] theorem modSquad_cyc (s : State) (q : Sel) (g : Squad → Squad) (st c : Nat) : (s.modSquad q g).cyc st c = s.cyc st c :=
  modCore_cyc ..

end Sys2Proof.Machine
end

