-- ==== Sys2Proof/Laws/Words.lean ====
section
/-! SUPPORT. The issue of a word, said once: when it issues, what the bookkeeping after it changes, and what a register word
leaves behind. -/

set_option Elab.async false

namespace Sys2Proof.Machine

open Sys2Proof

/-! ## Issue -/

/-- A word that issues takes its effect. -/
theorem issue_of {s : State} {h : Hdr} {u : Ctx → WordUse} {c : Ctx} (w : Issues s h u c) (body : Ctx → Res) :
    issue h u body s = .next (c.finish (body c)) := by
  obtain ⟨c₀, h₀, hf, rfl, hc, ha⟩ := w
  have hm : (h.s && c₀.sq.awaited) = false := by
    cases e : h.s with
    | false => rfl
    | true => simpa using hf e
  simp only [Ctx.start] at hc ha
  simp only [issue, h₀, hm, hc, ha, Ctx.start]
  rfl

@[simp] theorem Ctx.start_q (c : Ctx) (m : Bool) : (c.start m).q = c.q := by
  unfold Ctx.start Ctx.unpark Ctx.clearFlight; cases m <;> simp <;> split <;> rfl

@[simp] theorem Ctx.start_blk (c : Ctx) (m : Bool) : (c.start m).blk = c.blk := by
  unfold Ctx.start Ctx.unpark Ctx.clearFlight; cases m <;> simp <;> split <;> rfl

@[simp] theorem Ctx.start_act (c : Ctx) (m : Bool) : (c.start m).act = c.act := by
  unfold Ctx.start Ctx.unpark Ctx.clearFlight; cases m <;> simp <;> split <;> rfl

@[simp] theorem Ctx.start_present (c : Ctx) (m : Bool) : (c.start m).present = c.present := by
  unfold Ctx.start Ctx.unpark Ctx.clearFlight; cases m <;> simp <;> split <;> rfl

/-- What the context of a word is made of. -/
theorem Ctx.of_eq {s : State} {h : Hdr} {c : Ctx} (e : Ctx.of s h = some c) :
    c.s = s ∧ c.q = s.cur ∧ s.block? s.cur.blk = some c.blk ∧ s.squad? s.cur = some c.sq ∧ c.present = c.sq.issuing
      ∧ c.act = c.present.filter fun l => l.2.spec ⟨h.neg, h.pn⟩ := by
  unfold Ctx.of at e
  split at e
  · simp at e
  · split at e
    · simp at e
    · rename_i b hb
      split at e
      · simp at e
      · rename_i sq hs
        simp only [Option.some.injEq] at e
        subst e
        simp [State.squad?, hb, hs]

/-- A word issues for a squad of one of the 16 positions of a core. -/
theorem Ctx.of_pos {s : State} {h : Hdr} {c : Ctx} (e : Ctx.of s h = some c) : s.cur.pos < 16 := by
  unfold Ctx.of at e
  split at e
  · simp at e
  · omega

/-- The squad a word issues for is resident, and its block is. -/
theorem Issues.resident {s : State} {h : Hdr} {u : Ctx → WordUse} {c : Ctx} (w : Issues s h u c) :
    c.q = s.cur ∧ c.s.squad? c.q = some c.sq ∧ ∃ b, c.s.block? c.q.blk = some b ∧ b.besides = c.blk.besides ∧ b.fpc = c.blk.fpc := by
  obtain ⟨c₀, h₀, -, rfl, -, -⟩ := w
  obtain ⟨hs, hq, hb, hsq, -, -⟩ := Ctx.of_eq h₀
  have bes (b : Block) (n : Nat) (f : Squad → Squad) : (b.modSquad n f).besides = b.besides := by
    unfold Block.modSquad; split <;> rfl
  rw [← hq] at hb hsq
  rw [← hs] at hb hsq
  refine ⟨by simp [hq], ?_, ?_⟩
  · unfold Ctx.start Ctx.unpark Ctx.clearFlight Ctx.park
    cases h.s <;> simp <;> split <;> simp [hsq]
  · unfold Ctx.start Ctx.unpark Ctx.clearFlight Ctx.park
    cases h.s <;> simp <;> split <;> simp [hb, bes]

/-- The lanes that a word sees are its squad's. -/
theorem Issues.act_mem {s : State} {h : Hdr} {u : Ctx → WordUse} {c : Ctx} (w : Issues s h u c) {x : Nat × Lane}
    (m : x ∈ c.act) : x ∈ c.sq.lanes := by
  obtain ⟨c₀, h₀, -, rfl, -, -⟩ := w
  obtain ⟨-, -, -, -, hp, ha⟩ := Ctx.of_eq h₀
  have hl : (c₀.start h.s).sq.lanes = c₀.sq.lanes := by
    unfold Ctx.start Ctx.unpark Ctx.clearFlight; cases h.s <;> simp <;> split <;> rfl
  rw [Ctx.start_act, ha, hp] at m
  rw [hl]
  exact (List.mem_filter.1 (List.mem_filter.1 m).1).1

theorem Ctx.acting_mem {c : Ctx} {x : Nat × Lane} (h : c.acting = some x) : x ∈ c.act := by
  unfold Ctx.acting at h
  split at h
  · rename_i e; injection h with h; subst h; exact List.mem_of_find?_eq_some e
  · exact List.mem_of_mem_head? (by simp [h])

theorem Ctx.actors_mem {c : Ctx} {d : Opnd} {x : Nat × Lane} (h : x ∈ c.actors d) : x ∈ c.act := by
  unfold Ctx.actors at h
  split at h
  · simp at h; exact Ctx.acting_mem h
  · exact h

/-! ## After a word -/

theorem Squad.join_body (q : Squad) (l : Nat) :
    (Tab.find? q.join.lanes l).map Lane.body = (Tab.find? q.lanes l).map Lane.body := by
  unfold Squad.join
  rw [Squad.find?_mapLanes]
  cases Tab.find? q.lanes l with
  | none => rfl
  | some ln => simp only [Option.map_some]; split <;> rfl

theorem Squad.settle_body (q : Squad) (l : Nat) :
    (Tab.find? q.settle.lanes l).map Lane.body = (Tab.find? q.lanes l).map Lane.body := by
  unfold Squad.settle
  split
  · split
    · rfl
    · rw [Squad.join_body]
  · exact Squad.join_body q l

theorem Squad.fallEnd_body (q : Squad) (l : Nat) :
    (Tab.find? q.fallEnd.lanes l).map Lane.body = (Tab.find? q.lanes l).map Lane.body := by
  unfold Squad.fallEnd
  split
  · rw [Squad.find?_mapLanes]
    cases Tab.find? q.lanes l with
    | none => rfl
    | some ln => simp only [Option.map_some]; split <;> (try split) <;> rfl
  · rfl

theorem Squad.settle_besides (q : Squad) : q.settle.besides = q.besides ∧ q.settle.sca = q.sca := by
  unfold Squad.settle
  split
  · split <;> exact ⟨rfl, rfl⟩
  · exact ⟨rfl, rfl⟩

theorem Squad.fallEnd_besides (q : Squad) : q.fallEnd.besides = q.besides ∧ q.fallEnd.sca = q.sca := by
  unfold Squad.fallEnd
  split <;> exact ⟨rfl, rfl⟩

/-- The bookkeeping after a word changes no register of a lane. -/
theorem wordDone_body (s : State) (q : Sel) (adv : Bool) (l : Nat) : (s.wordDone q adv).body? q l = s.body? q l := by
  unfold State.body? State.wordDone
  cases h : s.squad? q with
  | none => simp [State.lane?, h]
  | some sq =>
    rw [lane?_eq (sq := _) (by rw [squad?_modSquad, h]; rfl), lane?_eq h]
    simp only
    cases adv
    · exact Squad.settle_body _ l
    · simp only [if_true]
      rw [Squad.settle_body]
      exact Squad.fallEnd_body _ l

/-- Nor anything else of its squad but the PC, the point of a transfer and the clocks. -/
theorem wordDone_squad (s : State) (q : Sel) (adv : Bool) :
    ((s.wordDone q adv).squad? q).map (fun x => (x.besides, x.sca)) = (s.squad? q).map fun x => (x.besides, x.sca) := by
  unfold State.wordDone
  rw [squad?_modSquad]
  cases h : s.squad? q with
  | none => rfl
  | some sq =>
    simp only [Option.map_some, Option.some.injEq, Prod.mk.injEq]
    have key (x : Squad) : x.settle.besides = x.besides ∧ x.settle.sca = x.sca := Squad.settle_besides x
    cases adv
    · refine ⟨?_, (key sq).2⟩
      have := (key sq).1
      unfold Squad.besides at this ⊢
      simp only [Squad.mk.injEq, HaltRegs.mk.injEq] at this ⊢
      simp_all
    · have a := key sq.advance
      have b := Squad.fallEnd_besides { sq with pc := sq.pc + 8, point := none }
      have c : sq.advance.besides = sq.besides := by
        rw [Squad.advance, b.1]; rfl
      have d : sq.advance.sca = sq.sca := b.2
      rw [c] at a
      refine ⟨?_, by rw [← d]; exact a.2⟩
      have := a.1
      unfold Squad.besides at this ⊢
      simp only [Squad.mk.injEq, HaltRegs.mk.injEq] at this ⊢
      simp_all

theorem Block.besides_modSquad (b : Block) (n : Nat) (f : Squad → Squad) : (b.modSquad n f).besides = b.besides := by
  unfold Block.modSquad; split <;> rfl

@[simp] theorem wordDone_block (s : State) (q : Sel) (adv : Bool) :
    ((s.wordDone q adv).block? q.blk).map (fun b => (b.besides, b.fpc)) = (s.block? q.blk).map fun b => (b.besides, b.fpc) := by
  unfold State.wordDone
  rw [block?_modSquad]
  cases s.block? q.blk <;> simp [Block.besides_modSquad]

theorem wordDone_block_ne (s : State) {q : Sel} (adv : Bool) {b : BSel} (h : b ≠ q.blk) :
    (s.wordDone q adv).block? b = s.block? b := block?_modSquad_ne s _ h

theorem wordDone_slot (s : State) {q : Sel} (adv : Bool) {n : Nat} (h : n ≠ q.slot) :
    (s.wordDone q adv).squad? { q with slot := n } = s.squad? { q with slot := n } := squad?_modSquad_slot s _ h

@[simp] theorem wordDone_mem (s : State) (q : Sel) (adv : Bool) : (s.wordDone q adv).mem = s.mem := rfl
@[simp] theorem wordDone_hostMem (s : State) (q : Sel) (adv : Bool) : (s.wordDone q adv).hostMem = s.hostMem := rfl
@[simp] theorem wordDone_extMem (s : State) (q : Sel) (adv : Bool) : (s.wordDone q adv).extMem = s.extMem := rfl

theorem modSquad_supFile (s : State) (q : Sel) (f : Squad → Squad) (st c : Nat) :
    ((s.modSquad q f).core st c).supFile = (s.core st c).supFile := by
  unfold State.modSquad State.modBlock
  by_cases e : st = q.stall ∧ c = q.core
  · obtain ⟨rfl, rfl⟩ := e
    have : Sel.blk q = ⟨q.stall, q.core, q.pos⟩ := rfl
    rw [this]
    simp only [core_modCore]
    split
    · rfl
    · exact Core.putBlock_supFile _ _ _
  · rw [core_modCore_ne]
    by_cases e1 : st = q.stall
    · exact .inr fun e2 => e ⟨e1, e2⟩
    · exact .inl e1

theorem wordDone_scaFile (s : State) (q : Sel) (adv sup : Bool) : (s.wordDone q adv).scaFile q sup = s.scaFile q sup := by
  unfold State.scaFile
  cases sup
  · have h := congrArg (Option.map Prod.snd) (wordDone_squad s q adv)
    simp only [Option.map_map] at h
    cases e : s.squad? q with
    | none => cases e' : (s.wordDone q adv).squad? q <;> simp_all
    | some x => cases e' : (s.wordDone q adv).squad? q <;> simp_all
  · simp only [if_true]
    rw [State.wordDone, modSquad_supFile]

/-! ## Rising tables -/

theorem Rising.nodup {α : Type} {t : Tab α} (h : Rising t) : (Tab.keys t).Nodup :=
  List.Pairwise.imp (fun h => Nat.ne_of_lt h) h

theorem mem_keys_put {α : Type} {t : Tab α} {n k : Nat} {v : α} (h : k ∈ Tab.keys (Tab.put t n v)) : k = n ∨ k ∈ Tab.keys t := by
  induction t with
  | nil => simp [Tab.put, Tab.keys] at h; exact .inl h
  | cons x t ih =>
    obtain ⟨j, u⟩ := x
    simp only [Tab.put] at h
    split at h
    · simp [Tab.keys] at h ⊢; exact h
    · split at h
      · rename_i e; subst e; simp [Tab.keys] at h ⊢; rcases h with h | h <;> simp [h]
      · simp only [Tab.keys, List.map_cons, List.mem_cons] at h ⊢
        rcases h with h | h
        · simp [h]
        · rcases ih h with h | h
          · simp [h]
          · exact .inr (.inr h)

theorem Rising.put {α : Type} {t : Tab α} (h : Rising t) (n : Nat) (v : α) : Rising (Tab.put t n v) := by
  induction t with
  | nil => simp [Rising, Tab.put, Tab.keys]
  | cons x t ih =>
    obtain ⟨j, u⟩ := x
    simp only [Rising, Tab.keys, List.map_cons, List.pairwise_cons] at h
    simp only [Tab.put]
    split
    · rename_i e
      simp only [Rising, Tab.keys, List.map_cons, List.pairwise_cons, List.mem_cons]
      refine ⟨fun k hk => ?_, h⟩
      rcases hk with hk | hk
      · subst hk; exact e
      · exact Nat.lt_trans e (h.1 k hk)
    · split
      · rename_i e; subst e
        simpa only [Rising, Tab.keys, List.map_cons, List.pairwise_cons] using h
      · simp only [Rising, Tab.keys, List.map_cons, List.pairwise_cons]
        refine ⟨fun k hk => ?_, ih h.2⟩
        rcases mem_keys_put hk with e | e
        · subst e; omega
        · exact h.1 k e

theorem Tab.find?_filter {α : Type} {t : Tab α} (h : Rising t) (p : Nat × α → Bool) (n : Nat) :
    Tab.find? (List.filter p t) n = (Tab.find? t n).filter fun v => p (n, v) := by
  cases e : Tab.find? t n with
  | none =>
    cases e' : Tab.find? (List.filter p t) n with
    | none => rfl
    | some v =>
      have m := (List.mem_filter.1 (Tab.mem_of_find? e')).1
      rw [Tab.find?_of_mem h.nodup m] at e
      simp at e
  | some v =>
    have m := Tab.mem_of_find? e
    have hn : (Tab.keys (List.filter p t)).Nodup :=
      List.Nodup.sublist (List.Sublist.map _ List.filter_sublist) h.nodup
    cases hp : p (n, v) with
    | true =>
      rw [Tab.find?_of_mem hn (List.mem_filter.2 ⟨m, hp⟩)]
      simp [Option.filter, hp]
    | false =>
      cases e' : Tab.find? (List.filter p t) n with
      | none => simp [Option.filter, hp]
      | some w =>
        obtain ⟨m', hp'⟩ := List.mem_filter.1 (Tab.mem_of_find? e')
        rw [Tab.find?_of_mem h.nodup m'] at e
        simp only [Option.some.injEq] at e
        subst e
        rw [hp] at hp'; simp at hp'

/-! ## The results of lanes -/

/-- Applying the results of lanes: a lane with a result has it, and every other lane is as it was. -/
theorem applyLanes_find (d : Opnd) (rs : List (Nat × Lane × Except Nat LaneOut)) (hn : (rs.map (·.1)).Nodup) (q : Squad) (l : Nat) :
    Tab.find? (q.applyLanes d rs).lanes l = (match Tab.find? rs l with
      | some (_, .ok o) => (Tab.find? q.lanes l).map fun ln => ln.apply d o
      | _ => Tab.find? q.lanes l) := by
  induction rs generalizing q with
  | nil => rfl
  | cons r rs ih =>
    obtain ⟨k, x, o⟩ := r
    simp only [List.map_cons, List.nodup_cons] at hn
    simp only [Squad.applyLanes, List.foldl_cons] at ih ⊢
    rw [ih hn.2]
    by_cases e : k = l
    · subst e
      have hno : Tab.find? rs k = none := by
        cases e' : Tab.find? rs k with
        | none => rfl
        | some v => exact absurd (List.mem_map_of_mem (Tab.mem_of_find? e')) hn.1
      simp only [hno, Tab.find?, if_true]
      cases o <;> simp
    · simp only [Tab.find?, if_neg e]
      cases o with
      | error c => rfl
      | ok o =>
        simp only
        rw [Squad.find?_modLane_ne _ _ (Ne.symm e)]

theorem applyLanes_rising (d : Opnd) (rs : List (Nat × Lane × Except Nat LaneOut)) {q : Squad} (h : Rising q.lanes) :
    Rising (q.applyLanes d rs).lanes := by
  induction rs generalizing q with
  | nil => exact h
  | cons r rs ih =>
    simp only [Squad.applyLanes, List.foldl_cons] at ih ⊢
    apply ih
    split
    · unfold Squad.modLane
      split
      · exact h
      · exact h.put _ _
    · exact h

theorem applyLanes_besides (d : Opnd) (rs : List (Nat × Lane × Except Nat LaneOut)) (q : Squad) :
    (q.applyLanes d rs).besides = q.besides ∧ (q.applyLanes d rs).sca = q.sca := by
  induction rs generalizing q with
  | nil => exact ⟨rfl, rfl⟩
  | cons r rs ih =>
    simp only [Squad.applyLanes, List.foldl_cons] at ih ⊢
    have step (q' : Squad) (h : q'.besides = q.besides ∧ q'.sca = q.sca) := And.intro ((ih q').1.trans h.1) ((ih q').2.trans h.2)
    apply step
    split
    · unfold Squad.modLane
      split <;> exact ⟨rfl, rfl⟩
    · exact ⟨rfl, rfl⟩

/-- Lanes that are no helpers and are not named stay; a lane that stays is as it was. -/
theorem dropLanes_find {q : Squad} (h : Rising q.lanes) (ls : List Nat) (l : Nat) {ln : Lane} (e : Tab.find? q.lanes l = some ln) :
    (ln.helper = false → l ∉ ls → Tab.find? (q.dropLanes ls).lanes l = some ln)
      ∧ (∀ ln', Tab.find? (q.dropLanes ls).lanes l = some ln' → ln' = ln) := by
  have hk : Rising (q.lanes.filter fun l => !ls.contains l.1) :=
    List.Pairwise.sublist (List.Sublist.map _ List.filter_sublist) h
  simp only [Squad.dropLanes, Squad.dropEmpty]
  rw [Tab.find?_filter hk, Tab.find?_filter h, e]
  constructor
  · intro hh hl
    simp [Option.filter, hl, hh]
  · intro ln' he
    simp only [Option.filter] at he
    split at he
    · split at he
      · simp_all
      · simp at he
    · simp at he

theorem dropLanes_besides (q : Squad) (ls : List Nat) : (q.dropLanes ls).besides = q.besides ∧ (q.dropLanes ls).sca = q.sca :=
  ⟨rfl, rfl⟩

end Sys2Proof.Machine
end

