-- ==== Sys2Proof/Laws/LaneWords.lean ====
section
/-! SUPPORT. A fixed-latency register word, said once: its results in its lanes and its scalar destination, its flags, and
nothing else changed. -/

set_option Elab.async false

namespace Sys2Proof.Machine

open Sys2Proof

theorem find?_runLanes (fpc : Word) (ls : List (Nat × Lane)) (f : Nat → Lane → Except Nat LaneOut) (l : Nat) :
    Tab.find? (runLanes fpc ls f) l = (Tab.find? ls l).map fun ln => (ln, trapped fpc (f l ln)) :=
  Tab.find?_map ls (fun l ln => (ln, trapped fpc (f l ln))) l

theorem keys_runLanes (fpc : Word) (ls : List (Nat × Lane)) (f : Nat → Lane → Except Nat LaneOut) :
    (runLanes fpc ls f).map (·.1) = Tab.keys ls := by
  simp [runLanes, Tab.keys]

theorem Issues.act_sublist {s : State} {h : Hdr} {u : Ctx → WordUse} {c : Ctx} (w : Issues s h u c) :
    c.act.Sublist c.sq.lanes := by
  obtain ⟨c₀, h₀, -, rfl, -, -⟩ := w
  obtain ⟨-, -, -, -, hp, ha⟩ := Ctx.of_eq h₀
  have hl : (c₀.start h.s).sq.lanes = c₀.sq.lanes := by
    unfold Ctx.start Ctx.unpark Ctx.clearFlight; cases h.s <;> simp <;> split <;> rfl
  rw [Ctx.start_act, ha, hp, hl]
  exact List.filter_sublist.trans List.filter_sublist

theorem Issues.act_rising {s : State} {h : Hdr} {u : Ctx → WordUse} {c : Ctx} (w : Issues s h u c) (r : Rising c.sq.lanes) :
    Rising c.act := List.Pairwise.sublist (w.act_sublist.map _) r

theorem actors_nodup {c : Ctx} (r : Rising c.act) (d : Opnd) : (Tab.keys (c.actors d)).Nodup := by
  unfold Ctx.actors
  split
  · cases c.acting <;> simp [Tab.keys]
  · exact r.nodup

theorem trapped_ok {fpc : Word} {o : LaneOut} (h : fpCause fpc o.fl = none) : trapped fpc (.ok o) = .ok o := by
  simp [trapped, h]

theorem trapped_some {fpc : Word} {x : Except Nat LaneOut} {o : LaneOut} (h : trapped fpc x = .ok o) : x = .ok o := by
  unfold trapped at h
  split at h
  · simp at h
  · split at h <;> simp_all

theorem realCauses_nil {w : LaneWord} {c : Ctx} (hq : w.quiet c) :
    realCauses (runLanes c.fpc (c.actors w.d) (w.out c)) = [] := by
  simp only [realCauses, List.filterMap_eq_nil_iff, runLanes, List.mem_map]
  rintro _ ⟨⟨l, ln⟩, m, rfl⟩
  cases hh : ln.helper with
  | true => simp only; split <;> simp_all
  | false =>
    obtain ⟨o, ho, hc⟩ := hq l ln m hh
    simp [ho, trapped_ok hc]

theorem mem_helperCauses {fpc : Word} {ls : List (Nat × Lane)} {f : Nat → Lane → Except Nat LaneOut} {l : Nat}
    (h : l ∈ helperCauses (runLanes fpc ls f)) : ∃ ln, (l, ln) ∈ ls ∧ ln.helper = true := by
  simp only [helperCauses, runLanes, List.mem_filterMap, List.mem_map] at h
  obtain ⟨_, ⟨⟨k, ln⟩, m, rfl⟩, h⟩ := h
  simp only at h
  split at h
  · rename_i hd e
    simp only [Prod.mk.injEq] at e
    obtain ⟨rfl, rfl, _⟩ := e
    split at h
    · simp only [Option.some.injEq] at h; subst h; exact ⟨ln, m, by assumption⟩
    · simp at h
  · simp at h

theorem realFlags_run (w : LaneWord) (c : Ctx) (hq : w.quiet c) :
    realFlags (runLanes c.fpc (c.actors w.d) (w.out c)) = w.flags c := by
  unfold realFlags LaneWord.flags runLanes
  rw [List.foldl_map]
  have key : ∀ (ls : List (Nat × Lane)) (f : Fl), (∀ x ∈ ls, x ∈ c.actors w.d) →
      List.foldl (fun f x => match (x.1, x.2, trapped c.fpc (w.out c x.1 x.2)) with
        | (_, ln, .ok o) => if ln.helper then f else f.or o.fl
        | _ => f) f ls
      = List.foldl (fun f x => match w.out c x.1 x.2 with
        | .ok o => if x.2.helper then f else f.or o.fl
        | .error _ => f) f ls := by
    intro ls
    induction ls with
    | nil => intro f _; rfl
    | cons x ls ih =>
      intro f hm
      simp only [List.foldl_cons]
      rw [ih _ fun y hy => hm y (List.mem_cons_of_mem _ hy)]
      congr 1
      cases hh : x.2.helper with
      | true => cases e1 : w.out c x.1 x.2 <;> simp only [trapped] <;> (try split) <;> simp_all
      | false =>
        obtain ⟨o, ho, hc⟩ := hq x.1 x.2 (hm x (List.mem_cons_self ..)) hh
        simp [ho, trapped_ok hc, hh]
  exact key _ _ fun _ h => h

@[simp] theorem oweFlags_mem (s : State) (b : BSel) (f : Fl) : (s.oweFlags b f).mem = s.mem ∧
    (s.oweFlags b f).hostMem = s.hostMem ∧ (s.oweFlags b f).extMem = s.extMem := by
  unfold State.oweFlags; split <;> simp

@[simp] theorem writeSca_mem (s : State) (q : Sel) (sup : Bool) (d : Opnd) (ws : List Word) :
    (s.writeSca q sup d ws).mem = s.mem ∧ (s.writeSca q sup d ws).hostMem = s.hostMem
      ∧ (s.writeSca q sup d ws).extMem = s.extMem := by
  unfold State.writeSca; split <;> (try split) <;> simp

theorem oweFlags_squad? (s : State) (q q' : Sel) (f : Fl) : (s.oweFlags q.blk f).squad? q' = s.squad? q' := by
  unfold State.oweFlags
  split
  · rfl
  · simp only [State.squad?]
    by_cases e : q'.blk = q.blk
    · rw [e, block?_modBlock]; cases s.block? q.blk <;> rfl
    · rw [block?_modBlock_ne _ _ e]

theorem oweFlags_block?_ne (s : State) {b b' : BSel} (f : Fl) (h : b' ≠ b) : (s.oweFlags b f).block? b' = s.block? b' := by
  unfold State.oweFlags
  split
  · rfl
  · exact block?_modBlock_ne _ _ h

theorem oweFlags_block? (s : State) (b : BSel) (f : Fl) :
    ((s.oweFlags b f).block? b).map (fun x => (x.besides, x.fpc))
      = (s.block? b).map fun x => (x.besides, if f = Fl.none then x.fpc
          else x.fpc.owe (s.cyc b.stall b.core) (s.completion b) (flBits f)) := by
  unfold State.oweFlags
  split
  · rfl
  · rw [block?_modBlock, Option.map_map]; rfl

theorem oweFlags_core (s : State) (b : BSel) (f : Fl) (st c : Nat) : ((s.oweFlags b f).core st c).supFile = (s.core st c).supFile := by
  unfold State.oweFlags
  split
  · rfl
  · unfold State.modBlock
    by_cases e : st = b.stall ∧ c = b.core
    · obtain ⟨rfl, rfl⟩ := e
      simp only [core_modCore]; (split <;> first | rfl | exact Core.putBlock_supFile _ _ _)
    · rw [core_modCore_ne]
      by_cases e1 : st = b.stall
      · exact .inr fun e2 => e ⟨e1, e2⟩
      · exact .inl e1

/-- A scalar destination's words, in the file of the squad's mode. -/
theorem writeSca_spec (s : State) (q : Sel) (sup : Bool) (d : Opnd) (ws : List Word) (x : Squad) (hx : s.squad? q = some x) :
    (s.writeSca q sup d ws).scaFile q sup = (match d with
        | .sca k => putWords (s.scaFile q sup) k.val ws
        | _ => s.scaFile q sup)
      ∧ (s.writeSca q sup d ws).scaFile q (!sup) = s.scaFile q (!sup)
      ∧ (∀ l, (s.writeSca q sup d ws).lane? q l = s.lane? q l)
      ∧ ((s.writeSca q sup d ws).squad? q).map Squad.besides = (s.squad? q).map Squad.besides
      ∧ (∀ n, n ≠ q.slot → (s.writeSca q sup d ws).squad? { q with slot := n } = s.squad? { q with slot := n })
      ∧ ((s.writeSca q sup d ws).block? q.blk).map (fun b => (b.besides, b.fpc)) = (s.block? q.blk).map (fun b => (b.besides, b.fpc))
      ∧ (∀ b, b ≠ q.blk → (s.writeSca q sup d ws).block? b = s.block? b) := by
  unfold State.writeSca
  cases d with
  | sca k =>
    cases sup
    · simp only [Bool.false_eq_true, if_false, Bool.not_false]
      refine ⟨?_, ?_, ?_, ?_, ?_, ?_, ?_⟩
      · simp [State.scaFile, hx]
      · simp [State.scaFile, modSquad_supFile]
      · intro l; simp [State.lane?, hx]
      · simp [hx]; rfl
      · intro n hn; exact squad?_modSquad_slot _ _ hn
      · rw [block?_modSquad]; cases s.block? q.blk <;> simp [Block.besides_modSquad]
      · intro b hb; exact block?_modSquad_ne _ _ hb
    · simp only [if_true, Bool.not_true]
      have hb (b : BSel) := block?_modCore s q.stall q.core
        (fun c => { c with supFile := c.supFile.put q.islot (putWords (Tab.get [] c.supFile q.islot) k ws) }) b fun _ => ⟨rfl, rfl⟩
      have hq (r : Sel) : (s.modCore q.stall q.core fun c =>
          { c with supFile := c.supFile.put q.islot (putWords (Tab.get [] c.supFile q.islot) k ws) }).squad? r = s.squad? r := by
        simp only [State.squad?, hb]
      refine ⟨?_, ?_, ?_, ?_, ?_, ?_, ?_⟩
      · simp [State.scaFile]
      · simp [State.scaFile, hq]
      · intro l; simp [State.lane?, hq]
      · rw [hq]
      · intro n _; rw [hq]
      · rw [hb]
      · intro b _; rw [hb]
  | _ => exact ⟨rfl, rfl, fun _ => rfl, rfl, fun _ _ => rfl, rfl, fun _ _ => rfl⟩

/-- A scalar write leaves the clocks and the free choices as they are. -/
theorem writeSca_completion (s : State) (q : Sel) (sup : Bool) (d : Opnd) (ws : List Word) (b : BSel) :
    (∀ st c, (s.writeSca q sup d ws).cyc st c = s.cyc st c) ∧ (s.writeSca q sup d ws).completion b = s.completion b := by
  have key (t : State) (h₁ : ∀ st c, t.cyc st c = s.cyc st c) (h₂ : t.free = s.free) :
      (∀ st c, t.cyc st c = s.cyc st c) ∧ t.completion b = s.completion b := ⟨h₁, by simp [State.completion, h₁, h₂]⟩
  unfold State.writeSca
  split
  · split
    · exact key _ (by simp) (by simp)
    · exact key _ (by simp) (by simp)
  · exact key _ (fun _ _ => rfl) rfl

/-- WHAT A REGISTER WORD DOES: where none of its lanes but helpers meets a cause, it takes effect as `RegEffect` says. -/
theorem perLane_effect {s : State} {h : Hdr} {u : Ctx → WordUse} {c : Ctx} (iss : Issues s h u c) (w : LaneWord)
    (hr : Rising c.sq.lanes) (hq : w.quiet c) : RegEffect w c (c.finish (c.perLane w.d (w.out c))) := by
  obtain ⟨-, hsq, b, hb, hbb, hbf⟩ := iss.resident
  have hact := iss.act_rising hr
  have hnd := actors_nodup hact w.d
  have hfin : c.finish (c.perLane w.d (w.out c)) =
      (c.writeResults w.d (runLanes c.fpc (c.actors w.d) (w.out c))).wordDone c.q true := by
    have e : c.perLane w.d (w.out c) = .ok (c.writeResults w.d (runLanes c.fpc (c.actors w.d) (w.out c))) := by
      have := realCauses_nil hq
      simp only [Ctx.perLane, Ctx.actors] at this ⊢
      simp [this]
    rw [e]; rfl
  rw [hfin]
  generalize hrs : runLanes c.fpc (c.actors w.d) (w.out c) = rs
  have hkeys : (rs.map (·.1)).Nodup := by rw [← hrs, keys_runLanes]; exact hnd
  -- the squad with its results
  let sq' := (c.sq.applyLanes w.d rs).dropLanes (helperCauses rs)
  let s1 := c.s.modSquad c.q fun q => (q.applyLanes w.d rs).dropLanes (helperCauses rs)
  have h1 : s1.squad? c.q = some sq' := by simp [s1, hsq, sq']
  let s2 := match firstWords rs with
    | some ws => s1.writeSca c.q c.sq.sup w.d ws
    | none => s1
  have hwr : c.writeResults w.d rs = s2.oweFlags c.q.blk (realFlags rs) := rfl
  have hs2 : s2.scaFile c.q c.sq.sup = (match w.d, firstWords rs with
        | .sca k, some ws => putWords (s1.scaFile c.q c.sq.sup) k.val ws
        | _, _ => s1.scaFile c.q c.sq.sup)
      ∧ s2.scaFile c.q (!c.sq.sup) = s1.scaFile c.q (!c.sq.sup)
      ∧ (∀ l, s2.lane? c.q l = s1.lane? c.q l)
      ∧ (s2.squad? c.q).map Squad.besides = (s1.squad? c.q).map Squad.besides
      ∧ (∀ n, n ≠ c.q.slot → s2.squad? { c.q with slot := n } = s1.squad? { c.q with slot := n })
      ∧ (s2.block? c.q.blk).map (fun b => (b.besides, b.fpc)) = (s1.block? c.q.blk).map (fun b => (b.besides, b.fpc))
      ∧ (∀ b, b ≠ c.q.blk → s2.block? b = s1.block? b)
      ∧ s2.mem = s1.mem ∧ s2.hostMem = s1.hostMem ∧ s2.extMem = s1.extMem
      ∧ (∀ st c, s2.cyc st c = s1.cyc st c) ∧ s2.completion c.q.blk = s1.completion c.q.blk := by
    simp only [s2]
    cases hfw : firstWords rs with
    | none =>
      refine ⟨?_, rfl, fun _ => rfl, rfl, fun _ _ => rfl, rfl, fun _ _ => rfl, rfl, rfl, rfl, fun _ _ => rfl, rfl⟩
      split <;> simp_all
    | some ws =>
      obtain ⟨a1, a2, a3, a4, a5, a6, a7⟩ := writeSca_spec s1 c.q c.sq.sup w.d ws sq' h1
      refine ⟨?_, a2, a3, a4, a5, a6, a7, ?_⟩
      · rw [a1]; cases w.d <;> rfl
      · obtain ⟨m1, m2, m3⟩ := writeSca_mem s1 c.q c.sq.sup w.d ws
        exact ⟨m1, m2, m3, writeSca_completion s1 c.q c.sq.sup w.d ws c.q.blk⟩
  obtain ⟨b1, b2, b3, b4, b5, b6, b7, b8, b9, b10, b11, b12⟩ := hs2
  have howe : ((c.writeResults w.d rs).wordDone c.q true |>.block? c.q.blk).map (fun b => (b.besides, b.fpc))
      = some (c.blk.besides, c.owedFpc (realFlags rs)) := by
    have h1 : (s1.block? c.q.blk).map (fun b => (b.besides, b.fpc)) = some (c.blk.besides, c.blk.fpc) := by
      simp [s1, hb, Block.besides_modSquad, hbb, hbf]
    have h2 := b6.trans h1
    have hc : s1.completion c.q.blk = c.s.completion c.q.blk := by simp [s1, State.completion]
    rw [wordDone_block, hwr, oweFlags_block?, b11, b12, hc]
    cases e : s2.block? c.q.blk with
    | none => rw [e] at h2; simp at h2
    | some y =>
      rw [e] at h2
      simp only [Option.map_some, Option.some.injEq, Prod.mk.injEq] at h2
      simp [h2, s1, Ctx.owedFpc, Sel.blk]
  have hsca1 (m : Bool) : s1.scaFile c.q m = c.s.scaFile c.q m := by
    cases m
    · simp only [State.scaFile, h1, hsq, Bool.false_eq_true, if_false]
      exact ((dropLanes_besides _ _).2.trans (applyLanes_besides _ _ _).2)
    · simp [State.scaFile, s1, modSquad_supFile]
  -- lanes after everything
  have hlane (l : Nat) : ((c.writeResults w.d rs).wordDone c.q true).body? c.q l = (Tab.find? sq'.lanes l).map Lane.body := by
    rw [wordDone_body, hwr, State.body?]
    have : (s2.oweFlags c.q.blk (realFlags rs)).lane? c.q l = s2.lane? c.q l := by
      simp only [State.lane?, oweFlags_squad?]
    rw [this, b3, lane?_eq h1]
  have happ (l : Nat) := applyLanes_find w.d rs hkeys c.sq l
  have hrise := applyLanes_rising w.d rs hr
  have hfr (l : Nat) : Tab.find? rs l = (Tab.find? (c.actors w.d) l).map fun ln => (ln, trapped c.fpc (w.out c l ln)) := by
    rw [← hrs]; exact find?_runLanes _ _ _ _
  have hmem {x : Nat × Lane} (m : x ∈ c.actors w.d) : Tab.find? c.sq.lanes x.1 = some x.2 :=
    Tab.find?_of_mem hr.nodup (iss.act_mem (Ctx.actors_mem m))
  have hhelp {l : Nat} {ln : Lane} (e : Tab.find? c.sq.lanes l = some ln) (hh : ln.helper = false) : l ∉ helperCauses rs := by
    intro hl
    rw [← hrs] at hl
    obtain ⟨ln', m', hh'⟩ := mem_helperCauses hl
    have := hmem m'
    simp only at this
    rw [e] at this
    simp only [Option.some.injEq] at this
    subst this
    rw [hh] at hh'; simp at hh'
  have happH (ln : Lane) (o : LaneOut) : (ln.apply w.d o).helper = ln.helper := by
    unfold Lane.apply Lane.write
    have key (ps : List (BitVec 3 × Bool)) (x : Lane) : (ps.foldl (fun ln p => ln.setPred p.1 p.2) x).helper = x.helper := by
      induction ps generalizing x with
      | nil => rfl
      | cons p ps ih => simp only [List.foldl_cons]; rw [ih]; unfold Lane.setPred; split <;> rfl
    cases w.d <;> simp only <;> cases o.rnd <;> simp [key]
  constructor
  · -- acted
    intro l ln o m hh ho
    have hf := hmem m
    simp only at hf
    obtain ⟨o', ho', hc'⟩ := hq l ln m hh
    rw [ho] at ho'; simp only [Except.ok.injEq] at ho'; subst ho'
    have hfa : Tab.find? (c.actors w.d) l = some ln := Tab.find?_of_mem hnd m
    have hp : Tab.find? (c.sq.applyLanes w.d rs).lanes l = some (ln.apply w.d o) := by
      rw [happ l, hfr, hfa]; simp [ho, trapped_ok hc', hf]
    rw [hlane, (dropLanes_find hrise _ l hp).1 (by rw [happH]; exact hh) (hhelp hf hh)]
    rfl
  · -- kept
    intro l ln hf hh hno
    have hfa : Tab.find? (c.actors w.d) l = none := by
      cases e : Tab.find? (c.actors w.d) l with
      | none => rfl
      | some x => exact absurd (Tab.mem_of_find? e) (hno x)
    have hp : Tab.find? (c.sq.applyLanes w.d rs).lanes l = some ln := by rw [happ l, hfr, hfa]; simpa using hf
    rw [hlane, (dropLanes_find hrise _ l hp).1 hh (hhelp hf hh)]
    rfl
  · -- helpers
    intro l ln ln' hf hh ht
    rw [hlane] at ht
    cases hfa : Tab.find? (c.actors w.d) l with
    | none =>
      have hp : Tab.find? (c.sq.applyLanes w.d rs).lanes l = some ln := by rw [happ l, hfr, hfa]; simpa using hf
      cases e : Tab.find? sq'.lanes l with
      | none => rw [e] at ht; simp at ht
      | some y =>
        rw [e] at ht
        have := (dropLanes_find hrise _ l hp).2 y e
        subst this
        simp at ht
        exact .inl ht.symm
    | some x =>
      have hx := hmem (Tab.mem_of_find? hfa)
      simp only at hx
      rw [hf] at hx; simp only [Option.some.injEq] at hx; subst hx
      cases htr : trapped c.fpc (w.out c l ln) with
      | error e1 =>
        have hp : Tab.find? (c.sq.applyLanes w.d rs).lanes l = some ln := by rw [happ l, hfr, hfa]; simpa [htr] using hf
        cases e : Tab.find? sq'.lanes l with
        | none => rw [e] at ht; simp at ht
        | some y =>
          rw [e] at ht
          have := (dropLanes_find hrise _ l hp).2 y e
          subst this
          simp at ht
          exact .inl ht.symm
      | ok o =>
        have hp : Tab.find? (c.sq.applyLanes w.d rs).lanes l = some (ln.apply w.d o) := by
          rw [happ l, hfr, hfa]; simp [htr, hf]
        cases e : Tab.find? sq'.lanes l with
        | none => rw [e] at ht; simp at ht
        | some y =>
          rw [e] at ht
          have := (dropLanes_find hrise _ l hp).2 y e
          subst this
          simp at ht
          exact .inr ⟨o, Tab.mem_of_find? hfa, trapped_some htr, ht.symm⟩
  · -- scalars
    have hsf (m : Bool) : (s2.oweFlags c.q.blk (realFlags rs)).scaFile c.q m = s2.scaFile c.q m := by
      cases m <;> simp [State.scaFile, oweFlags_squad?, oweFlags_core]
    refine ⟨?_, ?_⟩
    · rw [wordDone_scaFile, hwr, hsf, b1, hsca1]
      unfold LaneWord.scaAfter
      cases hd : w.d with
      | sca k =>
        have ha : c.actors w.d = c.acting.toList := by simp [Ctx.actors, hd, Opnd.isSca]
        cases hac : c.acting with
        | none =>
          have : rs = [] := by rw [← hrs, ha, hac]; rfl
          simp [this, firstWords]
        | some x =>
          obtain ⟨l, ln⟩ := x
          have : rs = [(l, ln, trapped c.fpc (w.out c l ln))] := by rw [← hrs, ha, hac]; rfl
          simp only [this, firstWords]
          cases trapped c.fpc (w.out c l ln) <;> rfl
      | _ => rfl
    · rw [wordDone_scaFile, hwr, hsf, b2, hsca1]
  · -- squad
    have := congrArg (Option.map Prod.fst) (wordDone_squad (c.writeResults w.d rs) c.q true)
    simp only [Option.map_map] at this
    have e1 : (Prod.fst ∘ fun x : Squad => (x.besides, x.sca)) = Squad.besides := rfl
    rw [e1] at this
    rw [this, hwr, oweFlags_squad?, b4, h1]
    simp only [Option.map_some, Option.some.injEq]
    exact (dropLanes_besides _ _).1.trans (applyLanes_besides _ _ _).1
  · -- block
    have := congrArg (Option.map Prod.fst) howe
    rwa [Option.map_map, Option.map_some] at this
  · -- fpc
    have := congrArg (Option.map Prod.snd) howe
    rw [← hrs, realFlags_run w c hq, hrs] at this
    rwa [Option.map_map, Option.map_some] at this
  · -- squads
    intro n hn
    rw [wordDone_slot _ _ hn, hwr, oweFlags_squad?, b5 n hn]
    exact squad?_modSquad_slot _ _ hn
  · -- blocks
    intro x hx
    rw [wordDone_block_ne _ _ hx, hwr, oweFlags_block?_ne _ _ hx, b7 x hx]
    exact block?_modSquad_ne _ _ hx
  · -- memory
    obtain ⟨m1, m2, m3⟩ := oweFlags_mem s2 c.q.blk (realFlags rs)
    intro a
    simp only [wordDone_mem, wordDone_hostMem, wordDone_extMem, hwr, m1, m2, m3, b8, b9, b10]
    simp [s1]

end Sys2Proof.Machine
end

