-- ==== Sys2Proof/Laws/Witness.lean ====
section
/-! SUPPORT. Ways to show, of a concrete state, that a word runs there and that its tables are in order. -/

set_option Elab.async false

namespace Sys2Proof.Machine

open Sys2Proof

/-- What a word sees at its checks. -/
def ctxAt (s : State) (h : Hdr) : Option Ctx := (Ctx.of s h).map fun c => c.start h.s

/-- The word reaches its checks, and `p` holds of what it sees. -/
def reachesWith (s : State) (h : Hdr) (p : Ctx → Bool) : Bool :=
  match Ctx.of s h with
  | none => false
  | some c => (!h.s || !c.sq.awaited) && p (c.start h.s)

/-- The word runs, and `p` holds of what it sees. -/
def runsWith (s : State) (i : Instr) (p : Ctx → Bool) : Bool :=
  reachesWith s (hdrOf i) fun c => ((useOf i c).cause c (hdrOf i).s).isNone && !c.awaits (useOf i c) && p c

theorem reaches_of {s : State} {h : Hdr} {p : Ctx → Bool} (w : reachesWith s h p = true) : ∃ c, Reaches s h c ∧ p c = true := by
  unfold reachesWith at w
  split at w
  · cases w
  · rename_i c hc
    simp only [Bool.and_eq_true, Bool.or_eq_true, Bool.not_eq_true'] at w
    refine ⟨c.start h.s, ⟨c, hc, fun m => ?_, rfl⟩, w.2⟩
    rcases w.1 with a | a
    · simp [m] at a
    · exact a

theorem runs_of {s : State} {i : Instr} {p : Ctx → Bool} (w : runsWith s i p = true) : ∃ c, Runs s i c ∧ p c = true := by
  obtain ⟨c, ⟨c₀, a, b, rfl⟩, d⟩ := reaches_of w
  simp only [Bool.and_eq_true, Option.isNone_iff_eq_none, Bool.not_eq_true'] at d
  exact ⟨_, ⟨c₀, a, b, rfl, d.1.1, d.1.2⟩, d.2⟩

/-- A word that runs where `H` holds. -/
theorem runs_wit {s : State} {i : Instr} {H : Ctx → Prop} [DecidablePred H] (w : runsWith s i (fun c => decide (H c)) = true) :
    ∃ c, Runs s i c ∧ H c := by
  obtain ⟨c, a, b⟩ := runs_of w
  exact ⟨c, a, of_decide_eq_true b⟩

/-- A word that reaches its checks where `H` holds. -/
theorem reaches_wit {s : State} {h : Hdr} {H : Ctx → Prop} [DecidablePred H]
    (w : reachesWith s h (fun c => decide (H c)) = true) : ∃ c, Reaches s h c ∧ H c := by
  obtain ⟨c, a, b⟩ := reaches_of w
  exact ⟨c, a, of_decide_eq_true b⟩

/-- Whether the keys of a table rise strictly. -/
def risingB {α : Type} (t : Tab α) : Bool := decide ((Tab.keys t).Pairwise (· < ·))

/-- Whether every table of squads and of lanes is in order. -/
def orderedB (s : State) : Bool :=
  s.stalls.all fun t => t.2.cores.all fun c => (c.2.blocks ++ c.2.left).all fun b =>
    risingB b.2.squads && b.2.squads.all fun q => risingB q.2.lanes

theorem rising_of {α : Type} {t : Tab α} (w : risingB t = true) : Rising t :=
  of_decide_eq_true (p := (Tab.keys t).Pairwise (· < ·)) w

theorem Core.mem_of_block? {c : Core} {p : Nat} {k : Block} (h : c.block? p = some k) : (p, k) ∈ c.blocks ++ c.left := by
  unfold Core.block? at h
  split at h
  · exact List.mem_append_left _ (Tab.mem_of_find? h)
  · exact List.mem_append_right _ (Tab.mem_of_find? h)

theorem block_ordered {s : State} (w : orderedB s = true) {b : BSel} {k : Block} (h : s.block? b = some k) :
    risingB k.squads = true ∧ ∀ n sq, Tab.find? k.squads n = some sq → risingB sq.lanes = true := by
  simp only [orderedB, List.all_eq_true, Bool.and_eq_true] at w
  simp only [State.block?, State.core, State.stall, Stall.core] at h
  have hm := Core.mem_of_block? h
  simp only [Tab.get] at hm
  cases e₁ : Tab.find? s.stalls b.stall with
  | none => simp [e₁, Stall.reset, Core.reset] at hm
  | some t =>
    simp only [e₁, Option.getD_some] at hm
    cases e₂ : Tab.find? t.cores b.core with
    | none => simp [e₂, Core.reset] at hm
    | some c =>
      simp only [e₂, Option.getD_some] at hm
      have r := w _ (Tab.mem_of_find? e₁) _ (Tab.mem_of_find? e₂) _ hm
      exact ⟨r.1, fun n sq hq => r.2 _ (Tab.mem_of_find? hq)⟩

theorem ordered_of {s : State} (w : orderedB s = true) : Ordered s := by
  refine ⟨fun b k h => rising_of (block_ordered w h).1, fun q sq h => ?_⟩
  simp only [State.squad?] at h
  split at h
  · cases h
  · rename_i k hk
    exact rising_of ((block_ordered w hk).2 _ _ h)

/-- An instruction that a classifier knows, that runs where `H` holds. -/
theorem word_wit {α : Type} {f : Instr → Option α} {s : State} {i : Instr} {H : α → Ctx → Prop} [∀ a c, Decidable (H a c)]
    (w : runsWith s i (fun c => (f i).elim false fun a => decide (H a c)) = true) : ∃ a c, f i = some a ∧ Runs s i c ∧ H a c := by
  obtain ⟨c, r, d⟩ := runs_of w
  cases e : f i with
  | none => simp [e] at d
  | some a => exact ⟨a, c, rfl, r, of_decide_eq_true (by simpa [e] using d)⟩

/-- What an optional value holds, where `H` holds of it. -/
theorem some_wit {α : Type} {o : Option α} {H : α → Prop} [DecidablePred H] (w : (o.elim false fun a => decide (H a)) = true) :
    ∃ a, o = some a ∧ H a := by
  cases e : o with
  | none => simp [e] at w
  | some a => exact ⟨a, rfl, of_decide_eq_true (by simpa [e] using w)⟩

/-- What a computation that may fail answers, where `H` holds of it. -/
theorem ok_wit {α β : Type} {o : Except α β} {H : β → Prop} [DecidablePred H]
    (w : (match o with
      | .ok a => decide (H a)
      | .error _ => false) = true) : ∃ a, o = .ok a ∧ H a := by
  cases e : o with
  | error a => simp [e] at w
  | ok a => exact ⟨a, rfl, of_decide_eq_true (by simpa [e] using w)⟩

/-- Whether no lane but a helper meets a cause. -/
def quietB (w : LaneWord) (c : Ctx) : Bool :=
  (c.actors w.d).all fun x => x.2.helper || match w.out c x.1 x.2 with
    | .ok o => (fpCause c.fpc o.fl).isNone
    | .error _ => false

theorem quiet_of {w : LaneWord} {c : Ctx} (h : quietB w c = true) : w.quiet c := by
  intro l ln m hh
  have r := List.all_eq_true.mp h _ m
  simp only [hh, Bool.false_or] at r
  split at r
  · rename_i o ho
    exact ⟨o, ho, by simpa using r⟩
  · cases r

/-- A register word that runs and meets no cause, where `H` holds. -/
theorem quiet_wit {f : Instr → Option LaneWord} {s : State} {i : Instr} {H : Ctx → Prop} [DecidablePred H] (o : orderedB s = true)
    (w : runsWith s i (fun c => (f i).elim false fun a => quietB a c && decide (H c)) = true) :
    ∃ a c, f i = some a ∧ Runs s i c ∧ Ordered s ∧ a.quiet c ∧ H c := by
  obtain ⟨c, r, d⟩ := runs_of w
  cases e : f i with
  | none => simp [e] at d
  | some a =>
    simp only [e, Option.elim_some, Bool.and_eq_true, decide_eq_true_eq] at d
    exact ⟨a, c, rfl, r, ordered_of o, quiet_of d.1, d.2⟩

/-- Whether tokens are where the rules put them: no message, and no die cache of a stall listed, breaks the form. -/
def tokensB (s : State) : Bool :=
  s.net.all (fun x => decide (x.dest < 64) && x.ownOk)
    && s.stalls.all fun t => t.2.dc.all fun l => (decide (t.1 < 64) || l.2.t = 0) && (!l.2.o || decide (1 ≤ l.2.t))

theorem tokenForm_of {s : State} (w : tokensB s = true) : TokenForm s := by
  simp only [tokensB, List.all_eq_true, Bool.and_eq_true, Bool.or_eq_true, decide_eq_true_eq, Bool.not_eq_true'] at w
  refine ⟨fun x hx => w.1 x hx, fun st line => ?_⟩
  simp only [State.dcLine, State.stall, Tab.get]
  cases e₁ : Tab.find? s.stalls st with
  | none => simp [Stall.reset, DcLine.empty]
  | some t =>
    cases e₂ : Tab.find? t.dc line with
    | none => simp [DcLine.empty, e₂]
    | some l =>
      have r := w.2 _ (Tab.mem_of_find? e₁) _ (Tab.mem_of_find? e₂)
      refine ⟨fun h => ?_, fun h => ?_⟩
      · simpa [e₂, Nat.not_lt.mpr h] using r.1
      · simp only [e₂, Option.getD_some] at h
        simpa [e₂, h] using r.2

end Sys2Proof.Machine
end

