-- ==== Sys2Proof/Tests/Slice0.lean ====
section
/-! SUPPORT. Tests of the decoder and of well-formedness, and for every statement with hypotheses states and operands that meet
them. Expected words come from the encoding tables and the worked examples of the spec. -/

set_option Elab.async false

namespace Sys2Proof.Tests

open Sys2Proof Sys2Proof.Machine

/-! ## Small states -/

/-- A launch of four threads in one squad. -/
def tinyLaunch : Launch := { placedLaunch 1 with bshape := 4 }

/-- Its block at the first word of a program in place, on core 0 of stall 0, with memory mapped for user code; the die cache holds a token
of the lines of its page tables and of its first words. -/
def tiny : State := (placedLines State.reset).foldl (fun s l => s.prime 0 l) { State.reset with
  nextId := 2
  mem := placedTables State.reset
  stalls := [(0, { Stall.reset with
    launches := [tinyLaunch], troot := 0x10001
    cores := [(0, { Core.reset with blocks := [(0, tinyLaunch.block 0 0 none .grid 0 1)] })] })] }

/-- The block and the squad of `tiny`. -/
def pos0 : BSel := ⟨0, 0, 0⟩
def sel0 : Sel := ⟨0, 0, 0, 0⟩

def withB (s : State) (f : Block → Block) : State := s.modBlock pos0 f
def withQ (s : State) (f : Squad → Squad) : State := s.modSquad sel0 f
def withT (s : State) (f : Stall → Stall) : State := s.modStall 0 f
def withC (s : State) (f : Core → Core) : State := s.modCore 0 0 f
def withK (s : State) (f : Kern → Kern) : State := withB s fun b => { b with kern := f b.kern }
/-- Every lane changed. -/
def withL (s : State) (f : Lane → Lane) : State := withQ s fun q => { q with lanes := q.lanes.map fun x => (x.1, f x.2) }
/-- A vector register of every lane, and a scalar register. -/
def setV (s : State) (r : Nat) (x : Word) : State := withL s fun ln => { ln with v := Tab.set 0 ln.v r x }
def setS (s : State) (r : Nat) (x : Word) : State := withQ s fun q => { q with sca := Tab.set 0 q.sca r x }
/-- Only lane 0 present. -/
def lone (s : State) : State := withQ s fun q => { q with lanes := q.lanes.take 1 }
/-- Every lane a helper. -/
def helpers (s : State) : State := withL s fun ln => { ln with helper := true }
/-- The die cache of stall 0 holds a token of the line of an address, with its data. -/
def near (s : State) (a : Nat) : State := s.prime 0 (a / 64)
/-- Memory with bytes at a local address of stall 0, which user code sees at the same virtual address and can read. -/
def poke (s : State) (a : Nat) (bs : List Byte) : State := near { s with mem := s.mem.wrs a bs } a
/-- The tokens of the line of an address are on their way: no one can read it now. -/
def away (s : State) (a : Nat) : State := withDc { s with home := s.home.put (a / 64) ⟨0, false, none⟩ } a DcLine.empty
where withDc (s : State) (a : Nat) (x : DcLine) : State := s.putDc 0 (a / 64) x

/-- The header of an unguarded, unmarked word; one guarded by p0, which reads false in `tiny`. -/
def h0 : Hdr := ⟨false, false, 7⟩
def hNo : Hdr := ⟨false, false, 0⟩
def m0 : MemX := ⟨0, 0, .plain⟩

/-- The cause that refuses a word. -/
def refusal (w : DWord) : Option Nat := match decode w with
  | .error e => some e
  | .ok _ => none

/-! ## Decoding: words written out from the encodings (R62 to R76, R79) -/

/-- add v3, v1, v2: OPC 0x00, PRD 0111, MOD 0, D 3, A 1, B 2. -/
theorem test_decode_add : decodeTableWord 64 0x001C003010200000 = some (.add h0 .i32 false (.vec 3) (.vec 1) (.reg (.vec 2))) := by decide
/-- add v1, tid, 5: FI is MOD bit 44, IMM20 = 5. -/
theorem test_decode_add_imm : decodeTableWord 64 0x001C101F50000005 = some (.add h0 .i32 false (.vec 1) .tid (.imm 5)) := by decide
/-- The example of R69: bra with OFF24 = 1 and LIVE 2 (OPC 0x60). -/
theorem test_decode_bra : decodeTableWord 64 0x181C000000108000 = some (.bra h0 1 2) := by decide
/-- The example of chapter 06: loop lc0, 8 over 4 words. -/
theorem test_decode_loop : decodeTableWord 64 0x19DC100000001008 = some (.loop false 0 (.imm 8) 4) := by decide
/-- frcp v1, v2: OPC 0x43. -/
theorem test_decode_frcp : decodeTableWord 64 0x10DC001020000000 = some (.frcp h0 (.vec 1) (.vec 2)) := by decide
/-- shfl.xor v1, v2, 1: OPC 0x50, VAR 011, FI 1. -/
theorem test_decode_shfl : decodeTableWord 64 0x141D901020000001 = some (.shfl h0 .xor false (.vec 1) (.vec 2) (.imm 1)) := by decide
/-- pst.b32 pad[v2], v3: OPC 0x91, SZ 100. -/
theorem test_decode_pst : decodeTableWord 64 0x245E000020300000 = some (.pst h0 .b32 0 (.vec 2) (.vec 3)) := by decide
/-- The examples of chapters 10 and 19: atom.add with a release for C and D; atom.cas.n64 zero, [s12], s16. -/
theorem test_decode_atom : decodeTableWord 64 0x1C9C008020500026 = some (.atom h0 (.int .add .i32) ⟨0, 9, .rel⟩ (.vec 8) (.vec 2) (.vec 5)) := by
  decide
theorem test_decode_cas : decodeTableWord 64 0x1C9DFF0CCD000000 = some (.atom h0 (.int .cas .n64) m0 .zero (.sca 12) (.sca 16)) := by decide
/-- The example of R306: fence.ar.cd. -/
theorem test_decode_fence : decodeTableWord 64 0x3A1F000000009000 = some (.fence h0 .ar 9) := by decide
/-- The examples of chapters 12 and 13. -/
theorem test_decode_messages : decodeTableWord 64 0x2C1C0F0C4C600000 = some (.send h0 .zero (.sca 4) (.sca 6))
    ∧ decodeTableWord 64 0x2C5CDC1000000002 = some (.mbadv h0 3 (.sca 1) (.imm 2)) ∧ decodeTableWord 64 0x2C9C000C80000000 = some (.coll h0 (.sca 8)) := by decide
theorem test_decode_tasks : decodeTableWord 64 0x305C0C2000000000 = some (.tnext h0 (.sca 2)) ∧ decodeTableWord 64 0x319C000C80000000 = some (.launch h0 (.sca 8))
    ∧ decodeTableWord 64 0x30DC1C1C40000002 = some (.qput h0 (.sca 1) (.sca 4) 2) := by decide
/-- The examples of chapters 14 and 16. -/
theorem test_decode_graphics : decodeTableWord 64 0x341C00C08F600000 = some (.tex h0 false (.vec 12) (.vec 8) .argl)
    ∧ decodeTableWord 64 0x355C0C1C20000000 = some (.mfinMesh h0 (.sca 1) (.sca 2)) ∧ decodeTableWord 64 0x35DC000000000000 = some (.pkill h0) := by decide
theorem test_decode_system : decodeTableWord 64 0x3C1C100000000012 = some (.trap h0 0x12) ∧ decodeTableWord 64 0x3C5C100000000001 = some (.sret h0 1)
    ∧ decodeTableWord 64 0x3D1C1C2000000000 = some (.cyc h0 (.sca 2)) ∧ decodeTableWord 64 0x3D5C000C30000000 = some (.halt h0 (.sca 3))
    ∧ decodeTableWord 64 0x3D9C100000000001 = some (.iflush h0 true) ∧ decodeTableWord 64 0x1A1C100000000000 = some (.brk h0 0) := by decide
/-- Negated p7 is reserved (R64); 0x2C is unassigned (R79); LIVE 49 is reserved (R70); bit 0 of Form R is reserved (R66); the bank
clash of the example of R76. -/
theorem test_decode_refused : refusal 0x003C003010200000 = some 0x02 ∧ refusal 0x0B1C000000000000 = some 0x01
    ∧ refusal 0x181C0000001C4000 = some 0x02 ∧ refusal 0x001C003010200001 = some 0x02 := by decide

/-! ## Well-formedness: a term that each check refuses -/

theorem test_wf_guard : (Instr.nop ⟨false, true, 7⟩).wf = false ∧ (Instr.nop ⟨false, true, 0⟩).wf = true := by decide
theorem test_wf_sat : (Instr.add h0 .i32 true (.vec 1) (.vec 2) (.imm 5)).wf = false
    ∧ (Instr.mad h0 .i32 true (.vec 1) (.vec 2) (.vec 3) (.imm 5)).wf = false := by decide
theorem test_wf_abs_signed : (Instr.abs h0 .n32 false (.vec 1) (.vec 2)).wf = false := by decide
theorem test_wf_bitfield : (Instr.bfx h0 .i32 (.vec 1) (.vec 2) (.imm 0x10000)).wf = false := by decide
/-- Each EXT check: a modifier not admitted, RM without RMO, SRE with RMO, SRE where it is not admitted. -/
theorem test_wf_ext : (Instr.fsqrt h0 .f32 { Ext.zero with nb := true } (.vec 1) (.vec 2)).wf = false
    ∧ (Instr.fadd h0 .f32 { Ext.zero with rm := 1 } (.vec 1) (.vec 2) (.vec 3)).wf = false
    ∧ (Instr.fadd h0 .f32 { Ext.zero with sre := true, rmo := true } (.vec 1) (.vec 2) (.vec 3)).wf = false
    ∧ (Instr.fdiv h0 .f32 { Ext.zero with sre := true } (.vec 1) (.vec 2) (.vec 3)).wf = false
    ∧ (Instr.fmin h0 .f32 { Ext.zero with sat := true } (.vec 1) (.vec 2) (.vec 3)).wf = false
    ∧ (Instr.fsel h0 .f32 { Ext.zero with rmo := true } (.vec 1) (.vec 2) (.vec 3) (.vec 4)).wf = false := by decide
theorem test_wf_conversions : (Instr.cvt h0 Ext.zero .mx8 .i32 (.vec 1) (.vec 2) (.vec 0)).wf = false
    ∧ (Instr.cvt h0 Ext.zero .f32 .i32 (.vec 1) (.vec 2) (.vec 3)).wf = false
    ∧ (Instr.pack h0 Ext.zero .f32 .f32 (.vec 1) (.vec 2) (.vec 3)).wf = false
    ∧ (Instr.pack h0 Ext.zero .n8 .f32 (.vec 1) (.vec 2) (.vec 3)).wf = false
    ∧ (Instr.unpack h0 .f32 .f32 (.vec 1) (.vec 2)).wf = false ∧ (Instr.unpack h0 .f16 .i32 (.vec 1) (.vec 2)).wf = false := by decide
theorem test_wf_redux : (Instr.redux h0 .and .f32 Ext.zero (.vec 1) (.vec 2)).wf = false
    ∧ (Instr.redux h0 .add .f32 { Ext.zero with sat := true } (.vec 1) (.vec 2)).wf = false := by decide
theorem test_wf_pair : (Instr.pairWord false ⟨.and, 0, true, false, 1, 2⟩ ⟨.nop, 0, false, false, 0, 0⟩).wf = false
    ∧ (Instr.pairWord false ⟨.shli8, 0, false, false, 1, 32⟩ ⟨.nop, 0, false, false, 0, 0⟩).wf = false
    ∧ (Instr.pairWord false ⟨.and, 0, false, true, 1, 2⟩ ⟨.nop, 0, false, false, 0, 0⟩).wf = false
    ∧ (Instr.pairWord false ⟨.nop, 0, false, false, 1, 0⟩ ⟨.nop, 0, false, false, 0, 0⟩).wf = false := by decide
theorem test_wf_loop : (Instr.loop false 0 (.imm 8) 0).wf = false := by decide
theorem test_wf_orders : (Instr.ld h0 .b32 .none ⟨0, 1, .plain⟩ (.vec 1) (.vec 2)).wf = false
    ∧ (Instr.ld h0 .b32 .none ⟨0, 0, .acq⟩ (.vec 1) (.vec 2)).wf = false
    ∧ (Instr.ld h0 .b32 .none ⟨0, 1, .rel⟩ (.vec 1) (.vec 2)).wf = false
    ∧ (Instr.st h0 .b32 .none ⟨0, 1, .acq⟩ (.vec 1) (.vec 2)).wf = false
    ∧ (Instr.red h0 (.int .add .i32) ⟨0, 1, .ar⟩ (.vec 1) (.vec 2)).wf = false
    ∧ (Instr.fence h0 .acq 0).wf = false := by decide
theorem test_wf_atomics : (Instr.red h0 (.int .cas .i32) m0 (.vec 1) (.vec 2)).wf = false
    ∧ (Instr.patom h0 (.b64 .min) 0 (.vec 1) (.vec 2) (.vec 3)).wf = false := by decide
theorem test_wf_operands : (Instr.watch h0 .off false (.vec 1)).wf = false ∧ (Instr.parr h0 .zero (.vec 1) (.imm 0x10000)).wf = false
    ∧ (Instr.pwait h0 .zero (.vec 1) (.imm 2)).wf = false ∧ (Instr.mbadv h0 0 .zero (.imm 257)).wf = false
    ∧ (Instr.tdone h0 .zero (.imm 0)).wf = false ∧ (Instr.mtc h0 0x001 (.vec 1)).wf = false
    ∧ (Instr.mtc h0 0x010 (.vec 1)).wf = false ∧ (Instr.loopEndTest sel0).wf = false := by decide

/-! ## Witnesses: words that write registers -/

theorem tiny_ordered : Ordered tiny := ordered_of (by decide)

def iAdd : Instr := .add h0 .i32 false (.vec 1) .tid (.imm 5)
def iDiv (n : BitVec 20) : Instr := .div h0 .i32 false (.vec 1) .tid (.imm n)

theorem wit_arithmetic : ∃ w c, arithWord? iAdd = some w ∧ Runs tiny iAdd c ∧ c.act.length = 4 := word_wit (by decide)
theorem wit_division : ∃ w c, divWord? (iDiv 5) = some w ∧ Runs tiny (iDiv 5) c ∧ Ordered tiny ∧ w.quiet c ∧ c.act ≠ [] :=
  quiet_wit (by decide) (by decide)
theorem wit_bits : ∃ w c, bitWord? (.shl h0 .i32 (.vec 1) .tid (.imm 31)) = some w ∧ Runs tiny (.shl h0 .i32 (.vec 1) .tid (.imm 31)) c
    ∧ c.act ≠ [] := word_wit (by decide)
theorem wit_predicate : ∃ w c, predWord? (.cmp h0 .lt .i32 6 .tid (.imm 2)) = some w ∧ Runs tiny (.cmp h0 .lt .i32 6 .tid (.imm 2)) c
    ∧ c.act ≠ [] := word_wit (by decide)
theorem wit_move : ∃ w c, moveWord? (.movi h0 .n32 (.vec 191) 0xFFFFF) = some w ∧ Runs tiny (.movi h0 .n32 (.vec 191) 0xFFFFF) c
    ∧ c.act ≠ [] := word_wit (by decide)
theorem wit_rounded : ∃ w c, fpWord? (.fadd h0 .f32 Ext.zero (.vec 1) .tid .tid) = some w
    ∧ Runs tiny (.fadd h0 .f32 Ext.zero (.vec 1) .tid .tid) c ∧ Ordered tiny ∧ w.quiet c ∧ c.act ≠ [] := quiet_wit (by decide) (by decide)
theorem wit_float_pick : ∃ w c, fpPickWord? (.fmin h0 .f32 Ext.zero (.vec 1) .tid .tid) = some w
    ∧ Runs tiny (.fmin h0 .f32 Ext.zero (.vec 1) .tid .tid) c ∧ Ordered tiny ∧ w.quiet c ∧ c.act ≠ [] := quiet_wit (by decide) (by decide)
theorem wit_conversion : ∃ w c, convWord? (.cvt h0 Ext.zero .f32 .i32 (.vec 1) .tid (.vec 0)) = some w
    ∧ Runs tiny (.cvt h0 Ext.zero .f32 .i32 (.vec 1) .tid (.vec 0)) c ∧ Ordered tiny ∧ w.quiet c ∧ c.act ≠ [] :=
  quiet_wit (by decide) (by decide)
theorem wit_crosslane : ∃ w c, crossWord? (.redux h0 .add .i32 Ext.zero (.sca 0) .tid) = some w
    ∧ Runs tiny (.redux h0 .add .i32 Ext.zero (.sca 0) .tid) c ∧ Ordered tiny ∧ w.quiet c ∧ c.act ≠ [] := quiet_wit (by decide) (by decide)
theorem wit_status : ∃ w c, statusWord? (.mfc h0 (.vec 2) 0x006) = some w ∧ Runs tiny (.mfc h0 (.vec 2) 0x006) c ∧ c.act ≠ [] :=
  word_wit (by decide)
theorem wit_register_causes : ∃ w c, regWord? (iDiv 0) = some w ∧ Runs tiny (iDiv 0) c ∧ w.causes c ≠ [] := word_wit (by decide)
theorem wit_special : ∃ w c, specialWord? (.frcp h0 (.vec 1) .tid) = some w ∧ Runs tiny (.frcp h0 (.vec 1) .tid) c
    ∧ Ordered tiny ∧ w.quiet c ∧ c.act ≠ [] := quiet_wit (by decide) (by decide +kernel)
/-- A texture of one texel at 0x4000 and its descriptor's address in s2. -/
def texState : State := setS (poke (near tiny 0) 0x4000 [0, 0, 0, 0, 0, 0, 0, 0, 1, 0, 1, 0, 1, 0, 1, 1, 0, 0, 0, 0, 0, 0, 0, 0, 0, 0, 0, 0, 0, 0, 0, 0, 0, 0, 1])
  2 0x4000
theorem wit_texture : ∃ w c, texWord? (.texf h0 false (.vec 8) (.vec 2) (.sca 2) .zero) = some w
    ∧ Runs texState (.texf h0 false (.vec 8) (.vec 2) (.sca 2) .zero) c ∧ Ordered texState ∧ w.quiet c ∧ c.readsDone = true :=
  quiet_wit (by decide) (by decide)
/-- The first two lines, where a node or a triangle stands at 0. -/
def low (s : State) : State := near (near s 0) 64
theorem wit_ray_test : ∃ w c, (rayWord? (.rbox h0 (.vec 16) (.vec 8) (.sca 2))).map (·.1) = some w
    ∧ Runs (low tiny) (.rbox h0 (.vec 16) (.vec 8) (.sca 2)) c ∧ Ordered (low tiny) ∧ w.quiet c ∧ c.readsDone = true :=
  quiet_wit (f := fun i => (rayWord? i).map (·.1)) (by decide) (by decide)

def slA : Slot := ⟨.add, 0, false, false, 4, 5⟩
def slB : Slot := ⟨.fmul, 0, false, false, 10, 7⟩
theorem wit_pair : ∃ c, Runs tiny (.pairWord false slA slB) c
    ∧ (∀ y, y ∈ slotActors c slA → fpCause c.fpc (slotOut c slA y.1 y.2).fl = none)
    ∧ ∀ y, y ∈ slotActors c slB → fpCause c.fpc (slotOut c slB y.1 y.2).fl = none := runs_wit (by decide)

/-! ## Witnesses: control registers -/

theorem wit_mtc : ∃ c, Runs tiny (.mtc h0 0x00C .tid) c ∧ c.mtcVal (crWide 0x00C) .tid = some 0 := runs_wit (by decide)
theorem wit_mtc_inactive : ∃ c, Runs tiny (.mtc hNo 0x00C .tid) c ∧ c.act = [] := runs_wit (by decide)
theorem wit_fpc_write : ∃ c, Runs tiny (.fpcWrite h0 .tid) c ∧ c.mtcVal false .tid = some 0 := runs_wit (by decide)
theorem wit_cyc : ∃ c, Runs tiny (.cyc h0 (.vec 2)) c ∧ c.real ≠ none := runs_wit (by decide)

/-- A block with a queue of 8 entries at pad offset 0, and the value of s0. -/
def mqState (v : Word) : State := setS (withK tiny fun k => { k with mqEnt := 8 }) 0 v
theorem wit_mqb_no_engine : ∃ c, Runs tiny (.mqbWrite h0 (.sca 0)) c ∧ c.mtcVal false (.sca 0) = some 0 ∧ c.acting ≠ none
    ∧ c.blk.kern.mqEnt = 0 :=
  runs_wit (by decide)
/-- 256 entries at the last place that holds them. -/
theorem wit_mqb : ∃ c, Runs (mqState 0x8000F000) (.mqbWrite h0 (.sca 0)) c ∧ c.mtcVal false (.sca 0) = some 0x8000F000
    ∧ c.acting ≠ none ∧ c.blk.kern.mqEnt ≠ 0 ∧ field 0x8000F000 31 23 = 256 ∧ 16 * field 0x8000F000 18 4 + 16 * 256 = c.blk.kern.pad
    ∧ c.blk.eng.mqh = c.blk.eng.mqt ∧ c.blk.eng.run = [] := runs_wit (by decide)
theorem wit_mqb_wait : ∃ c, Runs (withB (mqState 0x04000000) fun b => { b with eng := { b.eng with mqt := 1 } }) (.mqbWrite h0 (.sca 0)) c
    ∧ c.mtcVal false (.sca 0) = some 0x04000000 ∧ c.acting ≠ none ∧ c.blk.kern.mqEnt ≠ 0 ∧ field 0x04000000 31 23 = 8 ∧ c.blk.eng.mqh ≠ c.blk.eng.mqt :=
  runs_wit (by decide)
theorem wit_mqb_entries : ∃ c, Runs (mqState 0x03800000) (.mqbWrite h0 (.sca 0)) c ∧ c.mtcVal false (.sca 0) = some 0x03800000
    ∧ c.acting ≠ none ∧ c.blk.kern.mqEnt ≠ 0 ∧ field 0x03800000 31 23 = 7 := runs_wit (by decide)
/-- The acting lane is a helper. -/
theorem wit_mqb_helper : ∃ c, Runs (helpers (mqState 0x03800000)) (.mqbWrite h0 (.sca 0)) c ∧ c.mtcVal false (.sca 0) = some 0x03800000
    ∧ (c.acting.elim false fun x => x.2.helper) = true ∧ c.blk.kern.mqEnt ≠ 0 ∧ field 0x03800000 31 23 = 7 := runs_wit (by decide)
theorem wit_mqb_beyond : ∃ c, Runs (mqState 0x8000F010) (.mqbWrite h0 (.sca 0)) c ∧ c.mtcVal false (.sca 0) = some 0x8000F010
    ∧ c.acting ≠ none ∧ c.blk.kern.mqEnt ≠ 0 ∧ field 0x8000F010 31 23 = 256 ∧ c.blk.kern.pad < 16 * field 0x8000F010 18 4 + 16 * 256 := runs_wit (by decide)

/-! ## Witnesses: control flow -/

/-- A land word with tag 0 (OPC 0x65) at 0x2_0110, which s2 and s3 name. -/
def landed : State := setS (poke tiny 0x20110 (leBytes 8 0x195C000000000000)) 2 0x20110
def Uniform (x : Transfer) (p : DWord) (c : Ctx) : Prop :=
  c.act = c.present ∧ c.present ≠ [] ∧ c.sq.loops = [] ∧ c.sq.sup = false ∧ (∀ y ∈ c.sq.lanes, y.2.at' = .issue)
    ∧ ∀ y ∈ c.act, x.check c y.1 y.2 = none ∧ x.target c y.1 y.2 = p
theorem wit_bra : ∃ x c, transfer? (.bra h0 1 0) = some x ∧ Runs tiny (.bra h0 1 0) c ∧ Uniform x 0x20110 c := by
  unfold Uniform; exact word_wit (by decide)
theorem wit_call : ∃ x c, transfer? (.call h0 (.vec 4) 1 0) = some x ∧ Runs landed (.call h0 (.vec 4) 1 0) c ∧ Uniform x 0x20110 c := by
  unfold Uniform; exact word_wit (by decide)
theorem wit_jmp : ∃ x c, transfer? (.jmp h0 (.sca 2) 0 0) = some x ∧ Runs landed (.jmp h0 (.sca 2) 0 0) c ∧ Uniform x 0x20110 c := by
  unfold Uniform; exact word_wit (by decide)
theorem wit_untaken : ∃ x c, transfer? (.bra hNo 1 0) = some x ∧ Runs tiny (.bra hNo 1 0) c ∧ c.act = [] ∧ c.present ≠ []
    ∧ c.sq.loops = [] ∧ c.sq.sup = false ∧ ∀ y ∈ c.sq.lanes, y.2.at' = .issue := word_wit (by decide)
/-- A target that is no multiple of 8. -/
theorem wit_bad_target : ∃ x c, transfer? (.jmp h0 (.sca 2) 0 0) = some x ∧ Runs (setS landed 2 0x20114) (.jmp h0 (.sca 2) 0 0) c
    ∧ (c.act.filterMap fun y => if y.2.helper then none else (x.check c y.1 y.2).map fun e => (y.1, e)) ≠ [] := word_wit (by decide)

/-- A target whose word no one can read now. -/
theorem wit_target_waits : ∃ x c, transfer? (.jmp h0 (.sca 2) 0 0) = some x ∧ Runs (away landed 0x20110) (.jmp h0 (.sca 2) 0 0) c
    ∧ anyWaits (c.act.filterMap fun y => (x.check c y.1 y.2).map fun e => (y.1, e)) = true := word_wit (by decide)

theorem wit_nop : ∃ c, Runs tiny (.nop h0) c ∧ c.act ≠ [] := runs_wit (by decide)
theorem wit_land : ∃ c, Runs tiny (.land h0 0xFFF) c ∧ c.act ≠ [] := runs_wit (by decide)
theorem wit_yield : ∃ c, Runs tiny (.yield h0) c ∧ c.act ≠ [] := runs_wit (by decide)
theorem wit_loop_skip : ∃ c, Runs tiny (.loop false 2 (.imm 0) 1) c ∧ c.loopCount (.imm 0) = 0 := runs_wit (by decide)
theorem wit_loop : ∃ c, Runs tiny (.loop false 2 (.imm 1) 1) c ∧ c.loopCount (.imm 1) ≠ 0 := runs_wit (by decide)
def inLoop : State := withQ tiny fun q => { q with lc := [(0, 2)], loops := [⟨0x20100, 1, 0, [0, 1, 2, 3]⟩] }
theorem wit_reform_loop : ∃ c, Runs inLoop (.reform false 0) c ∧ c.sq.loops ≠ [] := runs_wit (by decide)

/-- Twenty threads in two squads, the second selected. -/
def twoLaunch : Launch := { placedLaunch 1 with bshape := 20, kern := { placedKern with roles := [⟨2, 64, 0⟩] } }
def two : State := { (withC { tiny with cur := ⟨0, 0, 0, 1⟩ } fun c => { c with blocks := [(0, twoLaunch.block 0 0 none .grid 0 1)] })
  with nextId := 2 }
def reformGroup (c : Ctx) : FGroup := ⟨c.present.map (·.1), c.sq.pc + 8, 4, none, false, c.present.map fun y => (y.1, y.2, y.2.helper)⟩
def reformPass (c : Ctx) : Bool := c.sq.full c.blk.kern.width false || c.sq.agedDraw || !c.s.othersOf c.q c.sq.role
theorem wit_reform_pass : ∃ c, Runs tiny (.reform false 4) c ∧ c.sq.loops = [] ∧ c.sq.sup = false
    ∧ (∀ y ∈ c.sq.lanes, y.2.at' = .issue) ∧ c.blk.kern.quad = false ∧ reformPass c = true := runs_wit (by decide)
theorem wit_reform_files : ∃ c, Runs two (.reform false 4) c ∧ c.sq.loops = [] ∧ c.sq.sup = false
    ∧ (∀ y ∈ c.sq.lanes, y.2.at' = .issue) ∧ c.blk.kern.quad = false ∧ reformPass c = false ∧ c.present ≠ []
    ∧ c.s.roomFor c.q c.sq.role [reformGroup c] = true := runs_wit (by decide)
theorem wit_reform_ordered : Ordered two := ordered_of (by decide)
theorem wit_exit : ∃ c, Runs tiny (.exit h0) c ∧ c.act ≠ [] := runs_wit (by decide)

/-! ## Witnesses: causes -/

/-- A 64-bit operand given as an odd register (R72). -/
theorem wit_decode_cause : ∃ c, Reaches tiny h0 c ∧ (useOf (.add h0 .i64 false (.vec 1) (.vec 2) (.imm 0)) c).cause c false = some 0x03 :=
  reaches_wit (by decide)
theorem wit_takes_cause : ∃ b, tiny.block? pos0 = some b ∧ b.halt.phase = .run
    ∧ ∀ x ∈ b.squads, x.2.sup = false := some_wit (by decide)
theorem wit_privileged : ∃ c, Reaches tiny h0 c ∧ c.sq.sup = false ∧ c.present ≠ []
    ∧ (useOf (.mfc h0 (.sca 2) 0x021) c).uses.any (Use.bad c.budget) = false
    ∧ (useOf (.mtc h0 0x101 (.sca 2)) c).uses.any (Use.bad c.budget) = false := reaches_wit (by decide)
theorem wit_breakpoint : ∃ c, Runs tiny (.brk h0 0xFFF) c ∧ c.real ≠ none ∧ c.blk.halt.phase = .run ∧ c.sq.sup = false :=
  runs_wit (by decide)

/-! ## Witnesses: pad and accumulator memory -/

def pldI (off : BitVec 12) (a : Opnd) : Instr := .pld h0 .b32 off (.vec 1) a
theorem wit_pad_misaligned : ∃ p c, padAcc? (pldI 0 .tid) = some p ∧ Runs tiny (pldI 0 .tid) c ∧ p.causes c = [(1, 0x20), (2, 0x20), (3, 0x20)] :=
  word_wit (by decide)
theorem wit_pad_beyond : ∃ p c, padAcc? (pldI 0 (.sca 0)) = some p ∧ Runs (setS tiny 0 65536) (pldI 0 (.sca 0)) c
    ∧ (p.causes c).map (·.2) = [0x26, 0x26, 0x26, 0x26] := word_wit (by decide)
theorem wit_am_beyond : ∃ p c, padAcc? (.ald h0 false 0 (.vec 1) (.sca 0)) = some p
    ∧ Runs (setS tiny 0 16384) (.ald h0 false 0 (.vec 1) (.sca 0)) c ∧ (p.causes c).map (·.2) = [0x27, 0x27, 0x27, 0x27] := word_wit (by decide)
theorem wit_pad_error : ∃ p c, padAcc? (pldI 0 .zero) = some p ∧ Runs (withB tiny fun b => { b with padBad := [0] }) (pldI 0 .zero) c
    ∧ (p.causes c).map (·.2) = [0x2B, 0x2B, 0x2B, 0x2B] := word_wit (by decide)
/-- The last word of the allotment. -/
theorem wit_pld : ∃ p c, padAcc? (pldI 1 (.sca 0)) = some p ∧ Runs (setS tiny 0 65528) (pldI 1 (.sca 0)) c ∧ p.causes c = [] :=
  word_wit (by decide)
theorem wit_ald : ∃ p c, padAcc? (.ald h0 true 0 (.vec 2) .zero) = some p ∧ Runs tiny (.ald h0 true 0 (.vec 2) .zero) c
    ∧ p.causes c = [] := word_wit (by decide)
theorem wit_pst : ∃ p c, padAcc? (.pst h0 .b8 0 .tid (.vec 3)) = some p ∧ Runs tiny (.pst h0 .b8 0 .tid (.vec 3)) c
    ∧ p.causes c = [] ∧ p.lanes c ≠ [] := word_wit (by decide)
theorem wit_ast : ∃ p c, padAcc? (.ast h0 false 0 .zero (.vec 3)) = some p ∧ Runs tiny (.ast h0 false 0 .zero (.vec 3)) c
    ∧ p.causes c = [] ∧ p.lanes c ≠ [] := word_wit (by decide)
theorem wit_patom : ∃ p c, padAcc? (.patom h0 (.i32 .add) 0 (.vec 1) .zero .tid) = some p
    ∧ Runs tiny (.patom h0 (.i32 .add) 0 (.vec 1) .zero .tid) c ∧ p.causes c = [] ∧ p.lanes c ≠ [] := word_wit (by decide)
theorem wit_parr : ∃ p c, padAcc? (.parr h0 .zero .zero (.imm 0xFFFF)) = some p ∧ Runs tiny (.parr h0 .zero .zero (.imm 0xFFFF)) c
    ∧ p.causes c = [] ∧ p.lanes c ≠ [] := word_wit (by decide)
def pwaitI (n : BitVec 20) : Instr := .pwait h0 (.vec 1) .zero (.imm n)
/-- A word whose bit 31 is 0 passes a wait for phase 1, and holds one for phase 0. -/
theorem wit_pwait_passes : ∃ p c, padAcc? (pwaitI 1) = some p ∧ Runs tiny (pwaitI 1) c ∧ p.causes c = [] ∧ c.act ≠ []
    ∧ ∀ x ∈ p.lanes c, p.value c x / 2 ^ 31 ≠ (c.rdN x.1 x.2 (.imm 1)).toNat % 2 := word_wit (by decide)
theorem wit_pwait_parks : ∃ p c, padAcc? (pwaitI 0) = some p ∧ Runs tiny (pwaitI 0) c ∧ p.causes c = [] ∧ c.act ≠ []
    ∧ ∃ x ∈ p.lanes c, p.cause c x.1 x.2 = none ∧ p.value c x / 2 ^ 31 = (c.rdN x.1 x.2 (.imm 0)).toNat % 2 := word_wit (by decide)

/-! ## Witnesses: tags, watches, waits and barriers -/

def doneState : State := withB tiny fun b => { b with tagsDone := 2 ^ 63 }
def maskOf (c : Ctx) (m : TMask) : DWord := c.acting.elim 0 fun x => c.tmask x.2 m
theorem wit_twany_done : ∃ c, Runs doneState (.twany h0 (.vec 1) (.tag 63)) c ∧ c.acting ≠ none
    ∧ c.blk.tagsDone &&& maskOf c (.tag 63) ≠ 0 := runs_wit (by decide +kernel)
theorem wit_twany_empty : ∃ c, Runs tiny (.twany h0 (.vec 1) (.reg (.sca 2))) c ∧ c.acting ≠ none ∧ maskOf c (.reg (.sca 2)) = 0 :=
  runs_wit (by decide +kernel)
theorem wit_twany_parks : ∃ c, Runs tiny (.twany h0 (.vec 1) (.tag 0)) c ∧ c.acting ≠ none ∧ maskOf c (.tag 0) ≠ 0
    ∧ c.blk.tagsDone &&& maskOf c (.tag 0) = 0 := runs_wit (by decide +kernel)
theorem wit_twall : ∃ c, Runs doneState (.twall h0 (.tag 63)) c ∧ c.acting ≠ none
    ∧ c.blk.tagsDone &&& maskOf c (.tag 63) = maskOf c (.tag 63) := runs_wit (by decide +kernel)
theorem wit_twall_parks : ∃ c, Runs doneState (.twall h0 (.tag 62)) c ∧ c.acting ≠ none
    ∧ c.blk.tagsDone &&& maskOf c (.tag 62) ≠ maskOf c (.tag 62) := runs_wit (by decide +kernel)
theorem wit_tfirst : ∃ c, Runs tiny (.tfirst h0 (.vec 1) (.tag 0)) c ∧ c.acting ≠ none := runs_wit (by decide +kernel)
theorem wit_tclr : ∃ c, Runs doneState (.tclr h0 (.tag 63)) c ∧ c.acting ≠ none := runs_wit (by decide +kernel)

theorem wit_watch_pad : ∃ c, Runs (setS tiny 0 65535) (.watch h0 .pad true (.sca 0)) c
    ∧ (c.acting.elim 0 fun x => (c.rd x.1 x.2 (.sca 0)).toNat) = 65535 ∧ 65535 < c.blk.kern.pad := runs_wit (by decide)
theorem wit_watch_off : ∃ c, Runs tiny (.watch h0 .off false (.vec 0)) c ∧ c.acting ≠ none := runs_wit (by decide)
theorem wit_watch_global : ∃ c, Runs tiny (.watch h0 .global false (.sca 2)) c ∧ c.acting ≠ none := runs_wit (by decide)
theorem wit_watch_translates : ∃ t, tiny.translate 0 false 0 .read 1 0 = .ok t ∧ t.place = .dev 0 := ok_wit (by decide)
theorem wit_watch_faults (s : State) (e : Nat) (h : (s, e) = (setS tiny 3 0x100000, 0x21) ∨ (s, e) = (away tiny 0x10000, waitOn 0x400)) :
    ∃ c, Runs s (.watch h0 .global false (.sca 2)) c ∧ c.acting ≠ none
      ∧ (match c.s.translate c.q.stall c.sq.sup (c.acting.elim 0 fun x => c.rd64 x.2 (.sca 2)) .read 1 0 with
        | .error x => x = e
        | .ok _ => false) = true := by
  rcases h with h | h <;> (cases h; exact runs_wit (by decide))
theorem wit_watch_beyond : ∃ c, Runs (setS tiny 0 65536) (.watch h0 .pad true (.sca 0)) c
    ∧ (c.acting.elim 0 fun x => (c.rd x.1 x.2 (.sca 0)).toNat) = 65536 ∧ 65536 = c.blk.kern.pad := runs_wit (by decide)
theorem wit_wait_disarmed : ∃ c, Runs tiny (.wait h0 (.vec 1) (.imm 0)) c ∧ c.act ≠ [] ∧ c.sq.w0.armed = false ∧ c.sq.w1.armed = false :=
  runs_wit (by decide)
def armed (hit : Bool) : State := withQ tiny fun q => { q with w1 := ⟨true, hit, .pad 0, 0⟩ }
theorem wit_wait_hit : ∃ c, Runs (armed true) (.wait h0 (.vec 1) (.imm 0)) c ∧ c.act ≠ [] ∧ c.sq.hits = 2 := runs_wit (by decide)
theorem wit_wait_parks : ∃ c, Runs (armed false) (.wait h0 (.vec 1) (.imm 1)) c ∧ c.act ≠ [] ∧ c.sq.w1.armed = true ∧ c.sq.hits = 0 :=
  runs_wit (by decide)

def barHyps (c : Ctx) : Prop := c.blk.bars = [] ∧ 0 < (c.present.filter fun x => !x.2.helper).length ∧ c.sq.sup = false
theorem wit_bar_holds : ∃ c, Runs (withB tiny fun b => { b with live := 5 }) (.bar false 15) c ∧ c.blk.bars = []
    ∧ (c.present.filter fun x => !x.2.helper).length = 4 ∧ c.sq.sup = false ∧ c.blk.live = 5 := runs_wit (by decide)
theorem wit_bar_last : ∃ c, Runs tiny (.bar false 15) c ∧ c.blk.bars = []
    ∧ (c.present.filter fun x => !x.2.helper).length = 4 ∧ c.sq.sup = false ∧ c.blk.live = 4 := runs_wit (by decide)

/-! ## Witnesses: memory -/

/-- A leaf without U. -/
def guarded : State := poke tiny 0x11000 [0xE3, 0x00]
theorem wit_leaf_without_user : ∃ t, guarded.entryFor 0 0 0 = .ok t ∧ field t.leaf 4 2 ≠ 3 ∧ t.leaf.getLsbD 8 = false := ok_wit (by decide)
theorem wit_access_passes : ∃ t, tiny.translate 0 false 0xFFFC .atomic 4 0 = .ok t ∧ t.place = .dev 0xFFFC := ok_wit (by decide)
def ldI (a : Opnd) : Instr := .ld h0 .b32 .none m0 (.vec 8) a
theorem wit_memory_cause : ∃ f c, memAccs? (.ld h0 .b32 .none ⟨0, 0, .plain⟩ (.vec 8) (.sca 0)) = some f
    ∧ Runs (setS tiny 0 2) (.ld h0 .b32 .none ⟨0, 0, .plain⟩ (.vec 8) (.sca 0)) c ∧ memCauses (f c) ≠ [] := word_wit (by decide)
theorem wit_memory_waits : ∃ f c, memAccs? (ldI (.sca 0)) = some f ∧ Runs (away tiny 0x10000) (ldI (.sca 0)) c
    ∧ anyWaits (memCauses (f c)) = true := word_wit (by decide)
theorem wit_ld : ∃ f c, memAccs? (ldI (.sca 0)) = some f ∧ Runs tiny (ldI (.sca 0)) c ∧ memCauses (f c) = [] ∧ c.act ≠ [] :=
  word_wit (by decide)
theorem wit_lrs : ∃ f c, memAccs? (.lrs h0 true m0 (.vec 8) (.vec 2)) = some f ∧ Runs tiny (.lrs h0 true m0 (.vec 8) (.vec 2)) c
    ∧ memCauses (f c) = [] ∧ c.act ≠ [] := word_wit (by decide)
theorem wit_st : ∃ f c, memAccs? (.st h0 .b128 .none ⟨0, 63, .rel⟩ (.vec 2) (.vec 8)) = some f
    ∧ Runs tiny (.st h0 .b128 .none ⟨0, 63, .rel⟩ (.vec 2) (.vec 8)) c ∧ memCauses (f c) = [] ∧ c.act ≠ [] := word_wit (by decide)
theorem wit_atom : ∃ f c, memAccs? (.atom h0 (.int .add .i32) m0 (.vec 8) (.vec 2) (.vec 5)) = some f
    ∧ Runs tiny (.atom h0 (.int .add .i32) m0 (.vec 8) (.vec 2) (.vec 5)) c ∧ memCauses (f c) = [] ∧ c.act ≠ [] := word_wit (by decide)
theorem wit_red : ∃ f c, memAccs? (.red h0 .faddF64 m0 (.vec 2) (.vec 4)) = some f
    ∧ Runs tiny (.red h0 .faddF64 m0 (.vec 2) (.vec 4)) c ∧ memCauses (f c) = [] ∧ c.act ≠ [] := word_wit (by decide)
theorem wit_scs : ∃ f c, memAccs? (.scs h0 false m0 (.vec 8) (.vec 2) (.vec 5)) = some f
    ∧ Runs tiny (.scs h0 false m0 (.vec 8) (.vec 2) (.vec 5)) c ∧ memCauses (f c) = [] ∧ c.act ≠ [] := word_wit (by decide)
theorem wit_cwb : ∃ f c, memAccs? (.cwb h0 0 (.vec 2)) = some f ∧ Runs tiny (.cwb h0 0 (.vec 2)) c ∧ memCauses (f c) = [] ∧ c.act ≠ [] :=
  word_wit (by decide)
theorem wit_cinv : ∃ f c, memAccs? (.cinv h0 true 0 (.vec 2)) = some f ∧ Runs tiny (.cinv h0 true 0 (.vec 2)) c
    ∧ memCauses (f c) = [] ∧ c.act ≠ [] := word_wit (by decide)
def cpfWaits (c : Ctx) : Bool := c.act.any fun y => match c.s.translate c.q.stall c.sq.sup (c.memVa y.2 (.vec 2) 0 64) .read 1 y.1 with
  | .error e => isWait e
  | .ok _ => false
theorem wit_cpf : ∃ c, Runs tiny (.cpf h0 .l1 0 (.vec 2)) c ∧ c.act ≠ [] ∧ cpfWaits c = false := runs_wit (by decide)
theorem wit_cpf_waits : ∃ c, Runs (away tiny 0x10000) (.cpf h0 .l1 0 (.vec 2)) c ∧ cpfWaits c = true := runs_wit (by decide)
theorem wit_fences : (∃ c, Runs tiny (.fence h0 .rel 1) c ∧ c.act ≠ []) ∧ (∃ c, Runs tiny (.fence h0 .ar 63) c ∧ c.act ≠ [])
    ∧ ∃ c, Runs tiny (.fence h0 .acq 32) c ∧ c.act ≠ [] := ⟨runs_wit (by decide), runs_wit (by decide), runs_wit (by decide)⟩
/-! ## Witnesses: words that act on units -/

/-- The squad in supervisor mode. -/
def inSup : State := withB tiny fun b => { b with
  halt := { b.halt with phase := .inSup, cause := 0x10 }
  squads := b.squads.map fun x => (x.1, { x.2 with sup := true, hr := { x.2.hr with epc := 0x20108 } }) }
theorem wit_without_thread : (∃ c, Runs tiny (.brk hNo 0) c ∧ ∀ x ∈ c.act, x.2.helper = true)
    ∧ (∃ c, Runs (helpers tiny) (.menq h0 .zero (.sca 0)) c ∧ ∀ x ∈ c.act, x.2.helper = true)
    ∧ (∃ c, Runs (helpers tiny) (.cyc h0 (.vec 2)) c ∧ ∀ x ∈ c.act, x.2.helper = true)
    ∧ ∃ c, Runs inSup (.sret hNo 5) c ∧ ∀ x ∈ c.act, x.2.helper = true :=
  ⟨runs_wit (by decide), runs_wit (by decide), runs_wit (by decide), runs_wit (by decide)⟩

def realLane (c : Ctx) : Bool := (c.act.find? fun x => !x.2.helper).isSome
def ringState : State := withT tiny fun t => { t with scring := 4 }
theorem wit_trap_without_ring : ∃ c, Runs tiny (.trap h0 0) c ∧ realLane c = true ∧ ringOn (c.s.stall c.q.stall).scring = false :=
  runs_wit (by decide)
theorem wit_trap : ∃ c, Runs ringState (.trap h0 0xFFFF) c ∧ realLane c = true ∧ c.sq.sup = false
    ∧ ringOn (c.s.stall c.q.stall).scring = true := runs_wit (by decide)
/-- The word names core 0, position 0, the block itself, which is halted; position 1 with a running block, and without one; and a
word with an unassigned bit. -/
def haltWord (w : Word) (other : Bool) : State := withC (withC inSup fun c => { c with supFile := [(0, ([(0, w)] : Tab Word).filter fun x => x.2 ≠ 0)] }) fun c =>
  { c with blocks := c.blocks ++ if other then [(1, tinyLaunch.block 1 0 none .grid 0 2)] else [] }
theorem wit_halt (w : Word) (other : Bool) (h : (w = 0x80 ∧ other = false) ∨ w = 0 ∨ w = 0x100) :
    ∃ c, Runs (haltWord w other) (.halt h0 (.sca 0)) c ∧ realLane c = true
      ∧ c.real.map (fun x => c.rd x.1 x.2 (.sca 0)) = some w
      ∧ (c.s.block? pos0).map (·.halt.phase) = some .inSup
      ∧ (c.s.block? ⟨0, 0, 1⟩).map (·.halt.phase) = (if other then some .run else none) := by
  rcases h with ⟨rfl, rfl⟩ | rfl | rfl
  · exact runs_wit (by decide)
  all_goals cases other <;> exact runs_wit (by decide)
theorem wit_iflush : ∃ c, Runs inSup (.iflush h0 true) c ∧ realLane c = true ∧ c.sq.sq = [] := runs_wit (by decide)
theorem wit_iflush_waits : ∃ c, Runs (withQ inSup fun q => { q with sq := [SqEnt.plain (.store (.dev 0x100) [1])] }) (.iflush h0 false) c
    ∧ realLane c = true ∧ c.sq.sq ≠ [] := runs_wit (by decide)
/-- The stall's save area on, with slots of 1 MiB. -/
def savesOn (s : State) : State := withT s fun t => { t with savea := 0x0100100000000000 }
theorem wit_sret (act : Fin 6) : ∃ c, Runs inSup (.sret h0 act) c ∧ c.real ≠ none ∧ c.sq.hr.reply = none
    ∧ (c.s.gangOf c.q.blk).map (·.1) = [c.q.blk] ∧ c.blk.halt.phase = .inSup ∧ c.blk.halt.reply = none ∧ c.blk.halt.job = none
    ∧ (∀ x ∈ c.blk.eng.run, x.failed = false) ∧ (∀ x ∈ c.blk.squads, x.2.lanes ≠ [] ∧ x.2.hr.reply = none)
    ∧ c.s.saveFits c.q.blk c.blk = false := by
  exact runs_wit (by revert act; decide)
theorem wit_sret_saves : ∃ c, Runs (savesOn inSup) (.sret h0 2) c ∧ c.real ≠ none ∧ c.sq.hr.reply = none
    ∧ (c.s.gangOf c.q.blk).map (·.1) = [c.q.blk] ∧ c.blk.halt.reply = none ∧ c.blk.halt.job = none
    ∧ (∀ x ∈ c.blk.eng.run, x.failed = false) ∧ (∀ x ∈ c.blk.squads, x.2.lanes ≠ [] ∧ x.2.hr.reply = none)
    ∧ c.s.saveFits c.q.blk c.blk = true := runs_wit (by decide)
theorem wit_sret_reply : ∃ c, Runs (withQ inSup fun q => { q with hr := { q.hr with reply := some 3 } }) (.sret h0 1) c ∧ c.real ≠ none
    ∧ c.sq.hr.reply = some 3 ∧ ∃ y ∈ c.sq.lanes, Tab.get y.2.at' c.sq.hr.ats y.1 = .issue := runs_wit (by decide)
theorem wit_sret_ordered : Ordered inSup := ordered_of (by decide)

/-- A copy of 16 bytes from 0x4000 to pad offset `off`, with tag 5, in s8 to s15. -/
def copyState (s : State) (off shape : Word) : State := withQ s fun q =>
  { q with sca := ([(8, 0x4000), (10, off), (11, 0x00100000), (12, 0x10010010), (13, shape)] : Tab Word).filter fun x => x.2 ≠ 0 }
def coreRoom (c : Ctx) : Bool := (c.s.stall c.q.stall).cardRoom && decide ((c.s.core c.q.stall c.q.core).copies.length < 64)
def iCpy : Instr := .cpy h0 (.sca 8)
def copyWords (c : Ctx) : List Word := c.acting.elim [] fun x => (List.range 8).map fun k => c.rdAt x.2 (.sca 8) k
def copyBad (c : Ctx) : Bool :=
  let d := CopyD.ofWords (copyWords c)
  d.bad c.blk.gangSize (c.s.copyEnd c.q.blk d.srcKind d.srcPeer = c.s.copyEnd c.q.blk d.dstKind d.dstPeer)
def copyRange (c : Ctx) : Option Nat :=
  let d := CopyD.ofWords (copyWords c)
  (c.s.endRange (c.s.copyEnd c.q.blk d.srcKind d.srcPeer) d.src d.srcExt).or
    (c.s.endRange (c.s.copyEnd c.q.blk d.dstKind d.dstPeer) d.dst d.dstExt)
/-- A count of 0 is outside R197. -/
theorem wit_cpy_bad : ∃ c, Runs (copyState tiny 0 0) iCpy c ∧ realLane c = true ∧ copyBad c = true := runs_wit (by decide)
theorem wit_cpy_range : ∃ c, Runs (copyState tiny 65536 0x28080) iCpy c ∧ realLane c = true ∧ copyBad c = false
    ∧ copyRange c = some 0x26 := runs_wit (by decide)
theorem wit_cpy_busy : ∃ c, Runs (copyState (withB tiny fun b => { b with tagsBusy := 32 }) 0 0x28080) iCpy c ∧ realLane c = true
    ∧ copyBad c = false ∧ copyRange c = none ∧ c.blk.tagsBusy.getLsbD (CopyD.ofWords (copyWords c)).tag = true := runs_wit (by decide)
theorem wit_cpy : ∃ c, Runs (copyState tiny 65520 0x28080) iCpy c ∧ realLane c = true ∧ copyBad c = false ∧ copyRange c = none
    ∧ c.blk.tagsBusy.getLsbD (CopyD.ofWords (copyWords c)).tag = false ∧ coreRoom c = true := runs_wit (by decide)
theorem wit_cpy_helper : ∃ c, Runs (helpers (copyState tiny 0 0x28080)) iCpy c ∧ (c.acting.elim false fun x => x.2.helper) = true :=
  runs_wit (by decide)
theorem wit_cpy_unit_full : ∃ c, Runs (withC (copyState tiny 0 0x28080) fun c =>
      { c with copies := List.replicate 64 ⟨some 0, 0, [], 0, 1, 1, none, false, 0, 0, []⟩ }) iCpy c
    ∧ realLane c = true ∧ copyBad c = false ∧ copyRange c = none
    ∧ c.blk.tagsBusy.getLsbD (CopyD.ofWords (copyWords c)).tag = false ∧ coreRoom c = false := runs_wit (by decide +kernel)
theorem wit_cpy_full : ∃ c, Runs (withT (copyState tiny 0 0x28080) fun t => { t with cards := List.replicate 256 ⟨1, 0, 0, [], []⟩ }) iCpy c
    ∧ realLane c = true ∧ copyBad c = false ∧ copyRange c = none
    ∧ c.blk.tagsBusy.getLsbD (CopyD.ofWords (copyWords c)).tag = false ∧ coreRoom c = false :=
  runs_wit (by decide +kernel)

/-- Group 1 of stall 0 alone, and a card at pad offset 0: sum 32 values of type f32 from 0x4000 to 0x5000 with tag 7. -/
def collState : State := withT (withB tiny fun b => { b with
  pad := Mem.wrs [] 0 (leBytes 8 0x4000 ++ leBytes 8 0x5000 ++ leBytes 4 32 ++ [1, 0xA, 0, 0, 1, 7, 0, 0]) }) fun t =>
  { t with coll := Mem.wrs [] 32 (leBytes 8 1 ++ leBytes 2 1 ++ leBytes 2 0 ++ [0, 0, 1]) }
def iColl : Instr := .coll h0 (.sca 0)
def collOff (c : Ctx) : Nat := c.real.elim 0 fun x => (c.rd x.1 x.2 (.sca 0)).toNat
def collCard (c : Ctx) : CollCard := CollCard.of (c.blk.pad.rds (collOff c) 64)
theorem wit_coll_misaligned : ∃ c, Runs (setS collState 0 32) iColl c ∧ c.real ≠ none ∧ collOff c % 64 ≠ 0 := runs_wit (by decide)
theorem wit_coll_beyond : ∃ c, Runs (setS collState 0 65536) iColl c ∧ c.real ≠ none ∧ collOff c % 64 = 0
    ∧ c.blk.kern.pad < collOff c + 64 := runs_wit (by decide)
theorem wit_coll_bad : ∃ c, Runs (setS collState 0 64) iColl c ∧ c.real ≠ none ∧ collOff c % 64 = 0 ∧ collOff c + 64 ≤ c.blk.kern.pad
    ∧ field (collCard c).src 55 52 = 0 ∧ field (collCard c).dst 55 52 = 0 ∧ hitsBad c.blk.padBad (collOff c) 64 = false
    ∧ (collCard c).bad (c.s.stall 0) 0 = true := runs_wit (by decide +kernel)
def collGood (c : Ctx) : Bool := c.real.isSome && collOff c = 0 && field (collCard c).src 55 52 = 0 && field (collCard c).dst 55 52 = 0
  && !(collCard c).bad (c.s.stall 0) 0
theorem wit_coll_error : ∃ c, Runs (withB collState fun b => { b with padBad := [0] }) iColl c ∧ collGood c = true
    ∧ hitsBad c.blk.padBad (collOff c) 64 = true := runs_wit (by decide +kernel)
theorem wit_coll_busy : ∃ c, Runs (withB collState fun b => { b with tagsBusy := 128 }) iColl c ∧ collGood c = true
    ∧ hitsBad c.blk.padBad (collOff c) 64 = false ∧ c.blk.tagsBusy.getLsbD (collCard c).tag = true := runs_wit (by decide +kernel)
theorem wit_coll_full : ∃ c, Runs (withT collState fun t => { t with cards := List.replicate 256 ⟨1, 0, 0, [], []⟩ }) iColl c
    ∧ collGood c = true ∧ hitsBad c.blk.padBad (collOff c) 64 = false ∧ c.blk.tagsBusy.getLsbD (collCard c).tag = false
    ∧ (c.s.stall c.q.stall).cardRoom = false := runs_wit (by decide +kernel)
theorem wit_coll : ∃ c, Runs collState iColl c ∧ c.real ≠ none ∧ collOff c % 64 = 0 ∧ collOff c + 64 ≤ c.blk.kern.pad
    ∧ field (collCard c).src 55 52 = 0 ∧ field (collCard c).dst 55 52 = 0 ∧ hitsBad c.blk.padBad (collOff c) 64 = false
    ∧ (collCard c).bad (c.s.stall 0) 0 = false ∧ c.blk.tagsBusy.getLsbD (collCard c).tag = false
    ∧ (c.s.stall c.q.stall).cardRoom = true := runs_wit (by decide +kernel)

def iLaunch : Instr := .launch h0 (.sca 0)
def cardVa (c : Ctx) : DWord := c.real.elim 0 fun x => pair64 (c.rdAt x.2 (.sca 0) 0) (c.rdAt x.2 (.sca 0) 1)
/-- The card is read, and whether its launch waits for its image. -/
def reads64 (c : Ctx) (waits : Bool := false) : Bool := match c.cardRead (cardVa c) with
  | .ok b => b.length = 64 && c.s.cardWaits c.q.stall b none = waits
  | .error _ => false
def cardFails (c : Ctx) (e : Nat) : Bool := match c.cardRead (cardVa c) with
  | .ok _ => false
  | .error x => x = e
/-- A card at 0x5000 that names the kernel at 0x6000, whose header no one can read now. -/
def cardState (s : State) : State := away (poke (setS s 0 0x5000) 0x5000 (leBytes 8 0x6000 ++ List.replicate 8 0 ++ [1, 0, 1, 0, 1, 0, 1, 0, 1, 0, 1, 0])) 0x6000
theorem wit_launch_done_misaligned : ∃ c, Runs (setS tiny 2 2) iLaunch c ∧ c.real ≠ none ∧ (cardVa c).toNat % 64 = 0
    ∧ (c.real.elim 0 fun x => pair64 (c.rdAt x.2 (.sca 0) 2) (c.rdAt x.2 (.sca 0) 3)).toNat % 4 = 2 := runs_wit (by decide)
theorem wit_launch_fails (s : State) (e : Nat) (h : (s, e) = (setS tiny 1 0x100000, 0x21) ∨ (s, e) = (away tiny 0x10000, waitOn 0x400)) :
    ∃ c, Runs s iLaunch c ∧ c.real ≠ none ∧ (cardVa c).toNat % 64 = 0 ∧ cardFails c e = true := by
  rcases h with h | h <;> (cases h; exact runs_wit (by decide +kernel))
theorem wit_launch_waits : ∃ c, Runs (cardState tiny) iLaunch c ∧ c.real ≠ none ∧ (cardVa c).toNat % 64 = 0 ∧ reads64 c true = true :=
  runs_wit (by decide +kernel)
theorem wit_launch_misaligned : ∃ c, Runs (setS tiny 0 32) iLaunch c ∧ c.real ≠ none ∧ (cardVa c).toNat % 64 ≠ 0 := runs_wit (by decide)
theorem wit_launch : ∃ c, Runs (near tiny 0) iLaunch c ∧ c.real ≠ none ∧ (cardVa c).toNat % 64 = 0 ∧ reads64 c = true
    ∧ (c.s.stall c.q.stall).devq < 256 := runs_wit (by decide +kernel)
theorem wit_launch_full : ∃ c, Runs (withT (near tiny 0) fun t => { t with devq := 256 }) iLaunch c ∧ c.real ≠ none ∧ (cardVa c).toNat % 64 = 0
    ∧ reads64 c = true ∧ (c.s.stall c.q.stall).devq = 256 := runs_wit (by decide +kernel)
/-- The range 0 to 1 with GRAIN 2^20. -/
def spawnState : State := setS (setS (near tiny 0) 3 1) 4 0x100000
def iSpawn : Instr := .tspawn h0 (.sca 0)
def sw (c : Ctx) (k : Nat) : Word := c.real.elim 0 fun x => c.rdAt x.2 (.sca 0) k
theorem wit_tspawn_bad : ∃ c, Runs (setS spawnState 2 1) iSpawn c ∧ c.real ≠ none ∧ (sw c 3).toNat ≤ (sw c 2).toNat := runs_wit (by decide)
theorem wit_tspawn : ∃ c, Runs spawnState iSpawn c ∧ c.real ≠ none ∧ (sw c 2).toNat < (sw c 3).toNat ∧ (sw c 4).toNat = 2 ^ 20
    ∧ sw c 7 = 0 ∧ (cardVa c).toNat % 64 = 0 ∧ (pair64 (sw c 5) (sw c 6)).toNat % 4 = 0 ∧ reads64 c = true
    ∧ ((c.s.stall c.q.stall).pool (c.q.core / 9)).length = 0 := runs_wit (by decide +kernel)
theorem wit_tspawn_misaligned (k : Nat) (w : Word) (h : (k, w) = (0, 32) ∨ (k, w) = (5, 2)) : ∃ c, Runs (setS spawnState k w) iSpawn c
    ∧ c.real ≠ none ∧ (sw c 2).toNat < (sw c 3).toNat ∧ (sw c 4).toNat = 2 ^ 20 ∧ sw c 7 = 0 ∧ sw c k = w := by
  rcases h with h | h <;> (cases h; exact runs_wit (by decide))
theorem wit_tspawn_fails (s : State) (e : Nat) (h : (s, e) = (setS spawnState 1 0x100000, 0x21) ∨ (s, e) = (away spawnState 0x10000, waitOn 0x400)) :
    ∃ c, Runs s iSpawn c ∧ c.real ≠ none ∧ (sw c 2).toNat < (sw c 3).toNat ∧ (sw c 4).toNat = 2 ^ 20 ∧ sw c 7 = 0
      ∧ (cardVa c).toNat % 64 = 0 ∧ (pair64 (sw c 5) (sw c 6)).toNat % 4 = 0 ∧ cardFails c e = true := by
  rcases h with h | h <;> (cases h; exact runs_wit (by decide +kernel))
theorem wit_tspawn_waits : ∃ c, Runs (cardState spawnState) iSpawn c ∧ c.real ≠ none ∧ (sw c 2).toNat < (sw c 3).toNat
    ∧ (sw c 4).toNat = 2 ^ 20 ∧ sw c 7 = 0 ∧ (pair64 (sw c 5) (sw c 6)).toNat % 4 = 0 ∧ reads64 c true = true := runs_wit (by decide +kernel)
def aTask : Task := ⟨9, 0, 0, 5, 4, 0, 4, [(4, 5)], [], 1, false⟩
theorem wit_tspawn_full : ∃ c, Runs (withT spawnState fun t => { t with tasks := List.replicate 8 aTask }) iSpawn c ∧ c.real ≠ none
    ∧ (sw c 2).toNat < (sw c 3).toNat ∧ sw c 7 = 0 ∧ reads64 c = true
    ∧ ((c.s.stall c.q.stall).pool (c.q.core / 9)).length = 8 := runs_wit (by decide +kernel)
theorem wit_arm_bad : ∃ c, Runs (setS tiny 2 0x10000) (.arm h0 (.sca 0)) c ∧ c.real ≠ none ∧ (sw c 2) &&& 0x7FFF0000 ≠ 0 := runs_wit (by decide)
theorem wit_arm (v : Word) (h : v = 0x07FF ∨ v = 0x80000000) : ∃ c, Runs (setS tiny 2 v) (.arm h0 (.sca 0)) c ∧ c.real ≠ none
    ∧ (sw c 2) &&& 0x7FFF0000 = 0 ∧ sw c 3 = 0 ∧ sw c 2 = v := by
  rcases h with rfl | rfl <;> exact runs_wit (by decide)

/-- A block of a task. -/
def taskOf (t : Option Task) : State := withT (withB tiny fun b => { b with kind := .task 9 }) fun x => { x with tasks := t.toList }
def taskState : State := taskOf (some aTask)
def theTask (c : Ctx) : Option Task := (c.s.stall c.q.stall).tasks.find? fun x => x.id = 9
/-- The task of `aTask`, a range that its slot holds, one that another slot holds with three grains, and what is left of one. -/
def heldTask (held : List Hold) : Task := { aTask with unheld := [], held := held }
theorem wit_tnext (t : Option Task) (h : t = none ∨ t = some aTask ∨ t = some (heldTask [⟨0, 0, 4, 5⟩]) ∨ t = some (heldTask [⟨0, 1, 4, 16⟩])
    ∨ t = some (heldTask [⟨0, 1, 4, 8⟩, ⟨0, 0, 4, 4⟩])) : ∃ c, Runs (taskOf t) (.tnext h0 (.sca 2)) c ∧ c.real ≠ none ∧ c.blk.kind = .task 9
    ∧ c.blk.index = 0 ∧ c.q.slot = 0 ∧ theTask c = t := by
  rcases h with rfl | rfl | rfl | rfl | rfl <;> exact runs_wit (by decide)
theorem wit_tdone (t : Option Task) (h : t = none ∨ t = some aTask ∨ t = some { aTask with count := 3 } ∨ t = some { aTask with finished := true }) :
    ∃ c, Runs (taskOf t) (.tdone h0 (.sca 2) (.imm 1)) c ∧ c.real ≠ none ∧ c.blk.kind = .task 9 ∧ theTask c = t
      ∧ c.s.squadQuiet c.q = true ∧ c.s.wordCode c.q.stall 0 = none := by
  rcases h with rfl | rfl | rfl | rfl <;> exact runs_wit (by decide)
/-- A DONE word whose page's table entry no one can read now. -/
theorem wit_tdone_holds : ∃ c, Runs (away (taskOf (some { aTask with done := 0x8000 })) 0x10000) (.tdone h0 (.sca 2) (.imm 1)) c ∧ c.real ≠ none
    ∧ c.blk.kind = .task 9 ∧ theTask c = some { aTask with done := 0x8000 } ∧ c.s.squadQuiet c.q = true
    ∧ c.s.wordCode c.q.stall 0x8000 = some (waitOn 0x400) := runs_wit (by decide)
def aStore : SqEnt := SqEnt.plain (.store (.dev 0x100) [1])
theorem wit_tdone_waits : ∃ c, Runs (withQ taskState fun q => { q with sq := [aStore] }) (.tdone h0 (.sca 2) (.imm 1)) c ∧ c.real ≠ none
    ∧ c.blk.kind = .task 9 ∧ theTask c = some aTask ∧ c.s.squadQuiet c.q = false :=
  runs_wit (by decide)

/-- A pipeline of two stages with one item waiting in the first. -/
def aPipe (drained : Bool) (n : Nat) : Pipe := ⟨1, 2, [List.replicate n [1, 2, 3, 4], []], drained, [], [], 0⟩
def pipeState (drained : Bool) (n : Nat) : State := withT (withK tiny fun k => { k with stages := 2 }) fun t =>
  { t with pipes := [aPipe drained n] }
def iPut : Instr := .qput h0 (.sca 1) (.sca 4) 0
theorem wit_qput_stage : ∃ c, Runs (pipeState false 0) (.qput h0 (.sca 1) (.sca 4) 2) c ∧ c.real ≠ none ∧ c.pipe = some (aPipe false 0)
    ∧ c.blk.kern.stages = 2 := runs_wit (by decide)
theorem wit_qput_drained : ∃ c, Runs (pipeState true 0) iPut c ∧ c.real ≠ none ∧ c.pipe = some (aPipe true 0) ∧ 0 < c.blk.kern.stages
    ∧ c.sq.sq = [] ∧ c.sq.flight = [] ∧ c.sq.asks = [] := runs_wit (by decide)
theorem wit_qput : ∃ c, Runs (pipeState false 1) iPut c ∧ c.real ≠ none ∧ c.pipe = some (aPipe false 1) ∧ 0 < c.blk.kern.stages
    ∧ c.sq.sq = [] ∧ c.sq.flight = [] ∧ c.sq.asks = [] ∧ (aPipe false 1).drained = false ∧ ((aPipe false 1).queues.getD 0 []).length < 256 := runs_wit (by decide)
theorem wit_qput_full : ∃ c, Runs (pipeState false 256) iPut c ∧ c.real ≠ none ∧ c.pipe = some (aPipe false 256)
    ∧ 0 < c.blk.kern.stages ∧ c.sq.sq = [] ∧ c.sq.flight = [] ∧ c.sq.asks = [] ∧ ((aPipe false 256).queues.getD 0 []).length = 256 := runs_wit (by decide +kernel)
theorem wit_qput_waits : ∃ c, Runs (withQ (pipeState false 1) fun q => { q with sq := [aStore] }) iPut c ∧ c.real ≠ none
    ∧ c.pipe = some (aPipe false 1) ∧ c.sq.sq ≠ [] := runs_wit (by decide)
def iGet : Instr := .qget h0 (.sca 8)
theorem wit_qget (drained : Bool) (n : Nat) (h : (drained = true ∧ n = 0) ∨ (drained = false ∧ (n = 0 ∨ n = 1))) :
    ∃ c, Runs (pipeState drained n) iGet c ∧ c.real ≠ none ∧ c.pipe = some (aPipe drained n) ∧ c.sq.sup = false
      ∧ (∀ x ∈ (c.s.stall c.q.stall).pipes, x.launch = (aPipe drained n).launch → x = aPipe drained n)
      ∧ (aPipe drained n).stageNow c.blk.index = 0 := by
  rcases h with ⟨rfl, rfl⟩ | ⟨rfl, rfl | rfl⟩ <;> exact runs_wit (by decide)

/-- MZERO of one row, MTAG of tag 0, and MSWAP, in s0 to s3; the queue has 8 entries. -/
def menqState (w0 : Word) (w1 : Word) (full : Bool) : State := setS (setS (withB (mqState w0) fun b =>
  { b with eng := { b.eng with mqb := 0x04000000, mqt := if full then 0x10000 else 0 } }) 0 w0) 1 w1
def iMenq : Instr := .menq h0 .zero (.sca 0)
def mRec (c : Ctx) : BitVec 128 := c.real.elim 0 fun x =>
  BitVec.ofNat 128 (leNat ((List.range 4).flatMap fun k => leBytes 4 (c.rdAt x.2 (.sca 0) k).toNat))
theorem wit_menq_absent : ∃ c, Runs tiny iMenq c ∧ c.real ≠ none ∧ c.blk.kern.mqEnt = 0 := runs_wit (by decide)
theorem wit_menq_bad : ∃ c, Runs (menqState 0 0 false) iMenq c ∧ c.real ≠ none ∧ c.blk.kern.mqEnt ≠ 0
    ∧ c.blk.mCheck (mRec c) = some 0x42 := runs_wit (by decide)
theorem wit_menq_gang : ∃ c, Runs (menqState 7 0 false) iMenq c ∧ c.real ≠ none ∧ c.blk.kern.mqEnt ≠ 0 ∧ c.blk.mCheck (mRec c) = none
    ∧ mCmd (mRec c) = 7 ∧ c.blk.gang < 2 := runs_wit (by decide)
theorem wit_menq_gang_runs : ∃ c, Runs (withB (menqState 7 0 false) fun b => { b with gang := 2 }) iMenq c ∧ c.real ≠ none
    ∧ c.blk.kern.mqEnt ≠ 0 ∧ c.blk.mCheck (mRec c) = none ∧ mCmd (mRec c) = 7 ∧ c.blk.gang = 2 ∧ c.blk.eng.full = false := runs_wit (by decide)
theorem wit_menq_tag_busy : ∃ c, Runs (withB (menqState 6 0 false) fun b => { b with tagsBusy := 1 }) iMenq c ∧ c.real ≠ none
    ∧ c.blk.kern.mqEnt ≠ 0 ∧ c.blk.mCheck (mRec c) = none ∧ mCmd (mRec c) = 6 ∧ c.blk.tagsBusy.getLsbD (mf (mRec c) 21 16) = true :=
  runs_wit (by decide)
theorem wit_menq_full : ∃ c, Runs (menqState 5 1 true) iMenq c ∧ c.real ≠ none ∧ c.blk.kern.mqEnt ≠ 0 ∧ c.blk.mCheck (mRec c) = none
    ∧ mCmd (mRec c) = 5 ∧ c.blk.eng.full = true := runs_wit (by decide)
theorem wit_menq : ∃ c, Runs (menqState 5 1 false) iMenq c ∧ c.real ≠ none ∧ c.blk.kern.mqEnt ≠ 0 ∧ c.blk.mCheck (mRec c) = none
    ∧ mCmd (mRec c) = 5 ∧ c.blk.eng.full = false := runs_wit (by decide)
theorem wit_menq_tag : ∃ c, Runs (menqState 6 0 false) iMenq c ∧ c.real ≠ none ∧ c.blk.kern.mqEnt ≠ 0 ∧ c.blk.mCheck (mRec c) = none
    ∧ mCmd (mRec c) = 6 ∧ c.blk.tagsBusy.getLsbD (mf (mRec c) 21 16) = false ∧ c.blk.eng.full = false := runs_wit (by decide)

/-- Stall 0 mapped, a mailbox 15 of 8 entries, and a descriptor in s4 and s5 that names core 0 of stall 0, mailbox 0. -/
def sendState (x : Word) (inflight : Nat) : State :=
  let s := withK tiny fun k => { k with mbox := [⟨15, 0x1000, 8⟩, ⟨3, 0x2000, 8⟩] }
  { setS (withB s fun b => { b with inflight := inflight }) 4 x with site := [(0, 0x4000)], fwd := (1, 0) }
def iSend : Instr := .send h0 .zero (.sca 4) .zero
def sendX (c : Ctx) : DWord := c.real.elim 0 fun x => c.rd64 x.2 (.sca 4)
theorem wit_send_bad : ∃ c, Runs (sendState 0x1000 0) iSend c ∧ c.real ≠ none ∧ c.sendCause (sendX c) = some 0x02 := runs_wit (by decide)
theorem wit_send : ∃ c, Runs (sendState 0 0) iSend c ∧ c.real ≠ none ∧ c.sendCause (sendX c) = none ∧ 0 < c.blk.credits
    ∧ (sendX c).getLsbD 31 = false := runs_wit (by decide +kernel)
theorem wit_send_last_credit : ∃ c, Runs (sendState 0 7) iSend c ∧ c.real ≠ none ∧ c.sendCause (sendX c) = none ∧ c.blk.credits = 1 :=
  runs_wit (by decide +kernel)
theorem wit_send_waits : ∃ c, Runs (sendState 0 8) iSend c ∧ c.real ≠ none ∧ c.sendCause (sendX c) = none ∧ c.blk.credits = 0
    ∧ c.blk.inflight ≠ 0 := runs_wit (by decide +kernel)
theorem wit_send_no_credit : ∃ c, Runs { setS tiny 4 0 with site := [(0, 0x4000)], fwd := (1, 0) } iSend c ∧ c.real ≠ none
    ∧ c.sendCause (sendX c) = none ∧ c.blk.credits = 0 ∧ c.blk.inflight = 0 := runs_wit (by decide +kernel)
/-- A send that waits with a credit of its own. -/
theorem wit_send_holds_credit : ∃ c, Runs (withQ (sendState 0 8) fun q => { q with park := .slot true }) iSend c ∧ c.real ≠ none
    ∧ c.sendCause (sendX c) = none ∧ c.blk.credits = 0
    ∧ ((withQ (sendState 0 8) fun q => { q with park := .slot true }).squad? sel0).map (·.park) = some (.slot true) := runs_wit (by decide +kernel)
theorem wit_send_release : ∃ c, Runs (withQ (sendState 0x80000000 0) fun q => { q with sq := [aStore] }) iSend c ∧ c.real ≠ none
    ∧ c.sendCause (sendX c) = none ∧ 0 < c.blk.credits ∧ (sendX c).getLsbD 31 = true ∧ c.s.squadQuiet c.q = false :=
  runs_wit (by decide +kernel)
theorem wit_mbadv : ∃ c, Runs (sendState 0 0) (.mbadv h0 3 (.sca 1) (.imm 256)) c ∧ c.act ≠ []
    ∧ c.blk.kern.box 3 = some ⟨3, 0x2000, 8⟩ := runs_wit (by decide)

/-! ## Witnesses: rays, mesh blocks and pixels -/

theorem wit_rtri_w : ∃ c, Runs (low tiny) (.rtriW h0 (.vec 20) (.vec 8) (.vec 4) (.sca 6)) c ∧ c.readsDone = true
    ∧ ∀ y ∈ c.act, (match c.testMerge y.1 y.2 (.vec 8) (.vec 4) (.sca 6) with
      | .ok _ => true
      | .error _ => false) = true := runs_wit (by decide +kernel)
def stack (n : Nat) (ksp : Word) : State := lone (withL (withB tiny fun b => { b with ksp := ksp }) fun ln =>
  { ln with rstack := List.replicate n 7 })
theorem wit_kpush : ∃ c, Runs (stack 7 0) (.kpush h0 (.vec 2)) c ∧ ∀ y ∈ c.act, y.2.rstack.length = 7 := runs_wit (by decide)
theorem wit_kpop : ∃ c, Runs (stack 1 0) (.kpop h0 (.vec 2)) c ∧ ∀ y ∈ c.act, y.2.rstack ≠ [] := runs_wit (by decide)
/-- One entry of room behind the header, and none. -/
theorem wit_kpush_spills (ksp : Word) (h : ksp = 0x02000000 ∨ ksp = 0x01000000) : ∃ c, Runs (stack 8 ksp) (.kpush h0 (.vec 2)) c
    ∧ c.act.length = 1 ∧ (∀ y ∈ c.act, y.2.helper = false ∧ y.2.rstack.length = 8)
    ∧ (c.blk.pad.num (stackArea c.blk.ksp 0) 4 + 2 ≤ field (c.blk.ksp.zeroExtend 64) 31 24 ↔ ksp = 0x02000000) := by
  rcases h with rfl | rfl <;> exact runs_wit (by decide)
def areaState (hdr : List Byte) : State := withB (stack 0 0x02000000) fun b => { b with pad := Mem.wrs [] 0 hdr }
theorem wit_kpop_area (hdr : List Byte) (h : hdr = [] ∨ hdr = [1] ∨ hdr = [0, 0, 0, 0, 0, 0, 0, 0x80]) :
    ∃ c, Runs (areaState hdr) (.kpop h0 (.vec 2)) c ∧ c.act.length = 1
      ∧ (∀ y ∈ c.act, y.2.helper = false ∧ y.2.rstack = [])
      ∧ (c.blk.pad.rd (stackArea c.blk.ksp 0 + 7)).getLsbD 7 = (hdr.length = 8 : Bool) := by
  rcases h with rfl | rfl | rfl <;> exact runs_wit (by decide)
def iSplit : Instr := .bmsplit h0 (.vec 40) (.vec 48) (.vec 12)
def beamB (c : Ctx) (p : Beam → Bool) : Bool := c.act.all fun y => !y.2.helper && match c.beam y.2 (.vec 48) with
  | .ok b => p b
  | .error _ => false
/-- A beam of one ray; two columns at depth 6, and at depth 5 inside a loop. -/
theorem wit_bmsplit_ray : ∃ c, Runs tiny iSplit c ∧ c.act ≠ [] ∧ beamB c (fun b => b.x0 = b.x1 && b.y0 = b.y1) = true :=
  runs_wit (by decide)
theorem wit_bmsplit_deep : ∃ c, Runs (lone (setV tiny 51 0xC040)) iSplit c ∧ c.act.length = 1
    ∧ beamB c (fun b => b.x0 ≠ b.x1 && b.depth = 6) = true := runs_wit (by decide)
theorem wit_bmsplit_push : ∃ c, Runs (lone (setV inLoop 51 0xA040)) iSplit c ∧ c.act.length = 1 ∧ c.sq.loops ≠ []
    ∧ beamB c (fun b => b.x0 ≠ b.x1 && b.depth = 5 && b.children.length ≤ 8) = true ∧ ∀ y ∈ c.act, y.2.rstack = [] := runs_wit (by decide)

/-- A pass of market 0 with an all-zero descriptor. -/
def aPass : Pass := ⟨0, 0, 0, 1, 0, List.replicate 256 0, List.replicate 256 0, [], [], [], false, none, false, []⟩
def meshState (kind : BlockRole) (fin : Bool) : State :=
  { withB tiny (fun b => { b with kind := kind, mesh := ⟨[(0, 1, 2)], 0, fin, 0⟩ }) with passes := [aPass] }
theorem wit_mout (fin : Bool) : ∃ c, Runs (meshState (.rmesh 0 0) fin) (.mout h0 (.vec 2)) c ∧ c.blk.mesh.fin = fin := by
  cases fin <;> exact runs_wit (by decide)
theorem wit_mfin_mesh (fin : Bool) : ∃ c, Runs (setS (meshState (.rmesh 0 0) fin) 2 3) (.mfinMesh h0 (.sca 1) (.sca 2)) c
    ∧ c.real ≠ none ∧ c.blk.kind = .rmesh 0 0 ∧ c.blk.mesh.fin = fin ∧ 64 + 3 * (16 + 4 * c.s.passAttr 0) ≤ c.blk.kern.pad
    ∧ hitsBad c.blk.padBad 64 (3 * (16 + 4 * c.s.passAttr 0)) = false := by
  cases fin <;> exact runs_wit (by decide +kernel)
theorem wit_mfin_mesh_beyond : ∃ c, Runs (withK (setS (meshState (.rmesh 0 0) false) 2 256) fun k => { k with pad := 4096 })
    (.mfinMesh h0 (.sca 1) (.sca 2)) c ∧ c.real ≠ none ∧ c.blk.kind = .rmesh 0 0 ∧ c.blk.mesh.fin = false
    ∧ c.blk.kern.pad < 64 + 256 * (16 + 4 * c.s.passAttr 0) := runs_wit (by decide +kernel)
theorem wit_mfin_task (fin : Bool) : ∃ c, Runs (setS (meshState (.rtask 0 0) fin) 2 1024) (.mfinTask h0 (.sca 1) (.sca 2)) c
    ∧ c.real ≠ none ∧ c.blk.kind = .rtask 0 0 ∧ c.blk.mesh.fin = fin := by
  cases fin <;> exact runs_wit (by decide)
/-- Depth is taken and colour target 0 is unused under an all-zero descriptor. -/
theorem wit_pxo (n : Fin 5) (h : n = 0 ∨ n = 4) : ∃ c, Runs (meshState (.rpixel 0) false) (.pxo h0 n (.vec 2)) c
    ∧ c.blk.kind = .rpixel 0 ∧ c.s.pass? 0 = some aPass ∧ pxoDiscards aPass.desc n.val = (n = 0 : Bool) := by
  rcases h with rfl | rfl <;> exact runs_wit (by decide +kernel)
/-! ## Witnesses: events of squads -/

/-- A result with one register, and one with none. -/
def aFlight : Flight := ⟨1, 0x20100, [(false, 8)], [], [(0, 8, 77)], true, false, false, 0, false, Fl.none, false⟩
def bareFlight : Flight := { aFlight with id := 2, dst := [], vals := [] }
theorem wit_result : ∃ q, (withQ tiny fun q => { q with flight := [aFlight, bareFlight] }).squad? sel0 = some q
    ∧ (∀ x ∈ q.flight, x.perf = true) ∧ q.flight[0]? = some aFlight ∧ aFlight.ret = false ∧ q.flight[1]? = some bareFlight
    ∧ bareFlight.ret = false ∧ (∀ x ∈ q.flight, ∀ y ∈ q.flight, x.id = y.id → x = y) ∧ q.lanes ≠ []
    ∧ (∀ y ∈ aFlight.vals, y.1 = 0 → y.2.1 = 8 → y.2.2 = 77) ∧ (Tab.find? q.lanes 0).isSome = true := some_wit (by decide)
/-- A wait with its deadline at the present clock. -/
def waitState (hit stop : Bool) : State := withQ tiny fun q =>
  { q with w0 := ⟨true, hit, .pad 0, 0⟩, park := .wait h0 (.vec 1) (some 0) stop }
theorem wit_wait_event (hit stop : Bool) : ∃ q, (waitState hit stop).squad? sel0 = some q ∧ risingB q.lanes = true
    ∧ q.park = .wait h0 (.vec 1) (some 0) stop ∧ q.loops = [] ∧ (∀ y ∈ q.lanes, y.2.at' = .issue)
    ∧ q.hits + (if stop then 8 else 0) = (if hit then 1 else 0) + (if stop then 8 else 0)
    ∧ ((waitState hit stop).block? pos0).map (·.halt.phase) = some .run ∧ 0 ≤ ((waitState hit stop).stall 0).clock := by
  cases hit <;> cases stop <;> exact some_wit (by decide)
theorem wit_stepped (b : Bool) : ∃ q, (withQ tiny fun q => { q with stepped := b }).squad? sel0 = some q ∧ q.stepped = b := by
  cases b <;> exact some_wit (by decide)
/-- The counter at 1 ends the loop, at 2 it does not. -/
theorem wit_loop_end (n : Word) (h : n = 1 ∨ n = 2) : ∃ q, (withL (withQ inLoop fun q => { q with lc := [(0, n)] }) fun ln =>
    { ln with at' := .atEnd 0 }).squad? sel0 = some q ∧ q.loops = [⟨0x20100, 1, 0, [0, 1, 2, 3]⟩] ∧ q.lanes ≠ []
    ∧ (∀ y ∈ q.lanes, y.2.at' = .atEnd 0) ∧ Tab.get 0 q.lc 0 = n := by
  rcases h with rfl | rfl <;> exact some_wit (by decide)
def heldLane : Held := ⟨0x20200, 4, 0, 0, none, []⟩
def heldState : State := withT (withQ tiny fun q => { q with
  point := some (4, true), lanes := q.lanes.map fun x => (x.1, if x.1 = 3 then { x.2 with at' := .held heldLane } else x.2) }) fun t =>
  { t with clock := 256 }
theorem wit_held_age : ∃ q, heldState.squad? sel0 = some q ∧ q.point = some (4, true) ∧ q.agedHeld placedKern.bage (heldState.stall 0).clock = some heldLane
    ∧ q.issuing ≠ [] ∧ heldLane.pc ≠ q.pc ∧ q.protected (heldState.stall 0).clock = false := some_wit (by decide)
/-- Three threads' records for one place, none of them younger than BAGE. -/
def aRec (n : Nat) (spilled : Bool) : Rec :=
  ⟨0, 0, 0x20200, 8 + n, n, 4, 0, false, none, false, false, false, 0, 1, 0, [], none, 0, 1, if spilled then List.range 5 else [], 0, []⟩
def agedState (spilled : Bool) : State := withT (withC tiny fun c => { c with recs := [aRec 0 spilled] }) fun t => { t with clock := 256 }
def forcedState : State := withQ (agedState false) fun q => { q with point := some (4, true) }
theorem wit_forced : ∃ q, forcedState.squad? sel0 = some q ∧ (forcedState.core 0 0).blocks.map (·.1) = [0]
    ∧ forcedState.forcedSlot pos0 0 = some 0 ∧ q.park = .none ∧ q.point = some (4, true) ∧ q.loops = [] ∧ q.sup = false
    ∧ q.protected (forcedState.stall 0).clock = false ∧ (∀ f ∈ q.flight, f.ret = true) ∧ q.lanes ≠ [] ∧ (∀ y ∈ q.lanes, y.2.at' = .issue)
    ∧ forcedState.roomFor sel0 0 [⟨q.lanes.map (·.1), q.pc, 4, none, false, q.lanes.map fun y => (y.1, y.2, y.2.helper)⟩] = true := some_wit (by decide)
theorem wit_spill_return : ((agedState true).core 0 0).recs.filter (·.spilled) = [aRec 0 true]
    ∧ (aRec 0 true).size ≤ ((agedState true).core 0 0).crateFree := by decide
def drawState : State := withB (agedState false) fun b => { b with squads := [] }
theorem wit_draw : ∃ b, drawState.block? pos0 = some b ∧ b.halt.phase = .run ∧ b.kern.roles.length = 1 ∧ b.kern.quad = false
    ∧ b.emptySlots 0 = [0] ∧ (drawState.core 0 0).pickBin (drawState.stall 0).clock b 0 0 = some (0x20200, true)
    ∧ ((drawState.core 0 0).recs.map (·.lane)).Nodup ∧ (∀ r ∈ (drawState.core 0 0).recs, r.lane < b.kern.width)
    ∧ (drawState.core 0 0).recs = [aRec 0 false] := some_wit (by decide)
theorem wit_reload (n : Nat) (h : n = 0 ∨ n = 1) : ∃ b, (withQ tiny fun q =>
    { q with park := .reload, reload := [(0, n)], sq := [aStore] }).block? pos0 = some b
    ∧ ∀ x ∈ b.squads, x.2.park = .reload ∧ x.2.issuing ≠ [] ∧ b.reloadReady x.2 = (n = 0 : Bool) := by
  rcases h with rfl | rfl <;> exact some_wit (by decide)

/-! ## Witnesses: the matrix engine, the copy unit and the collectives -/

/-- A queue of 8 entries with one record at its head, and a ring header at 0x100. -/
def headState (r : Nat) (ring : List Byte) (f : Engine → Engine) : State := withB (mqState 0) fun b => { b with
  pad := Mem.wrs (Mem.wrs [] 0 (leBytes 16 r)) 0x100 ring, eng := f { b.eng with mqb := 0x04000000, mqt := 1 } }
def fullRing : List Byte := leBytes 4 0 ++ leBytes 4 1 ++ leBytes 4 0x4000 ++ leBytes 2 64 ++ leBytes 2 1
/-- MWLOAD of format f32's class 0 from the ring at 0x100; MSTREAM of 8 rows to row 0; MSCALE of 8 rows; and the short commands. -/
def rLoad : Nat := 1 + 0x8 * 2 ^ 8 + 0x10 * 2 ^ 16
def rStream : Nat := 3 + 0x8 * 2 ^ 8 + 0x10 * 2 ^ 16 + 8 * 2 ^ 32
def rScale : Nat := 4 + 8 * 2 ^ 80 + 0x40 * 2 ^ 16
def goodPlane : Plane := ⟨true, 8, 0, 0, [], []⟩
def Dispatches (r : Nat) (s : State) : Prop := ∃ b, s.block? pos0 = some b ∧ b.mHead = some (BitVec.ofNat 128 r) ∧ b.engineRuns = true
  ∧ b.eng.unitsFree (BitVec.ofNat 128 r) = true ∧ b.eng.dispatched = none ∧ b.dispatchCause (BitVec.ofNat 128 r) = none
  ∧ s.engineRoom pos0 b (BitVec.ofNat 128 r) = true
theorem wit_dispatch_short (r : Nat) (h : r = 2 ∨ r = 5 + 2 ^ 32 ∨ r = 6 ∨ r = rScale) : Dispatches r (headState r [] id) := by
  rcases h with rfl | rfl | rfl | rfl <;> exact some_wit (by decide +kernel)
theorem wit_dispatch_load (ring : List Byte) (h : ring = [] ∨ ring = fullRing) : Dispatches rLoad (headState rLoad ring id) := by
  rcases h with rfl | rfl <;> exact some_wit (by decide +kernel)
theorem wit_dispatch_stream : Dispatches rStream (headState rStream fullRing fun e => { e with active := goodPlane }) :=
  some_wit (by decide +kernel)
theorem wit_ring : ∃ b, (headState rLoad fullRing id).block? pos0 = some b ∧ b.ringAt (BitVec.ofNat 128 rLoad) = .slot 0 0x4000 16384 :=
  some_wit (by decide +kernel)
theorem wit_ring_waits : ∃ b, (headState rLoad [] id).block? pos0 = some b ∧ b.ringAt (BitVec.ofNat 128 rLoad) = .wait :=
  some_wit (by decide +kernel)
theorem wit_ring_bad : ∃ b, (headState rLoad (leBytes 4 0 ++ leBytes 4 1) id).block? pos0 = some b
    ∧ b.ringAt (BitVec.ofNat 128 rLoad) = .bad 0x42 := some_wit (by decide +kernel)
/-- MSTREAM with no valid plane; MWLOAD while a load runs. -/
theorem wit_dispatch_cause : ∃ b, (headState rStream fullRing id).block? pos0 = some b ∧ b.mHead = some (BitVec.ofNat 128 rStream)
    ∧ b.eng.unitsFree (BitVec.ofNat 128 rStream) = true ∧ b.dispatchCause (BitVec.ofNat 128 rStream) = some 0x42 := some_wit (by decide +kernel)
def aCmd (r unit : Nat) : MCmd := ⟨BitVec.ofNat 128 r, 0, 0, unit, 0, [], none, false, false, (0, 0)⟩
theorem wit_dispatch_busy : ∃ b, (headState rLoad fullRing fun e => { e with run := [aCmd rLoad 0] }).block? pos0 = some b
    ∧ b.mHead = some (BitVec.ofNat 128 rLoad) ∧ b.eng.unitsFree (BitVec.ofNat 128 rLoad) = false := some_wit (by decide +kernel)
/-- Another command has dispatched in this clock; the footprint table is full. -/
theorem wit_dispatch_holds : (∃ b, (headState 2 [] fun e => { e with dispatched := some 0 }).block? pos0 = some b
      ∧ b.mHead = some 2 ∧ b.engineRuns = true ∧ b.eng.unitsFree 2 = true
      ∧ b.eng.dispatched = some ((headState 2 [] id).stall 0).clock)
    ∧ ∃ b, (withT (headState 2 [] id) fun t => { t with cards := List.replicate 256 ⟨1, 0, 0, [], []⟩ }).block? pos0 = some b
      ∧ b.mHead = some 2 ∧ b.engineRuns = true ∧ b.eng.unitsFree 2 = true ∧ b.eng.dispatched = none ∧ b.dispatchCause 2 = none
      ∧ State.engineRoom (withT (headState 2 [] id) fun t => { t with cards := List.replicate 256 ⟨1, 0, 0, [], []⟩ }) pos0 b 2 = false :=
  ⟨some_wit (by decide +kernel), some_wit (by decide +kernel)⟩
theorem wit_ring_timeout (n : Nat) (h : n = 2097151 ∨ n = 2097152) : ∃ b, (withT (headState rLoad [] fun e => { e with waitFrom := some 0 })
    fun t => { t with clock := n }).block? pos0 = some b ∧ b.mHead.isSome = true ∧ b.engineRuns = true ∧ b.eng.waitedAt n = some n := by
  rcases h with rfl | rfl <;> exact some_wit (by decide +kernel)
/-- A gang of two whose queues hold MGANG join. -/
def gangKern : Kern := { placedKern with mqEnt := 8 }
def gangBlock (i : Nat) (r : Nat := 0x107) (n : Word := 1) : Block :=
  let b := Launch.block { tinyLaunch with kern := gangKern, gang := 2 } i 0 none .grid 0 1
  { b with pad := Mem.wrs [] 0 (leBytes 16 r), eng := { b.eng with mqb := 0x04000000, mqt := n, joined := r = 7 } }
/-- Its second member presents the command r, or nothing; it leaves where it has joined. -/
def gangWith (r : Nat) (n : Word) : State := withT tiny fun t => { t with cores :=
  [(0, { Core.reset with blocks := [(0, gangBlock 0)] }), (1, { Core.reset with blocks := [(0, gangBlock 1 r n)] })] }
def gangState : State := gangWith 0x107 1
theorem wit_gang_waits : ∃ b, (gangWith 0x107 0).block? pos0 = some b ∧ b.mHead = some 0x107 ∧ b.eng.unitsFree 0x107 = true
    ∧ b.dispatchCause 0x107 = none ∧ (gangWith 0x107 0).engineRoom pos0 b 0x107 = true ∧ (gangWith 0x107 0).rendezvous pos0 b = none :=
  some_wit (by decide +kernel)
theorem wit_gang_disagrees : ∃ b, (gangWith 0x007 1).block? pos0 = some b ∧ b.mHead = some 0x107 ∧ b.eng.unitsFree 0x107 = true
    ∧ b.dispatchCause 0x107 = none ∧ (gangWith 0x007 1).engineRoom pos0 b 0x107 = true
    ∧ (gangWith 0x007 1).rendezvous pos0 b = some false := some_wit (by decide +kernel)
theorem wit_gang : ∃ b, gangState.block? pos0 = some b ∧ b.mHead = some 0x107 ∧ b.engineRuns = true ∧ b.eng.unitsFree 0x107 = true
    ∧ b.dispatchCause 0x107 = none ∧ b.gang = 2 ∧ gangState.gangBlocks pos0 b = [(pos0, gangBlock 0), (⟨0, 1, 0⟩, gangBlock 1)]
    ∧ (gangBlock 1).presents 0 = some 0x107 ∧ gangState.engineRoom pos0 b 0x107 = true
    ∧ gangState.rendezvous pos0 b = some true ∧ b.ringCause 0x107 = none ∧ (gangBlock 1).ringCause 0x107 = none := some_wit (by decide +kernel)
theorem wit_matrix_ends (r unit : Nat) (h : (r = 5 + 2 ^ 32 ∧ unit = 1) ∨ (r = 6 ∧ unit = 2)) :
    ∃ b, (withB tiny fun b => { b with eng := { b.eng with run := [aCmd r unit] } }).block? pos0 = some b
      ∧ b.eng.run[0]? = some (aCmd r unit) ∧ (aCmd r unit).failed = false ∧ b.squads ≠ [] ∧ (∀ x ∈ b.squads, x.2.lanes ≠ [])
      ∧ mCmd (aCmd r unit).rec' = r % 256 ∧ (withB tiny fun b => { b with eng := { b.eng with run := [aCmd r unit] } }).cmdMay pos0 b 0 (aCmd r unit) = true
      ∧ (aCmd r unit).read = false ∧ (aCmd r unit).claims = [] := by
  rcases h with ⟨rfl, rfl⟩ | ⟨rfl, rfl⟩ <;> exact some_wit (by decide +kernel)
/-- MTAG behind a failed command of a block that is saving. -/
theorem wit_matrix_saving : ∃ b, (withB tiny fun b => { b with
      halt := { b.halt with phase := .saving }, eng := { b.eng with run := [{ aCmd (5 + 2 ^ 32) 1 with failed := true }, aCmd 6 2] } }).block? pos0 = some b
    ∧ b.eng.run[1]? = some (aCmd 6 2) ∧ b.squads ≠ [] ∧ (∀ x ∈ b.squads, x.2.lanes ≠ [])
    ∧ ∀ x ∈ b.eng.run.take 1, x.failed = true ∧ b.halt.phase = .saving := some_wit (by decide)
theorem wit_matrix_order : ∃ b, (withB tiny fun b => { b with eng := { b.eng with run := [aCmd (5 + 2 ^ 32) 1, aCmd 6 2] } }).block? pos0 = some b
    ∧ b.eng.run[1]? = some (aCmd 6 2) ∧ (aCmd 6 2).failed = false ∧ b.squads ≠ [] ∧ ∀ x ∈ b.squads, x.2.lanes ≠ [] := some_wit (by decide)
theorem wit_matrix_records : (∃ b, tiny.block? pos0 = some b ∧ b.mCheck 2 ≠ some 0x42 ∧ mCmd 2 = 2)
    ∧ ∃ b, tiny.block? pos0 = some b ∧ b.mCheck (BitVec.ofNat 128 (5 + 2 ^ 32)) ≠ some 0x42 ∧ mCmd (BitVec.ofNat 128 (5 + 2 ^ 32)) = 5 :=
  ⟨some_wit (by decide), some_wit (by decide)⟩

/-- A copy of 16 bytes from 0x4000 to 0x5000, of the block and of a queue entry; and one from an address that does not exist. -/
def copyJob (src : Word) (pos entry : Option Nat) : CopyJob :=
  ⟨pos, 0, [src, if src = 0 then 0x000FFFFF else 0, 0x5000, 0, 0x10010010, 0x28080, 0, 0], 0x20100, 0, 0, entry, false, 0, 0, []⟩
def copyRun (j : CopyJob) : State := withC (near tiny 0x4000) fun c => { c with copies := [j] }
def copyFails (s : State) (j : CopyJob) : Option (Nat × Nat) :=
  (s.copyNow 0 0 j).fail
theorem wit_copy_runs (pos entry : Option Nat) (h : (pos = some 0 ∧ entry = none) ∨ (pos = none ∧ entry = some 1)) :
    ((copyRun (copyJob 0x4000 pos entry)).core 0 0).copies[0]? = some (copyJob 0x4000 pos entry)
      ∧ (copyRun (copyJob 0x4000 pos entry)).copyReady 0 0 (copyJob 0x4000 pos entry) = true
      ∧ copyFails (copyRun (copyJob 0x4000 pos entry)) (copyJob 0x4000 pos entry) = none := by
  rcases h with ⟨rfl, rfl⟩ | ⟨rfl, rfl⟩ <;> decide +kernel
theorem wit_copy_fails (pos entry : Option Nat) (h : (pos = some 0 ∧ entry = none) ∨ (pos = none ∧ entry = some 1)) :
    (copyRun (copyJob 0 pos entry)).copyReady 0 0 (copyJob 0 pos entry) = true
      ∧ (copyFails (copyRun (copyJob 0 pos entry)) (copyJob 0 pos entry)).isSome = true := by
  rcases h with ⟨rfl, rfl⟩ | ⟨rfl, rfl⟩ <;> decide +kernel
/-- A source whose line no one can read now. -/
theorem wit_copy_needs_token : let j := copyJob 0x4000 (some 0) none
    let s := away (copyRun j) 0x4000
    s.copyReady 0 0 j = true ∧ copyFails s j = some (waitOn 0x100, 0) := by decide +kernel
/-- Four words from pad offset 0 to 16. -/
def padJob : CopyJob := ⟨some 0, 0, [0, 0x00100000, 16, 0x00100000, 0x10010004, 0x66028080, 0, 0], 0x20100, 0, 0, none, false, 0, 0, []⟩
theorem wit_copy_pad : ∃ b, (copyRun padJob).block? pos0 = some b ∧ b.padBad = [] ∧ b.squads ≠ [] ∧ (∀ x ∈ b.squads, x.2.lanes ≠ [])
    ∧ (copyRun padJob).copyReady 0 0 padJob = true ∧ padJob.d.srcKind = 1 ∧ padJob.d.dstKind = 1 ∧ padJob.d.n = [4, 1, 1, 1]
    ∧ padJob.d.sfmt = .n32 ∧ padJob.d.dfmt = .n32 ∧ padJob.d.zb = false := some_wit (by decide +kernel)
/-- A store of the issuing squad before it. -/
theorem wit_copy_waits : (withQ (copyRun { copyJob 0x4000 (some 0) none with after := 1 }) fun q => { q with sq := [aStore] }).copyReady 0 0
    { copyJob 0x4000 (some 0) none with after := 1 } = false := by decide
def aColl (result : Option (Nat × Nat)) : CollJob :=
  ⟨1, 0, 0, 0, 0, 1, 0, [0, 0, 0, 0, 0, 0, 0, 0, 0, 0, 0, 0, 0, 0, 0, 0, 0, 0, 0, 0, 0, 0, 0, 0, 1, 7], 0, 0x20100, 1, 1, [], result⟩
/-- Group 1 holds stalls 0 and 1; stall 0 alone has joined; it is valid at both, or at stall 0 alone. -/
def collPair (v : Byte) : State :=
  let tab (v : Byte) : Mem := Mem.wrs [] 32 (leBytes 8 3 ++ leBytes 2 1 ++ leBytes 2 0 ++ [0, 0, v])
  (withT tiny fun t => { t with coll := tab 1, colls := [aColl none] }).modStall 1 fun t => { t with coll := tab v }
theorem wit_rendezvous (v : Byte) (h : v = 0 ∨ v = 1) : (collPair v).collPending 1 = [(0, aColl none)]
    ∧ bitsOf (((collPair v).stall 0).grpMask 1) = [0, 1] ∧ ((collPair v).stall 0).grpValid 1 = true
    ∧ ((collPair v).stall 1).grpValid 1 = (v = 1 : Bool) := by
  rcases h with rfl | rfl <;> decide +kernel
/-- The same of 32 and n values, from 0x4000 to the pad, all of them read where the stall can; stall 1 maps nothing. -/
def collJob (n : Nat) : CollJob := 
  { aColl none with card := leBytes 8 0x4000 ++ leBytes 8 0x0010000000000400 ++ leBytes 4 n ++ [1, 0xA, 0, 0, 1, 7] ++ List.replicate 38 0 }
def collGroup (mask n : Nat) : State :=
  let tab : Mem := Mem.wrs [] 32 (leBytes 8 mask ++ leBytes 2 1 ++ leBytes 2 0 ++ [0, 0, 1])
  ((withT (near (near tiny 0x4000) 0x4040) fun t => { t with coll := tab, colls := [collJob 32] }).modStall 1 fun t =>
    { t with coll := tab, colls := if mask = 3 then [collJob n] else [], cores := (tiny.stall 0).cores }).collAdvance 1
def collGot : CollJob := { collJob 32 with got := List.replicate 128 0 }
theorem wit_coll_settles (mask n : Nat) (h : mask = 1 ∧ n = 32 ∨ mask = 3 ∧ (n = 32 ∨ n = 16)) : let s := collGroup mask n
    (minBy (fun x => x.2.cseq) ((s.collPending 1).filter s.collReady)) = some (0, collGot)
      ∧ s.collPeers 0 collGot = (if mask = 3 then [(0, collGot), (1, collJob n)] else [(0, collGot)])
      ∧ (∀ m ∈ bitsOf ((s.stall 0).grpMask 1), (s.stall m).grpValid 1 = true) ∧ (s.stall 0).grp 1 8 2 = 1
      ∧ ((CollCard.of (collJob n).card).key = (CollCard.of (collJob 32).card).key ↔ n = 32)
      ∧ s.collCause 0 collGot = none ∧ (mask = 3 → s.collCause 1 (collJob n) = some 0x21)
      ∧ field (CollCard.of (collJob 32).card).dst 55 52 = 1 ∧ (s.stall 0).dead = [] := by
  rcases h with ⟨rfl, rfl⟩ | ⟨rfl, rfl | rfl⟩ <;> decide +kernel
/-- A collective that stall 1 has aborted, and one whose source no one can read now. -/
theorem wit_coll_dead : ((collPair 1).modStall 1 fun t => { t with dead := [(1, 0)] }).collBroken 0 (aColl none) = true := by decide +kernel
theorem wit_coll_waits : let s := (away (withT tiny fun t => { t with coll := ((collGroup 1 32).stall 0).coll, colls := [collJob 32] }) 0x4000).collAdvance 1
    (s.collPending 1).filter s.collReady = [] ∧ (s.stall 0).want ≠ [] := by decide +kernel
theorem wit_coll_ends : ∃ b, (withT tiny fun t => { t with colls := [aColl (some (0, 0))] }).block? pos0 = some b ∧ b.squads ≠ []
    ∧ (∀ x ∈ b.squads, x.2.lanes ≠ []) := some_wit (by decide)

/-! ## Witnesses: tokens and memory queues -/

/-- A load of four bytes of line 0 in flight, and the line with t tokens and the owner token. -/
def aRead (perf : Bool) : Flight := ⟨1, 0x20100, [(false, 8)], [⟨0, 0, 8, .dev 0, 4, .zero, none⟩], [], perf, false, false, 0, false, Fl.none, false⟩
def dcl (t : Nat) (miss : Miss) : DcLine := ⟨t, decide (t ≠ 0), decide (t ≠ 0), false, miss, 0, false⟩
def lineState (t : Nat) (miss : Miss) : State := withQ (withT tiny fun x => { x with dc := if t = 0 ∧ miss = .none then [] else [(0, dcl t miss)] })
  fun q => { q with flight := [aRead false] }
theorem wit_line_read : (lineState 1 .none).wantsRead 0 0 = true ∧ 1 ≤ ((lineState 1 .none).dcLine 0 0).t
    ∧ ((lineState 1 .none).dcLine 0 0).v = true := by decide
theorem wit_line_misses : (lineState 0 .none).wantsRead 0 0 = true ∧ ((lineState 0 .none).dcLine 0 0).t = 0
    ∧ ((lineState 0 .none).dcLine 0 0).miss = .none := by decide
theorem wit_line_room : ((lineState 0 .none).stall 0).dc.length + ((lineState 0 .none).stall 0).hro.length < dieCacheLines
    ∧ ((lineState 0 .read).dcLine 0 0).miss = .read ∧ (lineState 0 .read).wantsRead 0 0 = true := by decide
theorem wit_line_idle : tiny.wantsRead 0 0 = false ∧ tiny.wantsWrite 0 0 = false := by decide
def writing (t : Nat) : State := withT (lineState t .none) fun x => { x with wbuf := [⟨1, 1, none, 0, [7]⟩] }
theorem wit_line_write : (writing 64).wantsWrite 0 0 = true ∧ ((writing 64).dcLine 0 0).t = 64
    ∧ (writing 63).wantsWrite 0 0 = true ∧ ((writing 63).dcLine 0 0).t = 63 ∧ ((writing 63).dcLine 0 0).miss = .none := by decide
theorem wit_eviction : 1 ≤ ((lineState 1 .none).dcLine 0 0).t ∧ ((lineState 1 .none).dcLine 0 0).miss = .none
    ∧ (lineState 1 .none).lineProtected 0 0 = false := by decide
/-- A reservation of a constrained sequence protects the line. -/
def prot (s : State) : State := withL s fun ln => { ln with resv := some ⟨0, 0, 4, some 0⟩ }
theorem wit_protected : (prot (lineState 1 .none)).lineProtected 0 0 = true := by decide
theorem wit_transient (n : Nat) (h : n = 0 ∨ n = 1 ∨ n = 2) (w : Bool) :
    let s : State := { lineState n .none with net := [.trans 0 w 1 0 false] }
    s.net[0]? = some (.trans 0 w 1 0 false) ∧ s.lineProtected 0 0 = false ∧ (s.dcLine 0 0).t = n ∧ (s.dcLine 0 0).o = (n ≠ 0 : Bool) := by
  rcases h with rfl | rfl | rfl <;> cases w <;> decide
theorem wit_transient_home (w : Bool) : let s : State := { tiny with net := [.trans 0 w 1 0 true] }
    s.net[0]? = some (.trans 0 w 1 0 true) ∧ (s.homeLine 0).o = true ∧ 2 ≤ (s.homeLine 0).t := by cases w <;> decide
theorem wit_token_arrives (n : Nat) (h : n = 0 ∨ n = 1) : let s : State := { lineState n .none with net := [.token 0 1 false true false false 1 0 false] }
    s.net[0]? = some (.token 0 1 false true false false 1 0 false) ∧ (s.stall 0).claimed 0 0 = false ∧ (s.dcLine 0 0).miss = .none
      ∧ (s.dcLine 0 0).t = n := by
  rcases h with rfl | rfl <;> decide
/-- The token that a read miss waits for. -/
theorem wit_token_satisfies : let s : State := { lineState 0 .read with net := [.token 0 1 false true false false 1 0 false] }
    s.net[0]? = some (.token 0 1 false true false false 1 0 false) ∧ (s.stall 0).claimed 0 0 = false
      ∧ DcLine.satisfied { s.dcLine 0 0 with t := (s.dcLine 0 0).t + 1, v := true } = true := by decide
theorem wit_token_home : let s : State := { tiny with net := [.token 0 1 false false false true 1 0 true], home := [(0, ⟨60, true, none⟩)] }
    s.net[0]? = some (.token 0 1 false false false true 1 0 true) ∧ (s.stall (s.homeStall 0)).active 0 = none
      ∧ (s.homeLine 0).t + 1 ≠ 64 := by decide
theorem wit_conserved : ∀ x ∈ State.net { tiny with net := [.trans 0 true 1 63 true] }, x.dest < 64 := by decide

theorem wit_miss_expires (n : Nat) (h : n = 511 ∨ n = 512) : let s := withT (lineState 0 .read) fun t => { t with clock := n }
    (s.dcLine 0 0).miss = .read ∧ (s.dcLine 0 0).esc = false ∧ (s.stall 0).preq = none ∧ (s.stall 0).pwait = [] ∧ (s.stall 0).marked = []
      ∧ ((s.dcLine 0 0).timer + 512 ≤ (s.stall 0).clock ↔ n = 512) := by
  rcases h with rfl | rfl <;> decide
theorem wit_activate : let s : State := { prot (lineState 1 .none) with net := [.activate 1 0 .write 0], site := [(0, 0x4048), (1, 0x4000)] }
    s.net[0]? = some (.activate 1 0 .write 0) ∧ s.lineProtected 0 0 = true ∧ s.homeStall 0 ≠ 0 := by decide +kernel
theorem wit_deactivate : let s : State := { withT tiny (fun t => { t with ptab := [(1, ⟨0, .write⟩)] }) with net := [.deactivate 1 0] }
    s.net[0]? = some (.deactivate 1 0) ∧ (s.stall 0).ptab = [(1, ⟨0, .write⟩)] ∧ (s.stall 0).pwait = [] := by decide
def aReq : PReq := ⟨0, .read, 64, 0, false, false⟩
theorem wit_ack : let s : State := { withT tiny (fun t => { t with preq := some aReq }) with net := [.ack 0 false 5] }
    s.net[0]? = some (.ack 0 false 5) ∧ (s.stall 0).preq = some aReq ∧ aReq.performed = false ∧ aReq.deact = false := by decide
theorem wit_protection_ends : let s := withT (prot tiny) fun t => { t with clock := 100000 }
    s.lineProtected 0 0 = false ∧ (s.stall 0).active 0 = none
      ∧ (s.lane? sel0 0).map (·.resv) = some (some ⟨0, 0, 4, some 0⟩) := by decide
def aFar (q : Sel) : FarOp := ⟨q, 1, 0, some (.int .add .i32), [⟨0, 0, 8, .dev 0, 0, 1, 0, [], true⟩]⟩
def farState (q : Sel) (t : Nat) : State := { withT tiny (fun x => { x with far := [aFar q] }) with home := if t = 64 then [] else [(0, ⟨t, true, none⟩)] }
theorem wit_far : (farState ⟨0, 5, 0, 0⟩ 64).farReady (aFar ⟨0, 5, 0, 0⟩) = true ∧ (farState ⟨0, 5, 0, 0⟩ 64).squad? ⟨0, 5, 0, 0⟩ = none
    ∧ (farState ⟨0, 5, 0, 0⟩ 64).lostAny 0 4 = false ∧ (farState ⟨0, 5, 0, 0⟩ 64).exportsAt 0 4 = []
    ∧ (farState sel0 63).farReady (aFar sel0) = false ∧ ((farState sel0 63).homeLine 0).t = 63
    ∧ (farState sel0 63).farBehind (aFar sel0) = false := by decide +kernel
theorem wit_drain : ∃ q, (withQ tiny fun q => { q with sq := [aStore] }).squad? sel0 = some q ∧ q.lanes ≠ [] ∧ q.sq = [aStore]
    ∧ aStore.op = .store (.dev 0x100) [1] ∧ aStore.rel = none ∧ aStore.acq = none
    ∧ q.asked aStore.id = false ∧ ∀ f ∈ q.flight, f.perf = true ∨ f.byQueue = true ∨ aStore.id ≤ f.id := some_wit (by decide)
theorem wit_buffered : oldestOfLine ((writing 64).stall 0).wbuf 0 = true ∧ ((writing 64).dcLine 0 0).t = 64
    ∧ (writing 64).exportsAt 0 1 = [] ∧ ((writing 63).dcLine 0 0).t ≠ 64 := by decide +kernel
/-- External address of package 3 of the domain, which is the machine's own number or not. -/
def postedState (p : Posted) (own : Bool) : State := { withT tiny (fun t => { t with posted := [p] }) with pkg := if own then 0x203 else 0x204 }
theorem wit_posted (p : Posted) (own : Bool) (h : p = ⟨1, none, .host 64 false, [1]⟩ ∨ p = ⟨1, none, .ext (3 * 2 ^ 50 + 63) false, [1]⟩) :
    let s := postedState p own
    (s.stall 0).posted[0]? = some p ∧ s.pkg.getLsbD 9 = true ∧ ((3 * 2 ^ 50 + 63) / 2 ^ 50 % 512 = s.ownPackage ↔ own = true)
      ∧ s.inbound = [] ∧ (s.homeLine ((3 * 2 ^ 50 + 63) % 2 ^ 48 / 64)).t = 64 ∧ s.exportsAt ((3 * 2 ^ 50 + 63) % 2 ^ 48) 1 = [] := by
  rcases h with rfl | rfl <;> cases own <;> decide +kernel

/-! ## Witnesses: messages, queues and launches -/

def aMsg (seq : Nat) : NiMsg := ⟨seq, 0, 0, 0, 0, 3, 0, 0, false, false, 0, 0, 0, [7], 0, 0, 1, 0⟩
/-- Core 0 declares mailbox 3 with two entries and mailbox 15 with two; the tail stands at n. -/
def boxState (n : Nat) (net : List Msg) : State := { withB (withK tiny fun k => { k with mbox := [⟨3, 0, 2⟩, ⟨15, 1024, 2⟩] }) (fun b =>
  { b with tails := [(3, BitVec.ofNat 32 n)] }) with net := net }
theorem wit_message (seq : Nat) (h : seq = 0 ∨ seq = 1) : let s := boxState 0 [.send (aMsg seq)]
    s.net[0]? = some (.send (aMsg seq)) ∧ (s.stall (aMsg seq).dstall).early = [] ∧ (aMsg seq).fire = false
      ∧ ((s.stall 0).expects (aMsg seq) = (aMsg seq).seq ↔ seq = 0) ∧ (Tab.get 0 (s.stall 0).crt 0).getLsbD 14 = false
      ∧ (s.stall 0).migbuf = [] := by
  rcases h with rfl | rfl <;> decide
theorem wit_message_migrates : let s := withT (boxState 0 [.send (aMsg 0)]) fun t => { t with crt := t.crt.put 0 0xC000 }
    s.net[0]? = some (.send (aMsg 0)) ∧ (s.stall 0).early = [] ∧ (s.stall 0).expects (aMsg 0) = 0
      ∧ (Tab.get 0 (s.stall 0).crt 0).getLsbD 14 = true ∧ (s.stall 0).migbuf.length < 64 := by decide
theorem wit_message_nowhere : let s := withT (boxState 0 [.send (aMsg 0)]) fun t => { t with crt := t.crt.put 0 0 }
    (Tab.get 0 (s.stall 0).crt 0).getLsbD 15 = false ∧ (Tab.get 0 (s.stall 0).crt 0).getLsbD 14 = false := by decide
theorem wit_message_no_block : ((withB tiny id).core 0 0).holder = none ∧ (Tab.get 0 (tiny.stall 0).crt 0).getLsbD 15 = true := by decide
theorem wit_message_box (n : Nat) (h : n = 0 ∨ n = 2) : ∃ b, (boxState n []).block? pos0 = some b
    ∧ ((boxState n []).core 0 (field (Tab.get 0 ((boxState n []).stall 0).crt 0) 5 0)).holder = some (0, b)
    ∧ (Tab.get 0 ((boxState n []).stall 0).crt 0).getLsbD 15 = true ∧ b.kern.box 3 = some ⟨3, 0, 2⟩ ∧ b.kern.box 4 = none
    ∧ (b.mboxFull ⟨3, 0, 2⟩ = true ↔ n = 2) := by
  rcases h with rfl | rfl <;> exact some_wit (by decide)
theorem wit_message_back (x : Msg) (h : x = .sendAck (aMsg 0) ∨ x = .ret (aMsg 0)) : ∃ b, (boxState 0 [x]).block? pos0 = some b
    ∧ b.launch = (aMsg 0).slaunch ∧ b.index = (aMsg 0).sindex ∧ b.kern.box 15 = some ⟨15, 1024, 2⟩ ∧ (boxState 0 [x]).net[0]? = some x := by
  rcases h with rfl | rfl <;> exact some_wit (by decide)
/-- A fire of entry 2, whose card stands at 0x4000; the entry is on or off. -/
def aFire : Fire := ⟨0, 2, 3, 64, 0, [7]⟩
def fireState (on : Nat) : State := withT tiny fun t => { t with
  fires := [aFire], armt := Mem.wrs [] 32 (leBytes 8 0x4000 ++ [0, 0] ++ leBytes 1 on) }
theorem wit_fire (on : Nat) (h : on = 0 ∨ on = 1) : ∃ b, (fireState on).block? pos0 = some b
    ∧ ((fireState on).stall 0).fires[0]? = some aFire ∧ ((fireState on).stall 0).armt.num (16 * 2 + 10) 1 % 2 = on := by
  rcases h with rfl | rfl <;> exact some_wit (by decide)
def errs {α : Type} (r : Except Nat α) (e : Nat) : Bool := match r with
  | .ok _ => false
  | .error x => x = e
def fireCard (s : State) (waits : Bool) : Bool := match s.userRead 0 .read 0x4000 64 with
  | .ok card => s.cardWaits 0 card (some 64) = waits
  | .error _ => false
theorem wit_fire_card : fireCard (near (fireState 1) 0x4000) false = true := by decide +kernel
/-- The page of the card cannot be translated now; no page holds it; and its kernel's header cannot be read now. -/
theorem wit_fire_fails : errs ((away (fireState 1) 0x10000).userRead 0 .read 0x4000 64) (waitOn 0x400) = true
    ∧ errs ((withT (near (fireState 1) 0x4000) fun t => { t with troot := 0 }).userRead 0 .read 0x4000 64) 0x21 = true
    ∧ fireCard (away (poke (fireState 1) 0x4000 (leBytes 8 0x6000 ++ List.replicate 8 0 ++ [1, 0, 1, 0, 1, 0, 1, 0, 1, 0, 1, 0])) 0x6000) true = true := by
  decide +kernel

/-- An entry of a type with SEQ 1: its bytes, and the entry fetched with the address 0x4000 and 4 in its payload. -/
def entBytes (ty : Nat) (payload : List Byte) : List Byte := leBytes 4 1 ++ leBytes 1 ty ++ List.replicate 11 0 ++ payload
def anEnt (ty : Nat) (payload : List Byte) (st : EntSt) : Entry :=
  ⟨5, 1, 1, ty, false, entBytes ty payload ++ List.replicate (64 - 16 - payload.length) 0 ++ List.replicate 592 0, 3, 1, st, 0, none⟩
/-- Queue 1 of class 1 is on, with the doorbell at d; its ring of 4 entries at 0x8000 holds an entry with a SEQ and TYPE 7. -/
def queueState (seq d : Nat) : State :=
  let s := withT tiny fun t => { t with qdesc := Mem.wrs [] 32 (leBytes 8 0x8000 ++ List.replicate 8 0 ++ leBytes 4 4 ++ [1, 0, 1, 0] ++ leBytes 4 d) }
  poke s (s.localPa 0 (0x8000 + 64)) (leBytes 4 seq ++ [7])
theorem wit_fetch_none : tiny.pickQueue 0 = none ∧ tiny.pendFirm = [] := by decide
theorem wit_fetch (seq d : Nat) (h : (seq = 1 ∧ (d = 1 ∨ d = 4)) ∨ (seq = 2 ∧ d = 1) ∨ (seq = 1 ∧ d = 5)) :
    (queueState seq d).pickQueue 0 = some 1 ∧ ((queueState seq d).stall 0).qd 1 16 4 = 4
      ∧ ((BitVec.ofNat 32 (((queueState seq d).stall 0).qd 1 24 4) - (((queueState seq d).stall 0).queue 1).fetched).toNat = d)
      ∧ (entryFormOk ((queueState seq d).entryBytes 0 1 1) 1 (((queueState seq d).stall 0).qd 1 20 1) = true ↔ seq = 1) := by
  rcases h with ⟨rfl, rfl | rfl⟩ | ⟨rfl, rfl⟩ | ⟨rfl, rfl⟩ <;> decide +kernel
theorem wit_fetch_nop : ((queueState 1 1).entryCheck 0 1 ((queueState 1 1).entryBytes 0 1 1)).isOk = true
    ∧ sliceNum ((queueState 1 1).entryBytes 0 1 1) 4 1 = 7 := by decide +kernel

/-- An entry of TYPE 2 whose card is refused, and one of TYPE 0x11 without a pass. -/
theorem wit_fetch_refused : entryFormOk (entBytes 0x11 (List.replicate 48 0)) 1 0 = true
    ∧ (match (queueState 1 1).entryCheck 0 1 (entBytes 0x11 (List.replicate 48 0)) with
      | .ok _ => false
      | .error _ => true) = true := by decide +kernel

def entState (e : Entry) : State := withT tiny fun t => { t with entries := [e] }
theorem wit_may_start (ty : Nat) (h : ty = 1 ∨ ty = 2 ∨ ty = 7) : let e := anEnt ty [] .fetched
    ((entState e).stall 0).entries[0]? = some e ∧ ((entState e).stall 0).mayStart e = true := by
  rcases h with rfl | rfl | rfl <;> decide +kernel
theorem wit_may_not_start : ((entState (anEnt 1 [] .running)).stall 0).mayStart (anEnt 1 [] .running) = false := by decide
theorem wit_mlaunch (b : Bool) : let s : State := { entState (anEnt 2 [] .fetched) with market := [(0, 1, if b then 0xC0000000 else 0x80000000)] }
    s.busy (sliceNum (anEnt 2 [] .fetched).bytes 24 1) = b ∧ s.members (sliceNum (anEnt 2 [] .fetched).bytes 24 1) = [0] := by
  cases b <;> decide +kernel
/-- The header of the card's kernel cannot be read now. -/
def lcBytes : List Byte := leBytes 8 0x6000 ++ List.replicate 8 0 ++ [1, 0, 1, 0, 1, 0, 1, 0, 1, 0, 1, 0] ++ List.replicate 36 0
def cardEnt (ty : Nat) : Entry := { anEnt ty [] .fetched with bytes := entBytes ty (List.replicate 48 0) ++ lcBytes ++ List.replicate 528 0 }
theorem wit_entry_waits (ty : Nat) (h : ty = 1 ∨ ty = 2) : let s : State := { away (entState (cardEnt ty)) 0x6000 with market := [(0, 1, 0x80000000)] }
    (s.stall 0).mayStart (cardEnt ty) = true ∧ s.members 0 = [0] ∧ s.cardWaits 0 (cardEnt ty).card none = true
      ∧ s.busy (sliceNum (cardEnt ty).bytes 24 1) = false := by rcases h with rfl | rfl <;> decide +kernel
theorem wit_entry_ready : State.cardWaits { entState (anEnt 2 [] .fetched) with market := [(0, 1, 0x80000000)] } 0 (anEnt 2 [] .fetched).card none = false := by
  decide +kernel
def copyEnt (src : Nat) : Entry := anEnt 5 (leBytes 8 src ++ leBytes 8 0x5000 ++ leBytes 4 0x10010010 ++ leBytes 4 0x28080) .fetched
theorem wit_copy_entry (src : Nat) (h : src = 0x4000 ∨ src = 0x5000) : let e := copyEnt src
    ((entState e).stall 0).mayStart e = true ∧ ((entState e).stall 0).cardRoom = true
      ∧ ((CopyD.ofWords ((List.range 8).map fun i => BitVec.ofNat 32 (sliceNum e.bytes (16 + 4 * i) 4))).bad 1 true = true ↔ src = 0x5000) := by
  rcases h with rfl | rfl <;> decide +kernel
theorem wit_copy_entry_full : let e := copyEnt 0x4000
    let s := withT (entState e) fun t => { t with cards := List.replicate 256 ⟨1, 0, 0, [], []⟩ }
    let u := withT (entState e) fun t => { t with cores := (List.range 54).map fun k =>
      (k, { Core.reset with copies := List.replicate 64 ⟨some 0, 0, [], 0, 1, 1, none, false, 0, 0, []⟩ }) }
    (s.stall 0).mayStart e = true ∧ (s.stall 0).cardRoom = false ∧ (u.stall 0).mayStart e = true
      ∧ 64 ≤ (u.core 0 (u.stall 0).copyCore).copies.length
      ∧ ((entState e).core 0 ((entState e).stall 0).copyCore).copies.length < 64 := by decide +kernel
def sigEnt (va : Nat) (st : EntSt) : Entry := anEnt 3 (leBytes 8 va ++ leBytes 4 7 ++ [4]) st
theorem wit_signal : let e := sigEnt 0x4000 .fetched
    ((entState e).stall 0).entries[0]? = some e ∧ ((entState e).stall 0).firstOpen e = true ∧ ((entState e).stall 0).writtenTo e.upto = true := by
  decide +kernel
theorem wit_signal_writes : ((entState (sigEnt 0x4000 .running)).userWrite 0 (BitVec.ofNat 64 (sliceNum (sigEnt 0x4000 .running).bytes 16 8)) 7).isOk
      = true
    ∧ ((entState (sigEnt (2 ^ 40) .running)).userWrite 0 (BitVec.ofNat 64 (sliceNum (sigEnt (2 ^ 40) .running).bytes 16 8)) 7).isOk = false := by
  decide +kernel
/-- One that waits for the write of an earlier entry, and one whose page cannot be translated now. -/
theorem wit_signal_waits : ((withT (entState (sigEnt 0x4000 .running)) fun t => { t with wbuf := [⟨0, 0, none, 0, [7]⟩] }).stall 0).writtenTo 1 = false
    ∧ errs ((away (entState (sigEnt 0x4000 .running)) 0x10000).userWrite 0 0x4000 7) (waitOn 0x400) = true
    ∧ ((entState (sigEnt 0x4000 .waiting)).stall 0).writtenTo 0 = true := by decide +kernel
theorem wit_waitmem_stops : let e := anEnt 4 (leBytes 8 0x4000 ++ leBytes 4 1 ++ [4]) .waiting
    errs ((away (entState e) 0x4000).waitRead 0 e) (waitOn 0x100) = true
    ∧ errs ((withT (entState e) fun t => { t with troot := 0 }).waitRead 0 e) 0x21 = true
    ∧ ((withT (entState e) fun t => { t with clock := 1024 }).stall 0).clock = e.upto + 1024
    ∧ ((withT (entState e) fun t => { t with clock := 1023 }).stall 0).clock < e.upto + 1024 := by decide +kernel
/-- The word at 0x4000 is 0: it has reached 0, and not 1. -/
theorem wit_waitmem (v : Nat) (h : v = 0 ∨ v = 1) : let e := anEnt 4 (leBytes 8 0x4000 ++ leBytes 4 v ++ [4]) .fetched
    ((near (entState e) 0x4000).waitRead 0 e).toOption = some 0 ∧ (((0 : Word) - BitVec.ofNat 32 (sliceNum e.bytes 24 4)).toNat < 2 ^ 31 ↔ v = 0) := by
  rcases h with rfl | rfl <;> decide +kernel

def endedLaunch (n : Nat) : Launch := { tinyLaunch with src := .queue 5, next := 1, ended := n }
theorem wit_launch_ends (n : Nat) (h : n = 0 ∨ n = 1) : let s := withT (entState (anEnt 1 [] .running)) fun t => { t with launches := [endedLaunch n] }
    (s.stall 0).launches[0]? = some (endedLaunch n) ∧ ((endedLaunch n).complete (s.stall 0) = true ↔ n = 1) := by
  rcases h with rfl | rfl <;> decide
/-- Its DONE word's page cannot be translated now, or can. -/
theorem wit_launch_done (b : Bool) : let l : Launch := { endedLaunch 1 with src := .device 0x8000 }
    let s := withT (if b then away tiny 0x10000 else tiny) fun t => { t with launches := [l] }
    (s.stall 0).launches[0]? = some l ∧ l.complete (s.stall 0) = true ∧ s.doneCode 0 l = (if b then some (waitOn 0x400) else none) := by cases b <;> decide +kernel
/-- A launch with its block to place, on a stall whose cores are empty. -/
def toPlace : Launch := { tinyLaunch with next := 0 }
def placeState : State := { tiny with stalls := [(0, { Stall.reset with launches := [toPlace], troot := 0x10001 })] }
theorem wit_place : (placeState.stall 0).nextLaunch = some toPlace ∧ (placeState.stall 0).pausePlace = false
    ∧ (placeState.stall 0).evicting = [] ∧ toPlace.evicted = [] ∧ (placeState.stall 0).slotsFor (max 1 toPlace.gang) = true
    ∧ (placeState.stall 0).picks toPlace = some [0] := by decide +kernel
theorem wit_place_saves : let s := { placeState with stalls := [(0, { placeState.stall 0 with evicting := [⟨1, 0, [(2, 0)]⟩] })] }
    (State.stall s 0).nextLaunch = some toPlace ∧ (State.stall s 0).pausePlace = false
      ∧ (State.stall s 0).evictsFor toPlace.id toPlace.next = true := by decide +kernel
/-- Core 0 alone is on, and its block takes the whole pad; a launch of a higher priority needs as much. -/
def bigKern : Kern := { placedKern with pad := 262144 }
def highLaunch : Launch := { tinyLaunch with id := 9, kern := bigKern, next := 0, prio := 7 }
def evictState : State :=
  let l : Launch := { tinyLaunch with kern := bigKern, prio := 0 }
  withT tiny fun t => { t with
    launches := [l, highLaunch], savea := 0x0100400004000000
    crt := (List.range 48).map fun i => (i, if i = 0 then 0x8000 else 0)
    cores := [(0, { Core.reset with blocks := [(0, { l.block 0 0 none .grid 0 1 with cslot := some 0 })] })], slots := [0] }
theorem wit_evict : ∃ k, evictState.block? pos0 = some k ∧ (evictState.stall 0).nextLaunch = some highLaunch ∧ (evictState.stall 0).pausePlace = false
    ∧ (evictState.stall 0).evicting = [] ∧ highLaunch.evicted = [] ∧ (evictState.stall 0).savesOn = true
    ∧ (evictState.stall 0).slotsFor (max 1 highLaunch.gang) = true ∧ (evictState.stall 0).picks highLaunch = none
    ∧ evictState.victims 0 highLaunch = some [pos0] := some_wit (by decide +kernel)
def idlePipe : Pipe := ⟨1, 2, [[], []], false, [], [], 0⟩
theorem wit_pipe (n : Nat) (h : n = 4095 ∨ n = 4096) : let s := withT tiny fun t => { t with pipes := [idlePipe], clock := n }
    (s.stall 0).pipes = [idlePipe] ∧ (s.stall 0).clock = n := by rcases h with rfl | rfl <;> decide
theorem wit_pipe_drained : let s := withB (withT tiny fun t => { t with pipes := [idlePipe] }) fun b => { b with squads := b.squads.map fun x =>
      (x.1, { x.2 with park := .answer, asks := [⟨1, 8, 0⟩] }) }
    (s.stall 0).pipeDrained 0 idlePipe = true ∧ idlePipe.drained = false := by decide
theorem wit_record_release : let s := withT tiny fun t => { t with cring := 0x10004, heldRecs := [⟨false, List.replicate 28 0, none, none⟩] }
    (s.stall 0).heldRecs = [⟨false, List.replicate 28 0, none, none⟩] ∧ ringOn (s.stall 0).cring = true
      ∧ ringRoom (s.stall 0).cring (s.stall 0).crseq (s.stall 0).ccons = true := by decide
theorem wit_queue_abort (b : Bool) : let s := withT tiny fun t => { t with queues := [(1, ⟨0, 0, false, 0, none, b, []⟩)] }
    ((s.stall 0).queue 1).abort = b ∧ (s.stall 0).open' 1 = [] ∧ s.passes = [] := by cases b <;> decide
def replyEnt (act : Nat) : Entry := anEnt 6 (leBytes 4 3 ++ leBytes 1 act) .fetched
def replyState (act kind : Nat) (there : Bool) : State := withB (withT (entState (replyEnt act)) fun t =>
  { t with outRecs := if there then [⟨3, kind, 1, 0, 0, []⟩] else [] }) fun b => { b with halt := { b.halt with phase := .halted } }
theorem wit_reply_gone : let s := replyState 0 1 false
    (s.stall 0).startable 0 6 = some (replyEnt 0) ∧ ((s.stall 0).outRecs.find? fun r => r.rseq.toNat = sliceNum (replyEnt 0).bytes 16 4) = none := by
  decide +kernel
theorem wit_reply (act kind : Nat) (h : (act = 0 ∧ kind = 2) ∨ (kind = 1 ∧ (act = 0 ∨ act = 1 ∨ act = 2 ∨ act = 3 ∨ act = 5))) : let s := replyState act kind true
    (s.stall 0).startable 0 6 = some (replyEnt act)
      ∧ ((s.stall 0).outRecs.find? fun r => r.rseq.toNat = sliceNum (replyEnt act).bytes 16 4) = some ⟨3, kind, 1, 0, 0, []⟩
      ∧ (s.findBlock 0 1 0).map (fun x => (x.1, x.2.halt.phase)) = some (pos0, .halted) ∧ (s.stall 0).supOn = false ∧ s.supWaits 0 = false
      ∧ sliceNum (replyEnt act).bytes 20 1 = act := by
  rcases h with ⟨rfl, rfl⟩ | ⟨rfl, rfl | rfl | rfl | rfl | rfl⟩ <;> decide +kernel
/-- The supervisor's image cannot be read now. -/
theorem wit_reply_waits : let s := away (withT (replyState 0 1 true) fun t => { t with svec := 0x80001 }) 0x80000
    (s.stall 0).startable 0 6 = some (replyEnt 0) ∧ s.supWaits 0 = true := by decide +kernel

/-! ## Witnesses: raster passes -/

def aMember : Member := Member.reset
def apass (f : Pass → Pass) : Pass := f ⟨0, 0, 1, 4, 3, [], [], [], [], [], false, none, false, [(0, aMember)]⟩
/-- A raster entry of the pass of market 0. -/
def rasEnt (ty : Nat) (st : EntSt) : Entry := { anEnt ty [] st with market := some 0 }
def passState (ty : Nat) (st : EntSt) (p : Pass) : State := { entState (rasEnt ty st) with passes := [p], market := [(0, 1, 0xC0000000)] }
theorem wit_pass : ((entState (anEnt 0x10 [] .fetched)).stall 0).startable 0 0x10 = some (anEnt 0x10 [] .fetched) := by decide +kernel
theorem wit_draw_entry (st : EntSt) (h : st = .fetched ∨ st = .running) : let s := passState 0x11 st (apass id)
    (s.stall 0).entries[0]? = some (rasEnt 0x11 st) ∧ s.passOf (rasEnt 0x11 st) = some (apass id)
      ∧ ((s.stall 0).startable 0 0x11 = some (rasEnt 0x11 st) ↔ st = .fetched) := by
  rcases h with rfl | rfl <;> decide +kernel
def aDraw (dealt : Nat) : Draw := ⟨0, [], none, 1, 4, [], 0, dealt, some 1⟩
theorem wit_draw_waits (b : Bool) : let s := passState 0x11 .fetched (apass fun p => { p with aborted := if b then some 0x26 else none })
    ((s.passOf (rasEnt 0x11 .fetched)).map fun p => p.aborted.isSome) = some b ∧ s.drawCode 0 (rasEnt 0x11 .fetched) = none := by
  cases b <;> decide +kernel
theorem wit_passend (n : Nat) (h : n = 0 ∨ n = 1) : let p := apass fun p => { p with draws := [aDraw n] }
    let s := passState 0x12 .running p
    s.passOf (rasEnt 0x12 .running) = some p ∧ p.endSent = false ∧ p.aborted = none ∧ (p.dealt = true ↔ n = 1) ∧ s.passes = [p] := by
  rcases h with rfl | rfl <;> decide +kernel
theorem wit_passend_starts : ((passState 0x12 .fetched (apass id)).stall 0).startable 0 0x12 = some (rasEnt 0x12 .fetched) := by decide +kernel
theorem wit_passend_ends : let p := apass fun p => { p with endSent := true, members := [(0, { aMember with ended := some 0 })] }
    let s := withT (passState 0x12 .running p) fun t => { t with launches := [] }
    s.passOf (rasEnt 0x12 .running) = some p ∧ p.endSent = true ∧ p.members.all (s.memberDone p) = true
      ∧ ∀ x ∈ (s.stall 0).entries, x.q = 1 → x.ty = 0x11 → x.id < 5 → x.over = true := by decide +kernel
theorem wit_deal : let p := apass fun p => { p with draws := [aDraw 0] }
    let s := passState 0x12 .running p
    p.groups.length < 64 ∧ p.nextGroup = some (0, aDraw 0, 0) ∧ s.pickMember p = some 0
      ∧ s.cardWaits 0 (aDraw 0).mcard none = false := by decide +kernel
def aPacket : Packet := ⟨256, 0, 0, [0, 2560, 0], [0, 0, 2560], [0, 0, 0], [0x3F800000, 0x3F800000, 0x3F800000], [], true⟩
theorem wit_raster_message (x : PrimMsg) (h : x = .drawStart 0 0 1 0 ∨ x = .packet 0 aPacket ∨ x = .done 0 0 1 0 0 ∨ x = .passEnd 0 1 0
    ∨ x = .retired 0 7 0) : let p := apass fun p => { p with groups := [⟨7, 0, 0, true, [0]⟩] }
    let s : State := { passState 0x12 .running p with prims := [x] }
    s.passes = [p] ∧ p.market = 0 ∧ Tab.find? p.members 0 = some aMember ∧ s.prims[0]? = some x ∧ aPacket.owner = 0
      ∧ p.groups = [⟨7, 0, 0, true, [0]⟩] := by
  rcases h with rfl | rfl | rfl | rfl | rfl <;> decide +kernel
/-- The frontier of a member: at a complete group, before one, and behind the last group of a draw. -/
def frontier (c dones : Nat) : Member := { aMember with starts := [(0, c)], dones := if dones = 0 then [] else [(0, 0)] }
theorem wit_frontier : let k := fun m : Member => m.skipDraws (m.starts.length + 1)
    (k (frontier 1 1)).ready = some 0 ∧ (k (frontier 1 0)).ready = none ∧ (k (frontier 1 0)).fdraw = (frontier 1 0).fdraw
      ∧ (k (frontier 0 0)).ready = none ∧ (k (frontier 0 0)).fdraw ≠ (frontier 0 0).fdraw := by decide
def aShaded (ready : Bool) : Shaded := ⟨256, 0, 0, 1, [0], (1, 0), 0, ready, none⟩
theorem wit_back_end (b : Bool) : let p := apass fun p => { p with members := [(0, { aMember with shaded := [aShaded b] })] }
    let s := passState 0x12 .running p
    s.passes = [p] ∧ p.aborted = none ∧ s.memberDown p = false
      ∧ (s.applyShaded 0 p.desc (aShaded b)).isOk = true := by cases b <;> decide +kernel
/-- A target in the last block of the address space, which nothing maps. -/
def farTarget : List Byte := List.replicate 16 0 ++ leBytes 2 1 ++ leBytes 2 1 ++ [1, 0, 0, 1] ++ List.replicate 56 0
  ++ leBytes 8 (2 ^ 40) ++ leBytes 4 256 ++ [2, 0, 0, 15] ++ List.replicate 160 0
theorem wit_back_end_fails : (tiny.applyShaded 0 farTarget { aShaded true with outs := some [⟨0, [0, 0, 0, 0]⟩] }).isOk = false := by decide +kernel
theorem wit_back_end_waits : let d := farTarget.take 80 ++ leBytes 8 0x8000 ++ farTarget.drop 88
    errs ((away tiny 0x8000).applyShaded 0 d { aShaded true with outs := some [⟨0, [0, 0, 0, 0]⟩] }) (waitOn 0x200) = true := by decide +kernel
theorem wit_pass_abort : let p := apass fun p => { p with aborted := some 0x26 }
    (passState 0x12 .running p).passes = [p] ∧ p.aborted.isSome = true := by decide

/-! ## Witnesses: halts, saves and restores -/

/-- The block of `tiny` halts with a cause: its slot is 0, the context area lies at 64 MiB and the system-call ring has 16 entries. -/
def haltState (cause : Nat) (f : BlockHalt → BlockHalt) : State := withB (withT tiny fun t => { t with savea := 0x0100400004000000, scring := 0x10004 })
  fun b => { b with cslot := some 0, halt := f { b.halt with phase := .halting, psq := 0, cause := cause } }
theorem wit_halt_host : ∃ k, (haltState 0x20 id).block? pos0 = some k ∧ (haltState 0x20 id).gangOf pos0 = [(pos0, k)] ∧ k.halt.phase = .halting
    ∧ k.halt.psq ≠ 0xFF ∧ k.quiet ((haltState 0x20 id).stall 0) pos0 = true ∧ k.halt.toSave = false ∧ k.halt.nest = false ∧ k.cslot = some 0
    ∧ ringOn ((haltState 0x20 id).stall 0).scring = true ∧ (haltState 0x20 id).supWaits 0 = false
    ∧ (haltState 0x20 id).exportsAt (slotAddr 0x0100400004000000 0) 64 = [] ∧ (haltState 0x20 id).haltWay pos0 k = .host ∧ ∀ x ∈ k.squads, x.2.sup = false :=
  some_wit (by decide +kernel)
theorem wit_halt_waits : ∃ k, (withQ (haltState 0x20 id) fun q => { q with sq := [aStore] }).block? pos0 = some k
    ∧ k.quiet ((haltState 0x20 id).stall 0) pos0 = false := some_wit (by decide)
/-- A kernel header of a form and width, with one word of code; the supervisor stands at 0x80000. -/
def khead (form width : Byte) : List Byte := leBytes 4 0x314E4450 ++ [1, 0, form, 0, width, 1, 0, 0] ++ List.replicate 8 0 ++ leBytes 2 256
  ++ List.replicate 10 0 ++ leBytes 4 1 ++ List.replicate 220 0
def near5 (s : State) (a : Nat) : State := (List.range 5).foldl (fun s k => near s (a + 64 * k)) s
def supState : State := poke (near5 (withT (haltState 0x21 id) fun t => { t with svec := 0x80001 }) (State.reset.localPa 0 0x80000)) (State.reset.localPa 0 0x80000) (khead 1 16)
theorem wit_halt_supervisor : ∃ k, supState.block? pos0 = some k ∧ supState.haltWay pos0 k = .supervisor 0x80100
    ∧ supState.supWaits 0 = false
    ∧ (supState.core 0 0).supFree (k.halt.psq % 4) = true ∧ ((Tab.find? k.squads k.halt.psq).map (·.sup)) = some false :=
  some_wit (by decide +kernel)
theorem wit_async (run : Bool) : ∃ k, (haltState 0x20 fun h => { h with phase := if run then .run else .halted, pendAsync := [0x2C] }).block? pos0 = some k
    ∧ (k.halt.phase = .run ↔ run = true) ∧ k.halt.pendJob = [] ∧ k.halt.pendAsync = [0x2C] := by cases run <;> exact some_wit (by decide)
theorem wit_job_fault : ∃ k, (haltState 0x20 fun h => { h with phase := .run, pendJob := [⟨0x26, 1, 0, 0, 0, 0, 0, 0⟩] }).block? pos0 = some k
    ∧ k.halt.phase = .run ∧ k.halt.pendJob = [⟨0x26, 1, 0, 0, 0, 0, 0, 0⟩] := some_wit (by decide)
def saveState (n : Nat) (j : List CopyJob) : State :=
  withT (withC (haltState 0x78 fun h => { h with phase := .saving }) fun c => { c with copies := j }) fun t => { t with clock := n, slots := [0] }
theorem wit_save : ∃ k, (saveState 0 []).block? pos0 = some k ∧ (saveState 0 []).gangOf pos0 = [(pos0, k)] ∧ k.halt.phase = .saving
    ∧ k.halt.pendJob = [] ∧ (saveState 0 []).saveReady pos0 k = true ∧ k.cslot = some 0 := some_wit (by decide +kernel)
theorem wit_save_fault : ∃ k, (haltState 0x78 fun h => { h with phase := .saving, pendJob := [⟨0x26, 1, 0, 0, 0, 0, 0, 0⟩] }).block? pos0 = some k
    ∧ (haltState 0x78 fun h => { h with phase := .saving, pendJob := [⟨0x26, 1, 0, 0, 0, 0, 0, 0⟩] }).gangOf pos0 = [(pos0, k)]
    ∧ k.halt.phase = .saving ∧ k.halt.pendJob ≠ [] := some_wit (by decide +kernel)
theorem wit_save_timeout (n : Nat) (h : n = 41999 ∨ n = 42000) : ∃ k, (saveState n [copyJob 0x4000 (some 0) none]).block? pos0 = some k
    ∧ k.halt.saveFrom = 0 ∧ ((saveState n [copyJob 0x4000 (some 0) none]).stall 0).clock = n
    ∧ (saveState n [copyJob 0x4000 (some 0) none]).saveReady pos0 k = false
    ∧ ((saveState n [copyJob 0x4000 (some 0) none]).core 0 0).copies = [copyJob 0x4000 (some 0) none] := by
  rcases h with rfl | rfl <;> exact some_wit (by decide +kernel)
def aSaved : Saved := ⟨1, 0, 0, 1, none, false, BlockHalt.reset, [], [], [], [], .grid, 4, 4, ⟨[], 0, false, 0⟩, [], [], [], [], 0, []⟩
def restLaunch : Launch := { tinyLaunch with next := 1, evicted := [0] }
def restState : State := { tiny with stalls := [(0, { Stall.reset with launches := [restLaunch], saved := [aSaved], savea := 0x0100400004000000 })] }
theorem wit_restore : (restState.stall 0).nextLaunch = some restLaunch ∧ (restState.stall 0).pausePlace = false
    ∧ (restState.stall 0).evictsFor 1 0 = false ∧ (restState.stall 0).restorePicks restLaunch = some [(aSaved, 0)] := by decide +kernel

/-! ## Witnesses: registers and tables -/

theorem wit_registers : let t := State.reset.stall 0
    (t.blocks 0).isEmpty = true ∧ t.saved = [] ∧ t.early = [] ∧ t.launches = [] ∧ t.shoots = [] ∧ t.revokes = [] ∧ State.reset.passes = []
      ∧ t.sharers = [] ∧ t.drained State.reset.nextId = true ∧ ((tiny.stall 0).blocks 0).isEmpty = false := by decide
theorem wit_registers_values : field (0xFFE0000000000000 : DWord) 63 53 = 2047 ∧ field (0x8000000000000000 : DWord) 63 53 = 1024
    ∧ field (12 : DWord) 3 0 = 12 ∧ field (13 : DWord) 3 0 = 13 ∧ field (0x8100000000000000 : DWord) 63 56 = 129 := by decide
theorem wit_early : ((withT tiny fun t => { t with early := [aMsg 1] }).stall 0).early ≠ [] := by decide
/-- A shootdown that has not been taken up; and accesses below 5 that are not performed, or none. -/
theorem wit_shoot_new : let s := withT tiny fun t => { t with shoots := [⟨false, 4, 1, 0, false, none⟩] }
    (s.stall 0).shoots = [⟨false, 4, 1, 0, false, none⟩] := by decide
theorem wit_shoot (b : Bool) : let s := withT tiny fun t => { t with shoots := [⟨false, 4, 1, 5, true, none⟩], wbuf := if b then [] else [⟨1, 1, none, 0, [7]⟩] }
    (s.stall 0).shoots = [⟨false, 4, 1, 5, true, none⟩] ∧ (s.stall 0).drained 5 = b := by cases b <;> decide
/-- One export table of 2,048 entries at 0x10000; generation 255 of entry 3. -/
def exportState : State := let s : State := { withT tiny (fun t => { t with expt := 0x0100000000010000 }) with site := [(0, 0x4000)] }
  poke s (s.localPa 0 (0x10000 + 32 * 3) + 13) [255]
theorem wit_export : let s := exportState
    s.stallAt (s.siteOf 0) = some 0 ∧ field (s.stall 0).expt 40 16 * 65536 + 65536 * field (s.stall 0).expt 63 56 ≤ 2 ^ 41
      ∧ s.mem.num (s.localPa 0 (field (s.stall 0).expt 40 16 * 65536 + 32 * 3) + 12) 1 / 8 % 2 = 0 ∧
    2048 * field (s.stall 0).expt 63 56 = 2048
      ∧ s.mem.num (s.localPa 0 (field (s.stall 0).expt 40 16 * 65536 + 32 * 3) + 13) 1 = 255 := by decide
theorem wit_crt : let s := State.reset
    Tab.get 0 (s.stall 0).crt 2 = 0x8002 ∧ field (0x0001000000000000 : DWord) 63 48 = (field (0x8002 : DWord) 63 48 + 1) % 65536
      ∧ field (0x0001000000000008 : DWord) 5 0 / 9 = 2 / 8
      ∧ ∀ k, k < 48 → k ≠ 2 → (Tab.get 0 (s.stall 0).crt k).getLsbD 15 = true → field (Tab.get 0 (s.stall 0).crt k) 5 0 ≠ 8 := by decide +kernel
theorem wit_market : let old := Tab.get ((0 : DWord), (0 : Word)) State.reset.market 15
    old.2.getLsbD 30 = false ∧ (0x80000000 : Word).getLsbD 31 = true ∧ State.reset.fifthMarket 15 3 = false
      ∧ ((0xC0000000 : Word)).getLsbD 30 = true := by decide
theorem wit_finaliser_stops : let s := withT tiny fun t => { t with launches := [{ tinyLaunch with fin := true }] }
    errs ((away s 0x20000).kheadAt 0 tinyLaunch.kern.kaddr) (waitOn 0x800) = true
      ∧ errs ((withT s fun t => { t with troot := 0 }).kheadAt 0 tinyLaunch.kern.kaddr) 0x21 = true := by decide +kernel
/-- A launch whose kernel at 0x20000 is unfinalised: its width is 16, or 0. -/
def finState (width : Byte) : State := poke (withT (near5 tiny 0x20000) fun t => { t with launches := [{ tinyLaunch with fin := true }] })
  (State.reset.localPa 0 0x20000) (khead 0 width)
theorem wit_finaliser (w : Byte) (h : w = 0 ∨ w = 16) : ((finState w).stall 0).launches[0]? = some { tinyLaunch with fin := true }
    ∧ ((finState w).kheadAt 0 tinyLaunch.kern.kaddr).isOk = true
    ∧ ((finState w).imageAt 0 tinyLaunch.kern.kaddr (khead 0 w)).isOk = true ∧ ((finState w).stall 0).code = []
    ∧ ((finalise (khead 0 w) (khead 0 w ++ List.replicate 8 0)).isOk = true ↔ w = 16) := by
  rcases h with rfl | rfl <;> decide +kernel
theorem wit_code_room : ((withT tiny fun t => { t with codea := 0x0020020000010000 }).storeCode 0 [] 0 [1, 2, 3, 4, 5, 6, 7, 8]).1.isSome = true := by
  decide +kernel
theorem wit_code_area (t : Stall) (img : List Byte) (v : Word) :
    Stall.codeFind { t with code := [⟨shake256 img, v, 0x4000, 256, 0, 0x100, 1⟩] } (shake256 img) v
      = some ⟨shake256 img, v, 0x4000, 256, 0, 0x100, 1⟩ := by simp [Stall.codeFind]

/-! ## Witnesses: the package -/

/-- Stall 0 at site 0. -/
def booted : State := { tiny with site := [(0, 0x4000)] }
theorem wit_host_access (n : Nat) (h : n = 16 ∨ n = 64) : booted.devRange 0x4000 n = true ∧ booted.lostLines 0x4000 n = []
    ∧ State.lostLines { booted with lost := [(0x100, 1)] } 0x4000 n ≠ [] ∧ booted.devRange (2 ^ 51) n = false := by
  rcases h with rfl | rfl <;> decide +kernel
theorem wit_host_write : booted.devRange 0x4030 [(1 : Byte)].length = true ∧ 0x4030 % 64 + [(1 : Byte)].length ≤ 64 ∧ booted.inbound = []
    ∧ (booted.homeLine (0x4030 / 64)).t = 64 ∧ (State.homeLine { booted with home := [(0x4030 / 64, ⟨63, true, none⟩)] } (0x4030 / 64)).t = 63 := by
  decide +kernel
theorem wit_errors (n : Nat) (h : n = 4 ∨ n = 5) : ∃ k, (withT tiny fun t => { t with ceRest := 5, ceCount := BitVec.ofNat 32 n }).block? ⟨0, 0, 0⟩ = some k
    ∧ (((withT tiny fun t => { t with ceRest := 5, ceCount := BitVec.ofNat 32 n }).core 0 0).off = false)
    ∧ ((BitVec.ofNat 32 n + 1).toNat = field ((5 : Word).zeroExtend 64) 15 0 + 1 ↔ n = 5) ∧ 8 * 3 + 8 ≤ k.kern.pad ∧ 8 * 3 + 8 ≤ k.kern.am := by
  rcases h with rfl | rfl <;> exact some_wit (by decide)
theorem wit_errors_pad : ∃ k, tiny.block? ⟨0, 0, 0⟩ = some k ∧ field (((tiny.stall 0).ceRest).zeroExtend 64) 15 0 = 0
    ∧ ((tiny.stall 0).core 0).ceTimes = [] := some_wit (by decide)
theorem wit_ports : 1 < State.reset.hostUp.length := by decide
theorem wit_boot : State.reset.site = [] ∧ State.reset.firm = [] ∧ State.reset.floors = []
    ∧ (State.site { State.reset with site := [(0, 0x4000)] } ≠ []) := by decide
theorem wit_firmware : (3, 1) ∉ State.reset.pendFirm ∧ (3, 1) ∈ State.pendFirm { State.reset with pendFirm := [(3, 1)] } := by decide
theorem wit_edge : mapBit (State.edge { State.reset with edge := (8, 0) }) 3 = true := by decide
/-- Core 0 retires for spare 8, the first of its row; CRT entry 0 names it. -/
def retireState : State := { withT State.reset fun t => { t with cores := [(0, { Core.reset with retst := BitVec.ofNat 32 (2 ^ 30 + 8 * 2 ^ 16) })] } with
  retired := [] }
theorem wit_retire : let s := retireState
    let t := s.stall 0
    (t.core 0).retst = BitVec.ofNat 32 (2 ^ 30 + 8 * 2 ^ 16 + 0 * 2 ^ 8 + 0) ∧ (t.core 0).off = false ∧ (t.core 0).blocks = []
      ∧ (∀ d, d < 54 → d ≠ 0 → field ((t.core d).retst.zeroExtend 64) 31 30 ≠ 1)
      ∧ field (Tab.get 0 t.crt 0) 5 0 = 0 ∧ (Tab.get 0 t.crt 0).getLsbD 15 = true ∧ t.spareOf 0 = 8
      ∧ s.crtOk 0 0 (Tab.get 0 t.crt 0) (retireEntry (Tab.get 0 t.crt 0) 8) = true := by decide +kernel
theorem wit_no_retire : ∀ c, c < 54 → field (((tiny.stall 0).core c).retst.zeroExtend 64) 31 30 ≠ 1 := by decide
def migState : State := withT State.reset fun t => { t with crt := t.crt.put 0 0xC008 }
theorem wit_mig : (Tab.get 0 (migState.stall 0).crt 0).getLsbD 14 = true ∧ migState.retireHeld 0 0 = false ∧ (migState.stall 0).migbuf = [] := by decide
theorem wit_mig_held : let s := withT migState fun t => { t with cores := [(0, { Core.reset with retst := BitVec.ofNat 32 (2 ^ 30 + 8 * 2 ^ 16), blocks := [(0, gangBlock 0)] })] }
    (Tab.get 0 (s.stall 0).crt 0).getLsbD 14 = true ∧ s.retireHeld 0 0 = true := by decide
def moveState : State := { State.reset with fwd := (0x1FF, 0), site := [(0, 0x4000)] }
theorem wit_stall_move : moveState.spareSite 8 = true ∧ moveState.siteState 0 = 1 ∧ ((moveState.stall 0).blocks 0).isEmpty = true
    ∧ moveState.spareSite 0 = false := by decide +kernel

/-! ## Witnesses: divergence, reform and exit -/

/-- p0 reads true in the lanes below n alone. -/
def someL (s : State) (n : Nat) : State := withQ s fun q => { q with lanes := q.lanes.map fun x =>
  (x.1, if x.1 < n then { x.2 with p := 1 } else x.2) }
def thereOf (x : Transfer) (c : Ctx) : List (Nat × Lane) := c.act.map fun y => (y.1, x.linked c y.2)
def hereOf (c : Ctx) : List (Nat × Lane) := c.present.filter fun y => !c.act.any fun z => z.1 = y.1
def groupOf (ys : List (Nat × Lane)) (pc : DWord) (live : Nat) : FGroup :=
  ⟨ys.map (·.1), pc, live, none, false, ys.map fun y => (y.1, y.2, y.2.helper)⟩
def Splits (x : Transfer) (p : DWord) (c : Ctx) : Prop := c.blk.kern.quad = false ∧ c.sq.sup = false
  ∧ (∀ y ∈ c.act, x.check c y.1 y.2 = none ∧ x.target c y.1 y.2 = p) ∧ c.act ≠ [] ∧ hereOf c ≠ [] ∧ p ≠ c.sq.pc + 8
  ∧ ∀ y ∈ c.sq.lanes, y.2.at' = .issue
/-- The crate's 64 bins are taken. -/
def noRoom (s : State) : State := withC s fun c => { c with recs := (List.range 64).map fun n =>
  { aRec n false with pc := BitVec.ofNat 64 (0x30000 + 8 * n) } }
/-- A branch that three lanes of four take, or two, with room and without: the crate's records are none or fill its bins. -/
theorem wit_diverges (n : Nat) (full : Bool) (h : n = 2 ∨ n = 3) :
    ∃ x c, transfer? (.bra hNo 1 0) = some x ∧ Runs (if full then noRoom (someL tiny n) else someL tiny n) (.bra hNo 1 0) c
      ∧ Splits x 0x20110 c ∧ c.sq.loops = [] ∧ x.direct = true ∧ (thereOf x c).length = n
      ∧ c.s.roomFor c.q c.sq.role [groupOf (if n = 3 then hereOf c else thereOf x c) (if n = 3 then 0x20108 else 0x20110) 0] = !full := by
  unfold Splits
  rcases h with rfl | rfl <;> cases full <;> exact word_wit (by decide +kernel)
/-- A jump of two lanes to a word behind. -/
theorem wit_diverges_jump : ∃ x c, transfer? (.jmp hNo (.sca 2) 0 0) = some x ∧ Runs (someL landed 2) (.jmp hNo (.sca 2) 0 0) c
    ∧ Splits x 0x20110 c ∧ c.sq.loops = [] ∧ x.direct = false
    ∧ c.s.roomFor c.q c.sq.role [groupOf (thereOf x c) 0x20110 0] = true := by
  unfold Splits; exact word_wit (by decide +kernel)
/-- The same branch in a loop's body of four words, and of three, which it leaves. -/
theorem wit_diverges_loop (len : Nat) (h : len = 4 ∨ len = 2) : let m : Loop := ⟨0x20100, len, 0, [0, 1, 2, 3]⟩
    ∃ x c, transfer? (.bra hNo (if len = 4 then 1 else 2) 0) = some x
      ∧ Runs (withQ (someL tiny 3) fun q => { q with lc := [(0, 2)], loops := [m] }) (.bra hNo (if len = 4 then 1 else 2) 0) c
      ∧ Splits x (if len = 4 then 0x20110 else 0x20118) c ∧ c.sq.loops = [m] ∧ (∀ y ∈ c.present, y.1 ∈ m.entered) ∧ c.sq.pc + 8 ≠ m.endPc
      ∧ m.holds (if len = 4 then 0x20110 else 0x20118) = (len = 4 : Bool) := by
  unfold Splits
  rcases h with rfl | rfl <;> exact word_wit (by decide +kernel)
/-- Lane 3 held at another PC, with room to file it and without. -/
def oneHeld : State := withQ tiny fun q => { q with lanes := q.lanes.map fun x => (x.1, if x.1 = 3 then { x.2 with at' := .held heldLane } else x.2) }
theorem wit_transfer_files (full : Bool) : ∃ x c, transfer? (.bra h0 1 0) = some x ∧ Runs (if full then noRoom oneHeld else oneHeld) (.bra h0 1 0) c
    ∧ c.blk.kern.quad = false ∧ c.sq.sup = false ∧ (∀ y ∈ c.act, x.check c y.1 y.2 = none ∧ x.target c y.1 y.2 = 0x20110) ∧ c.act ≠ []
    ∧ c.act = c.present ∧ c.sq.loops = [] ∧ heldLane.bar = none ∧ heldLane.left = [] ∧ heldLane.pc ≠ 0x20110
    ∧ (∀ y ∈ c.sq.lanes, y.2.at' = .issue ∨ y.2.at' = .held heldLane) ∧ (∃ y ∈ c.sq.lanes, y.2.at' = .held heldLane)
    ∧ c.s.roomFor c.q c.sq.role [groupOf (c.sq.lanes.filter fun y => y.2.at' = .held heldLane) heldLane.pc heldLane.live] = !full := by
  cases full <;> exact word_wit (by decide +kernel)
theorem wit_diverges_ordered : Ordered (noRoom (someL tiny 2)) ∧ Ordered (noRoom oneHeld) ∧ Ordered (someL landed 2) :=
  ⟨ordered_of (by decide +kernel), ordered_of (by decide +kernel), ordered_of (by decide +kernel)⟩
/-- A quad-locked squad of one quad in a role with another squad; lane 3 is a helper. -/
def quadState : State := withK (two.modSquad ⟨0, 0, 0, 1⟩ fun q => { q with lanes := q.lanes.map fun x => (x.1, { x.2 with helper := x.1 = 3 }) })
  fun k => { k with quad := true }
theorem wit_reform_quads : ∃ c, Runs quadState (.reform false 4) c ∧ c.sq.loops = [] ∧ c.sq.sup = false ∧ (∀ y ∈ c.sq.lanes, y.2.at' = .issue)
    ∧ c.blk.kern.quad = true ∧ (c.sq.full c.blk.kern.width true || c.sq.agedDraw || !c.s.othersOf c.q c.sq.role) = false ∧ c.present.length = 4
    ∧ (c.present.filter fun y => y.2.helper).length = 1 ∧ c.s.roomFor c.q c.sq.role [groupOf c.present 0x20108 4] = true := runs_wit (by decide +kernel)
/-- Two lanes of four end. -/
theorem wit_exit_some : ∃ c, Runs (someL tiny 2) (.exit hNo) c ∧ (c.act.filter fun y => !y.2.helper).length = 2
    ∧ (c.present.filter fun y => !y.2.helper && !c.act.any fun z => z.1 = y.1).length = 2 := runs_wit (by decide)
theorem wit_pkill : ∃ c, Runs (withK tiny fun k => { k with quad := true }) (.pkill h0) c ∧ c.act ≠ [] ∧ c.blk.kern.quad = true := runs_wit (by decide)

/-! ## Witnesses: what waits for a clock's end, for a unit or for an answer -/

/-- A turn of the clock with a block in place, which has no write of a control register pending. -/
theorem wit_tick : let s : State := { tiny with agenda := [.tick 0 1] }
    s.agenda = .tick 0 1 :: [] ∧ (s.block? pos0).map (·.crw) = some [] := by decide
/-- An earlier word of the clock has written MQB. -/
theorem wit_menq_moves : ∃ c, Runs (withB (menqState 5 1 false) fun b => b.crLater 0 0x010 0x04000000) iMenq c ∧ c.real ≠ none
    ∧ c.blk.kern.mqEnt ≠ 0 ∧ c.blk.mCheck (mRec c) = none ∧ c.blk.mqbMoves = true := runs_wit (by decide)
/-- A word behind a qget that waits. -/
def asking (s : State) : State := withQ s fun q => { q with asks := [⟨1, 8, 0⟩] }
theorem wit_behind_qget : (∃ c, Runs (asking taskState) (.tdone h0 (.sca 2) (.imm 1)) c ∧ c.real ≠ none ∧ c.s.squadQuiet c.q = false ∧ c.sq.asks ≠ [])
    ∧ (∃ c, Runs (asking (pipeState false 1)) iPut c ∧ c.real ≠ none ∧ c.sq.asks ≠ [])
    ∧ ∃ c, Runs (asking (sendState 0x80000000 0)) iSend c ∧ c.real ≠ none ∧ c.sendCause (sendX c) = none ∧ 0 < c.blk.credits
      ∧ (sendX c).getLsbD 31 = true ∧ c.s.squadQuiet c.q = false ∧ c.sq.asks ≠ [] :=
  ⟨runs_wit (by decide), runs_wit (by decide), runs_wit (by decide +kernel)⟩
/-- A hit bit of a slot that is not armed, with the other armed. -/
theorem wit_wait_old_hit : ∃ c, Runs (withQ tiny fun q => { q with w0 := ⟨false, true, .pad 0, 0⟩, w1 := ⟨true, false, .pad 0, 0⟩ })
    (.wait h0 (.vec 1) (.imm 0)) c ∧ c.act ≠ [] ∧ (c.sq.w0.armed = true ∨ c.sq.w1.armed = true) ∧ c.sq.hits ≠ 0 := runs_wit (by decide)
/-- A copy whose card stands behind one that writes the line it reads. -/
theorem wit_copy_behind : let s := withT (copyRun (copyJob 0x4000 (some 0) none)) fun t => { t with
      cards := [⟨7, 0, 0, [], [⟨0, (0, 0), 0x4000, 4⟩]⟩, ⟨0, 0, 1, [⟨0, (0, 0), 0x4000, 16⟩], [⟨0, (0, 0), 0x5000, 16⟩]⟩] }
    (s.core 0 0).copies[0]? = some (copyJob 0x4000 (some 0) none) ∧ (copyJob 0x4000 (some 0) none).card = 0
      ∧ (s.stall 0).cards.map (·.id) = [7, 0] ∧ 0x4000 < 0x4000 + 4 := by decide
/-- A lane of the supervisor's own squad to which sret returns. -/
theorem wit_sret_lane : ∃ c, Runs inSup (.sret h0 0) c ∧ (∃ y ∈ c.sq.lanes, Tab.get y.2.at' c.sq.hr.ats y.1 = .issue)
    ∧ ∀ m ∈ c.sq.hr.loops, m.endPc ≠ c.sq.hr.epc := runs_wit (by decide)
/-- A squad that may go on, and one of a block that is halted. -/
theorem wit_lets_go (b : Bool) : ∃ k q, (withB inLoop fun k => { k with halt := { k.halt with phase := if b then .run else .halted } }).block? pos0 = some k
    ∧ (withB inLoop fun k => { k with halt := { k.halt with phase := if b then .run else .halted } }).squad? sel0 = some q
    ∧ k.letsGo q = b ∧ q.loops ≠ [] := by
  cases b
  · exact ⟨_, _, rfl, rfl, by decide, by decide⟩
  · exact ⟨_, _, rfl, rfl, by decide, by decide⟩
/-- A spilled record whose bytes can be read, and one whose bytes cannot; and a bin drawn with nothing spilled. -/
def shareState (b : Bool) : State := let s := withT (agedState true) fun t => { t with cspill := 0x0100000000001000 }
  if b then (List.range 2).foldl (fun s k => near s (s.shareAddr 0 0 0 + 64 * k)) s else away s (s.shareAddr 0 0 0)
theorem wit_share (b : Bool) : (((shareState b).core 0 0).recs.filter (·.spilled)) = [aRec 0 true]
    ∧ (aRec 0 true).size ≤ ((shareState b).core 0 0).crateFree ∧ (shareState b).shareReady 0 0 [aRec 0 true] = b := by
  cases b <;> decide +kernel
theorem wit_draw_ready : drawState.shareReady 0 0 [aRec 0 false] = true := by decide
/-- A gang of eight whose queues hold MGANG join. -/
def gangOf8 : State := withT tiny fun t => { t with cores := (List.range 8).map fun i =>
  (i, { Core.reset with blocks := [(0, { gangBlock i with gang := 8 })] }) }
theorem wit_gang_eight : ∃ b, gangOf8.block? pos0 = some b ∧ b.mHead = some 0x107 ∧ b.engineRuns = true ∧ b.eng.unitsFree 0x107 = true
    ∧ b.headClear 0x107 = true ∧ b.dispatchCause 0x107 = none ∧ gangOf8.engineRoom pos0 b 0x107 = true ∧ b.eng.dispatched = none
    ∧ (gangOf8.gangBlocks pos0 b).length = 8 ∧ (pos0, b) ∈ gangOf8.gangBlocks pos0 b ∧ ((gangOf8.gangBlocks pos0 b).map (·.1)).Nodup
    ∧ gangOf8.rendezvous pos0 b = some true
    ∧ ∀ m ∈ gangOf8.gangBlocks pos0 b, m.2.presents 0 = some 0x107 ∧ m.2.ringCause 0x107 = none := some_wit (by decide +kernel)

/-! ## Witnesses: tokens on their way, far operations and messages that fire -/

/-- A line that came for a unit: it has read it, asks for it still, or waits for it. -/
def unitState (t : Nat) (wanted : Bool) : State := withT (lineState t .none) fun x => { x with
  cores := (tiny.stall 0).cores, want := [(0, if wanted then 1000 else 0)], clock := 1000 }
theorem wit_unit_line (t : Nat) (w : Bool) (h : t = 0 ∨ t = 1) : (unitState t w).wantsRead 0 0 = false ∧ ((unitState t w).stall 0).wanted 0 = w
    ∧ Tab.find? ((unitState t w).stall 0).want 0 ≠ none ∧ ((unitState t w).dcLine 0 0).t = t ∧ ((unitState t w).dcLine 0 0).v = (t = 1 : Bool)
    ∧ ((unitState t w).dcLine 0 0).miss = .none := by
  rcases h with rfl | rfl <;> cases w <;> decide
/-- Homes without the owner token, and without any. -/
theorem wit_transient_forwards (t : Nat) (w : Bool) (h : t = 0 ∨ t = 2) :
    let s : State := { tiny with net := [.trans 0 w 1 0 true], home := [(0, ⟨t, decide (w = true ∧ t ≠ 0), some 6⟩)] }
    s.net[0]? = some (.trans 0 w 1 0 true) ∧ (w = false → (s.homeLine 0).o = false) ∧ ((s.homeLine 0).t = 0 → (s.homeLine 0).o = false) := by
  rcases h with rfl | rfl <;> cases w <;> decide
/-- Tokens at a die cache, at their home and on their way, where the rules put them. -/
theorem wit_tokens : TokenForm { lineState 2 .none with net := [.token 0 1 true true false false 1 0 true, .trans 0 true 1 63 true] } :=
  tokenForm_of (by decide)
/-- A far operation whose squad waits for its result. -/
def farEnt : SqEnt := { SqEnt.plain (.atomic (.int .add .i32) (aFar sel0).lanes) with id := 1, flight := some 1 }
def farWaits : State := withQ (farState sel0 64) fun q => { q with sq := [farEnt], flight := [{ aFlight with vals := [], perf := false, byQueue := true }] }
theorem wit_far_resident : ∃ q, farWaits.squad? sel0 = some q ∧ farWaits.farReady (aFar sel0) = true ∧ farWaits.lostAny 0 4 = false
    ∧ farWaits.exportsAt 0 4 = [] ∧ q.lanes ≠ [] ∧ q.sq = [farEnt] ∧ farEnt.id = (aFar sel0).sqid ∧ farEnt.acq = none
    ∧ q.flight.map (·.id) = [1] ∧ (q.flight.map (·.dst)) ≠ [[]] ∧ (farWaits.stall 0).far[0]? = some (aFar sel0) := some_wit (by decide +kernel)
/-- A message whose arm tag fires. -/
theorem wit_message_fires : let m : NiMsg := { aMsg 0 with fire := true, armtag := 2 }
    (boxState 0 [.send m]).net[0]? = some (.send m) ∧ ((boxState 0 [.send m]).stall m.dstall).expects m = m.seq ∧ m.fire = true := by decide

/-! ## Witnesses: queues, halts and saves -/

/-- A queue that has just been switched on, whose state block at 0x9000 can be read or not. -/
def startState (b : Bool) : State :=
  let s := withT (queueState 1 1) fun t => { t with queues := [(1, ⟨0, 0, true, 0, none, false, []⟩)], qdesc := t.qdesc.wrs 40 (leBytes 8 0x9000) }
  if b then near s 0x9000 else away s 0x9000
theorem wit_queue_starts (b : Bool) : ((startState b).stall 0).qd 1 22 1 % 2 = 1 ∧ (((startState b).stall 0).queue 1).starts = true
    ∧ (startState b).readableAt 0 ((startState b).queueBlock 0 1) 16 = b ∧ (startState b).queueBlock 0 1 = 0x9000 := by
  cases b <;> decide +kernel
/-- A SIGNAL of a queue that still owes the writes of a launch that an abort ended. -/
theorem wit_signal_owes : let e := sigEnt 0x4000 .running
    let s := withT (entState e) fun t => { t with wbuf := [⟨0, 0, none, 0, [7]⟩], queues := [(1, ⟨0, 0, false, 0, none, false, [⟨0, none, 1⟩]⟩)] }
    s.owes 0 e.q = true ∧ (s.stall 0).entries[0]? = some e := by decide +kernel
/-- An MLAUNCH whose market is free, and one that has it. -/
theorem wit_mlaunch_market : let e := anEnt 2 [] .fetched
    let s (b : Bool) : State := { entState (if b then { e with market := some 0 } else e) with market := [(0, 1, if b then 0xC0000000 else 0x80000000)] }
    (s false).busy (sliceNum e.bytes 24 1) = false ∧ ((s true).stall 0).mayStart { e with market := some 0 } = true
      ∧ (∀ x ∈ (s true).members 0, (s true).cardWaits x e.card none = false) ∧ (s true).members 0 = [0] := by decide +kernel
/-- A halt with a step still to take; blocks at the record's other side: the supervisor's file is taken, or its image waits. -/
theorem wit_halt_unsettled : ∃ k, (withQ (haltState 0x20 id) fun q => { q with stepped := true }).block? pos0 = some k ∧ k.settled = false
    ∧ k.halt.phase = .halting ∧ k.halt.psq ≠ 0xFF := some_wit (by decide)
theorem wit_halt_settled : ∃ k, (haltState 0x20 id).block? pos0 = some k ∧ k.settled = true ∧ causeClass k.halt.cause ≠ .fatal := some_wit (by decide)
def toSup (s : State) : State := withB s fun b => { b with halt := { b.halt with phase := .toSup } }
theorem wit_supervisor (w : Bool) : ∃ k, (if w then away (toSup supState) 0x80000 else toSup supState).block? pos0 = some k ∧ k.halt.phase = .toSup
    ∧ k.halt.nest = false ∧ causeClass k.halt.cause = .sup ∧ State.supWaits (if w then away (toSup supState) 0x80000 else toSup supState) 0 = w := by
  cases w <;> exact some_wit (by decide +kernel)
theorem wit_supervisor_file (b : Bool) : let s := withC (toSup supState) fun c => { c with supOwner := if b then [] else [(0, 1, 0)] }
    ∃ k, s.block? pos0 = some k ∧ (s.supRead 0).haltWay pos0 k = .supervisor 0x80100 ∧ ((s.supRead 0).core 0 0).supFree (k.halt.psq % 4) = b
      ∧ (Tab.find? k.squads k.halt.psq).map (·.sup) = some false := by cases b <;> exact some_wit (by decide +kernel)
/-- A fault of a job whose block has ended. -/
theorem wit_job_fault_left : let s := withC tiny fun c => { c with blocks := [], left := c.blocks.map fun b =>
      (16, { b.2 with halt := { b.2.halt with pendJob := [⟨0x26, 1, 0, 0, 0, 0, 0, 0⟩] } }) }
    (s.block? ⟨0, 0, 16⟩).map (·.halt.pendJob) = some [⟨0x26, 1, 0, 0, 0, 0, 0, 0⟩] := by decide
/-- A small block with its saved image, on a stall with a die cache. -/
def smallKern : Kern := { placedKern with pad := 4096, am := 0 }
def imageState (d : Tab DcLine) : State := withT restState fun t => { t with launches := [{ restLaunch with kern := smallKern }], dc := d }
/-- A die cache with a token of each of n lines. -/
def heldLines (a n : Nat) : Tab DcLine := (List.range n).map fun k => (a + k, { DcLine.empty with t := 1, v := true })
theorem heldLines_find {a n l : Nat} (h : a ≤ l) (h' : l < a + n) : Tab.find? (heldLines a n) l = some { DcLine.empty with t := 1, v := true } := by
  refine Tab.find?_of_mem ?_ (List.mem_map.mpr ⟨l - a, List.mem_range.mpr (by omega), by rw [Nat.add_sub_cancel' h]⟩)
  rw [Tab.keys, heldLines, List.map_map, List.Nodup, List.pairwise_map]
  exact List.nodup_range.imp fun {a b} h => by simpa using h
theorem imageState_dc (d : Tab DcLine) : ((imageState d).stall 0).dc = d := rfl
theorem heldLines_readable {a n z : Nat} (h : 0 < z) (m : z ≤ 64 * n) : (imageState (heldLines a n)).readableAt 0 (64 * a) z = true := by
  simp only [State.readableAt, List.all_eq_true, linesOf, if_neg (Nat.ne_of_gt h), List.mem_map, List.mem_range]
  rintro _ ⟨k, hk, rfl⟩
  simp [State.readable, State.dcLine, Tab.get, imageState_dc, heldLines_find (a := a) (n := n) (l := a + k) (by omega) (by omega)]
theorem wit_restore_image (b : Bool) : (imageState (if b then heldLines 0x100100 1088 else [])).imageReady 0 smallKern aSaved = b := by
  cases b
  · decide +kernel
  · have a : (imageState (heldLines 0x100100 1088)).imageAddr 0 aSaved = 64 * 0x100100 := by decide +kernel
    have z : (imageState (heldLines 0x100100 1088)).imageSize 0 smallKern aSaved = 69632 := by decide +kernel
    simp only [if_true, State.imageReady, a, z, heldLines_readable (a := 0x100100) (n := 1088) (z := 0xC000) (by decide) (by decide),
      heldLines_readable (a := 0x100100) (n := 1088) (z := 69632) (by decide) (by decide)]
    rfl
theorem wit_restore_small : (((imageState []).stall 0).restorePicks { restLaunch with kern := smallKern }).isSome = true := by decide +kernel
theorem wit_queue_descriptor : (0x0002000000000000 : DWord).getLsbD 49 = true := by decide

/-! ## Witnesses: registers and the package -/

theorem wit_shoot_performs : (tiny.stall 0).shoots = [] ∧ (tiny.stall 0).revokes = [] := by decide
/-- SPDM: requests of a connection that has not begun, and of one that measures. -/
theorem wit_spdm : (tiny.conn 0).stage ≠ 3 ∧ State.conn { tiny with spdm := [(0, { Spdm.reset with stage := 3 })] } 0 = { Spdm.reset with stage := 3 }
    ∧ spdmBytes 0x7E 0 = none := by decide
/-- A core whose spare the swap cannot use, for another entry names it; one with no spare; and one taken out by a move. -/
theorem wit_retire_kept : let s := withT retireState fun t => { t with crt := t.crt.put 1 0x8008 }
    s.crtOk 0 0 (Tab.get 0 (s.stall 0).crt 0) (retireEntry (Tab.get 0 (s.stall 0).crt 0) 8) = false := by decide +kernel
theorem wit_mig_swapped : let s := withT migState fun t => { t with cores := [(0, { Core.reset with retst := BitVec.ofNat 32 (2 ^ 30 + 8 * 2 ^ 16) })] }
    (Tab.get 0 (s.stall 0).crt 0).getLsbD 14 = true ∧ (s.stall 0).retiring 0 = some 0 ∧ 0 ≠ field (Tab.get 0 (s.stall 0).crt 0) 5 0
      ∧ s.retireHeld 0 0 = false ∧ (s.stall 0).migbuf = [] := by decide
theorem wit_mig_not_ours : (migState.stall 0).retiring 0 = none := by decide
theorem wit_lost (n : Nat) (h : n = 1 ∨ n = 2) : let s : State := { State.reset with site := [(0, BitVec.ofNat 32 (n * 2 ^ 14))] }
    s.siteState 0 = n := by rcases h with rfl | rfl <;> decide +kernel

/-! ## Witnesses: words and steps -/

theorem wit_encode : (Instr.add h0 .i32 false (.vec 3) (.vec 1) (.reg (.vec 2))).wf = true
    ∧ encode (.add h0 .i32 false (.vec 3) (.vec 1) (.reg (.vec 2))) = some 0x001C003010200000 := by decide
/-- The turn of issue slot 0, with a word in place. -/
def turnState (w : Nat) : State := { State.reset.withFetchWord 64 w with agenda := [.slot 0 0 0] }
def fetched (u : State) (r : Except Nat DWord) : Bool := match u.fetch sel0 placedKern false 0x20100 0, r with
  | .ok w, .ok v => w = v
  | .error e, .error f => e = f
  | _, _ => false
theorem wit_turn (w : Nat) (h : w = 0x001C101F50000005 ∨ w = 0x0B1C000000000000) : let u : State := { turnState w with agenda := [] }
    u.pick 0 0 0 = some sel0 ∧ u.partner sel0 = none ∧ (Ctx.of { u with cur := sel0 } (Hdr.plain false)).isSome = true
      ∧ (match u.codeAt 0 placedKern false 0x20100 0 with
        | .ok p => p = .dev (u.localPa 0 0x20100)
        | .error _ => false) = true
      ∧ u.lostSeen 0 (u.localPa 0 0x20100) 8 = false ∧ u.readableAt 0 (u.localPa 0 0x20100) 8 = true ∧ (u.core 0 0).icache = []
      ∧ (u.stall 0).wbuf = [] ∧ fetched u (.ok (BitVec.ofNat 64 w)) = true
      ∧ ((decode (BitVec.ofNat 64 w)).isOk = true ↔ w = 0x001C101F50000005) := by
  rcases h with rfl | rfl <;> decide +kernel
/-- A fetch that waits for its line, and one of a lost line. -/
theorem wit_turn_stops : let w := 0x001C101F50000005
    let u : State := away { turnState w with agenda := [] } ((turnState w).localPa 0 0x20100)
    let v : State := { turnState w with agenda := [], lost := [((turnState w).localPa 0 0x20100 / 64, 1)] }
    u.pick 0 0 0 = some sel0 ∧ u.partner sel0 = none ∧ fetched u (.error (waitOn 0x804)) = true
      ∧ v.pick 0 0 0 = some sel0 ∧ v.partner sel0 = none ∧ fetched v (.error 0x2A) = true := by decide +kernel
/-- A second squad in slot 4 at the same word, with its threads in other quads: the two issue together. -/
def twoState : State := { poke (withB tiny fun b => { b with squads := b.squads ++ b.squads.map fun x =>
    (4, { x.2 with lanes := x.2.lanes.map fun y => (y.1 + 4, y.2) }) }) (tiny.localPa 0 0x20100) (leBytes 8 0x001C101F50000005) with
  agenda := [.slot 0 0 0] }
theorem wit_turn_pair : let u : State := { twoState with agenda := [] }
    u.pick 0 0 0 = some sel0 ∧ u.partner sel0 = some ⟨0, 0, 0, 4⟩ ∧ (match u.fetchNext sel0 with
      | .ok x => x.1 = 0x001C101F50000005 && (match x.2.issueFetched x.1 with
        | .next v => (v.squad? ⟨0, 0, 0, 4⟩).isSome
        | _ => false)
      | .error _ => false) = true := by decide +kernel
theorem wit_turn_clock : State.clockTurns tiny ≠ [] ∧ tiny.agenda = [] := by decide +kernel
theorem wit_idle : State.reset.agenda = [] ∧ State.reset.clockTurns = [] := by decide
theorem wit_forms : Memory.wf (turnState 0x001C101F50000005).mem = true ∧ Memory.wf (turnState 0x001C101F50000005).hostMem = true
    ∧ orderedB (turnState 0x001C101F50000005) = true := by decide +kernel
theorem wit_ordered : Ordered (turnState 0x001C101F50000005) := ordered_of (by decide +kernel)

/-! ## Single steps -/

/-- One step of the machine on a placed word, with its registers prepared: what `f` reads of lane 2 and of the squad after it. -/
def after {α : Type} (w : Nat) (prep : State → State) (f : Squad → Lane → α) : Option α :=
  match step (prep (State.reset.withFetchWord 64 w)) with
  | .next t => (t.squad? sel0).bind fun q => (t.lane? sel0 2).map fun l => f q l
  | _ => none
/-- add v1, tid, 5 (R99, R121): lane 2 holds thread 2; the next word is at PC + 8 (R85). -/
theorem test_step_add : after 0x001C101F50000005 id (fun q l => (Tab.get 0 l.v 1, q.pc)) = some (7, 0x20108) := by decide +kernel
/-- bra with OFF24 = 1, the example of R69: the target is PC + 8 + 8 × 1. -/
theorem test_step_bra : after 0x181C000000108000 id (fun q _ => q.pc) = some 0x20110 := by decide +kernel
/-- The example of chapter 03: movi v6 of 0x9B9. -/
theorem test_step_movi : after 0x075C3060000009B9 id (fun _ l => Tab.get 0 l.v 6) = some 0x9B9 := by decide +kernel

end Sys2Proof.Tests
end

section
/-! SUPPORT. Accesses from outside the package: what the operations on lines leave of the memories, and what the host's and the
peers' accesses do (R264 to R266, R293). -/

namespace Sys2Proof.Machine

open Sys2Proof

/-! ## The memories, and the operations on lines that leave them alone -/

/-- The three memories and the writes from outside that wait: what persistent requests and their ends leave alone. -/
def State.stores (s : State) : Mem × Mem × Mem × List (Nat × List Byte) := (s.mem, s.hostMem, s.extMem, s.inbound)

theorem sameMemory_of_eq {s t : State} (hm : t.mem = s.mem) (hh : t.hostMem = s.hostMem) (he : t.extMem = s.extMem) :
    SameMemory s t := fun _ => by rw [hm, hh, he]; exact ⟨rfl, rfl, rfl⟩

theorem sameMemory_of_stores {s t : State} (h : t.stores = s.stores) : SameMemory s t :=
  sameMemory_of_eq (congrArg (·.1) h) (congrArg (·.2.1) h) (congrArg (·.2.2.1) h)

@[simp] theorem modStall_stores (s : State) (st : Nat) (f : Stall → Stall) : (s.modStall st f).stores = s.stores := rfl
@[simp] theorem modBlock_stores (s : State) (b : BSel) (f : Block → Block) : (s.modBlock b f).stores = s.stores := rfl
@[simp] theorem toAll_stores (s : State) (m : Nat → Msg) : (s.toAll m).stores = s.stores := rfl
@[simp] theorem wholeAtHome_stores (s : State) (line : Nat) : (s.wholeAtHome line).stores = s.stores := rfl

@[simp] theorem escalate_stores (s : State) (st : Nat) : (s.escalate st).stores = s.stores := by
  unfold State.escalate
  dsimp only
  split
  · split
    · simp
    · rfl
  · rfl

@[simp] theorem askPersistent_stores (s : State) (st line : Nat) (kind : PKind) :
    (s.askPersistent st line kind).stores = s.stores := by
  unfold State.askPersistent
  rw [apply_ite State.stores, escalate_stores, modStall_stores, ite_self]

@[simp] theorem progress_stores (s : State) (st : Nat) : (s.progress st).stores = s.stores := by
  unfold State.progress
  dsimp only
  split
  · rfl
  · split
    · simp
    · split
      · simp
      · rfl

@[simp] theorem served_stores (s : State) (st line : Nat) (home : Bool) : (s.served st line home).stores = s.stores := by
  simp [State.served]

/-! ## A write from outside within one line (R293) -/

theorem linesOf_within {a n : Nat} (hn : 0 < n) (h : a % 64 + n ≤ 64) : linesOf a n = [a / 64] := by
  have hlines : (a + n - 1) / 64 - a / 64 + 1 = 1 := by omega
  simp [linesOf, Nat.ne_of_gt hn, hlines]

theorem sliceBytes_self (bs : List Byte) : sliceBytes bs 0 bs.length = bs :=
  List.ext_getElem (by simp [sliceBytes]) fun i _ h => by simp [sliceBytes, h]

/-- A write at its home that changes no entry of EXPT writes its bytes, and nothing else of the memories. -/
theorem performAtHome_stores (s : State) {pa : Nat} {bs : List Byte} (hx : s.exportsAt pa bs.length = []) :
    (s.performAtHome pa bs).stores = (s.mem.wrs pa bs, s.hostMem, s.extMem, s.inbound) := by
  have hperf : (s.performWrite pa bs).stores = (s.mem.wrs pa bs, s.hostMem, s.extMem, s.inbound) := by
    simp [State.performWrite, State.performWriteOf, hx, State.stores]
  unfold State.performAtHome
  split
  · rw [wholeAtHome_stores, hperf]
  · exact hperf

/-- The only write that waits is performed where its home holds every token. -/
theorem serveInbound_whole {s : State} {pa : Nat} {bs : List Byte} (hin : s.inbound = [(pa, bs)])
    (ht : (s.homeLine (pa / 64)).t = 64) (hx : s.exportsAt pa bs.length = []) :
    (s.serveInbound (pa / 64)).stores = (s.mem.wrs pa bs, s.hostMem, s.extMem, []) := by
  have hx' : State.exportsAt { s with inbound := [] } pa bs.length = [] := hx
  simp [State.serveInbound, hin, ht, performAtHome_stores _ hx']

/-- The only write that waits goes on waiting where its home lacks a token. -/
theorem serveInbound_lacking {s : State} {pa : Nat} {bs : List Byte} (hin : s.inbound = [(pa, bs)])
    (ht : (s.homeLine (pa / 64)).t ≠ 64) : (s.serveInbound (pa / 64)).stores = s.stores := by
  simp [State.serveInbound, hin, ht]

theorem devRange_pos {s : State} {pa n : Nat} (h : s.devRange pa n = true) : 0 < n := by
  unfold State.devRange at h
  split at h
  · cases h
  · simp only [Bool.and_eq_true, decide_eq_true_eq] at h
    exact h.1.2

theorem writeInbound_outside {s : State} {pa : Nat} {bs : List Byte} (h : s.devRange pa bs.length = false) :
    s.writeInbound pa bs = s := by simp [State.writeInbound, h]

/-- A write within one line waits as one piece, and its home serves it. -/
theorem writeInbound_within {s : State} {pa : Nat} {bs : List Byte} (hd : s.devRange pa bs.length = true)
    (hl : pa % 64 + bs.length ≤ 64) :
    s.writeInbound pa bs = State.serveInbound { s with inbound := s.inbound ++ [(pa, bs)] } (pa / 64) := by
  have hlo : max pa (pa / 64 * 64) = pa := by omega
  have hhi : min (pa + bs.length) (pa / 64 * 64 + 64) = pa + bs.length := by omega
  simp [State.writeInbound, hd, linesOf_within (devRange_pos hd) hl, hlo, hhi, sliceBytes_self]

theorem writeInbound_whole {s : State} {pa : Nat} {bs : List Byte} (hd : s.devRange pa bs.length = true)
    (hl : pa % 64 + bs.length ≤ 64) (hin : s.inbound = []) (ht : (s.homeLine (pa / 64)).t = 64)
    (hx : s.exportsAt pa bs.length = []) :
    (s.writeInbound pa bs).stores = (s.mem.wrs pa bs, s.hostMem, s.extMem, []) := by
  rw [writeInbound_within hd hl]
  exact serveInbound_whole (s := { s with inbound := s.inbound ++ [(pa, bs)] }) (by simp [hin]) ht hx

theorem writeInbound_lacking {s : State} {pa : Nat} {bs : List Byte} (hd : s.devRange pa bs.length = true)
    (hl : pa % 64 + bs.length ≤ 64) (hin : s.inbound = []) (ht : (s.homeLine (pa / 64)).t ≠ 64) :
    (s.writeInbound pa bs).stores = (s.mem, s.hostMem, s.extMem, [(pa, bs)]) := by
  rw [writeInbound_within hd hl,
    serveInbound_lacking (s := { s with inbound := s.inbound ++ [(pa, bs)] }) (bs := bs) (by simp [hin]) ht]
  simp [State.stores, hin]

/-- The host's writes and the peers' are one operation. -/
theorem exec_outsideWrite (s : State) {i : Instr} {pa : Nat} {bs : List Byte}
    (hi : i = .hostWrite pa bs ∨ ∃ n, i = .externalPeerAccess pa bs n) (hbs : bs ≠ []) :
    exec i s = .next (s.writeInbound pa bs) := by
  rcases hi with rfl | ⟨n, rfl⟩
  · rfl
  · simp [exec, execExternalPeerAccess, hbs]

/-! ## Reads from outside (R265, R266) -/

/-- The bytes of a range as a poisoned read answers them: those of its lost lines are zero. -/
def State.zeroedRead (s : State) (pa n : Nat) : List Byte :=
  (List.range n).map fun i => if (s.lostLines pa n).contains ((pa + i) / 64) then 0 else (s.mem.rds pa n).getD i 0

theorem zeroedRead_lost (s : State) {pa n i : Nat} (hi : i < n) (hl : (pa + i) / 64 ∈ s.lostLines pa n) :
    (s.zeroedRead pa n)[i]? = some 0 := by
  simp [State.zeroedRead, hi, hl]

theorem exec_hostRead_outside {s : State} {pa n : Nat} (io : Bool) (h : s.devRange pa n = false) :
    exec (.hostRead io pa n) s = .next { s with answer := .none } := by
  simp [exec, execHostRead, h]

theorem exec_hostRead_kept {s : State} {pa n : Nat} (io : Bool) (hd : s.devRange pa n = true) (hl : s.lostLines pa n = []) :
    exec (.hostRead io pa n) s = .next { s with answer := .data (s.mem.rds pa n) } := by
  simp [exec, execHostRead, hd, hl]

theorem exec_hostRead_lost {s : State} {pa n : Nat} (io : Bool) (hd : s.devRange pa n = true) (hl : s.lostLines pa n ≠ []) :
    exec (.hostRead io pa n) s = .next { s with
      answer := if io then .abort else .poison (s.zeroedRead pa n)
      evlog := s.evlog ++ (s.lostLines pa n).map fun l => .lostRead (l * 64) } := by
  simp [exec, execHostRead, hd, hl, State.zeroedRead]

theorem exec_peerRead_outside {s : State} {pa n : Nat} (h : s.devRange pa n = false) :
    exec (.externalPeerAccess pa [] n) s = .next { s with answer := .none } := by
  simp [exec, execExternalPeerAccess, h]

theorem exec_peerRead_kept {s : State} {pa n : Nat} (hd : s.devRange pa n = true) (hl : s.lostLines pa n = []) :
    exec (.externalPeerAccess pa [] n) s = .next { s with answer := .data (s.mem.rds pa n) } := by
  simp [exec, execExternalPeerAccess, hd, hl]

theorem exec_peerRead_lost {s : State} {pa n : Nat} (hd : s.devRange pa n = true) (hl : s.lostLines pa n ≠ []) :
    exec (.externalPeerAccess pa [] n) s = .next { s with answer := .abort } := by
  simp [exec, execExternalPeerAccess, hd, hl]

end Sys2Proof.Machine
end

section
/-! SUPPORT. Errors of memory, their counter, and the package's ports and planes (R25, R189, R265, R318, R319, R340, R469). -/

namespace Sys2Proof.Machine

open Sys2Proof

/-! ## Uncorrectable errors (R189, R265) -/

theorem exec_memError {s : State} {pa : Nat} (h : s.devRange (pa / 64 * 64) 64 = true) :
    exec (.uncorrectableError (.mem pa)) s = .next { s with lost := s.lost.put (pa / 64) 0 } := by
  simp [exec, execUncorrectableError, h]

theorem exec_padError {s : State} {b : BSel} {k : Block} {g : Nat} (hb : s.block? b = some k) (hg : 8 * g + 8 ≤ k.kern.pad) :
    ∃ t, exec (.uncorrectableError (.pad b g)) s = .next t ∧ SameMemory s t
      ∧ (t.block? b).map (fun x => x.padBad.contains g) = some true := by
  refine ⟨_, rfl, sameMemory_of_stores (modBlock_stores ..), ?_⟩
  rw [block?_modBlock, hb]
  by_cases h : g ∈ k.padBad <;> simp [h, hg]

theorem exec_amError {s : State} {b : BSel} {k : Block} {g : Nat} (hb : s.block? b = some k) (hg : 8 * g + 8 ≤ k.kern.am) :
    ∃ t, exec (.uncorrectableError (.am b g)) s = .next t ∧ SameMemory s t
      ∧ (t.block? b).map (fun x => x.amBad.contains g) = some true := by
  refine ⟨_, rfl, sameMemory_of_stores (modBlock_stores ..), ?_⟩
  rw [block?_modBlock, hb]
  by_cases h : g ∈ k.amBad <;> simp [h, hg]

/-! ## Correctable errors (R469) -/

/-- A stall update that keeps the cores leaves every core as it is. -/
theorem core_modStall_keep (s : State) (st : Nat) (f : Stall → Stall) (h : ∀ t, (f t).cores = t.cores) (n c : Nat) :
    (s.modStall st f).core n c = s.core n c := by
  by_cases e : n = st
  · subst e
    simp [State.core, Stall.core, h]
  · exact core_modStall_ne s f e

/-- COUNT of a stall goes up by one. -/
def State.countError (s : State) (st : Nat) : State := s.modStall st fun t => { t with ceCount := t.ceCount + 1 }

@[simp] theorem stall_countError (s : State) (st : Nat) :
    (s.countError st).stall st = { s.stall st with ceCount := (s.stall st).ceCount + 1 } := stall_modStall ..

@[simp] theorem core_countError (s : State) (st n c : Nat) : (s.countError st).core n c = s.core n c :=
  core_modStall_keep s st (fun t => { t with ceCount := t.ceCount + 1 }) (fun _ => rfl) n c

@[simp] theorem block?_countError (s : State) (st : Nat) (b : BSel) : (s.countError st).block? b = s.block? b := by
  simp [State.block?]

/-- Whether the next error of a stall takes COUNT past LIMIT, which 0 turns off (R469). -/
def Stall.passesLimit (t : Stall) : Bool :=
  field (t.ceRest.zeroExtend 64) 15 0 ≠ 0 && (t.ceCount + 1).toNat = field (t.ceRest.zeroExtend 64) 15 0 + 1

theorem Stall.passesLimit_eq_true {t : Stall} (hlim : field (t.ceRest.zeroExtend 64) 15 0 ≠ 0)
    (hcount : (t.ceCount + 1).toNat = field (t.ceRest.zeroExtend 64) 15 0 + 1) : t.passesLimit = true := by
  rw [Stall.passesLimit, decide_eq_true hlim, decide_eq_true hcount, Bool.and_self]

theorem Stall.passesLimit_eq_false {t : Stall} (h : field (t.ceRest.zeroExtend 64) 15 0 = 0
    ∨ (t.ceCount + 1).toNat ≠ field (t.ceRest.zeroExtend 64) 15 0 + 1) : t.passesLimit = false := by
  rw [Stall.passesLimit, Bool.and_eq_false_iff]
  exact h.imp (fun h0 => decide_eq_false fun hne => hne h0) decide_eq_false

/-- On a core that is on, an error is counted; the one that passes the limit raises its cause, and one of the pad is clocked. -/
theorem exec_correctableError {s : State} {st core : Nat} (pad : Bool) (user : Option Nat) (hoff : (s.core st core).off = false) :
    exec (.correctableError st core pad user) s =
      let u := if (s.stall st).passesLimit then (s.countError st).countPassed st core user else s.countError st
      .next (if pad then u.padError st core else u) := by
  show execCorrectableError st core pad user s = _
  rw [execCorrectableError, hoff]
  rfl

/-- R436: the block whose access passed the limit has 0x2C pending, behind what was pending. -/
theorem block?_countPassed {s : State} {st core p : Nat} {k : Block} (hb : s.block? ⟨st, core, p⟩ = some k) :
    ((s.countPassed st core (some p)).block? ⟨st, core, p⟩).map (·.halt.pendAsync) = some (k.halt.pendAsync ++ [0x2C]) := by
  simp [State.countPassed, hb]

/-- The first pad error of a period keeps its clock, and asks for no retirement. -/
theorem padError_first {s : State} {st core : Nat} (h : (s.core st core).ceTimes = []) :
    s.padError st core = s.modCore st core fun c => { c with ceTimes := [(s.stall st).osc] } := by
  have h' : ((s.stall st).core core).ceTimes = [] := h
  simp [State.padError, h']

/-! ## Ports and planes (R25, R264, R318, R319, R340) -/

theorem updAt_getElem? {α : Type} (l : List α) (i : Nat) (f : α → α) : (updAt l i f)[i]? = l[i]?.map f := by
  induction l generalizing i with
  | nil => rfl
  | cons a l ih =>
    cases i with
    | zero => rfl
    | succ i => simpa [updAt] using ih i

theorem mem_insertNat {n q : Nat} (l : List Nat) : q ∈ insertNat n l ↔ q = n ∨ q ∈ l := by
  induction l with
  | nil => simp [insertNat]
  | cons a l ih =>
    simp only [insertNat]
    split
    · simp
    · simp only [List.mem_cons, ih]
      exact or_left_comm

theorem hostUp_updAt {s : State} {p : Nat} (hp : p < s.hostUp.length) (up : Bool) :
    (updAt s.hostUp p fun _ => up)[p]? = some up := by
  simp [updAt_getElem?, hp]

theorem exec_scalePortFailure {s : State} {p : Nat} (hp : p < 32) :
    ∃ t, exec (.scalePortFailure p) s = .next t ∧ SameMemory s t ∧ ∀ q, q ∈ t.scaleDown ↔ q = p ∨ q ∈ s.scaleDown := by
  by_cases hdown : p ∈ s.scaleDown
  · refine ⟨s, by simp [exec, execScalePortFailure, hdown], sameMemory_of_stores rfl, fun q => ?_⟩
    exact ⟨.inr, fun h => h.elim (· ▸ hdown) id⟩
  · refine ⟨{ s with scaleDown := insertNat p s.scaleDown }, ?_, sameMemory_of_stores rfl, fun q => mem_insertNat _⟩
    simp [exec, execScalePortFailure, hdown, hp]

theorem exec_scalePortRestore (s : State) (p : Nat) :
    ∃ t, exec (.scalePortRestore p) s = .next t ∧ SameMemory s t ∧ ∀ q, q ∈ t.scaleDown ↔ q ≠ p ∧ q ∈ s.scaleDown :=
  ⟨_, rfl, sameMemory_of_stores rfl, fun q => by simp [and_comm]⟩

theorem exec_switchPlaneSetup {s : State} {pkg : Nat} (h : pkg < 512) :
    exec (.switchPlaneSetup pkg) s = .next { s with pkg := BitVec.ofNat 64 (512 + pkg) } := by
  simp [exec, execSwitchPlaneSetup, h]

theorem exec_switchPlaneSetup_out {s : State} {pkg : Nat} (h : 512 ≤ pkg) : exec (.switchPlaneSetup pkg) s = .next s := by
  simp [exec, execSwitchPlaneSetup, Nat.not_lt.mpr h]

theorem mgmtWord_pkg (s : State) (st : Nat) : s.mgmtWord st 0x430 = s.pkg := rfl

end Sys2Proof.Machine
end

section
/-! The outside accesses and errors of the package, settled. -/

namespace Sys2Proof.Machine

open Sys2Proof

/-- Settles O49: reads and writes from outside by whether their range is device memory, has a lost line, and has its tokens at
home; errors by where they are and by the count they reach; ports and planes by their lists. -/
theorem outsideAccessesAndErrorsAreHandled : Obligations.OutsideAccessesAndErrorsAreHandled := by
  unfold Obligations.OutsideAccessesAndErrorsAreHandled
  refine ⟨fun s io pa n => ⟨?outside, ?kept, ?lost⟩, fun s pa bs i hi hbs => ?writes,
    fun s pa g b k hb => ⟨?mem, exec_padError hb, exec_amError hb⟩,
    fun s st core p k hoff hb => ⟨?within, ?passing, ?padClock, ?window⟩,
    fun s p pkg => ⟨?hostPorts, exec_scalePortFailure, exec_scalePortRestore s p, ?plane, exec_switchPlaneSetup_out⟩⟩
  case outside => exact fun h => ⟨exec_hostRead_outside io h, exec_peerRead_outside h⟩
  case kept => exact fun hd hl => ⟨exec_hostRead_kept io hd hl, exec_peerRead_kept hd hl⟩
  case lost =>
    exact fun hd hl => ⟨⟨_, exec_hostRead_lost true hd hl, rfl, sameMemory_of_stores rfl⟩,
      ⟨_, _, exec_hostRead_lost false hd hl, rfl, sameMemory_of_stores rfl, fun _ => zeroedRead_lost s⟩,
      exec_peerRead_lost hd hl⟩
  case writes =>
    rw [exec_outsideWrite s hi hbs]
    refine ⟨fun hd => by rw [writeInbound_outside hd], fun hd hl hin ht hx => ?_, fun hd hl hin ht => ?_⟩
    · have h := writeInbound_whole hd hl hin ht hx
      exact ⟨_, rfl, congrArg (·.1) h, congrArg (·.2.2.2) h⟩
    · have h := writeInbound_lacking hd hl hin ht
      exact ⟨_, rfl, sameMemory_of_eq (congrArg (·.1) h) (congrArg (·.2.1) h) (congrArg (·.2.2.1) h), congrArg (·.2.2.2) h⟩
  case mem => exact fun h => ⟨_, exec_memError h, sameMemory_of_stores rfl, by simp⟩
  case within =>
    intro h
    rw [exec_correctableError false (some p) hoff, Stall.passesLimit_eq_false h]
    exact ⟨_, rfl, sameMemory_of_stores rfl, by simp, by simp [hb]⟩
  case passing =>
    intro hlim hcount
    rw [exec_correctableError false (some p) hoff, Stall.passesLimit_eq_true hlim hcount]
    exact ⟨_, rfl, block?_countPassed (by simpa using hb)⟩
  case padClock =>
    intro hlim htimes
    have hfirst : ((s.countError st).core st core).ceTimes = [] := by rw [core_countError]; exact htimes
    rw [exec_correctableError true (some p) hoff, Stall.passesLimit_eq_false (.inl hlim)]
    refine ⟨_, rfl, by simp [padError_first hfirst], ?_⟩
    show _ = (s.core st core).retst
    simp [padError_first hfirst]
  case window => exact ⟨_, rfl, sameMemory_of_stores rfl, by simp⟩
  case hostPorts =>
    exact fun hp => ⟨⟨_, rfl, sameMemory_of_stores rfl, hostUp_updAt hp false⟩,
      ⟨_, rfl, sameMemory_of_stores rfl, hostUp_updAt hp true⟩⟩
  case plane => exact fun h => ⟨_, exec_switchPlaneSetup h, sameMemory_of_stores rfl, mgmtWord_pkg ..⟩

end Sys2Proof.Machine
end

section
/-! SUPPORT. Words that stop at their checks, and words that act once: what issues where a cause of the decode, or no thread that is
no helper, is found (R64, R78, R81, R82, R491). -/

namespace Sys2Proof.Machine

open Sys2Proof

/-! ## Causes of the decode (R78, R81, R82) -/

/-- A word that reaches its checks and has a cause raises it, whatever its effect would be. -/
theorem issue_of_cause {s : State} {h : Hdr} {u : Ctx → WordUse} {c : Ctx} {e : Nat} (w : Reaches s h c)
    (hc : (u c).cause c h.s = some e) (body : Ctx → Res) : issue h u body s = .next (c.raiseAll e) := by
  obtain ⟨c₀, h₀, hf, rfl⟩ := w
  have hm : (h.s && c₀.sq.awaited) = false := by
    cases e : h.s with
    | false => rfl
    | true => simpa using hf e
  simp only [Ctx.start] at hc
  simp only [issue, h₀, hm, hc, Ctx.start]
  rfl

/-- The cause of a privileged word in user mode, where nothing that ranks before it is wrong. -/
theorem WordUse.cause_of_priv {u : WordUse} {c : Ctx} (marked : Bool)
    (hops : (u.bad || u.uses.any (Use.bad c.budget) || (!u.reduce && mixes u.uses)) = false) (hpair : u.pairing = false)
    (hloop : u.loop = false) (hpriv : u.priv = true) (hsup : c.sq.sup = false) : u.cause c marked = some 0x08 := by
  simp [WordUse.cause, hops, hpair, hloop, hpriv, hsup]

/-- A word that is not privileged has no cause 0x08. -/
theorem WordUse.cause_ne_priv {u : WordUse} {c : Ctx} (marked : Bool) (hpriv : u.priv = false) :
    u.cause c marked ≠ some 0x08 := by
  simp only [WordUse.cause, hpriv, Bool.false_and, Bool.false_eq_true, if_false]
  repeat' split
  all_goals decide

/-- A word that writes no operand mixes none. -/
theorem mixes_eq_false {us : List Use} (h : ∀ u ∈ us, u.w = false) : mixes us = false := by
  have hw : us.any (fun u => u.w && u.o.isSca) = false := List.any_eq_false.2 fun u hu => by simp [h u hu]
  simp [mixes, hw]

theorem Use.rw'_w (wide : Bool) (o : Opnd) : (Use.rw' wide o).w = false := by cases wide <;> rfl

/-- A scalar register is a 32-bit source of any word. -/
theorem Use.bad_r_sca (budget : Nat) (k : Fin 48) : Use.bad budget (.r (.sca k)) = false := by
  show (decide (k.val % 1 ≠ 0) || decide (48 < k.val + 1)) = false
  exact Bool.or_eq_false_iff.2 ⟨decide_eq_false (by omega), decide_eq_false (by omega)⟩

/-- R120: the registers of supervisor mode only are assigned, and are not HELPER. -/
theorem crAssigned_of_crPriv {n : Nat} (h : crPriv n = true) : crAssigned n = true ∧ n ≠ 0x007 := by
  simp only [crPriv, List.mem_cons, List.not_mem_nil, or_false, decide_eq_true_eq] at h
  obtain rfl | rfl | rfl | rfl | rfl | rfl := h <;> decide

theorem crPriv_iff (idx : BitVec 12) :
    crPriv idx.toNat = true ↔ idx ∈ ([0x020, 0x021, 0x022, 0x023, 0x100, 0x101] : List (BitVec 12)) := by
  simp [crPriv, ← BitVec.toNat_inj]

/-! ## Words that act once (R64, R491) -/

/-- Where no lane that is no helper is active, the effect of the word is none. -/
def ActsForThreads (i : Instr) : Prop :=
  ∀ s, ∃ body, exec i s = issue (hdrOf i) (useOf i) body s ∧ ∀ c : Ctx, c.real = none → body c = .ok c.s

theorem Ctx.real_eq_none {c : Ctx} (h : ∀ x ∈ c.act, x.2.helper = true) : c.real = none := by
  simpa [Ctx.real] using h

/-- Such a word goes on, with nothing changed. -/
theorem ActsForThreads.exec_past {i : Instr} (hi : ActsForThreads i) {s : State} {c : Ctx} (w : Runs s i c) (hr : c.real = none) :
    exec i s = .next (c.past c.s) := by
  obtain ⟨body, hx, hb⟩ := hi s
  rw [hx, issue_of w, hb c hr]
  rfl

end Sys2Proof.Machine
end

section
namespace Sys2Proof.Machine

open Sys2Proof

/-- Settles O13: every word issues through the one shared operation, which raises a cause of the decode before any effect. -/
theorem decodeCausesStopEveryPresentLane : Obligations.DecodeCausesStopEveryPresentLane := by
  unfold Obligations.DecodeCausesStopEveryPresentLane
  intro s i c e hw hr hc
  obtain ⟨body, hx⟩ := exec_issue i hw s
  rw [hx]
  exact issue_of_cause hr hc body

/-- Settles O24: each of these words looks for a thread first. -/
theorem wordsWithoutAnActiveThreadGoOn : Obligations.WordsWithoutAnActiveThreadGoOn := by
  unfold Obligations.WordsWithoutAnActiveThreadGoOn
  intro s i h d a b r imm code act k c hi hw hact
  have hi : ActsForThreads i := by
    simp only [List.mem_cons, List.not_mem_nil, or_false] at hi
    obtain rfl | rfl | rfl | rfl | rfl | rfl | rfl | rfl | rfl | rfl | rfl | rfl | rfl | rfl | rfl | rfl | rfl := hi
    all_goals
      intro s
      simp only [exec, execBrk, execTrap, execSret, execHalt, execIflush, execColl, execLaunch, execTspawn, execArm, execMenq, execSend,
        execTnext, execTdone, execQget, execMfinMesh, execMfinTask, execCyc]
      exact ⟨_, rfl, fun c hr => by simp only [hr]⟩
  exact hi.exec_past hw (Ctx.real_eq_none hact)

/-- Settles O58: the privileged words and registers, and no others, have the cause 0x08 in user mode. -/
theorem privilegedWordsRaisePrivilege : Obligations.PrivilegedWordsRaisePrivilege := by
  unfold Obligations.PrivilegedWordsRaisePrivilege
  refine ⟨fun s i h act k all c hi hr hsup => ?words, fun s i h idx a c hi hr hsup => ⟨fun hp hops => ?priv, fun hp => ?user⟩,
    fun i h a c hi => ?fixed⟩
  all_goals simp only [List.mem_cons, List.not_mem_nil, or_false] at hi
  case words =>
    obtain rfl | rfl | rfl := hi
    · obtain ⟨body, hx⟩ := execSret_issue h act s
      exact hx.trans (issue_of_cause hr (WordUse.cause_of_priv _ rfl rfl rfl rfl hsup) body)
    · obtain ⟨body, hx⟩ := execHalt_issue h (.sca k) s
      have hmix : mixes [.r (.sca k)] = false := mixes_eq_false (by simp [Use.r])
      have huses : (useOf (.halt h (.sca k)) c).uses = [.r (.sca k)] := rfl
      have hbad : (useOf (.halt h (.sca k)) c).bad = false := rfl
      have hops := WordUse.cause_of_priv (u := useOf (.halt h (.sca k)) c) h.s (by simp [huses, hbad, hmix, Use.bad_r_sca]) rfl rfl rfl hsup
      exact hx.trans (issue_of_cause hr hops body)
    · obtain ⟨body, hx⟩ := execIflush_issue h all s
      exact hx.trans (issue_of_cause hr (WordUse.cause_of_priv _ rfl rfl rfl rfl hsup) body)
  case priv =>
    rw [← crPriv_iff] at hp
    obtain ⟨hass, hne⟩ := crAssigned_of_crPriv hp
    obtain rfl | rfl := hi
    · obtain ⟨body, hx⟩ := execMfc_issue h a idx s
      exact hx.trans (issue_of_cause hr (WordUse.cause_of_priv _ (by rw [hops]; simp [useOf, hass, hne]) rfl rfl hp hsup) body)
    · obtain ⟨body, hx⟩ := execMtc_issue h idx a s
      have hmix : mixes [.rw' (crWide idx.toNat) a] = false := mixes_eq_false (by simp [Use.rw'_w])
      exact hx.trans (issue_of_cause hr (WordUse.cause_of_priv _ (by rw [hops]; simp [useOf, hass, hmix]) rfl rfl hp hsup) body)
  case user =>
    rw [← crPriv_iff, Bool.not_eq_true] at hp
    obtain rfl | rfl := hi <;> exact WordUse.cause_ne_priv _ hp
  case fixed =>
    obtain rfl | rfl := hi <;> exact WordUse.cause_ne_priv _ rfl

end Sys2Proof.Machine
end

section
/-! SUPPORT. What the operations on a squad's lanes and scalar file leave of its PC, its lanes and the memories. -/

namespace Sys2Proof.Machine

open Sys2Proof

/-! ## Memories -/

@[simp] theorem modSquad_stores (s : State) (q : Sel) (f : Squad → Squad) : (s.modSquad q f).stores = s.stores := rfl
@[simp] theorem wordDone_stores (s : State) (q : Sel) (adv : Bool) : (s.wordDone q adv).stores = s.stores := rfl

@[simp] theorem writeSca_stores (s : State) (q : Sel) (sup : Bool) (d : Opnd) (ws : List Word) :
    (s.writeSca q sup d ws).stores = s.stores := by
  unfold State.writeSca
  split
  · split <;> rfl
  · rfl

@[simp] theorem setFlags_stores (s : State) (b : BSel) (f : Fl) : (s.setFlags b f).stores = s.stores := by
  unfold State.setFlags
  split <;> rfl

@[simp] theorem writeAll_stores (c : Ctx) (s : State) (d : Opnd) (ws : List Word) : (c.writeAll s d ws).stores = s.stores := by
  unfold Ctx.writeAll
  split
  · split <;> simp
  · simp

/-! ## A scalar register written -/

/-- A scalar write leaves the PC and the lanes of its squad. -/
theorem writeSca_pc_lanes (s : State) (q : Sel) (sup : Bool) (d : Opnd) (ws : List Word) :
    ((s.writeSca q sup d ws).squad? q).map (fun x => (x.pc, x.lanes)) = (s.squad? q).map fun x => (x.pc, x.lanes) := by
  unfold State.writeSca
  split
  · split
    · exact congrArg _ (squad?_modCore _ _ _ _ _ fun _ => ⟨rfl, rfl⟩)
    · rw [squad?_modSquad, Option.map_map]
      rfl
  · rfl

/-! ## One value written to every active lane -/

/-- The results of lanes that all have the same words. -/
def sameOut (ls : List (Nat × Lane)) (ws : List Word) : List (Nat × Lane × Except Nat LaneOut) :=
  ls.map fun x => (x.1, x.2, .ok { ws := ws })

theorem writeAll_of_lanes (c : Ctx) (s : State) {d : Opnd} (ws : List Word) (h : d.isSca = false) :
    c.writeAll s d ws = s.modSquad c.q fun q => q.applyLanes d (sameOut c.act ws) := by
  have hfold (q : Squad) : c.act.foldl (fun q l => q.modLane l.1 fun ln => ln.write d ws) q = q.applyLanes d (sameOut c.act ws) := by
    simp only [Squad.applyLanes, sameOut, List.foldl_map]
    rfl
  cases d with
  | sca k => cases h
  | _ => exact congrArg (s.modSquad c.q) (funext hfold)

theorem applyLanes_pc (d : Opnd) (rs : List (Nat × Lane × Except Nat LaneOut)) (q : Squad) : (q.applyLanes d rs).pc = q.pc := by
  induction rs generalizing q with
  | nil => rfl
  | cons r rs ih =>
    simp only [Squad.applyLanes, List.foldl_cons] at ih ⊢
    rw [ih]
    split
    · exact Squad.modLane_pc ..
    · rfl

theorem Lane.setPred_at (ln : Lane) (n : BitVec 3) (v : Bool) : (ln.setPred n v).at' = ln.at' := by
  unfold Lane.setPred; split <;> rfl

theorem Lane.write_at (ln : Lane) (d : Opnd) (ws : List Word) : (ln.write d ws).at' = ln.at' := by
  cases d <;> rfl

/-- A result changes nothing of where its lane stands. -/
theorem Lane.apply_at (ln : Lane) (d : Opnd) (o : LaneOut) : (ln.apply d o).at' = ln.at' := by
  have hps (ps : List (BitVec 3 × Bool)) (x : Lane) : (ps.foldl (fun ln p => ln.setPred p.1 p.2) x).at' = x.at' := by
    induction ps generalizing x with
    | nil => rfl
    | cons p ps ih => rw [List.foldl_cons, ih, Lane.setPred_at]
  unfold Lane.apply
  cases o.rnd <;> simp only [hps, Lane.write_at]

theorem mem_tabPut {α : Type} {t : Tab α} {n : Nat} {v : α} {x : Nat × α} (h : x ∈ Tab.put t n v) : x = (n, v) ∨ x ∈ t := by
  induction t with
  | nil => simpa [Tab.put] using h
  | cons y t ih =>
    simp only [Tab.put] at h
    split at h
    · simpa using h
    · split at h
      · rcases List.mem_cons.1 h with h | h
        · exact .inl h
        · exact .inr (List.mem_cons_of_mem _ h)
      · rcases List.mem_cons.1 h with h | h
        · exact .inr (h ▸ List.mem_cons_self ..)
        · exact (ih h).imp id (List.mem_cons_of_mem _)

/-- Results leave issuing lanes issuing. -/
theorem applyLanes_issue (d : Opnd) (rs : List (Nat × Lane × Except Nat LaneOut)) {q : Squad} (h : ∀ y ∈ q.lanes, y.2.at' = .issue) :
    ∀ y ∈ (q.applyLanes d rs).lanes, y.2.at' = .issue := by
  induction rs generalizing q with
  | nil => exact h
  | cons r rs ih =>
    simp only [Squad.applyLanes, List.foldl_cons] at ih ⊢
    apply ih
    split
    · unfold Squad.modLane
      split
      · exact h
      · rename_i ln hln
        intro y hy
        rcases mem_tabPut hy with rfl | hy
        · exact (Lane.apply_at ..).trans (h _ (Tab.mem_of_find? hln))
        · exact h y hy
    · exact h

/-- What a squad is once one value has been written: all but its registers as before. -/
theorem writeAll_squad (c : Ctx) {s : State} {x : Squad} (d : Opnd) (ws : List Word) (hx : s.squad? c.q = some x) :
    ∃ y, (c.writeAll s d ws).squad? c.q = some y ∧ y.besides = x.besides ∧ y.pc = x.pc
      ∧ y.lanes = if d.isSca then x.lanes else (x.applyLanes d (sameOut c.act ws)).lanes := by
  cases hd : d.isSca with
  | false =>
    refine ⟨x.applyLanes d (sameOut c.act ws), ?_, (applyLanes_besides ..).1, applyLanes_pc .., rfl⟩
    rw [writeAll_of_lanes c s ws hd, squad?_modSquad, hx]
    rfl
  | true =>
    have hw : c.writeAll s d ws = if c.act.isEmpty then s else s.writeSca c.q c.sq.sup d ws := by
      cases d with
      | sca k => rfl
      | _ => cases hd
    obtain ⟨-, -, -, hbes, -⟩ := writeSca_spec s c.q c.sq.sup d ws x hx
    have hpc := writeSca_pc_lanes s c.q c.sq.sup d ws
    rw [hw]
    split
    · exact ⟨x, hx, rfl, rfl, rfl⟩
    · rw [hx] at hbes hpc
      obtain ⟨y, hy, hb⟩ := Option.map_eq_some_iff.1 hbes
      simp only [hy, Option.map_some, Option.some.injEq, Prod.mk.injEq] at hpc
      exact ⟨y, hy, hb, hpc⟩

/-! ## After a word -/

/-- Where every lane issues, the squad stays at its PC. -/
theorem Squad.settle_pc {q : Squad} (h : ∀ y ∈ q.lanes, y.2.at' = .issue) : q.settle.pc = q.pc := by
  have hno : q.lanes.filterMap (fun l => l.2.eligible) = [] := by
    simp only [List.filterMap_eq_nil_iff]
    exact fun y hy => by simp [Lane.eligible, h y hy]
  unfold Squad.settle Squad.lowestHeld
  rw [hno]
  split <;> rfl

/-- Outside every loop a word whose squad issues in all its lanes leaves it at PC + 8. -/
theorem wordDone_pc {s : State} {q : Sel} {x : Squad} (hx : s.squad? q = some x) (hl : x.loops = [])
    (hi : ∀ y ∈ x.lanes, y.2.at' = .issue) : ((s.wordDone q true).squad? q).map (·.pc) = some (x.pc + 8) := by
  have hadv : x.advance = { x with pc := x.pc + 8, point := none } := by simp [Squad.advance, Squad.fallEnd, hl]
  have hset : x.advance.settle.pc = x.pc + 8 := by
    rw [hadv]
    exact Squad.settle_pc hi
  unfold State.wordDone
  rw [squad?_modSquad, hx]
  exact congrArg some hset

end Sys2Proof.Machine
end

section
/-! SUPPORT. What the events of a squad do: the return of a result, of a wait, and of a single step (R77, R206, R207, R459). -/

namespace Sys2Proof.Machine

open Sys2Proof

/-! ## A result returns (R77) -/

/-- Where every value in flight is fixed there is nothing left to read. -/
theorem performLoad_fixed {s : State} {q : Sel} {sq : Squad} (hsq : s.squad? q = some sq) (h : ∀ x ∈ sq.flight, x.perf = true)
    (id : Nat) (out : Bool) : s.performLoad q id out = s := by
  unfold State.performLoad
  rw [hsq]
  dsimp only
  split
  · rfl
  · rename_i f hf
    simp [h f (List.mem_of_find?_eq_some hf)]

theorem performLoads_fixed {s : State} {q : Sel} {sq : Squad} (hsq : s.squad? q = some sq) (h : ∀ x ∈ sq.flight, x.perf = true) :
    s.performLoads q = s := by
  unfold State.performLoads
  rw [hsq]
  dsimp only
  generalize sq.flight = fs
  induction fs with
  | nil => rfl
  | cons f fs ih => rw [List.foldl_cons, performLoad_fixed hsq h, ih]

/-- A register of a lane. -/
def State.reg? (s : State) (q : Sel) (l k : Nat) : Option Word := (s.lane? q l).map fun ln => Tab.get 0 ln.v k

/-- One value of a result in flight is written: lane 64 stands for the scalar file. -/
def State.landOne (s : State) (q : Sel) (sup : Bool) (v : Nat × Nat × Word) : State :=
  if v.1 = 64 then (if h : v.2.1 < 48 then s.writeSca q sup (.sca ⟨v.2.1, h⟩) [v.2.2] else s)
  else s.modSquad q fun x => x.modLane v.1 fun ln => { ln with v := Tab.set 0 ln.v v.2.1 v.2.2 }

theorem landFlight_cons (s : State) (q : Sel) (sup : Bool) (v : Nat × Nat × Word) (vs : List (Nat × Nat × Word)) :
    s.landFlight q sup (v :: vs) = (s.landOne q sup v).landFlight q sup vs := rfl

/-- What the values of a result leave alone: the memories, the clocks, and of the squad and block all but the registers. -/
structure Landed (q : Sel) (s t : State) : Prop where
  stores : t.stores = s.stores
  cyc : ∀ st c, t.cyc st c = s.cyc st c
  flight : (t.squad? q).map (·.flight) = (s.squad? q).map (·.flight)
  fpc : (t.block? q.blk).map (·.fpc) = (s.block? q.blk).map (·.fpc)
  lanes : ∀ l, (t.lane? q l).isSome = (s.lane? q l).isSome

theorem Landed.trans {q : Sel} {s t u : State} (h : Landed q s t) (k : Landed q t u) : Landed q s u :=
  ⟨k.stores.trans h.stores, fun st c => (k.cyc st c).trans (h.cyc st c), k.flight.trans h.flight, k.fpc.trans h.fpc,
    fun l => (k.lanes l).trans (h.lanes l)⟩

theorem Landed.resident {q : Sel} {s t : State} {x : Squad} (h : Landed q s t) (hx : s.squad? q = some x) :
    ∃ y, t.squad? q = some y ∧ y.flight = x.flight := by
  have := h.flight
  rw [hx] at this
  exact Option.map_eq_some_iff.1 this

theorem writeSca_landed {s : State} {q : Sel} {x : Squad} (hx : s.squad? q = some x) (sup : Bool) (d : Opnd) (ws : List Word) :
    Landed q s (s.writeSca q sup d ws) := by
  obtain ⟨-, -, hlane, hbes, -, hblk, -⟩ := writeSca_spec s q sup d ws x hx
  refine ⟨writeSca_stores .., (writeSca_completion s q sup d ws q.blk).1, ?_, ?_, fun l => by rw [hlane]⟩
  · have hflight := congrArg (Option.map Squad.flight) hbes
    rw [Option.map_map, Option.map_map] at hflight
    exact hflight
  · have hfpc := congrArg (Option.map Prod.snd) hblk
    rw [Option.map_map, Option.map_map] at hfpc
    exact hfpc

theorem lane?_modLane (s : State) (q : Sel) (l : Nat) (f : Lane → Lane) (k : Nat) :
    (s.modSquad q fun x => x.modLane l f).lane? q k = if k = l then (s.lane? q k).map f else s.lane? q k := by
  unfold State.lane?
  rw [squad?_modSquad]
  cases s.squad? q with
  | none => simp
  | some x =>
    by_cases hk : k = l
    · subst hk; simp
    · simpa [hk] using Squad.find?_modLane_ne x f hk

theorem modLane_landed (s : State) (q : Sel) (l : Nat) (f : Lane → Lane) : Landed q s (s.modSquad q fun x => x.modLane l f) := by
  refine ⟨rfl, fun _ _ => modSquad_cyc .., ?_, ?_, fun k => ?_⟩
  · rw [squad?_modSquad, Option.map_map]
    exact congrArg (Option.map · _) (funext fun x => Squad.modLane_flight x l f)
  · rw [block?_modSquad, Option.map_map]
    exact congrArg (Option.map · _) (funext fun b => Block.modSquad_fpc b _ _)
  · rw [lane?_modLane, apply_ite Option.isSome, Option.isSome_map, ite_self]

theorem landOne_landed {s : State} {q : Sel} {x : Squad} (hx : s.squad? q = some x) (sup : Bool) (v : Nat × Nat × Word) :
    Landed q s (s.landOne q sup v) := by
  unfold State.landOne
  split
  · split
    · exact writeSca_landed hx ..
    · exact ⟨rfl, fun _ _ => rfl, rfl, rfl, fun _ => rfl⟩
  · exact modLane_landed ..

/-- A value of a lane is the value of its register, and every other register of a lane is as before. -/
theorem landOne_reg? {s : State} {q : Sel} {x : Squad} (hx : s.squad? q = some x) (sup : Bool) (v : Nat × Nat × Word) {l k : Nat}
    (hl : l ≠ 64) : (s.landOne q sup v).reg? q l k = (s.reg? q l k).map fun w => if v.1 = l ∧ v.2.1 = k then v.2.2 else w := by
  have hid : (s.reg? q l k).map (fun w => if v.1 = l ∧ v.2.1 = k then v.2.2 else w)
      = if v.1 = l then (s.lane? q l).map (fun ln => if v.2.1 = k then v.2.2 else Tab.get 0 ln.v k) else s.reg? q l k := by
    by_cases h : v.1 = l <;> simp [State.reg?, h, Function.comp_def]
  rw [hid]
  unfold State.landOne
  by_cases h64 : v.1 = 64
  · have hne : v.1 ≠ l := fun h => hl (h.symm.trans h64)
    rw [if_pos h64, if_neg hne]
    split
    · obtain ⟨-, -, hlane, -⟩ := writeSca_spec s q sup (.sca ⟨v.2.1, by assumption⟩) [v.2.2] x hx
      unfold State.reg?
      rw [hlane]
    · rfl
  · rw [if_neg h64]
    unfold State.reg?
    rw [lane?_modLane]
    by_cases hv : v.1 = l
    · rw [if_pos hv.symm, if_pos hv, Option.map_map]
      congr 1
      funext ln
      by_cases hk : v.2.1 = k
      · simp [hk]
      · simp [hk, Tab.get_set_ne _ _ _ (Ne.symm hk)]
    · rw [if_neg (Ne.symm hv), if_neg hv]

theorem landFlight_landed {s : State} {q : Sel} {x : Squad} (hx : s.squad? q = some x) (sup : Bool) (vs : List (Nat × Nat × Word)) :
    Landed q s (s.landFlight q sup vs) := by
  induction vs generalizing s x with
  | nil => exact ⟨rfl, fun _ _ => rfl, rfl, rfl, fun _ => rfl⟩
  | cons v vs ih =>
    have h := landOne_landed hx sup v
    obtain ⟨y, hy, -⟩ := h.resident hx
    exact h.trans (ih hy)

/-- A register for which the values agree reads as they say, if one names it or it did so before. -/
theorem landFlight_reg? {s : State} {q : Sel} {x : Squad} (hx : s.squad? q = some x) (sup : Bool) (vs : List (Nat × Nat × Word))
    {l k : Nat} {v w : Word} (hl : l ≠ 64) (hone : ∀ y ∈ vs, y.1 = l → y.2.1 = k → y.2.2 = v) (hw : s.reg? q l k = some w)
    (h : w = v ∨ (l, k, v) ∈ vs) : (s.landFlight q sup vs).reg? q l k = some v := by
  induction vs generalizing s x w with
  | nil => simpa [State.landFlight, hw] using h
  | cons y vs ih =>
    obtain ⟨z, hz, -⟩ := (landOne_landed hx sup y).resident hx
    rw [landFlight_cons]
    have hy' : (s.landOne q sup y).reg? q l k = some (if y.1 = l ∧ y.2.1 = k then y.2.2 else w) := by
      rw [landOne_reg? hx sup y hl, hw]
      rfl
    refine ih hz (fun u hu => hone u (List.mem_cons_of_mem _ hu)) hy' ?_
    by_cases hy : y.1 = l ∧ y.2.1 = k
    · rw [if_pos hy]
      exact .inl (hone y (List.mem_cons_self ..) hy.1 hy.2)
    · rw [if_neg hy]
      refine h.imp id fun hm => (List.mem_cons.1 hm).resolve_left fun e => hy ?_
      rw [← e]
      exact ⟨rfl, rfl⟩

/-! ### Its flags -/

@[simp] theorem setFlags_squad? (s : State) (q : Sel) (f : Fl) : (s.setFlags q.blk f).squad? q = s.squad? q := by
  unfold State.setFlags
  split
  · rfl
  · exact squad?_modBlock_keep s q _ fun _ => rfl

theorem setFlags_fpc (s : State) (b : BSel) (f : Fl) : ((s.setFlags b f).block? b).map (·.fpc)
    = (s.block? b).map fun k => if f = Fl.none then k.fpc else k.fpc.set (s.cyc b.stall b.core) (flBits f) := by
  unfold State.setFlags
  split
  · rfl
  · rw [block?_modBlock, Option.map_map]
    rfl

/-! ### The squad after it -/

theorem Tab.find?_filter_pos {α : Type} {t : Tab α} {n : Nat} {v : α} {p : Nat × α → Bool} (h : Tab.find? t n = some v)
    (hp : p (n, v) = true) : Tab.find? (List.filter p t) n = some v := by
  induction t with
  | nil => cases h
  | cons x t ih =>
    obtain ⟨k, u⟩ := x
    by_cases hk : k = n
    · subst hk
      simp only [Tab.find?, if_true, Option.some.injEq] at h
      subst h
      simp [hp, Tab.find?]
    · simp only [Tab.find?, hk, if_false] at h
      cases hpk : p (k, u) <;> simp [hpk, Tab.find?, hk, ih h]

/-- A squad that keeps a lane stays, and with it its block. -/
theorem reap_of_lanes {s : State} {q : Sel} {b : Block} {sq : Squad} (hb : s.block? q.blk = some b) (hsq : s.squad? q = some sq)
    (hl : sq.lanes ≠ []) : (s.reap q.blk).stores = s.stores ∧ (s.reap q.blk).squad? q = some sq
      ∧ ((s.reap q.blk).block? q.blk).map (·.fpc) = some b.fpc := by
  let p (x : Nat × Squad) : Bool := !s.slotFree ⟨q.blk.stall, q.blk.core, q.blk.pos, x.1⟩ x.2
  have hsq' : Tab.find? b.squads q.slot = some sq := by simpa [State.squad?, hb] using hsq
  have hkeep : Tab.find? (b.squads.filter p) q.slot = some sq :=
    Tab.find?_filter_pos hsq' (by simp [p, State.slotFree, hl])
  have hblk : (s.reapSquads q.blk).block? q.blk = some { b with squads := b.squads.filter p } := by
    rw [State.reapSquads, block?_modBlock, hb]
    rfl
  have hres : (s.reapSquads q.blk).squad? q = some sq := by simpa [State.squad?, hblk] using hkeep
  have hover : (s.reapSquads q.blk).blockOver q.blk { b with squads := b.squads.filter p } = false := by
    cases hf : b.squads.filter p with
    | nil => rw [hf] at hkeep; cases hkeep
    | cons => simp [State.blockOver]
  unfold State.reap
  simp only [hblk, hover]
  split
  · have hcore (n c : Nat) := core_modStall_keep (s.reapSquads q.blk) q.blk.stall (fun t =>
      { t with launches := t.launches.map fun l => if l.id = b.launch then { l with mark := (s.reapSquads q.blk).nextId } else l })
      (fun _ => rfl) n c
    have hblk' := hblk
    have hres' := hres
    simp only [State.squad?, State.block?] at hblk' hres'
    refine ⟨rfl, ?_, ?_⟩
    · simpa only [State.squad?, State.block?, hcore] using hres'
    · simp only [State.block?, hcore, hblk', Option.map_some]
  · exact ⟨rfl, hres, by rw [if_neg (by simp), hblk]; rfl⟩

/-! ### The event -/

/-- A result whose values are fixed, and whose order number is its own, is written and its flags are set; then it has returned, or, where
it names no register, it is over. -/
theorem exec_resultReturn {s : State} {q : Sel} {i : Nat} {sq : Squad} {f : Flight} (hsq : s.squad? q = some sq)
    (hperf : ∀ x ∈ sq.flight, x.perf = true) (hf : sq.flight[i]? = some f) (hone : ∀ g ∈ sq.flight, g.id = f.id → g = f)
    (hret : f.ret = false) : exec (.resultReturn q i) s = .next (
      let u := (s.landFlight q sq.sup f.vals).setFlags q.blk f.fl
      if f.named then u.modSquad q fun x => x.modFlight f.id fun g => { g with ret := true }
      else (u.modSquad q fun x => x.dropFlight f.id).reap q.blk) := by
  have hmem : f ∈ sq.flight := List.mem_of_getElem? hf
  have hfind : sq.flight.find? (fun g => g.id = f.id) = some f := by
    cases hg : sq.flight.find? fun g => g.id = f.id with
    | none => simpa using List.find?_eq_none.1 hg f hmem
    | some g => rw [hone g (List.mem_of_find?_eq_some hg) (by simpa using List.find?_some hg)]
  have hid : ((s.squad? q).bind fun sq => sq.flight[i]?.map fun f => f.id) = some f.id := by simp [hsq, hf]
  show execResultReturn q i s = _
  unfold execResultReturn
  rw [hid]
  dsimp only
  rw [performLoads_fixed hsq hperf, performLoad_fixed hsq hperf, hsq]
  dsimp only
  rw [hfind]
  dsimp only
  rw [hperf f hmem, hret]
  simp only [Bool.not_true, Bool.or_self, Bool.false_eq_true, if_false]
  split <;> rfl

/-- R77: what its return leaves. -/
theorem resultReturn_effect {s : State} {q : Sel} {i : Nat} {b : Block} {sq : Squad} {f : Flight} (hb : s.block? q.blk = some b)
    (hsq : s.squad? q = some sq) (hperf : ∀ x ∈ sq.flight, x.perf = true) (hf : sq.flight[i]? = some f)
    (hone : ∀ g ∈ sq.flight, g.id = f.id → g = f) (hret : f.ret = false) (hl : sq.lanes ≠ []) :
    ∃ t, exec (.resultReturn q i) s = .next t ∧ t.stores = s.stores
      ∧ (t.squad? q).map (·.flight) = some (if f.dst = [] then sq.flight.filter fun g => g.id ≠ f.id
          else sq.flight.map fun g => if g.id = f.id then { g with ret := true } else g)
      ∧ (t.block? q.blk).map (·.fpc) = some (if f.fl = Fl.none then b.fpc else b.fpc.set (s.stall q.stall).clock (flBits f.fl))
      ∧ ∀ l, t.lane? q l = (s.landFlight q sq.sup f.vals).lane? q l := by
  have hland := landFlight_landed hsq sq.sup f.vals
  obtain ⟨y, hy, hflight⟩ := hland.resident hsq
  let u := (s.landFlight q sq.sup f.vals).setFlags q.blk f.fl
  have hu : u.squad? q = some y := (setFlags_squad? ..).trans hy
  have hstores : u.stores = s.stores := (setFlags_stores ..).trans hland.stores
  have hulane (l : Nat) : (s.landFlight q sq.sup f.vals).lane? q l = Tab.find? y.lanes l := lane?_eq hy l
  have hfpc : (u.block? q.blk).map (·.fpc)
      = some (if f.fl = Fl.none then b.fpc else b.fpc.set (s.stall q.stall).clock (flBits f.fl)) := by
    have hfpc₀ := hland.fpc
    rw [hb] at hfpc₀
    obtain ⟨k, hk, hkf⟩ := Option.map_eq_some_iff.1 hfpc₀
    rw [setFlags_fpc, hk, Option.map_some, hkf, hland.cyc]
    rfl
  have hylanes : y.lanes ≠ [] := by
    obtain ⟨⟨l, ln⟩, rest, hsl⟩ := List.exists_cons_of_ne_nil hl
    have hin := hland.lanes l
    rw [hulane, lane?_eq hsq, hsl] at hin
    rintro hnil
    simp [hnil, Tab.find?] at hin
  rw [exec_resultReturn hsq hperf hf hone hret]
  by_cases hd : f.dst = []
  · have hnamed : f.named = false := by simp [Flight.named, hd]
    let v := u.modSquad q fun x => x.dropFlight f.id
    have hv : v.squad? q = some (y.dropFlight f.id) := by simp [v, hu]
    obtain ⟨k, hk, hkf⟩ := Option.map_eq_some_iff.1 hfpc
    have hvb : v.block? q.blk = some (k.modSquad q.slot fun x => x.dropFlight f.id) := by simp [v, hk]
    obtain ⟨hrs, hrq, hrf⟩ := reap_of_lanes hvb hv hylanes
    refine ⟨v.reap q.blk, by simp only [hnamed, Bool.false_eq_true, if_false]; rfl, hrs.trans hstores, ?_, ?_, fun l => ?_⟩
    · rw [hrq, if_pos hd, ← hflight]
      rfl
    · rw [hrf, Block.modSquad_fpc, hkf]
    · rw [hulane, lane?_eq hrq]
      rfl
  · have hnamed : f.named = true := by simp [Flight.named, hd]
    refine ⟨u.modSquad q fun x => x.modFlight f.id fun g => { g with ret := true }, by simp only [hnamed, if_true]; rfl, hstores,
      ?_, ?_, fun l => ?_⟩
    · rw [squad?_modSquad, hu, if_neg hd, ← hflight]
      rfl
    · rw [block?_modSquad, Option.map_map, ← hfpc]
      exact congrArg (Option.map · _) (funext fun b => Block.modSquad_fpc b _ _)
    · rw [hulane, lane?_eq (sq := y.modFlight f.id fun g => { g with ret := true }) (by rw [squad?_modSquad, hu]; rfl)]
      rfl

/-! ## A parked wait returns (R206, R207) -/

/-- A squad of one of the 16 positions of a core has a context. -/
theorem Ctx.of_resident {s : State} (h : Hdr) {b : Block} {sq : Squad} (hpos : s.cur.pos < 16) (hb : s.block? s.cur.blk = some b)
    (hsq : s.squad? s.cur = some sq) : Ctx.of s h
      = some ⟨s, s.cur, b, sq, sq.issuing, sq.issuing.filter fun l => l.2.spec ⟨h.neg, h.pn⟩⟩ := by
  have hsq' : Tab.find? b.squads s.cur.slot = some sq := by simpa [State.squad?, hb] using hsq
  unfold Ctx.of
  rw [if_neg (Nat.not_le.mpr hpos), hb]
  dsimp only
  rw [hsq']

/-- What a wait of a squad sees as it returns: its squad has left its park. -/
def waitCtx (s : State) (q : Sel) (h : Hdr) (b : Block) (sq : Squad) : Ctx where
  s := { s with cur := q }.modSquad q fun x => { x with park := .none }
  q := q
  blk := b
  sq := { sq with park := .none }
  present := sq.issuing
  act := sq.issuing.filter fun l => l.2.spec ⟨h.neg, h.pn⟩

/-- The result that a wait has in hand: the hit bits, bit 3 after a stop, and bit 2 for one that returns late (R207). -/
def waitBits (sq : Squad) (stop late : Bool) : Nat := sq.hits + (if stop then 8 else 0) + (if late then 4 else 0)

theorem waitReturns_eq {s : State} {q : Sel} {b : Block} {sq : Squad} {h : Hdr} {d : Opnd} {dl : Option Nat} {stop : Bool}
    (hpos : q.pos < 16) (hb : s.block? q.blk = some b) (hsq : s.squad? q = some sq) (hrun : b.halt.phase = .run)
    (hpark : sq.park = .wait h d dl stop) (timeout : Bool) : s.waitReturns q timeout =
      let r := waitBits sq stop (timeout && dl.any fun n => n ≤ (s.stall q.stall).clock)
      if r = 0 then s
      else { (((waitCtx s q h b sq).waitResult d r).wordDone q true) with cur := s.cur } := by
  have hof := Ctx.of_resident (s := { s with cur := q }) h hpos hb hsq
  have hun : sq.park ≠ .none := by simp [hpark]
  unfold State.waitReturns
  rw [hb, hsq]
  dsimp only
  rw [hpark, hrun]
  dsimp only
  rw [hof]
  simp only [Ctx.unpark, hun, if_false]
  cases dl <;> rfl

/-- What a wait reports it clears (R207). -/
theorem clearHits_hits (sq : Squad) (stop late : Bool) : (sq.clearHits (waitBits sq stop late)).hits = 0 := by
  unfold waitBits Squad.clearHits Squad.hits
  cases h0 : sq.w0.hit <;> cases h1 : sq.w1.hit <;> cases stop <;> cases late <;> simp [h0, h1]

/-- A lane after one value has been written to the active lanes. -/
theorem applyLanes_sameOut_find (d : Opnd) (ws : List Word) {act : List (Nat × Lane)} (hn : (Tab.keys act).Nodup) (q : Squad) (l : Nat) :
    Tab.find? (q.applyLanes d (sameOut act ws)).lanes l
      = (Tab.find? q.lanes l).map fun ln => if (Tab.find? act l).isSome then ln.write d ws else ln := by
  have hkeys : ((sameOut act ws).map (·.1)).Nodup := by simpa [sameOut, Tab.keys, Function.comp_def] using hn
  have hfind : Tab.find? (sameOut act ws) l = (Tab.find? act l).map fun ln => (ln, .ok { ws := ws }) :=
    Tab.find?_map act (fun _ ln => (ln, (.ok { ws := ws } : Except Nat LaneOut))) l
  rw [applyLanes_find d _ hkeys q l, hfind]
  cases Tab.find? act l with
  | none => simp
  | some x => rfl

/-- R207: a wait that returns leaves its result in its destination and its squad past the word. -/
theorem waitResult_effect {s : State} {q : Sel} {b : Block} {sq : Squad} {h : Hdr} {stop : Bool} (hsq : s.squad? q = some sq)
    (hr : Rising sq.lanes) (hloops : sq.loops = []) (hissue : ∀ y ∈ sq.lanes, y.2.at' = .issue) (d : Opnd) (late : Bool) :
    let r := waitBits sq stop late
    let t := ((waitCtx s q h b sq).waitResult d r).wordDone q true
    t.stores = s.stores ∧ (t.squad? q).map (fun x => (x.pc, x.park, x.hits)) = some (sq.pc + 8, .none, 0)
      ∧ ∀ k l ln, d = .vec k → Tab.find? sq.lanes l = some ln →
          t.body? q l = some (if ln.spec ⟨h.neg, h.pn⟩ then (ln.write d [BitVec.ofNat 32 r]).body else ln.body) := by
  intro r t
  let c := waitCtx s q h b sq
  let x := Squad.clearHits { sq with park := .none } r
  have hx : (c.s.modSquad c.q fun q => q.clearHits r).squad? c.q = some x := by
    have hcs : c.s.squad? q = some { sq with park := .none } := by
      have hcur : State.squad? { s with cur := q } q = some sq := hsq
      simp [c, waitCtx, hcur]
    rw [squad?_modSquad, show c.q = q from rfl, hcs]
    rfl
  obtain ⟨y, hy, hbes, hpc, hlanes⟩ := writeAll_squad c d [BitVec.ofNat 32 r] hx
  have hy : (c.waitResult d r).squad? q = some y := hy
  have hyissue : ∀ z ∈ y.lanes, z.2.at' = .issue := by
    rw [hlanes]
    split
    · exact hissue
    · exact applyLanes_issue _ _ hissue
  have hyloops : y.loops = [] := (congrArg Squad.loops hbes).trans hloops
  refine ⟨writeAll_stores .., ?_, fun k l ln hd hln => ?_⟩
  · obtain ⟨z, hz, hzpc⟩ := Option.map_eq_some_iff.1 (wordDone_pc hy hyloops hyissue)
    have hzbes := wordDone_squad (c.waitResult d r) q true
    rw [hy, hz] at hzbes
    have hzbes : z.besides = x.besides := (congrArg Prod.fst (Option.some.inj hzbes)).trans hbes
    have hzhits : z.hits = 0 := (congrArg Squad.hits hzbes).trans (clearHits_hits sq stop late)
    rw [hz, Option.map_some, hzpc, hpc, show z.park = .none from congrArg Squad.park hzbes, hzhits]
    rfl
  · have hact : Tab.find? c.act l = if ln.spec ⟨h.neg, h.pn⟩ then some ln else none := by
      have hri : Rising sq.issuing := List.Pairwise.sublist (List.filter_sublist.map _) hr
      have hat : ln.at' = .issue := hissue _ (Tab.mem_of_find? hln)
      show Tab.find? (sq.issuing.filter _) l = _
      rw [Tab.find?_filter hri, Squad.issuing, Tab.find?_filter hr, hln]
      simp [Option.filter, hat]
    have hnd : (Tab.keys c.act).Nodup :=
      List.Nodup.sublist (List.Sublist.map _ (List.filter_sublist.trans List.filter_sublist)) hr.nodup
    have hyl : Tab.find? y.lanes l
        = some (if ln.spec ⟨h.neg, h.pn⟩ then ln.write d [BitVec.ofNat 32 r] else ln) := by
      have hsca : d.isSca = false := by rw [hd]; rfl
      rw [hlanes, hsca, if_neg Bool.false_ne_true, applyLanes_sameOut_find d _ hnd, hact,
        show Tab.find? x.lanes l = some ln from hln]
      cases ln.spec ⟨h.neg, h.pn⟩ <;> rfl
    show ((c.waitResult d r).wordDone q true).body? q l = _
    rw [wordDone_body, State.body?, lane?_eq hy, hyl]
    split <;> rfl

/-! ## A single step (R459) -/

/-- What a single step does of a squad that is resident. -/
theorem exec_singleStep {s : State} {q : Sel} {b : Block} {sq : Squad} (hb : s.block? q.blk = some b) (hsq : s.squad? q = some sq) :
    exec (.singleStep q) s = .next
      (if sq.stepped = true ∧ sq.lanes ≠ [] ∧ (b.halt.phase = .run ∨ b.halt.phase = .halting) then
        (s.modSquad q fun x => { x with stepped := false }).takeCausesAt q
          ((if sq.issuing.isEmpty then sq.lanes else sq.issuing).map fun l => (l.1, 0x72)) sq.pc 0 false
      else s) := by
  show execSingleStep q s = _
  unfold execSingleStep
  rw [hb, hsq]
  simp [and_assoc]

end Sys2Proof.Machine
end

section
namespace Sys2Proof.Machine

open Sys2Proof

/-- Settles O36: a result is landed value by value, a wait writes its bits and goes past its word, and a step takes its cause. -/
theorem resultsWaitsAndStepsReturn : Obligations.ResultsWaitsAndStepsReturn := by
  unfold Obligations.ResultsWaitsAndStepsReturn
  refine ⟨fun s q i b sq f hb hsq hperf hf hone hret hl => ?result,
    fun s q b sq h d dl stop i hpos hb hsq hr hrun hpark hloops hissue => ?wait, fun s q b sq hb hsq => ?step⟩
  case result =>
    obtain ⟨t, hx, hst, hfl, hfpc, hlane⟩ := resultReturn_effect hb hsq hperf hf hone hret hl
    refine ⟨t, hx, sameMemory_of_stores hst, hfl, hfpc, fun l k v ln hv huniq h64 hln => ?_⟩
    rw [hlane]
    exact landFlight_reg? hsq sq.sup f.vals h64 huniq (by rw [State.reg?, lane?_eq hsq, hln]; rfl) (.inr hv)
  case wait =>
    intro late bits hi
    obtain ⟨timeout, hexec, hlate⟩ : ∃ timeout, exec i s = .next (s.waitReturns q timeout)
        ∧ (late ↔ (timeout && dl.any fun n => n ≤ (s.stall q.stall).clock) = true) := by
      obtain rfl | rfl := hi
      · exact ⟨false, rfl, by simp [late]⟩
      · exact ⟨true, rfl, by cases dl <;> simp [late]⟩
    rw [hexec, waitReturns_eq hpos hb hsq hrun hpark]
    generalize (timeout && dl.any fun n => n ≤ (s.stall q.stall).clock) = now at hlate
    have hbits : waitBits sq stop now = bits + if now then 4 else 0 := rfl
    refine ⟨fun ⟨h0, hn⟩ => ?_, fun r hcase hr0 => ?_⟩
    · have hnow : now = false := by rwa [hlate, Bool.not_eq_true] at hn
      have hzero : waitBits sq stop now = 0 := by rw [hbits, hnow, h0]; rfl
      simp only [hzero, if_true]
    · have hr' : waitBits sq stop now = r := by
        rw [hbits]
        obtain ⟨hn, rfl⟩ | ⟨hn, rfl⟩ := hcase
        · rw [hlate, Bool.not_eq_true] at hn
          simp [hn]
        · rw [hlate] at hn
          simp [hn]
      obtain ⟨hst, hsquad, hbody⟩ := waitResult_effect (b := b) (h := h) (stop := stop) hsq hr hloops hissue d now
      rw [hr'] at hst hsquad hbody
      simp only [hr', hr0, if_false]
      exact ⟨_, rfl, sameMemory_of_stores hst, hsquad, hbody⟩
  case step =>
    rw [exec_singleStep hb hsq]
    exact ⟨fun h => by rw [if_neg h], fun h => by rw [if_pos h]⟩

end Sys2Proof.Machine
end

section
/-! SUPPORT. The pair word: what each slot leaves of its lanes, its scalar register and its flags (R73 to R76). -/

namespace Sys2Proof.Machine

open Sys2Proof

/-! ## The result of a slot in a lane -/

theorem Lane.apply_of_words (ln : Lane) (d : Opnd) {o : LaneOut} (hps : o.ps = []) (hrnd : o.rnd = none) :
    ln.apply d o = ln.write d o.ws := by
  simp [Lane.apply, hps, hrnd]

/-- A slot writes words, and neither a predicate nor a random state. -/
theorem slotOut_words (c : Ctx) (x : Slot) (l : Nat) (ln : Lane) : (slotOut c x l ln).ps = [] ∧ (slotOut c x l ln).rnd = none := by
  unfold slotOut
  dsimp only
  split <;> exact ⟨rfl, rfl⟩

theorem Lane.apply_slotOut (tgt : Lane) (c : Ctx) (x : Slot) (l : Nat) (ln : Lane) :
    tgt.apply (slotD x) (slotOut c x l ln) = tgt.write (slotD x) (slotOut c x l ln).ws :=
  Lane.apply_of_words _ _ (slotOut_words c x l ln).1 (slotOut_words c x l ln).2

theorem slotOut_nop {x : Slot} (h : x.rop = .nop) (c : Ctx) (l : Nat) (ln : Lane) : (slotOut c x l ln).ws = [] := by
  simp [slotOut, h]

@[simp] theorem Lane.write_helper (ln : Lane) (d : Opnd) (ws : List Word) : (ln.write d ws).helper = ln.helper := by
  cases d <;> rfl

@[simp] theorem slotLane_helper (c : Ctx) (x : Slot) (l : Nat) (ln tgt : Lane) : (slotLane c x l ln tgt).helper = tgt.helper := by
  unfold slotLane
  rw [Lane.apply_slotOut]
  split <;> simp

/-- Where a slot has an active lane but no actor there, it leaves the lane as it is: it is a nop, or its D is scalar. -/
theorem slotLane_of_no_vector {c : Ctx} {x : Slot} (h : x.rop = .nop ∨ (slotD x).isSca = true) (l : Nat) (ln tgt : Lane) :
    slotLane c x l ln tgt = tgt := by
  unfold slotLane
  split
  · rw [Lane.apply_slotOut]
    rcases h with h | h
    · rw [slotOut_nop h]
      cases slotD x <;> rfl
    · cases hd : slotD x with
      | vec k => rw [hd] at h; cases h
      | _ => rfl
  · rfl

/-! ## The actors of a slot -/

theorem slotActors_mem {c : Ctx} {x : Slot} {y : Nat × Lane} (h : y ∈ slotActors c x) : y ∈ c.present ∧ slotActs x y.2 = true := by
  unfold slotActors at h
  dsimp only at h
  split at h
  · cases h
  · exact List.mem_filter.1 (Ctx.actors_mem h)

theorem slotActors_nodup {c : Ctx} (r : Rising c.present) (x : Slot) : (Tab.keys (slotActors c x)).Nodup := by
  unfold slotActors
  dsimp only
  split
  · exact List.nodup_nil
  · exact actors_nodup (c := { c with act := c.present.filter fun y => slotActs x y.2 })
      (List.Pairwise.sublist (List.filter_sublist.map _) r) _

/-- Every active lane is an actor of a slot that writes vector registers. -/
theorem slotActors_of_vector {c : Ctx} {x : Slot} {l : Nat} {ln : Lane} (hnop : x.rop ≠ .nop) (hd : (slotD x).isSca = false)
    (hm : (l, ln) ∈ c.present) (ha : slotActs x ln = true) : (l, ln) ∈ slotActors c x := by
  simp [slotActors, hnop, Ctx.actors, hd, hm, ha]

/-! ## The results of a slot -/

/-- The results of a slot none of whose lanes meets a cause. -/
def slotOuts (c : Ctx) (x : Slot) : List (Nat × Lane × Except Nat LaneOut) :=
  (slotActors c x).map fun y => (y.1, y.2, .ok (slotOut c x y.1 y.2))

/-- No lane of a slot meets an exception whose enable is set (R111). -/
def slotQuiet (c : Ctx) (x : Slot) : Prop := ∀ l ln, (l, ln) ∈ slotActors c x → fpCause c.fpc (slotOut c x l ln).fl = none

theorem slotResults_of_quiet {c : Ctx} {x : Slot} (h : slotQuiet c x) : slotResults c x = slotOuts c x := by
  show runLanes c.fpc (slotActors c x) (fun l ln => .ok (slotOut c x l ln)) = _
  exact List.map_congr_left fun y hy => by rw [trapped_ok (h y.1 y.2 hy)]

@[simp] theorem realCauses_slotOuts (c : Ctx) (x : Slot) : realCauses (slotOuts c x) = [] := by
  simp [realCauses, slotOuts]

@[simp] theorem helperCauses_slotOuts (c : Ctx) (x : Slot) : helperCauses (slotOuts c x) = [] := by
  simp [helperCauses, slotOuts]

@[simp] theorem realFlags_slotOuts (c : Ctx) (x : Slot) : realFlags (slotOuts c x) = slotFlags c x := by
  unfold realFlags slotOuts slotFlags
  rw [List.foldl_map]

/-- A lane that issues after one slot has written its results. -/
theorem applyLanes_slotOuts_find {c : Ctx} (r : Rising c.present) (x : Slot) {l : Nat} {ln : Lane} (hm : (l, ln) ∈ c.present)
    (q : Squad) : Tab.find? (q.applyLanes (slotD x) (slotOuts c x)).lanes l = (Tab.find? q.lanes l).map (slotLane c x l ln) := by
  have hnd := slotActors_nodup r x
  have hkeys : ((slotOuts c x).map (·.1)).Nodup := by simpa [slotOuts, Tab.keys, Function.comp_def] using hnd
  have hfind : Tab.find? (slotOuts c x) l = (Tab.find? (slotActors c x) l).map fun y => (y, .ok (slotOut c x l y)) :=
    Tab.find?_map (slotActors c x) (fun l y => (y, (.ok (slotOut c x l y) : Except Nat LaneOut))) l
  rw [applyLanes_find _ _ hkeys, hfind]
  cases hf : Tab.find? (slotActors c x) l with
  | some y =>
    obtain ⟨hy, hacts⟩ := slotActors_mem (Tab.mem_of_find? hf)
    obtain rfl : y = ln := Option.some.inj ((Tab.find?_of_mem r.nodup hy).symm.trans (Tab.find?_of_mem r.nodup hm))
    have hlane : slotLane c x l y = fun tgt => tgt.apply (slotD x) (slotOut c x l y) := funext fun tgt => if_pos hacts
    rw [hlane]
    rfl
  | none =>
    have hid : slotLane c x l ln = id := by
      funext tgt
      by_cases hv : x.rop = .nop ∨ (slotD x).isSca = true
      · exact slotLane_of_no_vector hv l ln tgt
      · obtain ⟨hnop, hd⟩ := not_or.1 hv
        refine if_neg fun hacts => ?_
        have hactor := Tab.find?_of_mem hnd (slotActors_of_vector hnop (Bool.eq_false_iff.2 hd) hm hacts)
        rw [hf] at hactor
        cases hactor
    rw [hid, Option.map_id]
    rfl

/-! ## The scalar register of a slot -/

/-- The scalar destination of a slot and its words; a slot without an actor writes none. -/
def slotWrite (c : Ctx) (x : Slot) : Opnd × List Word :=
  match slotActors c x with
  | [] => (.zero, [])
  | y :: _ => (slotD x, (slotOut c x y.1 y.2).ws)

theorem firstWords_slotOuts (c : Ctx) (x : Slot) : (firstWords (slotOuts c x) = none ∧ slotWrite c x = (.zero, []))
    ∨ ∃ ws, firstWords (slotOuts c x) = some ws ∧ slotWrite c x = (slotD x, ws) := by
  unfold slotOuts slotWrite
  cases slotActors c x with
  | nil => exact .inl ⟨rfl, rfl⟩
  | cons y ys => exact .inr ⟨_, rfl, rfl⟩

theorem scaFile_slotWrite {s : State} {c : Ctx} {q : Squad} (hq : s.squad? c.q = some q) (x : Slot) :
    (s.writeSca c.q c.sq.sup (slotWrite c x).1 (slotWrite c x).2).scaFile c.q c.sq.sup = slotSca c x (s.scaFile c.q c.sq.sup) := by
  rw [(writeSca_spec s c.q c.sq.sup _ (slotWrite c x).2 q hq).1]
  unfold slotSca slotWrite
  cases slotActors c x <;> cases slotD x <;> rfl

/-! ## The word -/

/-- The lanes of a squad once slot A, and then slot B, has written its results. -/
def pairLanes (c : Ctx) (sa sb : Slot) (q : Squad) : Squad :=
  ((q.applyLanes (slotD sa) (slotOuts c sa)).applyLanes (slotD sb) (slotOuts c sb)).dropLanes []

/-- The machine once both slots have written their results. -/
def pairState (c : Ctx) (sa sb : Slot) : State :=
  (((c.s.modSquad c.q (pairLanes c sa sb)).writeSca c.q c.sq.sup (slotWrite c sa).1 (slotWrite c sa).2).writeSca
    c.q c.sq.sup (slotWrite c sb).1 (slotWrite c sb).2).oweFlags c.q.blk ((slotFlags c sa).or (slotFlags c sb))

/-- Where no lane of either slot meets a cause, a pair word writes the results of both. -/
theorem exec_pairWord {s : State} {m : Bool} {sa sb : Slot} {c : Ctx} (w : Runs s (.pairWord m sa sb) c) (ha : slotQuiet c sa)
    (hb : slotQuiet c sb) : exec (.pairWord m sa sb) s = .next ((pairState c sa sb).wordDone c.q true) := by
  show execPairWord m sa sb s = _
  unfold execPairWord
  refine (issue_of w _).trans (congrArg _ ?_)
  have hnone : mergeCauses [] [] = [] := rfl
  simp only [slotResults_of_quiet ha, slotResults_of_quiet hb, realCauses_slotOuts, helperCauses_slotOuts, realFlags_slotOuts, hnone,
    ne_eq, not_true_eq_false, if_false, List.append_nil]
  rcases firstWords_slotOuts c sa with ⟨hfa, hwa⟩ | ⟨wa, hfa, hwa⟩ <;>
    rcases firstWords_slotOuts c sb with ⟨hfb, hwb⟩ | ⟨wb, hfb, hwb⟩ <;>
    simp only [pairState, hfa, hwa, hfb, hwb] <;> rfl

@[simp] theorem Ctx.start_lanes (c : Ctx) (m : Bool) : (c.start m).sq.lanes = c.sq.lanes := by
  unfold Ctx.start Ctx.unpark Ctx.clearFlight; cases m <;> simp <;> split <;> rfl

/-- The lanes of a squad that issues are in order, as those of every squad. -/
theorem Issues.rising {s : State} {h : Hdr} {u : Ctx → WordUse} {c : Ctx} (w : Issues s h u c) (o : Ordered s) :
    Rising c.sq.lanes := by
  obtain ⟨c₀, h₀, -, rfl, -, -⟩ := w
  obtain ⟨-, -, -, hsq, -, -⟩ := Ctx.of_eq h₀
  rw [Ctx.start_lanes]
  exact o.2 _ _ hsq

/-- The lanes of the issuing group are lanes of the squad. -/
theorem Issues.present_sublist {s : State} {h : Hdr} {u : Ctx → WordUse} {c : Ctx} (w : Issues s h u c) :
    c.present.Sublist c.sq.lanes := by
  obtain ⟨c₀, h₀, -, rfl, -, -⟩ := w
  obtain ⟨-, -, -, -, hp, -⟩ := Ctx.of_eq h₀
  rw [Ctx.start_present, hp, Ctx.start_lanes]
  exact List.filter_sublist

/-- A lane that issues after both slots: B's result over A's, each from what the registers held before the word. -/
theorem pairLanes_find {c : Ctx} (hr : Rising c.sq.lanes) (hsub : c.present.Sublist c.sq.lanes) (sa sb : Slot) {l : Nat} {ln : Lane}
    (hm : (l, ln) ∈ c.present) (hh : ln.helper = false) :
    Tab.find? (pairLanes c sa sb c.sq).lanes l = some (slotLane c sb l ln (slotLane c sa l ln ln)) := by
  have hp : Rising c.present := List.Pairwise.sublist (hsub.map _) hr
  have hln : Tab.find? c.sq.lanes l = some ln := Tab.find?_of_mem hr.nodup (hsub.subset hm)
  have hfind : Tab.find? ((c.sq.applyLanes (slotD sa) (slotOuts c sa)).applyLanes (slotD sb) (slotOuts c sb)).lanes l
      = some (slotLane c sb l ln (slotLane c sa l ln ln)) := by
    rw [applyLanes_slotOuts_find hp sb hm, applyLanes_slotOuts_find hp sa hm, hln]
    rfl
  have hrise := applyLanes_rising (slotD sb) (slotOuts c sb) (applyLanes_rising (slotD sa) (slotOuts c sa) hr)
  exact (dropLanes_find hrise [] l hfind).1 (by simpa using hh) (List.not_mem_nil)

theorem pairLanes_besides (c : Ctx) (sa sb : Slot) (q : Squad) :
    (pairLanes c sa sb q).besides = q.besides ∧ (pairLanes c sa sb q).sca = q.sca :=
  ⟨(dropLanes_besides ..).1.trans ((applyLanes_besides ..).1.trans (applyLanes_besides ..).1),
    (dropLanes_besides ..).2.trans ((applyLanes_besides ..).2.trans (applyLanes_besides ..).2)⟩

@[simp] theorem oweFlags_stores (s : State) (b : BSel) (f : Fl) : (s.oweFlags b f).stores = s.stores := by
  unfold State.oweFlags
  split <;> rfl

theorem oweFlags_scaFile (s : State) (q : Sel) (f : Fl) (sup : Bool) : (s.oweFlags q.blk f).scaFile q sup = s.scaFile q sup := by
  cases sup <;> simp [State.scaFile, oweFlags_squad?, oweFlags_core]

/-- An update of the squad that keeps its scalar file keeps the scalar file of either mode. -/
theorem modSquad_scaFile {s : State} {q : Sel} {f : Squad → Squad} (h : ∀ x, (f x).sca = x.sca) (sup : Bool) :
    (s.modSquad q f).scaFile q sup = s.scaFile q sup := by
  cases sup
  · unfold State.scaFile
    rw [squad?_modSquad]
    cases s.squad? q <;> simp [h]
  · simp [State.scaFile, modSquad_supFile]

/-- What both slots have left once they have written: lanes, scalar file, flags owed, and nothing else. -/
structure PairEffect (c : Ctx) (sa sb : Slot) (t : State) : Prop where
  lanes : ∀ l, t.lane? c.q l = Tab.find? (pairLanes c sa sb c.sq).lanes l
  scalars : t.scaFile c.q c.sq.sup = slotSca c sb (slotSca c sa (c.s.scaFile c.q c.sq.sup))
  squad : (t.squad? c.q).map Squad.besides = some c.sq.besides
  block : (t.block? c.q.blk).map (fun b => (b.besides, b.fpc))
    = some (c.blk.besides, c.owedFpc ((slotFlags c sa).or (slotFlags c sb)))
  stores : t.stores = c.s.stores

theorem pairState_effect {s : State} {h : Hdr} {u : Ctx → WordUse} {c : Ctx} (w : Issues s h u c) (sa sb : Slot) :
    PairEffect c sa sb (pairState c sa sb) := by
  obtain ⟨-, hsq, b, hb, hbb, hbf⟩ := w.resident
  let s₁ := c.s.modSquad c.q (pairLanes c sa sb)
  have h₁ : s₁.squad? c.q = some (pairLanes c sa sb c.sq) := by simp [s₁, hsq]
  let s₂ := s₁.writeSca c.q c.sq.sup (slotWrite c sa).1 (slotWrite c sa).2
  obtain ⟨-, -, hlane₂, hbes₂, -, hblk₂, -⟩ := writeSca_spec s₁ c.q c.sq.sup (slotWrite c sa).1 (slotWrite c sa).2 _ h₁
  obtain ⟨x₂, h₂, hx₂⟩ : ∃ x, s₂.squad? c.q = some x ∧ x.besides = c.sq.besides := by
    rw [h₁, Option.map_some, (pairLanes_besides c sa sb c.sq).1] at hbes₂
    exact Option.map_eq_some_iff.1 hbes₂
  let s₃ := s₂.writeSca c.q c.sq.sup (slotWrite c sb).1 (slotWrite c sb).2
  obtain ⟨-, -, hlane₃, hbes₃, -, hblk₃, -⟩ := writeSca_spec s₂ c.q c.sq.sup (slotWrite c sb).1 (slotWrite c sb).2 x₂ h₂
  have hwrite₂ := writeSca_completion s₁ c.q c.sq.sup (slotWrite c sa).1 (slotWrite c sa).2 c.q.blk
  have hwrite₃ := writeSca_completion s₂ c.q c.sq.sup (slotWrite c sb).1 (slotWrite c sb).2 c.q.blk
  have hcyc (st k : Nat) : s₃.cyc st k = c.s.cyc st k := (hwrite₃.1 st k).trans ((hwrite₂.1 st k).trans (modSquad_cyc ..))
  have hcompl : s₃.completion c.q.blk = c.s.completion c.q.blk :=
    hwrite₃.2.trans (hwrite₂.2.trans (by simp [s₁, State.completion]))
  constructor
  case lanes =>
    intro l
    show (s₃.oweFlags _ _).lane? c.q l = _
    have howe : (s₃.oweFlags c.q.blk ((slotFlags c sa).or (slotFlags c sb))).lane? c.q l = s₃.lane? c.q l := by
      simp only [State.lane?, oweFlags_squad?]
    rw [howe, hlane₃, hlane₂, lane?_eq h₁]
  case scalars =>
    show (s₃.oweFlags _ _).scaFile c.q c.sq.sup = _
    rw [oweFlags_scaFile, scaFile_slotWrite h₂, scaFile_slotWrite h₁, modSquad_scaFile fun x => (pairLanes_besides c sa sb x).2]
  case squad =>
    show ((s₃.oweFlags _ _).squad? c.q).map _ = _
    rw [oweFlags_squad?, hbes₃, h₂, Option.map_some, hx₂]
  case block =>
    show ((s₃.oweFlags _ _).block? c.q.blk).map _ = _
    have hpair : (s₃.block? c.q.blk).map (fun b => (b.besides, b.fpc)) = some (c.blk.besides, c.blk.fpc) := by
      rw [hblk₃, hblk₂]
      simp [s₁, hb, Block.besides_modSquad, hbb, hbf]
    obtain ⟨y, hy, hyp⟩ := Option.map_eq_some_iff.1 hpair
    obtain ⟨hyb, hyf⟩ := Prod.mk.inj hyp
    rw [oweFlags_block?, hy, Option.map_some, hyb, hyf, hcyc, hcompl]
    rfl
  case stores => simp [pairState]

end Sys2Proof.Machine
end

section
namespace Sys2Proof.Machine

open Sys2Proof

/-- Settles O7: each slot writes its results over its own lanes, slot A first, and both compute from the word's context. -/
theorem pairWordAppliesBothSlots : Obligations.PairWordAppliesBothSlots := by
  unfold Obligations.PairWordAppliesBothSlots
  intro s m sa sb c w hord hquiet
  obtain ⟨hlanes, hsca, hsquad, hblock, hstores⟩ := pairState_effect w sa sb
  refine ⟨_, exec_pairWord w (fun l ln => hquiet sa l ln (.inl rfl)) (fun l ln => hquiet sb l ln (.inr rfl)), fun l ln hm hh => ?_,
    (wordDone_scaFile ..).trans hsca, ?_, (wordDone_block ..).trans hblock,
    sameMemory_of_stores ((wordDone_stores ..).trans hstores)⟩
  · rw [wordDone_body, State.body?, hlanes, pairLanes_find (w.rising hord) w.present_sublist sa sb hm hh]
    rfl
  · have hdone := congrArg (Option.map Prod.fst) (wordDone_squad (pairState c sa sb) c.q true)
    rw [Option.map_map, Option.map_map] at hdone
    exact hdone.trans hsquad

end Sys2Proof.Machine
end

section
/-! SUPPORT. Register words some of whose lanes meet a cause: which causes the word's own lane function meets, and that the
word takes them and does nothing else (R111, R124, R434). -/

namespace Sys2Proof.Machine

open Sys2Proof

/-! ## The causes that a word's lane function meets -/

/-- The cause that a lane's result meets under FPC: that of the word, or the lowest exception whose enable is set (R111). -/
def outCause (fpc : Word) : Except Nat LaneOut → Option Nat
  | .error e => some e
  | .ok o => fpCause fpc o.fl

theorem LaneWord.causeOf_eq (w : LaneWord) (c : Ctx) (l : Nat) (ln : Lane) : w.causeOf c l ln = outCause c.fpc (w.out c l ln) := by
  unfold LaneWord.causeOf
  cases w.out c l ln <;> rfl

theorem realCauses_runLanes (fpc : Word) (ls : List (Nat × Lane)) (f : Nat → Lane → Except Nat LaneOut) :
    realCauses (runLanes fpc ls f)
      = ls.filterMap fun x => if x.2.helper then none else (outCause fpc (f x.1 x.2)).map fun e => (x.1, e) := by
  unfold realCauses runLanes
  rw [List.filterMap_map]
  congr 1
  funext x
  cases hf : f x.1 x.2 with
  | error e => simp [hf, trapped, outCause]
  | ok o => cases hc : fpCause fpc o.fl <;> simp [hf, hc, trapped, outCause]

/-- The causes of exceptions are 0x11 to 0x15: none stands for an access that waits. -/
theorem isWait_of_fpCause {fpc : Word} {f : Fl} {e : Nat} (h : fpCause fpc f = some e) : isWait e = false := by
  obtain ⟨x, hx, rfl⟩ := Option.map_eq_some_iff.1 h
  have hmem := List.mem_of_find?_eq_some hx
  have hle : x.1 ≤ 4 := by
    simp only [flList, List.mem_cons, List.not_mem_nil, or_false] at hmem
    rcases hmem with rfl | rfl | rfl | rfl | rfl <;> simp
  have hlt : 0x11 + x.1 < waitCode := by unfold waitCode; omega
  exact decide_eq_false (Nat.not_le.2 hlt)

/-- A word runs a lane function that meets the causes of a register word's formula, none of them for an access that waits. -/
structure MeetsCauses (i : Instr) (w : LaneWord) (f : Ctx → Nat → Lane → Except Nat LaneOut) : Prop where
  exec_eq : ∀ s, exec i s = issue (hdrOf i) (useOf i) (fun c => c.perLane w.d (f c)) s
  cause_eq : ∀ c l ln, outCause c.fpc (f c l ln) = w.causeOf c l ln
  no_wait : ∀ c l ln e, f c l ln = .error e → isWait e = false

/-- A word that runs its formula meets its causes, where the formula has no cause but exceptions. -/
theorem MeetsCauses.of_ok {i : Instr} {w : LaneWord}
    (hexec : ∀ s, exec i s = issue (hdrOf i) (useOf i) (fun c => c.perLane w.d (w.out c)) s)
    (hok : ∀ c l ln, ∃ o, w.out c l ln = .ok o) : MeetsCauses i w w.out := by
  refine ⟨hexec, fun c l ln => (w.causeOf_eq c l ln).symm, fun c l ln e he => ?_⟩
  obtain ⟨o, ho⟩ := hok c l ln
  rw [ho] at he
  cases he

theorem MeetsCauses.isWait_eq_false {i : Instr} {w : LaneWord} {f : Ctx → Nat → Lane → Except Nat LaneOut} (m : MeetsCauses i w f)
    {c : Ctx} {l : Nat} {ln : Lane} {e : Nat} (h : w.causeOf c l ln = some e) : isWait e = false := by
  rw [← m.cause_eq] at h
  cases hf : f c l ln with
  | error e' =>
    rw [hf] at h
    obtain rfl : e' = e := Option.some.inj h
    exact m.no_wait c l ln _ hf
  | ok o =>
    rw [hf] at h
    exact isWait_of_fpCause h

/-- The causes of a register word are those that its lane function raises. -/
theorem MeetsCauses.realCauses_eq {i : Instr} {w : LaneWord} {f : Ctx → Nat → Lane → Except Nat LaneOut} (m : MeetsCauses i w f)
    (c : Ctx) : realCauses (runLanes c.fpc (c.actors w.d) (f c)) = w.causes c := by
  rw [realCauses_runLanes]
  simp only [m.cause_eq]
  rfl

theorem MeetsCauses.anyWaits_eq_false {i : Instr} {w : LaneWord} {f : Ctx → Nat → Lane → Except Nat LaneOut} (m : MeetsCauses i w f)
    (c : Ctx) : anyWaits (w.causes c) = false := by
  refine List.any_eq_false.2 fun x hx => ?_
  obtain ⟨y, -, hy⟩ := List.mem_filterMap.1 hx
  split at hy
  · cases hy
  · obtain ⟨e, he, rfl⟩ := Option.map_eq_some_iff.1 hy
    simp [m.isWait_eq_false he]

/-- Such a word takes its causes, where it has any. -/
theorem MeetsCauses.exec_takeCauses {i : Instr} {w : LaneWord} {f : Ctx → Nat → Lane → Except Nat LaneOut} (m : MeetsCauses i w f)
    {s : State} {c : Ctx} (hr : Runs s i c) (hc : w.causes c ≠ []) :
    exec i s = .next (c.s.takeCauses c.q (w.causes c) c.sq.pc 0) := by
  have hlane : c.perLane w.d (f c) = .raise (w.causes c) 0 := by
    have hreal : realCauses (runLanes c.fpc (if w.d.isSca then c.acting.toList else c.act) (f c)) = w.causes c := m.realCauses_eq c
    simp only [Ctx.perLane, hreal, hc, ne_eq, not_false_eq_true, if_true]
  rw [m.exec_eq, issue_of hr, hlane]
  simp only [Ctx.finish, Ctx.raise, m.anyWaits_eq_false, Bool.false_eq_true, if_false]

/-! ## The words that meet no cause -/

/-- No lane of the word meets a cause, whatever its operands. -/
def LaneWord.causeless (w : LaneWord) : Prop := ∀ c l ln, w.causeOf c l ln = none

theorem LaneWord.causeless.causes_eq_nil {w : LaneWord} (h : w.causeless) (c : Ctx) : w.causes c = [] := by
  refine List.filterMap_eq_nil_iff.2 fun x _ => ?_
  rw [h, Option.map_none, ite_self]

theorem arithWord?_causeless {i : Instr} {w : LaneWord} (h : arithWord? i = some w) : w.causeless := by
  unfold arithWord? at h
  split at h <;> cases h <;> exact fun _ _ _ => rfl

theorem bitWord?_causeless {i : Instr} {w : LaneWord} (h : bitWord? i = some w) : w.causeless := by
  unfold bitWord? at h
  split at h <;> cases h <;> exact fun _ _ _ => rfl

theorem predWord?_causeless {i : Instr} {w : LaneWord} (h : predWord? i = some w) : w.causeless := by
  unfold predWord? at h
  split at h <;> cases h <;> exact fun _ _ _ => rfl

theorem moveWord?_causeless {i : Instr} {w : LaneWord} (h : moveWord? i = some w) : w.causeless := by
  unfold moveWord? at h
  split at h <;> cases h <;> exact fun _ _ _ => rfl

theorem statusWord?_causeless {i : Instr} {w : LaneWord} (h : statusWord? i = some w) : w.causeless := by
  unfold statusWord? at h
  split at h <;> cases h <;> exact fun _ _ _ => rfl

/-! ## Division (R124) -/

/-- The register image of a last source holds its natural number. -/
theorem rdRI_toNat (c : Ctx) (ty : ITy) (l : Nat) (ln : Lane) (b : RI) : (c.rdRI ty l ln b).toNat = c.natLast ty l ln b := by
  cases b with
  | reg o => rfl
  | imm v =>
    have hv := v.isLt
    cases ty <;> simp [Ctx.rdRI, Ctx.natLast, ITy.imm, ITy.signed, tyBits, ITy.wide, BitVec.signExtend.eq_1] <;> omega

theorem natLast_lt (c : Ctx) (ty : ITy) (l : Nat) (ln : Lane) (b : RI) : c.natLast ty l ln b < 2 ^ tyBits ty := by
  rw [← rdRI_toNat]
  cases hw : ty.wide with
  | true => simpa [tyBits, hw] using (c.rdRI ty l ln b).isLt
  | false =>
    have hcut : ∃ x : Word, c.rdRI ty l ln b = x.zeroExtend 64 := by
      cases b with
      | reg o => exact ⟨c.rd l ln o, by simp [Ctx.rdRI, Ctx.rdW, hw]⟩
      | imm v =>
        cases ty with
        | i32 => exact ⟨v.signExtend 32, rfl⟩
        | n32 => exact ⟨v.zeroExtend 32, by simp [Ctx.rdRI, ITy.imm]⟩
        | i64 => cases hw
        | n64 => cases hw
    obtain ⟨x, hx⟩ := hcut
    have hlt := x.isLt
    simp [hx, tyBits, hw]
    omega

/-- A register image below 2^N reads as its natural number does (R101). -/
theorem ITy.val_eq_readAs {ty : ITy} {x : DWord} (h : x.toNat < 2 ^ tyBits ty) : ty.val x = readAs ty x.toNat := by
  cases ty <;>
    simp [ITy.val, readAs, ITy.signed, tyBits, ITy.wide, BitVec.toInt_eq_toNat_cond] at h ⊢ <;>
    omega

/-- A last source has the value that its type reads (R101, R122). -/
theorem val_rdRI (c : Ctx) (ty : ITy) (l : Nat) (ln : Lane) (b : RI) : ty.val (c.rdRI ty l ln b) = c.last ty l ln b := by
  have hn := rdRI_toNat c ty l ln b
  have hlt := natLast_lt c ty l ln b
  rw [← hn] at hlt
  rw [ITy.val_eq_readAs hlt, hn]
  rfl

/-- What div and rem do in a lane: a zero divisor is their cause 0x10. -/
def divLane (ty : ITy) (a : Opnd) (b : RI) (g : Int → Int → DWord) (c : Ctx) (l : Nat) (ln : Lane) : Except Nat LaneOut :=
  let x := ty.val (c.rdW ty.wide l ln a)
  let y := ty.val (c.rdRI ty l ln b)
  if y = 0 then .error 0x10 else outW ty.wide (g x y)

theorem outCause_divLane (fpc : Word) (ty : ITy) (a : Opnd) (b : RI) (g : Int → Int → DWord) (c : Ctx) (l : Nat) (ln : Lane) :
    outCause fpc (divLane ty a b g c l ln) = if c.last ty l ln b = 0 then some 0x10 else none := by
  simp only [divLane, val_rdRI]
  split <;> rfl

theorem divLane_error {ty : ITy} {a : Opnd} {b : RI} {g : Int → Int → DWord} {c : Ctx} {l : Nat} {ln : Lane} {e : Nat}
    (h : divLane ty a b g c l ln = .error e) : e = 0x10 := by
  simp only [divLane] at h
  split at h <;> cases h
  rfl

/-- A word that divides in its lanes meets the causes of a formula whose only cause is a zero divisor. -/
theorem MeetsCauses.of_divLane {i : Instr} {w : LaneWord} {ty : ITy} {a : Opnd} {b : RI} {g : Int → Int → DWord}
    (hexec : ∀ s, exec i s = issue (hdrOf i) (useOf i) (fun c => c.perLane w.d (divLane ty a b g c)) s)
    (hcause : ∀ c l ln, w.causeOf c l ln = if c.last ty l ln b = 0 then some 0x10 else none) : MeetsCauses i w (divLane ty a b g) :=
  ⟨hexec, fun c l ln => by rw [outCause_divLane, hcause], fun c l ln e he => by rw [divLane_error he]; rfl⟩

theorem divWord?_meetsCauses {i : Instr} {w : LaneWord} (h : divWord? i = some w) : ∃ f, MeetsCauses i w f := by
  unfold divWord? at h
  split at h
  case h_1 hd ty sat d a b =>
    cases h
    refine ⟨divLane ty a b (ty.quot sat), .of_divLane (fun s => rfl) fun c l ln => ?_⟩
    rw [LaneWord.causeOf_eq]
    dsimp only
    split <;> rfl
  case h_2 hd ty d a b =>
    cases h
    refine ⟨divLane ty a b fun x y => ty.put false (x.tmod y), .of_divLane (fun s => rfl) fun c l ln => ?_⟩
    rw [LaneWord.causeOf_eq]
    dsimp only
    split <;> rfl
  case h_3 => cases h

/-! ## The floating-point group, conversions, reductions and scans (R111) -/

theorem fpWord?_meetsCauses {i : Instr} {w : LaneWord} (h : fpWord? i = some w) : MeetsCauses i w w.out := by
  unfold fpWord? at h
  split at h <;> cases h <;> exact .of_ok (fun _ => rfl) fun _ _ _ => ⟨_, rfl⟩

/-- The words of a 32-bit result. -/
theorem ftWords_f32 (v : Nat) : ftWords .f32 v = [BitVec.ofNat 32 v] := by
  have hlo : lo32 (BitVec.ofNat 64 v) = BitVec.ofNat 32 v := by
    apply BitVec.eq_of_toNat_eq
    simp [lo32]
  exact congrArg (fun x => [x]) hlo

theorem fpPickWord?_meetsCauses {i : Instr} {w : LaneWord} (h : fpPickWord? i = some w) : MeetsCauses i w w.out := by
  unfold fpPickWord? at h
  split at h <;> cases h
  case h_6 hd bf e d a b x =>
    refine .of_ok (fun s => ?_) fun _ _ _ => ⟨_, rfl⟩
    show execFdot2 hd bf e d a b x s = _
    simp only [roundedOut, ftWords_f32]
    rfl
  all_goals exact .of_ok (fun _ => rfl) fun _ _ _ => ⟨_, rfl⟩

/-- Invalid values together: NV where one of them is invalid. -/
theorem foldl_or_inv {α : Type} (p : α → Bool) (xs : List α) (b : Bool) :
    xs.foldl (fun f x => f.or (Fl.inv (p x))) (Fl.inv b) = Fl.inv (b || xs.any p) := by
  induction xs generalizing b with
  | nil => simp
  | cons x xs ih =>
    have hor : (Fl.inv b).or (Fl.inv (p x)) = Fl.inv (b || p x) := rfl
    rw [List.foldl_cons, hor, ih, List.any_cons, Bool.or_assoc]


/-- The elements of a packed word, each at its place. -/
theorem foldl_add_getD (n : Nat) (el : Nat → Nat × Fl) (g : Nat → Nat) :
    (List.range n).foldl (fun w i => w + (((List.range n).map el).getD i (0, Fl.none)).1 * g i) 0
      = ((List.range n).map fun i => (el i).1 * g i).sum := by
  have hget : ((List.range n).map fun i => (((List.range n).map el).getD i (0, Fl.none)).1 * g i)
      = (List.range n).map fun i => (el i).1 * g i := by
    refine List.map_congr_left fun i hi => ?_
    have hi : i < ((List.range n).map el).length := by simpa using hi
    rw [List.getD_eq_getElem?_getD, List.getElem?_eq_getElem hi, Option.getD_some, List.getElem_map, List.getElem_range]
  rw [← hget, List.sum_eq_foldl, List.foldl_map]

theorem convWord?_meetsCauses {i : Instr} {w : LaneWord} (h : convWord? i = some w) : MeetsCauses i w w.out := by
  unfold convWord? at h
  split at h <;> cases h
  case h_1 hd e dst src d a x =>
    refine .of_ok (fun _ => rfl) fun c l ln => ?_
    dsimp only
    split
    · exact ⟨_, rfl⟩
    · split <;> exact ⟨_, rfl⟩
  case h_2 hd e dst src d a b =>
    refine .of_ok (fun s => ?_) fun _ _ _ => ⟨_, rfl⟩
    show execPack hd e dst src d a b s = _
    unfold execPack
    simp only [foldl_add_getD, List.foldl_map]
    rfl
  case h_3 hd src dst d a =>
    refine .of_ok (fun s => ?_) fun _ _ _ => ⟨_, rfl⟩
    have hnone : Fl.none = Fl.inv false := rfl
    show execUnpack hd src dst d a s = _
    unfold execUnpack
    simp only [List.foldl_map, List.map_map, hnone, foldl_or_inv]
    rfl
  all_goals exact .of_ok (fun _ => rfl) fun _ _ _ => ⟨_, rfl⟩

/-- The lanes below a lane, and itself unless `excl` (R151). -/
theorem scan_filter (act : List (Nat × Lane)) (excl : Bool) (l : Nat) :
    (act.filter fun m => if excl then decide (m.1 < l) else decide (m.1 ≤ l))
      = act.filter fun x => decide (x.1 < l) || (!excl && decide (x.1 = l)) := by
  congr 1
  funext x
  cases excl <;> simp [Nat.le_iff_lt_or_eq]

theorem crossWord?_causes {i : Instr} {w : LaneWord} (h : crossWord? i = some w) : w.causeless ∨ MeetsCauses i w w.out := by
  unfold crossWord? at h
  split at h <;> cases h
  case h_2 => exact .inr (.of_ok (fun _ => rfl) fun _ _ _ => ⟨_, rfl⟩)
  case h_3 hd excl op ty e d a =>
    refine .inr (.of_ok (fun s => ?_) fun _ _ _ => ⟨_, rfl⟩)
    show execScan hd excl op ty e d a s = _
    unfold execScan
    simp only [← scan_filter]
    rfl
  all_goals exact .inl fun _ _ _ => rfl

/-- A fixed-latency register word meets no cause, or runs a lane function that meets those of its formula. -/
theorem regWord?_causes {i : Instr} {w : LaneWord} (h : regWord? i = some w) : w.causeless ∨ ∃ f, MeetsCauses i w f := by
  simp only [regWord?, Option.orElse_eq_orElse, Option.orElse_eq_or, Option.or_eq_some_iff] at h
  rcases h with h | ⟨-, h⟩
  · exact .inl (arithWord?_causeless h)
  rcases h with h | ⟨-, h⟩
  · exact .inr (divWord?_meetsCauses h)
  rcases h with h | ⟨-, h⟩
  · exact .inl (bitWord?_causeless h)
  rcases h with h | ⟨-, h⟩
  · exact .inl (predWord?_causeless h)
  rcases h with h | ⟨-, h⟩
  · exact .inl (moveWord?_causeless h)
  rcases h with h | ⟨-, h⟩
  · exact .inr ⟨_, fpWord?_meetsCauses h⟩
  rcases h with h | ⟨-, h⟩
  · exact .inr ⟨_, fpPickWord?_meetsCauses h⟩
  rcases h with h | ⟨-, h⟩
  · exact .inr ⟨_, convWord?_meetsCauses h⟩
  rcases h with h | ⟨-, h⟩
  · exact (crossWord?_causes h).imp id fun m => ⟨_, m⟩
  exact .inl (statusWord?_causeless h)

end Sys2Proof.Machine
end

section
namespace Sys2Proof.Machine

open Sys2Proof

/-- Settles O5: a register word with a cause runs a lane function that meets the causes of its formula, and raises them before
any result is written. -/
theorem registerWordsTakeTheirCauses : Obligations.RegisterWordsTakeTheirCauses := by
  unfold Obligations.RegisterWordsTakeTheirCauses
  intro s i w c hw hr hc
  rcases regWord?_causes hw with hnone | ⟨f, hf⟩
  · exact absurd (hnone.causes_eq_nil c) hc
  · exact hf.exec_takeCauses hr hc

end Sys2Proof.Machine
end

section
/-! SUPPORT. Control registers: what a word that writes one does, and when the write takes effect (R110, R112, R154 to R156, R463). -/

namespace Sys2Proof.Machine

open Sys2Proof

/-! ## The words mtc and cyc (R154, R155, R463) -/

/-- A write of a control register, by the index that the word names. -/
theorem crWrite_eq (s : State) (q : Sel) (idx : BitVec 12) (v : DWord) :
    s.crWrite q idx.toNat v =
      if idx = 0x002 then s.modBlock q.blk fun b => b.crLater q.islot 0x002 (lo32 v &&& 0x1F &&& b.eng.mxs)
      else if idx = 0x004 then s.modBlock q.blk fun b => b.crLater q.islot 0x004 (lo32 v)
      else if idx = 0x00C then s.modSquad q fun x => { x with lc := Tab.set 0 x.lc 0 (lo32 v) }
      else if idx = 0x00D then s.modSquad q fun x => { x with lc := Tab.set 0 x.lc 1 (lo32 v) }
      else if idx = 0x00E then s.modSquad q fun x => { x with lc := Tab.set 0 x.lc 2 (lo32 v) }
      else if idx = 0x020 then s.modSquad q fun x =>
        { x with hr := { x.hr with cause := (x.hr.cause &&& ~~~0x7F) ||| (lo32 v &&& 0x7F) } }
      else if idx = 0x021 then s.modSquad q fun x => { x with hr := { x.hr with epc := v } }
      else if idx = 0x022 then s.modSquad q fun x => { x with hr := { x.hr with flane := lo32 v &&& 0x7F } }
      else s := by
  have hidx (n : BitVec 12) : idx = n ↔ idx.toNat = n.toNat := BitVec.toNat_inj.symm
  simp only [hidx]
  unfold State.crWrite
  split <;> simp_all

/-- A word that writes a control register takes the value of its source. -/
theorem mtcWord_of_val {s : State} {h : Hdr} {n : Nat} {a : Opnd} {c : Ctx} {v : DWord}
    (w : Issues s h (fun _ => { uses := [.rw' (crWide n) a], priv := crPriv n, bad := !crAssigned n }) c)
    (hv : c.mtcVal (crWide n) a = some v) (f : Ctx → DWord → Res) : mtcWord h n a f s = .next (c.finish (f c v)) := by
  rw [mtcWord, issue_of w, hv]

/-- It does nothing where no lane is active. -/
theorem mtcWord_of_inactive {s : State} {h : Hdr} {n : Nat} {a : Opnd} {c : Ctx}
    (w : Issues s h (fun _ => { uses := [.rw' (crWide n) a], priv := crPriv n, bad := !crAssigned n }) c)
    (hact : c.act = []) (f : Ctx → DWord → Res) : mtcWord h n a f s = .next (c.past c.s) := by
  have hnone : c.mtcVal (crWide n) a = none := by simp [Ctx.mtcVal, hact]
  rw [mtcWord, issue_of w, hnone]
  rfl

theorem exec_mtc {s : State} {h : Hdr} {idx : BitVec 12} {a : Opnd} {c : Ctx} {v : DWord} (w : Runs s (.mtc h idx a) c)
    (hv : c.mtcVal (crWide idx.toNat) a = some v) : exec (.mtc h idx a) s = .next (c.past (c.s.crWrite c.q idx.toNat v)) :=
  mtcWord_of_val w hv fun c v => .ok (c.s.crWrite c.q idx.toNat v)

theorem exec_fpcWrite {s : State} {h : Hdr} {a : Opnd} {c : Ctx} {v : DWord} (w : Runs s (.fpcWrite h a) c)
    (hv : c.mtcVal false a = some v) : exec (.fpcWrite h a) s = .next (c.past (c.s.modBlock c.q.blk fun b =>
      { b with fpc := b.fpc.write (c.s.stall c.q.stall).clock c.q.islot (lo32 v) })) :=
  mtcWord_of_val (n := 0x001) w hv fun c v => .ok (c.s.modBlock c.q.blk fun b =>
    { b with fpc := b.fpc.write (c.s.stall c.q.stall).clock c.q.islot (lo32 v) })

/-- No word writes a control register where no lane is active. -/
theorem exec_crWrite_inactive {s : State} {h : Hdr} {idx : BitVec 12} {a : Opnd} {i : Instr} {c : Ctx}
    (hi : i = .mtc h idx a ∨ i = .fpcWrite h a ∨ i = .mqbWrite h a) (w : Runs s i c) (hact : c.act = []) :
    exec i s = .next (c.past c.s) := by
  rcases hi with rfl | rfl | rfl
  · show execMtc h idx a s = _
    exact mtcWord_of_inactive w hact _
  · show execFpcWrite h a s = _
    exact mtcWord_of_inactive (n := 0x001) w hact _
  · show execMqbWrite h a s = _
    exact mtcWord_of_inactive (n := 0x010) w hact _

theorem exec_cyc {s : State} {h : Hdr} {d : Opnd} {c : Ctx} (w : Runs s (.cyc h d) c) (hr : c.real ≠ none) :
    exec (.cyc h d) s
      = .next (c.past (c.writeAll c.s d (wordsOf true (BitVec.ofNat 64 (c.s.stall c.q.stall).clock)))) := by
  obtain ⟨x, hx⟩ := Option.ne_none_iff_exists'.1 hr
  show execCyc h d s = _
  unfold execCyc
  refine (issue_of w _).trans ?_
  simp only [hx]
  rfl

/-! ## Writes that the squads of a block share take effect as the clock ends (R156) -/

/-- A block that no word has written in the clock has no write to drop. -/
theorem Block.dropWrites_eq {b : Block} (h : b.crw = []) : { b with crw := [] } = b := by rw [← h]

/-- One write, where none was made before it in the clock. -/
theorem crLand_crLater {b : Block} (h : b.crw = []) (i idx : Nat) (v : Word) : (b.crLater i idx v).crLand = b.crDo ⟨i, idx, v⟩ := by
  simp only [Block.crLand, Block.crLater, h, insertBy, List.foldl_cons, List.foldl_nil, Block.dropWrites_eq h]

/-- Two writes of different issue slots, whichever word came first: the lower slot's takes effect before the higher's. -/
theorem crLand_crLater_crLater {b : Block} (h : b.crw = []) {i j : Nat} (hij : i < j) (x y : Nat) (v w : Word) :
    ((b.crLater i x v).crLater j y w).crLand = (b.crDo ⟨i, x, v⟩).crDo ⟨j, y, w⟩
    ∧ ((b.crLater j y w).crLater i x v).crLand = (b.crDo ⟨i, x, v⟩).crDo ⟨j, y, w⟩ := by
  have hji : ¬ j < i := Nat.not_lt.2 (Nat.le_of_lt hij)
  simp [Block.crLand, Block.crLater, h, insertBy, Block.dropWrites_eq h, hij, hji]

/-! ## The clock advances (R156) -/

/-- A write of a control register leaves the squads of its block and the writes to come. -/
theorem crDo_squads (b : Block) (w : CrWrite) (qs : Tab Squad) :
    Block.crDo { b with squads := qs } w = { b.crDo w with squads := qs } := by
  unfold Block.crDo
  dsimp only
  split <;> rfl

theorem crDo_crw (b : Block) (w : CrWrite) : (b.crDo w).crw = b.crw := by
  unfold Block.crDo
  split <;> rfl

theorem crLand_squads (b : Block) (qs : Tab Squad) : Block.crLand { b with squads := qs } = { b.crLand with squads := qs } := by
  have hfold (ws : List CrWrite) (k : Block) :
      ws.foldl Block.crDo { k with squads := qs } = { ws.foldl Block.crDo k with squads := qs } := by
    induction ws generalizing k with
    | nil => rfl
    | cons w ws ih => rw [List.foldl_cons, List.foldl_cons, crDo_squads, ih]
  exact hfold b.crw { b with crw := [] }

/-- Once they have taken effect no write is left. -/
theorem crLand_crw (b : Block) : b.crLand.crw = [] := by
  have hfold (ws : List CrWrite) (k : Block) : (ws.foldl Block.crDo k).crw = k.crw := by
    induction ws generalizing k with
    | nil => rfl
    | cons w ws ih => rw [List.foldl_cons, ih, crDo_crw]
  exact hfold b.crw { b with crw := [] }

theorem crLand_of_empty {b : Block} (h : b.crw = []) : b.crLand = b := by
  rw [Block.crLand, h, Block.dropWrites_eq h]
  rfl

/-- The writes to every block of a core take effect. -/
theorem Core.block?_crLand (k : Core) {pos : Nat} (hp : pos < 16) : k.crLand.block? pos = (k.block? pos).map Block.crLand := by
  have hland (b : Block) : (if b.crw.isEmpty then b else b.crLand) = b.crLand := by
    split
    · exact (crLand_of_empty (List.isEmpty_iff.1 ‹_›)).symm
    · rfl
  simp only [Core.block?, hp, if_true, Core.crLand, hland]
  exact Tab.find?_map k.blocks (fun _ b => b.crLand) pos

theorem core_map_crLand (t : Stall) (n : Nat) :
    Tab.get Core.reset (t.cores.map fun c => (c.1, c.2.crLand)) n = (t.core n).crLand := by
  have hfind : Tab.find? (t.cores.map fun c => (c.1, c.2.crLand)) n = (Tab.find? t.cores n).map Core.crLand :=
    Tab.find?_map t.cores (fun _ k => k.crLand) n
  unfold Stall.core Tab.get
  rw [hfind]
  cases Tab.find? t.cores n <;> rfl

/-- What a change of the squads alone leaves of a state: the clocks, and every block but its squads. -/
structure SquadsOnly (s t : State) : Prop where
  clock : ∀ st, (t.stall st).clock = (s.stall st).clock
  block : ∀ p b, s.block? p = some b → ∃ qs, t.block? p = some { b with squads := qs }

theorem SquadsOnly.refl (s : State) : SquadsOnly s s := ⟨fun _ => rfl, fun _ b h => ⟨b.squads, h⟩⟩

theorem SquadsOnly.trans {s t u : State} (h : SquadsOnly s t) (k : SquadsOnly t u) : SquadsOnly s u := by
  refine ⟨fun st => (k.clock st).trans (h.clock st), fun p b hb => ?_⟩
  obtain ⟨qs, hq⟩ := h.block p b hb
  obtain ⟨qs', hq'⟩ := k.block p _ hq
  exact ⟨qs', hq'⟩

theorem modSquad_squadsOnly (s : State) (q : Sel) (f : Squad → Squad) : SquadsOnly s (s.modSquad q f) := by
  refine ⟨fun st => modSquad_cyc s q f st 0, fun p b hb => ?_⟩
  by_cases hp : p = q.blk
  · subst hp
    have hmod : ∃ qs, b.modSquad q.slot f = { b with squads := qs } := by
      unfold Block.modSquad
      split
      · exact ⟨b.squads, rfl⟩
      · exact ⟨_, rfl⟩
    obtain ⟨qs, hqs⟩ := hmod
    exact ⟨qs, by rw [block?_modSquad, hb, Option.map_some, hqs]⟩
  · exact ⟨b.squads, (block?_modSquad_ne s f hp).trans hb⟩

/-- Steps that change squads alone do so together. -/
theorem foldl_squadsOnly {α : Type} {g : State → α → State} (hg : ∀ t x, SquadsOnly t (g t x)) (xs : List α) (s : State) :
    SquadsOnly s (xs.foldl g s) := by
  induction xs generalizing s with
  | nil => exact .refl s
  | cons x xs ih => exact (hg s x).trans (ih _)

theorem noteReady_squadsOnly (s : State) (st : Nat) : SquadsOnly s (s.noteReady st) := by
  refine foldl_squadsOnly (fun t x => ?_) _ _
  extract_lets r
  split
  · exact .refl t
  · exact modSquad_squadsOnly ..

/-- A tick moves the clock of its die, and the writes made in the clock take effect. -/
theorem tickTurn_lands (s : State) {st n core pos : Nat} {b : Block} (hp : pos < 16) (hb : s.block? ⟨st, core, pos⟩ = some b) :
    ((s.tickTurn st n).stall st).clock = (s.stall st).clock + n
    ∧ ∃ qs, (s.tickTurn st n).block? ⟨st, core, pos⟩ = some { b.crLand with squads := qs } := by
  have h := noteReady_squadsOnly s st
  refine ⟨?_, ?_⟩
  · rw [State.tickTurn, stall_modStall, h.clock]
  · obtain ⟨qs, hq⟩ := h.block _ b hb
    refine ⟨qs, ?_⟩
    rw [← crLand_squads, ← Option.map_some, ← hq]
    unfold State.tickTurn State.block? State.core
    rw [stall_modStall, ← Core.block?_crLand _ hp]
    exact congrArg (Core.block? · pos) (core_map_crLand ..)

/-! ## FPC: writes and owed flags (R110, R112, R156) -/

/-- FPC with nothing owed and no write pending. -/
theorem Fpc.eq_of_rest {f : Fpc} (hd : f.due = []) (hw : f.wr = []) : f = .of f.val := by
  cases f
  simp_all [Fpc.of]

/-- A write of FPC is seen at once by its own issue slot, and by the others from the next clock. -/
theorem Fpc.view_write {f : Fpc} (hd : f.due = []) (hw : f.wr = []) (now slot : Nat) (v : Word) :
    (f.write now slot v).view now slot = fpcWritten f.val v
    ∧ (∀ k, k ≠ slot → (f.write now slot v).view now k = f.val)
    ∧ ∀ m k, now < m → (f.write now slot v).view m k = fpcWritten f.val v := by
  rw [Fpc.eq_of_rest hd hw]
  have hwrite : (Fpc.of f.val).write now slot v = ⟨f.val, [], [(now, slot, v)]⟩ := rfl
  rw [hwrite]
  refine ⟨?_, fun k hk => ?_, fun m k hm => ?_⟩
  · simp [Fpc.view, Fpc.settle, Fpc.land, Fpc.of]
  · simp [Fpc.view, Fpc.settle, Fpc.land, Fpc.of, Ne.symm hk]
  · simp [Fpc.view, Fpc.settle, Fpc.land, Fpc.take, Fpc.of, hm]

/-- Flags owed are set from their clock on. -/
theorem Fpc.view_owe {f : Fpc} (hd : f.due = []) (hw : f.wr = []) {now m : Nat} (at' k : Nat) (bits : Word) :
    (f.owe now at' bits).view m k = if at' ≤ m then f.val ||| bits else f.val := by
  rw [Fpc.eq_of_rest hd hw]
  have howe : (Fpc.of f.val).owe now at' bits = ⟨f.val, [(at', bits)], []⟩ := rfl
  rw [howe]
  by_cases h : at' ≤ m <;> simp [Fpc.view, Fpc.settle, Fpc.land, Fpc.of, h]

/-- A write before the clock in which owed flags are set does not clear them. -/
theorem Fpc.view_write_owe {f : Fpc} (hd : f.due = []) (hw : f.wr = []) {at' w m : Nat} (now slot k : Nat) (bits v : Word)
    (hwa : w < at') (hwm : w < m) (ham : at' ≤ m) :
    ((f.owe now at' bits).write w slot v).view m k = fpcWritten f.val v ||| bits := by
  rw [Fpc.eq_of_rest hd hw]
  have howe : ((Fpc.of f.val).owe now at' bits).write w slot v = ⟨f.val, [(at', bits)], [(w, slot, v)]⟩ := by
    simp [Fpc.owe, Fpc.write, Fpc.settle, Fpc.land, Fpc.of, insertBy, hwa]
  rw [howe]
  simp [Fpc.view, Fpc.settle, Fpc.land, Fpc.take, Fpc.of, hwm, hwa, ham]

end Sys2Proof.Machine
end

section
namespace Sys2Proof.Machine

open Sys2Proof

/-- Settles O8: mtc by its index, the shared writes by their order and by the tick that ends their clock, and FPC by the clock in
which it is read. -/
theorem controlRegisterWordsWriteWhatTheyName : Obligations.ControlRegisterWordsWriteWhatTheyName := by
  unfold Obligations.ControlRegisterWordsWriteWhatTheyName
  refine ⟨fun s h idx a c v w hv => ?mtc, fun b i j v w h => ?shared,
    fun s st n core pos rest b ha hp hb => ?tick, fun s h a c v => exec_fpcWrite, fun s h idx a i c => exec_crWrite_inactive,
    fun s h d c => exec_cyc, fun f now slot v hd hw => Fpc.view_write hd hw now slot v,
    fun f now at' slot k m bits v hd hw _ =>
      ⟨Fpc.view_owe hd hw at' k bits, fun w _ => Fpc.view_write_owe hd hw now slot k bits v⟩⟩
  case mtc => rw [exec_mtc w hv, crWrite_eq]
  case shared => exact ⟨crLand_crLater h .., crLand_crLater h .., fun hij => crLand_crLater_crLater h hij ..⟩
  case tick =>
    obtain ⟨hclock, qs, hblock⟩ := tickTurn_lands { s with agenda := rest } (n := n) hp hb
    refine ⟨_, by rw [step, ha]; rfl, hclock, ?_⟩
    rw [hblock, Option.map_some, crLand_crw]

end Sys2Proof.Machine
end

section
/-! SUPPORT. The matrix engine's queue: a write of MQB, and menq (R213 to R218, R239, R247). -/

namespace Sys2Proof.Machine

open Sys2Proof

/-! ## Causes of one lane -/

/-- A cause that one lane raises is taken. -/
theorem finish_raise_one (c : Ctx) (l : Nat) {e : Nat} (he : isWait e = false) (va : DWord) :
    c.finish (.raise [(l, e)] va) = c.s.takeCauses c.q [(l, e)] c.sq.pc va := by
  simp [Ctx.finish, Ctx.raise, anyWaits, he]

/-- A cause of the acting lane is taken, or, of a helper lane, the lane leaves its quad (R53, R491). -/
theorem finish_actingRaise (c : Ctx) (l : Nat) (ln : Lane) {e : Nat} (he : isWait e = false) (va : DWord) :
    c.finish (c.actingRaise (l, ln) e va)
      = if ln.helper then c.past (c.s.modSquad c.q fun q => q.dropLanes [l]) else c.s.takeCauses c.q [(l, e)] c.sq.pc va := by
  cases hh : ln.helper with
  | false => simpa [Ctx.actingRaise, hh] using finish_raise_one c l he va
  | true => simp [Ctx.actingRaise, hh, he, Ctx.finish, Ctx.past]

/-! ## A write of MQB (R213, R214, R216) -/

/-- A write of MQB where its lanes are known: it is ignored, its acting lane takes a cause, it holds its issue slot, or it takes effect as
its clock ends. -/
theorem exec_mqbWrite {s : State} {h : Hdr} {a : Opnd} {c : Ctx} {v : DWord} {x : Nat × Lane} (w : Runs s (.mqbWrite h a) c)
    (hv : c.mtcVal false a = some v) (hx : c.acting = some x) :
    exec (.mqbWrite h a) s = .next (c.finish (
      if c.blk.kern.mqEnt = 0 then .ok c.s
      else if field v 31 23 < 8 ∨ 256 < field v 31 23 then c.actingRaise x 0x42 0
      else if c.blk.kern.pad < 16 * field v 18 4 + 16 * field v 31 23 then c.actingRaise x 0x26 0
      else if c.blk.eng.mqh ≠ c.blk.eng.mqt ∨ c.blk.eng.run ≠ [] then .hold
      else .ok (c.s.modBlock c.q.blk fun b => b.crLater c.q.islot 0x010 (lo32 v)))) := by
  show execMqbWrite h a s = _
  unfold execMqbWrite
  refine (mtcWord_of_val (n := 0x010) w hv _).trans ?_
  simp only [hx, Bool.or_eq_true, decide_eq_true_eq, Nat.mul_comm 16]

/-! ## The checks of a record (R218) -/

/-- A record of the right shape can fail by its regions alone. -/
theorem mCheck_ne_shape (b : Block) (r : BitVec 128) : b.mCheck r ≠ some 0x42 ↔ mShapeBad b.gang r = false := by
  unfold Block.mCheck
  cases mShapeBad b.gang r with
  | true => simp
  | false =>
    simp only [Bool.false_eq_true, if_false, iff_true]
    repeat' split
    all_goals decide

/-- The checks of a record wait for nothing. -/
theorem isWait_of_mCheck {b : Block} {r : BitVec 128} {e : Nat} (h : b.mCheck r = some e) : isWait e = false := by
  unfold Block.mCheck at h
  split at h
  · cases h; rfl
  · split at h
    · cases h; rfl
    · split at h <;> cases h
      rfl

/-! ## menq (R214, R247) -/

/-- The record that a menq finds in its registers. -/
def Ctx.menqRecord (c : Ctx) (ln : Lane) (a : Opnd) : BitVec 128 :=
  BitVec.ofNat 128 (leNat ((List.range 4).flatMap fun k => leBytes 4 (c.rdAt ln a k).toNat))

/-- The machine once a menq of a squad has appended its record, at the tail of its block's queue (R214). -/
def Ctx.enqueued (c : Ctx) (r : BitVec 128) : State :=
  let s' := c.s.modBlock c.q.blk fun b =>
    let x := b.writePad (b.eng.slot (mqIdx b.eng.mqt)) (leBytes 16 r.toNat)
    let y := if mCmd r = 6 then x.tagTake (mf r 21 16) else x
    { y with eng := { y.eng with mqt := y.eng.after y.eng.mqt, queued := y.eng.queued ++ [(c.q.slot, c.s.nextId)] } }
  { s' with nextId := s'.nextId + 1 }

section
variable {s : State} {h : Hdr} {d a : Opnd} {c : Ctx} {l : Nat} {ln : Lane} {r : BitVec 128}

/-- No queue is there in a block without a matrix engine (R213). -/
theorem exec_menq_absent (w : Runs s (.menq h d a) c) (hx : c.real = some (l, ln)) (hent : c.blk.kern.mqEnt = 0) :
    exec (.menq h d a) s = .next (c.s.takeCauses c.q [(l, 0x40)] c.sq.pc 0) := by
  show execMenq h d a s = _
  unfold execMenq
  refine (issue_of w _).trans ?_
  rw [← finish_raise_one c l rfl]
  simp only [hx, hent, if_true]

/-- The cause of a record that fails its checks is taken before the state of the queue is looked at (R218). -/
theorem exec_menq_bad (w : Runs s (.menq h d a) c) (hx : c.real = some (l, ln)) (hr : c.menqRecord ln a = r)
    (hent : c.blk.kern.mqEnt ≠ 0) {e : Nat} (hbad : c.blk.mCheck r = some e) :
    exec (.menq h d a) s = .next (c.s.takeCauses c.q [(l, e)] c.sq.pc 0) := by
  unfold Ctx.menqRecord at hr
  show execMenq h d a s = _
  unfold execMenq
  refine (issue_of w _).trans ?_
  rw [← finish_raise_one c l (isWait_of_mCheck hbad)]
  simp only [hx, hent, if_false, hr, hbad]

/-- Behind a record's checks come the move of the queue (log 56), the gang (R239), the tag and the room (R247). -/
theorem exec_menq_good (w : Runs s (.menq h d a) c) (hx : c.real = some (l, ln)) (hr : c.menqRecord ln a = r)
    (hent : c.blk.kern.mqEnt ≠ 0) (hgood : c.blk.mCheck r = none) :
    exec (.menq h d a) s = .next (c.finish (
      if c.blk.mqbMoves then .hold
      else if mCmd r = 7 ∧ c.blk.gang < 2 then .raise [(l, 0x42)] 0
      else if mCmd r = 6 ∧ c.blk.tagsBusy.getLsbD (mf r 21 16) = true then .raise [(l, 0x44)] 0
      else if c.blk.eng.full then .raise [(l, 0x40)] 0
      else .ok (c.writeAll (c.enqueued r) d [c.blk.eng.mqt]))) := by
  unfold Ctx.menqRecord at hr
  show execMenq h d a s = _
  unfold execMenq
  refine (issue_of w _).trans ?_
  simp only [hx, hent, if_false, hr, hgood, Bool.and_eq_true, decide_eq_true_eq]
  rfl

end

end Sys2Proof.Machine
end

section
/-! SUPPORT. The matrix commands MSWAP and MZERO: their records, the exchange of the planes, and the rows of zeros (R227, R237). -/

namespace Sys2Proof.Machine

open Sys2Proof

/-! ## Records -/

theorem mShapeBad_swap (g : Nat) {r : BitVec 128} (h : mCmd r = 2) : mShapeBad g r = false ↔ r = 2 := by
  have hcmd : r.toNat % 2 ^ 8 = 2 := by simpa [mCmd, mf] using h
  have hshape : mShapeBad g r = false ↔ r.toNat / 2 ^ 8 % 2 ^ 120 = 0 := by
    simp only [mShapeBad, h, ne_eq, decide_eq_false_iff_not, Decidable.not_not]
    rfl
  rw [hshape, ← BitVec.toNat_inj]
  have hlt := r.isLt
  show _ ↔ r.toNat = 2
  omega

theorem mShapeBad_zero (g : Nat) {r : BitVec 128} (h : mCmd r = 5) : mShapeBad g r = false ↔
    1 ≤ mf r 42 32 ∧ mf r 42 32 ≤ 1024 ∧ mf r 15 8 = 0 ∧ mf r 31 26 = 0 ∧ mf r 127 43 = 0 := by
  simp [mShapeBad, h, Nat.one_le_iff_ne_zero, and_assoc]

theorem mMeets_of_cmd {r : BitVec 128} (h3 : mCmd r ≠ 3) (h7 : mCmd r ≠ 7) : mMeets r = false := by
  simp [mMeets, mGang, h3, h7]

theorem usesRing_of_cmd (b : Block) {r : BitVec 128} (h1 : mCmd r ≠ 1) (h3 : mCmd r ≠ 3) : b.usesRing r = false := by
  simp [Block.usesRing, h1, h3]

/-! ## MSWAP (R227) -/

/-- A command that uses no ring and meets no other member is dispatched where its checks pass and a card has room. -/
theorem engineStep_dispatches {s : State} {p : BSel} {b : Block} {r : BitVec 128} (h1 : mCmd r ≠ 1) (h3 : mCmd r ≠ 3)
    (h7 : mCmd r ≠ 7) (hunits : b.eng.unitsFree r = true) (hclock : b.eng.dispatched ≠ some (s.cyc p.stall p.core))
    (hcause : b.dispatchCause r = none) (hroom : s.engineRoom p b r = true) : s.engineStep p b r = s.dispatchHead p none := by
  have hclear : b.headClear r = true := by simp [Block.headClear, usesRing_of_cmd b h1 h3]
  simp [State.engineStep, hunits, hclear, hclock, hcause, hroom, mMeets_of_cmd h3 h7, h1, h3]

/-- A dispatched MSWAP completes in its clock: the planes are exchanged. -/
theorem dispatchHead_swap {s : State} {p : BSel} {b : Block} {r : BitVec 128} (hb : s.block? p = some b) (hr : b.mHead = some r)
    (hcmd : mCmd r = 2) (ring : Option (Nat × Nat × Nat)) :
    s.dispatchHead p ring = s.modBlock p fun _ =>
      let b' := b.popHead (s.cyc p.stall p.core)
      { b' with eng := { b'.eng with active := b.eng.shadow, shadow := b.eng.active, act1 := !b.eng.act1 } } := by
  simp only [State.dispatchHead, hb, hr, hcmd]

theorem exec_mswap {s : State} {p : BSel} {b : Block} {r : BitVec 128} (hb : s.block? p = some b) (hr : b.mHead = some r)
    (hcmd : mCmd r = 2) (hrun : b.engineRuns = true) : exec (.mswap p) s = .next (s.engineStep p b r) := by
  show matrixEvent 2 p s = _
  simp [matrixEvent, hb, hr, hcmd, hrun]

/-! ## MZERO (R237) -/

theorem doZero_rd (b : Block) (c : MCmd) (a : Nat) : (b.doZero c).am.rd a =
    if mf c.rec' 25 16 * 256 ≤ a ∧ a < (mf c.rec' 25 16 + mf c.rec' 42 32) * 256 then 0 else b.am.rd a := by
  show (b.am.wrs _ _).rd a = _
  split
  case isTrue h =>
    obtain ⟨i, rfl⟩ := Nat.exists_eq_add_of_le h.1
    rw [Mem.rd_wrs_in _ _ _ (by rw [List.length_replicate]; omega), List.getElem_replicate]
  case isFalse h =>
    exact Mem.rd_wrs_out _ _ _ (by rw [List.length_replicate]; omega)

/-- A block once its running MZERO has written its rows. -/
def Block.afterZero (b : Block) (i : Nat) (c : MCmd) : Block :=
  { b.doZero c with eng := { b.eng with run := b.eng.run.set i { c with read := true } } }

/-- A command that claimed no slot has none to release. -/
theorem endRows_doZero (b : Block) (i : Nat) {c : MCmd} (h : c.claims = []) : (b.doZero c).endRows i c none = b.afterZero i c := by
  have hrel : (b.doZero c).release c = b.doZero c := by simp [Block.release, h]
  simp only [Block.endRows, hrel]
  rfl

/-- A block whose squads all hold lanes keeps its squads, and goes on. -/
theorem reap_of_all_lanes {s : State} {p : BSel} {b : Block} (hp : p.pos < 16) (hb : s.block? p = some b) (hsq : b.squads ≠ [])
    (hl : ∀ x ∈ b.squads, x.2.lanes ≠ []) : (s.reap p).stores = s.stores ∧ (s.reap p).block? p = some b := by
  have hkeep : b.squads.filter (fun x => !s.slotFree ⟨p.stall, p.core, p.pos, x.1⟩ x.2) = b.squads :=
    List.filter_eq_self.2 fun x hx => by simp [State.slotFree, hl x hx]
  have hblk : (s.reapSquads p).block? p = some b := by
    rw [State.reapSquads, block?_modBlock, hb, Option.map_some, hkeep]
  have hover : (s.reapSquads p).blockOver p b = false := by simp [State.blockOver, hsq]
  have hreap : s.reap p = s.reapSquads p := by simp [State.reap, hblk, hover, Nat.not_le.2 hp]
  rw [hreap]
  exact ⟨rfl, hblk⟩

theorem block?_leaveCard (s : State) (st id : Nat) (p : BSel) : (s.leaveCard st id).block? p = s.block? p := by
  unfold State.leaveCard State.block?
  have hcore := core_modStall_keep s st (fun t => { t with cards := t.cards.filter fun c => c.id ≠ id }) fun _ => rfl
  rw [hcore]

/-- A command other than MTAG is over: its unit is free. -/
theorem cmdDone_effect {s : State} {p : BSel} {b : Block} (hp : p.pos < 16) (hb : s.block? p = some b) (hsq : b.squads ≠ [])
    (hl : ∀ x ∈ b.squads, x.2.lanes ≠ []) (i : Nat) {c : MCmd} (hcmd : mCmd c.rec' ≠ 6) :
    (s.cmdDone p i c).stores = s.stores
      ∧ (s.cmdDone p i c).block? p = some { b with eng := { b.eng with run := b.eng.run.eraseIdx i } } := by
  let u := s.modBlock p fun b => { b with eng := { b.eng with run := b.eng.run.eraseIdx i } }
  have hdone : s.cmdDone p i c = (u.leaveCard p.stall c.card).reap p := by simp only [State.cmdDone, hcmd, if_false, u]
  have hu : (u.leaveCard p.stall c.card).block? p = some { b with eng := { b.eng with run := b.eng.run.eraseIdx i } } := by
    rw [block?_leaveCard, block?_modBlock, hb, Option.map_some]
  rw [hdone]
  exact reap_of_all_lanes hp hu hsq hl

/-- A running MZERO that may access AM writes its rows and is over, at one event. -/
theorem exec_zeroComplete {s : State} {p : BSel} {b : Block} {i : Nat} {c : MCmd} (hb : s.block? p = some b)
    (hc : b.eng.run[i]? = some c) (hcmd : mCmd c.rec' = 5) (hfail : c.failed = false) (hmay : s.cmdMay p b i c = true)
    (hread : c.read = false) (hclaims : c.claims = []) :
    exec (.matrixCommandComplete p i) s = .next ((s.modBlock p fun _ => b.afterZero i c).cmdDone p i c) := by
  have hgang : mGang c.rec' = false := by simp [mGang, hcmd]
  have hrun : b.runCmd c = (b.doZero c, none) := by simp only [Block.runCmd, hcmd]
  show execMatrixCommandComplete p i s = _
  simp [execMatrixCommandComplete, hb, hc, hfail, hmay, hread, hcmd, hgang, hrun, endRows_doZero b i hclaims]

end Sys2Proof.Machine
end

section
namespace Sys2Proof.Machine

open Sys2Proof

/-- Settles O9: the value's two checks, and then the queue and the engine's commands, decide. -/
theorem queueBaseWriteWaitsAndResets : Obligations.QueueBaseWriteWaitsAndResets := by
  unfold Obligations.QueueBaseWriteWaitsAndResets
  intro s h a c v l ln w hv hx ent base cause
  have hcause (e : Nat) (he : isWait e = false) : c.finish (c.actingRaise (l, ln) e 0) = cause e := finish_actingRaise c l ln he 0
  rw [exec_mqbWrite w hv hx]
  refine ⟨fun h0 => ?absent, fun h0 hent => ?count, fun h0 hlo hhi => ⟨fun hpad => ?beyond, fun hpad => ?passes⟩⟩
  case absent => rw [if_pos h0]; rfl
  case count => rw [if_neg h0, if_pos hent, hcause 0x42 rfl]
  all_goals
    have hent : ¬ (ent < 8 ∨ 256 < ent) := by omega
    rw [if_neg h0, if_neg hent]
  case beyond => rw [if_pos hpad, hcause 0x26 rfl]
  case passes =>
    rw [if_neg (Nat.not_lt.2 hpad)]
    refine ⟨fun ⟨hq, hrun⟩ => ⟨?_, fun b i x hb => crLand_crLater hb i 0x010 x⟩, fun hbusy => ?_⟩
    · rw [if_neg (by simp [hq, hrun])]; rfl
    · rw [if_pos hbusy]; rfl

/-- Settles O31: the absent queue and the record's checks come first, then the move of the queue, the gang, the tag and the room. -/
theorem matrixEnqueueAppendsItsRecord : Obligations.MatrixEnqueueAppendsItsRecord := by
  unfold Obligations.MatrixEnqueueAppendsItsRecord
  intro s h d a c l ln w hx r
  have hgood (hent : c.blk.kern.mqEnt ≠ 0) (hr : c.blk.mCheck r = none) := exec_menq_good w hx (r := r) rfl hent hr
  refine ⟨exec_menq_absent w hx, fun e hent hr => exec_menq_bad w hx rfl hent hr, fun hent hr hmoves => ?moves,
    fun hent hr hstill h7 hgang => ?gang, fun hent hr hstill h6 htag => ?tag, fun hent hr hstill hgang htag hfull => ?full,
    fun hent hr hstill hgang htag hroom => ?room⟩
  all_goals rw [hgood hent hr]
  case moves => rw [if_pos hmoves]; rfl
  all_goals rw [if_neg (by simp [hstill])]
  case gang => rw [if_pos ⟨h7, hgang⟩, finish_raise_one c l rfl]
  case tag =>
    have h7 : mCmd r ≠ 7 := by omega
    rw [if_neg fun hg => h7 hg.1, if_pos ⟨h6, htag⟩, finish_raise_one c l rfl]
  all_goals
    have hmember : ¬ (mCmd r = 7 ∧ c.blk.gang < 2) := fun ⟨h7, hlt⟩ => Nat.not_lt.2 (hgang h7) hlt
    have hidle : ¬ (mCmd r = 6 ∧ c.blk.tagsBusy.getLsbD (mf r 21 16) = true) := fun ⟨h6, hb⟩ => by simp [htag h6] at hb
    rw [if_neg hmember, if_neg hidle]
  case full => rw [if_pos hfull, finish_raise_one c l rfl]
  case room => rw [if_neg (by simp [hroom])]; rfl

/-- Settles O60: the records by their shape, MSWAP by its dispatch, and MZERO by its completion. -/
theorem matrixSwapAndZeroFollowTheirRules : Obligations.MatrixSwapAndZeroFollowTheirRules := by
  unfold Obligations.MatrixSwapAndZeroFollowTheirRules
  refine ⟨fun b r => ?records, fun s p b r hb hr hcmd hrun hunits hclock hcause hroom => ?swap,
    fun s p b c i hb hc hfail hsq hl hcmd _ hp hmay hread hclaims => ?zero⟩
  case records =>
    rw [mCheck_ne_shape]
    exact ⟨mShapeBad_swap b.gang, mShapeBad_zero b.gang⟩
  case swap =>
    have hstep := engineStep_dispatches (by omega) (by omega) (by omega) hunits hclock hcause hroom
    refine ⟨_, exec_mswap hb hr hcmd hrun, ?_, ?_⟩ <;> rw [hstep, dispatchHead_swap hb hr hcmd]
    · exact sameMemory_of_stores (modBlock_stores ..)
    · rw [block?_modBlock, hb]; rfl
  case zero =>
    have hblk : (s.modBlock p fun _ => b.afterZero i c).block? p = some (b.afterZero i c) := by
      rw [block?_modBlock, hb, Option.map_some]
    obtain ⟨hst, hdone⟩ := cmdDone_effect hp hblk hsq hl i (c := c) (by omega)
    exact ⟨_, _, exec_zeroComplete hb hc hcmd hfail hmay hread hclaims, sameMemory_of_stores (hst.trans (modBlock_stores ..)), hdone,
      List.eraseIdx_set_eq, rfl, doZero_rd b c⟩

end Sys2Proof.Machine
end
